-- ==== Sys2Proof/Word.lean ====
section
/-! DEFINITION. The plainest word types of the SN-8416: 64-bit words, bytes, and the
widths of the register classes (R10, R77, R78, R79, R175, R179). -/

namespace Sys2Proof

/-- A 64-bit register, address or instruction word. -/
abbrev Word := BitVec 64

/-- One byte of memory. -/
abbrev Byte := BitVec 8

/-- A vector register: 12 grant units of 8,192 bits at most (R14, R179). A hart with a grant of
`g` units uses the low `g * 8192` bits. -/
abbrev VReg := BitVec 98304

/-- A mask register: one bit per element, up to VLMAX for 4-bit elements in a group of eight
registers under twelve units: 12 * 8192 * 8 / 4 bits (R152, R175). -/
abbrev KReg := BitVec 196608

/-- A scale register: `g * 512` bytes, 6,144 bytes at most (R77). -/
abbrev ScReg := BitVec 49152

/-- A codebook register: sixteen bf16 entries (R78). -/
abbrev QtReg := Vector (BitVec 16) 16

/-- A tile cell (R79). -/
abbrev Cell56 := BitVec 56

/-- A packed hart address (R12): FIELD 11:9, FURROW 8:5, CORE 4:2, HART 1:0. -/
abbrev HartLoc := BitVec 12

end Sys2Proof
end

