-- ==== Sys2Proof/Syntax.lean ====
section
/-! DEFINITION. The instructions and events of the SN-8416 as syntax: one constructor of `Instr`
for each row of spec/opcode_table.json. The rows fall in two kinds: the words a hart issues
(R170 to R190), each with its guard in a `Hdr`, and the steps that the device, its firmware and its host
take (rows without an encoding), each with the data that selects it. -/

namespace Sys2Proof

/-- The fifteen element formats of R72, by code 0x0 to 0xE. -/
inductive Fmt
  | i8 | n8 | i16 | n16 | i32 | n32 | i64 | n64
  | f32 | bf16 | f16 | f8e4 | f8e5 | f4 | q4
deriving DecidableEq, Repr

/-- The scopes of R124, codes 0 to 5. -/
inductive Scope
  | hart | core | frw | fld | dev | sys
deriving DecidableEq, Repr

/-- Trap causes 0x01 to 0x17 (R194). -/
inductive Cause
  | illegal | repRange | brk | misalign | absent | absentSt | protect | format | frozen
  | partialBlock | stride | smeta | stalePlan | planCap | clFull | tagFault | barScope | queue
  | arith | trap | svc | integrity | hang
deriving DecidableEq, Repr

/-- ILLEGAL subcodes 0x01 to 0x0F (R192). -/
inductive Subcode
  | unassignedMajor | unassignedFn | form | reserved | lit | lword | register | chain | mask
  | pair | repPrefix | csr | operand | state | planImage
deriving DecidableEq, Repr

/-- A trap as R195's helper `trap(cause, info)` raises it, with the second detail of R54 and the
start index of R325. -/
structure Trap where
  cause : Cause
  info  : Word
  info2 : Word := 0
  start : Nat := 0
deriving DecidableEq, Repr

/-- The guard of an F-word: register G and the negation bit GN (R171). -/
structure Hdr where
  g  : Fin 8
  gn : Bool
deriving DecidableEq, Repr

/-- An immediate: IMM16, or the 62 bits of a trailing literal word (R169, R172). -/
inductive Imm
  | short (b : BitVec 16)
  | lit (b : BitVec 62)
deriving DecidableEq, Repr

/-- The second operand of a scalar instruction: B (FORM 00) or the immediate (FORM 10). -/
inductive Src
  | reg (r : Fin 32)
  | imm (i : Imm)
deriving DecidableEq, Repr

/-- A vector source register with its chain bit (R174). -/
structure CVec where
  r  : Fin 64
  ch : Bool := false
deriving DecidableEq, Repr

/-- A mask source register with its chain bit (R174). -/
structure CMask where
  r  : Fin 8
  ch : Bool := false
deriving DecidableEq, Repr

/-- The second operand of a vector instruction: vector register (FORM 00), x register (FORM 01) or
immediate (FORM 10). -/
inductive VSrc
  | vec (v : CVec)
  | x (r : Fin 32)
  | imm (i : Imm)
deriving DecidableEq, Repr

/-- The operand of vmv: A in FORM 00, B as an x register in FORM 01, the immediate in FORM 10 (R226). -/
inductive VmvSrc
  | vec (v : CVec)
  | x (r : Fin 32)
  | imm (i : Imm)
deriving DecidableEq, Repr

/-- The position or count of a VPERM instruction: x register (FORM 01) or immediate (FORM 10). -/
inductive PosSrc
  | x (r : Fin 32)
  | imm (i : Imm)
deriving DecidableEq, Repr

/-- The B operand of OPA and OPA2: a vector panel (FORM 00) or a scratchpad panel (FORM 01) (R301). -/
inductive OpaB
  | vec (v : CVec)
  | pad (r : Fin 32)
deriving DecidableEq, Repr

/-- vtype as R179 lays it out: element format and GROUP (0: 1 register … 3: 8 registers). Code 0xF is never
held. -/
structure VType where
  fmt   : Fmt
  group : Fin 4
deriving DecidableEq, Repr

/-- IMM16 of an AMO (R205): width, release, acquire and scope. -/
structure AmoOpts where
  word  : Bool      -- WIDTH 0b01 (.w)
  rl    : Bool
  aq    : Bool
  scope : Scope
deriving DecidableEq, Repr

/-- The operand of a pair-word slot: register A (I = 0) or IMM19 (I = 1) (R181). -/
inductive PSrc
  | reg (r : Fin 32)
  | imm (b : BitVec 19)
deriving DecidableEq, Repr

/-- Scalar pair operations POP 1–8 and 10 (R182). -/
inductive PairAlu
  | add | sub | and | or | xor | sll | srl | sra | mul
deriving DecidableEq, Repr

/-- Integer vector pair operations POP 16–23 (R182). -/
inductive PairVint
  | vadd | vsub | vmul | vand | vor | vxor | vmin | vmax
deriving DecidableEq, Repr

/-- Floating-point vector pair operations POP 24–28 (R182). -/
inductive PairVfp
  | vfadd | vfsub | vfmul | vfmin | vfmax
deriving DecidableEq, Repr

/-- One slot of a pair word (R181, R182). -/
inductive Slot
  | pnop
  | salu (op : PairAlu) (d : Fin 32) (y : PSrc)
  | mv (d : Fin 32) (y : PSrc)
  | br (off : BitVec 19)
  | brg (g : Fin 8) (off : BitVec 19)
  | bdec (d : Fin 32) (off : BitVec 19)
  | vint (op : PairVint) (d : Fin 32) (y : PSrc)
  | vfp (op : PairVfp) (d a : Fin 32)
  | vmv (d : Fin 32) (y : PSrc)
  | vfabs (d a : Fin 32)
  | vfneg (d a : Fin 32)
deriving DecidableEq, Repr

/-- The slot holds a vector operation (R182). -/
def Slot.isVector : Slot → Bool
  | .vint _ _ _ => true
  | .vfp _ _ _ => true
  | .vmv _ _ => true
  | .vfabs _ _ => true
  | .vfneg _ _ => true
  | .pnop => false
  | .salu _ _ _ => false
  | .mv _ _ => false
  | .br _ => false
  | .brg _ _ => false
  | .bdec _ _ => false

/-- The count of a repeat prefix: COUNT or x[CREG] (R185). -/
inductive RepCount
  | imm (n : BitVec 16)
  | reg (r : Fin 32)
deriving DecidableEq, Repr

/-- A repeat prefix (R185): count and the strides of D, A and B. -/
structure RepPrefix where
  count : RepCount
  sd    : BitVec 3
  sa    : BitVec 3
  sb    : BitVec 3
deriving DecidableEq, Repr

/-- Who asks the firmware for a memory service (R32): the hart's SVC, or a function's mailbox. -/
inductive Via
  | svc (h : Hdr)
  | mbox (fn : Nat)
deriving DecidableEq, Repr

/-- A hart by its launch, its crew and its packed address: a pre-empted hart leaves its number to others, which may belong to its own
launch (R12, R331). Log entry 37: DEDUCED. -/
structure Dest where
  launch : Nat
  crew   : BitVec 32
  loc    : HartLoc
deriving DecidableEq, Repr

/-- A message of a hart's queue: its sender and its payload, 256 bytes at most (R58, R61). -/
structure Message where
  sender : HartLoc
  bytes  : List Byte
deriving DecidableEq, Repr

/-- A write unit that has reached its target (R122): `core`, `launch` and a window offset for the scratchpad,
or a storage address of a stack. -/
inductive WriteUnit
  | pad (core launch off : Nat) (bytes : List Byte)
  | stack (frame off : Nat) (bytes : List Byte)
deriving DecidableEq, Repr

/-- How a contribution of a merging add is summed and stored (R63, R265): integers of a width on RAW
pages, a vtype format on RAW pages, or the page's own format (FMT code). -/
inductive MergeKind
  | int (w : Nat)
  | raw (f : Fmt)
  | page (fmt : Nat)
deriving DecidableEq, Repr

/-- One element of a merging add (R63): the frame and logical offset of the target, and the contribution (the
integer, or its f32 bit pattern). `row` is the row size in bytes on a row-coherent page and 0 elsewhere (R264); `nib` is the bit
offset of a 4-bit element within its byte; `who` is the contributing hart (none for a peer), and `vramo` tells whether it is part of a
VRAMO. -/
structure MergeAdd where
  frame : Nat
  off   : Nat
  nib   : Nat
  row   : Nat
  kind  : MergeKind
  val   : Word
  who   : Option Dest
  vramo : Bool
deriving DecidableEq, Repr

/-- The operations of a returning atomic (R206). -/
inductive AmoOp
  | add | swap | cas | min | max | minu | maxu | and | or | xor
deriving DecidableEq, Repr

/-- A request of a peer device (R367, R370): a read, a write, a returning atomic of 4 or 8 bytes with its operands (`b`, and for cas the
compared value `c`), or the elements of a merging add, each with its address, the bit offset of a 4-bit element and its
contribution. -/
inductive PeerReq
  | read (va : Word) (len : Nat)
  | write (va : Word) (bytes : List Byte)
  | atomic (va : Word) (word : Bool) (op : AmoOp) (b c : Word)
  | merge (kind : MergeKind) (elts : List (Word × Nat × Word)) (vramo : Bool)
deriving DecidableEq, Repr

/-- What the boot ROM finds in module flash (R375): the loader's and the firmware's image, signature and
security version. -/
structure BootImages where
  loader    : List Byte
  loaderSig : List Byte
  loaderVer : Nat
  fw        : List Byte
  fwSig     : List Byte
  fwVer     : Nat
deriving DecidableEq, Repr

/-- A clock the firmware can lower (R377): a field's core clock, or a stack's. -/
inductive ClockDomain
  | field (n : Fin 8)
  | stack (n : Fin 12)
deriving DecidableEq, Repr

/-- The steps of the device: one constructor for each row of spec/opcode_table.json. Log entry 35: DEDUCED. -/
inductive Instr
  -- Salu (major 0x00)
  | add (h : Hdr) (d : Fin 32) (a : Fin 32) (y : Src)
  | sub (h : Hdr) (d : Fin 32) (a : Fin 32) (y : Src)
  | and (h : Hdr) (d : Fin 32) (a : Fin 32) (y : Src)
  | or (h : Hdr) (d : Fin 32) (a : Fin 32) (y : Src)
  | xor (h : Hdr) (d : Fin 32) (a : Fin 32) (y : Src)
  | sll (h : Hdr) (d : Fin 32) (a : Fin 32) (y : Src)
  | srl (h : Hdr) (d : Fin 32) (a : Fin 32) (y : Src)
  | sra (h : Hdr) (d : Fin 32) (a : Fin 32) (y : Src)
  | mul (h : Hdr) (d : Fin 32) (a : Fin 32) (y : Src)
  | mulh (h : Hdr) (d : Fin 32) (a : Fin 32) (y : Src)
  | mulhu (h : Hdr) (d : Fin 32) (a : Fin 32) (y : Src)
  | div (h : Hdr) (d : Fin 32) (a : Fin 32) (y : Src)
  | divu (h : Hdr) (d : Fin 32) (a : Fin 32) (y : Src)
  | rem (h : Hdr) (d : Fin 32) (a : Fin 32) (y : Src)
  | remu (h : Hdr) (d : Fin 32) (a : Fin 32) (y : Src)
  | min (h : Hdr) (d : Fin 32) (a : Fin 32) (y : Src)
  | max (h : Hdr) (d : Fin 32) (a : Fin 32) (y : Src)
  | minu (h : Hdr) (d : Fin 32) (a : Fin 32) (y : Src)
  | maxu (h : Hdr) (d : Fin 32) (a : Fin 32) (y : Src)
  | clz (h : Hdr) (d : Fin 32) (a : Fin 32)
  | ctz (h : Hdr) (d : Fin 32) (a : Fin 32)
  | popc (h : Hdr) (d : Fin 32) (a : Fin 32)
  | addsh (h : Hdr) (d : Fin 32) (a : Fin 32) (b : Fin 32) (sh : BitVec 3)
  | rot (h : Hdr) (d : Fin 32) (a : Fin 32) (y : Src)
  -- Scmp (major 0x01)
  | ceq (h : Hdr) (d : Fin 8) (a : Fin 32) (y : Src)
  | cne (h : Hdr) (d : Fin 8) (a : Fin 32) (y : Src)
  | clt (h : Hdr) (d : Fin 8) (a : Fin 32) (y : Src)
  | cltu (h : Hdr) (d : Fin 8) (a : Fin 32) (y : Src)
  | cge (h : Hdr) (d : Fin 8) (a : Fin 32) (y : Src)
  | cgeu (h : Hdr) (d : Fin 8) (a : Fin 32) (y : Src)
  | gand (h : Hdr) (d : Fin 8) (a : Fin 8) (b : Fin 8)
  | gor (h : Hdr) (d : Fin 8) (a : Fin 8) (b : Fin 8)
  | gxor (h : Hdr) (d : Fin 8) (a : Fin 8) (b : Fin 8)
  | gnot (h : Hdr) (d : Fin 8) (a : Fin 8)
  -- Smov (major 0x02)
  | li (h : Hdr) (d : Fin 32) (i : Imm)
  | mv (h : Hdr) (d : Fin 32) (a : Fin 32)
  | adr (h : Hdr) (d : Fin 32) (i : Imm)
  | sel (h : Hdr) (d : Fin 32) (a : Fin 32) (b : Fin 32) (n : BitVec 3)
  | gget (h : Hdr) (d : Fin 32)
  | gput (h : Hdr) (a : Fin 32)
  -- Sfp (major 0x03)
  | fadd (h : Hdr) (d : Fin 32) (a : Fin 32) (b : Fin 32)
  | fsub (h : Hdr) (d : Fin 32) (a : Fin 32) (b : Fin 32)
  | fmul (h : Hdr) (d : Fin 32) (a : Fin 32) (b : Fin 32)
  | fdiv (h : Hdr) (d : Fin 32) (a : Fin 32) (b : Fin 32)
  | fma (h : Hdr) (d : Fin 32) (a : Fin 32) (b : Fin 32)
  | fmin (h : Hdr) (d : Fin 32) (a : Fin 32) (b : Fin 32)
  | fmax (h : Hdr) (d : Fin 32) (a : Fin 32) (b : Fin 32)
  | fsqrt (h : Hdr) (d : Fin 32) (a : Fin 32)
  | fcvtw (h : Hdr) (d : Fin 32) (a : Fin 32)
  | fcvtf (h : Hdr) (d : Fin 32) (a : Fin 32)
  | fclt (h : Hdr) (d : Fin 8) (a : Fin 32) (b : Fin 32)
  | fceq (h : Hdr) (d : Fin 8) (a : Fin 32) (b : Fin 32)
  | fcle (h : Hdr) (d : Fin 8) (a : Fin 32) (b : Fin 32)
  -- Sld (major 0x08)
  | lb (h : Hdr) (d : Fin 32) (a : Fin 32) (i : Imm)
  | lbu (h : Hdr) (d : Fin 32) (a : Fin 32) (i : Imm)
  | lh (h : Hdr) (d : Fin 32) (a : Fin 32) (i : Imm)
  | lhu (h : Hdr) (d : Fin 32) (a : Fin 32) (i : Imm)
  | lw (h : Hdr) (d : Fin 32) (a : Fin 32) (i : Imm)
  | lwu (h : Hdr) (d : Fin 32) (a : Fin 32) (i : Imm)
  | ld (h : Hdr) (d : Fin 32) (a : Fin 32) (i : Imm)
  | ldacq (h : Hdr) (d : Fin 32) (a : Fin 32) (sc : Scope)
  -- Sst (major 0x09)
  | sb (h : Hdr) (d : Fin 32) (a : Fin 32) (i : Imm)
  | sh (h : Hdr) (d : Fin 32) (a : Fin 32) (i : Imm)
  | sw (h : Hdr) (d : Fin 32) (a : Fin 32) (i : Imm)
  | sd (h : Hdr) (d : Fin 32) (a : Fin 32) (i : Imm)
  | strel (h : Hdr) (d : Fin 32) (a : Fin 32) (sc : Scope)
  -- Amo (major 0x0A)
  | amoadd (h : Hdr) (d : Fin 32) (a : Fin 32) (b : Fin 32) (o : AmoOpts)
  | amoswap (h : Hdr) (d : Fin 32) (a : Fin 32) (b : Fin 32) (o : AmoOpts)
  | amocas (h : Hdr) (d : Fin 32) (a : Fin 32) (b : Fin 32) (o : AmoOpts)
  | amomin (h : Hdr) (d : Fin 32) (a : Fin 32) (b : Fin 32) (o : AmoOpts)
  | amomax (h : Hdr) (d : Fin 32) (a : Fin 32) (b : Fin 32) (o : AmoOpts)
  | amominu (h : Hdr) (d : Fin 32) (a : Fin 32) (b : Fin 32) (o : AmoOpts)
  | amomaxu (h : Hdr) (d : Fin 32) (a : Fin 32) (b : Fin 32) (o : AmoOpts)
  | amoand (h : Hdr) (d : Fin 32) (a : Fin 32) (b : Fin 32) (o : AmoOpts)
  | amoor (h : Hdr) (d : Fin 32) (a : Fin 32) (b : Fin 32) (o : AmoOpts)
  | amoxor (h : Hdr) (d : Fin 32) (a : Fin 32) (b : Fin 32) (o : AmoOpts)
  -- Br (major 0x10)
  | br (h : Hdr) (i : Imm)
  | jal (h : Hdr) (i : Imm)
  | jr (h : Hdr) (a : Fin 32)
  | jalr (h : Hdr) (d : Fin 32) (a : Fin 32)
  | bdec (h : Hdr) (d : Fin 32) (i : Imm)
  -- Sys (major 0x18)
  | csrr (h : Hdr) (d : Fin 32) (n : BitVec 12)
  | csrw (h : Hdr) (a : Fin 32) (n : BitVec 12)
  | csrs (h : Hdr) (a : Fin 32) (n : BitVec 12)
  | csrc (h : Hdr) (a : Fin 32) (n : BitVec 12)
  | trap (h : Hdr) (code : BitVec 16)
  | svc (h : Hdr) (code : BitVec 16)
  | ebreak (h : Hdr)
  | uret (h : Hdr)
  | halt (h : Hdr)
  | yield (h : Hdr)
  | icsync (h : Hdr)
  | ujmp (h : Hdr) (a : Fin 32)
  | wfe (h : Hdr) (d : Fin 32) (m : BitVec 5)
  | launch (h : Hdr) (a : Fin 32) (b : Fin 32)
  -- Sync (major 0x19)
  | barCrew (h : Hdr) (id : BitVec 4)
  | barLaunch (h : Hdr) (id : BitVec 4)
  | itpost (h : Hdr) (a : Fin 32) (c : BitVec 4)
  | itwait (h : Hdr) (a : Fin 32) (c : BitVec 4)
  | fenceSv (h : Hdr) (sc : Scope)
  | fenceVs (h : Hdr) (sc : Scope)
  | fenceVv (h : Hdr) (sc : Scope)
  | fenceAll (h : Hdr) (sc : Scope)
  | fencerec (h : Hdr) (a : Fin 32) (b : Fin 32)
  -- Vint (major 0x20)
  | vadd (h : Hdr) (d : Fin 64) (a : CVec) (b : VSrc) (m : Fin 8)
  | vsub (h : Hdr) (d : Fin 64) (a : CVec) (b : VSrc) (m : Fin 8)
  | vrsub (h : Hdr) (d : Fin 64) (a : CVec) (b : VSrc) (m : Fin 8)
  | vand (h : Hdr) (d : Fin 64) (a : CVec) (b : VSrc) (m : Fin 8)
  | vor (h : Hdr) (d : Fin 64) (a : CVec) (b : VSrc) (m : Fin 8)
  | vxor (h : Hdr) (d : Fin 64) (a : CVec) (b : VSrc) (m : Fin 8)
  | vsll (h : Hdr) (d : Fin 64) (a : CVec) (b : VSrc) (m : Fin 8)
  | vsrl (h : Hdr) (d : Fin 64) (a : CVec) (b : VSrc) (m : Fin 8)
  | vsra (h : Hdr) (d : Fin 64) (a : CVec) (b : VSrc) (m : Fin 8)
  | vmul (h : Hdr) (d : Fin 64) (a : CVec) (b : VSrc) (m : Fin 8)
  | vmulh (h : Hdr) (d : Fin 64) (a : CVec) (b : VSrc) (m : Fin 8)
  | vmulhu (h : Hdr) (d : Fin 64) (a : CVec) (b : VSrc) (m : Fin 8)
  | vdiv (h : Hdr) (d : Fin 64) (a : CVec) (b : VSrc) (m : Fin 8)
  | vdivu (h : Hdr) (d : Fin 64) (a : CVec) (b : VSrc) (m : Fin 8)
  | vrem (h : Hdr) (d : Fin 64) (a : CVec) (b : VSrc) (m : Fin 8)
  | vremu (h : Hdr) (d : Fin 64) (a : CVec) (b : VSrc) (m : Fin 8)
  | vmin (h : Hdr) (d : Fin 64) (a : CVec) (b : VSrc) (m : Fin 8)
  | vmax (h : Hdr) (d : Fin 64) (a : CVec) (b : VSrc) (m : Fin 8)
  | vminu (h : Hdr) (d : Fin 64) (a : CVec) (b : VSrc) (m : Fin 8)
  | vmaxu (h : Hdr) (d : Fin 64) (a : CVec) (b : VSrc) (m : Fin 8)
  | vsadd (h : Hdr) (d : Fin 64) (a : CVec) (b : VSrc) (m : Fin 8)
  | vsaddu (h : Hdr) (d : Fin 64) (a : CVec) (b : VSrc) (m : Fin 8)
  | vssub (h : Hdr) (d : Fin 64) (a : CVec) (b : VSrc) (m : Fin 8)
  | vssubu (h : Hdr) (d : Fin 64) (a : CVec) (b : VSrc) (m : Fin 8)
  | vabs (h : Hdr) (d : Fin 64) (a : CVec) (m : Fin 8)
  | vmv (h : Hdr) (d : Fin 64) (b : VmvSrc) (m : Fin 8)
  | vmerge (h : Hdr) (d : Fin 64) (a : CVec) (b : VSrc) (m : Fin 8)
  | vid (h : Hdr) (d : Fin 64) (m : Fin 8)
  -- Vicmp (major 0x21)
  | vseq (h : Hdr) (d : Fin 8) (a : CVec) (b : VSrc) (m : Fin 8)
  | vsne (h : Hdr) (d : Fin 8) (a : CVec) (b : VSrc) (m : Fin 8)
  | vslt (h : Hdr) (d : Fin 8) (a : CVec) (b : VSrc) (m : Fin 8)
  | vsltu (h : Hdr) (d : Fin 8) (a : CVec) (b : VSrc) (m : Fin 8)
  | vsle (h : Hdr) (d : Fin 8) (a : CVec) (b : VSrc) (m : Fin 8)
  | vsleu (h : Hdr) (d : Fin 8) (a : CVec) (b : VSrc) (m : Fin 8)
  | vsgt (h : Hdr) (d : Fin 8) (a : CVec) (b : VSrc) (m : Fin 8)
  | vsgtu (h : Hdr) (d : Fin 8) (a : CVec) (b : VSrc) (m : Fin 8)
  -- Vfp (major 0x30)
  | vfadd (h : Hdr) (d : Fin 64) (a : CVec) (b : VSrc) (m : Fin 8)
  | vfsub (h : Hdr) (d : Fin 64) (a : CVec) (b : VSrc) (m : Fin 8)
  | vfrsub (h : Hdr) (d : Fin 64) (a : CVec) (b : VSrc) (m : Fin 8)
  | vfmul (h : Hdr) (d : Fin 64) (a : CVec) (b : VSrc) (m : Fin 8)
  | vfdiv (h : Hdr) (d : Fin 64) (a : CVec) (b : VSrc) (m : Fin 8)
  | vfrdiv (h : Hdr) (d : Fin 64) (a : CVec) (b : VSrc) (m : Fin 8)
  | vfsqrt (h : Hdr) (d : Fin 64) (a : CVec) (m : Fin 8)
  | vfrsqrt (h : Hdr) (d : Fin 64) (a : CVec) (m : Fin 8)
  | vfrcpz (h : Hdr) (d : Fin 64) (a : CVec) (m : Fin 8)
  | vfma (h : Hdr) (d : Fin 64) (a : CVec) (b : VSrc) (m : Fin 8)
  | vfms (h : Hdr) (d : Fin 64) (a : CVec) (b : VSrc) (m : Fin 8)
  | vfnma (h : Hdr) (d : Fin 64) (a : CVec) (b : VSrc) (m : Fin 8)
  | vfnms (h : Hdr) (d : Fin 64) (a : CVec) (b : VSrc) (m : Fin 8)
  | vfmin (h : Hdr) (d : Fin 64) (a : CVec) (b : VSrc) (m : Fin 8)
  | vfmax (h : Hdr) (d : Fin 64) (a : CVec) (b : VSrc) (m : Fin 8)
  | vfabs (h : Hdr) (d : Fin 64) (a : CVec) (m : Fin 8)
  | vfneg (h : Hdr) (d : Fin 64) (a : CVec) (m : Fin 8)
  | vfsgnj (h : Hdr) (d : Fin 64) (a : CVec) (b : VSrc) (m : Fin 8)
  | vfexp2 (h : Hdr) (d : Fin 64) (a : CVec) (m : Fin 8)
  | vflog2 (h : Hdr) (d : Fin 64) (a : CVec) (m : Fin 8)
  | vfscale (h : Hdr) (d : Fin 64) (a : CVec) (b : VSrc) (m : Fin 8)
  | vfclass (h : Hdr) (d : Fin 64) (a : CVec) (m : Fin 8)
  | vfround (h : Hdr) (d : Fin 64) (a : CVec) (m : Fin 8)
  -- Vfcmp (major 0x31)
  | vfeq (h : Hdr) (d : Fin 8) (a : CVec) (b : VSrc) (m : Fin 8)
  | vfne (h : Hdr) (d : Fin 8) (a : CVec) (b : VSrc) (m : Fin 8)
  | vflt (h : Hdr) (d : Fin 8) (a : CVec) (b : VSrc) (m : Fin 8)
  | vfle (h : Hdr) (d : Fin 8) (a : CVec) (b : VSrc) (m : Fin 8)
  | vfgt (h : Hdr) (d : Fin 8) (a : CVec) (b : VSrc) (m : Fin 8)
  | vfge (h : Hdr) (d : Fin 8) (a : CVec) (b : VSrc) (m : Fin 8)
  | vfuno (h : Hdr) (d : Fin 8) (a : CVec) (b : VSrc) (m : Fin 8)
  -- Vmask (major 0x38)
  | kand (h : Hdr) (d : Fin 8) (a : CMask) (b : CMask)
  | kor (h : Hdr) (d : Fin 8) (a : CMask) (b : CMask)
  | kxor (h : Hdr) (d : Fin 8) (a : CMask) (b : CMask)
  | kandn (h : Hdr) (d : Fin 8) (a : CMask) (b : CMask)
  | knot (h : Hdr) (d : Fin 8) (a : CMask)
  | kpop (h : Hdr) (d : Fin 32) (a : CMask)
  | kfirst (h : Hdr) (d : Fin 32) (a : CMask)
  | kset (h : Hdr) (d : Fin 8) (a : Fin 32)
  | kmvToMask (h : Hdr) (d : Fin 8) (a : CVec)
  | kmvToVector (h : Hdr) (d : Fin 64) (a : CMask)
  | kall (h : Hdr) (d : Fin 8)
  -- Vperm (major 0x39)
  | vslideup (h : Hdr) (d : Fin 64) (a : CVec) (n : PosSrc) (m : Fin 8)
  | vslidedown (h : Hdr) (d : Fin 64) (a : CVec) (n : PosSrc) (m : Fin 8)
  | vbcast (h : Hdr) (d : Fin 64) (a : CVec) (n : PosSrc) (m : Fin 8)
  | vcompress (h : Hdr) (d : Fin 64) (a : CVec) (b : CMask)
  | vexpand (h : Hdr) (d : Fin 64) (a : CVec) (b : CMask)
  | vext (h : Hdr) (d : Fin 32) (a : CVec) (n : PosSrc)
  | vins (h : Hdr) (d : Fin 64) (a : Fin 32) (n : PosSrc)
  -- Vscan (major 0x3A)
  | vscanadd (h : Hdr) (d : Fin 64) (a : CVec) (m : Fin 8)
  | vscanmax (h : Hdr) (d : Fin 64) (a : CVec) (m : Fin 8)
  | vscanmin (h : Hdr) (d : Fin 64) (a : CVec) (m : Fin 8)
  | vscanmul (h : Hdr) (d : Fin 64) (a : CVec) (m : Fin 8)
  | vrecur (h : Hdr) (d : Fin 64) (a : CVec) (b : CVec)
  -- Vred (major 0x3B)
  | vredsum (h : Hdr) (d : Fin 32) (a : CVec) (m : Fin 8)
  | vredmax (h : Hdr) (d : Fin 32) (a : CVec) (m : Fin 8)
  | vredmin (h : Hdr) (d : Fin 32) (a : CVec) (m : Fin 8)
  | vredand (h : Hdr) (d : Fin 32) (a : CVec) (m : Fin 8)
  | vredor (h : Hdr) (d : Fin 32) (a : CVec) (m : Fin 8)
  | vredxor (h : Hdr) (d : Fin 32) (a : CVec) (m : Fin 8)
  | vfredsum (h : Hdr) (d : Fin 32) (a : CVec) (m : Fin 8)
  | vfredosum (h : Hdr) (d : Fin 32) (a : CVec) (m : Fin 8)
  | vfredmax (h : Hdr) (d : Fin 32) (a : CVec) (m : Fin 8)
  | vfredmin (h : Hdr) (d : Fin 32) (a : CVec) (m : Fin 8)
  -- Vcfg (major 0x48)
  | vset (h : Hdr) (d : Fin 32) (a : Fin 32) (t : VType)
  | vsetrun (h : Hdr) (d : Fin 32) (a : Fin 32) (b : Fin 32) (lg : BitVec 5)
  | mcfg (h : Hdr) (a : Fin 32)
  | qtld (h : Hdr) (d : Fin 4) (a : Fin 32)
  | scmvToScale (h : Hdr) (d : Fin 8) (a : CVec)
  | scmvFromScale (h : Hdr) (d : Fin 64) (a : Fin 8)
  -- Vcvt (major 0x49)
  | vcvth (h : Hdr) (d : Fin 64) (a : CVec) (m : Fin 8) (f : Fmt) (sat : Bool)
  | vcvtd (h : Hdr) (d : Fin 64) (a : CVec) (m : Fin 8) (f : Fmt)
  | vcvtq (h : Hdr) (d : Fin 64) (a : CVec) (b : Fin 8) (m : Fin 8) (q4 : Bool) (qt : Fin 4)
  | vcvti (h : Hdr) (d : Fin 64) (a : CVec) (m : Fin 8) (dir : BitVec 2)
  -- Vld (major 0x50)
  | vld (h : Hdr) (d : Fin 64) (a : Fin 32) (i : Imm) (s : Option (Fin 8)) (m : Fin 8) (fk : Fin 8)
  | vlds (h : Hdr) (d : Fin 64) (a : Fin 32) (b : Fin 32) (m : Fin 8) (fk : Fin 8)
  | vldrow (h : Hdr) (d : Fin 64) (a : Fin 32) (m : Fin 8) (fk : Fin 8)
  | vldl (h : Hdr) (d : Fin 64) (a : Fin 32) (i : Imm) (m : Fin 8)
  | vldfm (h : Hdr) (d : Fin 64) (a : Fin 32) (m : Fin 8)
  -- Vst (major 0x51)
  | vst (h : Hdr) (d : Fin 64) (a : Fin 32) (i : Imm) (s : Option (Fin 8)) (m : Fin 8)
  | vsts (h : Hdr) (d : Fin 64) (a : Fin 32) (b : Fin 32) (m : Fin 8)
  | vstl (h : Hdr) (d : Fin 64) (a : Fin 32) (i : Imm) (m : Fin 8)
  -- Copy (major 0x52)
  | cpy (h : Hdr) (d : Fin 32) (a : Fin 32) (b : Fin 32) (tag : Fin 64)
  | cpy2 (h : Hdr) (d : Fin 32) (a : Fin 32) (b : Fin 32) (tag : Fin 64)
  | cpres (h : Hdr) (tag : Fin 64)
  | pgreq (h : Hdr) (a : Fin 32) (tag : Fin 64)
  -- Tag (major 0x53)
  | twany (h : Hdr) (d : Fin 32) (a : Fin 32)
  | twall (h : Hdr) (a : Fin 32)
  | tffr (h : Hdr) (d : Fin 32) (a : Fin 32)
  | tclr (h : Hdr) (a : Fin 32)
  -- Stag (major 0x54)
  | stlook (h : Hdr) (d : Fin 32) (a : Fin 32)
  | stset (h : Hdr) (a : Fin 32) (b : Fin 32)
  | stinv (h : Hdr) (a : Fin 32)
  -- Vrem (major 0x60)
  | vramo (h : Hdr) (a : Fin 32) (b : CVec) (m : Fin 8) (sc : Scope) (rl : Bool)
  | vrred (h : Hdr) (a : Fin 32) (b : CVec) (m : Fin 8) (s : Option (Fin 8))
  | mqpush (h : Hdr) (a : Fin 32) (b : CVec)
  | mqpop (h : Hdr) (d : Fin 64)
  | mqcred (h : Hdr) (d : Fin 32) (a : Fin 32)
  | gcsleep (h : Hdr) (d : Fin 8) (a : CVec) (b : CVec) (m : Fin 8) (sc : Scope) (aq : Bool) (allm : Bool)
  -- Plan (major 0x68)
  | plan (h : Hdr) (d : Fin 16) (a : CVec) (b : Fin 32) (fk : Fin 8)
  | planm (h : Hdr) (d : Fin 16) (a : Fin 32) (b : Fin 32)
  | plgat (h : Hdr) (d : Fin 64) (a : Fin 32) (b : Fin 32) (m : Fin 8) (fk : Fin 8) (p : Fin 16) (chk : Bool)
  | plcpy (h : Hdr) (d : Fin 32) (a : Fin 32) (b : Fin 32) (m : Fin 8) (fk : Fin 8) (p : Fin 16) (chk : Bool) (tag : Fin 64)
  | plgatv (h : Hdr) (d : Fin 64) (a : CVec) (m : Fin 8) (p : Fin 16)
  | plscatAdd (h : Hdr) (d : Fin 32) (a : Fin 32) (b : CVec) (m : Fin 8) (p : Fin 16) (chk : Bool)
  | plscatMin (h : Hdr) (d : Fin 32) (a : Fin 32) (b : CVec) (m : Fin 8) (p : Fin 16) (chk : Bool)
  | plscatMax (h : Hdr) (d : Fin 32) (a : Fin 32) (b : CVec) (m : Fin 8) (p : Fin 16) (chk : Bool)
  | plscatFirst (h : Hdr) (d : Fin 32) (a : Fin 32) (b : CVec) (m : Fin 8) (p : Fin 16) (chk : Bool)
  | plscatLast (h : Hdr) (d : Fin 32) (a : Fin 32) (b : CVec) (m : Fin 8) (p : Fin 16) (chk : Bool)
  | plscatAmoadd (h : Hdr) (d : Fin 32) (a : Fin 32) (b : CVec) (m : Fin 8) (p : Fin 16) (chk : Bool)
  | plredAdd (h : Hdr) (d : Fin 64) (a : CVec) (m : Fin 8) (p : Fin 16)
  | plredMin (h : Hdr) (d : Fin 64) (a : CVec) (m : Fin 8) (p : Fin 16)
  | plredMax (h : Hdr) (d : Fin 64) (a : CVec) (m : Fin 8) (p : Fin 16)
  | plbcast (h : Hdr) (d : Fin 64) (a : CVec) (p : Fin 16)
  | plcomp (h : Hdr) (d : Fin 16) (a : Fin 16) (b : Fin 16)
  | plinfo (h : Hdr) (d : Fin 32) (a : Fin 16) (sel : BitVec 8)
  | plchk (h : Hdr) (d : Fin 32) (a : Fin 16)
  | plsave (h : Hdr) (a : Fin 32) (b : Fin 16)
  | plload (h : Hdr) (d : Fin 16) (a : Fin 32)
  | plfree (h : Hdr) (d : Fin 16)
  -- Mat (major 0x70)
  | opa (h : Hdr) (d : Fin 4) (a : CVec) (b : OpaB) (m : Fin 8) (fa : Fmt) (fb : Fmt) (qt : Fin 4)
  | opa2 (h : Hdr) (d : Fin 4) (a : CVec) (b : OpaB) (m : Fin 8) (fa : Fmt) (fb : Fmt) (qt : Fin 4)
  | opamx (h : Hdr) (d : Fin 4) (a : CVec) (b : CVec) (m : Fin 8) (fa : Fmt) (fb : Fmt) (sa : Fin 8) (sb : Fin 8)
  | tzero (h : Hdr) (d : Fin 4) (int : Bool)
  | tld (h : Hdr) (d : Fin 4) (a : CVec) (b : Fin 32) (m : Fin 8)
  | tst (h : Hdr) (d : Fin 64) (a : Fin 4) (b : Fin 32) (m : Fin 8) (tr : Bool)
  -- Clus (major 0x78)
  | clcfg (h : Hdr) (a : Fin 32) (b : Fin 32)
  | clins (h : Hdr) (d : Fin 64) (a : CVec) (b : CVec) (m : Fin 8) (fk : Fin 8)
  | clmrg (h : Hdr) (d : Fin 32)
  | clrd (h : Hdr) (d : Fin 64) (a : Fin 32) (fld : BitVec 2)
  | clclr (h : Hdr)
  | clstat (h : Hdr) (d : Fin 32) (sel : BitVec 4)
  -- pair words, the repeat prefix, and the steps of the device, the firmware and the host
  | pairWord (a b : Slot)
  | pnop
  | brg (g : Fin 8) (off : BitVec 19)
  | rep (p : RepPrefix) (f : BitVec 64) (lit : Option (BitVec 62))
  | instructionFetch
  | trapDelivery (t : Trap)
  | storeAtTarget (loc : HartLoc)
  | writeUnitPerform (u : WriteUnit)
  | mergingAddArrival (c : MergeAdd)
  | writeQueueApply (n : Nat)
  | copyChunk (loc : HartLoc) (tag : Fin 64)
  | copyComplete (loc : HartLoc) (tag : Fin 64)
  | messageDelivery (dst : HartLoc) (msg : Message)
  | creditGrant (dst : HartLoc)
  | gcsleepReevaluation (loc : HartLoc)
  | recordCheck (fn : Nat) (q : Fin 16)
  | dependenceRead (fn : Nat) (q : Fin 16)
  | crewPlacement (fn : Nat)
  | preemption (launch crew : Nat)
  | resumption (launch crew : Nat)
  | budgetExpiry (launch crew : Nat)
  | gleanSweep (stack : Fin 12)
  | conversionCommit (frame : Nat)
  | version (h : Hdr)
  | svcPartition (h : Hdr)
  | frames (h : Hdr)
  | mapPages (v : Via)
  | unmapPages (v : Via)
  | protectPages (v : Via)
  | offerPages (v : Via)
  | acceptPages (v : Via)
  | thawPages (v : Via)
  | exportPages (fn : Nat)
  | importPages (fn : Nat)
  | attest (fn : Nat)
  | partition (fn : Nat)
  | quota (fn : Nat)
  | weight (fn : Nat)
  | setglean (fn : Nat)
  | setbudget (fn : Nat)
  | peerset (fn : Nat)
  | migrate (fn : Nat)
  | migrationQuiesce (fn : Nat)
  | dbgattach (fn : Nat)
  | dbgdetach (fn : Nat)
  | dbgstop (fn : Nat)
  | dbgresume (fn : Nat)
  | dbgretire (fn : Nat)
  | dbgread (fn : Nat)
  | hostRead (fn : Nat) (off : BitVec 36) (len : Nat)
  | hostWrite (fn : Nat) (off : BitVec 36) (bytes : List Byte)
  | peerAccess (target : BitVec 8) (fn : Nat) (req : PeerReq)
  | qtailDoorbell (fn : Nat) (q : Fin 16) (t : BitVec 32)
  | queueEnable (fn : Nat) (q : Fin 16)
  | queueDisable (fn : Nat) (q : Fin 16)
  | restart (fn : Nat) (q : Fin 16)
  | skip (fn : Nat) (q : Fin 16)
  | prtailWrite (fn : Nat) (v : BitVec 32)
  | prrefuse (fn : Nat) (va : Word)
  | evtailWrite (fn : Nat) (v : BitVec 32)
  | registerWrite (fn : Nat) (off : BitVec 16) (v : Word)
  | linkDown (target : BitVec 8)
  | linkUp (target : BitVec 8)
  | hostLinkTraining (gen width : Nat)
  | boot (img : BootImages)
  | deviceReset
  | hbmUncorrectableError (stack : Fin 12) (frame : Nat)
  | coreUncorrectableError (core : BitVec 10)
  | furrowFailure (furrow : BitVec 7)
  | pseudoChannelFailure (stack : Fin 12) (channel : Fin 384)
  | monitorLimit (dom : ClockDomain)
  | functionCreation (fn : Nat) (ctx : BitVec 16)
  | unassignedEncoding (sub : Subcode)
deriving DecidableEq, Repr

end Sys2Proof
end

