-- ==== Sys2Proof/WellFormed.lean ====
section
/-! DEFINITION. What makes an instruction well formed beyond its types: the operand limits that the encoding
states (checks 3 and 12 of R192, R183, R185, R228, R247, R301, R305). -/

namespace Sys2Proof

/-- The register a slot writes: class (true for vector) and number. -/
def Slot.dest : Slot → Option (Bool × Nat)
  | .pnop => none
  | .br _ => none
  | .brg _ _ => none
  | .salu _ d _ => some (false, d.val)
  | .mv d _ => some (false, d.val)
  | .bdec d _ => some (false, d.val)
  | .vint _ d _ => some (true, d.val)
  | .vfp _ d _ => some (true, d.val)
  | .vmv d _ => some (true, d.val)
  | .vfabs d _ => some (true, d.val)
  | .vfneg d _ => some (true, d.val)

def Slot.isBranch : Slot → Bool
  | .br _ => true
  | .brg _ _ => true
  | .bdec _ _ => true
  | .pnop => false
  | .salu _ _ _ => false
  | .mv _ _ => false
  | .vint _ _ _ => false
  | .vfp _ _ _ => false
  | .vmv _ _ => false
  | .vfabs _ _ => false
  | .vfneg _ _ => false

/-- The rules of R183 that the word alone decides: no branch in slot A, no shared destination, and two vector
destinations differ modulo 4. -/
def pairOk (a b : Slot) : Bool :=
  !a.isBranch &&
  match a.dest, b.dest with
  | some (va, da), some (vb, db) => !(va == vb && da == db) && !(va && vb && da % 4 == db % 4)
  | _, _ => true

/-- Formats an outer product encodes (R301; R304 leaves out f32). -/
def opaFmt (f32ok : Bool) : Fmt → Bool
  | .i8 => true | .n8 => true | .f32 => f32ok
  | .bf16 => true | .f16 => true | .f8e4 => true | .f8e5 => true | .f4 => true | .q4 => true
  | .i16 => false | .n16 => false | .i32 => false | .n32 => false | .i64 => false | .n64 => false

/-- Formats of OPAMX (R305). -/
def mxFmt (f : Fmt) : Bool := f == .f8e4 || f == .f8e5 || f == .f4

/-- A vector operand of register form names no register of the destination number `d` (R228). -/
def CVec.apart (v : CVec) (d : Fin 64) : Bool := v.r != d

/-- The operand limits of each instruction's encoding. Log entry 34: DEDUCED. -/
def wellFormed : Instr → Bool
  | .add _ _ _ _ => true
  | .sub _ _ _ _ => true
  | .and _ _ _ _ => true
  | .or _ _ _ _ => true
  | .xor _ _ _ _ => true
  | .sll _ _ _ _ => true
  | .srl _ _ _ _ => true
  | .sra _ _ _ _ => true
  | .mul _ _ _ _ => true
  | .mulh _ _ _ _ => true
  | .mulhu _ _ _ _ => true
  | .div _ _ _ _ => true
  | .divu _ _ _ _ => true
  | .rem _ _ _ _ => true
  | .remu _ _ _ _ => true
  | .min _ _ _ _ => true
  | .max _ _ _ _ => true
  | .minu _ _ _ _ => true
  | .maxu _ _ _ _ => true
  | .clz _ _ _ => true
  | .ctz _ _ _ => true
  | .popc _ _ _ => true
  | .addsh _ _ _ _ _ => true
  | .rot _ _ _ _ => true
  | .ceq _ _ _ _ => true
  | .cne _ _ _ _ => true
  | .clt _ _ _ _ => true
  | .cltu _ _ _ _ => true
  | .cge _ _ _ _ => true
  | .cgeu _ _ _ _ => true
  | .gand _ _ _ _ => true
  | .gor _ _ _ _ => true
  | .gxor _ _ _ _ => true
  | .gnot _ _ _ => true
  | .li _ _ _ => true
  | .mv _ _ _ => true
  | .adr _ _ _ => true
  | .sel _ _ _ _ _ => true
  | .gget _ _ => true
  | .gput _ _ => true
  | .fadd _ _ _ _ => true
  | .fsub _ _ _ _ => true
  | .fmul _ _ _ _ => true
  | .fdiv _ _ _ _ => true
  | .fma _ _ _ _ => true
  | .fmin _ _ _ _ => true
  | .fmax _ _ _ _ => true
  | .fsqrt _ _ _ => true
  | .fcvtw _ _ _ => true
  | .fcvtf _ _ _ => true
  | .fclt _ _ _ _ => true
  | .fceq _ _ _ _ => true
  | .fcle _ _ _ _ => true
  | .lb _ _ _ _ => true
  | .lbu _ _ _ _ => true
  | .lh _ _ _ _ => true
  | .lhu _ _ _ _ => true
  | .lw _ _ _ _ => true
  | .lwu _ _ _ _ => true
  | .ld _ _ _ _ => true
  | .ldacq _ _ _ _ => true
  | .sb _ _ _ _ => true
  | .sh _ _ _ _ => true
  | .sw _ _ _ _ => true
  | .sd _ _ _ _ => true
  | .strel _ _ _ _ => true
  | .amoadd _ _ _ _ _ => true
  | .amoswap _ _ _ _ _ => true
  | .amocas _ _ _ _ _ => true
  | .amomin _ _ _ _ _ => true
  | .amomax _ _ _ _ _ => true
  | .amominu _ _ _ _ _ => true
  | .amomaxu _ _ _ _ _ => true
  | .amoand _ _ _ _ _ => true
  | .amoor _ _ _ _ _ => true
  | .amoxor _ _ _ _ _ => true
  | .br _ _ => true
  | .jal _ _ => true
  | .jr _ _ => true
  | .jalr _ _ _ => true
  | .bdec _ _ _ => true
  | .csrr _ _ _ => true
  | .csrw _ _ _ => true
  | .csrs _ _ _ => true
  | .csrc _ _ _ => true
  | .trap _ _ => true
  | .svc _ code => !(code.toNat ≤ 2 || (16 ≤ code.toNat && code.toNat ≤ 21))
  | .ebreak _ => true
  | .uret _ => true
  | .halt _ => true
  | .yield _ => true
  | .icsync _ => true
  | .ujmp _ _ => true
  | .wfe _ _ _ => true
  | .launch _ _ _ => true
  | .barCrew _ _ => true
  | .barLaunch _ _ => true
  | .itpost _ _ _ => true
  | .itwait _ _ _ => true
  | .fenceSv _ _ => true
  | .fenceVs _ _ => true
  | .fenceVv _ _ => true
  | .fenceAll _ _ => true
  | .fencerec _ _ _ => true
  | .vadd _ _ _ _ _ => true
  | .vsub _ _ _ _ _ => true
  | .vrsub _ _ _ _ _ => true
  | .vand _ _ _ _ _ => true
  | .vor _ _ _ _ _ => true
  | .vxor _ _ _ _ _ => true
  | .vsll _ _ _ _ _ => true
  | .vsrl _ _ _ _ _ => true
  | .vsra _ _ _ _ _ => true
  | .vmul _ _ _ _ _ => true
  | .vmulh _ _ _ _ _ => true
  | .vmulhu _ _ _ _ _ => true
  | .vdiv _ _ _ _ _ => true
  | .vdivu _ _ _ _ _ => true
  | .vrem _ _ _ _ _ => true
  | .vremu _ _ _ _ _ => true
  | .vmin _ _ _ _ _ => true
  | .vmax _ _ _ _ _ => true
  | .vminu _ _ _ _ _ => true
  | .vmaxu _ _ _ _ _ => true
  | .vsadd _ _ _ _ _ => true
  | .vsaddu _ _ _ _ _ => true
  | .vssub _ _ _ _ _ => true
  | .vssubu _ _ _ _ _ => true
  | .vabs _ _ _ _ => true
  | .vmv _ _ _ _ => true
  | .vmerge _ _ _ _ m => m != 0
  | .vid _ _ _ => true
  | .vseq _ _ _ _ _ => true
  | .vsne _ _ _ _ _ => true
  | .vslt _ _ _ _ _ => true
  | .vsltu _ _ _ _ _ => true
  | .vsle _ _ _ _ _ => true
  | .vsleu _ _ _ _ _ => true
  | .vsgt _ _ _ _ _ => true
  | .vsgtu _ _ _ _ _ => true
  | .vfadd _ _ _ _ _ => true
  | .vfsub _ _ _ _ _ => true
  | .vfrsub _ _ _ _ _ => true
  | .vfmul _ _ _ _ _ => true
  | .vfdiv _ _ _ _ _ => true
  | .vfrdiv _ _ _ _ _ => true
  | .vfsqrt _ _ _ _ => true
  | .vfrsqrt _ _ _ _ => true
  | .vfrcpz _ _ _ _ => true
  | .vfma _ _ _ _ _ => true
  | .vfms _ _ _ _ _ => true
  | .vfnma _ _ _ _ _ => true
  | .vfnms _ _ _ _ _ => true
  | .vfmin _ _ _ _ _ => true
  | .vfmax _ _ _ _ _ => true
  | .vfabs _ _ _ _ => true
  | .vfneg _ _ _ _ => true
  | .vfsgnj _ _ _ _ _ => true
  | .vfexp2 _ _ _ _ => true
  | .vflog2 _ _ _ _ => true
  | .vfscale _ _ _ _ _ => true
  | .vfclass _ _ _ _ => true
  | .vfround _ _ _ _ => true
  | .vfeq _ _ _ _ _ => true
  | .vfne _ _ _ _ _ => true
  | .vflt _ _ _ _ _ => true
  | .vfle _ _ _ _ _ => true
  | .vfgt _ _ _ _ _ => true
  | .vfge _ _ _ _ _ => true
  | .vfuno _ _ _ _ _ => true
  | .kand _ _ _ _ => true
  | .kor _ _ _ _ => true
  | .kxor _ _ _ _ => true
  | .kandn _ _ _ _ => true
  | .knot _ _ _ => true
  | .kpop _ _ _ => true
  | .kfirst _ _ _ => true
  | .kset _ _ _ => true
  | .kmvToMask _ _ _ => true
  | .kmvToVector _ _ _ => true
  | .kall _ _ => true
  | .vslideup _ d a _ _ => a.apart d
  | .vslidedown _ d a _ _ => a.apart d
  | .vbcast _ d a _ _ => a.apart d
  | .vcompress _ d a _ => a.apart d
  | .vexpand _ d a _ => a.apart d
  | .vext _ _ _ _ => true
  | .vins _ _ _ _ => true
  | .vscanadd _ d a _ => a.apart d
  | .vscanmax _ d a _ => a.apart d
  | .vscanmin _ d a _ => a.apart d
  | .vscanmul _ d a _ => a.apart d
  | .vrecur _ d a b => a.apart d && b.apart d
  | .vredsum _ _ _ _ => true
  | .vredmax _ _ _ _ => true
  | .vredmin _ _ _ _ => true
  | .vredand _ _ _ _ => true
  | .vredor _ _ _ _ => true
  | .vredxor _ _ _ _ => true
  | .vfredsum _ _ _ _ => true
  | .vfredosum _ _ _ _ => true
  | .vfredmax _ _ _ _ => true
  | .vfredmin _ _ _ _ => true
  | .vset _ _ _ _ => true
  | .vsetrun _ _ _ _ _ => true
  | .mcfg _ _ => true
  | .qtld _ _ _ => true
  | .scmvToScale _ _ _ => true
  | .scmvFromScale _ _ _ => true
  | .vcvth _ _ _ _ _ _ => true
  | .vcvtd _ d a _ _ => a.apart d
  | .vcvtq _ d a _ _ q4 qt => (q4 || qt == 0) && a.apart d
  | .vcvti _ _ _ _ _ => true
  | .vld _ _ _ _ _ _ _ => true
  | .vlds _ _ _ _ _ _ => true
  | .vldrow _ _ _ _ _ => true
  | .vldl _ _ _ _ _ => true
  | .vldfm _ _ _ _ => true
  | .vst _ _ _ _ _ _ => true
  | .vsts _ _ _ _ _ => true
  | .vstl _ _ _ _ _ => true
  | .cpy _ _ _ _ _ => true
  | .cpy2 _ _ _ _ _ => true
  | .cpres _ _ => true
  | .pgreq _ _ _ => true
  | .twany _ _ _ => true
  | .twall _ _ => true
  | .tffr _ _ _ => true
  | .tclr _ _ => true
  | .stlook _ _ _ => true
  | .stset _ _ _ => true
  | .stinv _ _ => true
  | .vramo _ _ _ _ _ _ => true
  | .vrred _ _ _ _ _ => true
  | .mqpush _ _ _ => true
  | .mqpop _ _ => true
  | .mqcred _ _ _ => true
  | .gcsleep _ _ _ _ _ _ _ _ => true
  | .plan _ _ _ _ _ => true
  | .planm _ _ _ _ => true
  | .plgat _ _ _ _ _ _ _ _ => true
  | .plcpy _ _ _ _ _ _ _ _ _ => true
  | .plgatv _ d a _ _ => a.apart d
  | .plscatAdd _ _ _ _ _ _ _ => true
  | .plscatMin _ _ _ _ _ _ _ => true
  | .plscatMax _ _ _ _ _ _ _ => true
  | .plscatFirst _ _ _ _ _ _ _ => true
  | .plscatLast _ _ _ _ _ _ _ => true
  | .plscatAmoadd _ _ _ _ _ _ _ => true
  | .plredAdd _ d a _ _ => a.apart d
  | .plredMin _ d a _ _ => a.apart d
  | .plredMax _ d a _ _ => a.apart d
  | .plbcast _ _ _ _ => true
  | .plcomp _ _ _ _ => true
  | .plinfo _ _ _ sel => sel.toNat ≤ 10 || (16 ≤ sel.toNat && sel.toNat ≤ 27)
  | .plchk _ _ _ => true
  | .plsave _ _ _ => true
  | .plload _ _ _ => true
  | .plfree _ _ => true
  | .opa _ _ _ _ _ fa fb qt => opaFmt true fa && opaFmt true fb && (qt == 0 || fa == .q4 || fb == .q4)
  | .opa2 _ _ _ _ _ fa fb qt => opaFmt false fa && opaFmt false fb && (qt == 0 || fa == .q4 || fb == .q4)
  | .opamx _ _ _ _ _ fa fb _ _ => mxFmt fa && mxFmt fb
  | .tzero _ _ _ => true
  | .tld _ _ _ _ _ => true
  | .tst _ _ _ _ _ _ => true
  | .clcfg _ _ _ => true
  | .clins _ _ _ _ _ _ => true
  | .clmrg _ _ => true
  | .clrd _ _ _ _ => true
  | .clclr _ => true
  | .clstat _ _ sel => sel.toNat ≤ 7
  | .pairWord a b => pairOk a b && !(a == .pnop && (b == .pnop || match b with | .brg _ _ => true | _ => false))
  | .pnop => true
  | .brg _ _ => true
  | .rep _ f lit => f.toNat / 2 ^ 62 == 0 && (f.toNat / 2 ^ 50 % 2 == 1) == lit.isSome &&
      !(f.toNat / 2 ^ 55 == 0x10 || f.toNat / 2 ^ 55 == 0x18 || f.toNat / 2 ^ 55 == 0x19)
  | .instructionFetch => true
  | .trapDelivery _ => true
  | .storeAtTarget _ => true
  | .writeUnitPerform _ => true
  | .mergingAddArrival _ => true
  | .writeQueueApply _ => true
  | .copyChunk _ _ => true
  | .copyComplete _ _ => true
  | .messageDelivery _ _ => true
  | .creditGrant _ => true
  | .gcsleepReevaluation _ => true
  | .recordCheck _ _ => true
  | .dependenceRead _ _ => true
  | .crewPlacement _ => true
  | .preemption _ _ => true
  | .resumption _ _ => true
  | .budgetExpiry _ _ => true
  | .gleanSweep _ => true
  | .conversionCommit _ => true
  | .version _ => true
  | .svcPartition _ => true
  | .frames _ => true
  | .mapPages _ => true
  | .unmapPages _ => true
  | .protectPages _ => true
  | .offerPages _ => true
  | .acceptPages _ => true
  | .thawPages _ => true
  | .exportPages _ => true
  | .importPages _ => true
  | .attest _ => true
  | .partition _ => true
  | .quota _ => true
  | .weight _ => true
  | .setglean _ => true
  | .setbudget _ => true
  | .peerset _ => true
  | .migrate _ => true
  | .migrationQuiesce _ => true
  | .dbgattach _ => true
  | .dbgdetach _ => true
  | .dbgstop _ => true
  | .dbgresume _ => true
  | .dbgretire _ => true
  | .dbgread _ => true
  | .hostRead _ _ _ => true
  | .hostWrite _ _ _ => true
  | .peerAccess _ _ _ => true
  | .qtailDoorbell _ _ _ => true
  | .queueEnable _ _ => true
  | .queueDisable _ _ => true
  | .restart _ _ => true
  | .skip _ _ => true
  | .prtailWrite _ _ => true
  | .prrefuse _ _ => true
  | .evtailWrite _ _ => true
  | .registerWrite _ _ _ => true
  | .linkDown _ => true
  | .linkUp _ => true
  | .hostLinkTraining _ _ => true
  | .boot _ => true
  | .deviceReset => true
  | .hbmUncorrectableError _ _ => true
  | .coreUncorrectableError _ => true
  | .furrowFailure _ => true
  | .pseudoChannelFailure _ _ => true
  | .monitorLimit _ => true
  | .functionCreation _ _ => true
  | .unassignedEncoding _ => true

end Sys2Proof
end

