-- ==== Sys2Proof/Decode.lean ====
section
/-! DEFINITION. Instruction words (R167 to R195): the decoder, total on any list of words and on any
bytes, with the checks of R192 in their order, and the encoder, written from the same tables of the spec (R190, R196, R226,
R250, R272, R310, R323). -/

namespace Sys2Proof

/-! ## Field helpers -/

/-- Bits `lo + len - 1 .. lo` of a word as a number. -/
def bitsOf (w : Word) (lo len : Nat) : Nat := w.toNat / 2 ^ lo % 2 ^ len

/-- The F-word of R170, field by field, as numbers. -/
structure FWord where
  opc  : Nat := 0
  g    : Nat := 0
  gn   : Bool := false
  lit  : Bool := false
  form : Nat := 0
  d    : Nat := 0
  a    : Nat := 0
  b    : Nat := 0
  ca   : Bool := false
  cb   : Bool := false
  m    : Nat := 0
  fk   : Nat := 0
  fn   : Nat := 0
  imm  : Nat := 0
deriving DecidableEq, Repr

/-- The fields of a word read as an F-word (R170). -/
def FWord.ofWord (w : Word) : FWord :=
  { opc := bitsOf w 55 7, g := bitsOf w 52 3, gn := bitsOf w 51 1 == 1, lit := bitsOf w 50 1 == 1,
    form := bitsOf w 48 2, d := bitsOf w 42 6, a := bitsOf w 36 6, b := bitsOf w 30 6,
    ca := bitsOf w 29 1 == 1, cb := bitsOf w 28 1 == 1, m := bitsOf w 25 3, fk := bitsOf w 22 3,
    fn := bitsOf w 16 6, imm := bitsOf w 0 16 }

/-- The word an F-word's fields make (R170), K = 0b00. -/
def FWord.toNat (f : FWord) : Nat :=
  f.opc * 2 ^ 55 + f.g * 2 ^ 52 + f.gn.toNat * 2 ^ 51 + f.lit.toNat * 2 ^ 50 + f.form * 2 ^ 48 + f.d * 2 ^ 42
    + f.a * 2 ^ 36 + f.b * 2 ^ 30 + f.ca.toNat * 2 ^ 29 + f.cb.toNat * 2 ^ 28 + f.m * 2 ^ 25 + f.fk * 2 ^ 22
    + f.fn * 2 ^ 16 + f.imm

/-- Bits of IMM16. -/
def FWord.immBits (f : FWord) (lo len : Nat) : Nat := f.imm / 2 ^ lo % 2 ^ len

/-- Bits of IMM16 as a bit vector. -/
def FWord.immBv (f : FWord) (lo len : Nat) : BitVec len := BitVec.ofNat len (f.imm / 2 ^ lo)

/-- A register number reduced to its class (the checks have put it in range). -/
def fldN (n : Nat) [NeZero n] (v : Nat) : Fin n := Fin.ofNat n v

def FWord.hdr (f : FWord) : Hdr := ⟨fldN 8 f.g, f.gn⟩

/-- The immediate (R172): the literal when the word has one, else IMM16. -/
def FWord.immv (f : FWord) (l : Option (BitVec 62)) : Imm :=
  match l with
  | some b => .lit b
  | none => .short (BitVec.ofNat 16 f.imm)

def FWord.src (f : FWord) (l : Option (BitVec 62)) : Src :=
  if f.form == 2 then .imm (f.immv l) else .reg (fldN 32 f.b)

def FWord.vsrc (f : FWord) (l : Option (BitVec 62)) : VSrc :=
  if f.form == 2 then .imm (f.immv l)
  else if f.form == 1 then .x (fldN 32 f.b) else .vec ⟨fldN 64 f.b, f.cb⟩

def FWord.vmvsrc (f : FWord) (l : Option (BitVec 62)) : VmvSrc :=
  if f.form == 2 then .imm (f.immv l)
  else if f.form == 1 then .x (fldN 32 f.b) else .vec ⟨fldN 64 f.a, f.ca⟩

def FWord.pos (f : FWord) (l : Option (BitVec 62)) : PosSrc :=
  if f.form == 2 then .imm (f.immv l) else .x (fldN 32 f.b)

def FWord.opaB (f : FWord) : OpaB :=
  if f.form == 1 then .pad (fldN 32 f.b) else .vec ⟨fldN 64 f.b, f.cb⟩

/-- Scope codes of R124 (6 and 7 are refused before this is read). -/
def scopeOf (n : Nat) : Scope :=
  match n with
  | 0 => .hart | 1 => .core | 2 => .frw | 3 => .fld | 4 => .dev | _ => .sys

def Scope.code : Scope → Nat
  | .hart => 0 | .core => 1 | .frw => 2 | .fld => 3 | .dev => 4 | .sys => 5

def FWord.scope (f : FWord) : Scope := scopeOf (f.immBits 0 3)
def scopeOk (f : FWord) : Bool := f.immBits 0 3 ≤ 5

/-- Format codes of R72 (0xF is refused before this is read). -/
def fmtOf (n : Nat) : Fmt :=
  match n with
  | 0 => .i8 | 1 => .n8 | 2 => .i16 | 3 => .n16 | 4 => .i32 | 5 => .n32 | 6 => .i64 | 7 => .n64
  | 8 => .f32 | 9 => .bf16 | 10 => .f16 | 11 => .f8e4 | 12 => .f8e5 | 13 => .f4 | _ => .q4

def Fmt.code : Fmt → Nat
  | .i8 => 0 | .n8 => 1 | .i16 => 2 | .n16 => 3 | .i32 => 4 | .n32 => 5 | .i64 => 6 | .n64 => 7
  | .f32 => 8 | .bf16 => 9 | .f16 => 10 | .f8e4 => 11 | .f8e5 => 12 | .f4 => 13 | .q4 => 14

def FWord.fmt (f : FWord) (lo : Nat) : Fmt := fmtOf (f.immBits lo 4)

def FWord.amo (f : FWord) : AmoOpts :=
  ⟨f.immBits 5 1 == 1, f.immBits 4 1 == 1, f.immBits 3 1 == 1, f.scope⟩

def AmoOpts.bits (o : AmoOpts) : Nat :=
  o.word.toNat * 2 ^ 5 + o.rl.toNat * 2 ^ 4 + o.aq.toNat * 2 ^ 3 + o.scope.code

def VType.bits (t : VType) : Nat := t.group.val * 16 + t.fmt.code

/-- The SC sub-field (R250): bit 3 names a scale register in bits 2:0. -/
def scOf (n : Nat) : Option (Fin 8) := if n / 8 % 2 == 1 then some (fldN 8 n) else none
def scBits : Option (Fin 8) → Nat
  | some n => 8 + n.val
  | none => 0
/-- The bits above the SC sub-field are zero (R250); with bit 3 clear no register is named, whatever bits 2:0 hold. Log entry 34:
DEDUCED. -/
def scBitsOk (n : Nat) : Bool := n < 16

/-- The formats an outer product's encoding admits (R301, R304; f32 in OPA alone). -/
def opaFmtOk (f32ok : Bool) (n : Nat) : Bool := n ≤ 1 || (n == 8 && f32ok) || (9 ≤ n && n ≤ 14)
def opaQtOk (f : FWord) : Bool := f.immBits 8 2 == 0 || f.immBits 0 4 == 14 || f.immBits 4 4 == 14
def mxFmtOk (n : Nat) : Bool := 11 ≤ n && n ≤ 13
/-- The selectors of PLINFO (R293). Log entry 34: DEDUCED. -/
def plinfoSelOk (n : Nat) : Bool := n ≤ 10 || (16 ≤ n && n ≤ 27)

/-- SVC by its service code (R212): each service has a step of its own; other codes are answered BADREQ. -/
noncomputable def svcInstr (f : FWord) : Instr :=
  match f.imm with
  | 0x00 => .version f.hdr
  | 0x01 => .svcPartition f.hdr
  | 0x02 => .frames f.hdr
  | 0x10 => .mapPages (.svc f.hdr)
  | 0x11 => .unmapPages (.svc f.hdr)
  | 0x12 => .protectPages (.svc f.hdr)
  | 0x13 => .offerPages (.svc f.hdr)
  | 0x14 => .acceptPages (.svc f.hdr)
  | 0x15 => .thawPages (.svc f.hdr)
  | n => .svc f.hdr (BitVec.ofNat 16 n)

/-- What the decoder makes of words: an instruction, or the subcode of the ILLEGAL they raise (R192). -/
inductive Decoded
  | ok (i : Instr)
  | bad (s : Subcode)
deriving DecidableEq, Repr

/-! ## The encoding tables -/

/-- What a register field of an instruction names (R177); `sc` is the SC sub-field in B (R250). -/
inductive FClass
  | none | x | g | v | k | s | q | p | t | sc
deriving DecidableEq, Repr

/-- One operand form: FORM value, the classes of D, A and B, and whether IMM16 is read as an immediate. -/
structure FormRow where
  form : Nat
  d    : FClass
  a    : FClass
  b    : FClass
  immv : Bool
deriving DecidableEq, Repr

/-- A row of the field-usage tables. -/
structure Shape where
  forms   : FWord → List FormRow
  m       : Bool
  fk      : Bool
  immMask : Nat
  ok      : FWord → Bool
  build   : FWord → Option (BitVec 62) → Instr
  sci     : Bool := false

/-- Major 0x00 SALU: the functions in FN order (R190). -/
noncomputable def shapesSALU : List Shape := [
  { forms := fun _ => [⟨0, .x, .x, .x, false⟩, ⟨2, .x, .x, .none, true⟩], m := false, fk := false, immMask := 0x0,
    ok := fun _ => true,
    build := fun f l => .add f.hdr (fldN 32 f.d) (fldN 32 f.a) (f.src l) },
  { forms := fun _ => [⟨0, .x, .x, .x, false⟩, ⟨2, .x, .x, .none, true⟩], m := false, fk := false, immMask := 0x0,
    ok := fun _ => true,
    build := fun f l => .sub f.hdr (fldN 32 f.d) (fldN 32 f.a) (f.src l) },
  { forms := fun _ => [⟨0, .x, .x, .x, false⟩, ⟨2, .x, .x, .none, true⟩], m := false, fk := false, immMask := 0x0,
    ok := fun _ => true,
    build := fun f l => .and f.hdr (fldN 32 f.d) (fldN 32 f.a) (f.src l) },
  { forms := fun _ => [⟨0, .x, .x, .x, false⟩, ⟨2, .x, .x, .none, true⟩], m := false, fk := false, immMask := 0x0,
    ok := fun _ => true,
    build := fun f l => .or f.hdr (fldN 32 f.d) (fldN 32 f.a) (f.src l) },
  { forms := fun _ => [⟨0, .x, .x, .x, false⟩, ⟨2, .x, .x, .none, true⟩], m := false, fk := false, immMask := 0x0,
    ok := fun _ => true,
    build := fun f l => .xor f.hdr (fldN 32 f.d) (fldN 32 f.a) (f.src l) },
  { forms := fun _ => [⟨0, .x, .x, .x, false⟩, ⟨2, .x, .x, .none, true⟩], m := false, fk := false, immMask := 0x0,
    ok := fun _ => true,
    build := fun f l => .sll f.hdr (fldN 32 f.d) (fldN 32 f.a) (f.src l) },
  { forms := fun _ => [⟨0, .x, .x, .x, false⟩, ⟨2, .x, .x, .none, true⟩], m := false, fk := false, immMask := 0x0,
    ok := fun _ => true,
    build := fun f l => .srl f.hdr (fldN 32 f.d) (fldN 32 f.a) (f.src l) },
  { forms := fun _ => [⟨0, .x, .x, .x, false⟩, ⟨2, .x, .x, .none, true⟩], m := false, fk := false, immMask := 0x0,
    ok := fun _ => true,
    build := fun f l => .sra f.hdr (fldN 32 f.d) (fldN 32 f.a) (f.src l) },
  { forms := fun _ => [⟨0, .x, .x, .x, false⟩, ⟨2, .x, .x, .none, true⟩], m := false, fk := false, immMask := 0x0,
    ok := fun _ => true,
    build := fun f l => .mul f.hdr (fldN 32 f.d) (fldN 32 f.a) (f.src l) },
  { forms := fun _ => [⟨0, .x, .x, .x, false⟩, ⟨2, .x, .x, .none, true⟩], m := false, fk := false, immMask := 0x0,
    ok := fun _ => true,
    build := fun f l => .mulh f.hdr (fldN 32 f.d) (fldN 32 f.a) (f.src l) },
  { forms := fun _ => [⟨0, .x, .x, .x, false⟩, ⟨2, .x, .x, .none, true⟩], m := false, fk := false, immMask := 0x0,
    ok := fun _ => true,
    build := fun f l => .mulhu f.hdr (fldN 32 f.d) (fldN 32 f.a) (f.src l) },
  { forms := fun _ => [⟨0, .x, .x, .x, false⟩, ⟨2, .x, .x, .none, true⟩], m := false, fk := false, immMask := 0x0,
    ok := fun _ => true,
    build := fun f l => .div f.hdr (fldN 32 f.d) (fldN 32 f.a) (f.src l) },
  { forms := fun _ => [⟨0, .x, .x, .x, false⟩, ⟨2, .x, .x, .none, true⟩], m := false, fk := false, immMask := 0x0,
    ok := fun _ => true,
    build := fun f l => .divu f.hdr (fldN 32 f.d) (fldN 32 f.a) (f.src l) },
  { forms := fun _ => [⟨0, .x, .x, .x, false⟩, ⟨2, .x, .x, .none, true⟩], m := false, fk := false, immMask := 0x0,
    ok := fun _ => true,
    build := fun f l => .rem f.hdr (fldN 32 f.d) (fldN 32 f.a) (f.src l) },
  { forms := fun _ => [⟨0, .x, .x, .x, false⟩, ⟨2, .x, .x, .none, true⟩], m := false, fk := false, immMask := 0x0,
    ok := fun _ => true,
    build := fun f l => .remu f.hdr (fldN 32 f.d) (fldN 32 f.a) (f.src l) },
  { forms := fun _ => [⟨0, .x, .x, .x, false⟩, ⟨2, .x, .x, .none, true⟩], m := false, fk := false, immMask := 0x0,
    ok := fun _ => true,
    build := fun f l => .min f.hdr (fldN 32 f.d) (fldN 32 f.a) (f.src l) },
  { forms := fun _ => [⟨0, .x, .x, .x, false⟩, ⟨2, .x, .x, .none, true⟩], m := false, fk := false, immMask := 0x0,
    ok := fun _ => true,
    build := fun f l => .max f.hdr (fldN 32 f.d) (fldN 32 f.a) (f.src l) },
  { forms := fun _ => [⟨0, .x, .x, .x, false⟩, ⟨2, .x, .x, .none, true⟩], m := false, fk := false, immMask := 0x0,
    ok := fun _ => true,
    build := fun f l => .minu f.hdr (fldN 32 f.d) (fldN 32 f.a) (f.src l) },
  { forms := fun _ => [⟨0, .x, .x, .x, false⟩, ⟨2, .x, .x, .none, true⟩], m := false, fk := false, immMask := 0x0,
    ok := fun _ => true,
    build := fun f l => .maxu f.hdr (fldN 32 f.d) (fldN 32 f.a) (f.src l) },
  { forms := fun _ => [⟨0, .x, .x, .none, false⟩], m := false, fk := false, immMask := 0x0,
    ok := fun _ => true,
    build := fun f _ => .clz f.hdr (fldN 32 f.d) (fldN 32 f.a) },
  { forms := fun _ => [⟨0, .x, .x, .none, false⟩], m := false, fk := false, immMask := 0x0,
    ok := fun _ => true,
    build := fun f _ => .ctz f.hdr (fldN 32 f.d) (fldN 32 f.a) },
  { forms := fun _ => [⟨0, .x, .x, .none, false⟩], m := false, fk := false, immMask := 0x0,
    ok := fun _ => true,
    build := fun f _ => .popc f.hdr (fldN 32 f.d) (fldN 32 f.a) },
  { forms := fun _ => [⟨0, .x, .x, .x, false⟩], m := false, fk := false, immMask := 0x7,
    ok := fun _ => true,
    build := fun f _ => .addsh f.hdr (fldN 32 f.d) (fldN 32 f.a) (fldN 32 f.b) (f.immBv 0 3) },
  { forms := fun _ => [⟨0, .x, .x, .x, false⟩, ⟨2, .x, .x, .none, true⟩], m := false, fk := false, immMask := 0x0,
    ok := fun _ => true,
    build := fun f l => .rot f.hdr (fldN 32 f.d) (fldN 32 f.a) (f.src l) } ]

/-- Major 0x01 SCMP: the functions in FN order (R190). -/
noncomputable def shapesSCMP : List Shape := [
  { forms := fun _ => [⟨0, .g, .x, .x, false⟩, ⟨2, .g, .x, .none, true⟩], m := false, fk := false, immMask := 0x0,
    ok := fun _ => true,
    build := fun f l => .ceq f.hdr (fldN 8 f.d) (fldN 32 f.a) (f.src l) },
  { forms := fun _ => [⟨0, .g, .x, .x, false⟩, ⟨2, .g, .x, .none, true⟩], m := false, fk := false, immMask := 0x0,
    ok := fun _ => true,
    build := fun f l => .cne f.hdr (fldN 8 f.d) (fldN 32 f.a) (f.src l) },
  { forms := fun _ => [⟨0, .g, .x, .x, false⟩, ⟨2, .g, .x, .none, true⟩], m := false, fk := false, immMask := 0x0,
    ok := fun _ => true,
    build := fun f l => .clt f.hdr (fldN 8 f.d) (fldN 32 f.a) (f.src l) },
  { forms := fun _ => [⟨0, .g, .x, .x, false⟩, ⟨2, .g, .x, .none, true⟩], m := false, fk := false, immMask := 0x0,
    ok := fun _ => true,
    build := fun f l => .cltu f.hdr (fldN 8 f.d) (fldN 32 f.a) (f.src l) },
  { forms := fun _ => [⟨0, .g, .x, .x, false⟩, ⟨2, .g, .x, .none, true⟩], m := false, fk := false, immMask := 0x0,
    ok := fun _ => true,
    build := fun f l => .cge f.hdr (fldN 8 f.d) (fldN 32 f.a) (f.src l) },
  { forms := fun _ => [⟨0, .g, .x, .x, false⟩, ⟨2, .g, .x, .none, true⟩], m := false, fk := false, immMask := 0x0,
    ok := fun _ => true,
    build := fun f l => .cgeu f.hdr (fldN 8 f.d) (fldN 32 f.a) (f.src l) },
  { forms := fun _ => [⟨0, .g, .g, .g, false⟩], m := false, fk := false, immMask := 0x0,
    ok := fun _ => true,
    build := fun f _ => .gand f.hdr (fldN 8 f.d) (fldN 8 f.a) (fldN 8 f.b) },
  { forms := fun _ => [⟨0, .g, .g, .g, false⟩], m := false, fk := false, immMask := 0x0,
    ok := fun _ => true,
    build := fun f _ => .gor f.hdr (fldN 8 f.d) (fldN 8 f.a) (fldN 8 f.b) },
  { forms := fun _ => [⟨0, .g, .g, .g, false⟩], m := false, fk := false, immMask := 0x0,
    ok := fun _ => true,
    build := fun f _ => .gxor f.hdr (fldN 8 f.d) (fldN 8 f.a) (fldN 8 f.b) },
  { forms := fun _ => [⟨0, .g, .g, .none, false⟩], m := false, fk := false, immMask := 0x0,
    ok := fun _ => true,
    build := fun f _ => .gnot f.hdr (fldN 8 f.d) (fldN 8 f.a) } ]

/-- Major 0x02 SMOV: the functions in FN order (R190). -/
noncomputable def shapesSMOV : List Shape := [
  { forms := fun _ => [⟨2, .x, .none, .none, true⟩], m := false, fk := false, immMask := 0x0,
    ok := fun _ => true,
    build := fun f l => .li f.hdr (fldN 32 f.d) (f.immv l) },
  { forms := fun _ => [⟨0, .x, .x, .none, false⟩], m := false, fk := false, immMask := 0x0,
    ok := fun _ => true,
    build := fun f _ => .mv f.hdr (fldN 32 f.d) (fldN 32 f.a) },
  { forms := fun _ => [⟨2, .x, .none, .none, true⟩], m := false, fk := false, immMask := 0x0,
    ok := fun _ => true,
    build := fun f l => .adr f.hdr (fldN 32 f.d) (f.immv l) },
  { forms := fun _ => [⟨0, .x, .x, .x, false⟩], m := false, fk := false, immMask := 0x7,
    ok := fun _ => true,
    build := fun f _ => .sel f.hdr (fldN 32 f.d) (fldN 32 f.a) (fldN 32 f.b) (f.immBv 0 3) },
  { forms := fun _ => [⟨0, .x, .none, .none, false⟩], m := false, fk := false, immMask := 0x0,
    ok := fun _ => true,
    build := fun f _ => .gget f.hdr (fldN 32 f.d) },
  { forms := fun _ => [⟨0, .none, .x, .none, false⟩], m := false, fk := false, immMask := 0x0,
    ok := fun _ => true,
    build := fun f _ => .gput f.hdr (fldN 32 f.a) } ]

/-- Major 0x03 SFP: the functions in FN order (R190). -/
noncomputable def shapesSFP : List Shape := [
  { forms := fun _ => [⟨0, .x, .x, .x, false⟩], m := false, fk := false, immMask := 0x0,
    ok := fun _ => true,
    build := fun f _ => .fadd f.hdr (fldN 32 f.d) (fldN 32 f.a) (fldN 32 f.b) },
  { forms := fun _ => [⟨0, .x, .x, .x, false⟩], m := false, fk := false, immMask := 0x0,
    ok := fun _ => true,
    build := fun f _ => .fsub f.hdr (fldN 32 f.d) (fldN 32 f.a) (fldN 32 f.b) },
  { forms := fun _ => [⟨0, .x, .x, .x, false⟩], m := false, fk := false, immMask := 0x0,
    ok := fun _ => true,
    build := fun f _ => .fmul f.hdr (fldN 32 f.d) (fldN 32 f.a) (fldN 32 f.b) },
  { forms := fun _ => [⟨0, .x, .x, .x, false⟩], m := false, fk := false, immMask := 0x0,
    ok := fun _ => true,
    build := fun f _ => .fdiv f.hdr (fldN 32 f.d) (fldN 32 f.a) (fldN 32 f.b) },
  { forms := fun _ => [⟨0, .x, .x, .none, false⟩], m := false, fk := false, immMask := 0x0,
    ok := fun _ => true,
    build := fun f _ => .fsqrt f.hdr (fldN 32 f.d) (fldN 32 f.a) },
  { forms := fun _ => [⟨0, .x, .x, .x, false⟩], m := false, fk := false, immMask := 0x0,
    ok := fun _ => true,
    build := fun f _ => .fma f.hdr (fldN 32 f.d) (fldN 32 f.a) (fldN 32 f.b) },
  { forms := fun _ => [⟨0, .x, .x, .x, false⟩], m := false, fk := false, immMask := 0x0,
    ok := fun _ => true,
    build := fun f _ => .fmin f.hdr (fldN 32 f.d) (fldN 32 f.a) (fldN 32 f.b) },
  { forms := fun _ => [⟨0, .x, .x, .x, false⟩], m := false, fk := false, immMask := 0x0,
    ok := fun _ => true,
    build := fun f _ => .fmax f.hdr (fldN 32 f.d) (fldN 32 f.a) (fldN 32 f.b) },
  { forms := fun _ => [⟨0, .x, .x, .none, false⟩], m := false, fk := false, immMask := 0x0,
    ok := fun _ => true,
    build := fun f _ => .fcvtw f.hdr (fldN 32 f.d) (fldN 32 f.a) },
  { forms := fun _ => [⟨0, .x, .x, .none, false⟩], m := false, fk := false, immMask := 0x0,
    ok := fun _ => true,
    build := fun f _ => .fcvtf f.hdr (fldN 32 f.d) (fldN 32 f.a) },
  { forms := fun _ => [⟨0, .g, .x, .x, false⟩], m := false, fk := false, immMask := 0x0,
    ok := fun _ => true,
    build := fun f _ => .fclt f.hdr (fldN 8 f.d) (fldN 32 f.a) (fldN 32 f.b) },
  { forms := fun _ => [⟨0, .g, .x, .x, false⟩], m := false, fk := false, immMask := 0x0,
    ok := fun _ => true,
    build := fun f _ => .fceq f.hdr (fldN 8 f.d) (fldN 32 f.a) (fldN 32 f.b) },
  { forms := fun _ => [⟨0, .g, .x, .x, false⟩], m := false, fk := false, immMask := 0x0,
    ok := fun _ => true,
    build := fun f _ => .fcle f.hdr (fldN 8 f.d) (fldN 32 f.a) (fldN 32 f.b) } ]

/-- Major 0x08 SLD: the functions in FN order (R190). -/
noncomputable def shapesSLD : List Shape := [
  { forms := fun _ => [⟨2, .x, .x, .none, true⟩], m := false, fk := false, immMask := 0x0,
    ok := fun _ => true,
    build := fun f l => .lb f.hdr (fldN 32 f.d) (fldN 32 f.a) (f.immv l) },
  { forms := fun _ => [⟨2, .x, .x, .none, true⟩], m := false, fk := false, immMask := 0x0,
    ok := fun _ => true,
    build := fun f l => .lbu f.hdr (fldN 32 f.d) (fldN 32 f.a) (f.immv l) },
  { forms := fun _ => [⟨2, .x, .x, .none, true⟩], m := false, fk := false, immMask := 0x0,
    ok := fun _ => true,
    build := fun f l => .lh f.hdr (fldN 32 f.d) (fldN 32 f.a) (f.immv l) },
  { forms := fun _ => [⟨2, .x, .x, .none, true⟩], m := false, fk := false, immMask := 0x0,
    ok := fun _ => true,
    build := fun f l => .lhu f.hdr (fldN 32 f.d) (fldN 32 f.a) (f.immv l) },
  { forms := fun _ => [⟨2, .x, .x, .none, true⟩], m := false, fk := false, immMask := 0x0,
    ok := fun _ => true,
    build := fun f l => .lw f.hdr (fldN 32 f.d) (fldN 32 f.a) (f.immv l) },
  { forms := fun _ => [⟨2, .x, .x, .none, true⟩], m := false, fk := false, immMask := 0x0,
    ok := fun _ => true,
    build := fun f l => .lwu f.hdr (fldN 32 f.d) (fldN 32 f.a) (f.immv l) },
  { forms := fun _ => [⟨2, .x, .x, .none, true⟩], m := false, fk := false, immMask := 0x0,
    ok := fun _ => true,
    build := fun f l => .ld f.hdr (fldN 32 f.d) (fldN 32 f.a) (f.immv l) },
  { forms := fun _ => [⟨0, .x, .x, .none, false⟩], m := false, fk := false, immMask := 0x7,
    ok := fun f => scopeOk f,
    build := fun f _ => .ldacq f.hdr (fldN 32 f.d) (fldN 32 f.a) f.scope } ]

/-- Major 0x09 SST: the functions in FN order (R190). -/
noncomputable def shapesSST : List Shape := [
  { forms := fun _ => [⟨2, .x, .x, .none, true⟩], m := false, fk := false, immMask := 0x0,
    ok := fun _ => true,
    build := fun f l => .sb f.hdr (fldN 32 f.d) (fldN 32 f.a) (f.immv l) },
  { forms := fun _ => [⟨2, .x, .x, .none, true⟩], m := false, fk := false, immMask := 0x0,
    ok := fun _ => true,
    build := fun f l => .sh f.hdr (fldN 32 f.d) (fldN 32 f.a) (f.immv l) },
  { forms := fun _ => [⟨2, .x, .x, .none, true⟩], m := false, fk := false, immMask := 0x0,
    ok := fun _ => true,
    build := fun f l => .sw f.hdr (fldN 32 f.d) (fldN 32 f.a) (f.immv l) },
  { forms := fun _ => [⟨2, .x, .x, .none, true⟩], m := false, fk := false, immMask := 0x0,
    ok := fun _ => true,
    build := fun f l => .sd f.hdr (fldN 32 f.d) (fldN 32 f.a) (f.immv l) },
  { forms := fun _ => [⟨0, .x, .x, .none, false⟩], m := false, fk := false, immMask := 0x7,
    ok := fun f => scopeOk f,
    build := fun f _ => .strel f.hdr (fldN 32 f.d) (fldN 32 f.a) f.scope } ]

/-- Major 0x0A AMO: the functions in FN order (R190). -/
noncomputable def shapesAMO : List Shape := [
  { forms := fun _ => [⟨0, .x, .x, .x, false⟩], m := false, fk := false, immMask := 0x7F,
    ok := fun f => scopeOk f && f.immBits 5 2 ≤ 1,
    build := fun f _ => .amoadd f.hdr (fldN 32 f.d) (fldN 32 f.a) (fldN 32 f.b) f.amo },
  { forms := fun _ => [⟨0, .x, .x, .x, false⟩], m := false, fk := false, immMask := 0x7F,
    ok := fun f => scopeOk f && f.immBits 5 2 ≤ 1,
    build := fun f _ => .amoswap f.hdr (fldN 32 f.d) (fldN 32 f.a) (fldN 32 f.b) f.amo },
  { forms := fun _ => [⟨0, .x, .x, .x, false⟩], m := false, fk := false, immMask := 0x7F,
    ok := fun f => scopeOk f && f.immBits 5 2 ≤ 1,
    build := fun f _ => .amocas f.hdr (fldN 32 f.d) (fldN 32 f.a) (fldN 32 f.b) f.amo },
  { forms := fun _ => [⟨0, .x, .x, .x, false⟩], m := false, fk := false, immMask := 0x7F,
    ok := fun f => scopeOk f && f.immBits 5 2 ≤ 1,
    build := fun f _ => .amomin f.hdr (fldN 32 f.d) (fldN 32 f.a) (fldN 32 f.b) f.amo },
  { forms := fun _ => [⟨0, .x, .x, .x, false⟩], m := false, fk := false, immMask := 0x7F,
    ok := fun f => scopeOk f && f.immBits 5 2 ≤ 1,
    build := fun f _ => .amomax f.hdr (fldN 32 f.d) (fldN 32 f.a) (fldN 32 f.b) f.amo },
  { forms := fun _ => [⟨0, .x, .x, .x, false⟩], m := false, fk := false, immMask := 0x7F,
    ok := fun f => scopeOk f && f.immBits 5 2 ≤ 1,
    build := fun f _ => .amominu f.hdr (fldN 32 f.d) (fldN 32 f.a) (fldN 32 f.b) f.amo },
  { forms := fun _ => [⟨0, .x, .x, .x, false⟩], m := false, fk := false, immMask := 0x7F,
    ok := fun f => scopeOk f && f.immBits 5 2 ≤ 1,
    build := fun f _ => .amomaxu f.hdr (fldN 32 f.d) (fldN 32 f.a) (fldN 32 f.b) f.amo },
  { forms := fun _ => [⟨0, .x, .x, .x, false⟩], m := false, fk := false, immMask := 0x7F,
    ok := fun f => scopeOk f && f.immBits 5 2 ≤ 1,
    build := fun f _ => .amoand f.hdr (fldN 32 f.d) (fldN 32 f.a) (fldN 32 f.b) f.amo },
  { forms := fun _ => [⟨0, .x, .x, .x, false⟩], m := false, fk := false, immMask := 0x7F,
    ok := fun f => scopeOk f && f.immBits 5 2 ≤ 1,
    build := fun f _ => .amoor f.hdr (fldN 32 f.d) (fldN 32 f.a) (fldN 32 f.b) f.amo },
  { forms := fun _ => [⟨0, .x, .x, .x, false⟩], m := false, fk := false, immMask := 0x7F,
    ok := fun f => scopeOk f && f.immBits 5 2 ≤ 1,
    build := fun f _ => .amoxor f.hdr (fldN 32 f.d) (fldN 32 f.a) (fldN 32 f.b) f.amo } ]

/-- Major 0x10 BR: the functions in FN order (R190). -/
noncomputable def shapesBR : List Shape := [
  { forms := fun _ => [⟨2, .none, .none, .none, true⟩], m := false, fk := false, immMask := 0x0,
    ok := fun _ => true,
    build := fun f l => .br f.hdr (f.immv l) },
  { forms := fun _ => [⟨2, .none, .none, .none, true⟩], m := false, fk := false, immMask := 0x0,
    ok := fun _ => true,
    build := fun f l => .jal f.hdr (f.immv l) },
  { forms := fun _ => [⟨0, .none, .x, .none, false⟩], m := false, fk := false, immMask := 0x0,
    ok := fun _ => true,
    build := fun f _ => .jr f.hdr (fldN 32 f.a) },
  { forms := fun _ => [⟨0, .x, .x, .none, false⟩], m := false, fk := false, immMask := 0x0,
    ok := fun _ => true,
    build := fun f _ => .jalr f.hdr (fldN 32 f.d) (fldN 32 f.a) },
  { forms := fun _ => [⟨2, .x, .none, .none, true⟩], m := false, fk := false, immMask := 0x0,
    ok := fun _ => true,
    build := fun f l => .bdec f.hdr (fldN 32 f.d) (f.immv l) } ]

/-- Major 0x18 SYS: the functions in FN order (R190). -/
noncomputable def shapesSYS : List Shape := [
  { forms := fun _ => [⟨0, .x, .none, .none, false⟩], m := false, fk := false, immMask := 0xFFF,
    ok := fun _ => true,
    build := fun f _ => .csrr f.hdr (fldN 32 f.d) (f.immBv 0 12) },
  { forms := fun _ => [⟨0, .none, .x, .none, false⟩], m := false, fk := false, immMask := 0xFFF,
    ok := fun _ => true,
    build := fun f _ => .csrw f.hdr (fldN 32 f.a) (f.immBv 0 12) },
  { forms := fun _ => [⟨0, .none, .x, .none, false⟩], m := false, fk := false, immMask := 0xFFF,
    ok := fun _ => true,
    build := fun f _ => .csrs f.hdr (fldN 32 f.a) (f.immBv 0 12) },
  { forms := fun _ => [⟨0, .none, .x, .none, false⟩], m := false, fk := false, immMask := 0xFFF,
    ok := fun _ => true,
    build := fun f _ => .csrc f.hdr (fldN 32 f.a) (f.immBv 0 12) },
  { forms := fun _ => [⟨0, .none, .none, .none, false⟩], m := false, fk := false, immMask := 0xFFFF,
    ok := fun _ => true,
    build := fun f _ => .trap f.hdr (f.immBv 0 16) },
  { forms := fun _ => [⟨0, .none, .none, .none, false⟩], m := false, fk := false, immMask := 0xFFFF,
    ok := fun _ => true,
    build := fun f _ => svcInstr f },
  { forms := fun _ => [⟨0, .none, .none, .none, false⟩], m := false, fk := false, immMask := 0x0,
    ok := fun _ => true,
    build := fun f _ => .ebreak f.hdr },
  { forms := fun _ => [⟨0, .none, .none, .none, false⟩], m := false, fk := false, immMask := 0x0,
    ok := fun _ => true,
    build := fun f _ => .uret f.hdr },
  { forms := fun _ => [⟨0, .none, .x, .none, false⟩], m := false, fk := false, immMask := 0x0,
    ok := fun _ => true,
    build := fun f _ => .ujmp f.hdr (fldN 32 f.a) },
  { forms := fun _ => [⟨0, .x, .none, .none, false⟩], m := false, fk := false, immMask := 0x1F,
    ok := fun _ => true,
    build := fun f _ => .wfe f.hdr (fldN 32 f.d) (f.immBv 0 5) },
  { forms := fun _ => [⟨0, .none, .none, .none, false⟩], m := false, fk := false, immMask := 0x0,
    ok := fun _ => true,
    build := fun f _ => .halt f.hdr },
  { forms := fun _ => [⟨0, .none, .none, .none, false⟩], m := false, fk := false, immMask := 0x0,
    ok := fun _ => true,
    build := fun f _ => .yield f.hdr },
  { forms := fun _ => [⟨0, .none, .x, .x, false⟩], m := false, fk := false, immMask := 0x0,
    ok := fun _ => true,
    build := fun f _ => .launch f.hdr (fldN 32 f.a) (fldN 32 f.b) },
  { forms := fun _ => [⟨0, .none, .none, .none, false⟩], m := false, fk := false, immMask := 0x0,
    ok := fun _ => true,
    build := fun f _ => .icsync f.hdr } ]

/-- Major 0x19 SYNC: the functions in FN order (R190). -/
noncomputable def shapesSYNC : List Shape := [
  { forms := fun _ => [⟨0, .none, .none, .none, false⟩], m := false, fk := false, immMask := 0x1F,
    ok := fun _ => true,
    build := fun f _ => if f.immBits 4 1 == 0 then .barCrew f.hdr (f.immBv 0 4) else .barLaunch f.hdr (f.immBv 0 4) },
  { forms := fun _ => [⟨0, .none, .x, .none, false⟩], m := false, fk := false, immMask := 0xF,
    ok := fun _ => true,
    build := fun f _ => .itpost f.hdr (fldN 32 f.a) (f.immBv 0 4) },
  { forms := fun _ => [⟨0, .none, .x, .none, false⟩], m := false, fk := false, immMask := 0xF,
    ok := fun _ => true,
    build := fun f _ => .itwait f.hdr (fldN 32 f.a) (f.immBv 0 4) },
  { forms := fun _ => [⟨0, .none, .none, .none, false⟩], m := false, fk := false, immMask := 0x67,
    ok := fun f => scopeOk f,
    build := fun f _ => if f.immBits 5 2 == 0 then .fenceSv f.hdr f.scope else if f.immBits 5 2 == 1 then .fenceVs f.hdr f.scope else if f.immBits 5 2 == 2 then .fenceVv f.hdr f.scope else .fenceAll f.hdr f.scope },
  { forms := fun _ => [⟨0, .none, .x, .x, false⟩], m := false, fk := false, immMask := 0x0,
    ok := fun _ => true,
    build := fun f _ => .fencerec f.hdr (fldN 32 f.a) (fldN 32 f.b) } ]

/-- Major 0x20 VINT: the functions in FN order (R190). -/
noncomputable def shapesVINT : List Shape := [
  { forms := fun _ => [⟨0, .v, .v, .v, false⟩, ⟨1, .v, .v, .x, false⟩, ⟨2, .v, .v, .none, true⟩], m := true, fk := false, immMask := 0x0,
    ok := fun _ => true,
    build := fun f l => .vadd f.hdr (fldN 64 f.d) ⟨fldN 64 f.a, f.ca⟩ (f.vsrc l) (fldN 8 f.m) },
  { forms := fun _ => [⟨0, .v, .v, .v, false⟩, ⟨1, .v, .v, .x, false⟩, ⟨2, .v, .v, .none, true⟩], m := true, fk := false, immMask := 0x0,
    ok := fun _ => true,
    build := fun f l => .vsub f.hdr (fldN 64 f.d) ⟨fldN 64 f.a, f.ca⟩ (f.vsrc l) (fldN 8 f.m) },
  { forms := fun _ => [⟨0, .v, .v, .v, false⟩, ⟨1, .v, .v, .x, false⟩, ⟨2, .v, .v, .none, true⟩], m := true, fk := false, immMask := 0x0,
    ok := fun _ => true,
    build := fun f l => .vrsub f.hdr (fldN 64 f.d) ⟨fldN 64 f.a, f.ca⟩ (f.vsrc l) (fldN 8 f.m) },
  { forms := fun _ => [⟨0, .v, .v, .v, false⟩, ⟨1, .v, .v, .x, false⟩, ⟨2, .v, .v, .none, true⟩], m := true, fk := false, immMask := 0x0,
    ok := fun _ => true,
    build := fun f l => .vand f.hdr (fldN 64 f.d) ⟨fldN 64 f.a, f.ca⟩ (f.vsrc l) (fldN 8 f.m) },
  { forms := fun _ => [⟨0, .v, .v, .v, false⟩, ⟨1, .v, .v, .x, false⟩, ⟨2, .v, .v, .none, true⟩], m := true, fk := false, immMask := 0x0,
    ok := fun _ => true,
    build := fun f l => .vor f.hdr (fldN 64 f.d) ⟨fldN 64 f.a, f.ca⟩ (f.vsrc l) (fldN 8 f.m) },
  { forms := fun _ => [⟨0, .v, .v, .v, false⟩, ⟨1, .v, .v, .x, false⟩, ⟨2, .v, .v, .none, true⟩], m := true, fk := false, immMask := 0x0,
    ok := fun _ => true,
    build := fun f l => .vxor f.hdr (fldN 64 f.d) ⟨fldN 64 f.a, f.ca⟩ (f.vsrc l) (fldN 8 f.m) },
  { forms := fun _ => [⟨0, .v, .v, .v, false⟩, ⟨1, .v, .v, .x, false⟩, ⟨2, .v, .v, .none, true⟩], m := true, fk := false, immMask := 0x0,
    ok := fun _ => true,
    build := fun f l => .vsll f.hdr (fldN 64 f.d) ⟨fldN 64 f.a, f.ca⟩ (f.vsrc l) (fldN 8 f.m) },
  { forms := fun _ => [⟨0, .v, .v, .v, false⟩, ⟨1, .v, .v, .x, false⟩, ⟨2, .v, .v, .none, true⟩], m := true, fk := false, immMask := 0x0,
    ok := fun _ => true,
    build := fun f l => .vsrl f.hdr (fldN 64 f.d) ⟨fldN 64 f.a, f.ca⟩ (f.vsrc l) (fldN 8 f.m) },
  { forms := fun _ => [⟨0, .v, .v, .v, false⟩, ⟨1, .v, .v, .x, false⟩, ⟨2, .v, .v, .none, true⟩], m := true, fk := false, immMask := 0x0,
    ok := fun _ => true,
    build := fun f l => .vsra f.hdr (fldN 64 f.d) ⟨fldN 64 f.a, f.ca⟩ (f.vsrc l) (fldN 8 f.m) },
  { forms := fun _ => [⟨0, .v, .v, .v, false⟩, ⟨1, .v, .v, .x, false⟩, ⟨2, .v, .v, .none, true⟩], m := true, fk := false, immMask := 0x0,
    ok := fun _ => true,
    build := fun f l => .vmul f.hdr (fldN 64 f.d) ⟨fldN 64 f.a, f.ca⟩ (f.vsrc l) (fldN 8 f.m) },
  { forms := fun _ => [⟨0, .v, .v, .v, false⟩, ⟨1, .v, .v, .x, false⟩, ⟨2, .v, .v, .none, true⟩], m := true, fk := false, immMask := 0x0,
    ok := fun _ => true,
    build := fun f l => .vmulh f.hdr (fldN 64 f.d) ⟨fldN 64 f.a, f.ca⟩ (f.vsrc l) (fldN 8 f.m) },
  { forms := fun _ => [⟨0, .v, .v, .v, false⟩, ⟨1, .v, .v, .x, false⟩, ⟨2, .v, .v, .none, true⟩], m := true, fk := false, immMask := 0x0,
    ok := fun _ => true,
    build := fun f l => .vmulhu f.hdr (fldN 64 f.d) ⟨fldN 64 f.a, f.ca⟩ (f.vsrc l) (fldN 8 f.m) },
  { forms := fun _ => [⟨0, .v, .v, .v, false⟩, ⟨1, .v, .v, .x, false⟩, ⟨2, .v, .v, .none, true⟩], m := true, fk := false, immMask := 0x0,
    ok := fun _ => true,
    build := fun f l => .vdiv f.hdr (fldN 64 f.d) ⟨fldN 64 f.a, f.ca⟩ (f.vsrc l) (fldN 8 f.m) },
  { forms := fun _ => [⟨0, .v, .v, .v, false⟩, ⟨1, .v, .v, .x, false⟩, ⟨2, .v, .v, .none, true⟩], m := true, fk := false, immMask := 0x0,
    ok := fun _ => true,
    build := fun f l => .vdivu f.hdr (fldN 64 f.d) ⟨fldN 64 f.a, f.ca⟩ (f.vsrc l) (fldN 8 f.m) },
  { forms := fun _ => [⟨0, .v, .v, .v, false⟩, ⟨1, .v, .v, .x, false⟩, ⟨2, .v, .v, .none, true⟩], m := true, fk := false, immMask := 0x0,
    ok := fun _ => true,
    build := fun f l => .vrem f.hdr (fldN 64 f.d) ⟨fldN 64 f.a, f.ca⟩ (f.vsrc l) (fldN 8 f.m) },
  { forms := fun _ => [⟨0, .v, .v, .v, false⟩, ⟨1, .v, .v, .x, false⟩, ⟨2, .v, .v, .none, true⟩], m := true, fk := false, immMask := 0x0,
    ok := fun _ => true,
    build := fun f l => .vremu f.hdr (fldN 64 f.d) ⟨fldN 64 f.a, f.ca⟩ (f.vsrc l) (fldN 8 f.m) },
  { forms := fun _ => [⟨0, .v, .v, .v, false⟩, ⟨1, .v, .v, .x, false⟩, ⟨2, .v, .v, .none, true⟩], m := true, fk := false, immMask := 0x0,
    ok := fun _ => true,
    build := fun f l => .vmin f.hdr (fldN 64 f.d) ⟨fldN 64 f.a, f.ca⟩ (f.vsrc l) (fldN 8 f.m) },
  { forms := fun _ => [⟨0, .v, .v, .v, false⟩, ⟨1, .v, .v, .x, false⟩, ⟨2, .v, .v, .none, true⟩], m := true, fk := false, immMask := 0x0,
    ok := fun _ => true,
    build := fun f l => .vmax f.hdr (fldN 64 f.d) ⟨fldN 64 f.a, f.ca⟩ (f.vsrc l) (fldN 8 f.m) },
  { forms := fun _ => [⟨0, .v, .v, .v, false⟩, ⟨1, .v, .v, .x, false⟩, ⟨2, .v, .v, .none, true⟩], m := true, fk := false, immMask := 0x0,
    ok := fun _ => true,
    build := fun f l => .vminu f.hdr (fldN 64 f.d) ⟨fldN 64 f.a, f.ca⟩ (f.vsrc l) (fldN 8 f.m) },
  { forms := fun _ => [⟨0, .v, .v, .v, false⟩, ⟨1, .v, .v, .x, false⟩, ⟨2, .v, .v, .none, true⟩], m := true, fk := false, immMask := 0x0,
    ok := fun _ => true,
    build := fun f l => .vmaxu f.hdr (fldN 64 f.d) ⟨fldN 64 f.a, f.ca⟩ (f.vsrc l) (fldN 8 f.m) },
  { forms := fun _ => [⟨0, .v, .v, .v, false⟩, ⟨1, .v, .v, .x, false⟩, ⟨2, .v, .v, .none, true⟩], m := true, fk := false, immMask := 0x0,
    ok := fun _ => true,
    build := fun f l => .vsadd f.hdr (fldN 64 f.d) ⟨fldN 64 f.a, f.ca⟩ (f.vsrc l) (fldN 8 f.m) },
  { forms := fun _ => [⟨0, .v, .v, .v, false⟩, ⟨1, .v, .v, .x, false⟩, ⟨2, .v, .v, .none, true⟩], m := true, fk := false, immMask := 0x0,
    ok := fun _ => true,
    build := fun f l => .vsaddu f.hdr (fldN 64 f.d) ⟨fldN 64 f.a, f.ca⟩ (f.vsrc l) (fldN 8 f.m) },
  { forms := fun _ => [⟨0, .v, .v, .v, false⟩, ⟨1, .v, .v, .x, false⟩, ⟨2, .v, .v, .none, true⟩], m := true, fk := false, immMask := 0x0,
    ok := fun _ => true,
    build := fun f l => .vssub f.hdr (fldN 64 f.d) ⟨fldN 64 f.a, f.ca⟩ (f.vsrc l) (fldN 8 f.m) },
  { forms := fun _ => [⟨0, .v, .v, .v, false⟩, ⟨1, .v, .v, .x, false⟩, ⟨2, .v, .v, .none, true⟩], m := true, fk := false, immMask := 0x0,
    ok := fun _ => true,
    build := fun f l => .vssubu f.hdr (fldN 64 f.d) ⟨fldN 64 f.a, f.ca⟩ (f.vsrc l) (fldN 8 f.m) },
  { forms := fun _ => [⟨0, .v, .v, .none, false⟩], m := true, fk := false, immMask := 0x0,
    ok := fun _ => true,
    build := fun f _ => .vabs f.hdr (fldN 64 f.d) ⟨fldN 64 f.a, f.ca⟩ (fldN 8 f.m) },
  { forms := fun _ => [⟨0, .v, .v, .none, false⟩, ⟨1, .v, .none, .x, false⟩, ⟨2, .v, .none, .none, true⟩], m := true, fk := false, immMask := 0x0,
    ok := fun _ => true,
    build := fun f l => .vmv f.hdr (fldN 64 f.d) (f.vmvsrc l) (fldN 8 f.m) },
  { forms := fun _ => [⟨0, .v, .v, .v, false⟩, ⟨1, .v, .v, .x, false⟩, ⟨2, .v, .v, .none, true⟩], m := true, fk := false, immMask := 0x0,
    ok := fun f => f.m != 0,
    build := fun f l => .vmerge f.hdr (fldN 64 f.d) ⟨fldN 64 f.a, f.ca⟩ (f.vsrc l) (fldN 8 f.m) },
  { forms := fun _ => [⟨0, .v, .none, .none, false⟩], m := true, fk := false, immMask := 0x0,
    ok := fun _ => true,
    build := fun f _ => .vid f.hdr (fldN 64 f.d) (fldN 8 f.m) } ]

/-- Major 0x21 VICMP: the functions in FN order (R190). -/
noncomputable def shapesVICMP : List Shape := [
  { forms := fun _ => [⟨0, .k, .v, .v, false⟩, ⟨1, .k, .v, .x, false⟩, ⟨2, .k, .v, .none, true⟩], m := true, fk := false, immMask := 0x0,
    ok := fun _ => true,
    build := fun f l => .vseq f.hdr (fldN 8 f.d) ⟨fldN 64 f.a, f.ca⟩ (f.vsrc l) (fldN 8 f.m) },
  { forms := fun _ => [⟨0, .k, .v, .v, false⟩, ⟨1, .k, .v, .x, false⟩, ⟨2, .k, .v, .none, true⟩], m := true, fk := false, immMask := 0x0,
    ok := fun _ => true,
    build := fun f l => .vsne f.hdr (fldN 8 f.d) ⟨fldN 64 f.a, f.ca⟩ (f.vsrc l) (fldN 8 f.m) },
  { forms := fun _ => [⟨0, .k, .v, .v, false⟩, ⟨1, .k, .v, .x, false⟩, ⟨2, .k, .v, .none, true⟩], m := true, fk := false, immMask := 0x0,
    ok := fun _ => true,
    build := fun f l => .vslt f.hdr (fldN 8 f.d) ⟨fldN 64 f.a, f.ca⟩ (f.vsrc l) (fldN 8 f.m) },
  { forms := fun _ => [⟨0, .k, .v, .v, false⟩, ⟨1, .k, .v, .x, false⟩, ⟨2, .k, .v, .none, true⟩], m := true, fk := false, immMask := 0x0,
    ok := fun _ => true,
    build := fun f l => .vsltu f.hdr (fldN 8 f.d) ⟨fldN 64 f.a, f.ca⟩ (f.vsrc l) (fldN 8 f.m) },
  { forms := fun _ => [⟨0, .k, .v, .v, false⟩, ⟨1, .k, .v, .x, false⟩, ⟨2, .k, .v, .none, true⟩], m := true, fk := false, immMask := 0x0,
    ok := fun _ => true,
    build := fun f l => .vsle f.hdr (fldN 8 f.d) ⟨fldN 64 f.a, f.ca⟩ (f.vsrc l) (fldN 8 f.m) },
  { forms := fun _ => [⟨0, .k, .v, .v, false⟩, ⟨1, .k, .v, .x, false⟩, ⟨2, .k, .v, .none, true⟩], m := true, fk := false, immMask := 0x0,
    ok := fun _ => true,
    build := fun f l => .vsleu f.hdr (fldN 8 f.d) ⟨fldN 64 f.a, f.ca⟩ (f.vsrc l) (fldN 8 f.m) },
  { forms := fun _ => [⟨0, .k, .v, .v, false⟩, ⟨1, .k, .v, .x, false⟩, ⟨2, .k, .v, .none, true⟩], m := true, fk := false, immMask := 0x0,
    ok := fun _ => true,
    build := fun f l => .vsgt f.hdr (fldN 8 f.d) ⟨fldN 64 f.a, f.ca⟩ (f.vsrc l) (fldN 8 f.m) },
  { forms := fun _ => [⟨0, .k, .v, .v, false⟩, ⟨1, .k, .v, .x, false⟩, ⟨2, .k, .v, .none, true⟩], m := true, fk := false, immMask := 0x0,
    ok := fun _ => true,
    build := fun f l => .vsgtu f.hdr (fldN 8 f.d) ⟨fldN 64 f.a, f.ca⟩ (f.vsrc l) (fldN 8 f.m) } ]

/-- Major 0x30 VFP: the functions in FN order (R190). -/
noncomputable def shapesVFP : List Shape := [
  { forms := fun _ => [⟨0, .v, .v, .v, false⟩, ⟨1, .v, .v, .x, false⟩, ⟨2, .v, .v, .none, true⟩], m := true, fk := false, immMask := 0x0,
    ok := fun _ => true,
    build := fun f l => .vfadd f.hdr (fldN 64 f.d) ⟨fldN 64 f.a, f.ca⟩ (f.vsrc l) (fldN 8 f.m) },
  { forms := fun _ => [⟨0, .v, .v, .v, false⟩, ⟨1, .v, .v, .x, false⟩, ⟨2, .v, .v, .none, true⟩], m := true, fk := false, immMask := 0x0,
    ok := fun _ => true,
    build := fun f l => .vfsub f.hdr (fldN 64 f.d) ⟨fldN 64 f.a, f.ca⟩ (f.vsrc l) (fldN 8 f.m) },
  { forms := fun _ => [⟨0, .v, .v, .v, false⟩, ⟨1, .v, .v, .x, false⟩, ⟨2, .v, .v, .none, true⟩], m := true, fk := false, immMask := 0x0,
    ok := fun _ => true,
    build := fun f l => .vfrsub f.hdr (fldN 64 f.d) ⟨fldN 64 f.a, f.ca⟩ (f.vsrc l) (fldN 8 f.m) },
  { forms := fun _ => [⟨0, .v, .v, .v, false⟩, ⟨1, .v, .v, .x, false⟩, ⟨2, .v, .v, .none, true⟩], m := true, fk := false, immMask := 0x0,
    ok := fun _ => true,
    build := fun f l => .vfmul f.hdr (fldN 64 f.d) ⟨fldN 64 f.a, f.ca⟩ (f.vsrc l) (fldN 8 f.m) },
  { forms := fun _ => [⟨0, .v, .v, .v, false⟩, ⟨1, .v, .v, .x, false⟩, ⟨2, .v, .v, .none, true⟩], m := true, fk := false, immMask := 0x0,
    ok := fun _ => true,
    build := fun f l => .vfdiv f.hdr (fldN 64 f.d) ⟨fldN 64 f.a, f.ca⟩ (f.vsrc l) (fldN 8 f.m) },
  { forms := fun _ => [⟨0, .v, .v, .v, false⟩, ⟨1, .v, .v, .x, false⟩, ⟨2, .v, .v, .none, true⟩], m := true, fk := false, immMask := 0x0,
    ok := fun _ => true,
    build := fun f l => .vfrdiv f.hdr (fldN 64 f.d) ⟨fldN 64 f.a, f.ca⟩ (f.vsrc l) (fldN 8 f.m) },
  { forms := fun _ => [⟨0, .v, .v, .none, false⟩], m := true, fk := false, immMask := 0x0,
    ok := fun _ => true,
    build := fun f _ => .vfsqrt f.hdr (fldN 64 f.d) ⟨fldN 64 f.a, f.ca⟩ (fldN 8 f.m) },
  { forms := fun _ => [⟨0, .v, .v, .none, false⟩], m := true, fk := false, immMask := 0x0,
    ok := fun _ => true,
    build := fun f _ => .vfrsqrt f.hdr (fldN 64 f.d) ⟨fldN 64 f.a, f.ca⟩ (fldN 8 f.m) },
  { forms := fun _ => [⟨0, .v, .v, .none, false⟩], m := true, fk := false, immMask := 0x0,
    ok := fun _ => true,
    build := fun f _ => .vfrcpz f.hdr (fldN 64 f.d) ⟨fldN 64 f.a, f.ca⟩ (fldN 8 f.m) },
  { forms := fun _ => [⟨0, .v, .v, .v, false⟩, ⟨1, .v, .v, .x, false⟩, ⟨2, .v, .v, .none, true⟩], m := true, fk := false, immMask := 0x0,
    ok := fun _ => true,
    build := fun f l => .vfma f.hdr (fldN 64 f.d) ⟨fldN 64 f.a, f.ca⟩ (f.vsrc l) (fldN 8 f.m) },
  { forms := fun _ => [⟨0, .v, .v, .v, false⟩, ⟨1, .v, .v, .x, false⟩, ⟨2, .v, .v, .none, true⟩], m := true, fk := false, immMask := 0x0,
    ok := fun _ => true,
    build := fun f l => .vfms f.hdr (fldN 64 f.d) ⟨fldN 64 f.a, f.ca⟩ (f.vsrc l) (fldN 8 f.m) },
  { forms := fun _ => [⟨0, .v, .v, .v, false⟩, ⟨1, .v, .v, .x, false⟩, ⟨2, .v, .v, .none, true⟩], m := true, fk := false, immMask := 0x0,
    ok := fun _ => true,
    build := fun f l => .vfnma f.hdr (fldN 64 f.d) ⟨fldN 64 f.a, f.ca⟩ (f.vsrc l) (fldN 8 f.m) },
  { forms := fun _ => [⟨0, .v, .v, .v, false⟩, ⟨1, .v, .v, .x, false⟩, ⟨2, .v, .v, .none, true⟩], m := true, fk := false, immMask := 0x0,
    ok := fun _ => true,
    build := fun f l => .vfnms f.hdr (fldN 64 f.d) ⟨fldN 64 f.a, f.ca⟩ (f.vsrc l) (fldN 8 f.m) },
  { forms := fun _ => [⟨0, .v, .v, .v, false⟩, ⟨1, .v, .v, .x, false⟩, ⟨2, .v, .v, .none, true⟩], m := true, fk := false, immMask := 0x0,
    ok := fun _ => true,
    build := fun f l => .vfmin f.hdr (fldN 64 f.d) ⟨fldN 64 f.a, f.ca⟩ (f.vsrc l) (fldN 8 f.m) },
  { forms := fun _ => [⟨0, .v, .v, .v, false⟩, ⟨1, .v, .v, .x, false⟩, ⟨2, .v, .v, .none, true⟩], m := true, fk := false, immMask := 0x0,
    ok := fun _ => true,
    build := fun f l => .vfmax f.hdr (fldN 64 f.d) ⟨fldN 64 f.a, f.ca⟩ (f.vsrc l) (fldN 8 f.m) },
  { forms := fun _ => [⟨0, .v, .v, .none, false⟩], m := true, fk := false, immMask := 0x0,
    ok := fun _ => true,
    build := fun f _ => .vfabs f.hdr (fldN 64 f.d) ⟨fldN 64 f.a, f.ca⟩ (fldN 8 f.m) },
  { forms := fun _ => [⟨0, .v, .v, .none, false⟩], m := true, fk := false, immMask := 0x0,
    ok := fun _ => true,
    build := fun f _ => .vfneg f.hdr (fldN 64 f.d) ⟨fldN 64 f.a, f.ca⟩ (fldN 8 f.m) },
  { forms := fun _ => [⟨0, .v, .v, .v, false⟩, ⟨1, .v, .v, .x, false⟩, ⟨2, .v, .v, .none, true⟩], m := true, fk := false, immMask := 0x0,
    ok := fun _ => true,
    build := fun f l => .vfsgnj f.hdr (fldN 64 f.d) ⟨fldN 64 f.a, f.ca⟩ (f.vsrc l) (fldN 8 f.m) },
  { forms := fun _ => [⟨0, .v, .v, .none, false⟩], m := true, fk := false, immMask := 0x0,
    ok := fun _ => true,
    build := fun f _ => .vfexp2 f.hdr (fldN 64 f.d) ⟨fldN 64 f.a, f.ca⟩ (fldN 8 f.m) },
  { forms := fun _ => [⟨0, .v, .v, .none, false⟩], m := true, fk := false, immMask := 0x0,
    ok := fun _ => true,
    build := fun f _ => .vflog2 f.hdr (fldN 64 f.d) ⟨fldN 64 f.a, f.ca⟩ (fldN 8 f.m) },
  { forms := fun _ => [⟨0, .v, .v, .v, false⟩, ⟨1, .v, .v, .x, false⟩, ⟨2, .v, .v, .none, true⟩], m := true, fk := false, immMask := 0x0,
    ok := fun _ => true,
    build := fun f l => .vfscale f.hdr (fldN 64 f.d) ⟨fldN 64 f.a, f.ca⟩ (f.vsrc l) (fldN 8 f.m) },
  { forms := fun _ => [⟨0, .v, .v, .none, false⟩], m := true, fk := false, immMask := 0x0,
    ok := fun _ => true,
    build := fun f _ => .vfclass f.hdr (fldN 64 f.d) ⟨fldN 64 f.a, f.ca⟩ (fldN 8 f.m) },
  { forms := fun _ => [⟨0, .v, .v, .none, false⟩], m := true, fk := false, immMask := 0x0,
    ok := fun _ => true,
    build := fun f _ => .vfround f.hdr (fldN 64 f.d) ⟨fldN 64 f.a, f.ca⟩ (fldN 8 f.m) } ]

/-- Major 0x31 VFCMP: the functions in FN order (R190). -/
noncomputable def shapesVFCMP : List Shape := [
  { forms := fun _ => [⟨0, .k, .v, .v, false⟩, ⟨1, .k, .v, .x, false⟩, ⟨2, .k, .v, .none, true⟩], m := true, fk := false, immMask := 0x0,
    ok := fun _ => true,
    build := fun f l => .vfeq f.hdr (fldN 8 f.d) ⟨fldN 64 f.a, f.ca⟩ (f.vsrc l) (fldN 8 f.m) },
  { forms := fun _ => [⟨0, .k, .v, .v, false⟩, ⟨1, .k, .v, .x, false⟩, ⟨2, .k, .v, .none, true⟩], m := true, fk := false, immMask := 0x0,
    ok := fun _ => true,
    build := fun f l => .vfne f.hdr (fldN 8 f.d) ⟨fldN 64 f.a, f.ca⟩ (f.vsrc l) (fldN 8 f.m) },
  { forms := fun _ => [⟨0, .k, .v, .v, false⟩, ⟨1, .k, .v, .x, false⟩, ⟨2, .k, .v, .none, true⟩], m := true, fk := false, immMask := 0x0,
    ok := fun _ => true,
    build := fun f l => .vflt f.hdr (fldN 8 f.d) ⟨fldN 64 f.a, f.ca⟩ (f.vsrc l) (fldN 8 f.m) },
  { forms := fun _ => [⟨0, .k, .v, .v, false⟩, ⟨1, .k, .v, .x, false⟩, ⟨2, .k, .v, .none, true⟩], m := true, fk := false, immMask := 0x0,
    ok := fun _ => true,
    build := fun f l => .vfle f.hdr (fldN 8 f.d) ⟨fldN 64 f.a, f.ca⟩ (f.vsrc l) (fldN 8 f.m) },
  { forms := fun _ => [⟨0, .k, .v, .v, false⟩, ⟨1, .k, .v, .x, false⟩, ⟨2, .k, .v, .none, true⟩], m := true, fk := false, immMask := 0x0,
    ok := fun _ => true,
    build := fun f l => .vfgt f.hdr (fldN 8 f.d) ⟨fldN 64 f.a, f.ca⟩ (f.vsrc l) (fldN 8 f.m) },
  { forms := fun _ => [⟨0, .k, .v, .v, false⟩, ⟨1, .k, .v, .x, false⟩, ⟨2, .k, .v, .none, true⟩], m := true, fk := false, immMask := 0x0,
    ok := fun _ => true,
    build := fun f l => .vfge f.hdr (fldN 8 f.d) ⟨fldN 64 f.a, f.ca⟩ (f.vsrc l) (fldN 8 f.m) },
  { forms := fun _ => [⟨0, .k, .v, .v, false⟩, ⟨1, .k, .v, .x, false⟩, ⟨2, .k, .v, .none, true⟩], m := true, fk := false, immMask := 0x0,
    ok := fun _ => true,
    build := fun f l => .vfuno f.hdr (fldN 8 f.d) ⟨fldN 64 f.a, f.ca⟩ (f.vsrc l) (fldN 8 f.m) } ]

/-- Major 0x38 VMASK: the functions in FN order (R190). -/
noncomputable def shapesVMASK : List Shape := [
  { forms := fun _ => [⟨0, .k, .k, .k, false⟩], m := false, fk := false, immMask := 0x0,
    ok := fun _ => true,
    build := fun f _ => .kand f.hdr (fldN 8 f.d) ⟨fldN 8 f.a, f.ca⟩ ⟨fldN 8 f.b, f.cb⟩ },
  { forms := fun _ => [⟨0, .k, .k, .k, false⟩], m := false, fk := false, immMask := 0x0,
    ok := fun _ => true,
    build := fun f _ => .kor f.hdr (fldN 8 f.d) ⟨fldN 8 f.a, f.ca⟩ ⟨fldN 8 f.b, f.cb⟩ },
  { forms := fun _ => [⟨0, .k, .k, .k, false⟩], m := false, fk := false, immMask := 0x0,
    ok := fun _ => true,
    build := fun f _ => .kxor f.hdr (fldN 8 f.d) ⟨fldN 8 f.a, f.ca⟩ ⟨fldN 8 f.b, f.cb⟩ },
  { forms := fun _ => [⟨0, .k, .k, .k, false⟩], m := false, fk := false, immMask := 0x0,
    ok := fun _ => true,
    build := fun f _ => .kandn f.hdr (fldN 8 f.d) ⟨fldN 8 f.a, f.ca⟩ ⟨fldN 8 f.b, f.cb⟩ },
  { forms := fun _ => [⟨0, .k, .k, .none, false⟩], m := false, fk := false, immMask := 0x0,
    ok := fun _ => true,
    build := fun f _ => .knot f.hdr (fldN 8 f.d) ⟨fldN 8 f.a, f.ca⟩ },
  { forms := fun _ => [⟨0, .x, .k, .none, false⟩], m := false, fk := false, immMask := 0x0,
    ok := fun _ => true,
    build := fun f _ => .kpop f.hdr (fldN 32 f.d) ⟨fldN 8 f.a, f.ca⟩ },
  { forms := fun _ => [⟨0, .x, .k, .none, false⟩], m := false, fk := false, immMask := 0x0,
    ok := fun _ => true,
    build := fun f _ => .kfirst f.hdr (fldN 32 f.d) ⟨fldN 8 f.a, f.ca⟩ },
  { forms := fun _ => [⟨0, .k, .x, .none, false⟩], m := false, fk := false, immMask := 0x0,
    ok := fun _ => true,
    build := fun f _ => .kset f.hdr (fldN 8 f.d) (fldN 32 f.a) },
  { forms := fun f => if f.immBits 0 1 == 0 then [⟨0, .k, .v, .none, false⟩] else [⟨0, .v, .k, .none, false⟩], m := false, fk := false, immMask := 0x1,
    ok := fun _ => true,
    build := fun f _ => if f.immBits 0 1 == 0 then .kmvToMask f.hdr (fldN 8 f.d) ⟨fldN 64 f.a, f.ca⟩ else .kmvToVector f.hdr (fldN 64 f.d) ⟨fldN 8 f.a, f.ca⟩ },
  { forms := fun _ => [⟨0, .k, .none, .none, false⟩], m := false, fk := false, immMask := 0x0,
    ok := fun _ => true,
    build := fun f _ => .kall f.hdr (fldN 8 f.d) } ]

/-- Major 0x39 VPERM: the functions in FN order (R190). -/
noncomputable def shapesVPERM : List Shape := [
  { forms := fun _ => [⟨1, .v, .v, .x, false⟩, ⟨2, .v, .v, .none, true⟩], m := true, fk := false, immMask := 0x0,
    ok := fun f => f.d != f.a,
    build := fun f l => .vslideup f.hdr (fldN 64 f.d) ⟨fldN 64 f.a, f.ca⟩ (f.pos l) (fldN 8 f.m) },
  { forms := fun _ => [⟨1, .v, .v, .x, false⟩, ⟨2, .v, .v, .none, true⟩], m := true, fk := false, immMask := 0x0,
    ok := fun f => f.d != f.a,
    build := fun f l => .vslidedown f.hdr (fldN 64 f.d) ⟨fldN 64 f.a, f.ca⟩ (f.pos l) (fldN 8 f.m) },
  { forms := fun _ => [⟨0, .v, .v, .k, false⟩], m := false, fk := false, immMask := 0x0,
    ok := fun f => f.d != f.a,
    build := fun f _ => .vcompress f.hdr (fldN 64 f.d) ⟨fldN 64 f.a, f.ca⟩ ⟨fldN 8 f.b, f.cb⟩ },
  { forms := fun _ => [⟨0, .v, .v, .k, false⟩], m := false, fk := false, immMask := 0x0,
    ok := fun f => f.d != f.a,
    build := fun f _ => .vexpand f.hdr (fldN 64 f.d) ⟨fldN 64 f.a, f.ca⟩ ⟨fldN 8 f.b, f.cb⟩ },
  { forms := fun _ => [⟨1, .v, .v, .x, false⟩, ⟨2, .v, .v, .none, true⟩], m := true, fk := false, immMask := 0x0,
    ok := fun f => f.d != f.a,
    build := fun f l => .vbcast f.hdr (fldN 64 f.d) ⟨fldN 64 f.a, f.ca⟩ (f.pos l) (fldN 8 f.m) },
  { forms := fun _ => [⟨1, .x, .v, .x, false⟩, ⟨2, .x, .v, .none, true⟩], m := false, fk := false, immMask := 0x0,
    ok := fun _ => true,
    build := fun f l => .vext f.hdr (fldN 32 f.d) ⟨fldN 64 f.a, f.ca⟩ (f.pos l) },
  { forms := fun _ => [⟨1, .v, .x, .x, false⟩, ⟨2, .v, .x, .none, true⟩], m := false, fk := false, immMask := 0x0,
    ok := fun _ => true,
    build := fun f l => .vins f.hdr (fldN 64 f.d) (fldN 32 f.a) (f.pos l) } ]

/-- Major 0x3A VSCAN: the functions in FN order (R190). -/
noncomputable def shapesVSCAN : List Shape := [
  { forms := fun _ => [⟨0, .v, .v, .none, false⟩], m := true, fk := false, immMask := 0x0,
    ok := fun f => f.d != f.a,
    build := fun f _ => .vscanadd f.hdr (fldN 64 f.d) ⟨fldN 64 f.a, f.ca⟩ (fldN 8 f.m) },
  { forms := fun _ => [⟨0, .v, .v, .none, false⟩], m := true, fk := false, immMask := 0x0,
    ok := fun f => f.d != f.a,
    build := fun f _ => .vscanmax f.hdr (fldN 64 f.d) ⟨fldN 64 f.a, f.ca⟩ (fldN 8 f.m) },
  { forms := fun _ => [⟨0, .v, .v, .none, false⟩], m := true, fk := false, immMask := 0x0,
    ok := fun f => f.d != f.a,
    build := fun f _ => .vscanmin f.hdr (fldN 64 f.d) ⟨fldN 64 f.a, f.ca⟩ (fldN 8 f.m) },
  { forms := fun _ => [⟨0, .v, .v, .none, false⟩], m := true, fk := false, immMask := 0x0,
    ok := fun f => f.d != f.a,
    build := fun f _ => .vscanmul f.hdr (fldN 64 f.d) ⟨fldN 64 f.a, f.ca⟩ (fldN 8 f.m) },
  { forms := fun _ => [⟨0, .v, .v, .v, false⟩], m := false, fk := false, immMask := 0x0,
    ok := fun f => f.d != f.a && f.d != f.b,
    build := fun f _ => .vrecur f.hdr (fldN 64 f.d) ⟨fldN 64 f.a, f.ca⟩ ⟨fldN 64 f.b, f.cb⟩ } ]

/-- Major 0x3B VRED: the functions in FN order (R190). -/
noncomputable def shapesVRED : List Shape := [
  { forms := fun _ => [⟨0, .x, .v, .none, false⟩], m := true, fk := false, immMask := 0x0,
    ok := fun _ => true,
    build := fun f _ => .vredsum f.hdr (fldN 32 f.d) ⟨fldN 64 f.a, f.ca⟩ (fldN 8 f.m) },
  { forms := fun _ => [⟨0, .x, .v, .none, false⟩], m := true, fk := false, immMask := 0x0,
    ok := fun _ => true,
    build := fun f _ => .vredmax f.hdr (fldN 32 f.d) ⟨fldN 64 f.a, f.ca⟩ (fldN 8 f.m) },
  { forms := fun _ => [⟨0, .x, .v, .none, false⟩], m := true, fk := false, immMask := 0x0,
    ok := fun _ => true,
    build := fun f _ => .vredmin f.hdr (fldN 32 f.d) ⟨fldN 64 f.a, f.ca⟩ (fldN 8 f.m) },
  { forms := fun _ => [⟨0, .x, .v, .none, false⟩], m := true, fk := false, immMask := 0x0,
    ok := fun _ => true,
    build := fun f _ => .vredand f.hdr (fldN 32 f.d) ⟨fldN 64 f.a, f.ca⟩ (fldN 8 f.m) },
  { forms := fun _ => [⟨0, .x, .v, .none, false⟩], m := true, fk := false, immMask := 0x0,
    ok := fun _ => true,
    build := fun f _ => .vredor f.hdr (fldN 32 f.d) ⟨fldN 64 f.a, f.ca⟩ (fldN 8 f.m) },
  { forms := fun _ => [⟨0, .x, .v, .none, false⟩], m := true, fk := false, immMask := 0x0,
    ok := fun _ => true,
    build := fun f _ => .vredxor f.hdr (fldN 32 f.d) ⟨fldN 64 f.a, f.ca⟩ (fldN 8 f.m) },
  { forms := fun _ => [⟨0, .x, .v, .none, false⟩], m := true, fk := false, immMask := 0x0,
    ok := fun _ => true,
    build := fun f _ => .vfredsum f.hdr (fldN 32 f.d) ⟨fldN 64 f.a, f.ca⟩ (fldN 8 f.m) },
  { forms := fun _ => [⟨0, .x, .v, .none, false⟩], m := true, fk := false, immMask := 0x0,
    ok := fun _ => true,
    build := fun f _ => .vfredosum f.hdr (fldN 32 f.d) ⟨fldN 64 f.a, f.ca⟩ (fldN 8 f.m) },
  { forms := fun _ => [⟨0, .x, .v, .none, false⟩], m := true, fk := false, immMask := 0x0,
    ok := fun _ => true,
    build := fun f _ => .vfredmax f.hdr (fldN 32 f.d) ⟨fldN 64 f.a, f.ca⟩ (fldN 8 f.m) },
  { forms := fun _ => [⟨0, .x, .v, .none, false⟩], m := true, fk := false, immMask := 0x0,
    ok := fun _ => true,
    build := fun f _ => .vfredmin f.hdr (fldN 32 f.d) ⟨fldN 64 f.a, f.ca⟩ (fldN 8 f.m) } ]

/-- Major 0x48 VCFG: the functions in FN order (R190). -/
noncomputable def shapesVCFG : List Shape := [
  { forms := fun _ => [⟨0, .x, .x, .none, false⟩], m := false, fk := false, immMask := 0x3F,
    ok := fun f => f.immBits 0 4 != 15,
    build := fun f _ => .vset f.hdr (fldN 32 f.d) (fldN 32 f.a) ⟨f.fmt 0, fldN 4 (f.immBits 4 2)⟩ },
  { forms := fun _ => [⟨1, .x, .x, .x, false⟩], m := false, fk := false, immMask := 0x1F,
    ok := fun _ => true,
    build := fun f _ => .vsetrun f.hdr (fldN 32 f.d) (fldN 32 f.a) (fldN 32 f.b) (f.immBv 0 5) },
  { forms := fun _ => [⟨0, .none, .x, .none, false⟩], m := false, fk := false, immMask := 0x0,
    ok := fun _ => true,
    build := fun f _ => .mcfg f.hdr (fldN 32 f.a) },
  { forms := fun _ => [⟨0, .q, .x, .none, false⟩], m := false, fk := false, immMask := 0x0,
    ok := fun _ => true,
    build := fun f _ => .qtld f.hdr (fldN 4 f.d) (fldN 32 f.a) },
  { forms := fun f => if f.immBits 0 1 == 0 then [⟨0, .s, .v, .none, false⟩] else [⟨0, .v, .s, .none, false⟩], m := false, fk := false, immMask := 0x1,
    ok := fun _ => true,
    build := fun f _ => if f.immBits 0 1 == 0 then .scmvToScale f.hdr (fldN 8 f.d) ⟨fldN 64 f.a, f.ca⟩ else .scmvFromScale f.hdr (fldN 64 f.d) (fldN 8 f.a) } ]

/-- Major 0x49 VCVT: the functions in FN order (R190). -/
noncomputable def shapesVCVT : List Shape := [
  { forms := fun _ => [⟨0, .v, .v, .none, false⟩], m := true, fk := false, immMask := 0x1F,
    ok := fun f => f.immBits 0 4 != 15,
    build := fun f _ => .vcvth f.hdr (fldN 64 f.d) ⟨fldN 64 f.a, f.ca⟩ (fldN 8 f.m) (f.fmt 0) (f.immBits 4 1 == 1) },
  { forms := fun _ => [⟨0, .v, .v, .none, false⟩], m := true, fk := false, immMask := 0xF,
    ok := fun f => f.immBits 0 4 != 15 && f.d != f.a,
    build := fun f _ => .vcvtd f.hdr (fldN 64 f.d) ⟨fldN 64 f.a, f.ca⟩ (fldN 8 f.m) (f.fmt 0) },
  { forms := fun _ => [⟨0, .v, .v, .s, false⟩], m := true, fk := false, immMask := 0x3F,
    ok := fun f => (f.immBits 0 4 == 13 && f.immBits 4 2 == 0 || f.immBits 0 4 == 14) && f.d != f.a,
    build := fun f _ => .vcvtq f.hdr (fldN 64 f.d) ⟨fldN 64 f.a, f.ca⟩ (fldN 8 f.b) (fldN 8 f.m) (f.immBits 0 4 == 14) (fldN 4 (f.immBits 4 2)) },
  { forms := fun _ => [⟨0, .v, .v, .none, false⟩], m := true, fk := false, immMask := 0x3,
    ok := fun _ => true,
    build := fun f _ => .vcvti f.hdr (fldN 64 f.d) ⟨fldN 64 f.a, f.ca⟩ (fldN 8 f.m) (f.immBv 0 2) } ]

/-- Major 0x50 VLD: the functions in FN order (R190). -/
noncomputable def shapesVLD : List Shape := [
  { forms := fun _ => [⟨2, .v, .x, .sc, true⟩], m := true, fk := true, immMask := 0x0,
    ok := fun _ => true,
    build := fun f l => .vld f.hdr (fldN 64 f.d) (fldN 32 f.a) (f.immv l) (scOf f.b) (fldN 8 f.m) (fldN 8 f.fk) },
  { forms := fun _ => [⟨1, .v, .x, .x, false⟩], m := true, fk := true, immMask := 0x0,
    ok := fun _ => true,
    build := fun f _ => .vlds f.hdr (fldN 64 f.d) (fldN 32 f.a) (fldN 32 f.b) (fldN 8 f.m) (fldN 8 f.fk) },
  { forms := fun _ => [⟨0, .v, .x, .none, false⟩], m := true, fk := true, immMask := 0x0,
    ok := fun _ => true,
    build := fun f _ => .vldrow f.hdr (fldN 64 f.d) (fldN 32 f.a) (fldN 8 f.m) (fldN 8 f.fk) },
  { forms := fun _ => [⟨2, .v, .x, .none, true⟩], m := true, fk := false, immMask := 0x0,
    ok := fun _ => true,
    build := fun f l => .vldl f.hdr (fldN 64 f.d) (fldN 32 f.a) (f.immv l) (fldN 8 f.m) },
  { forms := fun _ => [⟨0, .v, .x, .none, false⟩], m := true, fk := false, immMask := 0x0,
    ok := fun _ => true,
    build := fun f _ => .vldfm f.hdr (fldN 64 f.d) (fldN 32 f.a) (fldN 8 f.m) } ]

/-- Major 0x51 VST: the functions in FN order (R190). -/
noncomputable def shapesVST : List Shape := [
  { forms := fun _ => [⟨2, .v, .x, .sc, true⟩], m := true, fk := false, immMask := 0x0,
    ok := fun _ => true,
    build := fun f l => .vst f.hdr (fldN 64 f.d) (fldN 32 f.a) (f.immv l) (scOf f.b) (fldN 8 f.m) },
  { forms := fun _ => [⟨1, .v, .x, .x, false⟩], m := true, fk := false, immMask := 0x0,
    ok := fun _ => true,
    build := fun f _ => .vsts f.hdr (fldN 64 f.d) (fldN 32 f.a) (fldN 32 f.b) (fldN 8 f.m) },
  { forms := fun _ => [⟨2, .v, .x, .none, true⟩], m := true, fk := false, immMask := 0x0,
    ok := fun _ => true,
    build := fun f l => .vstl f.hdr (fldN 64 f.d) (fldN 32 f.a) (f.immv l) (fldN 8 f.m) } ]

/-- Major 0x52 COPY: the functions in FN order (R190). -/
noncomputable def shapesCOPY : List Shape := [
  { forms := fun _ => [⟨1, .x, .x, .x, false⟩], m := false, fk := false, immMask := 0x3F,
    ok := fun _ => true,
    build := fun f _ => .cpy f.hdr (fldN 32 f.d) (fldN 32 f.a) (fldN 32 f.b) (fldN 64 (f.immBits 0 6)) },
  { forms := fun _ => [⟨1, .x, .x, .x, false⟩], m := false, fk := false, immMask := 0x3F,
    ok := fun _ => true,
    build := fun f _ => .cpy2 f.hdr (fldN 32 f.d) (fldN 32 f.a) (fldN 32 f.b) (fldN 64 (f.immBits 0 6)) },
  { forms := fun _ => [⟨0, .none, .none, .none, false⟩], m := false, fk := false, immMask := 0x3F,
    ok := fun _ => true,
    build := fun f _ => .cpres f.hdr (fldN 64 (f.immBits 0 6)) },
  { forms := fun _ => [⟨0, .none, .x, .none, false⟩], m := false, fk := false, immMask := 0x3F,
    ok := fun _ => true,
    build := fun f _ => .pgreq f.hdr (fldN 32 f.a) (fldN 64 (f.immBits 0 6)) } ]

/-- Major 0x53 TAG: the functions in FN order (R190). -/
noncomputable def shapesTAG : List Shape := [
  { forms := fun _ => [⟨0, .x, .x, .none, false⟩], m := false, fk := false, immMask := 0x0,
    ok := fun _ => true,
    build := fun f _ => .twany f.hdr (fldN 32 f.d) (fldN 32 f.a) },
  { forms := fun _ => [⟨0, .none, .x, .none, false⟩], m := false, fk := false, immMask := 0x0,
    ok := fun _ => true,
    build := fun f _ => .twall f.hdr (fldN 32 f.a) },
  { forms := fun _ => [⟨0, .x, .x, .none, false⟩], m := false, fk := false, immMask := 0x0,
    ok := fun _ => true,
    build := fun f _ => .tffr f.hdr (fldN 32 f.d) (fldN 32 f.a) },
  { forms := fun _ => [⟨0, .none, .x, .none, false⟩], m := false, fk := false, immMask := 0x0,
    ok := fun _ => true,
    build := fun f _ => .tclr f.hdr (fldN 32 f.a) } ]

/-- Major 0x54 STAG: the functions in FN order (R190). -/
noncomputable def shapesSTAG : List Shape := [
  { forms := fun _ => [⟨0, .x, .x, .none, false⟩], m := false, fk := false, immMask := 0x0,
    ok := fun _ => true,
    build := fun f _ => .stlook f.hdr (fldN 32 f.d) (fldN 32 f.a) },
  { forms := fun _ => [⟨1, .none, .x, .x, false⟩], m := false, fk := false, immMask := 0x0,
    ok := fun _ => true,
    build := fun f _ => .stset f.hdr (fldN 32 f.a) (fldN 32 f.b) },
  { forms := fun _ => [⟨0, .none, .x, .none, false⟩], m := false, fk := false, immMask := 0x0,
    ok := fun _ => true,
    build := fun f _ => .stinv f.hdr (fldN 32 f.a) } ]

/-- Major 0x60 VREM: the functions in FN order (R190). -/
noncomputable def shapesVREM : List Shape := [
  { forms := fun _ => [⟨0, .none, .x, .v, false⟩], m := true, fk := false, immMask := 0x17,
    ok := fun f => scopeOk f,
    build := fun f _ => .vramo f.hdr (fldN 32 f.a) ⟨fldN 64 f.b, f.cb⟩ (fldN 8 f.m) f.scope (f.immBits 4 1 == 1) },
  { forms := fun _ => [⟨0, .none, .x, .v, false⟩], m := true, fk := false, immMask := 0xF,
    ok := fun _ => true,
    build := fun f _ => .vrred f.hdr (fldN 32 f.a) ⟨fldN 64 f.b, f.cb⟩ (fldN 8 f.m) (scOf (f.immBits 0 4)), sci := true },
  { forms := fun _ => [⟨0, .none, .x, .v, false⟩], m := false, fk := false, immMask := 0x0,
    ok := fun _ => true,
    build := fun f _ => .mqpush f.hdr (fldN 32 f.a) ⟨fldN 64 f.b, f.cb⟩ },
  { forms := fun _ => [⟨0, .v, .none, .none, false⟩], m := false, fk := false, immMask := 0x0,
    ok := fun _ => true,
    build := fun f _ => .mqpop f.hdr (fldN 64 f.d) },
  { forms := fun _ => [⟨0, .x, .x, .none, false⟩], m := false, fk := false, immMask := 0x0,
    ok := fun _ => true,
    build := fun f _ => .mqcred f.hdr (fldN 32 f.d) (fldN 32 f.a) },
  { forms := fun _ => [⟨0, .k, .v, .v, false⟩], m := true, fk := false, immMask := 0x2F,
    ok := fun f => scopeOk f,
    build := fun f _ => .gcsleep f.hdr (fldN 8 f.d) ⟨fldN 64 f.a, f.ca⟩ ⟨fldN 64 f.b, f.cb⟩ (fldN 8 f.m) f.scope (f.immBits 3 1 == 1) (f.immBits 5 1 == 1) } ]

/-- Major 0x68 PLAN: the functions in FN order (R190). -/
noncomputable def shapesPLAN : List Shape := [
  { forms := fun _ => [⟨0, .p, .v, .x, false⟩], m := false, fk := true, immMask := 0x0,
    ok := fun _ => true,
    build := fun f _ => .plan f.hdr (fldN 16 f.d) ⟨fldN 64 f.a, f.ca⟩ (fldN 32 f.b) (fldN 8 f.fk) },
  { forms := fun _ => [⟨0, .p, .x, .x, false⟩], m := false, fk := false, immMask := 0x0,
    ok := fun _ => true,
    build := fun f _ => .planm f.hdr (fldN 16 f.d) (fldN 32 f.a) (fldN 32 f.b) },
  { forms := fun _ => [⟨0, .v, .x, .x, false⟩], m := true, fk := true, immMask := 0x1F,
    ok := fun _ => true,
    build := fun f _ => .plgat f.hdr (fldN 64 f.d) (fldN 32 f.a) (fldN 32 f.b) (fldN 8 f.m) (fldN 8 f.fk) (fldN 16 (f.immBits 0 4)) (f.immBits 4 1 == 1) },
  { forms := fun _ => [⟨0, .x, .x, .x, false⟩], m := true, fk := true, immMask := 0x7FF,
    ok := fun _ => true,
    build := fun f _ => .plcpy f.hdr (fldN 32 f.d) (fldN 32 f.a) (fldN 32 f.b) (fldN 8 f.m) (fldN 8 f.fk) (fldN 16 (f.immBits 0 4)) (f.immBits 4 1 == 1) (fldN 64 (f.immBits 5 6)) },
  { forms := fun _ => [⟨0, .v, .v, .none, false⟩], m := true, fk := false, immMask := 0xF,
    ok := fun f => f.d != f.a,
    build := fun f _ => .plgatv f.hdr (fldN 64 f.d) ⟨fldN 64 f.a, f.ca⟩ (fldN 8 f.m) (fldN 16 (f.immBits 0 4)) },
  { forms := fun _ => [⟨0, .x, .x, .v, false⟩], m := true, fk := false, immMask := 0xFF,
    ok := fun f => f.immBits 5 3 ≤ 5,
    build := fun f _ => if f.immBits 5 3 == 0 then .plscatAdd f.hdr (fldN 32 f.d) (fldN 32 f.a) ⟨fldN 64 f.b, f.cb⟩ (fldN 8 f.m) (fldN 16 (f.immBits 0 4)) (f.immBits 4 1 == 1) else if f.immBits 5 3 == 1 then .plscatMin f.hdr (fldN 32 f.d) (fldN 32 f.a) ⟨fldN 64 f.b, f.cb⟩ (fldN 8 f.m) (fldN 16 (f.immBits 0 4)) (f.immBits 4 1 == 1) else if f.immBits 5 3 == 2 then .plscatMax f.hdr (fldN 32 f.d) (fldN 32 f.a) ⟨fldN 64 f.b, f.cb⟩ (fldN 8 f.m) (fldN 16 (f.immBits 0 4)) (f.immBits 4 1 == 1) else if f.immBits 5 3 == 3 then .plscatFirst f.hdr (fldN 32 f.d) (fldN 32 f.a) ⟨fldN 64 f.b, f.cb⟩ (fldN 8 f.m) (fldN 16 (f.immBits 0 4)) (f.immBits 4 1 == 1) else if f.immBits 5 3 == 4 then .plscatLast f.hdr (fldN 32 f.d) (fldN 32 f.a) ⟨fldN 64 f.b, f.cb⟩ (fldN 8 f.m) (fldN 16 (f.immBits 0 4)) (f.immBits 4 1 == 1) else .plscatAmoadd f.hdr (fldN 32 f.d) (fldN 32 f.a) ⟨fldN 64 f.b, f.cb⟩ (fldN 8 f.m) (fldN 16 (f.immBits 0 4)) (f.immBits 4 1 == 1) },
  { forms := fun _ => [⟨0, .v, .v, .none, false⟩], m := true, fk := false, immMask := 0x6F,
    ok := fun f => f.immBits 5 2 ≤ 2 && f.d != f.a,
    build := fun f _ => if f.immBits 5 2 == 0 then .plredAdd f.hdr (fldN 64 f.d) ⟨fldN 64 f.a, f.ca⟩ (fldN 8 f.m) (fldN 16 (f.immBits 0 4)) else if f.immBits 5 2 == 1 then .plredMin f.hdr (fldN 64 f.d) ⟨fldN 64 f.a, f.ca⟩ (fldN 8 f.m) (fldN 16 (f.immBits 0 4)) else .plredMax f.hdr (fldN 64 f.d) ⟨fldN 64 f.a, f.ca⟩ (fldN 8 f.m) (fldN 16 (f.immBits 0 4)) },
  { forms := fun _ => [⟨0, .v, .v, .none, false⟩], m := false, fk := false, immMask := 0xF,
    ok := fun _ => true,
    build := fun f _ => .plbcast f.hdr (fldN 64 f.d) ⟨fldN 64 f.a, f.ca⟩ (fldN 16 (f.immBits 0 4)) },
  { forms := fun _ => [⟨0, .p, .p, .p, false⟩], m := false, fk := false, immMask := 0x0,
    ok := fun _ => true,
    build := fun f _ => .plcomp f.hdr (fldN 16 f.d) (fldN 16 f.a) (fldN 16 f.b) },
  { forms := fun _ => [⟨0, .x, .p, .none, false⟩], m := false, fk := false, immMask := 0xFF,
    ok := fun f => plinfoSelOk (f.immBits 0 8),
    build := fun f _ => .plinfo f.hdr (fldN 32 f.d) (fldN 16 f.a) (f.immBv 0 8) },
  { forms := fun _ => [⟨0, .x, .p, .none, false⟩], m := false, fk := false, immMask := 0x0,
    ok := fun _ => true,
    build := fun f _ => .plchk f.hdr (fldN 32 f.d) (fldN 16 f.a) },
  { forms := fun _ => [⟨0, .none, .x, .p, false⟩], m := false, fk := false, immMask := 0x0,
    ok := fun _ => true,
    build := fun f _ => .plsave f.hdr (fldN 32 f.a) (fldN 16 f.b) },
  { forms := fun _ => [⟨0, .p, .x, .none, false⟩], m := false, fk := false, immMask := 0x0,
    ok := fun _ => true,
    build := fun f _ => .plload f.hdr (fldN 16 f.d) (fldN 32 f.a) },
  { forms := fun _ => [⟨0, .p, .none, .none, false⟩], m := false, fk := false, immMask := 0x0,
    ok := fun _ => true,
    build := fun f _ => .plfree f.hdr (fldN 16 f.d) } ]

/-- Major 0x70 MAT: the functions in FN order (R190). -/
noncomputable def shapesMAT : List Shape := [
  { forms := fun _ => [⟨0, .t, .v, .v, false⟩, ⟨1, .t, .v, .x, false⟩], m := true, fk := false, immMask := 0x3FF,
    ok := fun f => opaFmtOk true (f.immBits 0 4) && opaFmtOk true (f.immBits 4 4) && opaQtOk f,
    build := fun f _ => .opa f.hdr (fldN 4 f.d) ⟨fldN 64 f.a, f.ca⟩ f.opaB (fldN 8 f.m) (f.fmt 0) (f.fmt 4) (fldN 4 (f.immBits 8 2)) },
  { forms := fun _ => [⟨0, .t, .v, .v, false⟩, ⟨1, .t, .v, .x, false⟩], m := true, fk := false, immMask := 0x3FF,
    ok := fun f => opaFmtOk false (f.immBits 0 4) && opaFmtOk false (f.immBits 4 4) && opaQtOk f,
    build := fun f _ => .opa2 f.hdr (fldN 4 f.d) ⟨fldN 64 f.a, f.ca⟩ f.opaB (fldN 8 f.m) (f.fmt 0) (f.fmt 4) (fldN 4 (f.immBits 8 2)) },
  { forms := fun _ => [⟨0, .t, .v, .v, false⟩], m := true, fk := false, immMask := 0x3FFF,
    ok := fun f => mxFmtOk (f.immBits 0 4) && mxFmtOk (f.immBits 4 4),
    build := fun f _ => .opamx f.hdr (fldN 4 f.d) ⟨fldN 64 f.a, f.ca⟩ ⟨fldN 64 f.b, f.cb⟩ (fldN 8 f.m) (f.fmt 0) (f.fmt 4) (fldN 8 (f.immBits 8 3)) (fldN 8 (f.immBits 11 3)) },
  { forms := fun _ => [⟨0, .t, .none, .none, false⟩], m := false, fk := false, immMask := 0x1,
    ok := fun _ => true,
    build := fun f _ => .tzero f.hdr (fldN 4 f.d) (f.immBits 0 1 == 1) },
  { forms := fun _ => [⟨1, .t, .v, .x, false⟩], m := true, fk := false, immMask := 0x0,
    ok := fun _ => true,
    build := fun f _ => .tld f.hdr (fldN 4 f.d) ⟨fldN 64 f.a, f.ca⟩ (fldN 32 f.b) (fldN 8 f.m) },
  { forms := fun _ => [⟨1, .v, .t, .x, false⟩], m := true, fk := false, immMask := 0x1,
    ok := fun _ => true,
    build := fun f _ => .tst f.hdr (fldN 64 f.d) (fldN 4 f.a) (fldN 32 f.b) (fldN 8 f.m) (f.immBits 0 1 == 1) } ]

/-- Major 0x78 CLUS: the functions in FN order (R190). -/
noncomputable def shapesCLUS : List Shape := [
  { forms := fun _ => [⟨1, .none, .x, .x, false⟩], m := false, fk := false, immMask := 0x0,
    ok := fun _ => true,
    build := fun f _ => .clcfg f.hdr (fldN 32 f.a) (fldN 32 f.b) },
  { forms := fun _ => [⟨0, .v, .v, .v, false⟩], m := true, fk := true, immMask := 0x0,
    ok := fun _ => true,
    build := fun f _ => .clins f.hdr (fldN 64 f.d) ⟨fldN 64 f.a, f.ca⟩ ⟨fldN 64 f.b, f.cb⟩ (fldN 8 f.m) (fldN 8 f.fk) },
  { forms := fun _ => [⟨0, .x, .none, .none, false⟩], m := false, fk := false, immMask := 0x0,
    ok := fun _ => true,
    build := fun f _ => .clmrg f.hdr (fldN 32 f.d) },
  { forms := fun _ => [⟨0, .v, .x, .none, false⟩], m := false, fk := false, immMask := 0x3,
    ok := fun _ => true,
    build := fun f _ => .clrd f.hdr (fldN 64 f.d) (fldN 32 f.a) (f.immBv 0 2) },
  { forms := fun _ => [⟨0, .none, .none, .none, false⟩], m := false, fk := false, immMask := 0x0,
    ok := fun _ => true,
    build := fun f _ => .clclr f.hdr },
  { forms := fun _ => [⟨0, .x, .none, .none, false⟩], m := false, fk := false, immMask := 0xF,
    ok := fun f => f.immBits 0 4 ≤ 7,
    build := fun f _ => .clstat f.hdr (fldN 32 f.d) (f.immBv 0 4) } ]

/-- The majors of R190 with their functions. -/
noncomputable def majors : List (Nat × List Shape) := [
  (0x00, shapesSALU),
  (0x01, shapesSCMP),
  (0x02, shapesSMOV),
  (0x03, shapesSFP),
  (0x08, shapesSLD),
  (0x09, shapesSST),
  (0x0A, shapesAMO),
  (0x10, shapesBR),
  (0x18, shapesSYS),
  (0x19, shapesSYNC),
  (0x20, shapesVINT),
  (0x21, shapesVICMP),
  (0x30, shapesVFP),
  (0x31, shapesVFCMP),
  (0x38, shapesVMASK),
  (0x39, shapesVPERM),
  (0x3A, shapesVSCAN),
  (0x3B, shapesVRED),
  (0x48, shapesVCFG),
  (0x49, shapesVCVT),
  (0x50, shapesVLD),
  (0x51, shapesVST),
  (0x52, shapesCOPY),
  (0x53, shapesTAG),
  (0x54, shapesSTAG),
  (0x60, shapesVREM),
  (0x68, shapesPLAN),
  (0x70, shapesMAT),
  (0x78, shapesCLUS) ]

def lookup {α : Type} (n : Nat) : List (Nat × α) → Option α
  | [] => none
  | (k, v) :: r => if k == n then some v else lookup n r

/-! ## The checks of R192 -/

/-- Numbers in a class (R177); a tile must lie below TILES. -/
def FClass.size (tiles : Nat) : FClass → Nat
  | .x => 32 | .g => 8 | .v => 64 | .k => 8 | .s => 8 | .q => 4 | .p => 16 | .t => tiles
  | .none => 64 | .sc => 64

/-- Check 7, register fields: an unused field is zero, and SC has its reserved bits zero. -/
def FClass.resvOk (c : FClass) (n : Nat) : Bool :=
  match c with
  | .none => n == 0
  | .sc => scBitsOk n
  | _ => true

/-- Check 9: the field lies in its class's range. -/
def FClass.regOk (tiles : Nat) (c : FClass) (n : Nat) : Bool :=
  match c with
  | .none => true
  | .sc => true
  | c => n < c.size tiles

/-- Check 10: whether a chain bit may stand on this class (R174). -/
def FClass.chainable : FClass → Bool
  | .v => true
  | .k => true
  | _ => false

/-- Bits 61:0 of a following literal word, if the word is one (R169). -/
def literal (w : Option Word) : Option (BitVec 62) :=
  match w with
  | some w => if bitsOf w 62 2 == 3 then some (BitVec.ofNat 62 w.toNat) else none
  | none => none

def Shape.form? (sh : Shape) (f : FWord) : Option FormRow := (sh.forms f).find? (fun r => r.form == f.form)

def Shape.reservedOk (sh : Shape) (f : FWord) (r : FormRow) : Bool :=
  r.d.resvOk f.d && r.a.resvOk f.a && r.b.resvOk f.b &&
  (if r.immv then !f.lit || f.imm == 0 else f.imm &&& sh.immMask == f.imm) &&
  (!sh.sci || scBitsOk (f.imm % 16))

def litOk (f : FWord) (r : FormRow) (next : Option Word) : Bool :=
  !f.lit || (r.immv && (literal next).isSome)

def Shape.maskOk (sh : Shape) (f : FWord) : Bool := (sh.m || f.m == 0) && (sh.fk || f.fk == 0)

/-- The shape that OPC and FN name (checks 4 and 5). -/
noncomputable def shapeOf (f : FWord) : Except Subcode Shape :=
  match lookup f.opc majors with
  | none => .error .unassignedMajor
  | some l => match l[f.fn]? with
    | none => .error .unassignedFn
    | some sh => .ok sh

/-- Checks 6 to 12 of an F-word with an assigned OPC and FN. -/
noncomputable def decodeShape (tiles : Nat) (sh : Shape) (f : FWord) (next : Option Word) : Decoded :=
  match sh.form? f with
  | none => .bad .form
  | some r =>
    if !sh.reservedOk f r then .bad .reserved
    else if !litOk f r next then .bad .lit
    else if !(r.d.regOk tiles f.d && r.a.regOk tiles f.a && r.b.regOk tiles f.b) then .bad .register
    else if (f.ca && !r.a.chainable) || (f.cb && !r.b.chainable) then .bad .chain
    else if !sh.maskOk f then .bad .mask
    else if !sh.ok f then .bad .operand
    else .ok (sh.build f (if f.lit then literal next else none))

/-- An F-word: checks 4 to 12 (R192). `tiles` is the hart's TILES, which bounds the tile class. -/
noncomputable def decodeF (tiles : Nat) (f : FWord) (next : Option Word) : Decoded :=
  match shapeOf f with
  | .error e => .bad e
  | .ok sh => decodeShape tiles sh f next

/-! ## Pair words (R181 to R183) -/

def pairAluOf (n : Nat) : Option PairAlu :=
  match n with
  | 1 => some .add | 2 => some .sub | 3 => some .and | 4 => some .or | 5 => some .xor
  | 6 => some .sll | 7 => some .srl | 8 => some .sra | 10 => some .mul | _ => none
def PairAlu.pop : PairAlu → Nat
  | .add => 1 | .sub => 2 | .and => 3 | .or => 4 | .xor => 5 | .sll => 6 | .srl => 7 | .sra => 8 | .mul => 10
def pairVintOf (n : Nat) : Option PairVint :=
  match n with
  | 16 => some .vadd | 17 => some .vsub | 18 => some .vmul | 19 => some .vand | 20 => some .vor
  | 21 => some .vxor | 22 => some .vmin | 23 => some .vmax | _ => none
def PairVint.pop : PairVint → Nat
  | .vadd => 16 | .vsub => 17 | .vmul => 18 | .vand => 19 | .vor => 20 | .vxor => 21 | .vmin => 22 | .vmax => 23
def pairVfpOf (n : Nat) : Option PairVfp :=
  match n with
  | 24 => some .vfadd | 25 => some .vfsub | 26 => some .vfmul | 27 => some .vfmin | 28 => some .vfmax | _ => none
def PairVfp.pop : PairVfp → Nat
  | .vfadd => 24 | .vfsub => 25 | .vfmul => 26 | .vfmin => 27 | .vfmax => 28

/-- The 31 bits of a slot: POP 30:25, D 24:20, I 19, A 18:14 or IMM19 18:0 (R181). -/
def slotOf (n : Nat) : Option Slot :=
  let pop := n / 2 ^ 25 % 64
  let d := fldN 32 (n / 2 ^ 20)
  let i := n / 2 ^ 19 % 2 == 1
  let a := fldN 32 (n / 2 ^ 14)
  let imm := BitVec.ofNat 19 n
  let low0 := n % 2 ^ 14 == 0
  let y : PSrc := if i then .imm imm else .reg a
  let yOk := i || low0
  if pop == 0 then (if n % 2 ^ 25 == 0 then some .pnop else none)
  else if pop == 9 then (if yOk then some (.mv d y) else none)
  else if pop == 11 then (if i && d.val == 0 then some (.br imm) else none)
  else if pop == 12 then (if i && d.val < 8 then some (.brg (fldN 8 d.val) imm) else none)
  else if pop == 13 then (if i then some (.bdec d imm) else none)
  else if pop == 29 then (if yOk then some (.vmv d y) else none)
  else if pop == 30 then (if !i && low0 then some (.vfabs d a) else none)
  else if pop == 31 then (if !i && low0 then some (.vfneg d a) else none)
  else match pairAluOf pop, pairVintOf pop, pairVfpOf pop with
    | some op, _, _ => if yOk then some (.salu op d y) else none
    | _, some op, _ => if yOk then some (.vint op d y) else none
    | _, _, some op => if !i && low0 then some (.vfp op d a) else none
    | _, _, _ => none

def slotBits (pop d : Nat) (y : PSrc) : Nat :=
  pop * 2 ^ 25 + d * 2 ^ 20 +
    match y with
    | .reg a => a.val * 2 ^ 14
    | .imm b => 2 ^ 19 + b.toNat

def Slot.bits : Slot → Nat
  | .pnop => 0
  | .salu op d y => slotBits op.pop d.val y
  | .mv d y => slotBits 9 d.val y
  | .br off => slotBits 11 0 (.imm off)
  | .brg g off => slotBits 12 g.val (.imm off)
  | .bdec d off => slotBits 13 d.val (.imm off)
  | .vint op d y => slotBits op.pop d.val y
  | .vfp op d a => slotBits op.pop d.val (.reg a)
  | .vmv d y => slotBits 29 d.val y
  | .vfabs d a => slotBits 30 d.val (.reg a)
  | .vfneg d a => slotBits 31 d.val (.reg a)

/-- Check 3: a P-word, with the rules of R183 that do not depend on vtype. A word whose slots are pnop and
pnop, or pnop and brg, is the step of that one slot. -/
noncomputable def decodeP (w : Word) : Decoded :=
  match slotOf (bitsOf w 31 31), slotOf (bitsOf w 0 31) with
  | some a, some b =>
    if pairOk a b then
      match a, b with
      | .pnop, .pnop => .ok .pnop
      | .pnop, .brg g off => .ok (.brg g off)
      | a, b => .ok (.pairWord a b)
    else .bad .pair
  | _, _ => .bad .pair

/-! ## Repeat prefixes (R185 to R187) -/

def FWord.step (f : FWord) (p : RepPrefix) (j : Nat) : FWord :=
  { f with d := f.d + j * p.sd.toNat, a := f.a + j * p.sa.toNat, b := f.b + j * p.sb.toNat }

def FClass.steppable : FClass → Bool
  | .none => false
  | .sc => false
  | _ => true

/-- The stride part of check 2: a non-zero stride needs a field that names a register. -/
def strideOk (r : FormRow) (p : RepPrefix) : Bool :=
  (p.sd == 0 || r.d.steppable) && (p.sa == 0 || r.a.steppable) && (p.sb == 0 || r.b.steppable)

/-- The registers of a vector field's group under `g` registers a group (R177, R246, R247). -/
def fieldGroup (opc fn : Nat) (isD : Bool) (g : Nat) : Nat :=
  if opc == 0x49 && isD then
    if fn == 0 then max (g / 2) 1 else if fn == 1 then 2 * g else if fn == 2 then max (g / 8) 1 else g
  else g

/-- A stepped field stays in its class, and a vector group stays aligned and below v63 (R187). -/
def stepOk (tiles g : Nat) (c : FClass) (n : Nat) : Bool :=
  match c with
  | .none => true
  | .sc => true
  | .v => n % g == 0 && n + g ≤ 64
  | c => n < c.size tiles

/-- The field of iteration `j` that R187 names: 0 D, 1 A, 2 B. Log entry 38: DEDUCED. -/
noncomputable def repRangeField (tiles g : Nat) (f : FWord) (p : RepPrefix) (j : Nat) : Option Nat :=
  match shapeOf f with
  | .error _ => none
  | .ok sh => match sh.form? f with
    | none => none
    | some r =>
      let s := f.step p j
      if p.sd != 0 && !stepOk tiles (fieldGroup f.opc f.fn true g) r.d s.d then some 0
      else if p.sa != 0 && !stepOk tiles g r.a s.a then some 1
      else if p.sb != 0 && !stepOk tiles g r.b s.b then some 2
      else none

/-- An X-word with the words after it: checks 2, then 4 and 5 of the F-word, the strides, the X-word's
reserved bits and the F-word's remaining checks. Under a FORM that the instruction does not take, a stride is wrong where it is so under
every form that it takes. Log entry 34: DEDUCED. -/
noncomputable def decodeX (tiles : Nat) (w : Word) (w1 w2 : Option Word) : Decoded :=
  match w1 with
  | none => .bad .repPrefix
  | some fw =>
    let f := FWord.ofWord fw
    if bitsOf w 58 4 != 0 || bitsOf fw 62 2 != 0 || f.opc == 0x10 || f.opc == 0x18 || f.opc == 0x19 then
      .bad .repPrefix
    else match shapeOf f with
    | .error e => .bad e
    | .ok sh =>
      let cs := bitsOf w 57 1 == 1
      let p : RepPrefix :=
        ⟨if cs then .reg (fldN 32 (bitsOf w 41 5)) else .imm (BitVec.ofNat 16 (bitsOf w 41 16)),
          BitVec.ofNat 3 (bitsOf w 38 3), BitVec.ofNat 3 (bitsOf w 35 3), BitVec.ofNat 3 (bitsOf w 32 3)⟩
      match sh.form? f with
      | none => .bad (if (sh.forms f).any (strideOk · p) then .form else .repPrefix)
      | some r =>
        if !strideOk r p then .bad .repPrefix
        else if bitsOf w 0 32 != 0 || (cs && bitsOf w 46 11 != 0) then .bad .reserved
        else match decodeShape tiles sh f w2 with
          | .bad e => .bad e
          | .ok _ => .ok (.rep p fw (if f.lit then literal w2 else none))

/-! ## The decoder -/

/-- How many words an instruction that begins with these words has (R167): more words are fetched only as
far as this asks for them. -/
def wordsWanted (w : Word) (w1 : Option Word) : Nat :=
  let k := bitsOf w 62 2
  if k == 0 then 1 + bitsOf w 50 1
  else if k == 2 then
    match w1 with
    | none => 2
    | some f => 2 + (if bitsOf f 62 2 == 0 then bitsOf f 50 1 else 0)
  else 1

/-- The instruction at the head of a list of words (R167, R192); `tiles` is the hart's TILES. Log entry 34: DEDUCED. -/
noncomputable def decode (tiles : Nat) (ws : List Word) : Decoded :=
  match ws with
  | [] => .bad .lword
  | w :: r =>
    let k := bitsOf w 62 2
    if k == 0 then decodeF tiles (FWord.ofWord w) r[0]?
    else if k == 1 then decodeP w
    else if k == 2 then decodeX tiles w r[0]? r[1]?
    else .bad .lword

/-- Eight bytes as a little-endian word (R4). -/
def wordOfBytes (bs : List Byte) : Word := BitVec.ofNat 64 (bs.foldr (fun b acc => b.toNat + 256 * acc) 0)

/-- The words of a byte list, the first at the lowest address; missing bytes are zero. -/
def wordsOfBytes : Nat → List Byte → List Word
  | 0, _ => []
  | n + 1, bs => wordOfBytes (bs.take 8) :: wordsOfBytes n (bs.drop 8)

/-- The instruction that three words of bytes begin with. -/
noncomputable def decodeBytes (tiles : Nat) (bs : List Byte) : Decoded := decode tiles (wordsOfBytes 3 bs)

/-- The instruction the decoder reads from an instruction whose bits are `w`, numbered as
spec/opcode_table.json numbers them (bit 0 is the least significant bit of the first word); `nbits` bits are
given and all bits above are zero. Four tiles are taken as granted. -/
noncomputable def decodeTableWord (nbits w : Nat) : Option Instr :=
  let n := w % 2 ^ nbits
  match decode 4 [BitVec.ofNat 64 n, BitVec.ofNat 64 (n / 2 ^ 64), BitVec.ofNat 64 (n / 2 ^ 128)] with
  | .ok i => some i
  | .bad _ => none

/-! ## The encoder -/

def Imm.immVal : Imm → Nat
  | .short b => b.toNat
  | .lit _ => 0
def Imm.isLit : Imm → Bool
  | .short _ => false
  | .lit _ => true
/-- The literal word of 62 bits (R169). -/
def litWordOf (b : BitVec 62) : Word := BitVec.ofNat 64 (3 * 2 ^ 62 + b.toNat)
def Imm.litWord : Imm → List Word
  | .short _ => []
  | .lit b => [litWordOf b]

def Src.bVal : Src → Nat
  | .reg r => r.val
  | .imm _ => 0
def Src.formVal : Src → Nat
  | .reg _ => 0
  | .imm _ => 2
def Src.immOf : Src → Option Imm
  | .reg _ => none
  | .imm i => some i

def VSrc.bVal : VSrc → Nat
  | .vec v => v.r.val
  | .x r => r.val
  | .imm _ => 0
def VSrc.chVal : VSrc → Bool
  | .vec v => v.ch
  | .x _ => false
  | .imm _ => false
def VSrc.formVal : VSrc → Nat
  | .vec _ => 0
  | .x _ => 1
  | .imm _ => 2
def VSrc.immOf : VSrc → Option Imm
  | .imm i => some i
  | .vec _ => none
  | .x _ => none

def VmvSrc.aVal : VmvSrc → Nat
  | .vec v => v.r.val
  | .x _ => 0
  | .imm _ => 0
def VmvSrc.bVal : VmvSrc → Nat
  | .vec _ => 0
  | .x r => r.val
  | .imm _ => 0
def VmvSrc.chVal : VmvSrc → Bool
  | .vec v => v.ch
  | .x _ => false
  | .imm _ => false
def VmvSrc.formVal : VmvSrc → Nat
  | .vec _ => 0
  | .x _ => 1
  | .imm _ => 2
def VmvSrc.immOf : VmvSrc → Option Imm
  | .imm i => some i
  | .vec _ => none
  | .x _ => none

def PosSrc.bVal : PosSrc → Nat
  | .x r => r.val
  | .imm _ => 0
def PosSrc.formVal : PosSrc → Nat
  | .x _ => 1
  | .imm _ => 2
def PosSrc.immOf : PosSrc → Option Imm
  | .x _ => none
  | .imm i => some i

def OpaB.bVal : OpaB → Nat
  | .vec v => v.r.val
  | .pad r => r.val
def OpaB.chVal : OpaB → Bool
  | .vec v => v.ch
  | .pad _ => false
def OpaB.formVal : OpaB → Nat
  | .vec _ => 0
  | .pad _ => 1

/-- The words of an F-word with its guard, and its literal if the immediate is one (R169, R173). -/
def fEnc (h : Hdr) (i : Option Imm) (f : FWord) : List Word :=
  match i with
  | none => [BitVec.ofNat 64 ({ f with g := h.g.val, gn := h.gn } : FWord).toNat]
  | some i =>
    BitVec.ofNat 64 ({ f with g := h.g.val, gn := h.gn, lit := i.isLit, imm := i.immVal } : FWord).toNat :: i.litWord

def pEnc (a b : Slot) : List Word := [BitVec.ofNat 64 (2 ^ 62 + a.bits * 2 ^ 31 + b.bits)]

def RepPrefix.word (p : RepPrefix) : Word :=
  BitVec.ofNat 64 (2 * 2 ^ 62 +
    (match p.count with
      | .imm n => n.toNat * 2 ^ 41
      | .reg r => 2 ^ 57 + r.val * 2 ^ 41) +
    p.sd.toNat * 2 ^ 38 + p.sa.toNat * 2 ^ 35 + p.sb.toNat * 2 ^ 32)

def svcEnc (h : Hdr) (n : Nat) : List Word := fEnc h none { opc := 0x18, fn := 5, imm := n }

def viaEnc (n : Nat) : Via → List Word
  | .svc h => svcEnc h n
  | .mbox _ => []

/-- The words of an instruction, written from the encoding tables; the steps that no word encodes have
none. Log entry 35: DEDUCED. -/
def encode : Instr → List Word
  | .add h d a y => fEnc h y.immOf { opc := 0x00, fn := 0, form := y.formVal, d := d.val, a := a.val, b := y.bVal }
  | .sub h d a y => fEnc h y.immOf { opc := 0x00, fn := 1, form := y.formVal, d := d.val, a := a.val, b := y.bVal }
  | .and h d a y => fEnc h y.immOf { opc := 0x00, fn := 2, form := y.formVal, d := d.val, a := a.val, b := y.bVal }
  | .or h d a y => fEnc h y.immOf { opc := 0x00, fn := 3, form := y.formVal, d := d.val, a := a.val, b := y.bVal }
  | .xor h d a y => fEnc h y.immOf { opc := 0x00, fn := 4, form := y.formVal, d := d.val, a := a.val, b := y.bVal }
  | .sll h d a y => fEnc h y.immOf { opc := 0x00, fn := 5, form := y.formVal, d := d.val, a := a.val, b := y.bVal }
  | .srl h d a y => fEnc h y.immOf { opc := 0x00, fn := 6, form := y.formVal, d := d.val, a := a.val, b := y.bVal }
  | .sra h d a y => fEnc h y.immOf { opc := 0x00, fn := 7, form := y.formVal, d := d.val, a := a.val, b := y.bVal }
  | .mul h d a y => fEnc h y.immOf { opc := 0x00, fn := 8, form := y.formVal, d := d.val, a := a.val, b := y.bVal }
  | .mulh h d a y => fEnc h y.immOf { opc := 0x00, fn := 9, form := y.formVal, d := d.val, a := a.val, b := y.bVal }
  | .mulhu h d a y => fEnc h y.immOf { opc := 0x00, fn := 10, form := y.formVal, d := d.val, a := a.val, b := y.bVal }
  | .div h d a y => fEnc h y.immOf { opc := 0x00, fn := 11, form := y.formVal, d := d.val, a := a.val, b := y.bVal }
  | .divu h d a y => fEnc h y.immOf { opc := 0x00, fn := 12, form := y.formVal, d := d.val, a := a.val, b := y.bVal }
  | .rem h d a y => fEnc h y.immOf { opc := 0x00, fn := 13, form := y.formVal, d := d.val, a := a.val, b := y.bVal }
  | .remu h d a y => fEnc h y.immOf { opc := 0x00, fn := 14, form := y.formVal, d := d.val, a := a.val, b := y.bVal }
  | .min h d a y => fEnc h y.immOf { opc := 0x00, fn := 15, form := y.formVal, d := d.val, a := a.val, b := y.bVal }
  | .max h d a y => fEnc h y.immOf { opc := 0x00, fn := 16, form := y.formVal, d := d.val, a := a.val, b := y.bVal }
  | .minu h d a y => fEnc h y.immOf { opc := 0x00, fn := 17, form := y.formVal, d := d.val, a := a.val, b := y.bVal }
  | .maxu h d a y => fEnc h y.immOf { opc := 0x00, fn := 18, form := y.formVal, d := d.val, a := a.val, b := y.bVal }
  | .clz h d a => fEnc h none { opc := 0x00, fn := 19, d := d.val, a := a.val }
  | .ctz h d a => fEnc h none { opc := 0x00, fn := 20, d := d.val, a := a.val }
  | .popc h d a => fEnc h none { opc := 0x00, fn := 21, d := d.val, a := a.val }
  | .addsh h d a b sh => fEnc h none { opc := 0x00, fn := 22, d := d.val, a := a.val, b := b.val, imm := sh.toNat }
  | .rot h d a y => fEnc h y.immOf { opc := 0x00, fn := 23, form := y.formVal, d := d.val, a := a.val, b := y.bVal }
  | .ceq h d a y => fEnc h y.immOf { opc := 0x01, fn := 0, form := y.formVal, d := d.val, a := a.val, b := y.bVal }
  | .cne h d a y => fEnc h y.immOf { opc := 0x01, fn := 1, form := y.formVal, d := d.val, a := a.val, b := y.bVal }
  | .clt h d a y => fEnc h y.immOf { opc := 0x01, fn := 2, form := y.formVal, d := d.val, a := a.val, b := y.bVal }
  | .cltu h d a y => fEnc h y.immOf { opc := 0x01, fn := 3, form := y.formVal, d := d.val, a := a.val, b := y.bVal }
  | .cge h d a y => fEnc h y.immOf { opc := 0x01, fn := 4, form := y.formVal, d := d.val, a := a.val, b := y.bVal }
  | .cgeu h d a y => fEnc h y.immOf { opc := 0x01, fn := 5, form := y.formVal, d := d.val, a := a.val, b := y.bVal }
  | .gand h d a b => fEnc h none { opc := 0x01, fn := 6, d := d.val, a := a.val, b := b.val }
  | .gor h d a b => fEnc h none { opc := 0x01, fn := 7, d := d.val, a := a.val, b := b.val }
  | .gxor h d a b => fEnc h none { opc := 0x01, fn := 8, d := d.val, a := a.val, b := b.val }
  | .gnot h d a => fEnc h none { opc := 0x01, fn := 9, d := d.val, a := a.val }
  | .li h d i => fEnc h (some i) { opc := 0x02, fn := 0, form := 2, d := d.val }
  | .mv h d a => fEnc h none { opc := 0x02, fn := 1, d := d.val, a := a.val }
  | .adr h d i => fEnc h (some i) { opc := 0x02, fn := 2, form := 2, d := d.val }
  | .sel h d a b n => fEnc h none { opc := 0x02, fn := 3, d := d.val, a := a.val, b := b.val, imm := n.toNat }
  | .gget h d => fEnc h none { opc := 0x02, fn := 4, d := d.val }
  | .gput h a => fEnc h none { opc := 0x02, fn := 5, a := a.val }
  | .fadd h d a b => fEnc h none { opc := 0x03, fn := 0, d := d.val, a := a.val, b := b.val }
  | .fsub h d a b => fEnc h none { opc := 0x03, fn := 1, d := d.val, a := a.val, b := b.val }
  | .fmul h d a b => fEnc h none { opc := 0x03, fn := 2, d := d.val, a := a.val, b := b.val }
  | .fdiv h d a b => fEnc h none { opc := 0x03, fn := 3, d := d.val, a := a.val, b := b.val }
  | .fma h d a b => fEnc h none { opc := 0x03, fn := 5, d := d.val, a := a.val, b := b.val }
  | .fmin h d a b => fEnc h none { opc := 0x03, fn := 6, d := d.val, a := a.val, b := b.val }
  | .fmax h d a b => fEnc h none { opc := 0x03, fn := 7, d := d.val, a := a.val, b := b.val }
  | .fsqrt h d a => fEnc h none { opc := 0x03, fn := 4, d := d.val, a := a.val }
  | .fcvtw h d a => fEnc h none { opc := 0x03, fn := 8, d := d.val, a := a.val }
  | .fcvtf h d a => fEnc h none { opc := 0x03, fn := 9, d := d.val, a := a.val }
  | .fclt h d a b => fEnc h none { opc := 0x03, fn := 10, d := d.val, a := a.val, b := b.val }
  | .fceq h d a b => fEnc h none { opc := 0x03, fn := 11, d := d.val, a := a.val, b := b.val }
  | .fcle h d a b => fEnc h none { opc := 0x03, fn := 12, d := d.val, a := a.val, b := b.val }
  | .lb h d a i => fEnc h (some i) { opc := 0x08, fn := 0, form := 2, d := d.val, a := a.val }
  | .lbu h d a i => fEnc h (some i) { opc := 0x08, fn := 1, form := 2, d := d.val, a := a.val }
  | .lh h d a i => fEnc h (some i) { opc := 0x08, fn := 2, form := 2, d := d.val, a := a.val }
  | .lhu h d a i => fEnc h (some i) { opc := 0x08, fn := 3, form := 2, d := d.val, a := a.val }
  | .lw h d a i => fEnc h (some i) { opc := 0x08, fn := 4, form := 2, d := d.val, a := a.val }
  | .lwu h d a i => fEnc h (some i) { opc := 0x08, fn := 5, form := 2, d := d.val, a := a.val }
  | .ld h d a i => fEnc h (some i) { opc := 0x08, fn := 6, form := 2, d := d.val, a := a.val }
  | .ldacq h d a sc => fEnc h none { opc := 0x08, fn := 7, d := d.val, a := a.val, imm := sc.code }
  | .sb h d a i => fEnc h (some i) { opc := 0x09, fn := 0, form := 2, d := d.val, a := a.val }
  | .sh h d a i => fEnc h (some i) { opc := 0x09, fn := 1, form := 2, d := d.val, a := a.val }
  | .sw h d a i => fEnc h (some i) { opc := 0x09, fn := 2, form := 2, d := d.val, a := a.val }
  | .sd h d a i => fEnc h (some i) { opc := 0x09, fn := 3, form := 2, d := d.val, a := a.val }
  | .strel h d a sc => fEnc h none { opc := 0x09, fn := 4, d := d.val, a := a.val, imm := sc.code }
  | .amoadd h d a b o => fEnc h none { opc := 0x0A, fn := 0, d := d.val, a := a.val, b := b.val, imm := o.bits }
  | .amoswap h d a b o => fEnc h none { opc := 0x0A, fn := 1, d := d.val, a := a.val, b := b.val, imm := o.bits }
  | .amocas h d a b o => fEnc h none { opc := 0x0A, fn := 2, d := d.val, a := a.val, b := b.val, imm := o.bits }
  | .amomin h d a b o => fEnc h none { opc := 0x0A, fn := 3, d := d.val, a := a.val, b := b.val, imm := o.bits }
  | .amomax h d a b o => fEnc h none { opc := 0x0A, fn := 4, d := d.val, a := a.val, b := b.val, imm := o.bits }
  | .amominu h d a b o => fEnc h none { opc := 0x0A, fn := 5, d := d.val, a := a.val, b := b.val, imm := o.bits }
  | .amomaxu h d a b o => fEnc h none { opc := 0x0A, fn := 6, d := d.val, a := a.val, b := b.val, imm := o.bits }
  | .amoand h d a b o => fEnc h none { opc := 0x0A, fn := 7, d := d.val, a := a.val, b := b.val, imm := o.bits }
  | .amoor h d a b o => fEnc h none { opc := 0x0A, fn := 8, d := d.val, a := a.val, b := b.val, imm := o.bits }
  | .amoxor h d a b o => fEnc h none { opc := 0x0A, fn := 9, d := d.val, a := a.val, b := b.val, imm := o.bits }
  | .br h i => fEnc h (some i) { opc := 0x10, fn := 0, form := 2 }
  | .jal h i => fEnc h (some i) { opc := 0x10, fn := 1, form := 2 }
  | .jr h a => fEnc h none { opc := 0x10, fn := 2, a := a.val }
  | .jalr h d a => fEnc h none { opc := 0x10, fn := 3, d := d.val, a := a.val }
  | .bdec h d i => fEnc h (some i) { opc := 0x10, fn := 4, form := 2, d := d.val }
  | .csrr h d n => fEnc h none { opc := 0x18, fn := 0, d := d.val, imm := n.toNat }
  | .csrw h a n => fEnc h none { opc := 0x18, fn := 1, a := a.val, imm := n.toNat }
  | .csrs h a n => fEnc h none { opc := 0x18, fn := 2, a := a.val, imm := n.toNat }
  | .csrc h a n => fEnc h none { opc := 0x18, fn := 3, a := a.val, imm := n.toNat }
  | .trap h code => fEnc h none { opc := 0x18, fn := 4, imm := code.toNat }
  | .ebreak h => fEnc h none { opc := 0x18, fn := 6 }
  | .uret h => fEnc h none { opc := 0x18, fn := 7 }
  | .halt h => fEnc h none { opc := 0x18, fn := 10 }
  | .yield h => fEnc h none { opc := 0x18, fn := 11 }
  | .icsync h => fEnc h none { opc := 0x18, fn := 13 }
  | .ujmp h a => fEnc h none { opc := 0x18, fn := 8, a := a.val }
  | .wfe h d m => fEnc h none { opc := 0x18, fn := 9, d := d.val, imm := m.toNat }
  | .launch h a b => fEnc h none { opc := 0x18, fn := 12, a := a.val, b := b.val }
  | .barCrew h id => fEnc h none { opc := 0x19, fn := 0, imm := id.toNat }
  | .barLaunch h id => fEnc h none { opc := 0x19, fn := 0, imm := id.toNat + 16 }
  | .itpost h a c => fEnc h none { opc := 0x19, fn := 1, a := a.val, imm := c.toNat }
  | .itwait h a c => fEnc h none { opc := 0x19, fn := 2, a := a.val, imm := c.toNat }
  | .fenceSv h sc => fEnc h none { opc := 0x19, fn := 3, imm := sc.code }
  | .fenceVs h sc => fEnc h none { opc := 0x19, fn := 3, imm := sc.code + 32 }
  | .fenceVv h sc => fEnc h none { opc := 0x19, fn := 3, imm := sc.code + 64 }
  | .fenceAll h sc => fEnc h none { opc := 0x19, fn := 3, imm := sc.code + 96 }
  | .fencerec h a b => fEnc h none { opc := 0x19, fn := 4, a := a.val, b := b.val }
  | .vadd h d a b m => fEnc h b.immOf { opc := 0x20, fn := 0, form := b.formVal, d := d.val, a := a.r.val, ca := a.ch, b := b.bVal, cb := b.chVal, m := m.val }
  | .vsub h d a b m => fEnc h b.immOf { opc := 0x20, fn := 1, form := b.formVal, d := d.val, a := a.r.val, ca := a.ch, b := b.bVal, cb := b.chVal, m := m.val }
  | .vrsub h d a b m => fEnc h b.immOf { opc := 0x20, fn := 2, form := b.formVal, d := d.val, a := a.r.val, ca := a.ch, b := b.bVal, cb := b.chVal, m := m.val }
  | .vand h d a b m => fEnc h b.immOf { opc := 0x20, fn := 3, form := b.formVal, d := d.val, a := a.r.val, ca := a.ch, b := b.bVal, cb := b.chVal, m := m.val }
  | .vor h d a b m => fEnc h b.immOf { opc := 0x20, fn := 4, form := b.formVal, d := d.val, a := a.r.val, ca := a.ch, b := b.bVal, cb := b.chVal, m := m.val }
  | .vxor h d a b m => fEnc h b.immOf { opc := 0x20, fn := 5, form := b.formVal, d := d.val, a := a.r.val, ca := a.ch, b := b.bVal, cb := b.chVal, m := m.val }
  | .vsll h d a b m => fEnc h b.immOf { opc := 0x20, fn := 6, form := b.formVal, d := d.val, a := a.r.val, ca := a.ch, b := b.bVal, cb := b.chVal, m := m.val }
  | .vsrl h d a b m => fEnc h b.immOf { opc := 0x20, fn := 7, form := b.formVal, d := d.val, a := a.r.val, ca := a.ch, b := b.bVal, cb := b.chVal, m := m.val }
  | .vsra h d a b m => fEnc h b.immOf { opc := 0x20, fn := 8, form := b.formVal, d := d.val, a := a.r.val, ca := a.ch, b := b.bVal, cb := b.chVal, m := m.val }
  | .vmul h d a b m => fEnc h b.immOf { opc := 0x20, fn := 9, form := b.formVal, d := d.val, a := a.r.val, ca := a.ch, b := b.bVal, cb := b.chVal, m := m.val }
  | .vmulh h d a b m => fEnc h b.immOf { opc := 0x20, fn := 10, form := b.formVal, d := d.val, a := a.r.val, ca := a.ch, b := b.bVal, cb := b.chVal, m := m.val }
  | .vmulhu h d a b m => fEnc h b.immOf { opc := 0x20, fn := 11, form := b.formVal, d := d.val, a := a.r.val, ca := a.ch, b := b.bVal, cb := b.chVal, m := m.val }
  | .vdiv h d a b m => fEnc h b.immOf { opc := 0x20, fn := 12, form := b.formVal, d := d.val, a := a.r.val, ca := a.ch, b := b.bVal, cb := b.chVal, m := m.val }
  | .vdivu h d a b m => fEnc h b.immOf { opc := 0x20, fn := 13, form := b.formVal, d := d.val, a := a.r.val, ca := a.ch, b := b.bVal, cb := b.chVal, m := m.val }
  | .vrem h d a b m => fEnc h b.immOf { opc := 0x20, fn := 14, form := b.formVal, d := d.val, a := a.r.val, ca := a.ch, b := b.bVal, cb := b.chVal, m := m.val }
  | .vremu h d a b m => fEnc h b.immOf { opc := 0x20, fn := 15, form := b.formVal, d := d.val, a := a.r.val, ca := a.ch, b := b.bVal, cb := b.chVal, m := m.val }
  | .vmin h d a b m => fEnc h b.immOf { opc := 0x20, fn := 16, form := b.formVal, d := d.val, a := a.r.val, ca := a.ch, b := b.bVal, cb := b.chVal, m := m.val }
  | .vmax h d a b m => fEnc h b.immOf { opc := 0x20, fn := 17, form := b.formVal, d := d.val, a := a.r.val, ca := a.ch, b := b.bVal, cb := b.chVal, m := m.val }
  | .vminu h d a b m => fEnc h b.immOf { opc := 0x20, fn := 18, form := b.formVal, d := d.val, a := a.r.val, ca := a.ch, b := b.bVal, cb := b.chVal, m := m.val }
  | .vmaxu h d a b m => fEnc h b.immOf { opc := 0x20, fn := 19, form := b.formVal, d := d.val, a := a.r.val, ca := a.ch, b := b.bVal, cb := b.chVal, m := m.val }
  | .vsadd h d a b m => fEnc h b.immOf { opc := 0x20, fn := 20, form := b.formVal, d := d.val, a := a.r.val, ca := a.ch, b := b.bVal, cb := b.chVal, m := m.val }
  | .vsaddu h d a b m => fEnc h b.immOf { opc := 0x20, fn := 21, form := b.formVal, d := d.val, a := a.r.val, ca := a.ch, b := b.bVal, cb := b.chVal, m := m.val }
  | .vssub h d a b m => fEnc h b.immOf { opc := 0x20, fn := 22, form := b.formVal, d := d.val, a := a.r.val, ca := a.ch, b := b.bVal, cb := b.chVal, m := m.val }
  | .vssubu h d a b m => fEnc h b.immOf { opc := 0x20, fn := 23, form := b.formVal, d := d.val, a := a.r.val, ca := a.ch, b := b.bVal, cb := b.chVal, m := m.val }
  | .vabs h d a m => fEnc h none { opc := 0x20, fn := 24, d := d.val, a := a.r.val, ca := a.ch, m := m.val }
  | .vmv h d b m => fEnc h b.immOf { opc := 0x20, fn := 25, form := b.formVal, d := d.val, a := b.aVal, ca := b.chVal, b := b.bVal, m := m.val }
  | .vmerge h d a b m => fEnc h b.immOf { opc := 0x20, fn := 26, form := b.formVal, d := d.val, a := a.r.val, ca := a.ch, b := b.bVal, cb := b.chVal, m := m.val }
  | .vid h d m => fEnc h none { opc := 0x20, fn := 27, d := d.val, m := m.val }
  | .vseq h d a b m => fEnc h b.immOf { opc := 0x21, fn := 0, form := b.formVal, d := d.val, a := a.r.val, ca := a.ch, b := b.bVal, cb := b.chVal, m := m.val }
  | .vsne h d a b m => fEnc h b.immOf { opc := 0x21, fn := 1, form := b.formVal, d := d.val, a := a.r.val, ca := a.ch, b := b.bVal, cb := b.chVal, m := m.val }
  | .vslt h d a b m => fEnc h b.immOf { opc := 0x21, fn := 2, form := b.formVal, d := d.val, a := a.r.val, ca := a.ch, b := b.bVal, cb := b.chVal, m := m.val }
  | .vsltu h d a b m => fEnc h b.immOf { opc := 0x21, fn := 3, form := b.formVal, d := d.val, a := a.r.val, ca := a.ch, b := b.bVal, cb := b.chVal, m := m.val }
  | .vsle h d a b m => fEnc h b.immOf { opc := 0x21, fn := 4, form := b.formVal, d := d.val, a := a.r.val, ca := a.ch, b := b.bVal, cb := b.chVal, m := m.val }
  | .vsleu h d a b m => fEnc h b.immOf { opc := 0x21, fn := 5, form := b.formVal, d := d.val, a := a.r.val, ca := a.ch, b := b.bVal, cb := b.chVal, m := m.val }
  | .vsgt h d a b m => fEnc h b.immOf { opc := 0x21, fn := 6, form := b.formVal, d := d.val, a := a.r.val, ca := a.ch, b := b.bVal, cb := b.chVal, m := m.val }
  | .vsgtu h d a b m => fEnc h b.immOf { opc := 0x21, fn := 7, form := b.formVal, d := d.val, a := a.r.val, ca := a.ch, b := b.bVal, cb := b.chVal, m := m.val }
  | .vfadd h d a b m => fEnc h b.immOf { opc := 0x30, fn := 0, form := b.formVal, d := d.val, a := a.r.val, ca := a.ch, b := b.bVal, cb := b.chVal, m := m.val }
  | .vfsub h d a b m => fEnc h b.immOf { opc := 0x30, fn := 1, form := b.formVal, d := d.val, a := a.r.val, ca := a.ch, b := b.bVal, cb := b.chVal, m := m.val }
  | .vfrsub h d a b m => fEnc h b.immOf { opc := 0x30, fn := 2, form := b.formVal, d := d.val, a := a.r.val, ca := a.ch, b := b.bVal, cb := b.chVal, m := m.val }
  | .vfmul h d a b m => fEnc h b.immOf { opc := 0x30, fn := 3, form := b.formVal, d := d.val, a := a.r.val, ca := a.ch, b := b.bVal, cb := b.chVal, m := m.val }
  | .vfdiv h d a b m => fEnc h b.immOf { opc := 0x30, fn := 4, form := b.formVal, d := d.val, a := a.r.val, ca := a.ch, b := b.bVal, cb := b.chVal, m := m.val }
  | .vfrdiv h d a b m => fEnc h b.immOf { opc := 0x30, fn := 5, form := b.formVal, d := d.val, a := a.r.val, ca := a.ch, b := b.bVal, cb := b.chVal, m := m.val }
  | .vfsqrt h d a m => fEnc h none { opc := 0x30, fn := 6, d := d.val, a := a.r.val, ca := a.ch, m := m.val }
  | .vfrsqrt h d a m => fEnc h none { opc := 0x30, fn := 7, d := d.val, a := a.r.val, ca := a.ch, m := m.val }
  | .vfrcpz h d a m => fEnc h none { opc := 0x30, fn := 8, d := d.val, a := a.r.val, ca := a.ch, m := m.val }
  | .vfma h d a b m => fEnc h b.immOf { opc := 0x30, fn := 9, form := b.formVal, d := d.val, a := a.r.val, ca := a.ch, b := b.bVal, cb := b.chVal, m := m.val }
  | .vfms h d a b m => fEnc h b.immOf { opc := 0x30, fn := 10, form := b.formVal, d := d.val, a := a.r.val, ca := a.ch, b := b.bVal, cb := b.chVal, m := m.val }
  | .vfnma h d a b m => fEnc h b.immOf { opc := 0x30, fn := 11, form := b.formVal, d := d.val, a := a.r.val, ca := a.ch, b := b.bVal, cb := b.chVal, m := m.val }
  | .vfnms h d a b m => fEnc h b.immOf { opc := 0x30, fn := 12, form := b.formVal, d := d.val, a := a.r.val, ca := a.ch, b := b.bVal, cb := b.chVal, m := m.val }
  | .vfmin h d a b m => fEnc h b.immOf { opc := 0x30, fn := 13, form := b.formVal, d := d.val, a := a.r.val, ca := a.ch, b := b.bVal, cb := b.chVal, m := m.val }
  | .vfmax h d a b m => fEnc h b.immOf { opc := 0x30, fn := 14, form := b.formVal, d := d.val, a := a.r.val, ca := a.ch, b := b.bVal, cb := b.chVal, m := m.val }
  | .vfabs h d a m => fEnc h none { opc := 0x30, fn := 15, d := d.val, a := a.r.val, ca := a.ch, m := m.val }
  | .vfneg h d a m => fEnc h none { opc := 0x30, fn := 16, d := d.val, a := a.r.val, ca := a.ch, m := m.val }
  | .vfsgnj h d a b m => fEnc h b.immOf { opc := 0x30, fn := 17, form := b.formVal, d := d.val, a := a.r.val, ca := a.ch, b := b.bVal, cb := b.chVal, m := m.val }
  | .vfexp2 h d a m => fEnc h none { opc := 0x30, fn := 18, d := d.val, a := a.r.val, ca := a.ch, m := m.val }
  | .vflog2 h d a m => fEnc h none { opc := 0x30, fn := 19, d := d.val, a := a.r.val, ca := a.ch, m := m.val }
  | .vfscale h d a b m => fEnc h b.immOf { opc := 0x30, fn := 20, form := b.formVal, d := d.val, a := a.r.val, ca := a.ch, b := b.bVal, cb := b.chVal, m := m.val }
  | .vfclass h d a m => fEnc h none { opc := 0x30, fn := 21, d := d.val, a := a.r.val, ca := a.ch, m := m.val }
  | .vfround h d a m => fEnc h none { opc := 0x30, fn := 22, d := d.val, a := a.r.val, ca := a.ch, m := m.val }
  | .vfeq h d a b m => fEnc h b.immOf { opc := 0x31, fn := 0, form := b.formVal, d := d.val, a := a.r.val, ca := a.ch, b := b.bVal, cb := b.chVal, m := m.val }
  | .vfne h d a b m => fEnc h b.immOf { opc := 0x31, fn := 1, form := b.formVal, d := d.val, a := a.r.val, ca := a.ch, b := b.bVal, cb := b.chVal, m := m.val }
  | .vflt h d a b m => fEnc h b.immOf { opc := 0x31, fn := 2, form := b.formVal, d := d.val, a := a.r.val, ca := a.ch, b := b.bVal, cb := b.chVal, m := m.val }
  | .vfle h d a b m => fEnc h b.immOf { opc := 0x31, fn := 3, form := b.formVal, d := d.val, a := a.r.val, ca := a.ch, b := b.bVal, cb := b.chVal, m := m.val }
  | .vfgt h d a b m => fEnc h b.immOf { opc := 0x31, fn := 4, form := b.formVal, d := d.val, a := a.r.val, ca := a.ch, b := b.bVal, cb := b.chVal, m := m.val }
  | .vfge h d a b m => fEnc h b.immOf { opc := 0x31, fn := 5, form := b.formVal, d := d.val, a := a.r.val, ca := a.ch, b := b.bVal, cb := b.chVal, m := m.val }
  | .vfuno h d a b m => fEnc h b.immOf { opc := 0x31, fn := 6, form := b.formVal, d := d.val, a := a.r.val, ca := a.ch, b := b.bVal, cb := b.chVal, m := m.val }
  | .kand h d a b => fEnc h none { opc := 0x38, fn := 0, d := d.val, a := a.r.val, ca := a.ch, b := b.r.val, cb := b.ch }
  | .kor h d a b => fEnc h none { opc := 0x38, fn := 1, d := d.val, a := a.r.val, ca := a.ch, b := b.r.val, cb := b.ch }
  | .kxor h d a b => fEnc h none { opc := 0x38, fn := 2, d := d.val, a := a.r.val, ca := a.ch, b := b.r.val, cb := b.ch }
  | .kandn h d a b => fEnc h none { opc := 0x38, fn := 3, d := d.val, a := a.r.val, ca := a.ch, b := b.r.val, cb := b.ch }
  | .knot h d a => fEnc h none { opc := 0x38, fn := 4, d := d.val, a := a.r.val, ca := a.ch }
  | .kpop h d a => fEnc h none { opc := 0x38, fn := 5, d := d.val, a := a.r.val, ca := a.ch }
  | .kfirst h d a => fEnc h none { opc := 0x38, fn := 6, d := d.val, a := a.r.val, ca := a.ch }
  | .kset h d a => fEnc h none { opc := 0x38, fn := 7, d := d.val, a := a.val }
  | .kmvToMask h d a => fEnc h none { opc := 0x38, fn := 8, d := d.val, a := a.r.val, ca := a.ch }
  | .kmvToVector h d a => fEnc h none { opc := 0x38, fn := 8, d := d.val, a := a.r.val, ca := a.ch, imm := 1 }
  | .kall h d => fEnc h none { opc := 0x38, fn := 9, d := d.val }
  | .vslideup h d a n m => fEnc h n.immOf { opc := 0x39, fn := 0, form := n.formVal, d := d.val, a := a.r.val, ca := a.ch, b := n.bVal, m := m.val }
  | .vslidedown h d a n m => fEnc h n.immOf { opc := 0x39, fn := 1, form := n.formVal, d := d.val, a := a.r.val, ca := a.ch, b := n.bVal, m := m.val }
  | .vbcast h d a n m => fEnc h n.immOf { opc := 0x39, fn := 4, form := n.formVal, d := d.val, a := a.r.val, ca := a.ch, b := n.bVal, m := m.val }
  | .vcompress h d a b => fEnc h none { opc := 0x39, fn := 2, d := d.val, a := a.r.val, ca := a.ch, b := b.r.val, cb := b.ch }
  | .vexpand h d a b => fEnc h none { opc := 0x39, fn := 3, d := d.val, a := a.r.val, ca := a.ch, b := b.r.val, cb := b.ch }
  | .vext h d a n => fEnc h n.immOf { opc := 0x39, fn := 5, form := n.formVal, d := d.val, a := a.r.val, ca := a.ch, b := n.bVal }
  | .vins h d a n => fEnc h n.immOf { opc := 0x39, fn := 6, form := n.formVal, d := d.val, a := a.val, b := n.bVal }
  | .vscanadd h d a m => fEnc h none { opc := 0x3A, fn := 0, d := d.val, a := a.r.val, ca := a.ch, m := m.val }
  | .vscanmax h d a m => fEnc h none { opc := 0x3A, fn := 1, d := d.val, a := a.r.val, ca := a.ch, m := m.val }
  | .vscanmin h d a m => fEnc h none { opc := 0x3A, fn := 2, d := d.val, a := a.r.val, ca := a.ch, m := m.val }
  | .vscanmul h d a m => fEnc h none { opc := 0x3A, fn := 3, d := d.val, a := a.r.val, ca := a.ch, m := m.val }
  | .vrecur h d a b => fEnc h none { opc := 0x3A, fn := 4, d := d.val, a := a.r.val, ca := a.ch, b := b.r.val, cb := b.ch }
  | .vredsum h d a m => fEnc h none { opc := 0x3B, fn := 0, d := d.val, a := a.r.val, ca := a.ch, m := m.val }
  | .vredmax h d a m => fEnc h none { opc := 0x3B, fn := 1, d := d.val, a := a.r.val, ca := a.ch, m := m.val }
  | .vredmin h d a m => fEnc h none { opc := 0x3B, fn := 2, d := d.val, a := a.r.val, ca := a.ch, m := m.val }
  | .vredand h d a m => fEnc h none { opc := 0x3B, fn := 3, d := d.val, a := a.r.val, ca := a.ch, m := m.val }
  | .vredor h d a m => fEnc h none { opc := 0x3B, fn := 4, d := d.val, a := a.r.val, ca := a.ch, m := m.val }
  | .vredxor h d a m => fEnc h none { opc := 0x3B, fn := 5, d := d.val, a := a.r.val, ca := a.ch, m := m.val }
  | .vfredsum h d a m => fEnc h none { opc := 0x3B, fn := 6, d := d.val, a := a.r.val, ca := a.ch, m := m.val }
  | .vfredosum h d a m => fEnc h none { opc := 0x3B, fn := 7, d := d.val, a := a.r.val, ca := a.ch, m := m.val }
  | .vfredmax h d a m => fEnc h none { opc := 0x3B, fn := 8, d := d.val, a := a.r.val, ca := a.ch, m := m.val }
  | .vfredmin h d a m => fEnc h none { opc := 0x3B, fn := 9, d := d.val, a := a.r.val, ca := a.ch, m := m.val }
  | .vset h d a t => fEnc h none { opc := 0x48, fn := 0, d := d.val, a := a.val, imm := t.bits }
  | .vsetrun h d a b lg => fEnc h none { opc := 0x48, fn := 1, form := 1, d := d.val, a := a.val, b := b.val, imm := lg.toNat }
  | .mcfg h a => fEnc h none { opc := 0x48, fn := 2, a := a.val }
  | .qtld h d a => fEnc h none { opc := 0x48, fn := 3, d := d.val, a := a.val }
  | .scmvToScale h d a => fEnc h none { opc := 0x48, fn := 4, d := d.val, a := a.r.val, ca := a.ch }
  | .scmvFromScale h d a => fEnc h none { opc := 0x48, fn := 4, d := d.val, a := a.val, imm := 1 }
  | .vcvth h d a m f sat => fEnc h none { opc := 0x49, fn := 0, d := d.val, a := a.r.val, ca := a.ch, m := m.val, imm := f.code + sat.toNat * 16 }
  | .vcvtd h d a m f => fEnc h none { opc := 0x49, fn := 1, d := d.val, a := a.r.val, ca := a.ch, m := m.val, imm := f.code }
  | .vcvtq h d a b m q4 qt => fEnc h none { opc := 0x49, fn := 2, d := d.val, a := a.r.val, ca := a.ch, b := b.val, m := m.val, imm := (if q4 then 14 else 13) + qt.val * 16 }
  | .vcvti h d a m dir => fEnc h none { opc := 0x49, fn := 3, d := d.val, a := a.r.val, ca := a.ch, m := m.val, imm := dir.toNat }
  | .vld h d a i s m fk => fEnc h (some i) { opc := 0x50, fn := 0, form := 2, d := d.val, a := a.val, b := scBits s, m := m.val, fk := fk.val }
  | .vlds h d a b m fk => fEnc h none { opc := 0x50, fn := 1, form := 1, d := d.val, a := a.val, b := b.val, m := m.val, fk := fk.val }
  | .vldrow h d a m fk => fEnc h none { opc := 0x50, fn := 2, d := d.val, a := a.val, m := m.val, fk := fk.val }
  | .vldl h d a i m => fEnc h (some i) { opc := 0x50, fn := 3, form := 2, d := d.val, a := a.val, m := m.val }
  | .vldfm h d a m => fEnc h none { opc := 0x50, fn := 4, d := d.val, a := a.val, m := m.val }
  | .vst h d a i s m => fEnc h (some i) { opc := 0x51, fn := 0, form := 2, d := d.val, a := a.val, b := scBits s, m := m.val }
  | .vsts h d a b m => fEnc h none { opc := 0x51, fn := 1, form := 1, d := d.val, a := a.val, b := b.val, m := m.val }
  | .vstl h d a i m => fEnc h (some i) { opc := 0x51, fn := 2, form := 2, d := d.val, a := a.val, m := m.val }
  | .cpy h d a b tag => fEnc h none { opc := 0x52, fn := 0, form := 1, d := d.val, a := a.val, b := b.val, imm := tag.val }
  | .cpy2 h d a b tag => fEnc h none { opc := 0x52, fn := 1, form := 1, d := d.val, a := a.val, b := b.val, imm := tag.val }
  | .cpres h tag => fEnc h none { opc := 0x52, fn := 2, imm := tag.val }
  | .pgreq h a tag => fEnc h none { opc := 0x52, fn := 3, a := a.val, imm := tag.val }
  | .twany h d a => fEnc h none { opc := 0x53, fn := 0, d := d.val, a := a.val }
  | .twall h a => fEnc h none { opc := 0x53, fn := 1, a := a.val }
  | .tffr h d a => fEnc h none { opc := 0x53, fn := 2, d := d.val, a := a.val }
  | .tclr h a => fEnc h none { opc := 0x53, fn := 3, a := a.val }
  | .stlook h d a => fEnc h none { opc := 0x54, fn := 0, d := d.val, a := a.val }
  | .stset h a b => fEnc h none { opc := 0x54, fn := 1, form := 1, a := a.val, b := b.val }
  | .stinv h a => fEnc h none { opc := 0x54, fn := 2, a := a.val }
  | .vramo h a b m sc rl => fEnc h none { opc := 0x60, fn := 0, a := a.val, b := b.r.val, cb := b.ch, m := m.val, imm := sc.code + rl.toNat * 16 }
  | .vrred h a b m s => fEnc h none { opc := 0x60, fn := 1, a := a.val, b := b.r.val, cb := b.ch, m := m.val, imm := scBits s }
  | .mqpush h a b => fEnc h none { opc := 0x60, fn := 2, a := a.val, b := b.r.val, cb := b.ch }
  | .mqpop h d => fEnc h none { opc := 0x60, fn := 3, d := d.val }
  | .mqcred h d a => fEnc h none { opc := 0x60, fn := 4, d := d.val, a := a.val }
  | .gcsleep h d a b m sc aq allm => fEnc h none { opc := 0x60, fn := 5, d := d.val, a := a.r.val, ca := a.ch, b := b.r.val, cb := b.ch, m := m.val, imm := sc.code + aq.toNat * 8 + allm.toNat * 32 }
  | .plan h d a b fk => fEnc h none { opc := 0x68, fn := 0, d := d.val, a := a.r.val, ca := a.ch, b := b.val, fk := fk.val }
  | .planm h d a b => fEnc h none { opc := 0x68, fn := 1, d := d.val, a := a.val, b := b.val }
  | .plgat h d a b m fk p chk => fEnc h none { opc := 0x68, fn := 2, d := d.val, a := a.val, b := b.val, m := m.val, fk := fk.val, imm := p.val + chk.toNat * 16 }
  | .plcpy h d a b m fk p chk tag => fEnc h none { opc := 0x68, fn := 3, d := d.val, a := a.val, b := b.val, m := m.val, fk := fk.val, imm := p.val + chk.toNat * 16 + tag.val * 32 }
  | .plgatv h d a m p => fEnc h none { opc := 0x68, fn := 4, d := d.val, a := a.r.val, ca := a.ch, m := m.val, imm := p.val }
  | .plscatAdd h d a b m p chk => fEnc h none { opc := 0x68, fn := 5, d := d.val, a := a.val, b := b.r.val, cb := b.ch, m := m.val, imm := p.val + chk.toNat * 16 }
  | .plscatMin h d a b m p chk => fEnc h none { opc := 0x68, fn := 5, d := d.val, a := a.val, b := b.r.val, cb := b.ch, m := m.val, imm := p.val + chk.toNat * 16 + 32 }
  | .plscatMax h d a b m p chk => fEnc h none { opc := 0x68, fn := 5, d := d.val, a := a.val, b := b.r.val, cb := b.ch, m := m.val, imm := p.val + chk.toNat * 16 + 64 }
  | .plscatFirst h d a b m p chk => fEnc h none { opc := 0x68, fn := 5, d := d.val, a := a.val, b := b.r.val, cb := b.ch, m := m.val, imm := p.val + chk.toNat * 16 + 96 }
  | .plscatLast h d a b m p chk => fEnc h none { opc := 0x68, fn := 5, d := d.val, a := a.val, b := b.r.val, cb := b.ch, m := m.val, imm := p.val + chk.toNat * 16 + 128 }
  | .plscatAmoadd h d a b m p chk => fEnc h none { opc := 0x68, fn := 5, d := d.val, a := a.val, b := b.r.val, cb := b.ch, m := m.val, imm := p.val + chk.toNat * 16 + 160 }
  | .plredAdd h d a m p => fEnc h none { opc := 0x68, fn := 6, d := d.val, a := a.r.val, ca := a.ch, m := m.val, imm := p.val }
  | .plredMin h d a m p => fEnc h none { opc := 0x68, fn := 6, d := d.val, a := a.r.val, ca := a.ch, m := m.val, imm := p.val + 32 }
  | .plredMax h d a m p => fEnc h none { opc := 0x68, fn := 6, d := d.val, a := a.r.val, ca := a.ch, m := m.val, imm := p.val + 64 }
  | .plbcast h d a p => fEnc h none { opc := 0x68, fn := 7, d := d.val, a := a.r.val, ca := a.ch, imm := p.val }
  | .plcomp h d a b => fEnc h none { opc := 0x68, fn := 8, d := d.val, a := a.val, b := b.val }
  | .plinfo h d a sel => fEnc h none { opc := 0x68, fn := 9, d := d.val, a := a.val, imm := sel.toNat }
  | .plchk h d a => fEnc h none { opc := 0x68, fn := 10, d := d.val, a := a.val }
  | .plsave h a b => fEnc h none { opc := 0x68, fn := 11, a := a.val, b := b.val }
  | .plload h d a => fEnc h none { opc := 0x68, fn := 12, d := d.val, a := a.val }
  | .plfree h d => fEnc h none { opc := 0x68, fn := 13, d := d.val }
  | .opa h d a b m fa fb qt => fEnc h none { opc := 0x70, fn := 0, form := b.formVal, d := d.val, a := a.r.val, ca := a.ch, b := b.bVal, cb := b.chVal, m := m.val, imm := fa.code + fb.code * 16 + qt.val * 256 }
  | .opa2 h d a b m fa fb qt => fEnc h none { opc := 0x70, fn := 1, form := b.formVal, d := d.val, a := a.r.val, ca := a.ch, b := b.bVal, cb := b.chVal, m := m.val, imm := fa.code + fb.code * 16 + qt.val * 256 }
  | .opamx h d a b m fa fb sa sb => fEnc h none { opc := 0x70, fn := 2, d := d.val, a := a.r.val, ca := a.ch, b := b.r.val, cb := b.ch, m := m.val, imm := fa.code + fb.code * 16 + sa.val * 256 + sb.val * 2048 }
  | .tzero h d int => fEnc h none { opc := 0x70, fn := 3, d := d.val, imm := int.toNat }
  | .tld h d a b m => fEnc h none { opc := 0x70, fn := 4, form := 1, d := d.val, a := a.r.val, ca := a.ch, b := b.val, m := m.val }
  | .tst h d a b m tr => fEnc h none { opc := 0x70, fn := 5, form := 1, d := d.val, a := a.val, b := b.val, m := m.val, imm := tr.toNat }
  | .clcfg h a b => fEnc h none { opc := 0x78, fn := 0, form := 1, a := a.val, b := b.val }
  | .clins h d a b m fk => fEnc h none { opc := 0x78, fn := 1, d := d.val, a := a.r.val, ca := a.ch, b := b.r.val, cb := b.ch, m := m.val, fk := fk.val }
  | .clmrg h d => fEnc h none { opc := 0x78, fn := 2, d := d.val }
  | .clrd h d a fld => fEnc h none { opc := 0x78, fn := 3, d := d.val, a := a.val, imm := fld.toNat }
  | .clclr h => fEnc h none { opc := 0x78, fn := 4 }
  | .clstat h d sel => fEnc h none { opc := 0x78, fn := 5, d := d.val, imm := sel.toNat }
  | .svc h code => svcEnc h code.toNat
  | .version h => svcEnc h 0x00
  | .svcPartition h => svcEnc h 0x01
  | .frames h => svcEnc h 0x02
  | .mapPages v => viaEnc 0x10 v
  | .unmapPages v => viaEnc 0x11 v
  | .protectPages v => viaEnc 0x12 v
  | .offerPages v => viaEnc 0x13 v
  | .acceptPages v => viaEnc 0x14 v
  | .thawPages v => viaEnc 0x15 v
  | .pairWord a b => pEnc a b
  | .pnop => pEnc .pnop .pnop
  | .brg g off => pEnc .pnop (.brg g off)
  | .rep p f lit =>
    [p.word, f] ++ (match lit with
      | some b => [litWordOf b]
      | none => [])
  | .instructionFetch => []
  | .trapDelivery _ => []
  | .storeAtTarget _ => []
  | .writeUnitPerform _ => []
  | .mergingAddArrival _ => []
  | .writeQueueApply _ => []
  | .copyChunk _ _ => []
  | .copyComplete _ _ => []
  | .messageDelivery _ _ => []
  | .creditGrant _ => []
  | .gcsleepReevaluation _ => []
  | .recordCheck _ _ => []
  | .dependenceRead _ _ => []
  | .crewPlacement _ => []
  | .preemption _ _ => []
  | .resumption _ _ => []
  | .budgetExpiry _ _ => []
  | .gleanSweep _ => []
  | .conversionCommit _ => []
  | .exportPages _ => []
  | .importPages _ => []
  | .attest _ => []
  | .partition _ => []
  | .quota _ => []
  | .weight _ => []
  | .setglean _ => []
  | .setbudget _ => []
  | .peerset _ => []
  | .migrate _ => []
  | .migrationQuiesce _ => []
  | .dbgattach _ => []
  | .dbgdetach _ => []
  | .dbgstop _ => []
  | .dbgresume _ => []
  | .dbgretire _ => []
  | .dbgread _ => []
  | .hostRead _ _ _ => []
  | .hostWrite _ _ _ => []
  | .peerAccess _ _ _ => []
  | .qtailDoorbell _ _ _ => []
  | .queueEnable _ _ => []
  | .queueDisable _ _ => []
  | .restart _ _ => []
  | .skip _ _ => []
  | .prtailWrite _ _ => []
  | .prrefuse _ _ => []
  | .evtailWrite _ _ => []
  | .registerWrite _ _ _ => []
  | .linkDown _ => []
  | .linkUp _ => []
  | .hostLinkTraining _ _ => []
  | .boot _ => []
  | .deviceReset => []
  | .hbmUncorrectableError _ _ => []
  | .coreUncorrectableError _ => []
  | .furrowFailure _ => []
  | .pseudoChannelFailure _ _ => []
  | .monitorLimit _ => []
  | .functionCreation _ _ => []
  | .unassignedEncoding _ => []

/-- The F-word of a repeat passes the checks that R192 makes of it behind its prefix, for a hart with four tiles; other
instructions are subject to no such condition. -/
def fits (i : Instr) : Prop :=
  match i with
  | .rep p f lit => ∃ sh r j, shapeOf (FWord.ofWord f) = .ok sh ∧ sh.form? (FWord.ofWord f) = some r ∧ strideOk r p = true ∧
      decodeShape 4 sh (FWord.ofWord f) (lit.map litWordOf) = .ok j
  | _ => True

end Sys2Proof
end

