-- ==== Sys2Proof/Machine/Float.lean ====
section
/-! DEFINITION. Floating-point numbers (R72 to R75, R79, R80, R82 to R89, R94, R95): exact values, decoding, rounding
with flags, and the correctly rounded operations. -/

namespace Sys2Proof

/-! ## Values -/

/-- An exact value: a NaN (signalling or not), an infinity, or (-1)^neg * m * 2^e. -/
inductive FVal
  | nan (sig : Bool)
  | inf (neg : Bool)
  | fin (neg : Bool) (m : Nat) (e : Int)
deriving DecidableEq, Repr

/-- The five exception flags as fflags[4:0] holds them: NV, DZ, OF, UF, NX (R83). -/
abbrev Flags := BitVec 5

def flagNV : Flags := 0b10000
def flagDZ : Flags := 0b01000
def flagOF : Flags := 0b00100
def flagUF : Flags := 0b00010
def flagNX : Flags := 0b00001

/-- Flags by the condition that raises them. -/
def flagIf (c : Bool) (f : Flags) : Flags := if c then f else 0

/-- The layout of a floating-point format (R73, R79): width, fraction bits, bias, and what its top codes mean. -/
structure FmtSpec where
  w    : Nat
  f    : Nat
  bias : Nat
  maxM : Nat        -- largest finite value: maxM * 2^maxE
  maxE : Int
  inf  : Bool       -- has infinities
  sat  : Bool       -- overflow saturates in every mode
deriving DecidableEq, Repr

def specF32 : FmtSpec := ⟨32, 23, 127, 2 ^ 24 - 1, 104, true, false⟩
def specBf16 : FmtSpec := ⟨16, 7, 127, 2 ^ 8 - 1, 120, true, false⟩
def specF16 : FmtSpec := ⟨16, 10, 15, 2 ^ 11 - 1, 5, true, false⟩
def specE4 : FmtSpec := ⟨8, 3, 7, 14, 5, false, true⟩
def specE5 : FmtSpec := ⟨8, 2, 15, 7, 13, true, false⟩
def specF4 : FmtSpec := ⟨4, 1, 1, 3, 1, false, true⟩
def specA56 : FmtSpec := ⟨56, 45, 511, 2 ^ 46 - 1, 466, true, false⟩

/-- The layout of an element format; none for the integer formats and q4. -/
def Fmt.spec : Fmt → Option FmtSpec
  | .f32 => some specF32 | .bf16 => some specBf16 | .f16 => some specF16
  | .f8e4 => some specE4 | .f8e5 => some specE5 | .f4 => some specF4
  | .i8 => none | .n8 => none | .i16 => none | .n16 => none | .i32 => none | .n32 => none
  | .i64 => none | .n64 => none | .q4 => none

/-- The element width in bits (R72). -/
def Fmt.width : Fmt → Nat
  | .i8 => 8 | .n8 => 8 | .i16 => 16 | .n16 => 16 | .i32 => 32 | .n32 => 32 | .i64 => 64 | .n64 => 64
  | .f32 => 32 | .bf16 => 16 | .f16 => 16 | .f8e4 => 8 | .f8e5 => 8 | .f4 => 4 | .q4 => 4

def Fmt.isSigned : Fmt → Bool
  | .i8 => true | .i16 => true | .i32 => true | .i64 => true
  | .n8 => false | .n16 => false | .n32 => false | .n64 => false
  | .f32 => false | .bf16 => false | .f16 => false | .f8e4 => false | .f8e5 => false | .f4 => false | .q4 => false

/-- The integer formats 0x0 to 0x7. -/
def Fmt.isInt : Fmt → Bool
  | .i8 => true | .i16 => true | .i32 => true | .i64 => true
  | .n8 => true | .n16 => true | .n32 => true | .n64 => true
  | .f32 => false | .bf16 => false | .f16 => false | .f8e4 => false | .f8e5 => false | .f4 => false | .q4 => false

/-- The floating-point formats f32 to f4. -/
def Fmt.isFloat (f : Fmt) : Bool := f.spec.isSome

/-- The formats VFP works on (R227). -/
def Fmt.isVfp : Fmt → Bool
  | .f32 => true | .bf16 => true | .f16 => true
  | .i8 => false | .n8 => false | .i16 => false | .n16 => false | .i32 => false | .n32 => false | .i64 => false
  | .n64 => false | .f8e4 => false | .f8e5 => false | .f4 => false | .q4 => false

/-- Registers in a group (R179). -/
def VType.size (t : VType) : Nat := 2 ^ t.group.val

/-! ## Decoding -/

/-- The value of the bits `b` of a format (R73, R74). -/
def FmtSpec.decode (p : FmtSpec) (b : Nat) : FVal :=
  let neg := b / 2 ^ (p.w - 1) % 2 == 1
  let ew := p.w - 1 - p.f
  let e := b / 2 ^ p.f % 2 ^ ew
  let f := b % 2 ^ p.f
  let top := 2 ^ ew - 1
  if p.inf && e == top then
    if f == 0 then .inf neg else .nan (p.w ≥ 16 && p.w ≤ 32 && f / 2 ^ (p.f - 1) == 0)
  else if !p.inf && p.w == 8 && e == top && f == 2 ^ p.f - 1 then .nan false
  else if e == 0 then .fin neg f (1 - (p.bias : Int) - p.f)
  else .fin neg (2 ^ p.f + f) ((e : Int) - p.bias - p.f)

/-- Bits of an element as a signed or unsigned integer. -/
def intOf (signed : Bool) (w b : Nat) : Int :=
  let b := b % 2 ^ w
  if signed && 2 ^ (w - 1) ≤ b then (b : Int) - 2 ^ w else b

/-- An integer reduced modulo 2^w. -/
def wrap (w : Nat) (x : Int) : Nat := (x % (2 ^ w : Nat)).toNat

/-- The exact value of an integer. -/
def FVal.ofInt (x : Int) : FVal := .fin (x < 0) x.natAbs 0

/-- The canonical NaN of a format (R74); f4 has none and takes +0 (R88). -/
def FmtSpec.nanBits (p : FmtSpec) : Nat :=
  if p.w == 4 then 0
  else if p.w == 8 then 0x7F
  else (2 ^ (p.w - 1 - p.f) - 1) * 2 ^ p.f + 2 ^ (p.f - 1)

/-! ## Rounding -/

/-- Bits in the binary form of `n`. -/
def bitLen (n : Nat) : Nat := if n = 0 then 0 else Nat.log2 n + 1

/-- Whether a magnitude whose discarded part is `rem` of `2^sh` rounds away from zero: modes 0 RNE, 1 RTZ, 2 RDN, 3 RUP (R82). -/
def roundUp (mode : BitVec 2) (neg odd : Bool) (rem sh : Nat) : Bool :=
  let inex := rem != 0
  match mode.toNat with
  | 0 => if sh = 0 then false
         else 2 ^ (sh - 1) < rem || (rem == 2 ^ (sh - 1) && odd)
  | 1 => false
  | 2 => inex && neg
  | _ => inex && !neg

/-- The magnitude `m * 2^e` rounded to a multiple of `2^q`: the multiple and whether it is inexact. -/
def roundAt (mode : BitVec 2) (neg : Bool) (m : Nat) (e : Int) (q : Int) : Nat × Bool :=
  if q ≤ e then (m * 2 ^ (e - q).toNat, false)
  else
    let sh := (q - e).toNat
    let n := m / 2 ^ sh
    let rem := m % 2 ^ sh
    (n + (roundUp mode neg (n % 2 == 1) rem sh).toNat, rem != 0)

/-- Compare `a * 2^x < b * 2^y`. -/
def scaledLt (a : Nat) (x : Int) (b : Nat) (y : Int) : Bool :=
  if x ≤ y then a < b * 2 ^ (y - x).toNat else a * 2 ^ (x - y).toNat < b

/-- The bits of a representable magnitude `n * 2^q` with its sign. -/
def FmtSpec.pack (p : FmtSpec) (neg : Bool) (n : Nat) (q : Int) : Nat :=
  let s := neg.toNat * 2 ^ (p.w - 1)
  if n < 2 ^ p.f then s + n
  else
    let n' := if n = 2 ^ (p.f + 1) then 2 ^ p.f else n
    let q' := if n = 2 ^ (p.f + 1) then q + 1 else q
    s + (q' + p.f + p.bias).toNat * 2 ^ p.f + (n' - 2 ^ p.f)

/-- The largest finite code. -/
def FmtSpec.maxBits (p : FmtSpec) (neg : Bool) : Nat := p.pack neg p.maxM p.maxE

/-- The code of an infinity. -/
def FmtSpec.infBits (p : FmtSpec) (neg : Bool) : Nat :=
  neg.toNat * 2 ^ (p.w - 1) + (2 ^ (p.w - 1 - p.f) - 1) * 2 ^ p.f

/-- What a finite overflow gives (R88). Log entry 18: DEDUCED. -/
def FmtSpec.overflow (p : FmtSpec) (sat : Bool) (mode : BitVec 2) (neg : Bool) : Nat :=
  if p.sat || (sat && p.w == 8) then p.maxBits neg
  else match mode.toNat with
  | 0 => p.infBits neg
  | 1 => p.maxBits neg
  | 2 => if neg then p.infBits neg else p.maxBits neg
  | _ => if neg then p.maxBits neg else p.infBits neg

/-- The magnitude `m * 2^e` rounded into the format, with its flags (R84, R88). `sat` is the saturating form of
f8e5. -/
def FmtSpec.roundFin (p : FmtSpec) (sat : Bool) (mode : BitVec 2) (neg : Bool) (m : Nat) (e : Int) :
    Nat × Flags :=
  if m = 0 then (neg.toNat * 2 ^ (p.w - 1), 0)
  else
    let qu : Int := e + bitLen m - 1 - p.f            -- unbounded exponent
    let qmin : Int := 1 - (p.bias : Int) - p.f
    let (nu, _) := roundAt mode neg m e qu
    let tooBig := scaledLt p.maxM p.maxE nu qu
    if tooBig then (p.overflow sat mode neg, flagOF ||| flagNX)
    else
      let q := max qu qmin
      let (n, inex) := roundAt mode neg m e q
      let tiny := scaledLt nu qu (2 ^ p.f) qmin
      (p.pack neg n q, flagIf (tiny && inex) flagUF ||| flagIf inex flagNX)

/-- A value rounded into a floating-point format (R88). -/
def FmtSpec.round (p : FmtSpec) (sat : Bool) (mode : BitVec 2) (v : FVal) : Nat × Flags :=
  match v with
  | .nan sig => (p.nanBits, flagIf (sig || p.w == 4) flagNV)
  | .inf neg => if p.inf && !(sat && p.w == 8) then (p.infBits neg, 0) else (p.maxBits neg, flagOF ||| flagNX)
  | .fin neg m e => p.roundFin sat mode neg m e

/-- A value rounded to an integer under a mode: the integer and whether it is inexact. -/
def roundInt (mode : BitVec 2) (neg : Bool) (m : Nat) (e : Int) : Int × Bool :=
  let (n, inex) := roundAt mode neg m e 0
  (if neg then -(n : Int) else n, inex)

/-- An integer clamped to a range. -/
def clampInt (lo hi x : Int) : Int := if x < lo then lo else if hi < x then hi else x

def intMin (signed : Bool) (w : Nat) : Int := if signed then -(2 ^ (w - 1) : Nat) else 0
def intMax (signed : Bool) (w : Nat) : Int := if signed then (2 ^ (w - 1) : Nat) - 1 else (2 ^ w : Nat) - 1

/-- A value converted to an integer format (R89): saturating, NaN to 0. -/
def FVal.toIntFmt (v : FVal) (mode : BitVec 2) (signed : Bool) (w : Nat) : Nat × Flags :=
  match v with
  | .nan _ => (0, flagNV)
  | .inf neg => (wrap w (if neg then intMin signed w else intMax signed w), flagNV)
  | .fin neg m e =>
    let (x, inex) := roundInt mode neg m e
    let c := clampInt (intMin signed w) (intMax signed w) x
    if c = x then (wrap w x, flagIf inex flagNX) else (wrap w c, flagNV)

/-- round(fmt, v, mode) of R195: the bits and the flags; a q4 destination does not occur. Log entry 18: DEDUCED. -/
def roundTo (fmt : Fmt) (sat : Bool) (mode : BitVec 2) (v : FVal) : Nat × Flags :=
  match fmt.spec with
  | some p => p.round sat mode v
  | none => v.toIntFmt mode fmt.isSigned fmt.width

/-- The value of an element of a format that holds numbers; q4 codes read as zero. -/
def valueOf (fmt : Fmt) (b : Nat) : FVal :=
  match fmt.spec with
  | some p => p.decode b
  | none => if fmt.isInt then .ofInt (intOf fmt.isSigned fmt.width b) else .fin false 0 0

/-! ## Exact arithmetic -/

def FVal.isNan : FVal → Bool
  | .nan _ => true
  | .inf _ => false
  | .fin _ _ _ => false

def FVal.isSnan : FVal → Bool
  | .nan s => s
  | .inf _ => false
  | .fin _ _ _ => false

def FVal.isZero : FVal → Bool
  | .fin _ m _ => m == 0
  | .inf _ => false
  | .nan _ => false

def FVal.isFinite : FVal → Bool
  | .fin _ _ _ => true
  | .inf _ => false
  | .nan _ => false

def FVal.neg : FVal → FVal
  | .nan s => .nan s
  | .inf n => .inf !n
  | .fin n m e => .fin (!n) m e

def FVal.abs : FVal → FVal
  | .nan s => .nan s
  | .inf _ => .inf false
  | .fin _ m e => .fin false m e

/-- The sign (a NaN counts as positive). -/
def FVal.sign : FVal → Bool
  | .nan _ => false
  | .inf n => n
  | .fin n _ _ => n

/-- Whether an operand is a signalling NaN sets NV (R84). -/
def nvOf (a b : FVal) : Flags := flagIf (a.isSnan || b.isSnan) flagNV

/-- The exact sum with the NV of an invalid one; a zero sum takes the sign of R88 and IEEE 754 under the mode. -/
def addX (mode : BitVec 2) (a b : FVal) : FVal × Flags :=
  match a, b with
  | .nan s, .nan t => (.nan false, flagIf (s || t) flagNV)
  | .nan s, .inf _ => (.nan false, flagIf s flagNV)
  | .nan s, .fin _ _ _ => (.nan false, flagIf s flagNV)
  | .inf _, .nan s => (.nan false, flagIf s flagNV)
  | .fin _ _ _, .nan s => (.nan false, flagIf s flagNV)
  | .inf x, .inf y => if x == y then (.inf x, 0) else (.nan false, flagNV)
  | .inf x, .fin _ _ _ => (.inf x, 0)
  | .fin _ _ _, .inf y => (.inf y, 0)
  | .fin x m e, .fin y n d =>
    let q := min e d
    let i : Int := (m * 2 ^ (e - q).toNat : Nat)
    let j : Int := (n * 2 ^ (d - q).toNat : Nat)
    let z := (if x then -i else i) + (if y then -j else j)
    if z = 0 then (.fin (if m = 0 && n = 0 && x == y then x else mode == 2) 0 q, 0)
    else (.fin (z < 0) z.natAbs q, 0)

/-- The exact product. -/
def mulX (a b : FVal) : FVal × Flags :=
  match a, b with
  | .nan s, .nan t => (.nan false, flagIf (s || t) flagNV)
  | .nan s, .inf _ => (.nan false, flagIf s flagNV)
  | .nan s, .fin _ _ _ => (.nan false, flagIf s flagNV)
  | .inf _, .nan s => (.nan false, flagIf s flagNV)
  | .fin _ _ _, .nan s => (.nan false, flagIf s flagNV)
  | .inf x, .inf y => (.inf (x != y), 0)
  | .inf x, .fin y n _ => if n = 0 then (.nan false, flagNV) else (.inf (x != y), 0)
  | .fin x m _, .inf y => if m = 0 then (.nan false, flagNV) else (.inf (x != y), 0)
  | .fin x m e, .fin y n d => (.fin (x != y) (m * n) (e + d), 0)

/-- An exact result rounded once, its flags joined to those of the operation. -/
def roundX (p : FmtSpec) (mode : BitVec 2) (r : FVal × Flags) : Nat × Flags :=
  let (b, f) := p.round false mode r.1
  (b, r.2 ||| f)

/-- a + b rounded (R238). -/
def fAdd (p : FmtSpec) (mode : BitVec 2) (a b : FVal) : Nat × Flags := roundX p mode (addX mode a b)

/-- a - b rounded; a NaN keeps no sign. -/
def fSub (p : FmtSpec) (mode : BitVec 2) (a b : FVal) : Nat × Flags := roundX p mode (addX mode a b.neg)

def fMul (p : FmtSpec) (mode : BitVec 2) (a b : FVal) : Nat × Flags := roundX p mode (mulX a b)

/-- a * b + c with one rounding (R87). The product of 0 and infinity sets NV whatever c is. Log entry 18: DEDUCED. -/
def fFma (p : FmtSpec) (mode : BitVec 2) (a b c : FVal) : Nat × Flags :=
  let (ab, f) := mulX a b
  let (r, g) := addX mode ab c
  roundX p mode (r, f ||| g)

/-- a / b correctly rounded (R94). -/
def fDiv (p : FmtSpec) (mode : BitVec 2) (a b : FVal) : Nat × Flags :=
  match a, b with
  | .nan s, .nan t => (p.nanBits, flagIf (s || t) flagNV)
  | .nan s, .inf _ => (p.nanBits, flagIf s flagNV)
  | .nan s, .fin _ _ _ => (p.nanBits, flagIf s flagNV)
  | .inf _, .nan s => (p.nanBits, flagIf s flagNV)
  | .fin _ _ _, .nan s => (p.nanBits, flagIf s flagNV)
  | .inf _, .inf _ => (p.nanBits, flagNV)
  | .inf x, .fin y _ _ => (p.infBits (x != y), 0)
  | .fin x _ _, .inf y => p.round false mode (.fin (x != y) 0 0)
  | .fin x m e, .fin y n d =>
    if n = 0 then if m = 0 then (p.nanBits, flagNV) else (p.infBits (x != y), flagDZ)
    else
      let k := p.f + 3 + bitLen n
      let q := m * 2 ^ k / n
      let st := m * 2 ^ k % n != 0
      p.roundFin false mode (x != y) (2 * q + st.toNat) (e - d - k - 1)

/-- The integer square root, by bits: `fuel` bits of the result, the highest first. -/
def isqrtFrom (n : Nat) : Nat → Nat → Nat
  | 0, r => r
  | k + 1, r => let t := r + 2 ^ k; isqrtFrom n k (if t * t ≤ n then t else r)

/-- floor of the square root. -/
def isqrt (n : Nat) : Nat := isqrtFrom n (bitLen n / 2 + 1) 0

/-- The square root correctly rounded (R94). -/
def fSqrt (p : FmtSpec) (mode : BitVec 2) (a : FVal) : Nat × Flags :=
  match a with
  | .nan s => (p.nanBits, flagIf s flagNV)
  | .inf neg => if neg then (p.nanBits, flagNV) else (p.infBits false, 0)
  | .fin neg m e =>
    if m = 0 then (neg.toNat * 2 ^ (p.w - 1), 0)
    else if neg then (p.nanBits, flagNV)
    else
      let k := 2 * (p.f + 3) + (e % 2).toNat           -- e - k is even
      let n := m * 2 ^ k
      let r := isqrt n
      p.roundFin false mode false (2 * r + (r * r != n).toNat) ((e - k) / 2 - 1)

/-! ## Comparison, minimum and maximum (R87) -/

/-- The order of two values that are no NaNs: less, and equal (-0 equals +0). -/
def FVal.lt : FVal → FVal → Bool
  | .nan _, _ => false
  | .inf _, .nan _ => false
  | .fin _ _ _, .nan _ => false
  | .inf x, .inf y => x && !y
  | .inf x, .fin _ _ _ => x
  | .fin _ _ _, .inf y => !y
  | .fin x m e, .fin y n d =>
    let q := min e d
    let i : Int := (m * 2 ^ (e - q).toNat : Nat)
    let j : Int := (n * 2 ^ (d - q).toNat : Nat)
    (if x then -i else i) < (if y then -j else j)

def FVal.eq (a b : FVal) : Bool := !a.isNan && !b.isNan && !a.lt b && !b.lt a

/-- Below, with -0 below +0 (R87). -/
def FVal.below (a b : FVal) : Bool := a.lt b || (a.eq b && a.isZero && a.sign && !b.sign)

/-- min or max of two codes of a format. -/
def fMinMax (p : FmtSpec) (wantMax : Bool) (x y : Nat) : Nat × Flags :=
  let a := p.decode x
  let b := p.decode y
  let f := nvOf a b
  if a.isNan && b.isNan then (p.nanBits, f)
  else if a.isNan then (y, f)
  else if b.isNan then (x, f)
  else if wantMax then (if a.below b then y else x, f)
  else (if b.below a then y else x, f)

/-- The seven comparisons of R87 and R240. -/
inductive FRel
  | eq | ne | lt | le | gt | ge | uno
deriving DecidableEq, Repr

/-- A comparison and its flags. -/
def FRel.eval (r : FRel) (a b : FVal) : Bool × Flags :=
  let un := a.isNan || b.isNan
  let quiet := nvOf a b
  let loud := flagIf un flagNV
  match r with
  | .eq => (a.eq b, quiet)
  | .ne => (!a.eq b, quiet)
  | .uno => (un, quiet)
  | .lt => (a.lt b, loud)
  | .le => (!un && !b.lt a, loud)
  | .gt => (b.lt a, loud)
  | .ge => (!un && !a.lt b, loud)

/-! ## Bit operations and classes -/

/-- vfabs, vfneg and vfsgnj: the code with another sign; a NaN gives the canonical NaN (R238). -/
def FmtSpec.withSign (p : FmtSpec) (neg : Bool) (b : Nat) : Nat :=
  if (p.decode b).isNan then p.nanBits else neg.toNat * 2 ^ (p.w - 1) + b % 2 ^ (p.w - 1)

def FmtSpec.signBit (p : FmtSpec) (b : Nat) : Bool := b / 2 ^ (p.w - 1) % 2 == 1

/-- The class bit of vfclass (R239). -/
def FmtSpec.classBits (p : FmtSpec) (b : Nat) : Nat :=
  match p.decode b with
  | .nan sig => if sig then 2 ^ 8 else 2 ^ 9
  | .inf neg => if neg then 1 else 2 ^ 7
  | .fin neg m _ =>
    if m = 0 then (if neg then 2 ^ 3 else 2 ^ 4)
    else if m < 2 ^ p.f then (if neg then 2 ^ 2 else 2 ^ 5)
    else (if neg then 2 else 2 ^ 6)

/-- A value rounded to an integral value of the format (R238, vfround). -/
def fRound (p : FmtSpec) (mode : BitVec 2) (b : Nat) : Nat × Flags :=
  match p.decode b with
  | .nan sig => (p.nanBits, flagIf sig flagNV)
  | .inf neg => (p.infBits neg, 0)
  | .fin neg m e =>
    let (n, inex) := roundAt mode neg m e (max 0 e)
    let (r, _) := p.roundFin false mode neg n (max 0 e)
    (r, flagIf inex flagNX)

/-- a * 2^n (R239). -/
def fScale (p : FmtSpec) (mode : BitVec 2) (a : FVal) (n : Int) : Nat × Flags :=
  match a with
  | .nan s => (p.nanBits, flagIf s flagNV)
  | .inf neg => (p.infBits neg, 0)
  | .fin neg m e => p.roundFin false mode neg m (e + clampInt (-4096) 4096 n)

/-! ## Transcendental functions on f32 (R94, R95) -/

/-- 1/x, with zero for zero (R95). -/
def fRcpz (a : FVal) : Nat × Flags :=
  if a.isZero then (0, 0) else fDiv specF32 0 (.fin false 1 0) a

/-- 1/sqrt(x), correctly rounded: the square root of the scaled reciprocal, with its sticky part. -/
def fRsqrt (a : FVal) : Nat × Flags :=
  let p := specF32
  match a with
  | .nan s => (p.nanBits, flagIf s flagNV)
  | .inf neg => if neg then (p.nanBits, flagNV) else (0, 0)
  | .fin neg m e =>
    if m = 0 then (p.infBits neg, flagDZ)
    else if neg then (p.nanBits, flagNV)
    else
      let k := 2 * (bitLen m + 30) + (e % 2).toNat      -- 1/(m 2^e) = (2^k / m) 2^-(k+e), with k + e even
      let r := isqrt (2 ^ k / m)
      let exact := r * r * m == 2 ^ k
      p.roundFin false 0 false (2 * r + (!exact).toNat) (-(k + e) / 2 - 1)

/-- Bits of the fixed-point numbers below. -/
def fixBits : Nat := 160

/-- The product of the factors 2^(2^-i) that the bits of `frac` choose, in fixed point; each factor is the square root of
the one before. -/
def exp2Steps : Nat → Nat → Nat → Nat → Nat
  | 0, _, _, acc => acc
  | n + 1, c, frac, acc =>
    -- c = 2^(2^-i); the top bit of frac (of n + 1 bits) tells whether the factor takes part
    let c' := isqrt (c * 2 ^ fixBits)
    let acc' := if frac / 2 ^ n % 2 == 1 then acc * c' / 2 ^ fixBits else acc
    exp2Steps n c' frac acc'

/-- RNE(2^x) (R94): exact for an integer, else the product of the roots of two that the fraction bits choose. -/
def fExp2 (a : FVal) : Nat × Flags :=
  let p := specF32
  match a with
  | .nan s => (p.nanBits, flagIf s flagNV)
  | .inf neg => if neg then (0, 0) else (p.infBits false, 0)
  | .fin neg m e =>
    if m = 0 then (0x3F800000, 0)
    else if 0 ≤ e + bitLen m - 1 - 9 then                 -- |x| of at least 2^9
      if neg then p.roundFin false 0 false 1 (-1000) else p.roundFin false 0 false 1 1000
    else if e + bitLen m < -30 then                       -- so near 0 that 2^x lies within a quarter ulp of 1
      (0x3F800000, flagNX)
    else
      let t := (-e).toNat
      let x : Int := (if neg then -(m : Int) else m) * 2 ^ e.toNat
      let k := x / (2 ^ t : Nat)
      let frac := (x % (2 ^ t : Nat)).toNat
      if frac = 0 then p.roundFin false 0 false 1 k
      else
        let v := exp2Steps t (2 * 2 ^ fixBits) frac (2 ^ fixBits)
        p.roundFin false 0 false (2 * v + 1) (k - fixBits - 1)

/-- Binary digits of the logarithm of `y / 2^fixBits` in [1, 2): square, and subtract 1 when the square reaches 2. -/
def log2Digits : Nat → Nat → Nat → Nat
  | 0, _, acc => acc
  | n + 1, y, acc =>
    let z := y * y / 2 ^ fixBits
    if 2 ^ (fixBits + 1) ≤ z then log2Digits n (z / 2) (2 * acc + 1) else log2Digits n z (2 * acc)

/-- Digits of the logarithm that are formed. -/
def logBits : Nat := 110

/-- RNE(log2 x) (R94). -/
def fLog2 (a : FVal) : Nat × Flags :=
  let p := specF32
  match a with
  | .nan s => (p.nanBits, flagIf s flagNV)
  | .inf neg => if neg then (p.nanBits, flagNV) else (p.infBits false, 0)
  | .fin neg m e =>
    if m = 0 then (p.infBits true, flagDZ)
    else if neg then (p.nanBits, flagNV)
    else
      let l := bitLen m
      let k : Int := e + l - 1
      if m = 2 ^ (l - 1) then p.roundFin false 0 (k < 0) k.natAbs 0
      else
        let y := m * 2 ^ (fixBits - (l - 1))
        let z : Int := k * (2 ^ logBits : Nat) + log2Digits logBits y 0
        if 0 ≤ z then p.roundFin false 0 false (2 * z.toNat + 1) (-(logBits : Int) - 1)
        else p.roundFin false 0 true (2 * (-z - 1).toNat + 1) (-(logBits : Int) - 1)

end Sys2Proof
end

