-- ==== Sys2Proof/Config.lean ====
section
/-! DEFINITION. What an implementation fixes, and the values the manual leaves free. The free values are
opaque constants: nothing in Lean can evaluate them or prove a value of them. -/

namespace Sys2Proof.Config

/-- The bits of a vector register that a resumption with another grant leaves undefined (R158), by a fresh
number. Log entry 5: DESIGN CHOICE. -/
opaque freeVReg : Nat → VReg

/-- The mask bits that a resumption with another grant leaves undefined (R158). Log entry 5: DESIGN CHOICE. -/
opaque freeKReg : Nat → KReg

/-- The key of an exact-key item whose bits lie beyond its register group, which no rule limits (R317), by a fresh
number. Log entry 5: DESIGN CHOICE. -/
opaque freeKey : Nat → Word

/-- The centroid element of a merged entry whose COUNT is 0, which has no quotient (R317, R319), by the bits of SUM.
Log entry 5: DESIGN CHOICE. -/
opaque emptyCentroid : Nat → Word

/-- What the image of a stopped hart shows for x30, which holds no value (R178, R372), by a fresh number.
Log entry 5: DESIGN CHOICE. -/
opaque freePort : Nat → Word

/-- SHA-512 of a byte string (R375, R376): the standard names it, the manual does not restate it.
Log entry 6: DESIGN CHOICE. -/
opaque sha512 : List Byte → BitVec 512

/-- Whether an Ed25519 signature over an image verifies under the vendor's root key (R375). Log entry 6: DESIGN CHOICE. -/
opaque ed25519Verify : List Byte → List Byte → Bool

/-- The Ed25519 signature of a report under the device identity key (R376). Log entry 6: DESIGN CHOICE. -/
opaque ed25519Sign : List Byte → BitVec 512

/-- The device identity public key of the report (R376). Log entry 6: DESIGN CHOICE. -/
opaque identityKey : BitVec 256

/-- AES-256-GCM under a function's key (R374): function number, IV, additional data and plaintext to
ciphertext (of the plaintext's length) and tag. Log entry 6: DESIGN CHOICE. -/
opaque gcmSeal : Nat → BitVec 96 → List Byte → List Byte → List Byte × BitVec 128

/-- AES-256-GCM opening (R374): the plaintext, if the tag verifies. Log entry 6: DESIGN CHOICE. -/
opaque gcmOpen : Nat → BitVec 96 → List Byte → List Byte → BitVec 128 → Option (List Byte)

/-- The default pool of free 4 KiB chunks of a stack: the whole of its 64 GiB (R13, R101; the firmware sizes
the pool). Log entry 7: DESIGN CHOICE. -/
def poolChunks : Nat := 2 ^ 24

/-- Security version fused into the device (R375), which the manual gives no value. Log entry 7: DESIGN CHOICE. -/
opaque fusedVersion : Nat

/-- The turns of the lanes that come next (R156): when the data of an instruction arrive is the memory's timing, which the manual leaves
open, by the cycle. Log entry 40: DESIGN CHOICE. -/
opaque lanePace : Nat → List (Nat × Nat)

/-- Whether the host's IOMMU refuses a request to host memory (R362): owning function, 64 KiB page of its host-side space, whether it writes,
and the cycle. Log entry 41: DESIGN CHOICE. -/
opaque hostRefuses : Nat → Nat → Bool → Nat → Bool

/-- The counters that the firmware reads and clears (R67, R118). -/
inductive FwCounter
  | rowstale | convs | aborts | chunks
deriving DecidableEq, Repr

/-- Whether the firmware clears a counter of a function at the end of a cycle (R67, R118): the manual does not say when.
Log entry 41: DESIGN CHOICE. -/
opaque counterClears : Nat → Nat → FwCounter → Bool

/-- Whether the attestation report of a migration's destination verifies (R374), by target and cycle. Log entry 41: DESIGN CHOICE. -/
opaque destVerifies : Nat → Nat → Bool

end Sys2Proof.Config
end

