-- ==== Sys2Proof/Machine/State.lean ====
section
/-! DEFINITION. The whole architectural state of an SN-8416 as plain data: the hart that issues, the other
harts, what their cores and furrows hold, the stacks with their translation entries, page records, bytes and write
queues, the scheduler's launches, the functions with their queues and rings, and the device as a whole. -/

namespace Sys2Proof.Machine

/-! ## A hart -/

/-- What a hart is doing (R155, R160, R162, R331): `waiting` covers every wait that issue makes, `barrier` a barrier
arrival (R160, R161), `debug` a debug stop with its cause (R372: 1 EBREAK, 2 DBGSTOP), which pre-emption saves as
`stop` (R336). -/
inductive Phase
  | absent | running | waiting | retired | preempted (stop : Option Nat) | debug (cause : Nat)
deriving DecidableEq, Repr

/-- A tile: its mode and its cells (R79, R299). -/
structure Tile where
  int   : Bool                    -- integer mode (R79, R299)
  cells : List (Nat × Cell56)     -- cell (i, j) at key 128 * i + j; rising keys, zero cells unlisted
deriving DecidableEq, Repr

/-- A plan handle that holds a plan (R274): the window offset and size of its record, and the source range it
watches (R57). -/
structure PlanRef where
  off   : Nat
  size  : Nat
  watch : Option (Word × Nat)
deriving DecidableEq, Repr

/-- The registers each hart owns (R10). x0 reads zero whatever its slot holds, and the slot of x30 keeps the word
that the current instruction popped (R177, R178); the scale registers, vector registers and masks use the low part that the
grant gives them. -/
structure Regs where
  x   : Vector Word 32
  g   : Vector Bool 8
  v   : Vector VReg 64
  k   : Vector KReg 8
  sc  : Vector ScReg 8
  qt  : Vector QtReg 4
  pl  : Vector (Option PlanRef) 16
  acc : Vector Tile 4
deriving DecidableEq, Repr

/-- The CSRs of R193 that hold a value of their own (the tag CSRs are read from the tags, the placement CSRs from
`Place`, cyc and rowstale from the device). -/
structure Csrs where
  vl      : Nat
  vtype   : VType
  frm     : BitVec 2
  fflags  : BitVec 13
  mcfg    : Word
  rpc     : Word
  utvec   : Word
  uepc    : Word
  ucause  : BitVec 8
  uinfo   : Word
  ustart  : Word
  uinfo2  : Word
  plarena : Word
  ttcfg   : Word
  mqcfg   : Word
  clbase  : Word
  psent   : Word
  plrebin : Word
  xcar    : Word
  inst    : Word
deriving DecidableEq, Repr

/-- Where a hart runs and what its launch gave it (R12, R141, R142, R145, R152). -/
structure Place where
  loc    : HartLoc
  fn     : Nat
  launch : Nat
  crew   : BitVec 32
  rank   : BitVec 8
  stage  : BitVec 8
  crews  : BitVec 32
  harts  : BitVec 8
  stages : BitVec 8
  grant  : Nat          -- units of 64 KiB
  tiles  : Nat
deriving DecidableEq, Repr

/-- A repeat in progress (R185 to R188): its count, strides, F-word and literal. The index is CSR rpc. -/
structure RepState where
  count : Nat
  p     : RepPrefix
  f     : BitVec 64
  lit   : Option (BitVec 62)
deriving DecidableEq, Repr

/-- A scalar store that has issued and whose unit has not reached its target (R203): address, width, data, the
instruction's address, and the repeat and iteration it belongs to (R188). -/
structure PendingStore where
  addr : Word
  n    : Nat
  data : Word
  pc   : Word
  iter : Option (RepState × Nat)
deriving DecidableEq, Repr

/-- What an instruction read at issue (R326), kept for its re-issue from `start` (R327). `upto` bounds the units that one turn of the
lanes takes of an instruction other than an element-wise one, a load or a store; none where nothing does. `joins` tells that a turn of the
lanes has just performed the units below, and `panel` holds the groups of 32 bytes of a scratchpad panel that earlier turns have read (R303),
by window offset; `tested` tells that a plan apply has passed its staleness test at issue (R283). Log entry 11: DEDUCED; log entry 14: DEDUCED;
log entry 16: DEDUCED. -/
structure Resume where
  start : Nat
  vl    : Nat
  vtype : VType
  frm   : BitVec 2
  xcar  : Word
  xs    : Vector Word 32
  mcfg  : Word
  upto  : Option Nat
  joins : Bool
  panel : List (Nat × List Byte)
  tested : Bool
deriving DecidableEq, Repr

/-- A repeat and one of its iterations. -/
abbrev Iter := RepState × Nat

/-- The record of an instruction that was stopped and is to be issued again (R326): its address, its repeat and iteration, what it
had read at issue with its start index, and of a pair word the slot it stands for, A or B (R184); none for any other instruction. -/
structure Flight where
  pc   : Word
  iter : Option Iter
  cap  : Resume
  slot : Option Bool
deriving DecidableEq, Repr

/-- An entry of the sequencer's window (R156): the instruction with its record, the cycle in which it issued, and whether its next element
group has met a fault that older instructions hold back (R324). -/
structure SeqEntry where
  fl    : Flight
  instr : Instr
  order : Nat
  fault : Bool
deriving DecidableEq, Repr

/-- Where a hart goes on: an address, with the repeat that stands there and its next iteration (CONT of R326). -/
structure Cont where
  pc  : Word
  rep : Option RepState
  rpc : Word
deriving DecidableEq, Repr

/-- The trap record (R324, R326): the address of T, whether T is TRAP, the store that is to be issued again, T's repeat and iteration,
what T read at issue (none where T met its fault before it issued), CONT, and the in-flight list, oldest first.
Log entry 14: DEDUCED. -/
structure TrapRec where
  pc     : Word
  isTrap : Bool
  store  : Option PendingStore
  iter   : Option Iter
  cap    : Option Resume
  cont   : Cont
  list   : List Flight
deriving DecidableEq, Repr

/-- The state of a tag (R53). -/
inductive TagSt
  | idle | busy | done | fault
deriving DecidableEq, Repr

inductive CopyKind
  | cpy | cpy2 | plcpy | pgreq
deriving DecidableEq, Repr

/-- The operation a tag stands for (R257, R258, R261, R286). `total` counts bytes, and positions for PLCPY. CPY is one row of
`rowBytes` bytes. For PLCPY `posns` holds, for each position, whether the mask selects it and where its granule
lies (none: rejected), `fk` is the flag mask and `flags` the positions found absent. `got` holds the aligned 32-byte groups of source bytes
that have been read and are still to be written, each under its address (R121), and `part` counts the bytes of the present position of a PLCPY
that have been written. `first` holds until a chunk has moved since the copy was issued or resumed (R69). -/
structure CopyOp where
  kind     : CopyKind
  dst      : Word
  src      : Word
  total    : Nat
  rowBytes : Nat
  sstride  : Int
  dstride  : Int
  gran     : Nat
  posns    : List (Bool × Option Word)
  fk       : Fin 8
  flags    : Nat
  got      : List (Word × List Byte)
  part     : Nat
  first    : Bool
deriving DecidableEq, Repr

/-- A tag (R53, R54): its state, its operation, the progress P, and after a fault the cause code and address. -/
structure Tag where
  st    : TagSt
  op    : Option CopyOp
  prog  : Nat
  cause : BitVec 8
  addr  : Word
deriving DecidableEq, Repr

/-- A set of the tag-table share (R51): the line each way holds, and the ways from most to least recent. -/
structure TagSet where
  ways  : Vector (Option Nat) 4
  order : List (Fin 4)
deriving DecidableEq, Repr

/-- What the core keeps of a hart's message queue outside the window (R58, R59): the head entry's index, the lengths and
senders of the queued messages, the entries promised to senders, and the places of the harts whose credit requests are held. -/
structure MsgQ where
  head     : Nat
  msgs     : List (Nat × HartLoc)
  promised : Nat
  held     : List HartLoc
deriving DecidableEq, Repr

/-- A GCSLEEP that waits (R269). -/
structure SleepRec where
  h    : Hdr
  d    : Fin 8
  a    : CVec
  b    : CVec
  m    : Fin 8
  sc   : Scope
  aq   : Bool
  allm : Bool
deriving DecidableEq, Repr

/-- A memory service that a hart has asked for by SVC and that a progress pin or an earlier request holds back (R36, R42, R212): the guard, the
service code, the address of the request block, the block as the firmware has read it, and its number in the order in which requests have
reached the firmware. -/
structure SvcRec where
  h       : Hdr
  op      : Nat
  addr    : Word
  block   : Vector Word 8
  arrived : Nat
deriving DecidableEq, Repr

/-- A byte or a block of memory that a PLSCAT has read for a target and has not written yet (R353): the target's address and the values or
the codes read there. Log entry 8: DEDUCED. -/
structure ScatRead where
  addr : Word
  vals : List FVal
  code : Nat
deriving DecidableEq, Repr

/-- The control state of a hart: the program counter, the address after the current instruction (the model's own `next`), the handler state,
the repeat, pending events (R215), barrier arrival (launch barrier?, id), the frame that the progress pin stands on and the address it is for,
which a pre-emption keeps (R42), the tags, the tag-table share, the message queue, the crew and rank of the hart that a waiting push has sent
a credit request to (R59, R61), the memory service it waits for (R212), the stores on their way, the sequencer entries (R156), the records
still to be issued again (R327, R335), the record that is being issued again with the place where the hart goes on after it, the start index
of an instruction that had not issued when it trapped (R328), what a PLSCAT has read of its targets, and the cycle of its last issue, counted
from 1 (R155). -/
structure Ctl where
  phase     : Phase
  pc        : Word
  next      : Word
  inHandler : Bool
  trapRec   : Option TrapRec
  resume    : Option Resume
  rep       : Option RepState
  pend      : BitVec 5
  arrived   : Option (Bool × BitVec 4)
  released  : Bool
  sleep     : Option SleepRec
  pin       : Option Nat
  pinAt     : Option Word
  tags      : Vector Tag 64
  share     : Option (List TagSet)
  mq        : MsgQ
  pushTo    : Option (BitVec 32 × BitVec 8)
  svc       : Option SvcRec
  stores    : List PendingStore
  window    : List SeqEntry
  reissue   : List Flight
  aside     : Option (Flight × Cont)
  begin     : Nat
  scat      : Option (List ScatRead)
  last      : Nat
deriving DecidableEq, Repr

structure Hart where
  place : Place
  regs  : Regs
  csr   : Csrs
  ctl   : Ctl
deriving DecidableEq, Repr

/-! ## Cores and furrows -/

/-- The window a launch holds on a core (R19, R45, R46); a byte not listed is zero. -/
structure Window where
  core   : Nat
  launch : Nat
  size   : Nat
  bytes  : List Host.Cell
deriving DecidableEq, Repr

/-- A launch's slot of a furrow's transit ring with its sixteen channels (R159). -/
structure Ring where
  furrow : Nat
  launch : Nat
  counts : Vector (BitVec 32) 16
deriving DecidableEq, Repr

/-- Credits a core holds towards a destination (R59); the list runs from the most recently pushed-to destination. -/
structure Credit where
  core : Nat
  dest : Dest
  n    : Nat
deriving DecidableEq, Repr

/-- A word a core's instruction cache holds (R28, R139). -/
structure ICell where
  core : Nat
  ctx  : BitVec 16
  va   : Nat
  w    : Word
deriving DecidableEq, Repr

structure Cores where
  windows : List Window
  rings   : List Ring
  credits : List Credit
  icache  : List ICell
  net     : List (Dest × Message)    -- messages pushed and not yet delivered (R60, R266)
deriving DecidableEq, Repr

/-! ## Stacks -/

/-- A translation entry (R29) with its context and the 64 KiB page number of its first address. -/
structure TEntry where
  ctx  : BitVec 16
  page : Nat
  e    : Word
deriving DecidableEq, Repr

/-- The metadata record of a frame (R68). `chunks` counts the frame's storage chunks (R101). -/
structure PageMeta where
  wgen    : BitVec 32
  fmtnow  : BitVec 8
  state   : BitVec 8
  age     : BitVec 8
  pin     : Bool
  glabort : Bool
  chunks  : Nat
deriving DecidableEq, Repr

/-- One element's pending sum in a write-queue entry (R63). -/
structure WqSlot where
  off  : Nat
  nib  : Nat
  kind : MergeKind
  acc  : Word
deriving DecidableEq, Repr

/-- A pending write-queue entry of a 64-byte line (R63, R64): frame, line number within the frame's logical bytes, row size on a
row-coherent page, the sums in order of opening, the contributing harts, and those whose VRAMO has joined (none for a peer). -/
structure WqEntry where
  frame : Nat
  line  : Nat
  row   : Nat
  slots : List WqSlot
  who   : List Dest
  rowAdds : List (Option Dest)
deriving DecidableEq, Repr

/-- The memory side. A byte of storage has the key `frame * 2^17 + offset`: offsets below 65,536 are the physical bytes of the
frame, and offset 65,536 + j is trailer byte j (R99). A frame is `stack * 2^20 + FRAME` in the stacks, and
`2^24 + t * 2^28 + FRAME[27:0]` in target t of the system window, with t = 256 + function number for host memory (R29). A byte not
listed is zero. -/
structure Memsys where
  mem     : List Host.Cell
  entries : List TEntry
  metas   : List (Nat × PageMeta)
  wq      : List WqEntry
  pool    : Vector Nat 12
deriving DecidableEq, Repr

/-! ## The scheduler -/

/-- A launch that has started (R141, R143): its 64-byte record as eight words, its queue and slot count, the crews placed and
completed so far. -/
structure Launch where
  id     : Nat
  fn     : Nat
  queue  : Fin 16
  slot   : BitVec 32
  words  : Vector Word 8
  placed : Nat
  ended  : Nat
deriving DecidableEq, Repr

/-- A crew that is resident or pre-empted (R157, R163): its harts' places, the retired ones, its budget count, its start order, whether it is
pre-empted and for which step of which record it yielded, named by queue, slot and first crew (R157), and the harts that owe progress since
the last resumption (R330). -/
structure CrewRec where
  launch  : Nat
  crew    : Nat
  harts   : List HartLoc
  retired : List HartLoc
  budget  : Nat
  order   : Nat
  pre     : Bool
  yielded : Option (Fin 16 × BitVec 32 × Nat)
  owed    : List HartLoc
deriving DecidableEq, Repr

structure Sched where
  launches : List Launch
  crews    : List CrewRec
  nextId   : Nat
  order    : Nat
deriving DecidableEq, Repr

/-! ## Functions -/

/-- A launch queue's registers (R365), the scheduler's copies of started records (R148), the replay point's last completed fence record (R166)
as the slot count of its launch, the started records without CHECKPOINT, the point already replayed, the record the scheduler has read at its
head with its readiness (R147, R149), and the launch that this record has begun. -/
structure Queue where
  base     : Word
  size     : Word
  tail     : BitVec 32
  head     : BitVec 32
  en       : Bool
  devfed   : Bool
  stopped  : Bool
  code     : Nat
  slot     : BitVec 32
  copies   : List (BitVec 32 × Vector Word 8)
  done     : List (BitVec 32)
  fence    : Option (BitVec 32)
  start    : BitVec 32
  plain    : List (BitVec 32)
  replayed : Option (BitVec 32)
  headRec  : Option (Vector Word 8)
  ready    : Bool
  cur      : Option Nat
  replay   : List (BitVec 32 × Vector Word 8)
deriving DecidableEq, Repr

/-- An event record (R368): TYPE, SUB, SRC and the words A, B, C. -/
structure Event where
  type : Nat
  sub  : Nat
  src  : Nat
  a    : Word
  b    : Word
  c    : Word
deriving DecidableEq, Repr

/-- The event ring (R368): registers, the events held in the device, and MSI-X vector 0 raised. -/
structure EvRing where
  base : Word
  size : Word
  head : BitVec 32
  tail : BitVec 32
  held : List Event
  msix : Nat
deriving DecidableEq, Repr

/-- A pending page request (R41, R369): the page's address, the hart that asked first, and the harts and tags that wait on it. `posted`
tells whether its ring entry has been written. -/
structure PageReq where
  va      : Word
  asker   : HartLoc
  waiters : List (Dest × Fin 64)
  posted  : Bool
deriving DecidableEq, Repr

/-- The page-request ring (R369). -/
structure PrRing where
  base : Word
  size : Word
  head : BitVec 32
  tail : BitVec 32
  reqs : List PageReq
  msix : Nat
deriving DecidableEq, Repr

/-- An outstanding OFFER (R33, R35): frame, page size, permission bits R, W, X and the function it names. -/
structure Offer where
  frame : Nat
  sz    : Bool
  rwx   : BitVec 3
  peer  : Nat
deriving DecidableEq, Repr

/-- The completion of the last host or peer read (R367). -/
inductive ReadCpl
  | none
  | abort
  | poisoned
  | data (bytes : List Byte)
deriving DecidableEq, Repr

/-- A physical or virtual function (R362 to R372): its BAR0 registers, rings, queues and counters, and what the firmware keeps of it:
context, partition, frame ranges, weight, offers and the export count; the number of its mailbox request in order of arrival (R36), and the
memory services of harts that are gone which the firmware still holds (R165). -/
structure Fn where
  num      : Nat
  ctx      : BitVec 16
  part     : BitVec 128       -- bit 16 f + u: furrow u of field f (R212)
  fbase    : Vector Nat 12
  fcount   : Vector Nat 12
  gleanage : BitVec 8
  budget   : Word
  weight   : Nat
  served   : Nat              -- placement decisions that the function has had (R150)
  peermap  : BitVec 256
  apbase   : Word
  rowstale : Word
  convs    : Word
  aborts   : Word
  chunks   : Word
  evlost   : Word
  queues   : Vector Queue 16
  mbox     : Vector Word 8
  busy     : Bool
  arrived  : Nat
  left     : List SvcRec
  pr       : PrRing
  ev       : EvRing
  dbg      : Bool
  migrating : Bool
  offers   : List Offer
  rrNext   : Nat              -- the queue after the one last placed from (R150)
  exportSeq : Word
  cpl      : ReadCpl
  quiesced : Bool             -- the scheduler starts no further record (R373 step 4)
  migTarget : Nat             -- destination, threshold, recorded WGENs and rounds of a migration (R373)
  migThreshold : Nat
  migWgen  : List (Nat × BitVec 32)
  migRounds : Nat
deriving DecidableEq, Repr

/-- What a migration hands over to the destination (R373 steps 5 and 6, R374): the translation entries, the records of their frames with AGE 0
and the frames' bytes, the counters, the queues, the records that are resubmitted there, in order, by queue, and whether the function's
key goes with them. -/
structure Departure where
  fn       : Nat
  target   : Nat
  entries  : List TEntry
  metas    : List (Nat × PageMeta)
  mem      : List Host.Cell
  rowstale : Word
  convs    : Word
  aborts   : Word
  chunks   : Word
  queues   : Vector Queue 16
  resubmit : Vector (List (Vector Word 8)) 16
  key      : Bool
deriving DecidableEq, Repr

/-- The device as a whole (R11, R25, R362, R370, R373, R375, R377 to R379): link states, boot result and measurements, the physical furrow of
its field that stands behind each logical one, spares left, clocks lowered, and what has left in migrations. Log entry 36: DESIGN CHOICE. -/
structure Dev where
  linksDown  : List (BitVec 8)
  hostGen    : Nat
  hostWidth  : Nat
  recovery   : Bool
  booted     : Bool
  measLoader : BitVec 512
  measFw     : BitVec 512
  furrowMap  : Vector (Option (Fin 17)) 128
  spareFurrow : Vector Bool 8
  sparePc    : Vector Nat 12
  fencedFurrows : List (BitVec 7)
  fencedPcs  : List (Nat × Nat)
  replaceReq : Bool
  lowered    : List ClockDomain
  departures : List Departure
deriving DecidableEq, Repr

/-- The state of the device. `hart` is the hart whose turn it is and `parked` holds the others; `agenda` holds the steps of the host, the
firmware and the device that come before the next issue; `issued` lists the cores that have issued in this cycle and `tried` the waiting harts
that have tried again in it (R155); `pace` says for each coming turn of a core's lanes which of its sequencer entries answers first and how
many element groups it completes, which the manual leaves to the memory's timing (with none left, the oldest ready entry completes); `fresh`
numbers the free values, and `fwSeq` the requests that have reached the firmware (R36): these are the model's own (log entries 2, 5, 25 and
40). -/
structure State where
  hart   : Hart
  parked : List Hart
  agenda : List Instr
  cores  : Cores
  ms     : Memsys
  sched  : Sched
  fns    : List Fn
  dev    : Dev
  cyc    : Word
  issued : List Nat
  tried  : List Dest
  pace   : List (Nat × Nat)
  fresh  : Nat
  fwSeq  : Nat
deriving DecidableEq, Repr

/-! ## How a step can stop -/

/-- The machine never stops with a fault of its own: what the manual calls a non-delivered fault resets the
partition (R164, R165), which is a next state. So the type has no constructor: no step answers with a fault. -/
inductive Fault
deriving DecidableEq, Repr

/-- Why a step has no meaning. -/
inductive Refusal
  /-- Raised by an arm of `exec` whose instruction has no meaning yet; safe. -/
  | notModelled (mnemonic : String)
  /-- Raised by a step of the device, the firmware or the host that cannot take place in the state (a chunk
  of a copy that is not in flight, a request of a function that does not exist); safe, because the hardware does not take the
  step either. -/
  | cannotOccur (what : String)
deriving DecidableEq, Repr

/-! ## Reset -/

def Tile.zero : Tile := ⟨false, []⟩
def Tag.idle : Tag := ⟨.idle, none, 0, 0, 0⟩
def MsgQ.empty : MsgQ := ⟨0, [], 0, []⟩

/-- Every byte 0x7F (R77). -/
def scReset : ScReg := BitVec.ofNat 49152 (0x7F * ((2 ^ 49152 - 1) / 255))

def PageMeta.reset : PageMeta := ⟨0, 0, 0, 0, false, false, 0⟩

/-- The registers of a hart at its start (R154, R77, R78); x2 to x5 are written by the placement.
Log entry 1: DESIGN CHOICE. -/
def Regs.entry : Regs :=
  { x := Vector.replicate 32 0, g := (Vector.replicate 8 false).set 0 true, v := Vector.replicate 64 0,
    k := Vector.replicate 8 0, sc := Vector.replicate 8 scReset, qt := Vector.replicate 4 (Vector.replicate 16 0),
    pl := Vector.replicate 16 none, acc := Vector.replicate 4 Tile.zero }

/-- The CSRs of a hart at its start (R154, R193). Log entry 1: DESIGN CHOICE. -/
def Csrs.entry : Csrs :=
  { vl := 0, vtype := ⟨.i32, 0⟩, frm := 0, fflags := 0, mcfg := 0, rpc := 0, utvec := 0, uepc := 0, ucause := 0,
    uinfo := 0, ustart := 0, uinfo2 := 0, plarena := 0, ttcfg := 0, mqcfg := 0, clbase := 0, psent := 0, plrebin := 0,
    xcar := 0, inst := 0 }

/-- The control state of a hart at its start: PEND holds START (R154, R215), and `last` 0 lets it go before every hart that has issued.
Log entry 2: DESIGN CHOICE. -/
def Ctl.entry : Ctl :=
  { phase := .running, pc := 0, next := 0, inHandler := false, trapRec := none, resume := none, rep := none,
    pend := 0b10000, arrived := none, released := false, sleep := none, pin := none, pinAt := none, tags := Vector.replicate 64 Tag.idle,
    share := none, mq := MsgQ.empty, pushTo := none, svc := none, stores := [], window := [], reissue := [], aside := none, begin := 0,
    scat := none, last := 0 }

def Place.none : Place :=
  { loc := 0, fn := 0, launch := 0, crew := 0, rank := 0, stage := 0, crews := 0, harts := 0, stages := 0,
    grant := 0, tiles := 0 }

/-- No hart: the registers stand at their entry values, and nothing runs. Log entry 1: DESIGN CHOICE. -/
def Hart.absent : Hart :=
  { place := Place.none, regs := Regs.entry, csr := Csrs.entry, ctl := { Ctl.entry with phase := .absent, pend := 0 } }

def Queue.reset : Queue :=
  { base := 0, size := 0, tail := 0, head := 0, en := false, devfed := false, stopped := false, code := 0, slot := 0,
    copies := [], done := [], fence := none, start := 0, plain := [], replayed := none, headRec := none, ready := false, cur := none, replay := [] }

/-- A function at its creation (R365): every register, ring and counter is zero. Log entry 1: DESIGN CHOICE. -/
def Fn.created (num : Nat) (ctx : BitVec 16) : Fn :=
  { num := num, ctx := ctx, part := 0, fbase := Vector.replicate 12 0, fcount := Vector.replicate 12 0,
    gleanage := 0, budget := 0, weight := 1, served := 0, peermap := 0, apbase := 0, rowstale := 0, convs := 0, aborts := 0,
    chunks := 0, evlost := 0, queues := Vector.replicate 16 Queue.reset, mbox := Vector.replicate 8 0, busy := false, arrived := 0, left := [],
    pr := ⟨0, 0, 0, 0, [], 0⟩, ev := ⟨0, 0, 0, 0, [], 0⟩, dbg := false, migrating := false, offers := [], rrNext := 0,
    exportSeq := 0, cpl := .none, quiesced := false, migTarget := 0, migThreshold := 0, migWgen := [], migRounds := 0 }

/-- Log entry 1: DESIGN CHOICE. -/
def Dev.reset : Dev :=
  { linksDown := [], hostGen := 0, hostWidth := 0, recovery := false, booted := false, measLoader := 0, measFw := 0,
    furrowMap := Vector.replicate 128 none, spareFurrow := Vector.replicate 8 true, sparePc := Vector.replicate 12 16, fencedFurrows := [], fencedPcs := [],
    replaceReq := false, lowered := [], departures := [] }

/-- Device reset (R29, R68): every translation entry and page record is zero, no function has been created and no
hart has started. Log entry 1: DESIGN CHOICE. -/
def State.reset : State :=
  { hart := Hart.absent, parked := [], agenda := [],
    cores := ⟨[], [], [], [], []⟩,
    ms := ⟨[], [], [], [], Vector.replicate 12 Config.poolChunks⟩,
    sched := ⟨[], [], 1, 0⟩, fns := [], dev := Dev.reset, cyc := 0, issued := [], tried := [], pace := [], fresh := 0, fwSeq := 0 }

end Sys2Proof.Machine
end

