-- ==== Sys2Proof/Machine/Sparse.lean ====
section
/-! DEFINITION. Sparse maps as plain data: lists of (key, value) pairs with rising keys and no entry equal to the
value an unlisted key reads as. Memory, windows, tiles and page records are held so. -/

namespace Sys2Proof.Machine

/-- The value at key `a`; `d` where it is not listed. Log entry 3: DESIGN CHOICE. -/
def Sparse.get {α : Type} (d : α) : List (Nat × α) → Nat → α
  | [], _ => d
  | (k, v) :: r, a => if k = a then v else if a < k then d else Sparse.get d r a

/-- The map with `x` at key `a`, in canonical form again. -/
def Sparse.put {α : Type} [DecidableEq α] (d : α) : List (Nat × α) → Nat → α → List (Nat × α)
  | [], a, x => if x = d then [] else [(a, x)]
  | (k, v) :: r, a, x =>
    if a < k then (if x = d then (k, v) :: r else (a, x) :: (k, v) :: r)
    else if k = a then (if x = d then r else (a, x) :: r)
    else (k, v) :: Sparse.put d r a x

/-- The map with every key in `lo .. lo + n - 1` unlisted. -/
def Sparse.clear {α : Type} (lo n : Nat) (m : List (Nat × α)) : List (Nat × α) :=
  m.filter (fun c => !(lo ≤ c.1 && c.1 < lo + n))

/-- Keys rise strictly and no value is the default: every key is above `lo`. -/
def Sparse.wfAbove {α : Type} [DecidableEq α] (d : α) : Nat → List (Nat × α) → Bool
  | _, [] => true
  | lo, (k, v) :: r => lo ≤ k && v != d && Sparse.wfAbove d (k + 1) r

/-- The canonical form. -/
def Sparse.wf {α : Type} [DecidableEq α] (d : α) (m : List (Nat × α)) : Bool := Sparse.wfAbove d 0 m

/-- The canonical form of memory: a byte not listed is zero. Log entry 3: DESIGN CHOICE. -/
def Memory.wf (m : List Host.Cell) : Bool := Sparse.wf (0 : Byte) m

/-- The byte of storage at a key. Log entry 3: DESIGN CHOICE. -/
def Memory.get (m : List Host.Cell) (a : Nat) : Byte := Sparse.get 0 m a

/-- The storage with byte `b` at key `a`. -/
def Memory.put (m : List Host.Cell) (a : Nat) (b : Byte) : List Host.Cell := Sparse.put 0 m a b

/-- The `n` bytes from key `a` upward. -/
def Memory.read (m : List Host.Cell) (a : Nat) : Nat → List Byte
  | 0 => []
  | n + 1 => Memory.get m a :: Memory.read m (a + 1) n

/-- The storage with the bytes `bs` from key `a` upward. -/
def Memory.write (m : List Host.Cell) (a : Nat) : List Byte → List Host.Cell
  | [] => m
  | b :: bs => Memory.write (Memory.put m a b) (a + 1) bs

/-- Bytes as a number, least significant first (R4). -/
def leNat : List Byte → Nat
  | [] => 0
  | b :: bs => b.toNat + 256 * leNat bs

/-- The low `n` bytes of a number, least significant first (R4). -/
def leBytes : Nat → Nat → List Byte
  | 0, _ => []
  | n + 1, x => BitVec.ofNat 8 x :: leBytes n (x / 256)

/-- The first element of a list that satisfies `p`, changed by `f`. -/
def modFirst {α : Type} (p : α → Bool) (f : α → α) : List α → List α
  | [] => []
  | a :: r => if p a then f a :: r else a :: modFirst p f r

/-- The elements of `l` counted from 0. -/
def indexed {α : Type} (l : List α) : List (Nat × α) := (List.range l.length).zip l

end Sys2Proof.Machine
end

