-- ==== Sys2Proof/Machine/Access.lean ====
section
/-! DEFINITION. Reading and writing the parts of the state: the registers of the hart whose turn it is (R177, R179),
any hart by its place, windows, page records, functions. Every read and write of a register goes through here. -/

namespace Sys2Proof.Machine

/-! ## Parts of the state -/

def State.modHart (s : State) (f : Hart → Hart) : State := { s with hart := f s.hart }
def Hart.modRegs (h : Hart) (f : Regs → Regs) : Hart := { h with regs := f h.regs }
def Hart.modCsr (h : Hart) (f : Csrs → Csrs) : Hart := { h with csr := f h.csr }
def Hart.modCtl (h : Hart) (f : Ctl → Ctl) : Hart := { h with ctl := f h.ctl }
def State.modRegs (s : State) (f : Regs → Regs) : State := { s with hart := { s.hart with regs := f s.hart.regs } }
def State.modCsr (s : State) (f : Csrs → Csrs) : State := { s with hart := { s.hart with csr := f s.hart.csr } }
def State.modCtl (s : State) (f : Ctl → Ctl) : State := { s with hart := { s.hart with ctl := f s.hart.ctl } }
def State.modCores (s : State) (f : Cores → Cores) : State := { s with cores := f s.cores }
def State.modMs (s : State) (f : Memsys → Memsys) : State := { s with ms := f s.ms }
def State.modSched (s : State) (f : Sched → Sched) : State := { s with sched := f s.sched }
def State.modDev (s : State) (f : Dev → Dev) : State := { s with dev := f s.dev }

/-- The location, core (ten bits), furrow (seven bits) and field of a packed hart address (R12). -/
def coreOf (l : HartLoc) : Nat := l.toNat / 4
def furrowOf (l : HartLoc) : Nat := l.toNat / 32
def fieldOf (l : HartLoc) : Nat := l.toNat / 512

def State.loc (s : State) : HartLoc := s.hart.place.loc
def State.core (s : State) : Nat := coreOf s.hart.place.loc

/-! ## Scalar registers, guards (R171, R177) -/

/-- The x registers as the instruction that executes reads them: those that a re-issued one captured (R327), else the present ones. -/
def State.xs (s : State) : Vector Word 32 :=
  match s.hart.ctl.resume with
  | some v => v.xs
  | none => s.hart.regs.x

/-- x[r]; x0 reads zero. -/
def State.x (s : State) (r : Fin 32) : Word := if r = 0 then 0 else s.xs[r]

/-- x[r] := v; writes of x0 and of x30 are discarded (R177, R178). -/
def State.setX (s : State) (r : Fin 32) (v : Word) : State :=
  if r = 0 ∨ r = 30 then s else s.modRegs (fun g => { g with x := g.x.set r v })

/-- g[r]; g0 reads true. -/
def State.g (s : State) (r : Fin 8) : Bool := if r = 0 then true else s.hart.regs.g[r]

/-- g[r] := v; a write of g0 is discarded. -/
def State.setG (s : State) (r : Fin 8) (v : Bool) : State :=
  if r = 0 then s else s.modRegs (fun g => { g with g := g.g.set r v })

/-! ## What a vector instruction reads at issue -/

/-- The values an instruction issued with: those of the re-issue, if it is one (R327), else the present ones; the start index is 0 then, or
where a handler has set it for an instruction that had not issued (R328). -/
def State.cur (s : State) : Resume :=
  match s.hart.ctl.resume with
  | some r => r
  | none => ⟨s.hart.ctl.begin, s.hart.csr.vl, s.hart.csr.vtype, s.hart.csr.frm, s.hart.csr.xcar, s.hart.regs.x, s.hart.csr.mcfg, none, false, [], false⟩

def State.vl (s : State) : Nat := s.cur.vl
def State.vt (s : State) : VType := s.cur.vtype
def State.frm (s : State) : BitVec 2 := s.cur.frm
def State.mcfg (s : State) : Word := s.cur.mcfg

/-- Unit `k` belongs to the present turn of the lanes: at or above the start index, and below the bound of the turn if there is one. -/
def State.inTurn (s : State) (k : Nat) : Bool := s.cur.start ≤ k && s.cur.upto.all (k < ·)

/-- Where the present turn of the lanes ends, of `n` units. -/
def State.turnEnd (s : State) (n : Nat) : Nat := min n (s.cur.upto.getD n)

/-- Elements of width `w` a group of `size` registers holds under `grant` units (R152). -/
def vlmaxOf (grant size w : Nat) : Nat := grant * 8192 * size / w

/-! ## Vector registers, masks, scale registers (R77, R175, R179) -/

/-- Bits `lo .. lo + w - 1` of a number. -/
def natField (b lo w : Nat) : Nat := b / 2 ^ lo % 2 ^ w

/-- A bit vector with bits `lo .. lo + w - 1` replaced. -/
def setField {n : Nat} (b : BitVec n) (lo w x : Nat) : BitVec n :=
  BitVec.ofNat n (b.toNat - natField b.toNat lo w * 2 ^ lo + x % 2 ^ w * 2 ^ lo)

/-- Elements of width `w` a register holds under a grant. -/
def perReg (grant w : Nat) : Nat := grant * 8192 / w

/-- Vector register number `n`, counted modulo 64. -/
def vnum (n : Nat) : Fin 64 := Fin.ofNat 64 n

/-- Element `i`, of width `w`, of the group that starts at register `v`. -/
def State.elt (s : State) (v : Fin 64) (w i : Nat) : Nat :=
  let p := perReg s.hart.place.grant w
  natField s.hart.regs.v[vnum (v.val + i / p)].toNat (i % p * w) w

/-- The state with element `i` of the group at `v` replaced; nothing else changes. -/
def State.setElt (s : State) (v : Fin 64) (w i x : Nat) : State :=
  let p := perReg s.hart.place.grant w
  let r := vnum (v.val + i / p)
  s.modRegs (fun g => { g with v := g.v.set r (setField g.v[r] (i % p * w) w x) })

/-- Bit `i` of mask `k`. -/
def State.kbit (s : State) (k : Fin 8) (i : Nat) : Bool := s.hart.regs.k[k].getLsbD i

/-- A mask with bit `i` replaced. -/
def setBit {n : Nat} (b : BitVec n) (i : Nat) (x : Bool) : BitVec n := setField b i 1 x.toNat

def State.setKbit (s : State) (k : Fin 8) (i : Nat) (x : Bool) : State :=
  s.modRegs (fun g => { g with k := g.k.set k (setBit g.k[k] i x) })

/-- active(i) of R195. -/
def State.active (s : State) (m : Fin 8) (i : Nat) : Bool := i < s.vl && (m == 0 || s.kbit m i)

/-- Scale byte `j` of register `n`. -/
def State.scByte (s : State) (n : Fin 8) (j : Nat) : Nat := natField s.hart.regs.sc[n].toNat (8 * j) 8

def State.setScByte (s : State) (n : Fin 8) (j x : Nat) : State :=
  s.modRegs (fun g => { g with sc := g.sc.set n (setField g.sc[n] (8 * j) 8 x) })

/-- Flags joined to fflags (R84). -/
def State.accrue (s : State) (f : Flags) : State :=
  s.modCsr (fun c => { c with fflags := c.fflags ||| f.setWidth 13 })

/-- Whether a flag of `f` has its trap enabled (R83, R86). -/
def State.enabled (s : State) (f : Flags) : Bool := (s.hart.csr.fflags.extractLsb' 8 5 &&& f) != 0

/-! ## Tags (R53) -/

def State.tag (s : State) (t : Fin 64) : Tag := s.hart.ctl.tags[t]
def Hart.setTag (h : Hart) (t : Fin 64) (v : Tag) : Hart := h.modCtl (fun c => { c with tags := c.tags.set t v })
def State.setTag (s : State) (t : Fin 64) (v : Tag) : State := s.modHart (fun h => h.setTag t v)

/-- The bits of the tags in a state: tgm for DONE, tgf for FAULT, tgb for BUSY. -/
def Hart.tagBits (h : Hart) (st : TagSt) : Word :=
  (List.finRange 64).foldl (fun w t => if h.ctl.tags[t].st == st then w ||| BitVec.twoPow 64 t.val else w) 0

/-! ## Harts by place -/

/-- The hart takes part: it is resident or pre-empted. -/
def Hart.live (h : Hart) : Bool := h.ctl.phase != .absent && h.ctl.phase != .retired

/-- The hart holds its hart number, grant and tiles on its core. -/
def Hart.resident (h : Hart) : Bool :=
  h.live && match h.ctl.phase with
    | .preempted _ => false
    | _ => true

/-- Every hart that is resident or pre-empted, the one whose turn it is first. -/
def State.harts (s : State) : List Hart := (s.hart :: s.parked).filter Hart.live

def Hart.dest (h : Hart) : Dest := ⟨h.place.launch, h.place.crew, h.place.loc⟩

def State.hartAt (s : State) (d : Dest) : Option Hart := s.harts.find? (fun h => h.dest == d)

/-- Every live hart that satisfies `p`, changed by `f`. -/
def State.modHarts (s : State) (p : Hart → Bool) (f : Hart → Hart) : State :=
  { s with hart := if s.hart.live && p s.hart then f s.hart else s.hart,
           parked := s.parked.map (fun h => if h.live && p h then f h else h) }

/-- The live hart that a destination names, changed. -/
def State.modAt (s : State) (d : Dest) (f : Hart → Hart) : State := s.modHarts (fun h => h.dest == d) f

/-- An event of a class for the harts that satisfy `p` (R215). -/
def State.raise (s : State) (bit : Nat) (p : Hart → Bool) : State :=
  s.modHarts p (fun h => h.modCtl (fun c => { c with pend := c.pend ||| BitVec.twoPow 5 bit }))

/-! ## Windows (R19, R45) -/

def State.window (s : State) (core launch : Nat) : Option Window :=
  s.cores.windows.find? (fun w => w.core == core && w.launch == launch)

/-- The size of the window a launch holds on a core; 0 where it holds none. -/
def State.windowSize (s : State) (core launch : Nat) : Nat :=
  match s.window core launch with
  | some w => w.size
  | none => 0

/-- Log entry 3: DESIGN CHOICE. -/
def State.padRead (s : State) (core launch off n : Nat) : List Byte :=
  match s.window core launch with
  | some w => Memory.read w.bytes off n
  | none => List.replicate n 0

def State.padWrite (s : State) (core launch off : Nat) (bs : List Byte) : State :=
  let upd := modFirst (fun (w : Window) => w.core == core && w.launch == launch)
    (fun w => { w with bytes := Memory.write w.bytes off bs })
  s.modCores (fun c => { c with windows := upd c.windows })

/-- The issuing hart's own window. -/
def State.myWindow (s : State) : Nat := s.windowSize s.core s.hart.place.launch
def State.myRead (s : State) (off n : Nat) : List Byte := s.padRead s.core s.hart.place.launch off n
def State.myWrite (s : State) (off : Nat) (bs : List Byte) : State := s.padWrite s.core s.hart.place.launch off bs

/-! ## Page records (R68) -/

def State.pmeta (s : State) (frame : Nat) : PageMeta := Sparse.get PageMeta.reset s.ms.metas frame
def State.setMeta (s : State) (frame : Nat) (m : PageMeta) : State :=
  s.modMs (fun ms => { ms with metas := Sparse.put PageMeta.reset ms.metas frame m })
def State.modMeta (s : State) (frame : Nat) (f : PageMeta → PageMeta) : State := s.setMeta frame (f (s.pmeta frame))

/-- The storage key of byte `off` of a frame. -/
def keyOf (frame off : Nat) : Nat := frame * 2 ^ 17 + off

/-- The offset at which the trailer of a frame begins. -/
def trailer : Nat := 65536

/-- Log entry 3: DESIGN CHOICE. -/
def State.rawRead (s : State) (frame off n : Nat) : List Byte := Memory.read s.ms.mem (keyOf frame off) n
def State.rawWrite (s : State) (frame off : Nat) (bs : List Byte) : State :=
  s.modMs (fun ms => { ms with mem := Memory.write ms.mem (keyOf frame off) bs })

/-! ## Functions -/

def State.fn? (s : State) (n : Nat) : Option Fn := s.fns.find? (fun f => f.num == n)
def State.fn (s : State) (n : Nat) : Fn := (s.fn? n).getD (Fn.created n 0)
def State.modFn (s : State) (n : Nat) (f : Fn → Fn) : State :=
  { s with fns := modFirst (fun g => g.num == n) f s.fns }
def State.setFn (s : State) (f : Fn) : State := s.modFn f.num (fun _ => f)
def Fn.modQueue (f : Fn) (q : Fin 16) (g : Queue → Queue) : Fn :=
  { f with queues := f.queues.set q (g f.queues[q]) }
def State.modQueue (s : State) (n : Nat) (q : Fin 16) (g : Queue → Queue) : State :=
  s.modFn n (fun f => f.modQueue q g)

/-- The function and context of the hart whose turn it is. -/
def State.myFn (s : State) : Fn := s.fn s.hart.place.fn
def State.ctx (s : State) : BitVec 16 := s.myFn.ctx

def State.launch? (s : State) (id : Nat) : Option Launch := s.sched.launches.find? (fun l => l.id == id)
def State.modLaunch (s : State) (id : Nat) (f : Launch → Launch) : State :=
  s.modSched (fun c => { c with launches := modFirst (fun l => l.id == id) f c.launches })
def State.crew? (s : State) (launch crew : Nat) : Option CrewRec :=
  s.sched.crews.find? (fun c => c.launch == launch && c.crew == crew)
def State.modCrew (s : State) (launch crew : Nat) (f : CrewRec → CrewRec) : State :=
  s.modSched (fun d => { d with crews := modFirst (fun c => c.launch == launch && c.crew == crew) f d.crews })

/-- The firmware runs: it has been accepted, and so the logical furrows are mapped (R11, R375). -/
def State.fwRuns (s : State) : Bool := s.dev.booted && !s.dev.recovery

/-! ## Launch records (R143 to R145) -/

def wfield (w : Word) (lo len : Nat) : Nat := w.toNat / 2 ^ lo % 2 ^ len

def Launch.kernel (l : Launch) : Word := l.words[0]
def Launch.param (l : Launch) : Word := l.words[1]
def Launch.crewCount (l : Launch) : Nat := wfield l.words[2] 0 32
def Launch.hartCount (l : Launch) : Nat := wfield l.words[2] 32 8
def Launch.stageCount (l : Launch) : Nat := wfield l.words[2] 40 8
def Launch.prio (l : Launch) : Nat := wfield l.words[2] 48 3
def Launch.cosident (l : Launch) : Bool := wfield l.words[2] 56 1 == 1
def Launch.checkpoint (l : Launch) : Bool := wfield l.words[2] 57 1 == 1
def Launch.grantMin (l : Launch) : Nat := wfield l.words[3] 0 16 / 64
def Launch.grantMax (l : Launch) : Nat := wfield l.words[3] 16 16 / 64
def Launch.tileCount (l : Launch) : Nat := wfield l.words[3] 32 3
def Launch.windowBytes (l : Launch) : Nat := wfield l.words[3] 48 16 * 1024
def Launch.budgetWord (l : Launch) : Word := l.words[4]

end Sys2Proof.Machine
end

