-- ==== Sys2Proof/Machine/Translate.lean ====
section
/-! DEFINITION. Address classes, home stacks and translation (R18 to R31), and the effects that every write of a frame
has on its record (R69, R70, R115). -/

namespace Sys2Proof.Machine

/-- The address classes of R18. -/
inductive AddrClass
  | virt | sys | loc | frw (core : Nat) | none
deriving DecidableEq, Repr

def classOf (a : Word) : AddrClass :=
  let top := a.toNat / 2 ^ 56
  if top = 0 then if wfield a 52 4 = 15 then .sys else .virt
  else if wfield a 48 16 = 0xFE00 then .loc
  else if wfield a 48 16 = 0xFE01 && wfield a 23 25 = 0 then .frw (wfield a 20 3)
  else .none

/-- Main memory, stack-homed or in the system window. -/
def AddrClass.isVirt : AddrClass → Bool
  | .virt => true
  | .sys => true
  | .loc => false
  | .frw _ => false
  | .none => false

/-- The window offset of a local or furrow-window address (R18). -/
def offsetOf (a : Word) : Nat :=
  match classOf a with
  | .frw _ => wfield a 0 20
  | .loc => wfield a 0 48
  | .virt => 0
  | .sys => 0
  | .none => 0

/-- The core whose window a local or furrow-window address reaches, for a hart at `l` (R19, R20). -/
def padCore (l : HartLoc) (a : Word) : Option Nat :=
  match classOf a with
  | .loc => some (coreOf l)
  | .frw c => some (furrowOf l * 8 + c)
  | .virt => none
  | .sys => none
  | .none => none

/-- Bytes `off .. off + n - 1` meet a live plan record that a hart of the launch holds on the core (R274). -/
def State.liveRecord (s : State) (core launch off n : Nat) : Bool :=
  s.harts.any (fun h => coreOf h.place.loc == core && h.place.launch == launch &&
    h.regs.pl.toList.any (fun p => match p with
      | some r => off < r.off + r.size && r.off < off + n
      | none => false))

/-! ## Entries (R29) -/

def entV (e : Word) : Bool := e.getLsbD 63
def entP (e : Word) : Bool := e.getLsbD 62
def entR (e : Word) : Bool := e.getLsbD 61
def entW (e : Word) : Bool := e.getLsbD 60
def entX (e : Word) : Bool := e.getLsbD 59
def entSZ (e : Word) : Bool := e.getLsbD 58
def entRC (e : Word) : Bool := e.getLsbD 57
def entGL (e : Word) : Bool := e.getLsbD 56
def entENC (e : Word) : Bool := e.getLsbD 55
def entSH (e : Word) : Bool := e.getLsbD 54
def entFMT (e : Word) : Nat := wfield e 50 4
def entQT (e : Word) : Nat := wfield e 48 2
def entROWSZ (e : Word) : Nat := wfield e 44 4
def entOWN (e : Word) : Nat := wfield e 37 7
def entFRAME (e : Word) : Nat := wfield e 0 36
/-- The bytes of a row on a row-coherent page. -/
def entRow (e : Word) : Nat := 64 * 2 ^ entROWSZ e
/-- The 64 KiB frames of the page. -/
def entFrames (e : Word) : Nat := if entSZ e then 32 else 1

/-- The home stack of a region (R23). -/
def homeStack (ctx : BitVec 16) (a : Word) : Nat :=
  let g := a.toNat / 2 ^ 21
  (g ^^^ (g / 2 ^ 11) ^^^ (ctx.toNat * 5)) % 2 ^ 32 % 12

/-- The entry that covers an address in a context; zero where there is none (R29). -/
def State.entryAt (s : State) (ctx : BitVec 16) (a : Word) : Word :=
  match s.ms.entries.find? (fun t => t.ctx == ctx &&
      (if entSZ t.e then t.page == a.toNat / 2 ^ 21 * 32 else t.page == a.toNat / 2 ^ 16)) with
  | some t => t.e
  | none => 0

/-- The storage frame that FRAME + `i` of an entry names: stack frames by their home stack, system-window frames by their
target, host memory by the owning function. -/
def frameOf (ctx : BitVec 16) (a : Word) (e : Word) (i : Nat) : Nat :=
  if classOf a = .sys then
    let t := entFRAME e / 2 ^ 28
    2 ^ 24 + (if t = 0 then 256 + entOWN e else t) * 2 ^ 28 + entFRAME e % 2 ^ 28 + i
  else homeStack ctx a * 2 ^ 20 + entFRAME e + i

/-- A translated address: the entry, the frame and the offset within the frame. -/
structure Page where
  e     : Word
  frame : Nat
  off   : Nat
deriving DecidableEq, Repr

def pageOf (ctx : BitVec 16) (a : Word) (e : Word) : Page :=
  ⟨e, frameOf ctx a e (if entSZ e then a.toNat % 2 ^ 21 / 2 ^ 16 else 0), a.toNat % 2 ^ 16⟩

/-- The permissions an access needs (R31). -/
structure Need where
  r : Bool
  w : Bool
deriving DecidableEq, Repr

def Need.load : Need := ⟨true, false⟩
def Need.store : Need := ⟨false, true⟩
def Need.amo : Need := ⟨true, true⟩

/-- Every link to the target of a system-window entry is down (R370). -/
def State.linkLost (s : State) (a e : Word) : Bool :=
  classOf a = .sys && entFRAME e / 2 ^ 28 != 0 && s.dev.linksDown.contains (BitVec.ofNat 8 (entFRAME e / 2 ^ 28))

/-- The request goes to host memory and the host refuses it (R362). Log entry 41: DESIGN CHOICE. -/
def State.hostRefused (s : State) (a e : Word) (write : Bool) : Bool :=
  classOf a = .sys && entFRAME e / 2 ^ 28 == 0 &&
    Config.hostRefuses (entOWN e) ((entFRAME e + (if entSZ e then a.toNat % 2 ^ 21 / 2 ^ 16 else 0)) % 2 ^ 28) write s.cyc.toNat

/-- Steps 3 to 6 of R22 for a virtual address; `mis` is step 5 for the entry. -/
def State.translate (s : State) (ctx : BitVec 16) (a : Word) (n : Need) (mis : Word → Bool) : Except Cause Page :=
  let e := s.entryAt ctx a
  if !entV e || (n.r && !entR e) || (n.w && !entW e) || s.linkLost a e then .error .protect
  else if 12 ≤ entFMT e then .error .format
  else if mis e then .error .misalign
  else if !entP e then .error (if n.w then .absentSt else .absent)
  else if s.hostRefused a e n.w then .error .protect
  else .ok (pageOf ctx a e)

/-! ## Frames -/

/-- The home stack of a stack frame. -/
def frameStack (frame : Nat) : Fin 12 := Fin.ofNat 12 (frame / 2 ^ 20)

/-- The frame belongs to a stack (and not to the system window). -/
def isStackFrame (frame : Nat) : Bool := frame < 12 * 2 ^ 20

/-- The first address of a translation entry's page. -/
def TEntry.va (t : TEntry) : Word := BitVec.ofNat 64 (t.page * 2 ^ 16)

/-- The first storage frame of an entry. -/
def TEntry.frame0 (t : TEntry) : Nat := frameOf t.ctx t.va t.e 0

def TEntry.covers (t : TEntry) (frame : Nat) : Bool :=
  entV t.e && t.frame0 ≤ frame && frame < t.frame0 + entFrames t.e

/-- The entries that map a frame. -/
def State.mappers (s : State) (frame : Nat) : List TEntry := s.ms.entries.filter (fun t => t.covers frame)

/-- The function that owns the page on a frame (R29). -/
def State.frameOwner (s : State) (frame : Nat) : Option Nat :=
  match s.mappers frame with
  | t :: _ => some (entOWN t.e)
  | [] => none

/-- Chunks given back to, or taken from, a stack's pool (R101). -/
def State.poolAdd (s : State) (frame n : Nat) : State :=
  let st := frameStack frame
  s.modMs (fun ms => { ms with pool := ms.pool.set st (ms.pool[st] + n) })
def State.poolSub (s : State) (frame n : Nat) : State :=
  let st := frameStack frame
  s.modMs (fun ms => { ms with pool := ms.pool.set st (ms.pool[st] - n) })

/-- Abort the conversion of a frame, if one is under way (R115): its nine chunks go back, GLABORT is set, and the owner's
ABORTS counter advances. Log entry 24: DEDUCED. -/
def State.abortConv (s : State) (frame : Nat) : State :=
  let m := s.pmeta frame
  if m.state != 1 then s
  else
    let s := (s.setMeta frame { m with state := 0, glabort := true }).poolAdd frame 9
    match s.frameOwner frame with
    | some o => s.modFn o (fun f => { f with aborts := f.aborts + 1 })
    | none => s

/-- What a write request that performs on a frame does to its record (R69, R70, R115). Log entry 11: DEDUCED. -/
def State.touch (s : State) (frame : Nat) : State :=
  (s.abortConv frame).modMeta frame (fun m => { m with wgen := m.wgen + 1, age := 0 })

end Sys2Proof.Machine
end

