-- ==== Sys2Proof/Machine/Page.lean ====
section
/-! DEFINITION. Typed pages (R99 to R118): where a page keeps its codes and scales, how an element is decoded, how a
block is encoded by the MX scale rule (R92), sparse blocks (R107 to R110), and the byte view (R102). -/

namespace Sys2Proof.Machine

/-- The physical layouts of R99. -/
inductive Layout
  | raw            -- bytes as written
  | plain (f : Fmt)
  | mx (f : Fmt)   -- a code byte an element, scales in the trailer
  | mx4            -- packed f4 codes, scales in the trailer
  | smx4
  | q4
deriving DecidableEq, Repr

def layoutOf (fmt : Nat) (fmtnow : BitVec 8) : Layout :=
  match fmt with
  | 1 => .plain .f32 | 2 => .plain .bf16 | 3 => .plain .f16 | 4 => .plain .f8e4 | 5 => .plain .f8e5
  | 6 => .mx .f8e4 | 7 => .mx .f8e5 | 8 => .mx4 | 9 => .smx4 | 10 => .q4
  | 11 => if fmtnow = 8 then .mx4 else .plain .f8e4
  | _ => .raw

def State.layout (s : State) (p : Page) : Layout := layoutOf (entFMT p.e) (s.pmeta p.frame).fmtnow

/-- The logical size L of an element (R99); 0 on RAW pages. -/
def logicalSize (fmt : Nat) : Nat :=
  match fmt with
  | 0 => 0 | 1 => 4 | 2 => 2 | 3 => 2 | _ => 1

/-- The chunks a frame of a format occupies (R99, R101). -/
def chunksOf (fmt : Nat) : Nat :=
  match fmt with
  | 6 => 17 | 7 => 17 | 8 => 9 | 9 => 12 | 10 => 8 | _ => 16

/-- The pages that are written by whole blocks of 32 logical bytes (R104, R105). -/
def blockFmt (fmt : Nat) : Bool := (6 ≤ fmt && fmt ≤ 9) || fmt == 11

/-- The page stores blocks of 32 elements with a scale. -/
def Layout.isBlock : Layout → Bool
  | .mx _ => true
  | .mx4 => true
  | .smx4 => true
  | .raw => false
  | .plain _ => false
  | .q4 => false

/-- The element format of the page (R103). -/
def Layout.fmt : Layout → Option Fmt
  | .raw => none
  | .plain f => some f
  | .mx f => some f
  | .mx4 => some .f4
  | .smx4 => some .f4
  | .q4 => some .q4

/-! ## Scales -/

/-- A value times the scale 2^(e - 127); scale 0xFF gives NaN (R76). -/
def scaled (v : FVal) (e : Nat) : FVal :=
  if e = 255 then .nan false
  else match v with
  | .nan s => .nan s
  | .inf n => .inf n
  | .fin n m x => .fin n m (x + e - 127)

/-- emax of the MX scale rule (R92). -/
def emaxOf (f : Fmt) : Int :=
  match f with
  | .f8e4 => 8
  | .f8e5 => 15
  | _ => 2

/-- floor(log2) of a magnitude m * 2^e that is not zero. -/
def floorLog2 (m : Nat) (e : Int) : Int := e + bitLen m - 1

/-- The exponent X that the scale rule gives a list of finite values (R92). -/
def mxExp (f : Fmt) (xs : List FVal) : Int :=
  let top := xs.foldl (fun (acc : Option Int) v => match v with
    | .fin _ m e => if m = 0 then acc else some (match acc with
      | some t => max t (floorLog2 m e)
      | none => floorLog2 m e)
    | .nan _ => acc
    | .inf _ => acc) none
  match top with
  | none => -127
  | some t => min (max (t - emaxOf f) (-127)) 127

/-- One code of the scale rule: exact scaling, one rounding, saturating. -/
def mxCode (f : Fmt) (x : Int) (v : FVal) : Nat :=
  match v, f.spec with
  | .fin n m e, some p => (p.round true 0 (.fin n m (e - x))).1
  | _, _ => 0

/-- The scale byte and the codes of a block by the MX scale rule (R92). -/
def mxEncode (f : Fmt) (xs : List FVal) : Nat × List Nat :=
  if xs.any (fun v => !v.isFinite) then (255, xs.map (fun _ => 0))
  else let x := mxExp f xs; ((x + 127).toNat, xs.map (mxCode f x))

/-! ## Sparse blocks (R107 to R110) -/

/-- The codes of a sparse block and, for each element, whether its group is malformed: `h` is the header, `vals` the 32 values. -/
def smxDecode (h : Nat) (vals : List Nat) : List (Nat × Bool) :=
  let kind := natField h 8 2
  let bad := kind == 3 || natField h 10 6 != 0 || natField h 48 16 != 0
  let meta_ := natField h 16 32
  (List.range 32).map (fun e =>
    if bad then (0, true)
    else if kind = 0 then (vals.getD e 0, false)
    else if kind = 1 then
      if meta_ / 2 ^ e % 2 = 0 then (0, false)
      else (vals.getD ((List.range e).countP (fun b => meta_ / 2 ^ b % 2 = 1)) 0, false)
    else
      let g := e / 4
      let p0 := natField meta_ (4 * g) 2
      let p1 := natField meta_ (4 * g + 2) 2
      if p1 ≤ p0 then (0, true)
      else if e % 4 = p0 then (vals.getD (2 * g) 0, false)
      else if e % 4 = p1 then (vals.getD (2 * g + 1) 0, false)
      else (0, false))

/-- Positions of a group of four for KIND 2: its non-zero elements, filled up with the lowest unused ones, ascending. -/
def pairPositions (nz : List Nat) : Nat × Nat :=
  match nz with
  | a :: b :: _ => (a, b)
  | [a] => if a = 0 then (0, 1) else (0, a)
  | [] => (0, 1)

/-- The header and the values a store path writes for 32 codes (R110). -/
def smxEncode (scale : Nat) (codes : List Nat) : Nat × List Nat :=
  let cs := (List.range 32).map (fun e => let c := codes.getD e 0; if c = 8 then 0 else c)
  let nzOf := fun g => (List.range 4).filter (fun k => cs.getD (4 * g + k) 0 != 0)
  if (List.range 8).all (fun g => (nzOf g).length ≤ 2) then
    let ps := (List.range 8).map (fun g => pairPositions (nzOf g))
    let m := (indexed ps).foldl (fun acc (g, p) => acc + (p.1 + 4 * p.2) * 2 ^ (4 * g)) 0
    let vs := ((indexed ps).map (fun (g, p) => [cs.getD (4 * g + p.1) 0, cs.getD (4 * g + p.2) 0])).flatten
    (m * 2 ^ 16 + 2 * 2 ^ 8 + scale, vs ++ List.replicate 16 0)
  else if cs.any (· == 0) then
    let m := (List.range 32).foldl (fun acc e => if cs.getD e 0 = 0 then acc else acc + 2 ^ e) 0
    let vs := cs.filter (· != 0)
    (m * 2 ^ 16 + 2 ^ 8 + scale, vs ++ List.replicate (32 - vs.length) 0)
  else (scale, cs)

/-- Bytes that pack 4-bit values, the lower-numbered in bits 3:0 (R4). -/
def packNibbles : List Nat → List Byte
  | [] => []
  | [a] => [BitVec.ofNat 8 a]
  | a :: b :: r => BitVec.ofNat 8 (a % 16 + 16 * (b % 16)) :: packNibbles r

/-- The 4-bit values of bytes. -/
def unpackNibbles : List Byte → List Nat
  | [] => []
  | b :: r => b.toNat % 16 :: b.toNat / 16 :: unpackNibbles r

/-! ## Reading elements -/

/-- The raw bytes of a frame as a number. -/
def State.rawNat (s : State) (frame off n : Nat) : Nat := leNat (s.rawRead frame off n)

/-- The codes of block `b` of a frame with their malformed marks. -/
def State.blockCodes (s : State) (lay : Layout) (frame b : Nat) : List (Nat × Bool) :=
  match lay with
  | .smx4 => smxDecode (s.rawNat frame (24 * b) 8) (unpackNibbles (s.rawRead frame (24 * b + 8) 16))
  | .mx4 => (unpackNibbles (s.rawRead frame (16 * b) 16)).map (fun c => (c, false))
  | .q4 => (unpackNibbles (s.rawRead frame (16 * b) 16)).map (fun c => (c, false))
  | .mx _ => (s.rawRead frame (32 * b) 32).map (fun c => (c.toNat, false))
  | .plain _ => (s.rawRead frame (32 * b) 32).map (fun c => (c.toNat, false))
  | .raw => (s.rawRead frame (32 * b) 32).map (fun c => (c.toNat, false))

/-- The scale byte of block `b`; 0x7F on a page without scales. -/
def State.blockScale (s : State) (lay : Layout) (frame b : Nat) : Nat :=
  match lay with
  | .smx4 => s.rawNat frame (24 * b) 1
  | .mx _ => s.rawNat frame (trailer + b) 1
  | .mx4 => s.rawNat frame (trailer + b) 1
  | .raw => 0x7F
  | .plain _ => 0x7F
  | .q4 => 0x7F

/-- The code of the element at logical offset `off` of a frame. -/
def State.eltCode (s : State) (lay : Layout) (frame off : Nat) : Nat :=
  match lay with
  | .raw => 0
  | .plain f => s.rawNat frame off (f.width / 8)
  | .mx _ => s.rawNat frame off 1
  | .mx4 => natField (s.rawNat frame (off / 2) 1) (4 * (off % 2)) 4
  | .q4 => natField (s.rawNat frame (off / 2) 1) (4 * (off % 2)) 4
  | .smx4 => ((s.blockCodes .smx4 frame (off / 32)).getD (off % 32) (0, false)).1

/-- The element belongs to a malformed sparse group (R109). -/
def State.eltBad (s : State) (lay : Layout) (frame off : Nat) : Bool :=
  match lay with
  | .smx4 => ((s.blockCodes .smx4 frame (off / 32)).getD (off % 32) (0, false)).2
  | .raw => false
  | .plain _ => false
  | .mx _ => false
  | .mx4 => false
  | .q4 => false

/-- Entry `c` of a codebook (R78). -/
def qtValue (q : QtReg) (c : Nat) : FVal := specBf16.decode (q[Fin.ofNat 16 c].toNat)

/-- The decoded value of a code of a layout: times its block scale, or through the codebook (R76, R78, R103). -/
def codeValue (lay : Layout) (q : QtReg) (code scale : Nat) : FVal :=
  match lay.fmt with
  | none => .fin false 0 0
  | some .q4 => qtValue q code
  | some f => if lay.isBlock then scaled (valueOf f code) scale else valueOf f code

/-- The decoded value of the element at logical offset `off` of a frame. -/
def State.eltValue (s : State) (lay : Layout) (q : QtReg) (frame off : Nat) : FVal :=
  codeValue lay q (s.eltCode lay frame off) (s.blockScale lay frame (off / 32))

/-- The 32 decoded values of a block. -/
def State.blockValues (s : State) (lay : Layout) (frame b : Nat) : List FVal :=
  let sc := s.blockScale lay frame b
  (s.blockCodes lay frame b).map (fun c => codeValue lay (Vector.replicate 16 0) c.1 sc)

/-! ## Writing elements -/

/-- Block `b` of a frame with new codes and scale, written whole. -/
def State.putBlock (s : State) (lay : Layout) (frame b : Nat) (scale : Nat) (codes : List Nat) : State :=
  let sc := [BitVec.ofNat 8 scale]
  match lay with
  | .mx _ => (s.rawWrite frame (32 * b) (codes.map (BitVec.ofNat 8))).rawWrite frame (trailer + b) sc
  | .mx4 => (s.rawWrite frame (16 * b) (packNibbles codes)).rawWrite frame (trailer + b) sc
  | .smx4 =>
    let (h, vs) := smxEncode scale codes
    s.rawWrite frame (24 * b) (leBytes 8 h ++ packNibbles vs)
  | .plain _ => s.rawWrite frame (32 * b) (codes.map (BitVec.ofNat 8))
  | .q4 => s.rawWrite frame (16 * b) (packNibbles codes)
  | .raw => s

/-- Block `b` re-encoded from 32 values by the scale rule, or without a scale by direct rounding (R104). -/
def State.encodeBlock (s : State) (lay : Layout) (frame b : Nat) (vs : List FVal) : State :=
  match lay.fmt with
  | none => s
  | some f =>
    let (sc, cs) := if lay.isBlock then mxEncode f vs else (0x7F, vs.map (fun v => (roundTo f true 0 v).1))
    s.putBlock lay frame b sc cs

/-- A code of a page without blocks stored at its logical offset. -/
def State.putCode (s : State) (lay : Layout) (frame off code : Nat) : State :=
  match lay with
  | .plain f => s.rawWrite frame off (leBytes (f.width / 8) code)
  | .q4 =>
    let b := s.rawNat frame (off / 2) 1
    let b' := b - natField b (4 * (off % 2)) 4 * 16 ^ (off % 2) + code % 16 * 16 ^ (off % 2)
    s.rawWrite frame (off / 2) (leBytes 1 b')
  | .raw => s
  | .mx _ => s
  | .mx4 => s
  | .smx4 => s

/-! ## The byte view (R102) -/

/-- The fault of step 7 for a byte-level access (R106): poison, no byte view, frozen on a write. -/
def State.viewFault (s : State) (p : Page) (write : Bool) : Option Cause :=
  let m := s.pmeta p.frame
  if m.state = 3 then some .integrity
  else if 6 ≤ entFMT p.e && entFMT p.e ≤ 10 then some .format
  else if write && m.state = 2 then some .frozen
  else none

/-- The bytes of a byte-level read; an HDR frame in MX4 form is decoded to f8e4 (R102). -/
def State.viewRead (s : State) (p : Page) (n : Nat) : List Byte :=
  if entFMT p.e = 11 && (s.pmeta p.frame).fmtnow = 8 then
    (List.range n).map (fun j =>
      BitVec.ofNat 8 (specE4.round true 0 (s.eltValue .mx4 (Vector.replicate 16 0) p.frame (p.off + j))).1)
  else s.rawRead p.frame p.off n

/-- A byte-level write that performs. -/
def State.viewWrite (s : State) (p : Page) (bs : List Byte) : State := (s.rawWrite p.frame p.off bs).touch p.frame

/-- The MX4 form of an HDR frame in f8e4 form (R114). -/
def State.toMx4 (s : State) (frame : Nat) : State :=
  let blocks := (List.range 2048).map (fun b => mxEncode .f4 (s.blockValues (.plain .f8e4) frame b))
  let s := s.modMs (fun ms => { ms with mem := Sparse.clear (keyOf frame 0) (2 ^ 17) ms.mem })
  (indexed blocks).foldl (fun s (b, c) => s.putBlock .mx4 frame b c.1 c.2) s

/-- The f8e4 form of a frozen HDR frame (R117). -/
def State.toE4 (s : State) (frame : Nat) : State :=
  let codes := (List.range 2048).map (fun b =>
    (s.blockValues .mx4 frame b).map (fun v => (specE4.round true 0 v).1))
  let s := s.modMs (fun ms => { ms with mem := Sparse.clear (keyOf frame 0) (2 ^ 17) ms.mem })
  (indexed codes).foldl (fun s (b, c) => s.putBlock (.plain .f8e4) frame b 0 c) s

end Sys2Proof.Machine
end

