-- ==== Sys2Proof/Machine/WriteQueue.lean ====
section
/-! DEFINITION. The write queues of the stacks (R62 to R66): how contributions join a pending entry and how an entry is
applied. -/

namespace Sys2Proof.Machine

/-- The logical line number of an offset within a frame. -/
def lineOf (off : Nat) : Nat := off / 64

/-- An entry concerns bytes `off .. off + n - 1` of a frame: its line does, or on a row-coherent page its row does. -/
def WqEntry.meets (e : WqEntry) (frame off n : Nat) : Bool :=
  e.frame == frame &&
  if e.row = 0 then off < e.line * 64 + 64 && e.line * 64 < off + n
  else off < e.line * 64 / e.row * e.row + e.row && e.line * 64 / e.row * e.row < off + n

/-- The sum of two contributions of a kind: exact and wrapping, or in f32 (R63). Log entry 17: DEDUCED. -/
def mergeSum (k : MergeKind) (a b : Word) : Word :=
  match k with
  | .int w => BitVec.ofNat 64 ((a.toNat + b.toNat) % 2 ^ w)
  | .raw _ => BitVec.ofNat 64 (fAdd specF32 0 (specF32.decode a.toNat) (specF32.decode b.toNat)).1
  | .page _ => BitVec.ofNat 64 (fAdd specF32 0 (specF32.decode a.toNat) (specF32.decode b.toNat)).1

/-- A contribution joined to the slots of an entry. -/
def joinSlot (c : MergeAdd) : List WqSlot → List WqSlot
  | [] => [⟨c.off, c.nib, c.kind, c.val⟩]
  | t :: r =>
    if t.off = c.off && t.nib = c.nib && t.kind = c.kind then { t with acc := mergeSum c.kind t.acc c.val } :: r
    else t :: joinSlot c r

/-- A contribution arrives: it opens an entry of its line or joins the pending one (R63). Log entry 17: DEDUCED. -/
def joinEntry (c : MergeAdd) : List WqEntry → List WqEntry
  | [] => [⟨c.frame, lineOf c.off, c.row, [⟨c.off, c.nib, c.kind, c.val⟩], c.who.toList, if c.vramo then [c.who] else []⟩]
  | e :: r =>
    if e.frame = c.frame && e.line = lineOf c.off then
      { e with
        slots := joinSlot c e.slots
        who := e.who ++ c.who.toList.filter (fun l => !e.who.contains l)
        rowAdds := if c.vramo && !e.rowAdds.contains c.who then e.rowAdds ++ [c.who] else e.rowAdds } :: r
    else e :: joinEntry c r

/-- Log entry 17: DEDUCED. -/
def State.mergeArrive (s : State) (c : MergeAdd) : State := s.modMs (fun ms => { ms with wq := joinEntry c ms.wq })

/-- round(target format, target + sum, RNE) (R63), saturating as memory paths do (R88). -/
def mergeValue (p : FmtSpec) (target : FVal) (sum : Word) : Nat :=
  (p.round true 0 (addX 0 target (specF32.decode sum.toNat)).1).1

/-- A slot whose target is no block element, applied. -/
def State.applySlot (s : State) (frame : Nat) (t : WqSlot) : State :=
  match t.kind with
  | .int w => s.rawWrite frame t.off (leBytes (w / 8) (s.rawNat frame t.off (w / 8) + t.acc.toNat))
  | .raw f =>
    match f.spec with
    | none => s
    | some p =>
      let n := (f.width + 7) / 8
      let b := s.rawNat frame t.off n
      let v := mergeValue p (p.decode (natField b t.nib f.width)) t.acc
      s.rawWrite frame t.off (leBytes n (b - natField b t.nib f.width * 2 ^ t.nib + v * 2 ^ t.nib))
  | .page fmt =>
    match layoutOf fmt (s.pmeta frame).fmtnow with
    | .plain f =>
      match f.spec with
      | none => s
      | some p => s.putCode (.plain f) frame t.off (mergeValue p (p.decode (s.eltCode (.plain f) frame t.off)) t.acc)
    | .raw => s
    | .q4 => s
    | .mx _ => s
    | .mx4 => s
    | .smx4 => s

/-- The slots of an entry that fall in block `b` of a block page, applied together: the block is decoded, summed and
re-encoded (R63). -/
def State.applyBlock (s : State) (lay : Layout) (frame b : Nat) (ts : List WqSlot) : State :=
  let vs := (indexed (s.blockValues lay frame b)).map (fun (j, v) =>
    match ts.find? (fun t => t.off == 32 * b + j) with
    | some t => (addX 0 v (specF32.decode t.acc.toNat)).1
    | none => v)
  s.encodeBlock lay frame b vs

/-- The contributions of an entry, written. -/
def State.applySlots (s : State) (e : WqEntry) : State :=
  let fmt := match e.slots with
    | ⟨_, _, .page fmt, _⟩ :: _ => fmt
    | _ => 0
  let lay := layoutOf fmt (s.pmeta e.frame).fmtnow
  if blockFmt fmt then
    [2 * e.line, 2 * e.line + 1].foldl (fun s b =>
      let ts := e.slots.filter (fun t => t.off / 32 == b)
      if ts.isEmpty then s else s.applyBlock lay e.frame b ts) s
  else e.slots.foldl (fun s t => s.applySlot e.frame t) s

/-- An entry applied: one write request of its frame; on a poisoned page it is discarded (R64), and none is ever applied to a frozen one
(R64, R116).
Log entry 17: DEDUCED. -/
def State.applyEntry (s : State) (e : WqEntry) : State :=
  if (s.pmeta e.frame).state = 3 || (s.pmeta e.frame).state = 2 then s else (s.applySlots e).touch e.frame

/-- Every pending entry that satisfies `p`, applied in order of opening. -/
def State.applyWhere (s : State) (p : WqEntry → Bool) : State :=
  let es := s.ms.wq.filter p
  if es.isEmpty then s
  else es.foldl State.applyEntry (s.modMs (fun ms => { ms with wq := ms.wq.filter (fun e => !p e) }))

/-- The pending entries of these bytes are applied before they are read or plainly written (R64).
Log entry 17: DEDUCED. -/
def State.settle (s : State) (frame off n : Nat) : State := s.applyWhere (fun e => e.meets frame off n)

/-- The pending entries of a frame are applied (R64, R114). -/
def State.settleFrame (s : State) (frame : Nat) : State := s.applyWhere (fun e => e.frame == frame)

/-- Two entries are applied together: they are one, or the lines of one row (R264). -/
def WqEntry.together (a b : WqEntry) : Bool :=
  a == b || (a.frame == b.frame && a.row != 0 && a.row == b.row && a.line * 64 / a.row == b.line * 64 / b.row)

/-- The pending entries with a contribution of a hart, and the other lines of their rows, are applied (R64, R127, R264).
Log entry 8: DEDUCED; log entry 17: DEDUCED. -/
def State.settleHart (s : State) (d : Dest) : State :=
  s.applyWhere (fun e => s.ms.wq.any (fun x => x.who.contains d && x.together e))

end Sys2Proof.Machine
end

