-- ==== Sys2Proof/Machine/Interlock.lean ====
section
/-! DEFINITION. The address-range interlock (R55 to R57): which accesses wait for a copy in flight, and how a store marks
the plans that watch its bytes. -/

namespace Sys2Proof.Machine

/-- A span of addresses: its first address and its length in bytes. -/
abbrev Span := Word × Nat

/-- The span from the lowest to the highest byte of `rows` rows (R258). -/
def rowSpan (a : Word) (rows rowBytes : Nat) (stride : Int) : Span :=
  let far := stride * (rows - 1 : Int)
  (if stride < 0 then a + BitVec.ofInt 64 far else a, far.natAbs + rowBytes)

/-- The least and the greatest of the accepted granule addresses, as a span. -/
def granuleSpan (gran : Nat) (ps : List (Bool × Option Word)) : Option Span :=
  let as := ps.filterMap (fun p => p.2)
  match as with
  | [] => none
  | a :: r =>
    let lo := r.foldl (fun m x => if x.ult m then x else m) a
    let hi := r.foldl (fun m x => if m.ult x then x else m) a
    some (lo, (hi - lo).toNat + gran)

/-- The source and destination spans of an operation on a tag. -/
def CopyOp.spans (op : CopyOp) : List Span :=
  match op.kind with
  | .pgreq => []
  | .plcpy =>
    (op.dst, op.total * op.gran) :: (match granuleSpan op.gran op.posns with
      | some sp => [sp]
      | none => [])
  | .cpy => [(op.dst, op.total), (op.src, op.total)]
  | .cpy2 =>
    let rows := op.total / max op.rowBytes 1
    [rowSpan op.dst rows op.rowBytes op.dstride, rowSpan op.src rows op.rowBytes op.sstride]

/-- The class number and the position within it that the interlock compares (R56). Local addresses stand at the place in the furrow window
that the issuing core has there, as its furrow-window address with the same offset does. -/
def spanKey (l : HartLoc) (a : Word) : Nat × Nat :=
  match classOf a with
  | .virt => (0, a.toNat)
  | .sys => (0, a.toNat)
  | .loc => (1, coreOf l % 8 * 2 ^ 20 + offsetOf a)
  | .frw c => (1, c * 2 ^ 20 + offsetOf a)
  | .none => (2, a.toNat)

/-- Where a span ends for a comparison with `y`: what a local one has beyond the core's window is no part of the furrow window. -/
def spanStop (l : HartLoc) (x y : Span) : Nat :=
  let stop := (spanKey l x.1).2 + x.2
  match classOf x.1, classOf y.1 with
  | .loc, .frw _ => min stop ((coreOf l % 8 + 1) * 2 ^ 20)
  | _, _ => stop

/-- Two non-empty spans overlap within one class, rounded outward to multiples of `g`. -/
def spansMeet (l : HartLoc) (g : Nat) (x y : Span) : Bool :=
  let (kx, ax) := spanKey l x.1
  let (ky, ay) := spanKey l y.1
  let sx := spanStop l x y
  let sy := spanStop l y x
  kx == ky && ax < sx && ay < sy && ax / g * g < (sy + g - 1) / g * g && ay / g * g < (sx + g - 1) / g * g

/-- The local address of a byte of the hart's window (R19). -/
def locAddr (off : Nat) : Word := BitVec.ofNat 64 (0xFE00 * 2 ^ 48 + off)

/-- The spans of the hart's copy entries: its BUSY tags (R55). -/
def Hart.copySpans (h : Hart) : List Span :=
  h.ctl.tags.toList.flatMap (fun t =>
    match t.st, t.op with
    | .busy, some op => op.spans
    | _, _ => [])

/-- An access of these spans waits for a copy of its own hart (R55). -/
def State.interlocked (s : State) (xs : List Span) : Bool :=
  let held := s.hart.copySpans
  xs.any (fun x => held.any (fun y => spansMeet s.loc 64 x y))

/-- The mask is the flag mask of a plan copy in flight, which a later instruction that reads or writes it waits for
(R286). -/
def State.maskHeld (s : State) (k : Fin 8) : Bool :=
  k != 0 && s.hart.ctl.tags.toList.any (fun t =>
    match t.st, t.op with
    | .busy, some op => op.kind == .plcpy && op.fk == k
    | _, _ => false)

/-! ## Plan watches (R57, R282) -/

/-- Set STALE in the record of a plan. Log entry 16: DEDUCED. -/
def State.markStale (s : State) (p : PlanRef) : State :=
  let b := leNat (s.myRead (p.off + 3) 1)
  s.myWrite (p.off + 3) (leBytes 1 (b ||| 32))

/-- A store of the hart to this span marks the plans that watch a byte of it (R57); no span is rounded. Log entry 16: DEDUCED. -/
def State.noteStore (s : State) (x : Span) : State :=
  s.hart.regs.pl.toList.foldl (fun s p =>
    match p with
    | some r => match r.watch with
      | some w => if spansMeet s.loc 1 x w then s.markStale r else s
      | none => s
    | none => s) s

end Sys2Proof.Machine
end

