-- ==== Sys2Proof/Machine/Ops.lean ====
section
/-! DEFINITION. The named operations that every meaning shares: how an instruction ends, taking an exception
(R164 to R166, R194, R324, R325) and returning from it (R214, R327), the pop that a read of x30 makes (R178), and the event and
page-request rings (R368, R369). -/

namespace Sys2Proof.Machine

abbrev Out := Host.Outcome State Fault Refusal

/-- How an instruction of a hart ends: it completes, completes with a branch to `t`, waits and starts again later, or
traps with the state that its completed units left. -/
inductive Res
  | done (s : State)
  | jump (t : Word) (s : State)
  | wait (s : State)
  | trap (t : Trap) (s : State)

/-! ## Sorting -/

/-- `x` put before the first element that it may stand before. -/
def insertBy {α : Type} (le : α → α → Bool) (x : α) : List α → List α
  | [] => [x]
  | y :: r => if le x y then x :: y :: r else y :: insertBy le x r

/-- A list in ascending order; equal elements keep theirs. -/
def sortedBy {α : Type} (le : α → α → Bool) (l : List α) : List α := l.foldr (insertBy le) []

/-! ## Device-agent accesses (R120) -/

/-- Bytes that a device agent reads at a virtual address in a context through the byte view. -/
def State.agentRead (s : State) (ctx : BitVec 16) (a : Word) (n : Nat) : Option (List Byte) :=
  match s.translate ctx a Need.load (fun _ => false) with
  | .error _ => none
  | .ok p => match s.viewFault p false with
    | some _ => none
    | none => some ((s.settle p.frame p.off n).viewRead p n)

/-- The state after a read of bytes by a device agent: pending contributions of their lines are applied first (R64). -/
def State.settleAt (s : State) (ctx : BitVec 16) (a : Word) (n : Nat) : State :=
  match s.translate ctx a Need.load (fun _ => false) with
  | .ok p => if (s.viewFault p false).isSome then s else s.settle p.frame p.off n
  | .error _ => s

/-- Bytes that a device agent writes at a virtual address in a context through the byte view. -/
def State.agentWrite (s : State) (ctx : BitVec 16) (a : Word) (bs : List Byte) : Option State :=
  match s.translate ctx a Need.store (fun _ => false) with
  | .error _ => none
  | .ok p => match s.viewFault p true with
    | some _ => none
    | none => some ((s.settle p.frame p.off bs.length).viewWrite p bs)

/-! ## The event ring (R368) -/

/-- The 32 bytes of an event record. -/
def Event.bytes (e : Event) : List Byte :=
  leBytes 8 (e.type + 256 * e.sub + 65536 * e.src) ++ leBytes 8 e.a.toNat ++ leBytes 8 e.b.toNat ++ leBytes 8 e.c.toNat

/-- Write held events to the ring while it has room; each write advances EVHEAD and signals vector 0. -/
def State.flushEventsN : Nat → State → Nat → State
  | 0, s, _ => s
  | n + 1, s, fn =>
    let f := s.fn fn
    match f.ev.held with
    | [] => s
    | e :: r =>
      if f.ev.size = 0 || f.ev.size.toNat ≤ (f.ev.head - f.ev.tail).toNat then s
      else
        match s.agentWrite f.ctx (f.ev.base + BitVec.ofNat 64 (32 * (f.ev.head.toNat % f.ev.size.toNat))) e.bytes with
        | none => s
        | some s' => State.flushEventsN n (s'.modFn fn (fun f =>
            { f with ev := { f.ev with held := r, head := f.ev.head + 1, msix := f.ev.msix + 1 } })) fn

/-- Log entry 20: DEDUCED. -/
def State.flushEvents (s : State) (fn : Nat) : State := State.flushEventsN 64 s fn

/-- Report an event to a function: held in order, at most 64; a further one is lost and counted (R368).
Log entry 20: DEDUCED. -/
def State.postEvent (s : State) (fn : Nat) (e : Event) : State :=
  if (s.fn fn).ev.held.length < 64 then
    (s.modFn fn (fun f => { f with ev := { f.ev with held := f.ev.held ++ [e] } })).flushEvents fn
  else s.modFn fn (fun f => { f with evlost := f.evlost + 1 })

/-! ## The page-request ring (R369) -/

/-- The 16 bytes of a page-request entry: the page's VA and the requester. -/
def PageReq.bytes (r : PageReq) : List Byte :=
  leBytes 8 r.va.toNat ++ leBytes 8 r.asker.toNat

/-- Post waiting requests while the ring has room; each advances PRHEAD and signals vector 1. -/
def State.flushReqsN : Nat → State → Nat → State
  | 0, s, _ => s
  | n + 1, s, fn =>
    let f := s.fn fn
    match f.pr.reqs.find? (fun r => !r.posted) with
    | none => s
    | some r =>
      if f.pr.size = 0 || f.pr.size.toNat ≤ (f.pr.head - f.pr.tail).toNat then s
      else
        match s.agentWrite f.ctx (f.pr.base + BitVec.ofNat 64 (16 * (f.pr.head.toNat % f.pr.size.toNat))) r.bytes with
        | none => s
        | some s' =>
          let mark := modFirst (fun (q : PageReq) => !q.posted) (fun q => { q with posted := true })
          State.flushReqsN n (s'.modFn fn (fun f =>
            { f with pr := { f.pr with reqs := mark f.pr.reqs, head := f.pr.head + 1, msix := f.pr.msix + 1 } })) fn

/-- Log entry 20: DEDUCED. -/
def State.flushReqs (s : State) (fn : Nat) : State := State.flushReqsN 1024 s fn

/-! ## Tags leaving BUSY (R53, R54) -/

/-- A tag of a hart leaves BUSY; the hart's TAG event is set (R215). For a plan copy the flag mask is written then
(R286), for the positions that the copy has delivered (R38). Log entry 16: DEDUCED. -/
def Hart.tagLeaves (h : Hart) (t : Fin 64) (v : Tag) : Hart :=
  let h := (h.setTag t v).modCtl (fun c => { c with pend := c.pend ||| 1 })
  match h.ctl.tags[t].op with
  | none => h
  | some op =>
    if op.kind == .plcpy && op.fk != 0 then
      let write := fun (m : KReg) (i : Nat) =>
        match op.posns[i]? with
        | some (true, _) => setBit m i (op.flags.testBit i)
        | _ => m
      h.modRegs (fun g => { g with k := g.k.set op.fk ((List.range (min op.posns.length v.prog)).foldl write g.k[op.fk]) })
    else h

/-- A tag completes. -/
def Hart.tagDone (h : Hart) (t : Fin 64) : Hart := h.tagLeaves t { h.ctl.tags[t] with st := .done }

/-- A tag faults: its cause, its progress and the fault address are recorded (R54). -/
def Hart.tagFault (h : Hart) (t : Fin 64) (prog : Nat) (cause : BitVec 8) (a : Word) : Hart :=
  h.tagLeaves t { h.ctl.tags[t] with st := .fault, prog := prog, cause := cause, addr := a }

/-- Tag `t` is BUSY with a page request. -/
def Hart.waitsPage (h : Hart) (t : Fin 64) : Bool :=
  h.ctl.tags[t].st == .busy && match h.ctl.tags[t].op with
    | some op => op.kind == .pgreq
    | none => false

/-- The tags that wait on a page request of a function complete (`none`) or fault with a cause (R41). -/
def State.endPageReq (s : State) (fn : Nat) (va : Word) (cause : Option (BitVec 8)) : State :=
  let f := s.fn fn
  match f.pr.reqs.find? (fun r => r.va == va) with
  | none => s
  | some r =>
    let s := s.modFn fn (fun f => { f with pr := { f.pr with reqs := f.pr.reqs.filter (fun q => q.va != va) } })
    (r.waiters.foldl (fun s (l, t) => s.modHarts (fun h => h.dest == l && h.waitsPage t) (fun h =>
      match cause with
      | none => h.tagDone t
      | some c => h.tagFault t 0 c (match h.ctl.tags[t].op with
        | some op => op.src
        | none => va))) s).flushReqs fn

end Sys2Proof.Machine

namespace Sys2Proof

/-! ## Causes (R194) -/

def Cause.code : Cause → BitVec 8
  | .illegal => 0x01 | .repRange => 0x02 | .brk => 0x03 | .misalign => 0x04 | .absent => 0x05 | .absentSt => 0x06
  | .protect => 0x07 | .format => 0x08 | .frozen => 0x09 | .partialBlock => 0x0A | .stride => 0x0B | .smeta => 0x0C
  | .stalePlan => 0x0D | .planCap => 0x0E | .clFull => 0x0F | .tagFault => 0x10 | .barScope => 0x11 | .queue => 0x12
  | .arith => 0x13 | .trap => 0x14 | .svc => 0x15 | .integrity => 0x16 | .hang => 0x17

/-- The causes marked U. -/
def Cause.user : Cause → Bool
  | .repRange => true | .misalign => true | .absent => true | .absentSt => true | .format => true | .frozen => true
  | .partialBlock => true | .stride => true | .smeta => true | .stalePlan => true | .planCap => true | .clFull => true
  | .tagFault => true | .arith => true | .trap => true
  | .illegal => false | .brk => false | .protect => false | .barScope => false | .queue => false | .svc => false
  | .integrity => false | .hang => false

def Subcode.code : Subcode → Word
  | .unassignedMajor => 0x01 | .unassignedFn => 0x02 | .form => 0x03 | .reserved => 0x04 | .lit => 0x05 | .lword => 0x06
  | .register => 0x07 | .chain => 0x08 | .mask => 0x09 | .pair => 0x0A | .repPrefix => 0x0B | .csr => 0x0C
  | .operand => 0x0D | .state => 0x0E | .planImage => 0x0F

/-- An immediate of the scalar class (R172). -/
def Imm.sval : Imm → Word
  | .short b => b.signExtend 64
  | .lit b => b.signExtend 64

end Sys2Proof

namespace Sys2Proof.Machine

/-- ILLEGAL with a subcode (R192). -/
def illegal (c : Subcode) : Trap := { cause := .illegal, info := c.code }

def trapOf (c : Cause) (info : Word) (start : Nat := 0) : Trap := { cause := c, info := info, start := start }

/-! ## Partition reset (R165, R166) -/

/-- The furrow belongs to the function's partition. -/
def Fn.hasFurrow (f : Fn) (furrow : Nat) : Bool := f.part.getLsbD furrow

/-- A progress pin of a hart other than `d` stands on the frame (R42). -/
def State.pinnedBesides (s : State) (d : Dest) (fr : Nat) : Bool :=
  s.harts.any (fun h => h.dest != d && h.ctl.pin == some fr)

/-- The progress pin of `h` stands no longer: the pin bit of its frame is cleared unless another hart's pin stands there (R42, R68). -/
def State.unpin (s : State) (h : Hart) : State :=
  match h.ctl.pin with
  | some fr =>
    if s.pinnedBesides h.dest fr then s else s.modMeta fr (fun m => { m with pin := false })
  | none => s

/-- Steps 1 to 3 of R165: the function's harts stop and everything they hold on cores and furrows is released; the memory services that the
firmware holds for them stay with the firmware. Log entry 9: DEDUCED; log entry 15: DEDUCED. -/
def State.dropFn (s : State) (n : Nat) : State :=
  let mine := fun (h : Hart) => h.live && h.place.fn == n
  let f := s.fn n
  let gone := s.harts.filter mine
  let ids := (s.sched.launches.filter (fun l => l.fn == n)).map Launch.id
  let s := { s with
    hart := if mine s.hart then Hart.absent else s.hart
    parked := s.parked.filter (fun h => !mine h) }
  let s := gone.foldl State.unpin s
  { s with
    cores := { s.cores with
      windows := s.cores.windows.filter (fun w => !ids.contains w.launch)
      rings := s.cores.rings.filter (fun r => !ids.contains r.launch)
      credits := s.cores.credits.filter (fun c => !f.hasFurrow (c.core / 8))
      net := s.cores.net.filter (fun m => !f.hasFurrow (furrowOf m.1.loc)) }
    sched := { s.sched with
      launches := s.sched.launches.filter (fun l => l.fn != n)
      crews := s.sched.crews.filter (fun c => !ids.contains c.launch) }
    fns := modFirst (fun g => g.num == n)
      (fun g => { g with
        pr := { g.pr with reqs := g.pr.reqs.map (fun r => { r with waiters := [] }) }
        rrNext := 0
        left := g.left ++ gone.filterMap (fun h => h.ctl.svc) })
      s.fns }

/-- The address of slot count `c` of a queue (R365). -/
def Queue.slotAddr (q : Queue) (c : BitVec 32) : Word := q.base + BitVec.ofNat 64 (64 * (c.toNat % max q.size.toNat 1))

/-- The record words of slot count `c` of a queue in memory (R365); none where memory refuses the read. -/
def State.slotWords (s : State) (f : Fn) (q : Queue) (c : BitVec 32) : Option (Vector Word 8) :=
  match s.agentRead f.ctx (q.slotAddr c) 64 with
  | none => none
  | some bs => some (Vector.ofFn (fun i => BitVec.ofNat 64 (leNat ((bs.drop (8 * i.val)).take 8))))

def checkpointBit (w : Vector Word 8) : Bool := wfield w[2] 57 1 == 1

/-- The count `c` lies at or after `j` and before `t`, counting modulo 2^32. -/
def inSpan (j t c : BitVec 32) : Bool := (c - j).toNat < (t - j).toNat

/-- Queue `q` stops with a code (R146): QSTAT and a QSTOP event. -/
def State.stopQueue (s : State) (n : Nat) (q : Fin 16) (code : Nat) (slot : BitVec 32) : State :=
  (s.modQueue n q (fun x => { x with stopped := true, code := code, slot := slot })).postEvent n
    ⟨2, code, q.val, slot.setWidth 64, 0, 0⟩

/-- The replay point J of a queue (R166). Log entry 15: DEDUCED. -/
def Queue.replayPoint (q : Queue) : BitVec 32 :=
  match q.fence with
  | some i => if q.done.contains i then i + 1 else i
  | none => q.start

/-- Replay or stop one queue after a partition reset (R166), also one that is stopped or disabled; `busy` tells whether its head record had
started. Of the records from J on those are submitted again of which the scheduler holds a copy: a copy that R148 had released before J moved
back is not there. Log entry 15: DEDUCED; log entry 23: DEDUCED. -/
def State.replayQueue (s : State) (n : Nat) (i : Fin 16) (busy : Bool) : State :=
  let f := s.fn n
  let q := f.queues[i]
  let j := q.replayPoint
  let clean := fun (x : Queue) => { x with headRec := none, ready := false, cur := none }
  if q.head == j && !busy then s.modQueue n i clean
  else
    let started := sortedBy (fun a b => (a.1 - j).toNat ≤ (b.1 - j).toNat) (q.copies.filter (fun c => inSpan j q.head c.1))
    let counts := (List.range (q.tail - q.head).toNat).map (fun k => q.head + BitVec.ofNat 32 k)
    let s := counts.foldl (fun s c => s.settleAt f.ctx (q.slotAddr c) 64) s
    let waiting := counts.map (s.slotWords f q)
    if q.plain.any (inSpan j q.head) || started.any (fun c => !checkpointBit c.2) || waiting.any (fun w => match w with
        | some w => !checkpointBit w
        | none => true) then
      (s.modQueue n i (fun x => { clean x with replay := [] })).stopQueue n i 5 j
    else if q.replayed == some j then (s.modQueue n i (fun x => { clean x with replay := [] })).stopQueue n i 6 j
    else s.modQueue n i (fun x => { clean x with replay := started, replayed := some j, stopped := false, done := x.done.filter (fun c =>
      !inSpan j q.head c) })

/-- A partition reset (R165): the harts of function `n` stop, what they hold is released, an error record names the
cause and the hart, and each queue is replayed or stopped. Log entry 15: DEDUCED. -/
def State.resetPartition (s : State) (n : Nat) (cause : Cause) (info : Word) (l : HartLoc) (pc : Word) : State :=
  let busy := (List.finRange 16).filter (fun q => (s.fn n).queues[q].cur.isSome)
  let s := (s.dropFn n).postEvent n ⟨3, cause.code.toNat, 0, info, l.setWidth 64, pc⟩
  (List.finRange 16).foldl (fun s q => s.replayQueue n q (busy.contains q)) s

/-! ## Taking an exception (R194, R324) -/

/-- The values that a trapped instruction is re-issued with, from its start index (R326, R327).
Log entry 12: DEDUCED. -/
def State.captured (s : State) (start : Nat) : Resume := { s.cur with start := start }

/-- The hart's progress pin is released (R42), if it holds one. -/
def State.releasePin (s : State) : State := (s.unpin s.hart).modCtl (fun c => { c with pin := none, pinAt := none })

/-- Where the hart stands: behind the record that it issues again, if there is one, else at its pc. -/
def State.contHere (s : State) : Cont :=
  match s.hart.ctl.aside with
  | some (_, c) => c
  | none => ⟨s.hart.ctl.pc, s.hart.ctl.rep, s.hart.csr.rpc⟩

/-- The oldest instruction that has not issued once the present one has (CONT of R326): the next word, or the next iteration of a repeat. -/
def State.contNext (s : State) : Cont :=
  match s.hart.ctl.aside with
  | some (_, c) => c
  | none => match s.hart.ctl.rep with
    | none => ⟨s.hart.ctl.next, none, s.hart.csr.rpc⟩
    | some r =>
      if r.count ≤ s.hart.csr.rpc.toNat + 1 then ⟨s.hart.ctl.next, none, 0⟩
      else ⟨s.hart.ctl.pc, some r, s.hart.csr.rpc + 1⟩

/-- The repeat and the iteration of the instruction that executes. -/
def State.iterNow (s : State) : Option Iter := s.hart.ctl.rep.map (fun r => (r, s.hart.csr.rpc.toNat))

/-- The vector slots of a pair word, which hold a sequencer entry each (R184); an F-word holds one. -/
def SeqEntry.slots (e : SeqEntry) : List (Option Bool) :=
  match e.instr, e.fl.slot with
  | .pairWord a b, none => [(a, some false), (b, some true)].filterMap (fun x => if x.1.isVector then some x.2 else none)
  | _, r => [r]

/-- The records of an entry that stops: one for each vector slot of a pair word (R184), else one (R326).
Log entry 40: DESIGN CHOICE. -/
def SeqEntry.flights (e : SeqEntry) : List Flight := e.slots.map (fun r => { e.fl with slot := r })

/-- The records of the vector instructions younger than the present one, oldest first: those in the sequencer's window, then those still
to be issued again (R324, R326, R327). -/
def Ctl.flights (c : Ctl) : List Flight := c.window.flatMap SeqEntry.flights ++ c.reissue

/-- The in-flight list of a trap; behind a store whose fault is found at its target comes the record that waits to issue again.
Log entry 14: DEDUCED. -/
def Ctl.trapList (c : Ctl) (atTarget : Bool) : List Flight :=
  if atTarget then c.window.flatMap SeqEntry.flights ++ c.aside.toList.map Prod.fst ++ c.reissue else c.flights

/-- CSR rpc as the handler finds it: the repeat's oldest iteration that has not completed (R188). -/
def oldestIter (t : Option Iter) (fs : List Flight) (rpc : Word) : Word :=
  match t <|> fs.findSome? Flight.iter with
  | some (_, j) => BitVec.ofNat 64 j
  | none => rpc

/-- The trap record of the instruction that executes, or of a store at its target (R324 to R326). -/
def State.trapRecord (s : State) (t : Trap) (epc : Word) (store : Option PendingStore) (issued : Bool) : TrapRec :=
  { pc := epc
    isTrap := t.cause = .trap
    store := store
    iter := match store with
      | some st => st.iter
      | none => s.iterNow
    cap := if issued || s.hart.ctl.aside.isSome then some (s.captured t.start) else none
    cont := if store.isSome || !issued then s.contHere else s.contNext
    list := s.hart.ctl.trapList store.isSome }

/-- Entry of the handler (R324): uepc, ucause, uinfo, uinfo2 and ustart are written and the pc goes to utvec. `pc` is
the address of the trapped instruction, `store` the store that URET issues again, and `issued` tells whether the
instruction had issued. The hart holds no sequencer entry any more: what was in flight stands in the record.
Log entry 14: DEDUCED. -/
def State.enterHandler (s : State) (t : Trap) (pc : Word) (store : Option PendingStore) (issued : Bool) : State :=
  let epc := if t.cause = .trap then s.hart.ctl.next else pc
  let r := s.trapRecord t epc store issued
  let csr : Csrs := { s.hart.csr with
    rpc := oldestIter r.iter r.list s.hart.csr.rpc
    uepc := epc
    ucause := t.cause.code
    uinfo := t.info
    uinfo2 := t.info2
    ustart := BitVec.ofNat 64 t.start }
  let ctl : Ctl := { s.hart.ctl with
    pc := s.hart.csr.utvec
    inHandler := true
    trapRec := some r
    rep := none
    resume := none
    window := []
    reissue := []
    aside := none
    begin := 0
    scat := none
    phase := .running }
  { s with hart := { s.hart with csr := csr, ctl := ctl } }

/-- Taking an exception of the hart whose turn it is (R164, R194): a cause marked U enters the handler when utvec is not
zero and the hart is not in its handler; every other one resets the partition. A progress pin goes if the element at the start index has
performed; else it stands, as R42 has it. Log entry 15: DEDUCED. -/
def State.takeTrap (s : State) (t : Trap) (pc : Word) (store : Option PendingStore) (issued : Bool) : State :=
  let s := if s.cur.start < t.start then s.releasePin else s
  if t.cause.user && s.hart.csr.utvec != 0 && !s.hart.ctl.inHandler then s.enterHandler t pc store issued
  else s.resetPartition s.hart.place.fn t.cause t.info s.hart.place.loc pc

/-- A trap of the instruction at the pc. -/
def State.deliver (s : State) (t : Trap) : State := s.takeTrap t s.hart.ctl.pc none true

/-- A trap that the instruction at the pc meets before it issues: a fetch fault (R28) or REP_RANGE (R187). A record that is
issued again keeps its start index. -/
def State.deliverEarly (s : State) (t : Trap) : State := s.takeTrap { t with start := s.cur.start } s.hart.ctl.pc none false

/-! ## How an instruction ends -/

/-- An instruction or a unit of it has performed: a progress pin is released, unless the hart is in its handler, where the instruction that
it is for waits (R42). Log entry 14: DEDUCED. -/
def State.pinUsed (s : State) : State := if s.hart.ctl.inHandler then s else s.releasePin

/-- A progress pin is for the hart's oldest instruction, so it stands while older instructions than the present one are in flight (R42). -/
def State.pinDone (s : State) : State :=
  if s.hart.ctl.window.isEmpty && s.hart.ctl.stores.isEmpty then s.pinUsed else s

/-- The instruction completes and the pc goes to `t`; within a repeat the next iteration follows at the same
address (R186, R188). Log entry 13: DEDUCED. -/
def State.retireTo (s : State) (t : Word) : State :=
  let s := s.pinDone
  match s.hart.ctl.rep with
  | none =>
    (s.modCsr (fun c => { c with inst := c.inst + 1 })).modCtl (fun c => { c with
      pc := t, resume := none, begin := 0, scat := none, phase := .running })
  | some r =>
    let j := s.hart.csr.rpc.toNat + 1
    if r.count ≤ j then
      (s.modCsr (fun c => { c with inst := c.inst + 1, rpc := 0 })).modCtl (fun c =>
        { c with pc := c.next, rep := none, resume := none, begin := 0, scat := none, phase := .running })
    else
      (s.modCsr (fun c => { c with inst := c.inst + 1, rpc := BitVec.ofNat 64 j })).modCtl (fun c =>
        { c with resume := none, begin := 0, scat := none, phase := .running })

/-- The instruction completes and the next one follows. -/
def State.retire (s : State) : State := s.retireTo s.hart.ctl.next

/-- The message a popped read took goes back to the head of the queue: the instruction that popped it starts again.
Log entry 12: DEDUCED. -/
def State.unpop (s s0 : State) : State :=
  s.modCtl (fun c => { c with mq := { c.mq with head := s0.hart.ctl.mq.head, msgs := s0.hart.ctl.mq.msgs } })

/-- The state `s0` with the message taken that `s` has taken: a trapped instruction keeps the value it popped (R326).
Log entry 12: DEDUCED. -/
def State.keepPop (s0 s : State) : State :=
  (s0.modCtl (fun c => { c with mq := s.hart.ctl.mq })).modRegs (fun g => { g with x := g.x.set 30 s.hart.regs.x[30] })

/-- The state an instruction that began at `s0` leaves. Log entry 12: DEDUCED. -/
def finish (s0 : State) (r : Res) : State :=
  match r with
  | .done s => s.retire
  | .jump t s => if t.toNat % 8 = 0 then s.retireTo t else (s0.keepPop s).deliver (trapOf .misalign t)
  | .wait s => (s.unpop s0).modCtl (fun c => { c with phase := .waiting })
  | .trap t s => s.deliver t

/-- The guard lets the F-word execute (R171); a re-issued instruction has passed its guard. -/
def guardOn (h : Hdr) (s : State) : Bool := s.hart.ctl.resume.isSome || s.g h.g != h.gn

/-! ## The interlock (R55, R286) -/

/-- Wait while an access of these spans meets a copy in flight. -/
def whenFree (s : State) (xs : List Span) (k : Res) : Res := if s.interlocked xs then .wait s else k

/-- Wait while one of these masks is held. -/
def whenMasks (s : State) (ks : List (Fin 8)) (k : Res) : Res := if ks.any s.maskHeld then .wait s else k

/-! ## The pop of x30 (R60, R178, R267) -/

def Csrs.mqEntries (c : Csrs) : Nat := wfield c.mqcfg 32 13
def Csrs.mqBase (c : Csrs) : Nat := wfield c.mqcfg 0 32

/-- Take the message at the head of the hart's queue: its bytes. QUEUE where the hart has no queue, a wait while it is
empty or while a copy of the hart holds its bytes (R55). -/
def popMsg (s : State) (k : List Byte → State → Res) : Res :=
  let c := s.hart.csr
  if c.mqEntries = 0 then .trap (trapOf .queue (s.loc.setWidth 64)) s
  else match s.hart.ctl.mq.msgs with
  | [] => .wait s
  | (n, _) :: r =>
    let off := c.mqBase + 256 * s.hart.ctl.mq.head
    whenFree s [(locAddr off, n)] <| k (s.myRead off n) (s.modCtl (fun t => { t with mq := { t.mq with head := (t.mq.head + 1) % c.mqEntries, msgs := r } }))

/-- If a source field names x30, pop once and let every such field read the first eight bytes (R178).
Log entry 12: DEDUCED. -/
def popFor (rs : List (Fin 32)) (s : State) (k : State → Res) : Res :=
  if rs.contains 30 then
    popMsg s (fun bs s => k (s.modRegs (fun g => { g with x := g.x.set 30 (BitVec.ofNat 64 (leNat (bs.take 8))) })))
  else k s

/-- An F-word: its guard, its pop, its effect; a re-issued one pops nothing again (R327). `rs` are the x registers it reads. -/
def issue (h : Hdr) (rs : List (Fin 32)) (s : State) (body : State → Res) : Out :=
  if guardOn h s then
    .next (finish s (if s.hart.ctl.resume.isSome then body s else popFor rs s body))
  else .next s.retire

/-- The result of a check: go on, or trap with the instruction's own detail. -/
def orTrap {α : Type} (s : State) (r : Except Trap α) (k : α → Res) : Res :=
  match r with
  | .error t => .trap t s
  | .ok a => k a

/-- ILLEGAL with subcode OPERAND unless the condition holds. -/
def needs (c : Bool) (sub : Subcode) (s : State) (k : Res) : Res := if c then k else .trap (illegal sub) s

end Sys2Proof.Machine
end

