-- ==== Sys2Proof/Machine/Flags.lean ====
section
/-! DEFINITION. The exception flags (R83 to R86) as instructions accumulate them, and the ARITH trap. -/

namespace Sys2Proof.Machine

/-- ARITH for the flags that an element group raised (R86). -/
def arithTrap (f : Flags) (start : Nat) : Trap := trapOf .arith (f.setWidth 64) start

/-- A scalar instruction, or an indivisible one, as one group of start index 0: ARITH if an enabled flag was raised, else
the flags accumulate and the result is written (R86). -/
def oneGroup (s : State) (f : Flags) (k : State → Res) : Res :=
  if s.enabled f then .trap (arithTrap f 0) s else k (s.accrue f)

end Sys2Proof.Machine
end

