-- ==== Sys2Proof/Machine/Salu.lean ====
section
/-! DEFINITION. Integer arithmetic (SALU, R198), comparisons and guards (SCMP, R199), moves (SMOV, R200) and scalar
floating point (SFP, R201). -/

namespace Sys2Proof.Machine

/-! ## The second operand -/

def srcRegs : Src → List (Fin 32)
  | .reg r => [r]
  | .imm _ => []

def State.src (s : State) : Src → Word
  | .reg r => s.x r
  | .imm i => i.sval

/-! ## SALU (R90, R198) -/

/-- xd := f(xa, y). -/
def salu (h : Hdr) (d a : Fin 32) (y : Src) (s : State) (f : Word → Word → Word) : Out :=
  issue h (a :: srcRegs y) s (fun s => .done (s.setX d (f (s.x a) (s.src y))))

/-- xd := f(xa). -/
def salu1 (h : Hdr) (d a : Fin 32) (s : State) (f : Word → Word) : Out :=
  issue h [a] s (fun s => .done (s.setX d (f (s.x a))))

def shamt (y : Word) : Nat := y.toNat % 64

/-- The signed quotient toward zero; all ones for a zero divisor (R90). -/
def sdivR {w : Nat} (a b : BitVec w) : BitVec w := if b = 0 then BitVec.allOnes w else BitVec.ofInt w (a.toInt.tdiv b.toInt)
def udivR {w : Nat} (a b : BitVec w) : BitVec w := if b = 0 then BitVec.allOnes w else a / b
/-- The remainder with the sign of the dividend; the dividend for a zero divisor (R90). -/
def sremR {w : Nat} (a b : BitVec w) : BitVec w := if b = 0 then a else BitVec.ofInt w (a.toInt.tmod b.toInt)
def uremR {w : Nat} (a b : BitVec w) : BitVec w := if b = 0 then a else a % b
def mulhR {w : Nat} (a b : BitVec w) : BitVec w := BitVec.ofInt w (a.toInt * b.toInt / 2 ^ w)
def mulhuR {w : Nat} (a b : BitVec w) : BitVec w := BitVec.ofNat w (a.toNat * b.toNat / 2 ^ w)
def sminR {w : Nat} (a b : BitVec w) : BitVec w := if b.slt a then b else a
def smaxR {w : Nat} (a b : BitVec w) : BitVec w := if a.slt b then b else a
def uminR {w : Nat} (a b : BitVec w) : BitVec w := if b.ult a then b else a
def umaxR {w : Nat} (a b : BitVec w) : BitVec w := if a.ult b then b else a

def clzR (a : Word) : Word := BitVec.ofNat 64 (64 - bitLen a.toNat)
/-- The lowest set bit among the first `n`, or `n`. -/
def lowestBit (x : Nat) : Nat → Nat → Nat
  | 0, i => i
  | n + 1, i => if x.testBit i then i else lowestBit x n (i + 1)
def ctzR (a : Word) : Word := BitVec.ofNat 64 (lowestBit a.toNat 64 0)
def popcount (n x : Nat) : Nat := (List.range n).countP (fun i => x.testBit i)
def popcR (a : Word) : Word := BitVec.ofNat 64 (popcount 64 a.toNat)

def execAdd (h : Hdr) (d a : Fin 32) (y : Src) (s : State) : Out := salu h d a y s (· + ·)
def execSub (h : Hdr) (d a : Fin 32) (y : Src) (s : State) : Out := salu h d a y s (· - ·)
def execAnd (h : Hdr) (d a : Fin 32) (y : Src) (s : State) : Out := salu h d a y s (· &&& ·)
def execOr (h : Hdr) (d a : Fin 32) (y : Src) (s : State) : Out := salu h d a y s (· ||| ·)
def execXor (h : Hdr) (d a : Fin 32) (y : Src) (s : State) : Out := salu h d a y s (· ^^^ ·)
def execSll (h : Hdr) (d a : Fin 32) (y : Src) (s : State) : Out := salu h d a y s (fun x y => x <<< shamt y)
def execSrl (h : Hdr) (d a : Fin 32) (y : Src) (s : State) : Out := salu h d a y s (fun x y => x >>> shamt y)
def execSra (h : Hdr) (d a : Fin 32) (y : Src) (s : State) : Out := salu h d a y s (fun x y => x.sshiftRight (shamt y))
def execMul (h : Hdr) (d a : Fin 32) (y : Src) (s : State) : Out := salu h d a y s (· * ·)
def execMulh (h : Hdr) (d a : Fin 32) (y : Src) (s : State) : Out := salu h d a y s mulhR
def execMulhu (h : Hdr) (d a : Fin 32) (y : Src) (s : State) : Out := salu h d a y s mulhuR
def execDiv (h : Hdr) (d a : Fin 32) (y : Src) (s : State) : Out := salu h d a y s sdivR
def execDivu (h : Hdr) (d a : Fin 32) (y : Src) (s : State) : Out := salu h d a y s udivR
def execRem (h : Hdr) (d a : Fin 32) (y : Src) (s : State) : Out := salu h d a y s sremR
def execRemu (h : Hdr) (d a : Fin 32) (y : Src) (s : State) : Out := salu h d a y s uremR
def execMin (h : Hdr) (d a : Fin 32) (y : Src) (s : State) : Out := salu h d a y s sminR
def execMax (h : Hdr) (d a : Fin 32) (y : Src) (s : State) : Out := salu h d a y s smaxR
def execMinu (h : Hdr) (d a : Fin 32) (y : Src) (s : State) : Out := salu h d a y s uminR
def execMaxu (h : Hdr) (d a : Fin 32) (y : Src) (s : State) : Out := salu h d a y s umaxR
def execClz (h : Hdr) (d a : Fin 32) (s : State) : Out := salu1 h d a s clzR
def execCtz (h : Hdr) (d a : Fin 32) (s : State) : Out := salu1 h d a s ctzR
def execPopc (h : Hdr) (d a : Fin 32) (s : State) : Out := salu1 h d a s popcR
def execAddsh (h : Hdr) (d a b : Fin 32) (sh : BitVec 3) (s : State) : Out :=
  issue h [a, b] s (fun s => .done (s.setX d (s.x a + s.x b <<< sh.toNat)))
def execRot (h : Hdr) (d a : Fin 32) (y : Src) (s : State) : Out := salu h d a y s (fun x y => x.rotateRight (shamt y))

/-! ## SCMP (R199) -/

/-- g[D] := the relation of xa and y. -/
def scmp (h : Hdr) (d : Fin 8) (a : Fin 32) (y : Src) (s : State) (f : Word → Word → Bool) : Out :=
  issue h (a :: srcRegs y) s (fun s => .done (s.setG d (f (s.x a) (s.src y))))

/-- g[D] := f(g[A], g[B]). -/
def gop (h : Hdr) (d a b : Fin 8) (s : State) (f : Bool → Bool → Bool) : Out :=
  issue h [] s (fun s => .done (s.setG d (f (s.g a) (s.g b))))

def execCeq (h : Hdr) (d : Fin 8) (a : Fin 32) (y : Src) (s : State) : Out := scmp h d a y s (fun x y => x == y)
def execCne (h : Hdr) (d : Fin 8) (a : Fin 32) (y : Src) (s : State) : Out := scmp h d a y s (fun x y => x != y)
def execClt (h : Hdr) (d : Fin 8) (a : Fin 32) (y : Src) (s : State) : Out := scmp h d a y s (fun x y => x.slt y)
def execCltu (h : Hdr) (d : Fin 8) (a : Fin 32) (y : Src) (s : State) : Out := scmp h d a y s (fun x y => x.ult y)
def execCge (h : Hdr) (d : Fin 8) (a : Fin 32) (y : Src) (s : State) : Out := scmp h d a y s (fun x y => !x.slt y)
def execCgeu (h : Hdr) (d : Fin 8) (a : Fin 32) (y : Src) (s : State) : Out := scmp h d a y s (fun x y => !x.ult y)
def execGand (h : Hdr) (d a b : Fin 8) (s : State) : Out := gop h d a b s (fun x y => x && y)
def execGor (h : Hdr) (d a b : Fin 8) (s : State) : Out := gop h d a b s (fun x y => x || y)
def execGxor (h : Hdr) (d a b : Fin 8) (s : State) : Out := gop h d a b s (fun x y => x != y)
def execGnot (h : Hdr) (d a : Fin 8) (s : State) : Out := issue h [] s (fun s => .done (s.setG d !(s.g a)))

/-! ## SMOV (R200) -/

/-- g7 … g0 as gget gives them. -/
def State.guards (s : State) : Word :=
  (List.finRange 8).foldl (fun w i => if s.g i then w ||| BitVec.twoPow 64 i.val else w) 0

/-- g1 … g7 from bits 1 to 7. -/
def State.setGuards (s : State) (w : Word) : State :=
  (List.finRange 8).foldl (fun s i => s.setG i (w.getLsbD i.val)) s

def execLi (h : Hdr) (d : Fin 32) (i : Imm) (s : State) : Out := issue h [] s (fun s => .done (s.setX d i.sval))
def execMv (h : Hdr) (d a : Fin 32) (s : State) : Out := issue h [a] s (fun s => .done (s.setX d (s.x a)))
/-- Log entry 39: DEDUCED. -/
def execAdr (h : Hdr) (d : Fin 32) (i : Imm) (s : State) : Out :=
  issue h [] s (fun s => .done (s.setX d (s.hart.ctl.pc + 8 * i.sval)))
def execSel (h : Hdr) (d a b : Fin 32) (n : BitVec 3) (s : State) : Out :=
  issue h [a, b] s (fun s => .done (s.setX d (if s.g n.toFin then s.x a else s.x b)))
def execGget (h : Hdr) (d : Fin 32) (s : State) : Out := issue h [] s (fun s => .done (s.setX d s.guards))
def execGput (h : Hdr) (a : Fin 32) (s : State) : Out := issue h [a] s (fun s => .done (s.setGuards (s.x a)))

/-! ## SFP (R201) -/

/-- The f32 value in bits 31:0 of a register. -/
def f32Of (w : Word) : FVal := specF32.decode (w.toNat % 2 ^ 32)

/-- xd := an f32 result, with its flags. -/
def State.putF32 (s : State) (d : Fin 32) (r : Nat × Flags) : Res :=
  oneGroup s r.2 (fun s => .done (s.setX d (BitVec.ofNat 64 r.1)))

def sfp2 (h : Hdr) (d a b : Fin 32) (s : State) (f : BitVec 2 → FVal → FVal → Nat × Flags) : Out :=
  issue h [a, b] s (fun s => s.putF32 d (f s.hart.csr.frm (f32Of (s.x a)) (f32Of (s.x b))))

def sfpMin (h : Hdr) (d a b : Fin 32) (s : State) (wantMax : Bool) : Out :=
  issue h [a, b] s (fun s => s.putF32 d (fMinMax specF32 wantMax ((s.x a).toNat % 2 ^ 32) ((s.x b).toNat % 2 ^ 32)))

def sfpCmp (h : Hdr) (d : Fin 8) (a b : Fin 32) (s : State) (r : FRel) : Out :=
  issue h [a, b] s (fun s =>
    let v := r.eval (f32Of (s.x a)) (f32Of (s.x b))
    oneGroup s v.2 (fun s => .done (s.setG d v.1)))

def execFadd (h : Hdr) (d a b : Fin 32) (s : State) : Out := sfp2 h d a b s (fAdd specF32)
def execFsub (h : Hdr) (d a b : Fin 32) (s : State) : Out := sfp2 h d a b s (fSub specF32)
def execFmul (h : Hdr) (d a b : Fin 32) (s : State) : Out := sfp2 h d a b s (fMul specF32)
def execFdiv (h : Hdr) (d a b : Fin 32) (s : State) : Out := sfp2 h d a b s (fDiv specF32)
def execFma (h : Hdr) (d a b : Fin 32) (s : State) : Out :=
  issue h [a, b, d] s (fun s =>
    s.putF32 d (fFma specF32 s.hart.csr.frm (f32Of (s.x a)) (f32Of (s.x b)) (f32Of (s.x d))))
def execFmin (h : Hdr) (d a b : Fin 32) (s : State) : Out := sfpMin h d a b s false
def execFmax (h : Hdr) (d a b : Fin 32) (s : State) : Out := sfpMin h d a b s true
def execFsqrt (h : Hdr) (d a : Fin 32) (s : State) : Out :=
  issue h [a] s (fun s => s.putF32 d (fSqrt specF32 s.hart.csr.frm (f32Of (s.x a))))
def execFcvtw (h : Hdr) (d a : Fin 32) (s : State) : Out :=
  issue h [a] s (fun s => s.putF32 d ((f32Of (s.x a)).toIntFmt s.hart.csr.frm true 64))
def execFcvtf (h : Hdr) (d a : Fin 32) (s : State) : Out :=
  issue h [a] s (fun s => s.putF32 d (specF32.round false s.hart.csr.frm (.ofInt (s.x a).toInt)))
def execFclt (h : Hdr) (d : Fin 8) (a b : Fin 32) (s : State) : Out := sfpCmp h d a b s .lt
def execFceq (h : Hdr) (d : Fin 8) (a b : Fin 32) (s : State) : Out := sfpCmp h d a b s .eq
def execFcle (h : Hdr) (d : Fin 8) (a b : Fin 32) (s : State) : Out := sfpCmp h d a b s .le

end Sys2Proof.Machine
end

