-- ==== Sys2Proof/Machine/ScalarMem.lean ====
section
/-! DEFINITION. Scalar loads and stores (R202, R203), atomics (R204 to R207), branches and jumps (R208). -/

namespace Sys2Proof.Machine

/-! ## One element of at most 8 bytes -/

/-- Steps 1 and 2 of R22 for a scalar access of `n` bytes. Log entry 9: DEDUCED. -/
def State.scalarIssueFault (s : State) (a : Word) (n : Nat) (write : Bool) : Option Cause :=
  let aligned := a.toNat % n = 0
  match classOf a with
  | .none => some .protect
  | .virt => if aligned then none else some .misalign
  | .sys => if aligned then none else some .misalign
  | .loc =>
    if s.myWindow ≤ offsetOf a then some .protect
    else if write && s.liveRecord s.core s.hart.place.launch (offsetOf a) n then some .protect
    else if aligned then none else some .misalign
  | .frw c =>
    if write || s.windowSize (furrowOf s.loc * 8 + c) s.hart.place.launch ≤ offsetOf a then some .protect
    else if aligned then none else some .misalign

/-- A scalar read of `n` bytes: the bytes, and the state after pending contributions of the line were applied. -/
def State.scalarRead (s : State) (a : Word) (n : Nat) : Except Cause (List Byte × State) :=
  match s.scalarIssueFault a n false with
  | some c => .error c
  | none =>
    match padCore s.loc a with
    | some core => .ok (s.padRead core s.hart.place.launch (offsetOf a) n, s)
    | none =>
      match s.translate s.ctx a Need.load (fun _ => false) with
      | .error c => .error c
      | .ok p =>
        match s.viewFault p false with
        | some c => .error c
        | none => let s := s.settle p.frame p.off n; .ok (s.viewRead p n, s)

/-- Steps 3 to 7 of R22 for a scalar store that has reached its target, and the store itself. Log entry 9: DEDUCED. -/
def State.storePerform (s : State) (st : PendingStore) : Except Cause State :=
  let bs := leBytes st.n st.data.toNat
  match padCore s.loc st.addr with
  | some core => .ok (s.padWrite core s.hart.place.launch (offsetOf st.addr) bs)
  | none =>
    match s.translate s.ctx st.addr Need.store (fun _ => false) with
    | .error c => .error c
    | .ok p =>
      match s.viewFault p true with
      | some c => .error c
      | none =>
        if entFMT p.e = 11 then .error .partialBlock
        else .ok ((s.settle p.frame p.off st.n).viewWrite p bs)

/-! ## Loads (R202, R203) -/

/-- xd := the extension of the `n` bytes at `a`. -/
def scalarLoad (s : State) (d : Fin 32) (a : Word) (n : Nat) (signed : Bool) : Res :=
  whenFree s [(a, n)] <|
    match s.scalarRead a n with
    | .error c => .trap (trapOf c a) s
    | .ok (bs, s) =>
      .done (s.setX d (BitVec.ofInt 64 (intOf signed (8 * n) (leNat bs))))

def loadOp (h : Hdr) (d a : Fin 32) (i : Imm) (s : State) (n : Nat) (signed : Bool) : Out :=
  issue h [a] s (fun s => scalarLoad s d (s.x a + i.sval) n signed)

def execLb (h : Hdr) (d a : Fin 32) (i : Imm) (s : State) : Out := loadOp h d a i s 1 true
def execLbu (h : Hdr) (d a : Fin 32) (i : Imm) (s : State) : Out := loadOp h d a i s 1 false
def execLh (h : Hdr) (d a : Fin 32) (i : Imm) (s : State) : Out := loadOp h d a i s 2 true
def execLhu (h : Hdr) (d a : Fin 32) (i : Imm) (s : State) : Out := loadOp h d a i s 2 false
def execLw (h : Hdr) (d a : Fin 32) (i : Imm) (s : State) : Out := loadOp h d a i s 4 true
def execLwu (h : Hdr) (d a : Fin 32) (i : Imm) (s : State) : Out := loadOp h d a i s 4 false
def execLd (h : Hdr) (d a : Fin 32) (i : Imm) (s : State) : Out := loadOp h d a i s 8 false
/-- The acquire (R128) orders nothing more in a model that performs accesses in program order. Log entry 8: DEDUCED. -/
def execLdacq (h : Hdr) (d a : Fin 32) (_sc : Scope) (s : State) : Out :=
  issue h [a] s (fun s => scalarLoad s d (s.x a) 8 false)

/-! ## Stores -/

/-- A store issues: steps 1 and 2 are made now, and its unit is on its way (R203). -/
def scalarStore (s : State) (a : Word) (n : Nat) (v : Word) : Res :=
  whenFree s [(a, n)] <|
    match s.scalarIssueFault a n true with
    | some c => .trap (trapOf c a) s
    | none =>
      let iter := s.hart.ctl.rep.map (fun r => (r, s.hart.csr.rpc.toNat))
      .done ((s.noteStore (a, n)).modCtl (fun c => { c with stores := c.stores ++ [⟨a, n, v, c.pc, iter⟩] }))

def storeOp (h : Hdr) (d a : Fin 32) (i : Imm) (s : State) (n : Nat) : Out :=
  issue h [a, d] s (fun s => scalarStore s (s.x a + i.sval) n (s.x d))

def execSb (h : Hdr) (d a : Fin 32) (i : Imm) (s : State) : Out := storeOp h d a i s 1
def execSh (h : Hdr) (d a : Fin 32) (i : Imm) (s : State) : Out := storeOp h d a i s 2
def execSw (h : Hdr) (d a : Fin 32) (i : Imm) (s : State) : Out := storeOp h d a i s 4
def execSd (h : Hdr) (d a : Fin 32) (i : Imm) (s : State) : Out := storeOp h d a i s 8
/-- The release (R128) follows the agent's earlier accesses, which have performed when it issues.
Log entry 8: DEDUCED. -/
def execStrel (h : Hdr) (d a : Fin 32) (_sc : Scope) (s : State) : Out :=
  issue h [a, d] s (fun s => scalarStore s (s.x a) 8 (s.x d))

/-! ## Atomics (R204 to R207) -/

def amoBytes (o : AmoOpts) : Nat := if o.word then 4 else 8

/-- The read-modify-write of an AMO at its target: old bytes, and the state with the new ones written when `f` gives some. -/
def State.amoAt (s : State) (a : Word) (n : Nat) (f : Nat → Option Nat) : Except Cause (Nat × State) :=
  match s.scalarIssueFault a n true with
  | some c => .error c
  | none =>
    match padCore s.loc a with
    | some core =>
      let old := leNat (s.padRead core s.hart.place.launch (offsetOf a) n)
      match f old with
      | some v => .ok (old, s.padWrite core s.hart.place.launch (offsetOf a) (leBytes n v))
      | none => .ok (old, s)
    | none =>
      match s.translate s.ctx a Need.amo (fun _ => false) with
      | .error c => .error c
      | .ok p =>
        if (s.pmeta p.frame).state = 3 then .error .integrity
        else if 6 ≤ entFMT p.e then .error .format
        else
          let s := s.settle p.frame p.off n
          let old := s.rawNat p.frame p.off n
          match f old with
          | some v => .ok (old, s.viewWrite p (leBytes n v))
          | none => .ok (old, s)

/-- An AMO whose new value is `f old y`, on values of `n` bytes. -/
def amoOp (h : Hdr) (d a b : Fin 32) (o : AmoOpts) (s : State) (f : (w : Nat) → BitVec w → BitVec w → BitVec w) : Out :=
  issue h [a, b] s (fun s =>
    let n := amoBytes o
    let w := 8 * n
    whenFree s [(s.x a, n)] <|
      match s.amoAt (s.x a) n (fun old => some (f w (BitVec.ofNat w old) ((s.x b).setWidth w)).toNat) with
      | .error c => .trap (trapOf c (s.x a)) s
      | .ok (old, t) => .done ((t.noteStore (s.x a, n)).setX d (BitVec.ofInt 64 (intOf true w old))))

/-- The new value of a returning atomic of `w` bits, if it writes one (R206). -/
def amoNew (o : AmoOp) (w old b c : Nat) : Option Nat :=
  let x := BitVec.ofNat w old
  let y := BitVec.ofNat w b
  match o with
  | .add => some (x + y).toNat
  | .swap => some y.toNat
  | .cas => if old = c % 2 ^ w then some y.toNat else none
  | .min => some (sminR x y).toNat
  | .max => some (smaxR x y).toNat
  | .minu => some (uminR x y).toNat
  | .maxu => some (umaxR x y).toNat
  | .and => some (x &&& y).toNat
  | .or => some (x ||| y).toNat
  | .xor => some (x ^^^ y).toNat

def execAmoadd (h : Hdr) (d a b : Fin 32) (o : AmoOpts) (s : State) : Out := amoOp h d a b o s (fun _ x y => x + y)
def execAmoswap (h : Hdr) (d a b : Fin 32) (o : AmoOpts) (s : State) : Out := amoOp h d a b o s (fun _ _ y => y)
/-- The write happens only when the old value equals xd as it stood before (R206). -/
def execAmocas (h : Hdr) (d a b : Fin 32) (o : AmoOpts) (s : State) : Out :=
  issue h [a, b, d] s (fun s =>
    let n := amoBytes o
    let w := 8 * n
    whenFree s [(s.x a, n)] <|
      match s.amoAt (s.x a) n (fun old =>
          if old = (s.x d).toNat % 2 ^ w then some ((s.x b).toNat % 2 ^ w) else none) with
      | .error c => .trap (trapOf c (s.x a)) s
      | .ok (old, t) =>
        let t := if old = (s.x d).toNat % 2 ^ w then t.noteStore (s.x a, n) else t
        .done (t.setX d (BitVec.ofInt 64 (intOf true w old))))
def execAmomin (h : Hdr) (d a b : Fin 32) (o : AmoOpts) (s : State) : Out := amoOp h d a b o s (fun _ x y => sminR x y)
def execAmomax (h : Hdr) (d a b : Fin 32) (o : AmoOpts) (s : State) : Out := amoOp h d a b o s (fun _ x y => smaxR x y)
def execAmominu (h : Hdr) (d a b : Fin 32) (o : AmoOpts) (s : State) : Out := amoOp h d a b o s (fun _ x y => uminR x y)
def execAmomaxu (h : Hdr) (d a b : Fin 32) (o : AmoOpts) (s : State) : Out := amoOp h d a b o s (fun _ x y => umaxR x y)
def execAmoand (h : Hdr) (d a b : Fin 32) (o : AmoOpts) (s : State) : Out := amoOp h d a b o s (fun _ x y => x &&& y)
def execAmoor (h : Hdr) (d a b : Fin 32) (o : AmoOpts) (s : State) : Out := amoOp h d a b o s (fun _ x y => x ||| y)
def execAmoxor (h : Hdr) (d a b : Fin 32) (o : AmoOpts) (s : State) : Out := amoOp h d a b o s (fun _ x y => x ^^^ y)

/-! ## Branches and jumps (R208) -/

/-- The target of a PC-relative branch. -/
def State.target (s : State) (i : Imm) : Word := s.hart.ctl.pc + 8 * i.sval

def execBr (h : Hdr) (i : Imm) (s : State) : Out := issue h [] s (fun s => .jump (s.target i) s)
def execJal (h : Hdr) (i : Imm) (s : State) : Out :=
  issue h [] s (fun s => .jump (s.target i) (s.setX 1 s.hart.ctl.next))
def execJr (h : Hdr) (a : Fin 32) (s : State) : Out := issue h [a] s (fun s => .jump (s.x a) s)
def execJalr (h : Hdr) (d a : Fin 32) (s : State) : Out :=
  issue h [a] s (fun s => .jump (s.x a) (s.setX d s.hart.ctl.next))
/-- The branch is decided by the value computed, also where D is x0. Log entry 34: DEDUCED. -/
def execBdec (h : Hdr) (d : Fin 32) (i : Imm) (s : State) : Out :=
  issue h [d] s (fun s =>
    let v := s.x d - 1
    if v = 0 then .done (s.setX d v) else .jump (s.target i) (s.setX d v))

end Sys2Proof.Machine
end

