-- ==== Sys2Proof/Machine/Operands.lean ====
section
/-! DEFINITION. The operand forms of the vector instructions (R172, R177, R179, R226 to R229): sources, immediates,
groups, the element loops and the element groups at which flags are raised. -/

namespace Sys2Proof.Machine

/-! ## Sources -/

def vsrcRegs : VSrc → List (Fin 32)
  | .vec _ => []
  | .x r => [r]
  | .imm _ => []

def posRegs : PosSrc → List (Fin 32)
  | .x r => [r]
  | .imm _ => []

/-- The immediate as an element of a format (R172). -/
def immElt (f : Fmt) (i : Imm) : Nat :=
  match f.spec with
  | none => i.sval.toNat % 2 ^ f.width
  | some p =>
    match i with
    | .short b => (p.round true 0 (specBf16.decode b.toNat)).1
    | .lit b => (p.round true 0 (specF32.decode (b.toNat % 2 ^ 32))).1

/-- Element `i` of the second operand (R236). -/
def State.vsrc (s : State) (b : VSrc) (w i : Nat) : Nat :=
  match b with
  | .vec v => s.elt v.r w i
  | .x r => (s.x r).toNat % 2 ^ w
  | .imm m => immElt s.vt.fmt m

/-- A position or count (R226): unsigned. -/
def State.pos (s : State) (n : PosSrc) : Nat :=
  match n with
  | .x r => (s.x r).toNat
  | .imm i => i.sval.toNat

/-- The register that a vector source names. -/
def vsrcVec : VSrc → List (Fin 64)
  | .vec v => [v.r]
  | .x _ => []
  | .imm _ => []

/-! ## Checks at execution -/

/-- A group of `g` registers starts at `r` (R177). Log entry 34: DEDUCED. -/
def aligned (g : Nat) (r : Fin 64) : Bool := r.val % g == 0

/-- The register groups are aligned, else ILLEGAL with subcode REGISTER; then the vtype format suits the family, else subcode
OPERAND (R177, R192, R227). Log entry 34: DEDUCED. -/
def vcheck (s : State) (ok : Fmt → Bool) (vs : List (Fin 64)) (k : Res) : Res :=
  needs (vs.all (aligned s.vt.size)) .register s (needs (ok s.vt.fmt) .operand s k)

def anyFmt (_ : Fmt) : Bool := true

/-- The registers of groups `[a, a + n)` and `[b, b + m)` meet. Log entry 34: DEDUCED. -/
def groupsMeet (a : Fin 64) (n : Nat) (b : Fin 64) (m : Nat) : Bool := a.val < b.val + m && b.val < a.val + n

/-! ## Element loops -/

/-- A step for every element from the start index to vl, ascending. -/
def State.overElts (s : State) (f : State → Nat → State) : State :=
  (List.range s.vl).foldl (fun t i => if i < s.cur.start then t else f t i) s

/-- Elements of an element group whose widest elements have `w` bits (R227). -/
def perGroup (w : Nat) : Nat := 256 / w

/-- The elements of one group: the state and the flags they raise together. -/
def groupStep (f : State → Nat → State × Flags) (s : State) (is : List Nat) : State × Flags :=
  is.foldl (fun (t : State × Flags) i => let r := f t.1 i; (r.1, t.2 ||| r.2)) (s, 0)

/-- `n` element groups of `per` elements from group `g` on: each raises its flags together, and ARITH is precise at
the group (R86). -/
def groupsFrom (per vl start : Nat) (f : State → Nat → State × Flags) : Nat → Nat → State → Res
  | 0, _, s => .done s
  | n + 1, g, s =>
    let is := ((List.range per).map (g * per + ·)).filter (fun i => start ≤ i && i < vl)
    let (t, fl) := groupStep f s is
    if s.enabled fl then .trap (arithTrap fl (g * per)) s
    else groupsFrom per vl start f n (g + 1) (t.accrue fl)

/-- An element-wise instruction that sets flags, group by group. -/
def byGroups (s : State) (w : Nat) (f : State → Nat → State × Flags) : Res :=
  let n := s.turnEnd s.vl
  groupsFrom (perGroup w) n s.cur.start f ((n + perGroup w - 1) / perGroup w) 0 s

/-- What follows a completed instruction. -/
def Res.andThen (r : Res) (f : State → State) : Res :=
  match r with
  | .done s => .done (f s)
  | .jump t s => .jump t (f s)
  | .wait s => .wait s
  | .trap t s => .trap t s

/-- A new vtype, as conversions leave it. -/
def State.setVtype (s : State) (t : VType) : State := s.modCsr (fun c => { c with vtype := t })

def State.setVl (s : State) (n : Nat) : State := s.modCsr (fun c => { c with vl := n })

end Sys2Proof.Machine
end

