-- ==== Sys2Proof/Machine/Vint.lean ====
section
/-! DEFINITION. Integer vector arithmetic (VINT, R236), integer compares (VICMP, R237) and the mask instructions
(VMASK, R241). -/

namespace Sys2Proof.Machine

/-- An operation on words of a width, on numbers. -/
def bvop (f : (w : Nat) → BitVec w → BitVec w → BitVec w) (w a b : Nat) : Nat :=
  (f w (BitVec.ofNat w a) (BitVec.ofNat w b)).toNat

/-- elt(vd, i) := f(elt(va, i), b) for each active i (R236). -/
def vint (h : Hdr) (d : Fin 64) (a : CVec) (b : VSrc) (m : Fin 8) (s : State) (ok : Fmt → Bool)
    (f : (w : Nat) → Nat → Nat → Nat) : Out :=
  issue h (vsrcRegs b) s (fun s =>
    whenMasks s [m] <| vcheck s ok (d :: a.r :: vsrcVec b) <|
      let w := s.vt.fmt.width
      .done (s.overElts (fun t i =>
        if s.active m i then t.setElt d w i (f w (t.elt a.r w i) (t.vsrc b w i)) else t)))

/-- Saturating addition and subtraction (R90, R236). -/
def satOp (signed sub : Bool) (w a b : Nat) : Nat :=
  let x := intOf signed w a
  let y := intOf signed w b
  wrap w (clampInt (intMin signed w) (intMax signed w) (if sub then x - y else x + y))

def execVadd (h : Hdr) (d : Fin 64) (a : CVec) (b : VSrc) (m : Fin 8) (s : State) : Out :=
  vint h d a b m s Fmt.isInt (bvop (fun _ x y => x + y))
def execVsub (h : Hdr) (d : Fin 64) (a : CVec) (b : VSrc) (m : Fin 8) (s : State) : Out :=
  vint h d a b m s Fmt.isInt (bvop (fun _ x y => x - y))
def execVrsub (h : Hdr) (d : Fin 64) (a : CVec) (b : VSrc) (m : Fin 8) (s : State) : Out :=
  vint h d a b m s Fmt.isInt (bvop (fun _ x y => y - x))
def execVand (h : Hdr) (d : Fin 64) (a : CVec) (b : VSrc) (m : Fin 8) (s : State) : Out :=
  vint h d a b m s anyFmt (bvop (fun _ x y => x &&& y))
def execVor (h : Hdr) (d : Fin 64) (a : CVec) (b : VSrc) (m : Fin 8) (s : State) : Out :=
  vint h d a b m s anyFmt (bvop (fun _ x y => x ||| y))
def execVxor (h : Hdr) (d : Fin 64) (a : CVec) (b : VSrc) (m : Fin 8) (s : State) : Out :=
  vint h d a b m s anyFmt (bvop (fun _ x y => x ^^^ y))
def execVsll (h : Hdr) (d : Fin 64) (a : CVec) (b : VSrc) (m : Fin 8) (s : State) : Out :=
  vint h d a b m s Fmt.isInt (bvop (fun w x y => x <<< (y.toNat % w)))
def execVsrl (h : Hdr) (d : Fin 64) (a : CVec) (b : VSrc) (m : Fin 8) (s : State) : Out :=
  vint h d a b m s Fmt.isInt (bvop (fun w x y => x >>> (y.toNat % w)))
def execVsra (h : Hdr) (d : Fin 64) (a : CVec) (b : VSrc) (m : Fin 8) (s : State) : Out :=
  vint h d a b m s Fmt.isInt (bvop (fun w x y => x.sshiftRight (y.toNat % w)))
def execVmul (h : Hdr) (d : Fin 64) (a : CVec) (b : VSrc) (m : Fin 8) (s : State) : Out :=
  vint h d a b m s Fmt.isInt (bvop (fun _ x y => x * y))
def execVmulh (h : Hdr) (d : Fin 64) (a : CVec) (b : VSrc) (m : Fin 8) (s : State) : Out :=
  vint h d a b m s Fmt.isInt (bvop (fun _ x y => mulhR x y))
def execVmulhu (h : Hdr) (d : Fin 64) (a : CVec) (b : VSrc) (m : Fin 8) (s : State) : Out :=
  vint h d a b m s Fmt.isInt (bvop (fun _ x y => mulhuR x y))
def execVdiv (h : Hdr) (d : Fin 64) (a : CVec) (b : VSrc) (m : Fin 8) (s : State) : Out :=
  vint h d a b m s Fmt.isInt (bvop (fun _ x y => sdivR x y))
def execVdivu (h : Hdr) (d : Fin 64) (a : CVec) (b : VSrc) (m : Fin 8) (s : State) : Out :=
  vint h d a b m s Fmt.isInt (bvop (fun _ x y => udivR x y))
def execVrem (h : Hdr) (d : Fin 64) (a : CVec) (b : VSrc) (m : Fin 8) (s : State) : Out :=
  vint h d a b m s Fmt.isInt (bvop (fun _ x y => sremR x y))
def execVremu (h : Hdr) (d : Fin 64) (a : CVec) (b : VSrc) (m : Fin 8) (s : State) : Out :=
  vint h d a b m s Fmt.isInt (bvop (fun _ x y => uremR x y))
def execVmin (h : Hdr) (d : Fin 64) (a : CVec) (b : VSrc) (m : Fin 8) (s : State) : Out :=
  vint h d a b m s Fmt.isInt (bvop (fun _ x y => sminR x y))
def execVmax (h : Hdr) (d : Fin 64) (a : CVec) (b : VSrc) (m : Fin 8) (s : State) : Out :=
  vint h d a b m s Fmt.isInt (bvop (fun _ x y => smaxR x y))
def execVminu (h : Hdr) (d : Fin 64) (a : CVec) (b : VSrc) (m : Fin 8) (s : State) : Out :=
  vint h d a b m s Fmt.isInt (bvop (fun _ x y => uminR x y))
def execVmaxu (h : Hdr) (d : Fin 64) (a : CVec) (b : VSrc) (m : Fin 8) (s : State) : Out :=
  vint h d a b m s Fmt.isInt (bvop (fun _ x y => umaxR x y))
def execVsadd (h : Hdr) (d : Fin 64) (a : CVec) (b : VSrc) (m : Fin 8) (s : State) : Out :=
  vint h d a b m s Fmt.isInt (satOp true false)
def execVsaddu (h : Hdr) (d : Fin 64) (a : CVec) (b : VSrc) (m : Fin 8) (s : State) : Out :=
  vint h d a b m s Fmt.isInt (satOp false false)
def execVssub (h : Hdr) (d : Fin 64) (a : CVec) (b : VSrc) (m : Fin 8) (s : State) : Out :=
  vint h d a b m s Fmt.isInt (satOp true true)
def execVssubu (h : Hdr) (d : Fin 64) (a : CVec) (b : VSrc) (m : Fin 8) (s : State) : Out :=
  vint h d a b m s Fmt.isInt (satOp false true)
def execVabs (h : Hdr) (d : Fin 64) (a : CVec) (m : Fin 8) (s : State) : Out :=
  vint h d a (.vec a) m s Fmt.isInt (fun w x _ => wrap w (intOf true w x).natAbs)

/-- Element `i` of vmv's operand: A in FORM 00, B as an x register or the immediate otherwise. -/
def State.vmvElt (s : State) (b : VmvSrc) (w i : Nat) : Nat :=
  match b with
  | .vec v => s.elt v.r w i
  | .x r => (s.x r).toNat % 2 ^ w
  | .imm m => immElt s.vt.fmt m

def vmvRegs : VmvSrc → List (Fin 32)
  | .vec _ => []
  | .x r => [r]
  | .imm _ => []

def vmvVec : VmvSrc → List (Fin 64)
  | .vec v => [v.r]
  | .x _ => []
  | .imm _ => []

def execVmv (h : Hdr) (d : Fin 64) (b : VmvSrc) (m : Fin 8) (s : State) : Out :=
  issue h (vmvRegs b) s (fun s =>
    whenMasks s [m] <| vcheck s anyFmt (d :: vmvVec b) <|
      let w := s.vt.fmt.width
      .done (s.overElts (fun t i => if s.active m i then t.setElt d w i (t.vmvElt b w i) else t)))

/-- Written for every i < vl: b where the mask bit is set, else a. -/
def execVmerge (h : Hdr) (d : Fin 64) (a : CVec) (b : VSrc) (m : Fin 8) (s : State) : Out :=
  issue h (vsrcRegs b) s (fun s =>
    whenMasks s [m] <| vcheck s anyFmt (d :: a.r :: vsrcVec b) <|
      let w := s.vt.fmt.width
      .done (s.overElts (fun t i => t.setElt d w i (if s.kbit m i then t.vsrc b w i else t.elt a.r w i))))

def execVid (h : Hdr) (d : Fin 64) (m : Fin 8) (s : State) : Out :=
  issue h [] s (fun s =>
    whenMasks s [m] <| vcheck s Fmt.isInt [d] <|
      let w := s.vt.fmt.width
      .done (s.overElts (fun t i => if s.active m i then t.setElt d w i i else t)))

/-! ## VICMP (R237) -/

/-- bit i of kd := the relation of elt(va, i) and b, for each active i; the operation mask is read before a bit of it is
written (R228). -/
def vicmp (h : Hdr) (d : Fin 8) (a : CVec) (b : VSrc) (m : Fin 8) (s : State) (f : (w : Nat) → Nat → Nat → Bool) : Out :=
  issue h (vsrcRegs b) s (fun s =>
    whenMasks s [m, d] <| vcheck s Fmt.isInt (a.r :: vsrcVec b) <|
      let w := s.vt.fmt.width
      .done (s.overElts (fun t i =>
        if s.active m i then t.setKbit d i (f w (t.elt a.r w i) (t.vsrc b w i)) else t)))

/-- A relation of signed or unsigned values. -/
def intRel (signed : Bool) (r : Int → Int → Bool) (w a b : Nat) : Bool := r (intOf signed w a) (intOf signed w b)

def execVseq (h : Hdr) (d : Fin 8) (a : CVec) (b : VSrc) (m : Fin 8) (s : State) : Out :=
  vicmp h d a b m s (intRel true (fun x y => x == y))
def execVsne (h : Hdr) (d : Fin 8) (a : CVec) (b : VSrc) (m : Fin 8) (s : State) : Out :=
  vicmp h d a b m s (intRel true (fun x y => x != y))
def execVslt (h : Hdr) (d : Fin 8) (a : CVec) (b : VSrc) (m : Fin 8) (s : State) : Out :=
  vicmp h d a b m s (intRel true (fun x y => x < y))
def execVsltu (h : Hdr) (d : Fin 8) (a : CVec) (b : VSrc) (m : Fin 8) (s : State) : Out :=
  vicmp h d a b m s (intRel false (fun x y => x < y))
def execVsle (h : Hdr) (d : Fin 8) (a : CVec) (b : VSrc) (m : Fin 8) (s : State) : Out :=
  vicmp h d a b m s (intRel true (fun x y => x ≤ y))
def execVsleu (h : Hdr) (d : Fin 8) (a : CVec) (b : VSrc) (m : Fin 8) (s : State) : Out :=
  vicmp h d a b m s (intRel false (fun x y => x ≤ y))
def execVsgt (h : Hdr) (d : Fin 8) (a : CVec) (b : VSrc) (m : Fin 8) (s : State) : Out :=
  vicmp h d a b m s (intRel true (fun x y => y < x))
def execVsgtu (h : Hdr) (d : Fin 8) (a : CVec) (b : VSrc) (m : Fin 8) (s : State) : Out :=
  vicmp h d a b m s (intRel false (fun x y => y < x))

/-! ## VMASK (R241) -/

/-- bit i of kd := f(bit i of ka, bit i of kb). -/
def kop (h : Hdr) (d : Fin 8) (a b : CMask) (s : State) (f : Bool → Bool → Bool) : Out :=
  issue h [] s (fun s => whenMasks s [d, a.r, b.r] <|
    .done (s.overElts (fun t i => t.setKbit d i (f (t.kbit a.r i) (t.kbit b.r i)))))

def execKand (h : Hdr) (d : Fin 8) (a b : CMask) (s : State) : Out := kop h d a b s (fun x y => x && y)
def execKor (h : Hdr) (d : Fin 8) (a b : CMask) (s : State) : Out := kop h d a b s (fun x y => x || y)
def execKxor (h : Hdr) (d : Fin 8) (a b : CMask) (s : State) : Out := kop h d a b s (fun x y => x != y)
def execKandn (h : Hdr) (d : Fin 8) (a b : CMask) (s : State) : Out := kop h d a b s (fun x y => x && !y)
def execKnot (h : Hdr) (d : Fin 8) (a : CMask) (s : State) : Out := kop h d a a s (fun x _ => !x)
def execKpop (h : Hdr) (d : Fin 32) (a : CMask) (s : State) : Out :=
  issue h [] s (fun s => whenMasks s [a.r] <|
    .done (s.setX d (BitVec.ofNat 64 ((List.range s.vl).countP (s.kbit a.r)))))
def execKfirst (h : Hdr) (d : Fin 32) (a : CMask) (s : State) : Out :=
  issue h [] s (fun s => whenMasks s [a.r] <|
    .done (s.setX d (match (List.range s.vl).find? (s.kbit a.r) with
      | some i => BitVec.ofNat 64 i
      | none => BitVec.allOnes 64)))
def execKset (h : Hdr) (d : Fin 8) (a : Fin 32) (s : State) : Out :=
  issue h [a] s (fun s => whenMasks s [d] <|
    .done (s.overElts (fun t i => t.setKbit d i ((s.x a).getLsbD i))))
def execKmvToMask (h : Hdr) (d : Fin 8) (a : CVec) (s : State) : Out :=
  issue h [] s (fun s => whenMasks s [d] <| vcheck s anyFmt [a.r] <|
    .done (s.overElts (fun t i => t.setKbit d i (t.elt a.r s.vt.fmt.width i != 0))))
def execKmvToVector (h : Hdr) (d : Fin 64) (a : CMask) (s : State) : Out :=
  issue h [] s (fun s => whenMasks s [a.r] <| vcheck s Fmt.isInt [d] <|
    .done (s.overElts (fun t i => t.setElt d s.vt.fmt.width i (t.kbit a.r i).toNat)))
def execKall (h : Hdr) (d : Fin 8) (s : State) : Out :=
  issue h [] s (fun s => whenMasks s [d] <| .done (s.overElts (fun t i => t.setKbit d i true)))

end Sys2Proof.Machine
end

