-- ==== Sys2Proof/Machine/Vfp.lean ====
section
/-! DEFINITION. Floating-point vector arithmetic (VFP, R238, R239) and compares (VFCMP, R240). -/

namespace Sys2Proof.Machine

/-- The layout of the vtype format, when VFP accepts it. -/
def State.vspec (s : State) : FmtSpec := (s.vt.fmt.spec).getD specF32

/-- elt(vd, i) := f(a, b, c) for each active i, group by group, with flags (R229, R238); a, b and c are codes, c the old
destination. -/
def vfp (h : Hdr) (d : Fin 64) (a : CVec) (b : VSrc) (m : Fin 8) (s : State) (ok : Fmt → Bool)
    (f : FmtSpec → BitVec 2 → Nat → Nat → Nat → Nat × Flags) : Out :=
  issue h (vsrcRegs b) s (fun s =>
    whenMasks s [m] <| vcheck s ok (d :: a.r :: vsrcVec b) <|
      let w := s.vt.fmt.width
      byGroups s w (fun t i =>
        if s.active m i then
          let r := f s.vspec s.frm (t.elt a.r w i) (t.vsrc b w i) (t.elt d w i)
          (t.setElt d w i r.1, r.2)
        else (t, 0)))

/-- An operation on the values of a and b. -/
def on2 (f : FmtSpec → BitVec 2 → FVal → FVal → Nat × Flags) (p : FmtSpec) (rm : BitVec 2) (a b _c : Nat) : Nat × Flags :=
  f p rm (p.decode a) (p.decode b)

/-- A fused operation: the product with sign `np`, the addend with sign `nc`. -/
def on3 (np nc : Bool) (p : FmtSpec) (rm : BitVec 2) (a b c : Nat) : Nat × Flags :=
  let x := p.decode a
  let z := p.decode c
  fFma p rm (if np then x.neg else x) (p.decode b) (if nc then z.neg else z)

/-- A one-operand instruction, with A in the place of B. -/
def vfp1 (h : Hdr) (d : Fin 64) (a : CVec) (m : Fin 8) (s : State) (ok : Fmt → Bool)
    (f : FmtSpec → BitVec 2 → Nat → Nat × Flags) : Out :=
  vfp h d a (.vec a) m s ok (fun p rm x _ _ => f p rm x)

def isF32 (f : Fmt) : Bool := f == .f32

def execVfadd (h : Hdr) (d : Fin 64) (a : CVec) (b : VSrc) (m : Fin 8) (s : State) : Out :=
  vfp h d a b m s Fmt.isVfp (on2 fAdd)
def execVfsub (h : Hdr) (d : Fin 64) (a : CVec) (b : VSrc) (m : Fin 8) (s : State) : Out :=
  vfp h d a b m s Fmt.isVfp (on2 fSub)
def execVfrsub (h : Hdr) (d : Fin 64) (a : CVec) (b : VSrc) (m : Fin 8) (s : State) : Out :=
  vfp h d a b m s Fmt.isVfp (on2 (fun p rm x y => fSub p rm y x))
def execVfmul (h : Hdr) (d : Fin 64) (a : CVec) (b : VSrc) (m : Fin 8) (s : State) : Out :=
  vfp h d a b m s Fmt.isVfp (on2 fMul)
def execVfdiv (h : Hdr) (d : Fin 64) (a : CVec) (b : VSrc) (m : Fin 8) (s : State) : Out :=
  vfp h d a b m s Fmt.isVfp (on2 fDiv)
def execVfrdiv (h : Hdr) (d : Fin 64) (a : CVec) (b : VSrc) (m : Fin 8) (s : State) : Out :=
  vfp h d a b m s Fmt.isVfp (on2 (fun p rm x y => fDiv p rm y x))
def execVfsqrt (h : Hdr) (d : Fin 64) (a : CVec) (m : Fin 8) (s : State) : Out :=
  vfp1 h d a m s Fmt.isVfp (fun p rm x => fSqrt p rm (p.decode x))
def execVfrsqrt (h : Hdr) (d : Fin 64) (a : CVec) (m : Fin 8) (s : State) : Out :=
  vfp1 h d a m s isF32 (fun p _ x => fRsqrt (p.decode x))
def execVfrcpz (h : Hdr) (d : Fin 64) (a : CVec) (m : Fin 8) (s : State) : Out :=
  vfp1 h d a m s isF32 (fun p _ x => fRcpz (p.decode x))
def execVfma (h : Hdr) (d : Fin 64) (a : CVec) (b : VSrc) (m : Fin 8) (s : State) : Out :=
  vfp h d a b m s Fmt.isVfp (on3 false false)
def execVfms (h : Hdr) (d : Fin 64) (a : CVec) (b : VSrc) (m : Fin 8) (s : State) : Out :=
  vfp h d a b m s Fmt.isVfp (on3 false true)
def execVfnma (h : Hdr) (d : Fin 64) (a : CVec) (b : VSrc) (m : Fin 8) (s : State) : Out :=
  vfp h d a b m s Fmt.isVfp (on3 true true)
def execVfnms (h : Hdr) (d : Fin 64) (a : CVec) (b : VSrc) (m : Fin 8) (s : State) : Out :=
  vfp h d a b m s Fmt.isVfp (on3 true false)
def execVfmin (h : Hdr) (d : Fin 64) (a : CVec) (b : VSrc) (m : Fin 8) (s : State) : Out :=
  vfp h d a b m s Fmt.isVfp (fun p _ x y _ => fMinMax p false x y)
def execVfmax (h : Hdr) (d : Fin 64) (a : CVec) (b : VSrc) (m : Fin 8) (s : State) : Out :=
  vfp h d a b m s Fmt.isVfp (fun p _ x y _ => fMinMax p true x y)
def execVfabs (h : Hdr) (d : Fin 64) (a : CVec) (m : Fin 8) (s : State) : Out :=
  vfp1 h d a m s Fmt.isVfp (fun p _ x => (p.withSign false x, 0))
def execVfneg (h : Hdr) (d : Fin 64) (a : CVec) (m : Fin 8) (s : State) : Out :=
  vfp1 h d a m s Fmt.isVfp (fun p _ x => (p.withSign (!p.signBit x) x, 0))
def execVfsgnj (h : Hdr) (d : Fin 64) (a : CVec) (b : VSrc) (m : Fin 8) (s : State) : Out :=
  vfp h d a b m s Fmt.isVfp (fun p _ x y _ => (p.withSign (p.signBit y) x, 0))
def execVfexp2 (h : Hdr) (d : Fin 64) (a : CVec) (m : Fin 8) (s : State) : Out :=
  vfp1 h d a m s isF32 (fun p _ x => fExp2 (p.decode x))
def execVflog2 (h : Hdr) (d : Fin 64) (a : CVec) (m : Fin 8) (s : State) : Out :=
  vfp1 h d a m s isF32 (fun p _ x => fLog2 (p.decode x))

/-- The integer n of vfscale (R239). -/
def State.scaleArg (s : State) (b : VSrc) (w i : Nat) : Int :=
  match b with
  | .vec v => intOf true w (s.elt v.r w i)
  | .x r => (s.x r).toInt
  | .imm m => m.sval.toInt

def execVfscale (h : Hdr) (d : Fin 64) (a : CVec) (b : VSrc) (m : Fin 8) (s : State) : Out :=
  issue h (vsrcRegs b) s (fun s =>
    whenMasks s [m] <| vcheck s Fmt.isVfp (d :: a.r :: vsrcVec b) <|
      let w := s.vt.fmt.width
      byGroups s w (fun t i =>
        if s.active m i then
          let r := fScale s.vspec s.frm (s.vspec.decode (t.elt a.r w i)) (t.scaleArg b w i)
          (t.setElt d w i r.1, r.2)
        else (t, 0)))

def execVfclass (h : Hdr) (d : Fin 64) (a : CVec) (m : Fin 8) (s : State) : Out :=
  vfp1 h d a m s Fmt.isVfp (fun p _ x => (p.classBits x, 0))
def execVfround (h : Hdr) (d : Fin 64) (a : CVec) (m : Fin 8) (s : State) : Out :=
  vfp1 h d a m s Fmt.isVfp fRound

/-! ## VFCMP (R240) -/

/-- bit i of kd := the relation, for each active i; a group whose flag traps writes no bit. -/
def vfcmp (h : Hdr) (d : Fin 8) (a : CVec) (b : VSrc) (m : Fin 8) (s : State) (r : FRel) : Out :=
  issue h (vsrcRegs b) s (fun s =>
    whenMasks s [m, d] <| vcheck s Fmt.isVfp (a.r :: vsrcVec b) <|
      let w := s.vt.fmt.width
      byGroups s w (fun t i =>
        if s.active m i then
          let v := r.eval (s.vspec.decode (t.elt a.r w i)) (s.vspec.decode (t.vsrc b w i))
          (t.setKbit d i v.1, v.2)
        else (t, 0)))

def execVfeq (h : Hdr) (d : Fin 8) (a : CVec) (b : VSrc) (m : Fin 8) (s : State) : Out := vfcmp h d a b m s .eq
def execVfne (h : Hdr) (d : Fin 8) (a : CVec) (b : VSrc) (m : Fin 8) (s : State) : Out := vfcmp h d a b m s .ne
def execVflt (h : Hdr) (d : Fin 8) (a : CVec) (b : VSrc) (m : Fin 8) (s : State) : Out := vfcmp h d a b m s .lt
def execVfle (h : Hdr) (d : Fin 8) (a : CVec) (b : VSrc) (m : Fin 8) (s : State) : Out := vfcmp h d a b m s .le
def execVfgt (h : Hdr) (d : Fin 8) (a : CVec) (b : VSrc) (m : Fin 8) (s : State) : Out := vfcmp h d a b m s .gt
def execVfge (h : Hdr) (d : Fin 8) (a : CVec) (b : VSrc) (m : Fin 8) (s : State) : Out := vfcmp h d a b m s .ge
def execVfuno (h : Hdr) (d : Fin 8) (a : CVec) (b : VSrc) (m : Fin 8) (s : State) : Out := vfcmp h d a b m s .uno

end Sys2Proof.Machine
end

