-- ==== Sys2Proof/Machine/Vperm.lean ====
section
/-! DEFINITION. Permutations (VPERM, R242), scans and recurrences (VSCAN, R243, R244) and reductions (VRED, R96,
R245). -/

namespace Sys2Proof.Machine

/-! ## VPERM (R242) -/

/-- A permutation: vd and va are aligned groups that share no register (R228). -/
def vperm (h : Hdr) (rs : List (Fin 32)) (ms : List (Fin 8)) (d : Fin 64) (a : CVec) (s : State)
    (k : State → Nat → Res) : Out :=
  issue h rs s (fun s =>
    whenMasks s ms <| vcheck s anyFmt [d, a.r] <|
      needs (!groupsMeet d s.vt.size a.r s.vt.size) .operand s (k s s.vt.fmt.width))

def execVslideup (h : Hdr) (d : Fin 64) (a : CVec) (n : PosSrc) (m : Fin 8) (s : State) : Out :=
  vperm h (posRegs n) [m] d a s (fun s w =>
    .done (s.overElts (fun t i =>
      if s.active m i && s.pos n ≤ i then t.setElt d w i (t.elt a.r w (i - s.pos n)) else t)))

def execVslidedown (h : Hdr) (d : Fin 64) (a : CVec) (n : PosSrc) (m : Fin 8) (s : State) : Out :=
  vperm h (posRegs n) [m] d a s (fun s w =>
    .done (s.overElts (fun t i =>
      if s.active m i then
        t.setElt d w i (if i + s.pos n < s.vl then t.elt a.r w (i + s.pos n) else 0)
      else t)))

def execVbcast (h : Hdr) (d : Fin 64) (a : CVec) (n : PosSrc) (m : Fin 8) (s : State) : Out :=
  vperm h (posRegs n) [m] d a s (fun s w =>
    .done (s.overElts (fun t i =>
      if s.active m i then t.setElt d w i (if s.pos n < s.vl then t.elt a.r w (s.pos n) else 0) else t)))

/-- The positions below vl whose bit of a mask is set, ascending. -/
def State.chosen (s : State) (k : Fin 8) : List Nat := (List.range s.vl).filter (s.kbit k)

def execVcompress (h : Hdr) (d : Fin 64) (a : CVec) (b : CMask) (s : State) : Out :=
  vperm h [] [b.r] d a s (fun s w =>
    .done ((indexed (s.chosen b.r)).foldl (fun t (j, i) => t.setElt d w j (s.elt a.r w i)) s))

def execVexpand (h : Hdr) (d : Fin 64) (a : CVec) (b : CMask) (s : State) : Out :=
  vperm h [] [b.r] d a s (fun s w =>
    .done ((indexed (s.chosen b.r)).foldl (fun t (j, i) => t.setElt d w i (s.elt a.r w j)) s))

/-- An element in an x register: sign-extended for i formats, zero-extended otherwise. -/
def xOfElt (f : Fmt) (b : Nat) : Word := BitVec.ofInt 64 (intOf f.isSigned f.width b)

def execVext (h : Hdr) (d : Fin 32) (a : CVec) (n : PosSrc) (s : State) : Out :=
  issue h (posRegs n) s (fun s => vcheck s anyFmt [a.r] <|
    .done (s.setX d (if s.pos n < s.vl then xOfElt s.vt.fmt (s.elt a.r s.vt.fmt.width (s.pos n)) else 0)))

def execVins (h : Hdr) (d : Fin 64) (a : Fin 32) (n : PosSrc) (s : State) : Out :=
  issue h (a :: posRegs n) s (fun s => vcheck s anyFmt [d] <|
    .done (if s.pos n < s.vl then s.setElt d s.vt.fmt.width (s.pos n) (s.x a).toNat else s))

/-! ## VSCAN (R243, R244) -/

/-- The formats scans accept (R227). -/
def scanFmt (f : Fmt) : Bool := f.isInt || f.isVfp

/-- One scan step under a format: integers wrap, floating point rounds under the mode. -/
abbrev ScanOp := Fmt → BitVec 2 → Nat → Nat → Nat × Flags

def scanAdd : ScanOp := fun f rm x y =>
  match f.spec with
  | some p => fAdd p rm (p.decode x) (p.decode y)
  | none => ((x + y) % 2 ^ f.width, 0)
def scanMul : ScanOp := fun f rm x y =>
  match f.spec with
  | some p => fMul p rm (p.decode x) (p.decode y)
  | none => (x * y % 2 ^ f.width, 0)
/-- The greater or the lesser of two elements. -/
def scanPick (wantMax : Bool) : ScanOp := fun f _ x y =>
  match f.spec with
  | some p => fMinMax p wantMax x y
  | none =>
    let less := intOf f.isSigned f.width x < intOf f.isSigned f.width y
    (if less == wantMax then y else x, 0)

/-- The elements of a scan with the carry: each step's value and flags. -/
def scanFrom (step : Nat → Nat → Nat × Flags) : List Nat → Nat → Flags → List Nat × Nat × Flags
  | [], c, f => ([], c, f)
  | i :: r, c, f =>
    let (v, g) := step i c
    let (vs, c', f') := scanFrom step r v (f ||| g)
    (v :: vs, c', f')

/-- An indivisible scan: its results, then xcar; the whole counts as one group (R86, R230). -/
def scan (s : State) (d : Fin 64) (step : Nat → Nat → Nat × Flags) : Res :=
  let w := s.vt.fmt.width
  let (vs, c, f) := scanFrom step (List.range s.vl) (s.cur.xcar.toNat % 2 ^ w) 0
  oneGroup s f (fun s =>
    let t := (indexed vs).foldl (fun t (i, v) => t.setElt d w i v) s
    .done (if s.vl = 0 then t else t.modCsr (fun q => { q with xcar := xOfElt s.vt.fmt c })))

def vscan (h : Hdr) (d : Fin 64) (a : CVec) (m : Fin 8) (s : State) (op : ScanOp) : Out :=
  issue h [] s (fun s =>
    whenMasks s [m] <| vcheck s scanFmt [d, a.r] <|
      needs (!groupsMeet d s.vt.size a.r s.vt.size) .operand s <|
        let w := s.vt.fmt.width
        scan s d (fun i c =>
          if m != 0 && s.kbit m i then (s.elt a.r w i, 0) else op s.vt.fmt s.frm c (s.elt a.r w i)))

def execVscanadd (h : Hdr) (d : Fin 64) (a : CVec) (m : Fin 8) (s : State) : Out := vscan h d a m s scanAdd
def execVscanmax (h : Hdr) (d : Fin 64) (a : CVec) (m : Fin 8) (s : State) : Out := vscan h d a m s (scanPick true)
def execVscanmin (h : Hdr) (d : Fin 64) (a : CVec) (m : Fin 8) (s : State) : Out := vscan h d a m s (scanPick false)
def execVscanmul (h : Hdr) (d : Fin 64) (a : CVec) (m : Fin 8) (s : State) : Out := vscan h d a m s scanMul

/-- One step a * x + b: wrapping, or fused. -/
def recurStep (f : Fmt) (rm : BitVec 2) (a x b : Nat) : Nat × Flags :=
  match f.spec with
  | some p => fFma p rm (p.decode a) (p.decode x) (p.decode b)
  | none => ((a * x + b) % 2 ^ f.width, 0)

def execVrecur (h : Hdr) (d : Fin 64) (a b : CVec) (s : State) : Out :=
  issue h [] s (fun s =>
    vcheck s scanFmt [d, a.r, b.r] <|
      needs (!groupsMeet d s.vt.size a.r s.vt.size && !groupsMeet d s.vt.size b.r s.vt.size) .operand s <|
        let w := s.vt.fmt.width
        scan s d (fun i c => recurStep s.vt.fmt s.frm (s.elt a.r w i) c (s.elt b.r w i)))

/-! ## VRED (R96, R245) -/

/-- The active elements below vl, ascending. -/
def State.activeElts (s : State) (m : Fin 8) (a : Fin 64) : List Nat :=
  ((List.range s.vl).filter (s.active m)).map (s.elt a s.vt.fmt.width)

/-- An integer reduction: `f` from the value for no elements. -/
def vredInt (h : Hdr) (d : Fin 32) (a : CVec) (m : Fin 8) (s : State) (empty : Fmt → Nat) (f : Fmt → Nat → Nat → Nat) :
    Out :=
  issue h [] s (fun s =>
    whenMasks s [m] <| vcheck s Fmt.isInt [a.r] <|
      let fmt := s.vt.fmt
      .done (s.setX d (xOfElt fmt ((s.activeElts m a.r).foldl (f fmt) (empty fmt)))))

def leastOf (f : Fmt) : Nat := wrap f.width (intMin f.isSigned f.width)
def greatestOf (f : Fmt) : Nat := wrap f.width (intMax f.isSigned f.width)

def execVredsum (h : Hdr) (d : Fin 32) (a : CVec) (m : Fin 8) (s : State) : Out :=
  vredInt h d a m s (fun _ => 0) (fun f x y => (x + y) % 2 ^ f.width)
def execVredmax (h : Hdr) (d : Fin 32) (a : CVec) (m : Fin 8) (s : State) : Out :=
  vredInt h d a m s leastOf (fun f x y => (scanPick true f 0 x y).1)
def execVredmin (h : Hdr) (d : Fin 32) (a : CVec) (m : Fin 8) (s : State) : Out :=
  vredInt h d a m s greatestOf (fun f x y => (scanPick false f 0 x y).1)
def execVredand (h : Hdr) (d : Fin 32) (a : CVec) (m : Fin 8) (s : State) : Out :=
  vredInt h d a m s (fun f => 2 ^ f.width - 1) (fun _ x y => x &&& y)
def execVredor (h : Hdr) (d : Fin 32) (a : CVec) (m : Fin 8) (s : State) : Out :=
  vredInt h d a m s (fun _ => 0) (fun _ x y => x ||| y)
def execVredxor (h : Hdr) (d : Fin 32) (a : CVec) (m : Fin 8) (s : State) : Out :=
  vredInt h d a m s (fun _ => 0) (fun _ x y => x ^^^ y)

/-- One level of the pairwise tree: neighbours added, an odd last element passed up (R96). -/
def pairLevel (add : Nat → Nat → Nat × Flags) : List Nat → List Nat × Flags
  | [] => ([], 0)
  | [x] => ([x], 0)
  | x :: y :: r =>
    let (z, f) := add x y
    let (zs, g) := pairLevel add r
    (z :: zs, f ||| g)

/-- Levels until one value remains. -/
def pairTree (add : Nat → Nat → Nat × Flags) : Nat → List Nat → Flags → Nat × Flags
  | 0, l, f => (l.headD 0, f)
  | n + 1, l, f =>
    if l.length ≤ 1 then (l.headD 0, f)
    else let (l', g) := pairLevel add l; pairTree add n l' (f ||| g)

/-- Elements combined in ascending order. -/
def inOrder (op : Nat → Nat → Nat × Flags) : List Nat → Nat → Flags → Nat × Flags
  | [], x, f => (x, f)
  | y :: r, x, f => let (z, g) := op x y; inOrder op r z (f ||| g)

/-- A floating-point reduction: the value for no elements, the value of one (a NaN becomes the canonical one), and the
combination of more. -/
def vredFp (h : Hdr) (d : Fin 32) (a : CVec) (m : Fin 8) (s : State) (empty : FmtSpec → Nat)
    (f : FmtSpec → BitVec 2 → List Nat → Nat × Flags) : Out :=
  issue h [] s (fun s =>
    whenMasks s [m] <| vcheck s Fmt.isVfp [a.r] <|
      let p := s.vspec
      let r : Nat × Flags := match s.activeElts m a.r with
        | [] => (empty p, 0)
        | [x] => if (p.decode x).isNan then (p.nanBits, nvOf (p.decode x) (p.decode x)) else (x, 0)
        | l => f p s.frm l
      oneGroup s r.2 (fun s => .done (s.setX d (BitVec.ofNat 64 r.1))))

def execVfredsum (h : Hdr) (d : Fin 32) (a : CVec) (m : Fin 8) (s : State) : Out :=
  vredFp h d a m s (fun _ => 0) (fun p rm l => pairTree (fun x y => fAdd p rm (p.decode x) (p.decode y)) l.length l 0)
def execVfredosum (h : Hdr) (d : Fin 32) (a : CVec) (m : Fin 8) (s : State) : Out :=
  vredFp h d a m s (fun _ => 0) (fun p rm l =>
    inOrder (fun x y => fAdd p rm (p.decode x) (p.decode y)) l.tail (l.headD 0) 0)
def execVfredmax (h : Hdr) (d : Fin 32) (a : CVec) (m : Fin 8) (s : State) : Out :=
  vredFp h d a m s (fun p => p.infBits true) (fun p _ l => inOrder (fMinMax p true) l.tail (l.headD 0) 0)
def execVfredmin (h : Hdr) (d : Fin 32) (a : CVec) (m : Fin 8) (s : State) : Out :=
  vredFp h d a m s (fun p => p.infBits false) (fun p _ l => inOrder (fMinMax p false) l.tail (l.headD 0) 0)

end Sys2Proof.Machine
end

