-- ==== Sys2Proof/Machine/Vcvt.lean ====
section
/-! DEFINITION. Vector configuration (VCFG, R231 to R235) and conversions (VCVT, R91 to R93, R246 to R248). -/

namespace Sys2Proof.Machine

/-! ## VCFG -/

/-- VLMAX of the hart under a vtype (R152). -/
def State.vlmax (s : State) (t : VType) : Nat := vlmaxOf s.hart.place.grant t.size t.fmt.width

def execVset (h : Hdr) (d a : Fin 32) (t : VType) (s : State) : Out :=
  issue h [a] s (fun s =>
    let n := min (s.x a).toNat (s.vlmax t)
    .done (((s.setVl n).setVtype t).setX d (BitVec.ofNat 64 n)))

def execVsetrun (h : Hdr) (d a b : Fin 32) (lg : BitVec 5) (s : State) : Out :=
  issue h [a, b] s (fun s =>
    let p := 2 ^ lg.toNat
    let n := min (min (s.x a).toNat (s.vlmax s.vt)) (p - (s.x b).toNat % p)
    .done ((s.setVl n).setX d (BitVec.ofNat 64 n)))

/-- The values that mcfg takes (R5, R180). -/
def mcfgOk (v : Word) : Bool :=
  wfield v 40 24 == 0 && wfield v 7 1 == 0 && 1 ≤ wfield v 0 7 && wfield v 0 7 ≤ 64 && wfield v 8 16 != 0

def execMcfg (h : Hdr) (a : Fin 32) (s : State) : Out :=
  issue h [a] s (fun s =>
    needs (mcfgOk (s.x a)) .csr s (.done (s.modCsr (fun c => { c with mcfg := s.x a }))))

/-- The class of a block address is one that R21 allows (virtual or local). -/
def blockClass (a : Word) : Bool :=
  match classOf a with
  | .virt => true
  | .sys => true
  | .loc => true
  | .frw _ => false
  | .none => false

/-- A V-agent read of `n` aligned 8-byte words, of a parameter block, a codebook or an image: virtual or local addresses only
(R21), checked word by word in ascending order. -/
def State.blockRead (s : State) (a : Word) : Nat → Except (Cause × Word) (List Byte × State)
  | 0 => .ok ([], s)
  | n + 1 =>
    if blockClass a then
      match s.scalarRead a 8 with
      | .error c => .error (c, a)
      | .ok (bs, s) =>
        match s.blockRead (a + 8) n with
        | .error e => .error e
        | .ok (cs, s) => .ok (bs ++ cs, s)
    else .error (.protect, a)

/-- Step 1 of R22 for a local block: it begins within the window. -/
def State.blockStarts (s : State) (a : Word) : Bool :=
  blockClass a && (classOf a != .loc || offsetOf a < s.myWindow)

/-- Step 2 of R22 for a block: class and range first, then alignment. -/
def blockAligned (s : State) (a : Word) (n : Nat) (k : Res) : Res :=
  if !s.blockStarts a then .trap (trapOf .protect a) s
  else if a.toNat % n != 0 then .trap (trapOf .misalign a) s
  else k

def execQtld (h : Hdr) (d : Fin 4) (a : Fin 32) (s : State) : Out :=
  issue h [a] s (fun s =>
    let p := s.x a
    whenFree s [(p, 32)] <| blockAligned s p 32 <|
      match s.blockRead p 4 with
      | .error (c, _) => .trap (trapOf c p) s
      | .ok (bs, s) =>
        let q : QtReg := Vector.ofFn (fun j => BitVec.ofNat 16 (leNat ((bs.drop (2 * j.val)).take 2)))
        .done (s.modRegs (fun g => { g with qt := g.qt.set d q })))

/-- Byte `j` of the group at `v` (R235). -/
def State.groupByte (s : State) (v : Fin 64) (j : Nat) : Nat := s.elt v 8 j

/-- The scale bytes that the current vl covers. -/
def State.scaleCount (s : State) : Nat := (s.vl + 31) / 32

def execScmvToScale (h : Hdr) (d : Fin 8) (a : CVec) (s : State) : Out :=
  issue h [] s (fun s => vcheck s anyFmt [a.r] <|
    .done ((List.range s.scaleCount).foldl (fun t j => t.setScByte d j (s.groupByte a.r j)) s))

def execScmvFromScale (h : Hdr) (d : Fin 64) (a : Fin 8) (s : State) : Out :=
  issue h [] s (fun s => vcheck s anyFmt [d] <|
    .done ((List.range s.scaleCount).foldl (fun t j => t.setElt d 8 j (s.scByte a j)) s))

/-! ## VCVT -/

/-- The pairs of R91 that VCVTH narrows. -/
def narrows : Fmt → Fmt → Bool
  | .f32, .bf16 => true | .f32, .f16 => true
  | .bf16, .f8e4 => true | .bf16, .f8e5 => true | .f16, .f8e4 => true | .f16, .f8e5 => true
  | .f8e4, .f4 => true | .f8e5, .f4 => true
  | .i64, .i32 => true | .i32, .i16 => true | .i16, .i8 => true
  | .n64, .n32 => true | .n32, .n16 => true | .n16, .n8 => true
  | _, _ => false

/-- A group size as GROUP holds it, halved (R246). -/
def halfGroup (g : Fin 4) : Fin 4 := if g = 0 then 0 else Fin.ofNat 4 (g.val - 1)
def doubleGroup (g : Fin 4) : Fin 4 := Fin.ofNat 4 (g.val + 1)

/-- One element narrowed (R88, R89): integers saturate without a flag. -/
def narrowElt (src dst : Fmt) (sat : Bool) (rm : BitVec 2) (b : Nat) : Nat × Flags :=
  match src.spec with
  | some p => roundTo dst sat rm (p.decode b)
  | none =>
    let x := intOf src.isSigned src.width b
    (wrap dst.width (clampInt (intMin dst.isSigned dst.width) (intMax dst.isSigned dst.width) x), 0)

/-- One element widened (R89, R91): exact. -/
def widenElt (src dst : Fmt) (rm : BitVec 2) (b : Nat) : Nat × Flags :=
  match src.spec with
  | some p => roundTo dst false rm (p.decode b)
  | none => (wrap dst.width (intOf src.isSigned src.width b), 0)

/-- A conversion element by element into a group of another width; the widest format sets the element groups (R227). -/
def convert (s : State) (d : Fin 64) (a : CVec) (m : Fin 8) (src dst : Fmt) (t' : VType)
    (f : Nat → Nat × Flags) : Res :=
  (byGroups s (max src.width dst.width) (fun t i =>
    if s.active m i then
      let r := f (s.elt a.r src.width i)
      (t.setElt d dst.width i r.1, r.2)
    else (t, 0))).andThen (fun t => t.setVtype t')

def execVcvth (h : Hdr) (d : Fin 64) (a : CVec) (m : Fin 8) (f : Fmt) (sat : Bool) (s : State) : Out :=
  issue h [] s (fun s =>
    whenMasks s [m] <|
      let src := s.vt.fmt
      let t' : VType := ⟨f, halfGroup s.vt.group⟩
      needs (aligned t'.size d && aligned s.vt.size a.r) .register s <|
      needs (narrows src f && (!sat || f == .f8e5)) .operand s <|
      needs (d == a.r || !groupsMeet d t'.size a.r s.vt.size) .operand s <|
        convert s d a m src f t' (narrowElt src f sat s.frm))

def execVcvtd (h : Hdr) (d : Fin 64) (a : CVec) (m : Fin 8) (f : Fmt) (s : State) : Out :=
  issue h [] s (fun s =>
    whenMasks s [m] <|
      let src := s.vt.fmt
      let t' : VType := ⟨f, doubleGroup s.vt.group⟩
      needs (s.vt.group != 3) .operand s <|
      needs (aligned t'.size d && aligned s.vt.size a.r) .register s <|
      needs (narrows f src) .operand s <|
      needs (!groupsMeet d t'.size a.r s.vt.size) .operand s <|
        convert s d a m src f t' (widenElt src f s.frm))

/-! ### VCVTQ (R93, R247) -/

/-- The distance of a value from a codebook entry, exactly. -/
def qtDistance (x e : FVal) : FVal := (addX 0 x e.neg).1.abs

/-- The code whose entry is nearest, the lowest of equally near ones; NaN entries are never chosen (R93). -/
def nearestCode (q : QtReg) (x : FVal) : Nat :=
  ((List.range 16).foldl (fun (best : Option (Nat × FVal)) c =>
    let e := qtValue q c
    if e.isNan then best
    else
      let dist := qtDistance x e
      match best with
      | none => some (c, dist)
      | some (_, b) => if dist.lt b then some (c, dist) else best) none).elim 0 Prod.fst

/-- The codes of a block, its scale byte and its flags, for f4 (R92) and for q4 (R93). -/
def quantBlock (q : Option QtReg) (xs : List FVal) : Nat × List Nat × Flags :=
  if xs.any (fun v => !v.isFinite) then (255, xs.map (fun _ => 0), flagNV)
  else match q with
  | none =>
    let (sc, cs) := mxEncode .f4 xs
    let x := mxExp .f4 xs
    let fl := xs.foldl (fun fl v => match v with
      | .fin n m e => fl ||| (specF4.round true 0 (.fin n m (e - x))).2
      | .inf _ => fl
      | .nan _ => fl) 0
    (sc, cs, fl)
  | some q =>
    let cs := xs.map (nearestCode q)
    (0x7F, cs, (xs.zip cs).foldl (fun fl (v, c) => fl ||| flagIf (!v.eq (qtValue q c)) flagNX) 0)

/-- The elements of block `j` that are active and at or above the start index. -/
def State.blockElts (s : State) (m : Fin 8) (j : Nat) : List Nat :=
  ((List.range 32).map (32 * j + ·)).filter (fun i => s.cur.start ≤ i && s.active m i)

/-- VCVTQ block by block; ARITH is precise at a block. -/
def quantFrom (d : Fin 64) (a : CVec) (b m : Fin 8) (q : Option QtReg) (s0 : State) : Nat → Nat → State → Res
  | 0, _, s => .done s
  | n + 1, j, s =>
    let is := s0.blockElts m j
    if is.isEmpty then quantFrom d a b m q s0 n (j + 1) s
    else
      let (sc, cs, fl) := quantBlock q (is.map (fun i => specF32.decode (s0.elt a.r 32 i)))
      if s.enabled fl then .trap (arithTrap fl (32 * j)) s
      else
        let t := (is.zip cs).foldl (fun t (i, c) => t.setElt d 4 i c) (s.accrue fl)
        quantFrom d a b m q s0 n (j + 1) (t.setScByte b j sc)

def execVcvtq (h : Hdr) (d : Fin 64) (a : CVec) (b m : Fin 8) (q4 : Bool) (qt : Fin 4) (s : State) : Out :=
  issue h [] s (fun s =>
    whenMasks s [m] <|
      needs (aligned s.vt.size a.r) .register s <|
      needs (s.vt.fmt == .f32) .operand s <|
      needs (!groupsMeet d 1 a.r s.vt.size) .operand s <|
        (quantFrom d a b m (if q4 then some s.hart.regs.qt[qt] else none) s s.scaleCount 0 s).andThen (fun t =>
          t.setVtype ⟨if q4 then .q4 else .f4, 0⟩))

/-! ### VCVTI (R248) -/

/-- The destination format of a direction. -/
def vcvtiDst (f : Fmt) (dir : BitVec 2) : Option Fmt :=
  match dir.toNat, f with
  | 0, .f32 => some .i32 | 0, .f16 => some .i16 | 0, .bf16 => some .i16 | 0, .f8e4 => some .i8 | 0, .f8e5 => some .i8
  | 1, .f32 => some .n32 | 1, .f16 => some .n16 | 1, .bf16 => some .n16 | 1, .f8e4 => some .n8 | 1, .f8e5 => some .n8
  | 2, .i32 => some .f32 | 2, .n32 => some .f32 | 2, .i16 => some .f16 | 2, .n16 => some .f16
  | 2, .i8 => some .f8e4 | 2, .n8 => some .f8e4
  | 3, .i16 => some .bf16 | 3, .n16 => some .bf16
  | _, _ => none

def execVcvti (h : Hdr) (d : Fin 64) (a : CVec) (m : Fin 8) (dir : BitVec 2) (s : State) : Out :=
  issue h [] s (fun s =>
    whenMasks s [m] <|
      needs (aligned s.vt.size d && aligned s.vt.size a.r) .register s <|
        match vcvtiDst s.vt.fmt dir with
        | none => .trap (illegal .operand) s
        | some dst => convert s d a m s.vt.fmt dst ⟨dst, s.vt.group⟩ (fun b => roundTo dst false s.frm (valueOf s.vt.fmt b)))

end Sys2Proof.Machine
end

