-- ==== Sys2Proof/Machine/Vmem.lean ====
section
/-! DEFINITION. Vector loads and stores (R100, R103 to R105, R250 to R256): the step, the fetch of one element with its
checks, delivery, and the store paths. -/

namespace Sys2Proof.Machine

/-! ## Steps and addresses (R100, R251) -/

/-- The step in bits, fixed by the page that holds the address of element 0: 8 L, or the vtype width.
Log entry 39: DEDUCED. -/
def State.stepBits (s : State) (a : Word) (w : Nat) : Nat :=
  if (classOf a).isVirt then
    let e := s.entryAt s.ctx a
    let l := logicalSize (entFMT e)
    if entV e && l != 0 && entFMT e < 12 then 8 * l else w
  else w

/-- Where element `i` lies: its byte address and its bit within the byte (0 or 4). -/
def eltAddr (a0 : Word) (stride : Int) (sb i : Nat) : Word × Nat :=
  let bits : Int := i * stride * sb
  (a0 + BitVec.ofInt 64 (bits / 8), (bits % 8).toNat)

/-- The span of a contiguous access, for the interlock; of a strided one, from its lowest to its highest element. -/
def accessSpan (a0 : Word) (stride : Int) (sb n : Nat) : List Span :=
  if n = 0 then [] else
    let far := ((n - 1 : Nat) : Int) * stride * sb / 8
    [(if far < 0 then a0 + BitVec.ofInt 64 far else a0, far.natAbs + max (sb / 8) 1)]

/-- Steps 1 and 2 of R22 for an element at a local (`frw = false`) or furrow-window address: the class, the range, the live
record of a store, and step alignment. -/
def State.padFault (s : State) (frw write : Bool) (a : Word) (sb : Nat) : Option Cause :=
  match padCore s.loc a with
  | none => some .protect
  | some core =>
    let isFrw := match classOf a with
      | .frw _ => true
      | _ => false
    let size := s.windowSize core s.hart.place.launch
    if isFrw != frw || size ≤ offsetOf a then some .protect
    else if write && s.liveRecord core s.hart.place.launch (offsetOf a) (max (sb / 8) 1) then some .protect
    else if sb ≥ 8 && a.toNat % (sb / 8) != 0 then some .misalign
    else none

/-! ## Delivery (R103) -/

/-- How an element is delivered. -/
inductive Row
  | bytes      -- unchanged bytes or code, scale byte 0x7F
  | stored     -- the stored code and the block's scale
  | recode     -- decoded and encoded again by R92
  | value      -- decoded and rounded into vtype
deriving DecidableEq, Repr

/-- What one element's fetch found: absent under a flag mask, or its row, code, scale and value, and whether it is malformed, which the
code 0 of its block then stands for (R109). -/
inductive Fetched
  | absent
  | elt (bad : Bool) (row : Row) (code scale : Nat) (v : FVal)
deriving DecidableEq, Repr

/-- The formats whose blocks take a scale (R92). -/
def mxFmt (f : Fmt) : Bool := f == .f8e4 || f == .f8e5 || f == .f4

/-- The row of R103 for a layout and a vtype format; none is FORMAT. -/
def rowFor (lay : Layout) (f : Fmt) (sc : Bool) : Option Row :=
  match lay with
  | .raw => some .bytes
  | _ =>
    if f == .q4 then (if lay == .q4 then some .bytes else none)
    else if sc && mxFmt f then (if lay.fmt == some f then some .stored else some .recode)
    else some .value

/-- The page has the step of the access (R100). -/
def sameStep (e : Word) (sb w : Nat) : Bool :=
  let l := logicalSize (entFMT e)
  if l = 0 then sb == w else sb == 8 * l

/-- The row that the page of an element gives it in a load with sc=, where the page is mapped, readable, of the access's step, and present
unless absent elements are flagged. -/
def State.rowAt (s : State) (a : Word) (sb : Nat) (f : Fmt) (fk : Bool) : Option Row :=
  let e := s.entryAt s.ctx a
  if !(classOf a).isVirt || !entV e || !entR e || 12 ≤ entFMT e || !sameStep e sb f.width || (fk && !entP e) then none
  else rowFor (s.layout (pageOf s.ctx a e)) f true

/-- The row of register block `j` of a load with sc= (R103): the one that its active elements share, else the one that encodes decoded values.
The pages decide as they stand when the load is issued, so a re-issue finds the block's row again. Log entry 39: DEDUCED. -/
def State.blockRow (s : State) (a0 : Word) (stride : Int) (sb : Nat) (m : Fin 8) (fk : Bool) (j : Nat) : Option Row :=
  let is := ((List.range 32).map (32 * j + ·)).filter (s.active m)
  match is.filterMap (fun i => s.rowAt (eltAddr a0 stride sb i).1 sb s.vt.fmt fk) with
  | [] => none
  | r :: rs => some (if rs.all (· == r) then r else .recode)

/-- Step 5 of R22 for an element: alignment to the step, to the page's L, and where its register block takes unchanged codes of a block page
the alignment of element 0 (R103); `blk` is that block's row. A page of HDR counts as one with blocks only in its packed form (FMTNOW 8):
its f8e4 form has no scales. Log entry 39: DEDUCED. -/
def State.eltMisaligned (s : State) (a : Word) (a0 : Word) (sb : Nat) (f : Fmt) (sc : Bool) (blk : Option Row) (e : Word) : Bool :=
  let l := logicalSize (entFMT e)
  (sb ≥ 8 && a.toNat % (sb / 8) != 0) || (l != 0 && a.toNat % l != 0) ||
    (let lay := s.layout (pageOf s.ctx a e)
     lay.isBlock && rowFor lay f sc == some .stored && blk == some .stored && a0.toNat % 32 != 0)

/-- Fetch the element at `a` (bit `nib` of its byte) of a virtual page, with the checks of R22 and R106. -/
def State.fetchElt (s : State) (a a0 : Word) (nib sb : Nat) (f : Fmt) (sc : Bool) (blk : Option Row) (fk : Bool) :
    Except Cause (Fetched × State) :=
  if !(classOf a).isVirt then .error .protect
  else match s.translate s.ctx a Need.load (s.eltMisaligned a a0 sb f sc blk) with
  | .error .absent => if fk then .ok (.absent, s) else .error .absent
  | .error c => .error c
  | .ok p =>
    let m := s.pmeta p.frame
    let lay := s.layout p
    if m.state = 3 then .error .integrity
    else if !sameStep p.e sb f.width then .error .format
    else match rowFor lay f sc with
    | none => .error .format
    | some row =>
      let s := s.settle p.frame p.off (max (sb / 8) 1)
      match lay with
      | .raw =>
        let code := natField (s.rawNat p.frame p.off ((f.width + 7) / 8)) nib f.width
        .ok (.elt false .bytes code 0x7F (valueOf f code), s)
      | _ =>
        let bad := s.eltBad lay p.frame p.off
        if bad && !fk then .error .smeta
        else
          let code := s.eltCode lay p.frame p.off
          let scale := s.blockScale lay p.frame (p.off / 32)
          .ok (.elt bad row code scale (codeValue lay s.hart.regs.qt[Fin.ofNat 4 (entQT p.e)] code scale), s)

/-- A decoded value as an element of vtype (R88, R103): rounded to nearest-even, saturating. Log entry 18: DEDUCED. -/
def deliverValue (f : Fmt) (v : FVal) : Nat := (roundTo f true 0 v).1

/-! ## The element walk -/

/-- The results of a walk over elements: what each gave, the state, and the fault that ended it with its element and
address. -/
structure Walk (α : Type) where
  got   : List (Nat × α)
  s     : State
  fault : Option (Cause × Nat × Word)

/-- Visit elements in ascending order until one faults. -/
def walkElts {α : Type} (f : State → Nat → Except (Cause × Word) (α × State)) : List Nat → State → Walk α
  | [], s => ⟨[], s, none⟩
  | i :: r, s =>
    match f s i with
    | .error (c, a) => ⟨[], s, some (c, i, a)⟩
    | .ok (x, s') => let w := walkElts f r s'; ⟨(i, x) :: w.got, w.s, w.fault⟩

/-- The elements of the present turn: active, at or above the start index, and below the bound of the turn. -/
def State.todo (s : State) (m : Fin 8) : List Nat := (List.range s.vl).filter (fun i => s.inTurn i && s.active m i)

/-- The end of an access: a trap precise at the faulting element, or completion. -/
def endWalk (fault : Option (Cause × Nat × Word)) (s : State) : Res :=
  match fault with
  | some (c, i, a) => .trap (trapOf c a i) s
  | none => .done s

/-- Flag bits of the elements below `bound` that the walk passed: set where flagged, clear elsewhere (R38). -/
def State.putFlags (s s0 : State) (fk : Fin 8) (flagged : List Nat) (bound : Nat) : State :=
  if fk = 0 then s
  else (List.range (min bound (s0.turnEnd s0.vl))).foldl (fun t i =>
    if i < s0.cur.start then t else t.setKbit fk i (flagged.contains i)) s

def Fetched.isFlagged : Fetched → Bool
  | .absent => true
  | .elt bad _ _ _ _ => bad

/-- The code that a fetched element delivers on its own. -/
def Fetched.code (f : Fmt) : Fetched → Nat
  | .absent => 0
  | .elt _ .bytes c _ _ => c
  | .elt _ .stored c _ _ => c
  | .elt _ .recode _ _ v => deliverValue f v
  | .elt _ .value _ _ v => deliverValue f v

/-- The scale of the memory block of a present element. -/
def Fetched.scale? : Fetched → Option Nat
  | .absent => none
  | .elt _ _ _ sc _ => some sc

/-- The decoded value of a present element. -/
def Fetched.value? : Fetched → Option FVal
  | .absent => none
  | .elt _ _ _ _ v => some v

/-- A register block of a load with sc= under its row (R103): its codes and its scale byte. `old` holds the values of elements that an
earlier part of the same instruction delivered into the block. -/
def deliverBlock (f : Fmt) (row : Option Row) (old : List (Nat × FVal)) (xs : List (Nat × Fetched)) : List (Nat × Nat) × Option Nat :=
  let plain := xs.map (fun x => (x.1, x.2.code f))
  match xs.findSome? (fun x => x.2.scale?) with
  | none => (plain, none)
  | some sc =>
    if row == some .stored then (plain, some sc)
    else if row == some .recode && mxFmt f then
      let vals := old ++ xs.filterMap (fun x => x.2.value?.map (fun v => (x.1, v)))
      let (scale, cs) := mxEncode f (vals.map Prod.snd)
      ((xs.filter (fun x => x.2.value?.isNone)).map (fun x => (x.1, 0)) ++ (vals.map Prod.fst).zip cs, some scale)
    else (plain, some 0x7F)

/-- Fetched elements written to vd (and the scale register, by the rows of its blocks); a block below vl without an active element keeps its
scale byte, and so does one whose active elements are all absent. Log entry 39: DEDUCED. -/
def State.putFetched (s s0 : State) (d : Fin 64) (m : Fin 8) (sc : Option (Fin 8)) (rows : List (Option Row))
    (xs : List (Nat × Fetched)) : State :=
  let f := s0.vt.fmt
  match sc with
  | none => xs.foldl (fun t x => t.setElt d f.width x.1 (x.2.code f)) s
  | some n =>
    (indexed rows).foldl (fun t (j, row) =>
      let here := xs.filter (fun x => x.1 / 32 == j)
      if here.isEmpty then t
      else
        let before := ((List.range 32).map (32 * j + ·)).filter (fun i => i < s0.cur.start && s0.active m i)
        let old := before.map (fun i => (i, scaled (valueOf f (s0.elt d f.width i)) (s0.scByte n j)))
        let (cs, scale) := deliverBlock f row old here
        let t := cs.foldl (fun t c => t.setElt d f.width c.1 c.2) t
        match scale with
        | some b => t.setScByte n j b
        | none => t) s

/-- A vector load from virtual addresses (R252). -/
def vloadVirt (s : State) (d : Fin 64) (a0 : Word) (stride : Int) (sb : Nat) (sc : Option (Fin 8)) (m fk : Fin 8) : Res :=
  let f := s.vt.fmt
  let rows := if sc.isSome then (List.range s.scaleCount).map (s.blockRow a0 stride sb m (fk != 0)) else []
  let w := walkElts (fun t i =>
    let (a, nib) := eltAddr a0 stride sb i
    match t.fetchElt a a0 nib sb f sc.isSome (rows.getD (i / 32) none) (fk != 0) with
    | .error c => .error (c, a)
    | .ok r => .ok r) (s.todo m) s
  let bound := match w.fault with
    | some (_, i, _) => i
    | none => s.vl
  let t := w.s.putFetched s d m sc rows w.got
  endWalk w.fault (t.putFlags s fk ((w.got.filter (fun x => x.2.isFlagged)).map Prod.fst) bound)

/-- A vector load from a window (R252). -/
def vloadPad (s : State) (d : Fin 64) (a0 : Word) (frw : Bool) (m : Fin 8) : Res :=
  let wd := s.vt.fmt.width
  let w := walkElts (fun t i =>
    let (a, nib) := eltAddr a0 1 (s.stepBits a0 wd) i
    match t.padFault frw false a wd with
    | some c => .error (c, a)
    | none =>
      let core := (padCore t.loc a).getD 0
      .ok (natField (leNat (t.padRead core t.hart.place.launch (offsetOf a) ((wd + 7) / 8))) nib wd, t)) (s.todo m) s
  endWalk w.fault (w.got.foldl (fun t x => t.setElt d wd x.1 x.2) w.s)

def execVld (h : Hdr) (d : Fin 64) (a : Fin 32) (i : Imm) (sc : Option (Fin 8)) (m fk : Fin 8) (s : State) : Out :=
  issue h [a] s (fun s =>
    let a0 := s.x a + i.sval
    let sb := s.stepBits a0 s.vt.fmt.width
    whenMasks s [m, fk] <| vcheck s anyFmt [d] <| whenFree s (accessSpan a0 1 sb s.vl) <|
      vloadVirt s d a0 1 sb sc m fk)

/-- STRIDE where the byte stride of 4-bit elements is not whole (R253). -/
def strided (s : State) (b : Fin 32) (sb : Nat) (k : Res) : Res :=
  if sb = 4 && (s.x b).toNat % 2 = 1 then .trap (trapOf .stride (s.x b)) s else k

def execVlds (h : Hdr) (d : Fin 64) (a b : Fin 32) (m fk : Fin 8) (s : State) : Out :=
  issue h [a, b] s (fun s =>
    let a0 := s.x a
    let st := (s.x b).toInt
    let sb := s.stepBits a0 s.vt.fmt.width
    whenMasks s [m, fk] <| vcheck s anyFmt [d] <| strided s b sb <| whenFree s (accessSpan a0 st sb s.vl) <|
      vloadVirt s d a0 st sb none m fk)

def execVldl (h : Hdr) (d : Fin 64) (a : Fin 32) (i : Imm) (m : Fin 8) (s : State) : Out :=
  issue h [a] s (fun s =>
    let a0 := s.x a + i.sval
    whenMasks s [m] <| vcheck s anyFmt [d] <| whenFree s (accessSpan a0 1 s.vt.fmt.width s.vl) <|
      vloadPad s d a0 false m)

def execVldfm (h : Hdr) (d : Fin 64) (a : Fin 32) (m : Fin 8) (s : State) : Out :=
  issue h [a] s (fun s =>
    let a0 := s.x a
    whenMasks s [m] <| vcheck s anyFmt [d] <| whenFree s (accessSpan a0 1 s.vt.fmt.width s.vl) <|
      vloadPad s d a0 true m)

/-! ## VLDROW (R254, R66, R67, R136) -/

/-- Entries of a row that hold a VRAMO (R67, R136). -/
def State.rowPending (s : State) (p : Page) (row : Nat) : List WqEntry :=
  s.ms.wq.filter (fun e => e.meets p.frame (p.off / row * row) row && !e.rowAdds.isEmpty)

/-- A merging add of the hart whose turn it is on the row has not been applied. Log entry 8: DEDUCED. -/
def State.ownPending (s : State) (p : Page) (row : Nat) : Bool :=
  s.ms.wq.any (fun e => e.meets p.frame (p.off / row * row) row && e.who.contains s.hart.dest)

/-- Elements of a row delivered by R103 (FMT 0 to 3). -/
def State.rowElts (s : State) (p : Page) (m : Fin 8) (sb : Nat) (f : Fmt) : List (Nat × Nat) :=
  (s.todo m).map (fun i =>
    let bits := i * sb
    match s.layout p with
    | .plain g => (i, deliverValue f (valueOf g (s.rawNat p.frame (p.off + bits / 8) (g.width / 8))))
    | _ => (i, natField (s.rawNat p.frame (p.off + bits / 8) ((f.width + 7) / 8)) (bits % 8) f.width))

/-- Step 5 of R22 for an access to a row: alignment to the step and the page's L, and to the row size (R65).
Log entry 39: DEDUCED. -/
def rowMisaligned (a : Word) (sb : Nat) (e : Word) : Bool :=
  let l := logicalSize (entFMT e)
  (sb ≥ 8 && a.toNat % (sb / 8) != 0) || (l != 0 && a.toNat % l != 0) || (entRC e && a.toNat % entRow e != 0)

/-- The elements of an access to a row do not fit in it, which is ILLEGAL with subcode OPERAND (R254, R264), whatever is active; the row size
is that of a mapped row-coherent page. Log entry 39: DEDUCED. -/
def State.rowTooShort (s : State) (a : Word) (sb : Nat) : Bool :=
  let e := s.entryAt s.ctx a
  (classOf a).isVirt && entV e && entRC e && s.vl * sb > 8 * entRow e

/-- An access to a row with vl above 0 and no active element: MISALIGN and FORMAT are raised all the same (R254, R264). The checks of R22 for
elements are not made. Log entry 39: DEDUCED. -/
def rowIdle (s : State) (a : Word) (sb : Nat) (k : Res) : Res :=
  let e := s.entryAt s.ctx a
  if s.vl = 0 || s.cur.start != 0 || !(classOf a).isVirt || !entV e then k
  else if rowMisaligned a sb e then .trap (trapOf .misalign a) s
  else if !entRC e then .trap (trapOf .format a) s
  else k

/-- With no active element no row is read, and nothing is counted, as with vl = 0. A merging add of the hart on the row that has not been
applied is waited for (R125, R136). Log entry 39: DEDUCED. -/
def execVldrow (h : Hdr) (d : Fin 64) (a : Fin 32) (m fk : Fin 8) (s : State) : Out :=
  issue h [a] s (fun s =>
    let a0 := s.x a
    let f := s.vt.fmt
    let sb := s.stepBits a0 f.width
    whenMasks s [m, fk] <| vcheck s anyFmt [d] <| needs (!s.rowTooShort a0 sb) .operand s <|
      whenFree s (accessSpan a0 1 sb s.vl) <| match s.todo m with
      | [] => rowIdle s a0 sb (.done (s.putFlags s fk [] s.vl))
      | i0 :: _ =>
        let x := (eltAddr a0 1 sb i0).1
        let stop := fun (c : Cause) (y : Word) => Res.trap (trapOf c y i0) (s.putFlags s fk [] i0)
        if !(classOf a0).isVirt then stop .protect x
        else match s.translate s.ctx a0 Need.load (rowMisaligned a0 sb) with
        | .error .absent =>
          if fk = 0 then stop .absent x
          else
            let t := (s.todo m).foldl (fun t i => t.setElt d f.width i 0) s
            .done (t.putFlags s fk (s.todo m) s.vl)
        | .error .misalign => stop .misalign a0
        | .error c => stop c x
        | .ok p =>
          if (s.pmeta p.frame).state = 3 then stop .integrity x
          else if !entRC p.e then stop .format x
          else if f == .q4 && entFMT p.e != 0 then stop .format x
          else
            let pend := s.rowPending p (entRow p.e)
            if s.ownPending p (entRow p.e) then .wait s
            else
              let t := (s.rowElts p m sb f).foldl (fun t x => t.setElt d f.width x.1 x.2) s
              let t := if pend.isEmpty then t
                else t.modFn s.hart.place.fn (fun g => { g with rowstale := g.rowstale + 1 })
              .done (t.putFlags s fk [] s.vl))

/-! ## Stores (R104, R105, R255) -/

/-- The value of a stored element: f8 and f4 codes times the named scale byte (R104). -/
def State.storeValue (s : State) (b : Fin 64) (sc : Option (Fin 8)) (i : Nat) : FVal :=
  let f := s.vt.fmt
  let v := valueOf f (s.elt b f.width i)
  match sc with
  | some n => if f == .f8e4 || f == .f8e5 || f == .f4 then scaled v (s.scByte n (i / 32)) else v
  | none => v

/-- The block of 32 logical bytes at `a` lies wholly in the bytes that elements 0 .. vl - 1 occupy. -/
def blockCovered (a0 a : Word) (stride : Int) (vl : Nat) : Bool :=
  let lo := a.toNat / 32 * 32
  (stride == 1) && a0.toNat ≤ lo && lo + 32 ≤ a0.toNat + vl

/-- The write requests that one issue of an instruction has sent (R69): of each the frame, the first bit and the end of its
contiguous bytes. Log entry 11: DEDUCED. -/
structure Burst where
  runs : List (Nat × Nat × Nat)
deriving DecidableEq, Repr

/-- The `n` bits at bit offset `o` of `frame` go on with the run: they touch its bytes, within one burst of 256 bytes.
Log entry 11: DEDUCED. -/
def runTouches (r : Nat × Nat × Nat) (frame o n : Nat) : Bool :=
  r.1 == frame && r.2.1 / 2048 == o / 2048 && o / 8 * 8 ≤ r.2.2 && r.2.1 ≤ (o + n + 7) / 8 * 8

/-- Count a write request of `frame` at bit offset `o` of length `n` bits, unless its bytes go on with a request already sent
by the same instruction. Log entry 11: DEDUCED. -/
def State.request (s : State) (b : Option Burst) (frame o n : Nat) : State × Option Burst :=
  let runs := match b with
    | some q => q.runs
    | none => []
  let lo := o / 8 * 8
  let hi := (o + n + 7) / 8 * 8
  if runs.any (runTouches · frame o n) then
    (s, some ⟨runs.map (fun r => if runTouches r frame o n then (frame, min r.2.1 lo, max r.2.2 hi) else r)⟩)
  else (s.touch frame, some ⟨(frame, lo, hi) :: runs⟩)

/-- The elements of the store that lie in the block of the element `i` at `off`: positions and element numbers. -/
def blockMates (i off : Nat) (act : Nat → Bool) : List (Nat × Nat) :=
  ((List.range 32).filterMap (fun k =>
    if off % 32 ≤ i + k then
      let j := i + k - off % 32
      if act j then some (k, j) else none
    else none))

/-- A block stored (R105): codes and scale unchanged when all 32 elements are active, match the page and have one scale byte, else the
block's values with the active elements' in their places, re-encoded. The HDR form f8e4 has no scale, and each of its values is
rounded (R104). Log entry 39: DEDUCED. -/
def State.storeBlock (s s0 : State) (lay : Layout) (frame blk : Nat) (b : Fin 64) (sc : Option (Fin 8)) (i : Nat)
    (mates : List (Nat × Nat)) : State :=
  let f := s0.vt.fmt
  let put := fun (k : Nat) (v : FVal) =>
    match mates.lookup k with
    | some j => s0.storeValue b sc j
    | none => v
  let mixed := (indexed (s.blockValues lay frame blk)).map (fun x => put x.1 x.2)
  match sc with
  | some n =>
    if mates.length = 32 && lay.isBlock && lay.fmt == some f && s0.scByte n (i / 32) == s0.scByte n ((i + 31) / 32) then
      s.putBlock lay frame blk (s0.scByte n (i / 32)) (mates.map (fun (q : Nat × Nat) => s0.elt b f.width q.2))
    else s.encodeBlock lay frame blk mixed
  | none => s.encodeBlock lay frame blk mixed

/-- Store element `i` to virtual address `a`, with the checks of R22 and R106 (R104, R105). A block page takes the whole block
with its first remaining element. Log entry 8: DEDUCED. -/
def State.storeElt (s0 s : State) (b : Fin 64) (a a0 : Word) (nib : Nat) (stride : Int) (sb : Nat) (sc : Option (Fin 8))
    (m : Fin 8) (run : Option Burst) (i : Nat) : Except Cause (State × Option Burst) :=
  let f := s0.vt.fmt
  if !(classOf a).isVirt then .error .protect
  else match s.translate s.ctx a Need.store (fun e =>
      (sb ≥ 8 && a.toNat % (sb / 8) != 0) || (logicalSize (entFMT e) != 0 && a.toNat % logicalSize (entFMT e) != 0)) with
  | .error c => .error c
  | .ok p =>
    let mt := s.pmeta p.frame
    let lay := s.layout p
    let fmt := entFMT p.e
    if mt.state = 3 then .error .integrity
    else if !sameStep p.e sb f.width || (f == .q4) != (lay == .q4) && lay != .raw then .error .format
    else if mt.state = 2 then .error .frozen
    else if blockFmt fmt && !blockCovered a0 a stride s0.vl then .error .partialBlock
    else
      let s := s.settle p.frame p.off (max (sb / 8) 1)
      if blockFmt fmt then
        let act := fun j => s0.cur.start ≤ j && s0.active m j
        let mates := blockMates i p.off act
        if mates.any (fun q => q.2 < i) then .ok (s, run)
        else
          let blk := p.off / 32
          .ok ((s.storeBlock s0 lay p.frame blk b sc i mates).request run p.frame (8 * 32 * blk) 256)
      else match lay with
      | .raw =>
        let n := (f.width + 7) / 8
        let old := s.rawNat p.frame p.off n
        let x := s0.elt b f.width i
        let v := old - natField old nib f.width * 2 ^ nib + x * 2 ^ nib
        .ok ((s.rawWrite p.frame p.off (leBytes n v)).request run p.frame (8 * p.off + nib) f.width)
      | .plain g =>
        let x := (roundTo g true 0 (s0.storeValue b sc i)).1
        .ok ((s.putCode (.plain g) p.frame p.off x).request run p.frame (8 * p.off) g.width)
      | .q4 =>
        .ok ((s.putCode .q4 p.frame p.off (s0.elt b 4 i)).request run p.frame (8 * p.off) 8)
      | .mx _ => .ok (s, run)
      | .mx4 => .ok (s, run)
      | .smx4 => .ok (s, run)

/-- The elements of a store in ascending order until one faults. -/
def storeWalk (f : State → Option Burst → Nat → Except (Cause × Word) (State × Option Burst)) :
    List Nat → State → Option Burst → Res
  | [], s, _ => .done s
  | i :: r, s, run =>
    match f s run i with
    | .error (c, a) => .trap (trapOf c a i) s
    | .ok (s', run') => storeWalk f r s' run'

/-- The write request that the turn before has sent for a contiguous store which goes on in another turn of the lanes, if the
next element goes on with its bytes (R69). Log entry 11: DEDUCED. -/
def State.requestBefore (s : State) (a0 : Word) (sb : Nat) (m : Fin 8) : Option Burst :=
  let i := s.cur.start - 1
  let (a, nib) := eltAddr a0 1 sb i
  let e := s.entryAt s.ctx a
  if s.cur.joins && s.cur.start != 0 && s.active m i && entV e then
    let p := pageOf s.ctx a e
    some ⟨[(p.frame, 8 * p.off + nib, 8 * p.off + nib + sb)]⟩
  else none

/-- A vector store to virtual addresses. -/
def vstoreVirt (s : State) (b : Fin 64) (a0 : Word) (stride : Int) (sb : Nat) (sc : Option (Fin 8)) (m : Fin 8) : Res :=
  storeWalk (fun t run i =>
    let (a, nib) := eltAddr a0 stride sb i
    match s.storeElt t b a a0 nib stride sb sc m run i with
    | .error c => .error (c, a)
    | .ok r => .ok r) (s.todo m) s (if stride = 1 then s.requestBefore a0 sb m else none)

/-- The store marks the plans that watch bytes of these spans, gaps and inactive elements among them, as it issues (R57).
Log entry 16: DEDUCED. -/
def State.noteSpans (s : State) (xs : List Span) : State := xs.foldl State.noteStore s

def execVst (h : Hdr) (d : Fin 64) (a : Fin 32) (i : Imm) (sc : Option (Fin 8)) (m : Fin 8) (s : State) : Out :=
  issue h [a] s (fun s =>
    let a0 := s.x a + i.sval
    let sb := s.stepBits a0 s.vt.fmt.width
    whenMasks s [m] <| vcheck s anyFmt [d] <| whenFree s (accessSpan a0 1 sb s.vl) <|
      vstoreVirt (s.noteSpans (accessSpan a0 1 sb s.vl)) d a0 1 sb sc m)

def execVsts (h : Hdr) (d : Fin 64) (a b : Fin 32) (m : Fin 8) (s : State) : Out :=
  issue h [a, b] s (fun s =>
    let a0 := s.x a
    let st := (s.x b).toInt
    let sb := s.stepBits a0 s.vt.fmt.width
    whenMasks s [m] <| vcheck s anyFmt [d] <| strided s b sb <| whenFree s (accessSpan a0 st sb s.vl) <|
      vstoreVirt (s.noteSpans (accessSpan a0 st sb s.vl)) d a0 st sb none m)

def execVstl (h : Hdr) (d : Fin 64) (a : Fin 32) (i : Imm) (m : Fin 8) (s : State) : Out :=
  issue h [a] s (fun s =>
    let a0 := s.x a + i.sval
    let wd := s.vt.fmt.width
    whenMasks s [m] <| vcheck s anyFmt [d] <| whenFree s (accessSpan a0 1 wd s.vl) <|
      storeWalk (fun t _ j =>
        let (x, nib) := eltAddr a0 1 (s.stepBits a0 wd) j
        match t.padFault false true x wd with
        | some c => .error (c, x)
        | none =>
          let n := (wd + 7) / 8
          let old := leNat (t.myRead (offsetOf x) n)
          let v := old - natField old nib wd * 2 ^ nib + s.elt d wd j * 2 ^ nib
          .ok (t.myWrite (offsetOf x) (leBytes n v), none)) (s.todo m) s none)

end Sys2Proof.Machine
end

