-- ==== Sys2Proof/Machine/Copy.lean ====
section
/-! DEFINITION. Copies and page requests on tags (R53, R54, R257 to R261, R286), tag waits (R262) and the tag table
(R49 to R52, R263). -/

namespace Sys2Proof.Machine

/-! ## Moving bytes for a hart that need not have the turn -/

/-- Bytes of one window or one page, read for a copy of hart `h`, with the checks of R22. -/
def State.copyRead (s : State) (h : Hart) (a : Word) (n : Nat) : Except Cause (List Byte × State) :=
  match padCore h.place.loc a with
  | some core =>
    if s.windowSize core h.place.launch < offsetOf a + n then .error .protect
    else .ok (s.padRead core h.place.launch (offsetOf a) n, s)
  | none =>
    if !(classOf a).isVirt then .error .protect
    else match s.translate (s.fn h.place.fn).ctx a Need.load (fun _ => false) with
    | .error c => .error c
    | .ok p =>
      match s.viewFault p false with
      | some c => .error c
      | none => let s := s.settle p.frame p.off n; .ok (s.viewRead p n, s)

/-- The write requests that `n` bytes at `a` add: one for each 256-byte burst, less the first where they continue the bytes
before them (R69). Log entry 11: DEDUCED. -/
def newRequests (a : Word) (n : Nat) (join : Bool) : Nat :=
  (a.toNat + n - 1) / 256 - a.toNat / 256 + (if join && a.toNat % 256 != 0 then 0 else 1)

/-- A write on a frame that counts as `k` write requests (R69, R70, R115). Log entry 11: DEDUCED. -/
def State.touchMany (s : State) (frame k : Nat) : State :=
  (s.abortConv frame).modMeta frame (fun m => { m with wgen := m.wgen + BitVec.ofNat 32 k, age := 0 })

/-- Bytes written into one window or one page for a copy; `whole` tells whether the destination range begins and ends on
multiples of 32 (R105), `join` whether the bytes continue those the instruction wrote before them. A range that is not whole faults at
its first byte on an HDR page. Log entry 39: DEDUCED. -/
def State.copyWrite (s : State) (h : Hart) (a : Word) (bs : List Byte) (whole join : Bool) : Except Cause State :=
  match padCore h.place.loc a with
  | some core =>
    if classOf a != .loc || s.windowSize core h.place.launch < offsetOf a + bs.length ||
        s.liveRecord core h.place.launch (offsetOf a) bs.length then .error .protect
    else .ok (s.padWrite core h.place.launch (offsetOf a) bs)
  | none =>
    if !(classOf a).isVirt then .error .protect
    else match s.translate (s.fn h.place.fn).ctx a Need.store (fun _ => false) with
    | .error c => .error c
    | .ok p =>
      match s.viewFault p true with
      | some c => .error c
      | none =>
        if entFMT p.e = 11 && !whole then .error .partialBlock
        else .ok (((s.settle p.frame p.off bs.length).rawWrite p.frame p.off bs).touchMany p.frame
          (newRequests a bs.length join))

/-! ## One chunk of a copy in flight -/

/-- The source and destination addresses of byte `p` of a CPY or CPY2, and whether its row's destination range begins and ends on multiples
of 32. -/
def CopyOp.at (op : CopyOp) (p : Nat) : Word × Word × Bool :=
  let row := p / max op.rowBytes 1
  let col := p % max op.rowBytes 1
  let d0 := op.dst + BitVec.ofInt 64 (row * op.dstride)
  (op.src + BitVec.ofInt 64 (row * op.sstride + col), d0 + BitVec.ofNat 64 col, d0.toNat % 32 == 0 && op.rowBytes % 32 == 0)

/-- A byte of a copy, numbered in the copy's order: its source (none for a zero byte of a rejected position, R286), its destination, and
whether the destination range that it belongs to begins and ends on multiples of 32 (R105). -/
structure CopyByte where
  n     : Nat
  src   : Option Word
  dst   : Word
  whole : Bool

/-- The bytes of the operation; those of a PLCPY lie in positions of GRANULE bytes. -/
def CopyOp.bytes (op : CopyOp) : Nat := if op.kind == .plcpy then op.total * op.gran else op.total

/-- The number of the next byte at progress `p`. -/
def CopyOp.counter (op : CopyOp) (p : Nat) : Nat := if op.kind == .plcpy then p * op.gran + op.part else p

/-- The position, or the byte, that the progress counts when byte `n` is next (R54). -/
def CopyOp.progress (op : CopyOp) (n : Nat) : Nat := if op.kind == .plcpy then n / max op.gran 1 else n

/-- Byte `n` of the copy. -/
def CopyOp.byte (op : CopyOp) (n : Nat) : CopyByte :=
  if op.kind == .plcpy then
    ⟨n, (op.posns.getD (n / max op.gran 1) (false, none)).2.map (· + BitVec.ofNat 64 (n % max op.gran 1)),
      op.dst + BitVec.ofNat 64 n, op.dst.toNat % 32 == 0 && op.total * op.gran % 32 == 0⟩
  else let (src, dst, whole) := op.at n; ⟨n, some src, dst, whole⟩

/-- Byte `n` is written: a PLCPY writes those of positions that are selected and not found absent. -/
def CopyOp.writes (op : CopyOp) (n : Nat) : Bool :=
  op.kind != .plcpy || let k := n / max op.gran 1; (op.posns.getD k (false, none)).1 && !op.flags.testBit k

/-- The aligned group of 32 bytes that an address lies in (R121). -/
def groupOf (a : Word) : Word := a &&& ~~~31#64

/-- The source groups that must have been read before a byte is written: its own, and for a PLCPY those of its whole granule, which is
absent or present as one (R286). Log entry 10: DESIGN CHOICE. -/
def CopyOp.groups (op : CopyOp) (b : CopyByte) : List Word :=
  match b.src with
  | none => []
  | some a =>
    if op.kind == .plcpy then
      let a0 := a - BitVec.ofNat 64 (b.n % max op.gran 1)
      (List.range ((a0.toNat % 32 + op.gran + 31) / 32)).map (fun i => groupOf a0 + BitVec.ofNat 64 (32 * i))
    else [groupOf a]

/-- The bytes of the next write unit (R121): those from byte `n` on whose destinations lie in one aligned group of 32 bytes.
Log entry 10: DESIGN CHOICE. -/
def CopyOp.unit (op : CopyOp) (n : Nat) : List CopyByte :=
  (((List.range 32).map (n + ·)).takeWhile (fun k => k < op.bytes && groupOf (op.byte k).dst == groupOf (op.byte n).dst)).map op.byte

/-- The value of a byte: that of its source group, as it was read. -/
def CopyOp.value (op : CopyOp) (b : CopyByte) : Byte :=
  match b.src with
  | none => 0
  | some a => match op.got.find? (fun g => g.1 == groupOf a) with
    | some g => g.2.getD (a.toNat % 32) 0
    | none => 0

/-- Byte `n` continues what the copy wrote just before (R69). Log entry 10: DESIGN CHOICE. -/
def CopyOp.joins (op : CopyOp) (n : Nat) : Bool :=
  n != 0 && op.writes (n - 1) && (op.byte (n - 1)).dst + 1 == (op.byte n).dst

/-- Bytes cut into runs whose destinations lie one after another. -/
def copyRuns : List (CopyByte × Byte) → List (CopyByte × List Byte)
  | [] => []
  | (b, v) :: r =>
    match copyRuns r with
    | [] => [(b, [v])]
    | (c, vs) :: rs => if c.dst == b.dst + 1 && c.whole == b.whole then (b, v :: vs) :: rs else (b, [v]) :: (c, vs) :: rs

/-- The runs written in order, until one faults. `first` tells that the copy has written nothing since it was issued or resumed. -/
def State.putRuns (h : Hart) (op : CopyOp) : Bool → List (CopyByte × List Byte) → State → State × Option (CopyByte × Cause)
  | _, [], s => (s, none)
  | first, (b, vs) :: r, s =>
    match s.copyWrite h b.dst vs b.whole (!first && op.joins b.n) with
    | .error c => (s, some (b, c))
    | .ok t => State.putRuns h op false r t

/-- The source groups that later bytes, from byte `n` on, still need: those of later positions of a PLCPY, whose granules are read once
(R284, R297), else the next byte's. Log entry 10: DESIGN CHOICE. -/
def CopyOp.keeps (op : CopyOp) (n : Nat) (g : Word) : Bool :=
  if op.kind == .plcpy then
    (List.range op.total).any (fun k => n / max op.gran 1 ≤ k && op.writes (k * op.gran) && (op.groups (op.byte (k * op.gran))).contains g)
  else n < op.bytes && (op.groups (op.byte n)).contains g

/-- The copy when byte `n` is next; `wrote` tells whether bytes have been written. -/
def CopyOp.moveTo (op : CopyOp) (n : Nat) (wrote : Bool) : CopyOp :=
  { op with
    got := op.got.filter (fun g => op.keeps n g.1)
    part := if op.kind == .plcpy then n % max op.gran 1 else 0
    first := op.first && !wrote }

/-- The bytes `us` of a unit are written at one instant, and the copy goes on at byte `stop`: the new progress, the copy, the state and the
fault with its address. Log entry 10: DESIGN CHOICE. -/
def State.writeUnit (s : State) (h : Hart) (op : CopyOp) (us : List CopyByte) (stop : Nat) : Nat × CopyOp × State × Option (Cause × Word) :=
  let bs := us.filter (fun b => op.writes b.n)
  match State.putRuns h op op.first (copyRuns (bs.map (fun b => (b, op.value b)))) s with
  | (t, none) => (op.progress stop, op.moveTo stop (!bs.isEmpty), t, none)
  | (t, some (b, c)) => (op.progress b.n, op.moveTo b.n true, t, some (c, b.dst))

/-- The copy with every remaining selected position marked absent whose granule has bytes in a group (R286). -/
def CopyOp.flagGroup (op : CopyOp) (p : Nat) (g : Word) : CopyOp :=
  { op with flags := (List.range op.total).foldl (fun w k =>
      if p ≤ k && op.writes (k * op.gran) && (op.groups (op.byte (k * op.gran))).contains g then w ||| 2 ^ k else w) op.flags }

/-- The next chunk at progress `p`: one source group is read, or one destination group is written (R121). Where a group cannot be read, the
bytes before the one that needs it are written first (R259). Log entry 10: DESIGN CHOICE. -/
def State.nextChunk (s : State) (h : Hart) (op : CopyOp) (p : Nat) : Nat × CopyOp × State × Option (Cause × Word) :=
  let n := op.counter p
  let us := op.unit n
  let due := us.filter (fun b => op.writes b.n)
  match (due.flatMap op.groups).find? (fun g => !op.got.any (fun x => x.1 == g)) with
  | none => s.writeUnit h op us (n + us.length)
  | some g =>
    match s.copyRead h g 32 with
    | .ok (bs, t) => (p, { op with got := op.got ++ [(g, bs)] }, t, none)
    | .error c =>
      if op.kind == .plcpy && op.fk != 0 && c == .absent then (p, op.flagGroup p g, s, none)
      else
        match us.dropWhile (fun b => !(op.writes b.n && b.src.any (fun a => groupOf a == g))) with
        | [] => s.writeUnit h op us (n + us.length)
        | b :: r =>
          if us.length = r.length + 1 then (p, op, s, some (c, b.src.getD 0))
          else s.writeUnit h op (us.take (us.length - r.length - 1)) b.n

/-- The causes that a copy records on its tag; the others reset the partition (R54). -/
def Cause.onTag : Cause → Bool
  | .misalign => true | .absent => true | .absentSt => true | .format => true | .frozen => true | .partialBlock => true
  | _ => false

/-- Tag `t` of the resident hart at `l` moves its next chunk (R54, R259). Log entry 10: DESIGN CHOICE. -/
def State.copyChunk (s : State) (l : HartLoc) (t : Fin 64) : State :=
  match s.harts.find? (fun h => h.resident && h.place.loc == l) with
  | none => s
  | some h =>
    let tag := h.ctl.tags[t]
    match tag.st, tag.op with
    | .busy, some op =>
      let mine := fun (g : Hart) => g.resident && g.place.loc == l
      let (prog, op', s, f) := s.nextChunk h op tag.prog
      let s := s.modHarts mine (fun g => g.setTag t { g.ctl.tags[t] with op := some op', prog := prog })
      match f with
      | none => s
      | some (c, a) =>
        if Cause.onTag c then s.modHarts mine (fun g => g.tagFault t prog c.code a)
        else s.resetPartition h.place.fn c a l h.ctl.pc
    | _, _ => s

/-- The tag holds a copy whose every byte or position has performed. -/
def Tag.finished (t : Tag) : Bool :=
  t.st == .busy && match t.op with
    | some op => op.kind != .pgreq && op.total ≤ t.prog
    | none => true

/-- The tag holds a copy with more to move. -/
def Tag.moving (t : Tag) : Bool :=
  t.st == .busy && match t.op with
    | some op => op.kind != .pgreq && t.prog < op.total
    | none => false

/-- COPY_CHUNK: the next aligned group of 32 bytes that a copy in flight reads from its source, or writes to its destination.
Log entry 10: DESIGN CHOICE. -/
def execCopyChunk (loc : HartLoc) (tag : Fin 64) (s : State) : Out :=
  match s.harts.find? (fun h => h.resident && h.place.loc == loc && h.ctl.tags[tag].moving) with
  | some _ => .next (s.copyChunk loc tag)
  | none => .refused (.cannotOccur "COPY_CHUNK")

/-- COPY_COMPLETE: every byte has performed, and the tag goes to DONE (R53). Log entry 10: DESIGN CHOICE. -/
def execCopyComplete (loc : HartLoc) (tag : Fin 64) (s : State) : Out :=
  match s.harts.find? (fun h => h.resident && h.place.loc == loc && h.ctl.tags[tag].finished) with
  | some _ => .next (s.modHarts (fun g => g.resident && g.place.loc == loc) (fun g => g.tagDone tag))
  | none => .refused (.cannotOccur "COPY_COMPLETE")

/-- Chunks until the copy is no longer in flight; `fuel` bounds them. -/
def State.drainTag (l : HartLoc) (t : Fin 64) : Nat → State → State
  | 0, s => s
  | n + 1, s =>
    match s.harts.find? (fun h => h.resident && h.place.loc == l) with
    | none => s
    | some h =>
      if h.ctl.tags[t].finished then s.modHarts (fun g => g.resident && g.place.loc == l) (fun g => g.tagDone t)
      else if h.ctl.tags[t].moving then State.drainTag l t n (s.copyChunk l t)
      else s

/-- Every copy of the hart at `l` is drained (R331): it ends in DONE or FAULT. -/
def State.drainCopies (s : State) (l : HartLoc) : State :=
  match s.harts.find? (fun h => h.resident && h.place.loc == l) with
  | none => s
  | some h => (List.finRange 64).foldl (fun s t =>
      match h.ctl.tags[t].op with
      | some op => State.drainTag l t (4 * (op.bytes + op.total + 1)) s
      | none => s) s

/-! ## Issue (R53, R257, R258) -/

/-- Wait while the tag is BUSY (R53). -/
def whenTagFree (s : State) (t : Fin 64) (k : Res) : Res := if (s.tag t).st = .busy then .wait s else k

/-- A tag goes to BUSY with an operation. -/
def State.startTag (s : State) (t : Fin 64) (op : CopyOp) : State := s.setTag t ⟨.busy, some op, 0, 0, 0⟩

/-- The source class that R21 allows a copy. -/
def copySrcClass (a : Word) : Bool := classOf a != .none
/-- The destination class that R21 allows a copy. -/
def copyDstClass (a : Word) : Bool := (classOf a).isVirt || classOf a == .loc

/-- The furrow window is one class, whichever core an address of it names (R18). -/
def AddrClass.kind : AddrClass → AddrClass
  | .frw _ => .frw 0
  | c => c

/-- A span that does not wrap and whose ends lie in one class (R257). -/
def spanWhole (x : Span) : Bool :=
  x.1.toNat + x.2 ≤ 2 ^ 64 && (classOf x.1).kind == (classOf (x.1 + BitVec.ofNat 64 (x.2 - 1))).kind

/-- Checks 4 and 5 of R257 on the source and destination spans, then the copy is handed over. -/
def launchCopy (s : State) (t : Fin 64) (src dst : Span) (op : CopyOp) : Res :=
  if !(spanWhole src && copySrcClass src.1) then .trap (trapOf .protect src.1) s
  else if !(spanWhole dst && copyDstClass dst.1) then .trap (trapOf .protect dst.1) s
  else if spansMeet s.loc 1 src dst then .trap (illegal .operand) s
  else whenFree s [src, dst] (.done ((s.noteStore dst).startTag t op))

/-- A copy that issues again marks the plans that watch its destination, as a store does (R57).
Log entry 16: DEDUCED. -/
def State.noteCopy (s : State) (op : CopyOp) : State :=
  match op.spans with
  | d :: _ => s.noteStore d
  | [] => s

def execCpy (h : Hdr) (d a b : Fin 32) (tag : Fin 64) (s : State) : Out :=
  issue h [a, b, d] s (fun s =>
    let n := (s.x b).toNat
    whenTagFree s tag <|
      if 2 ^ 32 < n then .trap (illegal .operand) s
      else if n = 0 then .done (s.setTag tag ⟨.done, none, 0, 0, 0⟩)
      else
        let op : CopyOp := ⟨.cpy, s.x d, s.x a, n, n, 0, 0, 0, [], 0, 0, [], 0, true⟩
        launchCopy s tag (s.x a, n) (s.x d, n) op)

/-- A word of a block read from memory. -/
def blockWord (bs : List Byte) (off n : Nat) : Nat := leNat ((bs.drop off).take n)

def execCpy2 (h : Hdr) (d a b : Fin 32) (tag : Fin 64) (s : State) : Out :=
  issue h [a, b, d] s (fun s =>
    let p := s.x b
    whenTagFree s tag <| whenFree s [(p, 32)] <| blockAligned s p 8 <|
      match s.blockRead p 4 with
      | .error (c, x) => .trap (trapOf c x) s
      | .ok (bs, s) =>
        let rows := blockWord bs 0 8
        let rb := blockWord bs 8 8
        let ss := intOf true 64 (blockWord bs 16 8)
        let ds := intOf true 64 (blockWord bs 24 8)
        if rows = 0 || 65535 < rows || rb = 0 || 2 ^ 20 < rb || 2 ^ 32 < rows * rb ||
            (1 < rows && ds.natAbs < rb) then .trap (illegal .operand) s
        else
          let op : CopyOp := ⟨.cpy2, s.x d, s.x a, rows * rb, rb, ss, ds, 0, [], 0, 0, [], 0, true⟩
          launchCopy s tag (rowSpan (s.x a) rows rb ss) (rowSpan (s.x d) rows rb ds) op)

/-! ## Page requests (R41, R261, R369) -/

/-- The first address of the page an entry maps around `a`. -/
def pageBase (a e : Word) : Word := if entSZ e then a &&& ~~~0x1FFFFF#64 else a &&& ~~~0xFFFF#64

/-- Post a request for the page of `a` on tag `t` of the hart whose turn it is. Log entry 20: DEDUCED. -/
def State.requestPage (s : State) (t : Fin 64) (a : Word) : State :=
  let s := s.startTag t ⟨.pgreq, 0, a, 0, 0, 0, 0, 0, [], 0, 0, [], 0, true⟩
  let e := s.entryAt s.ctx a
  let n := s.hart.place.fn
  let f := s.myFn
  let va := pageBase a e
  if !entV e then s.modHart (fun h => h.tagFault t 0 Cause.protect.code a)
  else if entP e then s.modHart (fun h => h.tagDone t)
  else if f.pr.reqs.any (fun r => r.va == va) then
    let join := modFirst (fun (r : PageReq) => r.va == va) (fun r => { r with waiters := r.waiters ++ [(s.hart.dest, t)] })
    s.modFn n (fun f => { f with pr := { f.pr with reqs := join f.pr.reqs } })
  else if 1024 ≤ f.pr.reqs.countP (fun r => !r.posted) then
    s.modHart (fun h => h.tagFault t 0 Cause.absent.code a)
  else (s.modFn n (fun f => { f with pr := { f.pr with reqs := f.pr.reqs ++ [⟨va, s.loc, [(s.hart.dest, t)], false⟩] } })).flushReqs n

def execPgreq (h : Hdr) (a : Fin 32) (tag : Fin 64) (s : State) : Out :=
  issue h [a] s (fun s =>
    let p := s.x a
    if !(classOf p).isVirt then .trap (trapOf .protect p) s
    else whenTagFree s tag (.done (s.requestPage tag p)))

/-- A tag in FAULT goes back to BUSY and continues from its progress, with its source read again (R260); on any other tag CPRES has no effect. -/
def execCpres (h : Hdr) (tag : Fin 64) (s : State) : Out :=
  issue h [] s (fun s =>
    let t := s.tag tag
    match t.st, t.op with
    | .fault, some op =>
      if op.kind == .pgreq then .done (s.requestPage tag op.src)
      else whenFree s op.spans (.done ((s.noteCopy op).setTag tag { t with
          st := .busy, op := some { op with first := true, got := [], part := 0, flags := op.flags % 2 ^ t.prog } }))
    | _, _ => .done s)

/-! ## Tag waits (R262) -/

/-- The tags whose bits are set. -/
def tagsOf (w : Word) : List (Fin 64) := (List.finRange 64).filter (fun t => w.getLsbD t.val)

/-- TAG_FAULT for the lowest-numbered faulted tag of the mask (R54, R262). -/
def tagFaultTrap (t : Tag) : Trap :=
  { cause := .tagFault, info := BitVec.ofNat 64 (t.cause.toNat * 2 ^ 56 + t.prog % 2 ^ 56), info2 := t.addr }

/-- A tag wait over the mask: wait until it is satisfied, then fault or complete. -/
def tagWait (s : State) (mask : Word) (all : Bool) (k : Res) : Res :=
  let ts := tagsOf mask
  let busy := ts.any (fun t => (s.tag t).st == .busy)
  let ended := ts.any (fun t => (s.tag t).st == .done || (s.tag t).st == .fault)
  if !(!busy || (!all && ended)) then .wait s
  else match ts.find? (fun t => (s.tag t).st == .fault) with
  | some t => .trap (tagFaultTrap (s.tag t)) s
  | none => k

def execTwany (h : Hdr) (d a : Fin 32) (s : State) : Out :=
  issue h [a] s (fun s => tagWait s (s.x a) false (.done (s.setX d (s.hart.tagBits .done &&& s.x a))))
def execTwall (h : Hdr) (a : Fin 32) (s : State) : Out :=
  issue h [a] s (fun s => tagWait s (s.x a) true (.done s))
def execTffr (h : Hdr) (d a : Fin 32) (s : State) : Out :=
  issue h [a] s (fun s => tagWait s (s.x a) false
    (match (tagsOf (s.x a)).find? (fun t => (s.tag t).st == .done) with
      | some t => .done ((s.setTag t Tag.idle).setX d (BitVec.ofNat 64 t.val))
      | none => .done (s.setX d (BitVec.allOnes 64))))
def execTclr (h : Hdr) (a : Fin 32) (s : State) : Out :=
  issue h [a] s (fun s =>
    let ts := tagsOf (s.x a)
    if ts.any (fun t => (s.tag t).st == .busy) then .wait s
    else .done (ts.foldl (fun s t => s.setTag t Tag.idle) s))

/-! ## The tag table (R49 to R52, R263) -/

def ttSlotLg (c : Csrs) : Nat := wfield c.ttcfg 48 4
def ttSetLg (c : Csrs) : Nat := wfield c.ttcfg 44 4
def ttEn (c : Csrs) : Bool := c.ttcfg.getLsbD 32

/-- A share of `n` sets, every way invalid. -/
def emptyShare (n : Nat) : List TagSet := List.replicate n ⟨Vector.replicate 4 none, [0, 1, 2, 3]⟩

/-- Way `w` becomes the most recent. -/
def touchWay (t : TagSet) (w : Fin 4) : TagSet := { t with order := w :: t.order.filter (· != w) }

/-- The way that a miss would replace: the lowest invalid one, else the least recent. -/
def victimWay (t : TagSet) : Fin 4 :=
  match (List.finRange 4).find? (fun w => t.ways[w].isNone) with
  | some w => w
  | none => t.order.getLastD 0

/-- The share with set `i` changed. -/
def modSet (l : List TagSet) (i : Nat) (f : TagSet → TagSet) : List TagSet :=
  (indexed l).map (fun (j, t) => if j = i then f t else t)

/-- STATE without a share (R51). -/
def withShare (s : State) (k : List TagSet → Res) : Res :=
  match s.hart.ctl.share with
  | some l => if ttEn s.hart.csr then k l else .trap (illegal .state) s
  | none => .trap (illegal .state) s

def State.setShare (s : State) (l : List TagSet) : State := s.modCtl (fun c => { c with share := some l })

/-- The line number of an address under the share's slot size. -/
def lineNo (c : Csrs) (va : Word) : Nat := va.toNat / 2 ^ (8 + ttSlotLg c)

def execStlook (h : Hdr) (d a : Fin 32) (s : State) : Out :=
  issue h [a] s (fun s => withShare s (fun l =>
    let n := lineNo s.hart.csr (s.x a)
    let i := n % 2 ^ ttSetLg s.hart.csr
    let t := l.getD i ⟨Vector.replicate 4 none, [0, 1, 2, 3]⟩
    match (List.finRange 4).find? (fun w => t.ways[w] == some n) with
    | some w => .done ((s.setShare (modSet l i (touchWay · w))).setX d (BitVec.ofNat 64 (4 * i + w.val)))
    | none => .done (s.setX d (BitVec.ofNat 64 ((4 * i + (victimWay t).val) * 2 ^ 48 + (2 ^ 48 - 1))))))

def execStset (h : Hdr) (a b : Fin 32) (s : State) : Out :=
  issue h [a, b] s (fun s => withShare s (fun l =>
    let j := (s.x a).toNat
    let n := lineNo s.hart.csr (s.x b)
    let i := n % 2 ^ ttSetLg s.hart.csr
    if 4 * l.length ≤ j || j / 4 != i then .trap (illegal .operand) s
    else
      let w : Fin 4 := Fin.ofNat 4 j
      .done (s.setShare (modSet l i (fun t =>
        let ways := t.ways.map (fun x => if x == some n then none else x)
        touchWay { t with ways := ways.set w (some n) } w)))))

def execStinv (h : Hdr) (a : Fin 32) (s : State) : Out :=
  issue h [a] s (fun s => withShare s (fun l =>
    let j := (s.x a).toNat
    if 4 * l.length ≤ j then .trap (illegal .operand) s
    else
      let w : Fin 4 := Fin.ofNat 4 j
      .done (s.setShare (modSet l (j / 4) (fun t =>
        { ways := t.ways.set w none, order := t.order.filter (· != w) ++ [w] })))))

end Sys2Proof.Machine
end

