-- ==== Sys2Proof/Machine/Retire.lean ====
section
/-! DEFINITION. Barriers (R160, R161) and how a hart retires (R130, R216): what its queue, share, window, ring slot, crew and
launch give up. -/

namespace Sys2Proof.Machine

/-! ## Barriers -/

/-- The hart takes part in the barriers of a crew (`lvl = false`) or of a launch (`lvl = true`). -/
def Hart.inGroup (h : Hart) (lvl : Bool) (launch crew : Nat) : Bool :=
  h.place.launch == launch && (lvl || h.place.crew.toNat == crew)

/-- If every hart of the group has arrived at barrier `id`, all of them are released (R160), and the BAR event of each is
set (R215). -/
def State.tryBarrier (s : State) (lvl : Bool) (launch crew : Nat) (id : BitVec 4) : State :=
  let mem := fun (h : Hart) => h.inGroup lvl launch crew
  let all := s.harts.filter mem
  if !all.isEmpty && all.all (fun h => h.ctl.arrived == some (lvl, id) && !h.ctl.released) then
    (s.modHarts mem (fun h => h.modCtl (fun c => { c with released := true }))).raise 3 mem
  else s

/-- The barriers of a crew and of its launch after a hart has retired: each may now release (R160). -/
def State.tryBarriers (s : State) (launch crew : Nat) : State :=
  (List.finRange 16).foldl (fun s i =>
    let id := BitVec.ofNat 4 i.val
    (s.tryBarrier false launch crew id).tryBarrier true launch crew id) s

/-! ## The copies of started records (R148) -/

/-- The launches of a queue that run. -/
def State.runningOf (s : State) (fn : Nat) (i : Fin 16) : List Launch :=
  s.sched.launches.filter (fun l => l.fn == fn && l.queue == i)

/-- The record of slot count `c` and every record from `j` up to it are checkpointed: no started record without CHECKPOINT lies there.
Log entry 23: DEDUCED. -/
def Queue.checkpointed (q : Queue) (j c : BitVec 32) : Bool := !q.plain.any (inSpan j (c + 1))

/-- The copy of slot count `c` is kept while its launch runs, or while it may be replayed. -/
def State.keepsCopy (s : State) (fn : Nat) (i : Fin 16) (q : Queue) (c : BitVec 32 × Vector Word 8) : Bool :=
  (s.runningOf fn i).any (fun l => l.slot == c.1) ||
    (inSpan q.replayPoint q.head c.1 && checkpointBit c.2 && q.checkpointed q.replayPoint c.1)

/-- A started record without CHECKPOINT still counts: it lies at or after the replay point, or after a launch that runs and may move the
replay point back (R166). -/
def State.keepsPlain (s : State) (fn : Nat) (i : Fin 16) (q : Queue) (c : BitVec 32) : Bool :=
  inSpan q.replayPoint q.head c || (s.runningOf fn i).any (fun l => inSpan l.slot q.head c)

/-- Log entry 23: DEDUCED. -/
def State.trimCopies (s : State) (fn : Nat) (i : Fin 16) : State :=
  s.modQueue fn i (fun q => { q with
    copies := q.copies.filter (s.keepsCopy fn i q), plain := q.plain.filter (s.keepsPlain fn i q) })

/-! ## Completion (R153, R368) -/

/-- The launch has no hart left and every crew has ended: it is taken off, its queue notes the completion, and DONE is reported
after the FENCE.ALL that R368 asks for. -/
def State.endLaunch (s : State) (l : Launch) : State :=
  let s := s.modSched (fun d => { d with launches := d.launches.filter (fun x => x.id != l.id) })
  let s := s.modQueue l.fn l.queue (fun q => { q with done := if q.fence == some l.slot then [l.slot] else q.done })
  (s.trimCopies l.fn l.queue).postEvent l.fn ⟨1, 0, l.queue.val, l.slot.setWidth 64, 0, 0⟩

/-- A crew whose harts have all retired ends, and perhaps its launch with it. -/
def State.endCrew (s : State) (launch crew : Nat) : State :=
  match s.crew? launch crew, s.launch? launch with
  | some c, some l =>
    if c.harts.all c.retired.contains then
      let s := s.modSched (fun d => { d with
        crews := d.crews.filter (fun x => !(x.launch == launch && x.crew == crew)) })
      if l.ended + 1 = l.crewCount then s.endLaunch l
      else s.modLaunch launch (fun x => { x with ended := x.ended + 1 })
    else s
  | _, _ => s

/-! ## Retirement -/

/-- The window and the ring slot of a launch are released where no hart of it is left (R46, R159). -/
def State.releasePlaces (s : State) (launch : Nat) (l : HartLoc) : State :=
  let here := s.harts.filter (fun h => h.place.launch == launch)
  let s := if here.any (fun h => coreOf h.place.loc == coreOf l) then s
    else s.modCores (fun c => { c with
      windows := c.windows.filter (fun w => !(w.core == coreOf l && w.launch == launch)) })
  if here.any (fun h => furrowOf h.place.loc == furrowOf l) then s
  else s.modCores (fun c => { c with rings := c.rings.filter (fun r => !(r.furrow == furrowOf l && r.launch == launch)) })

/-- Messages and credits towards a hart are discarded (R61). Log entry 37: DEDUCED. -/
def State.dropMail (s : State) (d : Dest) : State :=
  s.modCores (fun c => { c with
    credits := c.credits.filter (fun x => x.dest != d)
    net := c.net.filter (fun m => m.1 != d) })

/-- A hart retires (R216): its pin, queue, share and credits go, it counts as arrived at every barrier, and what it leaves empty is
released; a memory service that the firmware holds for it stays with the firmware. -/
def State.retireHart (s : State) (d : Dest) : State :=
  let it := fun (h : Hart) => h.live && h.dest == d
  match s.harts.find? it with
  | none => s
  | some h =>
    let crew := d.crew.toNat
    let s := (s.unpin h).dropMail d
    let s := { s with hart := if it s.hart then Hart.absent else s.hart
                      parked := s.parked.filter (fun h => !it h) }
    let s := s.modFn h.place.fn (fun f => { f with left := f.left ++ h.ctl.svc.toList })
    let s := s.modCrew d.launch crew (fun c => { c with retired := c.retired ++ [d.loc] })
    ((s.tryBarriers d.launch crew).releasePlaces d.launch d.loc).endCrew d.launch crew

end Sys2Proof.Machine
end

