-- ==== Sys2Proof/Machine/Csr.lean ====
section
/-! DEFINITION. The CSRs (R193, R209, R210): what a read returns and which writes are taken. -/

namespace Sys2Proof.Machine

/-- The value of CSR `n`; none for an unassigned number (R193). -/
def State.csrRead (s : State) (n : BitVec 12) : Option Word :=
  let c := s.hart.csr
  let p := s.hart.place
  match n.toNat with
  | 0x000 => some (BitVec.ofNat 64 c.vl)
  | 0x001 => some (BitVec.ofNat 64 c.vtype.bits)
  | 0x002 => some (c.frm.setWidth 64)
  | 0x003 => some (c.fflags.setWidth 64)
  | 0x004 => some c.mcfg
  | 0x005 => some (BitVec.ofNat 64 (p.grant * 65536))
  | 0x010 => some (s.hart.tagBits .done)
  | 0x011 => some (s.hart.tagBits .fault)
  | 0x012 => some (s.hart.tagBits .busy)
  | 0x020 => some c.rpc
  | 0x021 => some c.utvec
  | 0x022 => some c.uepc
  | 0x023 => some (c.ucause.setWidth 64)
  | 0x024 => some c.uinfo
  | 0x025 => some c.ustart
  | 0x026 => some c.uinfo2
  | 0x030 => some (p.crew.setWidth 64)
  | 0x031 => some (p.rank.setWidth 64)
  | 0x032 => some (p.stage.setWidth 64)
  | 0x033 => some (p.loc.setWidth 64)
  | 0x034 => some (p.crews.setWidth 64)
  | 0x035 => some (p.harts.setWidth 64)
  | 0x036 => some (p.stages.setWidth 64)
  | 0x040 => some c.plarena
  | 0x041 => some c.ttcfg
  | 0x042 => some c.mqcfg
  | 0x043 => some c.clbase
  | 0x044 => some c.psent
  | 0x050 => some s.cyc
  | 0x051 => some c.inst
  | 0x052 => some s.myFn.rowstale
  | 0x053 => some c.plrebin
  | 0x060 => some c.xcar
  | _ => none

/-- A region of the window: BASE[31:0] and SIZE[63:32], multiples of 64, wholly within the window (R273, R311). -/
def State.regionOk (s : State) (v : Word) : Bool :=
  wfield v 0 32 % 64 == 0 && wfield v 32 32 % 64 == 0 && wfield v 0 32 + wfield v 32 32 ≤ s.myWindow

/-- Tag entries of a core that no share holds (R49, R50): 4,096 less the shares of its resident and pre-empted harts, the issuing
hart's own apart. -/
def State.freeTagEntries (s : State) : Nat :=
  4096 - ((s.harts.filter (fun h => coreOf h.place.loc == s.core &&
      (h.place.loc != s.loc || h.place.launch != s.hart.place.launch))).map (fun h =>
    match h.ctl.share with
    | some l => 4 * l.length
    | none => 0)).sum

/-- A write of ttcfg (R49, R50). -/
def State.writeTtcfg (s : State) (v : Word) : Option State :=
  let slot := 256 * 2 ^ wfield v 48 4
  let sets := 2 ^ wfield v 44 4
  let base := wfield v 0 32
  let en := v.getLsbD 32
  if wfield v 52 12 != 0 || wfield v 33 11 != 0 || 8 < wfield v 48 4 || 10 < wfield v 44 4 || base % slot != 0 ||
      (en && s.myWindow < base + 4 * sets * slot) then none
  else if en && s.freeTagEntries < 4 * sets then
    some ((s.modCtl (fun c => { c with share := none })).modCsr (fun c => { c with ttcfg := v &&& ~~~(1#64 <<< 32) }))
  else some ((s.modCtl (fun c => { c with share := if en then some (emptyShare sets) else none })).modCsr
    (fun c => { c with ttcfg := v }))

/-- A write of mqcfg (R58). -/
def State.writeMqcfg (s : State) (v : Word) : Option State :=
  if wfield v 45 19 != 0 || 4096 < wfield v 32 13 || wfield v 0 32 % 256 != 0 ||
      s.myWindow < wfield v 0 32 + 256 * wfield v 32 13 || s.hart.csr.mqEntries != 0 then none
  else some (s.modCsr (fun c => { c with mqcfg := v }))

/-- The state after a write of CSR `n`; none where the number is unassigned, the CSR is read-only or its rule refuses the
value (R5, R50, R58, R180, R193, R273, R311). Log entry 19: DEDUCED. -/
def State.csrWrite (s : State) (n : BitVec 12) (v : Word) : Option State :=
  let set := fun (ok : Bool) (f : Csrs → Csrs) => if ok then some (s.modCsr f) else none
  match n.toNat with
  | 0x002 => set (v.toNat < 4) (fun c => { c with frm := v.setWidth 2 })
  | 0x003 => set (wfield v 13 51 == 0 && wfield v 5 3 == 0) (fun c => { c with fflags := v.setWidth 13 })
  | 0x004 => set (mcfgOk v) (fun c => { c with mcfg := v })
  | 0x020 => set true (fun c => { c with rpc := v })
  | 0x021 => set (v.toNat % 8 == 0) (fun c => { c with utvec := v })
  | 0x022 => set (v.toNat % 8 == 0) (fun c => { c with uepc := v })
  | 0x025 => set true (fun c => { c with ustart := v })
  | 0x040 => set (s.regionOk v && s.hart.regs.pl.toList.all Option.isNone) (fun c => { c with plarena := v })
  | 0x041 => s.writeTtcfg v
  | 0x042 => s.writeMqcfg v
  | 0x043 => set (s.regionOk v) (fun c => { c with clbase := v })
  | 0x044 => set (wfield v 33 31 == 0) (fun c => { c with psent := v })
  | 0x053 => set true (fun c => { c with plrebin := v })
  | 0x060 => set true (fun c => { c with xcar := v })
  | _ => none

def execCsrr (h : Hdr) (d : Fin 32) (n : BitVec 12) (s : State) : Out :=
  issue h [] s (fun s =>
    match s.csrRead n with
    | some v => .done (s.setX d v)
    | none => .trap (illegal .csr) s)

/-- A write of the value that `f` makes of the old one. -/
def csrUpdate (h : Hdr) (a : Fin 32) (n : BitVec 12) (s : State) (f : Word → Word → Word) : Out :=
  issue h [a] s (fun s =>
    match (s.csrRead n).bind (fun old => s.csrWrite n (f old (s.x a))) with
    | some t => .done t
    | none => .trap (illegal .csr) s)

def execCsrw (h : Hdr) (a : Fin 32) (n : BitVec 12) (s : State) : Out := csrUpdate h a n s (fun _ v => v)
def execCsrs (h : Hdr) (a : Fin 32) (n : BitVec 12) (s : State) : Out := csrUpdate h a n s (fun old v => old ||| v)
def execCsrc (h : Hdr) (a : Fin 32) (n : BitVec 12) (s : State) : Out := csrUpdate h a n s (fun old v => old &&& ~~~v)

end Sys2Proof.Machine
end

