-- ==== Sys2Proof/Machine/Sys.lean ====
section
/-! DEFINITION. The system instructions (R211 to R219): traps, service calls, debug stops, event
waits, retirement, launches from a hart, and ICSYNC. -/

namespace Sys2Proof.Machine

/-! ## FENCE.ALL (R127) -/

/-- A copy of the hart is in flight; page requests are no copies. -/
def Hart.copying (h : Hart) : Bool :=
  h.ctl.tags.toList.any (fun t => t.st == .busy && match t.op with
    | some op => op.kind != .pgreq
    | none => false)

/-- V accesses of the hart have not performed: a vector instruction is in the sequencer's window, or a message of the hart is on its way
(R119, R121). -/
def State.vPending (s : State) : Bool :=
  !s.hart.ctl.window.isEmpty || s.cores.net.any (fun m => m.2.sender == s.loc)

/-- Accesses of the hart beside its copies have not performed: a scalar store is on its way, or a V access is. -/
def State.unperformed (s : State) : Bool := !s.hart.ctl.stores.isEmpty || s.vPending

/-- Wait for the hart's copies and its other accesses, then apply its pending contributions (R64, R127).
Log entry 8: DEDUCED; log entry 10: DESIGN CHOICE. -/
def fenceAll (s : State) (k : State → Res) : Res :=
  if s.hart.copying || s.unperformed then .wait s else k (s.settleHart s.hart.dest)

/-! ## TRAP, SVC, EBREAK -/

def execTrap (h : Hdr) (code : BitVec 16) (s : State) : Out :=
  issue h [] s (fun s => .trap (trapOf .trap (code.setWidth 64)) s)

/-- A service code that R212 does not assign: BADREQ (R212). -/
def execSvc (h : Hdr) (_code : BitVec 16) (s : State) : Out :=
  issue h [] s (fun s => fenceAll s (fun s => .done (s.setX 10 8)))

/-- The hart stops in debug and a DEBUG event tells where it continues (R162, R372). -/
def State.debugStop (s : State) (cause : Nat) : State :=
  (s.modCtl (fun c => { c with phase := .debug cause })).postEvent s.hart.place.fn
    ⟨8, cause, 0, s.loc.setWidth 64, s.hart.ctl.pc, 0⟩

/-- EBREAK (R213): BREAK resets the partition where no debugger is attached. -/
def execEbreak (h : Hdr) (s : State) : Out :=
  if guardOn h s then
    if s.myFn.dbg then .next (s.retire.debugStop 1) else .next (s.deliver (trapOf .brk 0))
  else .next s.retire

/-! ## WFE, HALT -/

/-- The events that a mask selects: all five for 0 (R215). -/
def wfeMask (m : BitVec 5) : BitVec 5 := if m = 0 then 0b11111 else m

def execWfe (h : Hdr) (d : Fin 32) (m : BitVec 5) (s : State) : Out :=
  issue h [] s (fun s =>
    let got := s.hart.ctl.pend &&& wfeMask m
    if got = 0 then .wait s
    else .done ((s.setX d (got.setWidth 64)).modCtl (fun c => { c with pend := c.pend &&& ~~~got })))

/-- HALT (R216): wait for every tag, FENCE.ALL, retire. -/
def execHalt (h : Hdr) (s : State) : Out :=
  if guardOn h s then
    if s.hart.ctl.tags.toList.any (fun t => t.st == .busy) || s.unperformed then
      .next (s.modCtl (fun c => { c with phase := .waiting }))
    else .next ((s.settleHart s.hart.dest).retire.retireHart s.hart.dest)
  else .next s.retire

/-! ## LAUNCH (R133, R147, R218) -/

/-- Append record bytes to a queue: the slot at QTAIL is written, unless its page refuses that, and QTAIL advances (R147).
Log entry 23: DEDUCED. -/
def State.appendRecord (s : State) (n : Nat) (q : Fin 16) (bs : List Byte) : State :=
  let f := s.fn n
  let x := f.queues[q]
  let s := (s.agentWrite f.ctx (x.base + BitVec.ofNat 64 (64 * (x.tail.toNat % max x.size.toNat 1))) bs).getD s
  s.modQueue n q (fun x => { x with tail := x.tail + 1 })

/-- Steps 3 to 7 of R22 for the record, which is read as one S read. -/
def State.recordRead (s : State) (a : Word) : Except Cause (List Byte × State) :=
  match s.translate s.ctx a Need.load (fun _ => false) with
  | .error c => .error c
  | .ok p =>
    match s.viewFault p false with
    | some c => .error c
    | none => let s := s.settle p.frame p.off 64; .ok (s.viewRead p 64, s)

def execLaunch (h : Hdr) (a b : Fin 32) (s : State) : Out :=
  issue h [a, b] s (fun s =>
    let p := s.x a
    let v := s.x b
    let q : Fin 16 := Fin.ofNat 16 v.toNat
    let x := s.myFn.queues[q]
    if 16 ≤ v.toNat then .trap (trapOf .queue v) s
    else if !(classOf p).isVirt then .trap (trapOf .protect p) s
    else if p.toNat % 64 != 0 then .trap (trapOf .misalign p) s
    else if !(x.en && x.devfed) then .trap (trapOf .queue v) s
    else if x.size.toNat ≤ (x.tail - x.head).toNat || s.unperformed then .wait s
    else whenFree s [(p, 64)] <|
      match (s.settleHart s.hart.dest).recordRead p with
      | .error c => .trap (trapOf c p) s
      | .ok (bs, s) => .done (s.appendRecord s.hart.place.fn q bs))

/-! ## ICSYNC (R139, R219) -/

/-- Log entry 33: DEDUCED. -/
def execIcsync (h : Hdr) (s : State) : Out :=
  issue h [] s (fun s => .done (s.modCores (fun c => { c with
    icache := c.icache.filter (fun w => !(w.core == s.core && w.ctx == s.ctx)) })))

end Sys2Proof.Machine
end

