-- ==== Sys2Proof/Machine/Sync.lean ====
section
/-! DEFINITION. The SYNC instructions (R220 to R224): barriers, transit-ring channels, fences and fence records. -/

namespace Sys2Proof.Machine

/-! ## Barriers (R160, R161, R221) -/

/-- The hart passes a barrier that has released, or waits at it. -/
def passBarrier (s : State) : Res :=
  if s.hart.ctl.released then .done (s.modCtl (fun c => { c with arrived := none, released := false })) else .wait s

/-- BAR: arrive once, when every earlier access of the hart has performed, copies included (R130), and pass when the barrier
has released. -/
def barrier (s : State) (lvl : Bool) (id : BitVec 4) : Res :=
  let p := s.hart.place
  if s.hart.ctl.arrived.isSome then passBarrier s
  else fenceAll s (fun s =>
    let s := s.modCtl (fun c => { c with arrived := some (lvl, id), released := false })
    passBarrier (s.tryBarrier lvl p.launch p.crew.toNat id))

def execBarCrew (h : Hdr) (id : BitVec 4) (s : State) : Out := issue h [] s (fun s => barrier s false id)

/-- The launch of the hart whose turn it is has COSIDENT set. -/
def State.cosident (s : State) : Bool :=
  match s.launch? s.hart.place.launch with
  | some l => l.cosident
  | none => false

def execBarLaunch (h : Hdr) (id : BitVec 4) (s : State) : Out :=
  issue h [] s (fun s => if s.cosident then barrier s true id else .trap (trapOf .barScope (id.setWidth 64)) s)

/-! ## The transit ring (R159, R222) -/

/-- The channels of the launch's slot on a furrow. -/
def State.ringCount (s : State) (furrow launch : Nat) (c : BitVec 4) : BitVec 32 :=
  match s.cores.rings.find? (fun r => r.furrow == furrow && r.launch == launch) with
  | some r => r.counts[c.toFin]
  | none => 0

def execItpost (h : Hdr) (a : Fin 32) (c : BitVec 4) (s : State) : Out :=
  issue h [a] s (fun s =>
    let v : BitVec 32 := (s.x a).setWidth 32
    let furrow := furrowOf s.loc
    let launch := s.hart.place.launch
    if (s.ringCount furrow launch c).ult v then
      let upd := modFirst (fun (r : Ring) => r.furrow == furrow && r.launch == launch)
        (fun r => { r with counts := r.counts.set c.toFin v })
      .done ((s.modCores (fun x => { x with rings := upd x.rings })).raise 2 (fun h =>
        h.place.launch == launch && furrowOf h.place.loc == furrow))
    else .done s)

def execItwait (h : Hdr) (a : Fin 32) (c : BitVec 4) (s : State) : Out :=
  issue h [a] s (fun s =>
    if (s.ringCount (furrowOf s.loc) s.hart.place.launch c).ult ((s.x a).setWidth 32) then .wait s else .done s)

/-! ## Fences (R127, R223) -/

/-- FENCE.SV: the hart's scalar stores reach their targets before anything else of it issues. Log entry 8: DEDUCED. -/
def execFenceSv (h : Hdr) (_sc : Scope) (s : State) : Out :=
  issue h [] s (fun s => if s.hart.ctl.stores.isEmpty then .done s else .wait s)
/-- FENCE.VS: earlier V accesses perform, the merging adds among them (R64); copies in flight are left out. Log entry 8: DEDUCED. -/
def execFenceVs (h : Hdr) (_sc : Scope) (s : State) : Out :=
  issue h [] s (fun s => if s.vPending then .wait s else .done (s.settleHart s.hart.dest))
def execFenceVv (h : Hdr) (_sc : Scope) (s : State) : Out := issue h [] s (fun s => fenceAll s (fun s => .done s))
def execFenceAll (h : Hdr) (_sc : Scope) (s : State) : Out := issue h [] s (fun s => fenceAll s (fun s => .done s))

/-! ## Fence records (R134, R166, R224) -/

/-- The fence record of a checkpointed launch has performed: it becomes the queue's most recent one, and the copies before
the replay point are released (R148, R166). -/
def State.noteFenceRec (s : State) : State :=
  match s.launch? s.hart.place.launch with
  | none => s
  | some l =>
    if l.checkpoint then
      (s.modQueue l.fn l.queue (fun q => { q with
        fence := some l.slot
        done := []
        replayed := none })).trimCopies l.fn l.queue
    else s

def execFencerec (h : Hdr) (a b : Fin 32) (s : State) : Out :=
  issue h [a, b] s (fun s =>
    let p := s.x a
    fenceAll s (fun s =>
      if !(classOf p).isVirt then .trap (trapOf .protect p) s
      else if p.toNat % 8 != 0 then .trap (trapOf .misalign p) s
      else match (s.noteStore (p, 8)).storePerform ⟨p, 8, s.x b, s.hart.ctl.pc, none⟩ with
      | .error c => .trap (trapOf c p) s
      | .ok s => .done s.noteFenceRec))

end Sys2Proof.Machine
end

