-- ==== Sys2Proof/Machine/Vrem.lean ====
section
/-! DEFINITION. Merging adds from vectors (R264, R265), messages with their credits (R59 to R61, R266 to R268) and sleeping on
memory (R269, R270). -/

namespace Sys2Proof.Machine

/-! ## Merging adds -/

/-- A value rounded into FP32, as its bits (R63): beyond the range it becomes infinite. -/
def f32Bits (v : FVal) : Word := BitVec.ofNat 64 (specF32.round false 0 v).1

/-- How contributions of a vtype format join a page (R63, R265). -/
def mergeKind (fmt : Nat) (f : Fmt) : MergeKind :=
  if f.isInt then .int f.width else if fmt = 0 then .raw f else .page fmt

/-- The contribution of element `i`. -/
def State.contribution (s : State) (b : Fin 64) (sc : Option (Fin 8)) (i : Nat) : Word :=
  if s.vt.fmt.isInt then BitVec.ofNat 64 (s.elt b s.vt.fmt.width i) else f32Bits (s.storeValue b sc i)

/-- The contributions in ascending order of element arrive at their stacks. -/
def State.sendAll (s : State) (cs : List MergeAdd) : State := cs.foldl State.mergeArrive s

/-- Log entry 39: DEDUCED. -/
def execVramo (h : Hdr) (a : Fin 32) (b : CVec) (m : Fin 8) (_sc : Scope) (rl : Bool) (s : State) : Out :=
  issue h [a] s (fun s =>
    let a0 := s.x a
    let f := s.vt.fmt
    let sb := s.stepBits a0 f.width
    let order := fun (k : State → Res) => if rl then fenceAll s k else k s
    whenMasks s [m] <| vcheck s (fun f => f == .f32 || f == .bf16) [b.r] <| needs (!s.rowTooShort a0 sb) .operand s <|
      whenFree s (accessSpan a0 1 sb s.vl) <| order (fun s =>
        match s.todo m with
        | [] => rowIdle s a0 sb (.done s)
        | i0 :: _ =>
          let x := (eltAddr a0 1 sb i0).1
          if !(classOf a0).isVirt then .trap (trapOf .protect x i0) s
          else match s.translate s.ctx a0 Need.store (rowMisaligned a0 sb) with
          | .error .misalign => .trap (trapOf .misalign a0 i0) s
          | .error c => .trap (trapOf c x i0) s
          | .ok p =>
            if (s.pmeta p.frame).state = 3 then .trap (trapOf .integrity x i0) s
            else if !entRC p.e then .trap (trapOf .format x i0) s
            else
              let one := fun (i : Nat) => (⟨p.frame, p.off + i * (sb / 8), 0, entRow p.e, mergeKind (entFMT p.e) f,
                s.contribution b.r none i, some s.hart.dest, true⟩ : MergeAdd)
              .done ((s.noteSpans (accessSpan a0 1 sb s.vl)).sendAll ((s.todo m).map one))))

/-- The checks of R22 and R106 for element `i` of a VRRED, and its contribution. -/
def State.reduceElt (s : State) (b : Fin 64) (a : Word) (nib sb : Nat) (sc : Option (Fin 8)) (i : Nat) :
    Except Cause MergeAdd :=
  let f := s.vt.fmt
  if !(classOf a).isVirt then .error .protect
  else match s.translate s.ctx a Need.store (fun e =>
      (sb ≥ 8 && a.toNat % (sb / 8) != 0) || (logicalSize (entFMT e) != 0 && a.toNat % logicalSize (entFMT e) != 0)) with
  | .error c => .error c
  | .ok p =>
    let m := s.pmeta p.frame
    let fmt := entFMT p.e
    if m.state = 3 then .error .integrity
    else if !sameStep p.e sb f.width || (fmt != 0 && f.isInt) || fmt == 10 then .error .format
    else if m.state = 2 then .error .frozen
    else .ok ⟨p.frame, p.off, nib, if entRC p.e then entRow p.e else 0, mergeKind fmt f, s.contribution b sc i, some s.hart.dest, false⟩

/-- Contributions of a VRRED in ascending order until an element faults. -/
def sendWalk (f : Nat → Except (Cause × Word) MergeAdd) : List Nat → State → Res
  | [], s => .done s
  | i :: r, s =>
    match f i with
    | .error (c, a) => .trap (trapOf c a i) s
    | .ok x => sendWalk f r (s.mergeArrive x)

def execVrred (h : Hdr) (a : Fin 32) (b : CVec) (m : Fin 8) (sc : Option (Fin 8)) (s : State) : Out :=
  issue h [a] s (fun s =>
    let a0 := s.x a
    let sb := s.stepBits a0 s.vt.fmt.width
    whenMasks s [m] <| vcheck s (· != .q4) [b.r] <| whenFree s (accessSpan a0 1 sb s.vl) <|
      sendWalk (fun i =>
        let (x, nib) := eltAddr a0 1 sb i
        match s.reduceElt b.r x nib sb sc i with
        | .error c => .error (c, x)
        | .ok c => .ok c) (s.todo m) (s.noteSpans (accessSpan a0 1 sb s.vl)))

/-! ## Credits (R59) -/

/-- The credits a core holds towards a hart; none where it keeps no count for it. -/
def State.creditOf (s : State) (core : Nat) (d : Dest) : Option Nat :=
  (s.cores.credits.find? (fun c => c.core == core && c.dest == d)).map Credit.n

def State.modCredit (s : State) (core : Nat) (d : Dest) (f : Nat → Nat) : State :=
  s.modCores (fun c => { c with
    credits := modFirst (fun x => x.core == core && x.dest == d) (fun x => { x with n := f x.n }) c.credits })

/-- The live hart at a place that belongs to the launch of the hart whose turn it is (R61): a resident one before one that was pre-empted
there. Log entry 37: DEDUCED. -/
def State.peer? (s : State) (l : HartLoc) : Option Hart :=
  let hs := s.harts.filter (fun h => h.place.launch == s.hart.place.launch && h.place.loc == l)
  match hs.find? Hart.resident with
  | some h => some h
  | none => hs.head?

/-- A push of the core to a hart is under way: a message on its way, or a credit request that is held. -/
def State.pushing (s : State) (core : Nat) (d : Dest) : Bool :=
  s.cores.net.any (fun m => m.1 == d && coreOf m.2.sender == core) ||
    s.harts.any (fun h => h.dest == d && h.ctl.mq.held.any (fun l => coreOf l == core))

/-- Credit counts are dropped, and their unused credits go back to the targets (R59). -/
def State.dropCredits (s : State) (p : Credit → Bool) : State :=
  ((s.cores.credits.filter p).foldl (fun s x => s.modAt x.dest (fun h => h.modCtl (fun c =>
    { c with mq := { c.mq with promised := c.mq.promised - x.n } }))) s).modCores (fun c =>
      { c with credits := c.credits.filter (fun x => !p x) })

/-- Room for a count towards `d`: a 33rd destination drops the least recently pushed-to one with no push in flight, whose unused
credits go back (R59). -/
def State.makeCredit (s : State) (core : Nat) (d : Dest) : Option State :=
  let mine := s.cores.credits.filter (fun c => c.core == core)
  let add := fun (s : State) => s.modCores (fun c => { c with credits := ⟨core, d, 0⟩ :: c.credits })
  if mine.any (fun c => c.dest == d) then some s
  else if mine.length < 32 then some (add s)
  else match mine.reverse.find? (fun c => !s.pushing core c.dest) with
  | none => none
  | some old =>
    some (add (s.dropCredits (· == old)))

/-- The push of the hart whose turn it is waits for credits of `g`: it sends a credit request, which the target holds in arrival order
(R59), unless the target holds the one it has sent. -/
def State.requestCredit (s : State) (g : Hart) : State :=
  if s.hart.ctl.pushTo.isSome && g.ctl.mq.held.contains s.loc then s
  else (s.modAt g.dest (fun h => h.modCtl (fun c => { c with mq := { c.mq with held := c.mq.held ++ [s.loc] } }))).modCtl
    (fun c => { c with pushTo := some (g.place.crew, g.place.rank) })

/-- The hart that a waiting push has asked for credits is another than `g`: it has retired (R61).
Log entry 37: DEDUCED. -/
def State.pushLost (s : State) (g : Hart) : Bool :=
  match s.hart.ctl.pushTo with
  | some p => p != (g.place.crew, g.place.rank)
  | none => false

/-- F of a hart's queue: entries neither occupied nor promised. -/
def Hart.freeEntries (h : Hart) : Nat := h.csr.mqEntries - h.ctl.mq.msgs.length - h.ctl.mq.promised

/-- A hart at `l` grants its first held request: min(F, 4) credits. Log entry 37: DEDUCED. -/
def State.grantCredit (s : State) (l : HartLoc) : Option State :=
  match s.harts.find? (fun h => h.place.loc == l && !h.ctl.mq.held.isEmpty && h.freeEntries != 0) with
  | none => none
  | some h =>
    match h.ctl.mq.held with
    | [] => none
    | from' :: rest =>
      let n := min h.freeEntries 4
      let s := s.modAt h.dest (fun h => h.modCtl (fun c =>
        { c with mq := { c.mq with held := rest, promised := c.mq.promised + n } }))
      some (s.modCredit (coreOf from') h.dest (· + n))

/-- CREDIT_GRANT: the hart at `dst` serves its first held request. -/
def execCreditGrant (dst : HartLoc) (s : State) : Out :=
  match s.grantCredit dst with
  | some t => .next t
  | none => .refused (.cannotOccur "CREDIT_GRANT")

/-! ## Messages (R60, R61, R266 to R268) -/

/-- The message that a push sends: the first n bytes of the group (R266). -/
def State.messageBytes (s : State) (b : Fin 64) (n : Nat) : List Byte :=
  (List.range n).map (fun j => BitVec.ofNat 8 (s.elt b 8 j))

/-- One credit is spent and the message is on its way; the destination becomes the most recent. -/
def State.sendMessage (s : State) (d : Dest) (bs : List Byte) : State :=
  let it := fun (x : Credit) => x.core == s.core && x.dest == d
  s.modCores (fun c => { c with
    credits := ((c.credits.filter it).map (fun x => { x with n := x.n - 1 })) ++ c.credits.filter (fun x => !it x)
    net := c.net ++ [(d, ⟨s.loc, bs⟩)] })

/-- The window offset of the ring entry that the next message to a hart's queue is delivered into. -/
def State.nextEntry (s : State) (g : Hart) : Nat :=
  let ahead := s.cores.net.countP (fun m => m.1 == g.dest)
  g.csr.mqBase + 256 * ((g.ctl.mq.head + g.ctl.mq.msgs.length + ahead) % max g.csr.mqEntries 1)

/-- The ring entry of the next message to `l` overlaps a live plan record (R274). Log entry 37: DEDUCED. -/
def State.ringGuarded (s : State) (l : HartLoc) : Bool :=
  match s.peer? l with
  | some g => s.liveRecord (coreOf l) s.hart.place.launch (s.nextEntry g) 256
  | none => false

/-- The local address of the ring entry of the next message to `l`, the faulting address of R274. Log entry 39: DEDUCED. -/
def State.entryAddr (s : State) (l : HartLoc) : Word :=
  match s.peer? l with
  | some g => locAddr (s.nextEntry g)
  | none => 0

/-- MESSAGE_DELIVERY: a pushed message arrives, the first of its sender on its way to this destination (R60). It finds the entry
that its credit promised. Log entry 37: DEDUCED. -/
def State.deliverMessage (s : State) (l : HartLoc) (msg : Message) : Option State :=
  match s.cores.net.find? (fun m => m.1.loc == l && m.2 == msg) with
  | none => none
  | some m =>
    match s.cores.net.find? (fun x => x.1 == m.1 && x.2.sender == msg.sender), s.hartAt m.1 with
    | some first, some h =>
      if first != m then none
      else
        let i := (h.ctl.mq.head + h.ctl.mq.msgs.length) % max h.csr.mqEntries 1
        let s := s.modCores (fun c => { c with net := c.net.erase m })
        let s := s.padWrite (coreOf l) h.place.launch (h.csr.mqBase + 256 * i) msg.bytes
        let s := s.modAt m.1 (fun h => h.modCtl (fun c => { c with
          mq := { c.mq with msgs := c.mq.msgs ++ [(msg.bytes.length, msg.sender)], promised := c.mq.promised - 1 } }))
        some (s.raise 1 (fun h => h.dest == m.1))
    | _, _ => none

/-- The message of a push goes off; in a queue of the sender's own core it stands at once, as the sender's later reads of the ring find it
(R125). Log entry 37: DEDUCED. -/
def State.pushMessage (s : State) (d : Dest) (bs : List Byte) : State :=
  let t := (s.sendMessage d bs).modCtl (fun c => { c with pushTo := none })
  if coreOf d.loc = s.core then (t.deliverMessage d.loc ⟨s.loc, bs⟩).getD t else t

/-- MQPUSH: a release, so the hart's earlier accesses and pushes perform first (R128). Log entry 39: DEDUCED. -/
def execMqpush (h : Hdr) (a : Fin 32) (b : CVec) (s : State) : Out :=
  issue h [a] s (fun s =>
    let x := s.x a
    let dst : HartLoc := x.setWidth 12
    let n := (s.vl * s.vt.fmt.width + 7) / 8
    vcheck s anyFmt [b.r] <|
      match s.peer? dst with
      | none => .trap (trapOf .queue x) s
      | some g =>
        if 4096 ≤ x.toNat || 256 < n || s.pushLost g then .trap (trapOf .queue x) s
        else fenceAll s (fun s =>
          match s.creditOf s.core g.dest with
          | some (_ + 1) =>
            if s.ringGuarded dst then .trap (trapOf .protect (s.entryAddr dst)) s
            else .done (s.pushMessage g.dest (s.messageBytes b.r n))
          | _ =>
            match s.makeCredit s.core g.dest with
            | none => .wait s
            | some t => .wait (t.requestCredit g)))

def execMessageDelivery (dst : HartLoc) (msg : Message) (s : State) : Out :=
  match s.deliverMessage dst msg with
  | some t => .next t
  | none => .refused (.cannotOccur "MESSAGE_DELIVERY")

def execMqpop (h : Hdr) (d : Fin 64) (s : State) : Out :=
  issue h [] s (fun s =>
    vcheck s anyFmt [d] <| popMsg s (fun bs s =>
      .done ((List.range 256).foldl (fun s j => s.setElt d 8 j (bs.getD j 0).toNat) s)))

def execMqcred (h : Hdr) (d a : Fin 32) (s : State) : Out :=
  issue h [a] s (fun s =>
    let x := s.x a
    let n := if 4096 ≤ x.toNat then 0 else ((s.peer? (x.setWidth 12)).bind (fun g => s.creditOf s.core g.dest)).getD 0
    .done (s.setX d (BitVec.ofNat 64 n)))

/-! ## GCSLEEP (R269, R270) -/

/-- The words of the active elements read in ascending order: the elements whose word equals the expected value, or the first
fault. -/
def sleepWalk (a b : Fin 64) : List Nat → State → List Nat → List Nat × State × Option (Cause × Nat × Word)
  | [], s, sat => (sat.reverse, s, none)
  | i :: r, s, sat =>
    let p := BitVec.ofNat 64 (s.elt a 64 i)
    if !(classOf p).isVirt then (sat.reverse, s, some (.protect, i, p))
    else match s.scalarRead p 8 with
    | .error c => (sat.reverse, s, some (c, i, p))
    | .ok (bs, s) => sleepWalk a b r s (if leNat bs = s.elt b 64 i then i :: sat else sat)

def State.setSleep (s : State) (r : Option SleepRec) : State := s.modCtl (fun c => { c with sleep := r })

/-- One evaluation of a GCSLEEP. It has no start index (R325): after a fault the whole of it is evaluated again. -/
def sleepOnce (s : State) (r : SleepRec) : Res :=
  let act := (List.range s.vl).filter (s.active r.m)
  let spans := act.map (fun i => (BitVec.ofNat 64 (s.elt r.a.r 64 i), 8))
  whenMasks s [r.m, r.d] <| needs (s.vl ≤ 64) .operand s <|
    vcheck s (fun f => f == .i64 || f == .n64) [r.a.r, r.b.r] <| whenFree s spans <|
      match sleepWalk r.a.r r.b.r act s [] with
      | (_, t, some (c, _, p)) => .trap (trapOf c p) (t.setSleep none)
      | (sat, t, none) =>
        if act.isEmpty || (if r.allm then sat.length == act.length else !sat.isEmpty) then
          .done ((List.range s.vl).foldl (fun t i => t.setKbit r.d i (sat.contains i)) (t.setSleep none))
        else .wait (t.setSleep (some r)).pinDone

def execGcsleep (h : Hdr) (d : Fin 8) (a b : CVec) (m : Fin 8) (sc : Scope) (aq allm : Bool) (s : State) : Out :=
  issue h [] s (fun s => sleepOnce s ⟨h, d, a, b, m, sc, aq, allm⟩)

/-- A hart gets the turn. -/
def State.turnTo (s : State) (h : Hart) : State :=
  if h = s.hart then s else { s with hart := h, parked := (if s.hart.live then [s.hart] else []) ++ s.parked.erase h }

/-- The resident hart at `l` gets the turn; the one that had it waits first in line. -/
def State.bringTurn (s : State) (l : HartLoc) : State :=
  if s.hart.resident && s.hart.place.loc == l then s
  else match s.parked.find? (fun h => h.place.loc == l && h.resident) with
  | none => s
  | some h =>
    let rest := s.parked.erase h
    { s with hart := h, parked := if s.hart.live then s.hart :: rest else rest }

/-- GCSLEEP_REEVALUATION: a sleeping hart evaluates again (R270). -/
def execGcsleepReevaluation (loc : HartLoc) (s : State) : Out :=
  let t := s.bringTurn loc
  match t.hart.ctl.sleep with
  | some r =>
    if t.hart.place.loc == loc && t.hart.ctl.phase == .waiting then .next (finish t (sleepOnce t r))
    else .refused (.cannotOccur "GCSLEEP_REEVALUATION")
  | none => .refused (.cannotOccur "GCSLEEP_REEVALUATION")

end Sys2Proof.Machine
end

