-- ==== Sys2Proof/Machine/PlanRec.lean ====
section
/-! DEFINITION. Plan records: how a build classifies positions (R276), the record's bytes (R279, R280), runs (R281), the arena
(R273, R274), images (R295) and staleness (R282). -/

namespace Sys2Proof.Machine

/-! ## Building (R276, R281) -/

/-- The constants of a plan: BOUND, sentinel, BASE and GRANULE (R275). -/
structure PlanKey where
  bound  : Nat
  sent   : Nat
  senten : Bool
  base   : Word
  gran   : Nat
deriving DecidableEq, Repr

/-- A run of the run table: first slot, slots, stack (12: the headland die). -/
structure Run where
  first : Nat
  count : Nat
  stack : Nat
deriving DecidableEq, Repr

/-- A plan record as data. -/
structure PlanRec where
  key    : PlanKey
  flags  : Nat
  dist   : List Nat
  slot   : List Nat          -- 0xFFFF for a rejected position
  order  : List Nat          -- the accepted positions
  gstart : List Nat
  runs   : List Run
  srcva  : Nat
  wgens  : List (BitVec 32)
deriving DecidableEq, Repr

def rejected : Nat := 0xFFFF

def PlanRec.n (p : PlanRec) : Nat := p.slot.length
def PlanRec.d (p : PlanRec) : Nat := p.dist.length
def PlanRec.stale (p : PlanRec) : Bool := p.flags.testBit 5

/-- Position `p` is accepted: neither the sentinel nor at or above BOUND (R276). -/
def PlanKey.accepts (k : PlanKey) (x : Nat) : Bool := !(k.senten && k.sent == x) && x < k.bound

/-- Insertion into a strictly rising list. -/
def insertRising (x : Nat) : List Nat → List Nat
  | [] => [x]
  | y :: r => if x < y then x :: y :: r else if x = y then y :: r else y :: insertRising x r

/-- A list never decreases. -/
def rising : List Nat → Bool
  | [] => true
  | [_] => true
  | a :: b :: r => a ≤ b && rising (b :: r)

/-- The stack that serves an address: its home stack, or the headland die (R23, R24, R281), also where BASE makes it no virtual address.
Log entry 16: DEDUCED. -/
def runStack (ctx : BitVec 16) (a : Word) : Nat :=
  match classOf a with
  | .virt => homeStack ctx a
  | .sys => 12
  | .loc => 12
  | .frw _ => 12
  | .none => 12

/-- The 256-byte burst that holds the whole granule at `a`, if one does. -/
def burstOf (a gran : Nat) : Option Nat := if a / 256 = (a + gran - 1) / 256 then some (a / 256) else none

/-- Runs of the slots from `d` on, in slot order; `cur` is the run that grows, with its burst. -/
def runsFrom (ctx : BitVec 16) (k : PlanKey) : List Nat → Nat → Option (Run × Option Nat) → List Run
  | [], _, cur => (cur.map Prod.fst).toList
  | x :: r, d, cur =>
    let a := k.base + BitVec.ofNat 64 (x * k.gran)
    let b := burstOf a.toNat k.gran
    let fresh : Run := ⟨d, 1, runStack ctx a⟩
    match cur with
    | none => runsFrom ctx k r (d + 1) (some (fresh, b))
    | some (run, c) =>
      if b.isSome && b == c then runsFrom ctx k r (d + 1) (some ({ run with count := run.count + 1 }, c))
      else run :: runsFrom ctx k r (d + 1) (some (fresh, b))

/-- Runs grouped by ascending stack, and by ascending first slot within a stack. -/
def sortRuns (rs : List Run) : List Run := (List.range 13).flatMap (fun st => rs.filter (fun r => r.stack == st))

def planRuns (ctx : BitVec 16) (k : PlanKey) (dist : List Nat) : List Run := sortRuns (runsFrom ctx k dist 0 none)

/-- GSTART: for each slot the accepted positions of lower slots, then their whole count. -/
def groupStarts (order : List Nat) (slot : List Nat) (d : Nat) : List Nat :=
  (List.range (d + 1)).map (fun g => order.countP (fun p => slot.getD p rejected < g))

/-- The plan of a list of positions, each with its index or rejected (R276). -/
def PlanKey.build (k : PlanKey) (ctx : BitVec 16) (xs : List (Option Nat)) : PlanRec :=
  let acc := xs.filterMap id
  let dist := acc.foldl (fun l x => insertRising x l) []
  let slot := xs.map (fun o => match o with
    | some x => dist.findIdx (· == x)
    | none => rejected)
  let order := (List.range dist.length).flatMap (fun d =>
    (List.range slot.length).filter (fun p => slot.getD p rejected == d))
  let flags := (if dist.length < acc.length then 1 else 0) + (if acc.length < xs.length then 2 else 0) +
    (if k.senten then 64 + (if k.sent < k.bound then 4 else 0) else 0) + (if rising acc then 8 else 0)
  ⟨k, flags, dist, slot, order, groupStarts order slot dist.length, planRuns ctx k dist, 0, []⟩

/-- The positions of a list of 32-bit indices. -/
def PlanKey.classify (k : PlanKey) (idx : List Nat) : List (Option Nat) :=
  idx.map (fun x => if k.accepts x then some x else none)

/-! ## The record's bytes (R279, R280) -/

def align8 (x : Nat) : Nat := (x + 7) / 8 * 8

/-- Offsets of SLOT, ORDER, GSTART and RUNS for `n` positions and `d` distinct indices. -/
def offSlot (d : Nat) : Nat := align8 (0x40 + 4 * d)
def offOrder (n d : Nat) : Nat := align8 (offSlot d + 2 * n)
def offGstart (n d : Nat) : Nat := align8 (offOrder n d + 2 * n)
def offRuns (n d : Nat) : Nat := align8 (offGstart n d + 2 * (d + 1))
def planSize (n d nruns : Nat) : Nat := offRuns n d + 32 + 8 * nruns

def PlanRec.size (p : PlanRec) : Nat := planSize p.n p.d p.runs.length

/-- Bytes filled up with zeros to `n`. -/
def padTo (n : Nat) (bs : List Byte) : List Byte := bs ++ List.replicate (n - bs.length) 0

/-- The 64-byte header. -/
def PlanRec.header (p : PlanRec) : List Byte :=
  leBytes 2 0x504C ++ leBytes 1 1 ++ leBytes 1 p.flags ++ leBytes 2 p.n ++ leBytes 2 p.d ++ leBytes 2 p.key.gran ++
    leBytes 2 p.runs.length ++ leBytes 4 p.key.sent ++ leBytes 8 p.key.bound ++ leBytes 8 p.key.base.toNat ++
    leBytes 7 p.srcva ++ leBytes 1 p.wgens.length ++
    padTo 20 (p.wgens.flatMap (fun w => leBytes 4 w.toNat)) ++ leBytes 4 p.size

/-- The run directory and the run entries (R281). -/
def PlanRec.runBytes (p : PlanRec) : List Byte :=
  padTo 32 ((List.range 12).flatMap (fun st => leBytes 2 (p.runs.countP (fun r => r.stack == st)))) ++
    p.runs.flatMap (fun r => leBytes 8 (r.first + r.count * 2 ^ 16 + r.stack * 2 ^ 32))

/-- The whole record. -/
def PlanRec.bytes (p : PlanRec) : List Byte :=
  let b := padTo (offSlot p.d) (p.header ++ p.dist.flatMap (leBytes 4))
  let b := padTo (offOrder p.n p.d) (b ++ p.slot.flatMap (leBytes 2))
  let b := padTo (offGstart p.n p.d) (b ++ padTo (2 * p.n) (p.order.flatMap (leBytes 2)))
  padTo (offRuns p.n p.d) (b ++ p.gstart.flatMap (leBytes 2)) ++ p.runBytes

/-- The number of `len` bytes at `off`. -/
def recNat (bs : List Byte) (off len : Nat) : Nat := leNat ((bs.drop off).take len)

/-- `n` numbers of `w` bytes from `off` on. -/
def recList (bs : List Byte) (off w n : Nat) : List Nat := (List.range n).map (fun i => recNat bs (off + w * i) w)

/-- The record that bytes hold. -/
def readRec (bs : List Byte) : PlanRec :=
  let flags := recNat bs 3 1
  let n := recNat bs 4 2
  let d := recNat bs 6 2
  let slot := recList bs (offSlot d) 2 n
  let acc := slot.countP (· != rejected)
  { key := ⟨recNat bs 0x10 8, recNat bs 0x0C 4, flags.testBit 6, BitVec.ofNat 64 (recNat bs 0x18 8), recNat bs 8 2⟩
    flags := flags
    dist := recList bs 0x40 4 d
    slot := slot
    order := (recList bs (offOrder n d) 2 n).take acc
    gstart := recList bs (offGstart n d) 2 (d + 1)
    runs := (recList bs (offRuns n d + 32) 8 (recNat bs 0x0A 2)).map (fun w =>
      ⟨natField w 0 16, natField w 16 16, natField w 32 8⟩)
    srcva := recNat bs 0x20 7
    wgens := (recList bs 0x28 4 (min (recNat bs 0x27 1) 5)).map (BitVec.ofNat 32) }

/-- Strictly rising. -/
def strictly : List Nat → Bool
  | [] => true
  | [_] => true
  | a :: b :: r => a < b && strictly (b :: r)

/-- A power of two from 1 to 2,048. -/
def granOk (g : Nat) : Bool := (List.range 12).any (fun k => g == 2 ^ k)

/-- The first 64 bytes of an image agree with themselves (R295): PLLOAD reads the rest only then. -/
def headerOk (bs : List Byte) : Bool :=
  let n := recNat bs 4 2
  let d := recNat bs 6 2
  recNat bs 0 2 == 0x504C && recNat bs 2 1 == 1 && !(recNat bs 3 1).testBit 7 && d ≤ n &&
    recNat bs 0x3C 4 == planSize n d (recNat bs 0x0A 2) && recNat bs 0x27 1 ≤ 5 &&
    granOk (recNat bs 8 2) && recNat bs 0x18 8 % recNat bs 8 2 == 0

/-- The arrays of an image agree with one another (R276, R295). -/
def imageOk (bs : List Byte) : Bool :=
  let p := readRec bs
  let acc := (List.range p.n).filter (fun q => p.slot.getD q rejected != rejected)
  let order := (List.range p.d).flatMap (fun d => acc.filter (fun q => p.slot.getD q rejected == d))
  strictly p.dist && p.dist.all (· < p.key.bound) && acc.all (fun q => p.slot.getD q rejected < p.d) &&
    recList bs (offOrder p.n p.d) 2 p.n == order ++ List.replicate (p.n - order.length) 0 &&
    p.gstart == groupStarts order p.slot p.d && strictly p.gstart

/-! ## The arena (R273, R274) -/

def Csrs.arenaBase (c : Csrs) : Nat := wfield c.plarena 0 32
def Csrs.arenaSize (c : Csrs) : Nat := wfield c.plarena 32 32

/-- The live records of the hart: offsets and sizes. -/
def State.liveRecs (s : State) : List (Nat × Nat) :=
  s.hart.regs.pl.toList.filterMap (fun p => p.map (fun r => (r.off, r.size)))

/-- The place of a record of `size` bytes: the lowest multiple of 64 where it fits (R274). -/
def State.arenaPlace (s : State) (size : Nat) : Option Nat :=
  let b := s.hart.csr.arenaBase
  let live := s.liveRecs
  let starts := b :: live.map (fun r => (r.1 + r.2 + 63) / 64 * 64)
  let fits := fun (o : Nat) => b ≤ o && o + size ≤ b + s.hart.csr.arenaSize &&
    live.all (fun r => o + size ≤ r.1 || r.1 + r.2 ≤ o)
  (starts.filter fits).min?

def State.setPl (s : State) (h : Fin 16) (v : Option PlanRef) : State :=
  s.modRegs (fun g => { g with pl := g.pl.set h v })

/-- PLAN_CAP for a handle. -/
def planCap (h : Fin 16) : Trap := trapOf .planCap (BitVec.ofNat 64 h.val)

/-- A record placed under a handle; a plan that it holds is freed first (R274). Log entry 16: DEDUCED. -/
def installPlan (s : State) (h : Fin 16) (p : PlanRec) (watch : Option (Word × Nat)) : Except (Trap × State) State :=
  let s := s.setPl h none
  if watch.isSome && 16 ≤ s.hart.regs.pl.toList.countP (fun p => (p.bind PlanRef.watch).isSome) then
    .error (planCap h, s)
  else match s.arenaPlace p.size with
  | none => .error (planCap h, s)
  | some o => .ok ((s.myWrite o p.bytes).setPl h (some ⟨o, p.size, watch⟩))

/-! ## Staleness (R282, R283) -/

/-- The record of a handle that holds a plan. -/
def State.planAt (s : State) (r : PlanRef) : PlanRec := readRec (s.myRead r.off r.size)

/-- A source frame's WGEN, or none where the page now has V = 0. -/
def State.wgenAt (s : State) (a : Word) : Option (BitVec 32) :=
  let e := s.entryAt s.ctx a
  if entV e then some (s.pmeta (pageOf s.ctx a e).frame).wgen else none

/-- A recorded source frame differs from what it was. -/
def State.changed (s : State) (p : PlanRec) : Bool :=
  let a0 : Word := BitVec.ofNat 64 (p.srcva / 65536 * 65536)
  (indexed p.wgens).any (fun (k, w) => s.wgenAt (a0 + BitVec.ofNat 64 (65536 * k)) != some w)

/-- A check by R282 marks a changed plan. -/
def State.checkPlan (s : State) (r : PlanRef) : State := if s.changed (s.planAt r) then s.markStale r else s

/-- The plan of a handle; STATE where it is empty (R283), and a wait while a copy of the hart holds bytes of its record (R55). -/
def withPlan (s : State) (h : Fin 16) (k : PlanRef → Res) : Res :=
  match s.hart.regs.pl[h] with
  | none => .trap (illegal .state) s
  | some r => whenFree s [(locAddr r.off, r.size)] (k r)

/-- The staleness test of an apply is still to be made: the apply starts at its first element, has not passed the test as it issued, and is
no scatter that has read its targets already. Log entry 16: DEDUCED. -/
def State.testsPlan (s : State) : Bool := s.cur.start == 0 && !s.cur.tested && s.hart.ctl.scat.isNone

/-- The staleness test of an apply (R283), after a check by CHK. An apply that goes on from a later element makes neither.
Log entry 16: DEDUCED. -/
def withFresh (s : State) (h : Fin 16) (chk : Bool) (k : PlanRec → State → Res) : Res :=
  withPlan s h (fun r =>
    let s := if chk && s.testsPlan then s.checkPlan r else s
    let p := s.planAt r
    if p.stale && s.testsPlan then .trap (trapOf .stalePlan (BitVec.ofNat 64 h.val)) s else k p s)

end Sys2Proof.Machine
end

