-- ==== Sys2Proof/Machine/Plan.lean ====
section
/-! DEFINITION. The plan instructions (R275 to R278, R284 to R296). -/

namespace Sys2Proof.Machine

/-! ## PLAN and PLANM (R275 to R278) -/

/-- The parameter block of a build: the constants and SNAP, or ILLEGAL with subcode OPERAND (R275). -/
def planBlock (s : State) (p : Word) (k : PlanKey → Bool → State → Res) : Res :=
  whenFree s [(p, 32)] <| blockAligned s p 8 <|
    match s.blockRead p 4 with
    | .error (c, x) => .trap (trapOf c x) s
    | .ok (bs, s) =>
      let sent := recNat bs 8 8
      let base := recNat bs 16 8
      let gran := recNat bs 24 4
      let fl := recNat bs 28 4
      let ps := s.hart.csr.psent
      if natField sent 33 31 != 0 || !granOk gran || base % gran != 0 || 2 ≤ fl then .trap (illegal .operand) s
      else
        let own := natField sent 32 1 == 1
        let en := own || ps.getLsbD 32
        let v := if own then natField sent 0 32 else wfield ps 0 32
        k ⟨recNat bs 0 8, v, en, BitVec.ofNat 64 base, gran⟩ (fl == 1) s

/-- vtype must be n32 or i32 (R276). -/
def planFmt (f : Fmt) : Bool := f == .i32 || f == .n32

/-- Accepted positions as the flag mask of a build shows them (R277). -/
def State.planFlags (s : State) (fk : Fin 8) (p : PlanRec) : State :=
  if fk = 0 then s
  else (List.range p.n).foldl (fun t i => t.setKbit fk i (p.slot.getD i rejected != rejected)) s

/-- The bytes of the arena that a record of the plan would take. -/
def State.recordSpan (s : State) (d : Fin 16) (p : PlanRec) : List Span :=
  match (s.setPl d none).arenaPlace p.size with
  | some o => [(locAddr o, p.size)]
  | none => []

/-- A build ends: the record is placed, or PLAN_CAP; it waits while a copy of the hart holds the record's place (R55). -/
def placePlan (s : State) (d : Fin 16) (p : PlanRec) (watch : Option (Word × Nat)) (k : State → State) : Res :=
  whenFree s (s.recordSpan d p) <| match installPlan s d p watch with
  | .error (t, s) => .trap t s
  | .ok s => .done (k s)

/-- Log entry 16: DEDUCED. -/
def execPlan (h : Hdr) (d : Fin 16) (a : CVec) (b : Fin 32) (fk : Fin 8) (s : State) : Out :=
  issue h [b] s (fun s =>
    whenMasks s [fk] <| vcheck s planFmt [a.r] <| planBlock s (s.x b) (fun key _ s =>
      let p := key.build s.ctx (key.classify ((List.range s.vl).map (s.elt a.r 32)))
      placePlan s d p none (fun t => t.planFlags fk p)))

/-- The 32-bit indices of a PLANM in ascending order, or the first fault with its address. -/
def readIndices : Nat → Word → State → Except (Cause × Word) (List Nat × State)
  | 0, _, s => .ok ([], s)
  | n + 1, a, s =>
    match s.scalarRead a 4 with
    | .error c => .error (c, a)
    | .ok (bs, s) =>
      match readIndices n (a + 4) s with
      | .error e => .error e
      | .ok (xs, s) => .ok (leNat bs :: xs, s)

/-- The WGEN of each 64 KiB frame that `n` bytes at `a` span (R278). -/
def State.sourceWgens (s : State) (a : Word) (n : Nat) : List (BitVec 32) :=
  if n = 0 then []
  else
    let p0 := a.toNat / 65536
    (List.range ((a.toNat + n - 1) / 65536 - p0 + 1)).map (fun k =>
      (s.wgenAt (BitVec.ofNat 64 ((p0 + k) * 65536))).getD 0)

/-- The parameter block is read and judged before the class and the alignment of the source. Log entry 16: DEDUCED. -/
def execPlanm (h : Hdr) (d : Fin 16) (a b : Fin 32) (s : State) : Out :=
  issue h [a, b] s (fun s =>
    let src := s.x a
    let n := s.vl
    vcheck s planFmt [] <| planBlock s (s.x b) (fun key snap s =>
      if !(classOf src).isVirt then .trap (trapOf .protect src) s
      else if src.toNat % 4 != 0 then .trap (trapOf .misalign src) s
      else whenFree s [(src, 4 * n)] <|
        match readIndices n src s with
        | .error (c, x) => .trap (trapOf c x) s
        | .ok (idx, s) =>
          let p := key.build s.ctx (key.classify idx)
          let w := !snap && n != 0
          let p := { p with
            flags := p.flags + (if w then 16 else 0)
            srcva := src.toNat
            wgens := s.sourceWgens src (4 * n) }
          placePlan s d p (if w then some (src, 4 * n) else none) id))

/-! ## Where an apply's elements lie (R284) -/

/-- The geometry of an apply: base, first position, step in bits and elements per granule. -/
structure Geo where
  b  : Word
  q  : Nat
  sb : Nat
  r  : Nat
deriving DecidableEq, Repr

/-- The address of index `x`'s granule under base `b`. -/
def granuleAt (p : PlanRec) (b : Word) (x : Nat) : Word := b + BitVec.ofNat 64 (x * p.key.gran)

/-- The step and R for base `b` (R284); none raises OPERAND. -/
def planGeo (s : State) (p : PlanRec) (b : Word) (q : Nat) : Option Geo :=
  let w := s.vt.fmt.width
  let sb := match p.dist with
    | [] => w
    | x :: _ => s.stepBits (granuleAt p b x) w
  if b.toNat % p.key.gran != 0 || 8 * p.key.gran % sb != 0 || 8 * p.key.gran < sb then none
  else some ⟨b, q, sb, 8 * p.key.gran / sb⟩

/-- vl lies within the positions from q on. -/
def Geo.covers (g : Geo) (p : PlanRec) (vl : Nat) : Bool := (vl : Int) ≤ ((p.n : Int) - g.q) * g.r

/-- The slot of element `i`; none where its position is rejected. -/
def Geo.slot (g : Geo) (p : PlanRec) (i : Nat) : Option Nat :=
  let d := p.slot.getD (g.q + i / g.r) rejected
  if d = rejected then none else some d

/-- The address of element `i` of slot `d`, with its bit within the byte. -/
def Geo.addr (g : Geo) (p : PlanRec) (d i : Nat) : Word × Nat :=
  eltAddr (granuleAt p g.b (p.dist.getD d 0)) 1 g.sb (i % g.r)

/-- The addresses from the lowest to the highest granule, for the interlock. -/
def planSpan (p : PlanRec) (b : Word) : List Span :=
  match p.dist with
  | [] => []
  | x :: r => [(granuleAt p b x, ((x :: r).getLast?.getD x - x + 1) * p.key.gran)]

/-- plrebin advances when an apply of another base issues (R284); a re-issue has been counted. -/
def State.rebin (s : State) (p : PlanRec) (b : Word) : State :=
  if b = p.key.base || s.hart.ctl.resume.isSome then s else s.modCsr (fun c => { c with plrebin := c.plrebin + 1 })

/-- The shared start of PLGAT and PLSCAT. -/
def planApply (s : State) (pl : Fin 16) (chk : Bool) (b : Word) (q : Nat) (ok : Fmt → Bool)
    (k : PlanRec → Geo → State → Res) : Res :=
  withFresh s pl chk (fun p s =>
    needs (ok s.vt.fmt) .operand s <|
      match planGeo s p b q with
      | none => .trap (illegal .operand) s
      | some g => needs (g.covers p s.vl) .operand s <| whenFree s (planSpan p b) (k p g (s.rebin p b)))

/-! ## PLGAT (R285) -/

/-- An earlier element that has delivered the same part of a distinct granule, whose one read serves both positions (R285). -/
def State.gathered (s : State) (p : PlanRec) (g : Geo) (m : Fin 8) (i : Nat) : Option Nat :=
  (List.range s.cur.start).find? (fun k => s.active m k && g.slot p k == g.slot p i && k % g.r == i % g.r)

/-- What an earlier element delivered: the code in vd, and whether it was flagged. -/
def State.again (s : State) (d : Fin 64) (fk : Fin 8) (k : Nat) : Fetched :=
  if fk != 0 && s.kbit fk k then .absent else .elt false .bytes (s.elt d s.vt.fmt.width k) 0x7F (.fin false 0 0)

def execPlgat (h : Hdr) (d : Fin 64) (a b : Fin 32) (m fk : Fin 8) (p : Fin 16) (chk : Bool) (s : State) : Out :=
  issue h [a, b] s (fun s =>
    whenMasks s [m, fk] <| vcheck s anyFmt [d] <| planApply s p chk (s.x a) (s.x b).toNat anyFmt (fun p g s =>
      let f := s.vt.fmt
      let w := walkElts (fun t i =>
        match g.slot p i with
        | none => .ok (.elt false .bytes 0 0x7F (.fin false 0 0), t)
        | some sl => match s.gathered p g m i with
          | some k => .ok (s.again d fk k, t)
          | none =>
            let (x, nib) := g.addr p sl i
            match t.fetchElt x x nib g.sb f false none (fk != 0) with
            | .error c => .error (c, x)
            | .ok r => .ok r) (s.todo m) s
      let bound := match w.fault with
        | some (_, i, _) => i
        | none => s.vl
      let t := w.s.putFetched s d m none [] w.got
      endWalk w.fault (t.putFlags s fk ((w.got.filter (fun x => x.2.isFlagged)).map Prod.fst) bound)))

/-! ## PLCPY (R286) -/

/-- The copy's positions: selected, with the address of the source granule. -/
def plcpyPosns (s : State) (p : PlanRec) (g : Geo) (m : Fin 8) : List (Bool × Option Word) :=
  (List.range s.vl).map (fun k =>
    (m == 0 || s.kbit m k, (g.slot p (k * g.r)).map (fun d => granuleAt p g.b (p.dist.getD d 0))))

/-- The class checks of R257 on the source granules and the destination, then the interlock; an overlap of the two is not among
what R286 takes from R257. The copy starts in `z`. Log entry 16: DEDUCED. -/
def launchPlanCopy (s z : State) (t : Fin 64) (src : Option Span) (dst : Span) (op : CopyOp) : Res :=
  match src.filter (fun (x : Span) => !(spanWhole x && (classOf x.1).isVirt)) with
  | some x => .trap (trapOf .protect x.1) s
  | none =>
    if !(spanWhole dst && copyDstClass dst.1) then .trap (trapOf .protect dst.1) s
    else whenFree s (dst :: src.toList) (.done ((z.noteStore dst).startTag t op))

def execPlcpy (h : Hdr) (d a b : Fin 32) (m fk : Fin 8) (p : Fin 16) (chk : Bool) (tag : Fin 64) (s : State) : Out :=
  issue h [a, b, d] s (fun s =>
    whenTagFree s tag <| whenMasks s [m, fk] <| withFresh s p chk (fun p s =>
      let c := s.vl
      let q := (s.x b).toNat
      match planGeo s p (s.x a) q with
      | none => .trap (illegal .operand) s
      | some g =>
        needs (q ≤ p.n && c ≤ p.n - q) .operand s <|
          let z := s.rebin p (s.x a)
          if c = 0 then .done (z.setTag tag ⟨.done, none, 0, 0, 0⟩)
          else
            let ps := plcpyPosns s p g m
            let n := c * p.key.gran
            let op : CopyOp := ⟨.plcpy, s.x d, s.x a, c, p.key.gran, 0, 0, p.key.gran, ps, fk, 0, [], 0, true⟩
            launchPlanCopy s z tag (granuleSpan p.key.gran (ps.filter Prod.fst)) (s.x d, n) op))

/-! ## Combining (R288, R98) -/

inductive Comb
  | add | min | max
deriving DecidableEq, Repr

/-- One combining step on codes of vtype, rounded to nearest-even (R98, R288). Log entry 16: DEDUCED. -/
def Comb.step (c : Comb) (f : Fmt) (x y : Nat) : Nat :=
  match f.spec, c with
  | some p, .add => (fAdd p 0 (p.decode x) (p.decode y)).1
  | some p, .min => (fMinMax p false x y).1
  | some p, .max => (fMinMax p true x y).1
  | none, .add => (x + y) % 2 ^ f.width
  | none, .min => if intOf f.isSigned f.width y < intOf f.isSigned f.width x then y else x
  | none, .max => if intOf f.isSigned f.width x < intOf f.isSigned f.width y then y else x

/-- The target and the combined value as values, before the one rounding of the store. -/
def Comb.value (c : Comb) (t x : FVal) : FVal :=
  match c with
  | .add => (addX 0 t x).1
  | .min => if t.isNan then x else if x.isNan then t else if x.below t then x else t
  | .max => if t.isNan then x else if x.isNan then t else if t.below x then x else t

/-- The modes of PLSCAT. -/
inductive Scat
  | comb (c : Comb) | first | last | amoadd
deriving DecidableEq, Repr

def Scat.need : Scat → Need
  | .comb _ => Need.amo
  | .first => Need.store
  | .last => Need.store
  | .amoadd => Need.store

/-- The combined value of a group: the values of its active elements in ascending position order.
Log entry 16: DEDUCED. -/
def Scat.fold (m : Scat) (f : Fmt) : List Nat → Nat
  | [] => 0
  | v :: r =>
    match m with
    | .comb c => r.foldl (c.step f) v
    | .amoadd => r.foldl (Comb.add.step f) v
    | .first => v
    | .last => r.getLastD v

/-! ## PLSCAT (R288, R289) -/

/-- A checked target: its slot and sub-element, its address, its page and the bit within the byte. -/
structure Target where
  slot : Nat
  j    : Nat
  a    : Word
  page : Page
  nib  : Nat
deriving DecidableEq, Repr

/-- The checks of R22 and R106 for one target. A target that is read raises META where its SMX4 block is malformed, as a gather does; a
store that only re-encodes such a block does not. Log entry 16: DEDUCED. -/
def State.checkTarget (s : State) (mode : Scat) (a : Word) (nib sb : Nat) : Except Cause Page :=
  let f := s.vt.fmt
  if !(classOf a).isVirt then .error .protect
  else match s.translate s.ctx a mode.need (fun e =>
      (sb ≥ 8 && a.toNat % (sb / 8) != 0) || (logicalSize (entFMT e) != 0 && a.toNat % logicalSize (entFMT e) != 0)) with
  | .error c => .error c
  | .ok p =>
    let mt := s.pmeta p.frame
    let lay := s.layout p
    let q4 := (f == .q4) != (lay == .q4) && lay != .raw
    if mt.state = 3 then .error .integrity
    else if !sameStep p.e sb f.width || q4 || (mode == .amoadd && f.isInt && lay != .raw) then .error .format
    else if mt.state = 2 then .error .frozen
    else if mode.need.r && nib < 8 && s.eltBad lay p.frame p.off then .error .smeta
    else .ok p

/-- The targets of the active elements in ascending order, up to the first that fails. -/
def scatWalk (s : State) (p : PlanRec) (g : Geo) (mode : Scat) : List Nat → List (Nat × Target) × Option (Cause × Nat × Word)
  | [] => ([], none)
  | i :: r =>
    match g.slot p i with
    | none => scatWalk s p g mode r
    | some d =>
      let (a, nib) := g.addr p d i
      match s.checkTarget mode a nib g.sb with
      | .error c => ([], some (c, i, a))
      | .ok pg => let w := scatWalk s p g mode r; ((i, ⟨d, i % g.r, a, pg, nib⟩) :: w.1, w.2)

/-- The value that a target of value `old` takes from a combined code, before the one rounding of the store (R288). -/
def Scat.new (m : Scat) (f : Fmt) (c : Nat) (old : FVal) : FVal :=
  match m with
  | .comb k => k.value old (valueOf f c)
  | .first => valueOf f c
  | .last => valueOf f c
  | .amoadd => valueOf f c

/-- The code that a target on a RAW page takes. -/
def Scat.rawCode (m : Scat) (f : Fmt) (old c : Nat) : Nat :=
  match m with
  | .comb k => match f.spec with
    | some p => (p.round true 0 (k.value (p.decode old) (p.decode c))).1
    | none => k.step f old c
  | .first => c
  | .last => c
  | .amoadd => c

/-- The unit that reads a target (R288): the values of its whole block on a block page, else its code. -/
def State.scatRead (s : State) (t : Target) (sb : Nat) : State × ScatRead :=
  let fr := t.page.frame
  let off := t.page.off
  let lay := s.layout t.page
  let s := s.settle fr off (max (sb / 8) 1)
  let n := (s.vt.fmt.width + 7) / 8
  (s, if blockFmt (entFMT t.page.e) then ⟨t.a, s.blockValues lay fr (off / 32), 0⟩
    else ⟨t.a, [], if lay == .raw then natField (s.rawNat fr off n) t.nib s.vt.fmt.width else s.eltCode lay fr off⟩)

/-- The read units of a scatter, in the order of its targets. -/
def State.scatReads (s : State) (sb : Nat) (ts : List Target) : State × List ScatRead :=
  ts.foldl (fun (st : State × List ScatRead) t => let (s, r) := st.1.scatRead t sb; (s, st.2 ++ [r])) (s, [])

/-- What the scatter has read of a target; a target that it has not read is read now. -/
def State.scatOld (s : State) (t : Target) (sb : Nat) : ScatRead :=
  match (s.hart.ctl.scat.getD []).find? (fun r => r.addr == t.a && r.vals.isEmpty == !blockFmt (entFMT t.page.e)) with
  | some r => r
  | none => (s.scatRead t sb).2

/-- The unit that writes a target with its combined code (R288); on a block page, every target of the block, `mates`, at once: the block is
read, and re-encoded, exactly once (R284). -/
def State.scatOne (s : State) (mode : Scat) (t : Target) (sb : Nat) (c : Nat) (mates : List (Nat × Nat)) (run : Option Burst) :
    State × Option Burst :=
  let f := s.vt.fmt
  let fr := t.page.frame
  let off := t.page.off
  let lay := s.layout t.page
  let s := s.settle fr off (max (sb / 8) 1)
  let r := s.scatOld t sb
  if blockFmt (entFMT t.page.e) then
    let blk := off / 32
    let vs := (indexed r.vals).map (fun x => match mates.lookup x.1 with
      | some k => mode.new f k x.2
      | none => x.2)
    (s.encodeBlock lay fr blk vs).request run fr (8 * 32 * blk) 256
  else match lay with
  | .raw =>
    let n := (f.width + 7) / 8
    let whole := s.rawNat fr off n
    let old := natField whole t.nib f.width
    (s.rawWrite fr off (leBytes n (whole - old * 2 ^ t.nib + mode.rawCode f r.code c * 2 ^ t.nib))).request run fr
      (8 * off + t.nib) f.width
  | .plain g =>
    let x := (roundTo g true 0 (mode.new f c (valueOf g r.code))).1
    (s.putCode (.plain g) fr off x).request run fr (8 * off) g.width
  | .q4 => (s.putCode .q4 fr off c).request run fr (8 * off) 8
  | .mx _ => (s, run)
  | .mx4 => (s, run)
  | .smx4 => (s, run)

/-- The groups of the checked elements, in ascending order of their first element: each target with the elements of
its group. -/
def scatGroups (ts : List (Nat × Target)) : List (Target × List Nat) :=
  ts.foldl (fun gs x =>
    if gs.any (fun g => g.1.slot == x.2.slot && g.1.j == x.2.j) then
      gs.map (fun g => if g.1.slot == x.2.slot && g.1.j == x.2.j then (g.1, g.2 ++ [x.1]) else g)
    else gs ++ [(x.2, [x.1])]) []

/-- The combined value of a group sent as a merging add (R63). -/
def State.scatMerge (s : State) (t : Target) (c : Nat) : State :=
  let f := s.vt.fmt
  let v := if f.isInt then BitVec.ofNat 64 c else f32Bits (valueOf f c)
  s.mergeArrive ⟨t.page.frame, t.page.off, t.nib, if entRC t.page.e then entRow t.page.e else 0,
    mergeKind (entFMT t.page.e) f, v, some s.hart.dest, false⟩

/-- Two targets lie in one aligned group of 32 bytes of a frame. -/
def Target.meets (t u : Target) : Bool := t.page.frame == u.page.frame && t.page.off / 32 == u.page.off / 32

/-- Every group combined into memory; `s0` holds the values. The targets of a block of a block page are written with the first of them. -/
def State.scatAll (s s0 : State) (mode : Scat) (sb : Nat) (b : Fin 64) (gs : List (Target × List Nat)) : State :=
  let cs := gs.map (fun g => (g.1, mode.fold s0.vt.fmt (g.2.map (s0.elt b s0.vt.fmt.width))))
  ((indexed cs).foldl (fun (st : State × Option Burst) x =>
    let (k, t, c) := x
    let s := st.1.noteStore (t.a, max (sb / 8) 1)
    if mode = .amoadd then (s.scatMerge t c, none)
    else if blockFmt (entFMT t.page.e) && (cs.take k).any (fun y => t.meets y.1) then (s, st.2)
    else s.scatOne mode t sb c ((cs.filter (fun y => t.meets y.1)).map (fun y => (y.1.page.off % 32, y.2))) st.2) (s, none)).1

/-- q4 codes carry no values to combine (R288). -/
def Scat.fmtOk (m : Scat) (f : Fmt) : Bool := f != .q4 || m == .first || m == .last

/-- PLSCAT: the targets are checked and read, and at the hart's next turn checked and written, so that other agents' units may come between
(R288, R353); merging adds are sent at once. Log entry 8: DEDUCED. -/
def plscat (h : Hdr) (d a : Fin 32) (b : CVec) (m : Fin 8) (p : Fin 16) (chk : Bool) (s : State) (mode : Scat) : Out :=
  issue h [a, d] s (fun s0 =>
    whenMasks s0 [m] <| vcheck s0 anyFmt [b.r] <| planApply s0 p chk (s0.x a) (s0.x d).toNat mode.fmtOk (fun p g s =>
      let w := scatWalk s p g mode (s.todo m)
      let gs := scatGroups w.1
      if mode == .amoadd || gs.isEmpty || s.hart.ctl.scat.isSome then endWalk w.2 (s.scatAll s mode g.sb b.r gs)
      else
        let (t, rs) := s0.scatReads g.sb (gs.map Prod.fst)
        .wait (t.modCtl (fun c => { c with scat := some rs }))))

def execPlscatAdd (h : Hdr) (d a : Fin 32) (b : CVec) (m : Fin 8) (p : Fin 16) (chk : Bool) (s : State) : Out :=
  plscat h d a b m p chk s (.comb .add)
def execPlscatMin (h : Hdr) (d a : Fin 32) (b : CVec) (m : Fin 8) (p : Fin 16) (chk : Bool) (s : State) : Out :=
  plscat h d a b m p chk s (.comb .min)
def execPlscatMax (h : Hdr) (d a : Fin 32) (b : CVec) (m : Fin 8) (p : Fin 16) (chk : Bool) (s : State) : Out :=
  plscat h d a b m p chk s (.comb .max)
def execPlscatFirst (h : Hdr) (d a : Fin 32) (b : CVec) (m : Fin 8) (p : Fin 16) (chk : Bool) (s : State) : Out :=
  plscat h d a b m p chk s .first
def execPlscatLast (h : Hdr) (d a : Fin 32) (b : CVec) (m : Fin 8) (p : Fin 16) (chk : Bool) (s : State) : Out :=
  plscat h d a b m p chk s .last
def execPlscatAmoadd (h : Hdr) (d a : Fin 32) (b : CVec) (m : Fin 8) (p : Fin 16) (chk : Bool) (s : State) : Out :=
  plscat h d a b m p chk s .amoadd

/-! ## Register applies (R287, R290, R291) -/

/-- Registers only: R is whole and the limits hold; with `apart`, vd shares no register with va (R228, R287, R290). -/
def planRegs (h : Hdr) (apart : Bool) (ms : List (Fin 8)) (d : Fin 64) (a : CVec) (p : Fin 16) (s : State)
    (ok : PlanRec → Nat → State → Bool) (k : PlanRec → Nat → State → State) : Out :=
  issue h [] s (fun s =>
    whenMasks s ms <| vcheck s anyFmt [d, a.r] <|
      needs (!(apart && groupsMeet d s.vt.size a.r s.vt.size)) .operand s <| withFresh s p false (fun p s =>
        let w := s.vt.fmt.width
        let r := 8 * p.key.gran / w
        needs (8 * p.key.gran % w == 0 && 1 ≤ r && ok p r s) .operand s (.done (k p r s))))

def execPlgatv (h : Hdr) (d : Fin 64) (a : CVec) (m : Fin 8) (p : Fin 16) (s : State) : Out :=
  planRegs h true [m] d a p s (fun p r s => p.key.bound * r ≤ s.vlmax s.vt && s.vl ≤ p.n * r) (fun p r s =>
    let w := s.vt.fmt.width
    (List.range s.vl).foldl (fun t i =>
      if !s.active m i then t
      else
        let sl := p.slot.getD (i / r) rejected
        t.setElt d w i (if sl = rejected then 0 else s.elt a.r w (p.dist.getD sl 0 * r + i % r))) s)

/-- The limits of PLRED and PLBCAST (R290, R291). -/
def redOk (p : PlanRec) (r : Nat) (s : State) : Bool := s.vl == p.n * r && p.d * r ≤ s.vlmax s.vt

/-- The code of a group of one active element: no combining step is made, and a NaN is the canonical one (R74).
Log entry 16: DEDUCED. -/
def soleCode (f : Fmt) (c : Nat) : Nat :=
  match f.spec with
  | some p => if (p.decode c).isNan then p.nanBits else c
  | none => c

/-- Under a q4 vtype, whose codes carry no values to combine, PLRED raises OPERAND as PLSCAT does. Log entry 16: DEDUCED. -/
def plred (h : Hdr) (d : Fin 64) (a : CVec) (m : Fin 8) (p : Fin 16) (s : State) (c : Comb) : Out :=
  planRegs h true [m] d a p s (fun p r s => s.vt.fmt != .q4 && redOk p r s) (fun p r s =>
    let f := s.vt.fmt
    (List.range p.d).foldl (fun t sl =>
      (List.range r).foldl (fun t j =>
        let vs := (p.order.filter (fun q => p.slot.getD q rejected == sl && s.active m (q * r + j))).map (fun q =>
          s.elt a.r f.width (q * r + j))
        match vs with
        | [] => t
        | v :: rest => t.setElt d f.width (sl * r + j) (rest.foldl (c.step f) (soleCode f v))) t) s)

def execPlredAdd (h : Hdr) (d : Fin 64) (a : CVec) (m : Fin 8) (p : Fin 16) (s : State) : Out := plred h d a m p s .add
def execPlredMin (h : Hdr) (d : Fin 64) (a : CVec) (m : Fin 8) (p : Fin 16) (s : State) : Out := plred h d a m p s .min
def execPlredMax (h : Hdr) (d : Fin 64) (a : CVec) (m : Fin 8) (p : Fin 16) (s : State) : Out := plred h d a m p s .max

def execPlbcast (h : Hdr) (d : Fin 64) (a : CVec) (p : Fin 16) (s : State) : Out :=
  planRegs h false [] d a p s redOk (fun p r s =>
    let w := s.vt.fmt.width
    (List.range s.vl).foldl (fun t i =>
      let sl := p.slot.getD (i / r) rejected
      t.setElt d w i (if sl = rejected then 0 else s.elt a.r w (sl * r + i % r))) s)

/-! ## PLCOMP (R292) -/

/-- The positions of the composition: b's index, looked up in a. -/
def composed (pa pb : PlanRec) : List (Option Nat) :=
  pb.slot.map (fun sb =>
    if sb = rejected then none
    else
      let sa := pa.slot.getD (pb.dist.getD sb 0) rejected
      if sa = rejected then none else some (pa.dist.getD sa 0))

def execPlcomp (h : Hdr) (d a b : Fin 16) (s : State) : Out :=
  issue h [] s (fun s =>
    withFresh s a false (fun pa s => withFresh s b false (fun pb s =>
      needs (pb.key.bound ≤ pa.n) .operand s (placePlan s d (pa.key.build s.ctx (composed pa pb)) none id))))

/-! ## PLINFO, PLCHK, PLSAVE, PLLOAD, PLFREE (R293 to R296) -/

/-- The value that SEL selects (R293). -/
def planInfo (p : PlanRec) (off size : Nat) (sel : Nat) : Option Nat :=
  match sel with
  | 0 => some p.n
  | 1 => some p.d
  | 2 => some p.flags
  | 3 => some p.key.bound
  | 4 => some p.key.base.toNat
  | 5 => some p.key.gran
  | 6 => some (p.key.sent + p.key.senten.toNat * 2 ^ 32)
  | 7 => some size
  | 8 => some off
  | 9 => some p.runs.length
  | 10 => some p.order.length
  | _ => if 16 ≤ sel && sel ≤ 27 then some (p.runs.countP (fun r => r.stack == sel - 16)) else none

def execPlinfo (h : Hdr) (d : Fin 32) (a : Fin 16) (sel : BitVec 8) (s : State) : Out :=
  issue h [] s (fun s => withPlan s a (fun r =>
    match planInfo (s.planAt r) r.off r.size sel.toNat with
    | some v => .done (s.setX d (BitVec.ofNat 64 v))
    | none => .trap (illegal .operand) s))

def execPlchk (h : Hdr) (d : Fin 32) (a : Fin 16) (s : State) : Out :=
  issue h [] s (fun s => withPlan s a (fun r =>
    let s := s.checkPlan r
    .done (s.setX d (if (s.planAt r).stale then 0 else 1))))

/-- An image may not overwrite a live plan record: PROTECT, as for any other store. Log entry 16: DEDUCED.
It is written in pieces that end with 256-byte bursts; nothing is kept of it when a piece faults. `fuel` bounds the
pieces. -/
def saveImage (whole : Bool) : Nat → Word → List Byte → State → Except (Cause × Word) State
  | 0, _, _, s => .ok s
  | fuel + 1, a, bs, s =>
    if bs.isEmpty then .ok s
    else
      let n := min bs.length (256 - a.toNat % 256)
      match s.copyWrite s.hart a (bs.take n) whole false with
      | .error c => .error (c, a)
      | .ok s => saveImage whole fuel (a + BitVec.ofNat 64 n) (bs.drop n) s

/-- Log entry 16: DEDUCED. -/
def execPlsave (h : Hdr) (a : Fin 32) (b : Fin 16) (s : State) : Out :=
  issue h [a] s (fun s => withPlan s b (fun r =>
    let p := s.x a
    let bs := s.myRead r.off r.size
    whenFree s [(p, r.size)] <| blockAligned s p 8 <|
      match saveImage (p.toNat % 32 == 0 && r.size % 32 == 0) (r.size / 8 + 1) p bs (s.noteStore (p, r.size)) with
      | .error (c, x) => .trap (trapOf c x) s
      | .ok t => .done t))

/-- PLAN_IMAGE; the handle is left empty (R295). -/
def badImage (s : State) (d : Fin 16) : Res := .trap (illegal .planImage) (s.setPl d none)

def execPlload (h : Hdr) (d : Fin 16) (a : Fin 32) (s : State) : Out :=
  issue h [a] s (fun s =>
    let p := s.x a
    whenFree s [(p, 64)] <| blockAligned s p 8 <|
      match s.blockRead p 8 with
      | .error (c, x) => .trap (trapOf c x) s
      | .ok (hd, s) =>
        if !headerOk hd then badImage s d
        else
          let size := recNat hd 0x3C 4
          whenFree s [(p, size)] <|
            match s.blockRead p (size / 8) with
            | .error (c, x) => .trap (trapOf c x) s
            | .ok (bs, s) =>
              if !imageOk bs then badImage s d
              else
                let r := readRec bs
                let r := { r with runs := planRuns s.ctx r.key r.dist }
                let watch := if r.flags.testBit 4 && !r.stale then some (BitVec.ofNat 64 r.srcva, 4 * r.n) else none
                placePlan s d r watch id)

def execPlfree (h : Hdr) (d : Fin 16) (s : State) : Out := issue h [] s (fun s => .done (s.setPl d none))

end Sys2Proof.Machine
end

