-- ==== Sys2Proof/Machine/Mat.lean ====
section
/-! DEFINITION. Tiles and outer products (R79 to R81, R97, R299 to R310). -/

namespace Sys2Proof.Machine

/-! ## Tiles -/

/-- Cell (i, j) of a tile. -/
def Tile.cell (t : Tile) (i j : Nat) : Nat := (Sparse.get (0 : Cell56) t.cells (128 * i + j)).toNat

def Tile.putCell (t : Tile) (i j v : Nat) : Tile := { t with cells := Sparse.put (0 : Cell56) t.cells (128 * i + j) (BitVec.ofNat 56 v) }

def State.setTile (s : State) (n : Fin 4) (t : Tile) : State := s.modRegs (fun g => { g with acc := g.acc.set n t })

/-- round_A56 (R80). -/
def roundA56 (v : FVal) : Nat := (specA56.round false 0 v).1

/-- A tile instruction: a tile at or beyond TILES raises ILLEGAL with subcode REGISTER, whether or not the guard is true
(R44, R177, R192). -/
def tissue (h : Hdr) (t : Fin 4) (rs : List (Fin 32)) (s : State) (body : State → Res) : Out :=
  if s.hart.place.tiles ≤ t.val then .next (s.deliver (illegal .register)) else issue h rs s body

/-! ## Geometry (R180, R300) -/

def mcfgMr (w : Word) : Nat := wfield w 0 7
def mcfgSteps (w : Word) : Nat := wfield w 8 16
def mcfgBstr (w : Word) : Nat := wfield w 24 16

/-- The geometry that the instruction was issued with (R233). -/
def State.mr (s : State) : Nat := mcfgMr s.mcfg
def State.kSteps (s : State) : Nat := mcfgSteps s.mcfg
def State.bstr (s : State) : Nat := mcfgBstr s.mcfg

/-- The value of an operand code; q4 decodes through a codebook (R78, R301). -/
def operandValue (f : Fmt) (q : QtReg) (c : Nat) : FVal := if f == .q4 then qtValue q c else valueOf f c

/-- The panel of `n` elements of width `w` fits in a group (R301). -/
def State.panelFits (s : State) (n w : Nat) : Bool := n * w ≤ s.hart.place.grant * 8192 * s.vt.size

/-- The formats suit the tile's mode (R301, R304). -/
def opaFmts (int : Bool) (fa fb : Fmt) : Bool :=
  let ok := fun (f : Fmt) => if int then f == .i8 || f == .n8 else f.isFloat || f == .q4
  ok fa && ok fb

/-- The checks of every outer product at execution (R300, R301): STATE with mcfg at reset, OPERAND for vl, for formats and for the
panels. -/
def opaChecks (s : State) (ok : Bool) (k : Res) : Res :=
  needs (s.mcfg != 0) .state s (needs (s.vl ≤ 128 && ok) .operand s k)

/-- Active columns: j below vl with its mask bit set (R300). -/
def State.columns (s : State) (m : Fin 8) : List Nat := (List.range s.vl).filter (s.active m)

/-- Every active cell of a tile changed. -/
def State.eachCell (s : State) (m : Fin 8) (n : Fin 4) (f : Nat → Nat → Nat → Nat) : State :=
  let t := s.hart.regs.acc[n]
  s.setTile n ((List.range s.mr).foldl (fun t i =>
    (s.columns m).foldl (fun t j => t.putCell i j (f i j (t.cell i j))) t) t)

/-! ## OPA and OPA2 (R301 to R304) -/

/-- Byte `i` of a window: as an earlier turn of the lanes has read its group of 32 bytes (R303), else as it stands. -/
def State.panelByte (s : State) (core i : Nat) : Byte :=
  match s.cur.panel.find? (fun g => g.1 == i / 32 * 32) with
  | some g => g.2.getD (i % 32) 0
  | none => (s.padRead core s.hart.place.launch i 1).getD 0 0

/-- `n` bytes of a panel from a window offset. -/
def State.panelRead (s : State) (core off n : Nat) : List Byte := (List.range n).map (fun i => s.panelByte core (off + i))

/-- The groups of 32 window bytes that row `k` of a panel at offset `off` has bytes in, with elements of width `wb`. -/
def State.rowGroups (s : State) (off wb k : Nat) : List Nat :=
  if s.vl = 0 then []
  else
    let lo := off + k * s.bstr * wb / 8
    let hi := off + ((k * s.bstr + s.vl) * wb + 7) / 8
    (List.range ((hi + 31) / 32 - lo / 32)).map (fun i => 32 * (lo / 32 + i))

/-- The groups of a panel that have been read when the rows below `n` have: each is read in the step that first needs it (R303). -/
def State.panelAfter (s : State) (x : Word) (wb n : Nat) : List (Nat × List Byte) :=
  match padCore s.loc x with
  | none => []
  | some core =>
    let gs := ((List.range n).flatMap (s.rowGroups (offsetOf x) wb)).eraseDups
    gs.map (fun g => (g, s.panelRead core g 32))

/-- B panel bytes of the scratchpad form with their checks (R303); none of them in the register form. -/
def padPanel (s : State) (b : OpaB) (wb : Nat) (k : List Byte → Res) : Res :=
  match b with
  | .vec _ => k []
  | .pad r =>
    let x := s.x r
    let n := if s.vl = 0 then 0 else (((s.kSteps - 1) * s.bstr + s.vl) * wb + 7) / 8
    match padCore s.loc x with
    | none => .trap (trapOf .protect x) s
    | some core =>
      if wb ≥ 8 && x.toNat % (wb / 8) != 0 then .trap (trapOf .misalign x) s
      else if wb = 4 && s.bstr % 2 = 1 then .trap (trapOf .stride (BitVec.ofNat 64 s.bstr)) s
      else if s.windowSize core s.hart.place.launch < offsetOf x + n then .trap (trapOf .protect x) s
      else whenFree s [(x, n)] (k (s.panelRead core (offsetOf x) n))

/-- b(k, j) as a code. -/
def State.bCode (s : State) (b : OpaB) (panel : Nat) (wb k j : Nat) : Nat :=
  match b with
  | .vec v => s.elt v.r wb (k * s.vl + j)
  | .pad _ => natField panel ((k * s.bstr + j) * wb) wb

/-- A cell plus the steps of `ks`: integer products modulo 2^56, or exact products with the roundings of R97. `pair` takes the steps
two by two. -/
def accumulate (int single : Bool) (prod : Nat → FVal) (iprod : Nat → Int) (pair : Bool) (top : Nat) (ks : List Nat)
    (c0 : Nat) : Nat :=
  ks.foldl (fun c k =>
    if int then wrap 56 ((c : Int) + iprod k + (if pair && k + 1 < top then iprod (k + 1) else 0))
    else if pair then
      let second := if k + 1 < top then prod (k + 1) else .fin false 0 0
      roundA56 (addX 0 (addX 0 (specA56.decode c) (prod k)).1 second).1
    else if single then roundA56 (addX 0 (specA56.decode c) (specA56.decode (roundA56 (prod k)))).1
    else roundA56 (addX 0 (specA56.decode c) (prod k)).1) c0

/-- The shared body of OPA and OPA2. -/
def outer (h : Hdr) (d : Fin 4) (a : CVec) (b : OpaB) (m : Fin 8) (fa fb : Fmt) (qt : Fin 4) (pair : Bool) (s : State) : Out :=
  let bs := match b with
    | .vec _ => []
    | .pad r => [r]
  tissue h d bs s (fun s =>
    let t := s.hart.regs.acc[d]
    let wa := fa.width
    let wb := fb.width
    let bv := match b with
      | .vec v => [v.r]
      | .pad _ => []
    let fits := s.panelFits (s.mr * s.kSteps) wa && (bv.isEmpty || s.panelFits (s.kSteps * s.vl) wb)
    whenMasks s [m] <| vcheck s anyFmt (a.r :: bv) <| opaChecks s (opaFmts t.int fa fb && fits) <|
      padPanel s b wb (fun bytes =>
        let panel := leNat bytes
        let q := s.hart.regs.qt[qt]
        let aC := fun i k => s.elt a.r wa (k * s.mr + i)
        let bC := fun k j => s.bCode b panel wb k j
        let prod := fun i j k => (mulX (operandValue fa q (aC i k)) (operandValue fb q (bC k j))).1
        let iprod := fun i j k => intOf fa.isSigned wa (aC i k) * intOf fb.isSigned wb (bC k j)
        let ks := (List.range s.kSteps).filter (fun k => s.inTurn k && (!pair || k % 2 == 0))
        .done (s.eachCell m d (fun i j cell =>
          accumulate t.int (fa == .f32 || fb == .f32) (prod i j) (iprod i j) pair s.kSteps ks cell))))

def execOpa (h : Hdr) (d : Fin 4) (a : CVec) (b : OpaB) (m : Fin 8) (fa fb : Fmt) (qt : Fin 4) (s : State) : Out :=
  outer h d a b m fa fb qt false s
def execOpa2 (h : Hdr) (d : Fin 4) (a : CVec) (b : OpaB) (m : Fin 8) (fa fb : Fmt) (qt : Fin 4) (s : State) : Out :=
  outer h d a b m fa fb qt true s

/-! ## OPAMX (R305) -/

/-- An exact value times 2^(sa + sb - 254); a scale byte 0xFF gives NaN (R97). -/
def scaledSum (v : FVal) (sa sb : Nat) : FVal :=
  if sa = 255 || sb = 255 then .nan false
  else match v with
  | .nan x => .nan x
  | .inf n => .inf n
  | .fin n m e => .fin n m (e + sa + sb - 254)

/-- The exact sum of a list of values. -/
def exactSum : List FVal → FVal
  | [] => .fin false 0 0
  | v :: r => r.foldl (fun x y => (addX 0 x y).1) v

def execOpamx (h : Hdr) (d : Fin 4) (a b : CVec) (m : Fin 8) (fa fb : Fmt) (sa sb : Fin 8) (s : State) : Out :=
  tissue h d [] s (fun s =>
    let t := s.hart.regs.acc[d]
    let k := s.kSteps
    let fits := s.panelFits (s.mr * k) fa.width && s.panelFits (s.vl * k) fb.width
    whenMasks s [m] <| vcheck s anyFmt [a.r, b.r] <| opaChecks s (!t.int && k % 32 == 0 && fits) <|
      let blocks := (List.range (k / 32)).filter (fun z => s.inTurn (32 * z))
      let prod := fun i j n => (mulX (valueOf fa (s.elt a.r fa.width (i * k + n))) (valueOf fb (s.elt b.r fb.width (j * k + n)))).1
      .done (s.eachCell m d (fun i j cell =>
        blocks.foldl (fun cell z =>
          let sum := exactSum ((List.range 32).map (fun n => prod i j (32 * z + n)))
          let v := scaledSum sum (s.scByte sa (i * (k / 32) + z)) (s.scByte sb (j * (k / 32) + z))
          roundA56 (addX 0 (specA56.decode cell) v).1) cell)))

/-! ## Moving tiles (R306 to R308) -/

def execTzero (h : Hdr) (d : Fin 4) (int : Bool) (s : State) : Out :=
  tissue h d [] s (fun s => .done (s.setTile d ⟨int, []⟩))

/-- The pairing of a tile's mode with vtype (R81); q4 pairs with neither. -/
def pairs (int : Bool) (f : Fmt) : Bool := if int then f.isInt else f.isFloat

def execTld (h : Hdr) (d : Fin 4) (a : CVec) (b : Fin 32) (m : Fin 8) (s : State) : Out :=
  tissue h d [b] s (fun s =>
    let t := s.hart.regs.acc[d]
    let r := (s.x b).toNat
    let f := s.vt.fmt
    whenMasks s [m] <| vcheck s (pairs t.int) [a.r] <| needs (r < 64 && s.vl ≤ 128) .operand s <|
      .done (s.setTile d ((s.todo m).foldl (fun t j =>
        let e := s.elt a.r f.width j
        t.putCell r j (if t.int then wrap 56 (intOf f.isSigned f.width e) else roundA56 (valueOf f e))) t)))

/-- A cell converted into vtype (R81, R308). -/
def cellOut (int : Bool) (f : Fmt) (rm : BitVec 2) (c : Nat) : Nat × Flags :=
  if int then (wrap f.width (clampInt (intMin f.isSigned f.width) (intMax f.isSigned f.width) (intOf true 56 c)), 0)
  else roundTo f false rm (specA56.decode c)

def execTst (h : Hdr) (d : Fin 64) (a : Fin 4) (b : Fin 32) (m : Fin 8) (tr : Bool) (s : State) : Out :=
  tissue h a [b] s (fun s =>
    let t := s.hart.regs.acc[a]
    let x := (s.x b).toNat
    let f := s.vt.fmt
    let inside := if tr then x < 128 && s.vl ≤ 64 else x < 64 && s.vl ≤ 128
    whenMasks s [m] <| vcheck s (pairs t.int) [d] <| needs inside .operand s <|
      byGroups s f.width (fun u i =>
        if s.active m i then
          let r := cellOut t.int f s.frm (if tr then t.cell i x else t.cell x i)
          (u.setElt d f.width i r.1, r.2)
        else (u, 0)))

end Sys2Proof.Machine
end

