-- ==== Sys2Proof/Machine/Clus.lean ====
section
/-! DEFINITION. The clustering accumulator bank (R311 to R323). All of its state lies in window bytes; one unit of R322 is
carried out on a `BankIO`, which notes the bytes it writes so that the unit can be refused whole (R274). -/

namespace Sys2Proof.Machine

/-! ## The header and the configuration word (R312, R313) -/

structure BankCfg where
  mode   : Nat
  metric : Nat
  kfmt   : Fmt
  dim    : Nat
  cap    : Nat
  policy : Nat
  track  : Bool
deriving DecidableEq, Repr

/-- A bank unit: the state so far and the spans it wrote. -/
structure BankIO where
  s : State
  w : List (Nat × Nat)

def Csrs.bankBase (c : Csrs) : Nat := wfield c.clbase 0 32
def Csrs.bankSize (c : Csrs) : Nat := wfield c.clbase 32 32

/-- Window bytes read, and written, wherever a header that a program wrote sends them: bytes past the window read zero and take no write,
and nothing is refused for lying past the region. Log entry 19: DEDUCED. -/
def State.bankWrite (s : State) (off : Nat) (bs : List Byte) : State := s.myWrite off (bs.take (s.myWindow - off))

/-- Log entry 19: DEDUCED. -/
def BankIO.get (b : BankIO) (off n : Nat) : Nat := leNat (b.s.myRead off n)
/-- Log entry 19: DEDUCED. -/
def BankIO.put (b : BankIO) (off n v : Nat) : BankIO := ⟨b.s.bankWrite off (leBytes n v), (off, n) :: b.w⟩
def BankIO.zero (b : BankIO) (off n : Nat) : BankIO := ⟨b.s.bankWrite off (List.replicate n 0), (off, n) :: b.w⟩

/-- Header field at `o`, four bytes. -/
def BankIO.field (b : BankIO) (o : Nat) : Nat := b.get (b.s.hart.csr.bankBase + o) 4
def BankIO.setField (b : BankIO) (o v : Nat) : BankIO := b.put (b.s.hart.csr.bankBase + o) 4 v
def BankIO.count (b : BankIO) (o : Nat) (k : Int) : BankIO := b.setField o (wrap 32 ((b.field o : Int) + k))

def hLive : Nat := 0x10
def hInserted : Nat := 0x14
def hRejected : Nat := 0x18
def hEvicted : Nat := 0x1C
def hMerged : Nat := 0x20
def hSpillHead : Nat := 0x2C

/-- The fields of a configuration word; KFMT code 0xF is refused (R72, R314). -/
def bankCfg (w : Nat) : Option BankCfg :=
  if natField w 31 33 != 0 || natField w 4 4 = 15 then none
  else some ⟨natField w 0 1, natField w 1 3, fmtOf (natField w 4 4), natField w 8 8, natField w 16 12, natField w 28 2,
    natField w 30 1 == 1⟩

/-- ES of a configuration (R314). Log entry 19: DEDUCED. -/
def BankCfg.entrySize (c : BankCfg) : Nat := 64 * ((16 + 4 * c.dim + (c.dim * c.kfmt.width + 7) / 8 + 63) / 64)

/-- Modes, formats and metrics that go together (R314). -/
def BankCfg.shapeOk (c : BankCfg) : Bool :=
  let f := c.kfmt
  1 ≤ c.cap && c.cap ≤ 2048 && 1 ≤ c.dim && c.dim ≤ 128 && c.metric < 4 &&
  if c.mode = 0 then
    (if c.metric = 3 then (f == .n8 || f == .n16 || f == .n32 || f == .n64) && !c.track
     else f == .f32 || f == .bf16 || f == .f16 || f == .f8e4 || f == .f8e5)
  else (f == .i32 || f == .n32 || f == .i64 || f == .n64) && c.metric == 0 && !c.track && c.policy != 1

/-- The region and the spill ring hold what the configuration needs (R314). Log entry 19: DEDUCED. -/
def State.bankRoom (s : State) (c : BankCfg) (es : Nat) : Bool :=
  let io : BankIO := ⟨s, []⟩
  let base := s.hart.csr.bankBase
  let size := s.hart.csr.bankSize
  let sb := io.field 0x24
  let ring := io.field 0x28 * es
  size != 0 && 64 + c.cap * es ≤ size &&
    (c.policy != 2 || (io.field 0x28 != 0 && sb + ring ≤ s.myWindow && (ring = 0 || base + size ≤ sb || sb + ring ≤ base)))

/-- The configured bank: its configuration and entry size; none is STATE (R312). Log entry 19: DEDUCED. -/
def State.bank (s : State) : Option (BankCfg × Nat) :=
  if s.hart.csr.bankSize = 0 then none
  else
    let io : BankIO := ⟨s, []⟩
    match bankCfg (io.get s.hart.csr.bankBase 8) with
    | none => none
    | some c => if c.shapeOk && s.bankRoom c (io.field 0x0C) then some (c, io.field 0x0C) else none

/-- The span of the region, which holds the header. -/
def State.regionSpan (s : State) : List Span :=
  if s.hart.csr.bankSize = 0 then [] else [(locAddr s.hart.csr.bankBase, s.hart.csr.bankSize)]

/-- The spans a bank instruction may touch: the region, and the spill ring under POLICY EVICT. -/
def State.bankSpans (s : State) (c : BankCfg) (es : Nat) : List Span :=
  let io : BankIO := ⟨s, []⟩
  (locAddr s.hart.csr.bankBase, s.hart.csr.bankSize) ::
    (if c.policy = 2 then [(locAddr (io.field 0x24), io.field 0x28 * es)] else [])

/-- A unit's bytes would fall on a live plan record: the first such byte (R274). -/
def State.bankGuard (s : State) (w : List (Nat × Nat)) : Option Word :=
  let hit := fun (x : Nat × Nat) => s.liveRecord s.core s.hart.place.launch x.1 x.2
  match w.reverse.find? hit with
  | none => none
  | some x => ((List.range x.2).find? (fun k => hit (x.1 + k, 1))).map (fun k =>
      locAddr (x.1 + k))

/-- A unit is carried out whole, or PROTECT before it writes anything. -/
def bankUnit (s : State) (start : Nat) (io : BankIO) (k : State → Res) : Res :=
  match s.bankGuard io.w with
  | some a => .trap (trapOf .protect a start) s
  | none => k io.s

/-! ## CLCFG (R314) -/

def execClcfg (h : Hdr) (a b : Fin 32) (s : State) : Out :=
  issue h [a, b] s (fun s =>
    match bankCfg (s.x a).toNat with
    | none => .trap (illegal .operand) s
    | some c =>
      let es := c.entrySize
      needs c.shapeOk .operand s <| whenFree s s.regionSpan <| needs (s.bankRoom c es) .operand s <|
        whenFree s (s.bankSpans c es) <|
        let base := s.hart.csr.bankBase
        let io : BankIO := ⟨s, []⟩
        let io := (((io.put base 8 (s.x a).toNat).put (base + 8) 4 (wfield (s.x b) 0 32)).put (base + 0x0C) 4 es).zero
          (base + 0x10) 20
        bankUnit s 0 ((io.setField hSpillHead 0).zero (base + 64) (c.cap * es)) .done)

/-! ## Entries (R315) -/

/-- The offset of entry `e`. -/
def entryOff (s : State) (es e : Nat) : Nat := s.hart.csr.bankBase + 64 + e * es

def BankIO.entryCount (b : BankIO) (o : Nat) : Nat := b.get o 4
def BankIO.isLive (b : BankIO) (o : Nat) : Bool := b.get (o + 4) 4 % 2 == 1
def BankIO.key (b : BankIO) (o : Nat) : Nat := b.get (o + 8) 8
def BankIO.sum (b : BankIO) (o m : Nat) : Nat := b.get (o + 16 + 4 * m) 4
def centOff (c : BankCfg) (o m : Nat) : Nat := o + 16 + 4 * c.dim + m * c.kfmt.width / 8
def BankIO.cent (b : BankIO) (c : BankCfg) (o m : Nat) : Nat := b.get (centOff c o m) (c.kfmt.width / 8)

/-- The live entries' numbers in ascending order. -/
def BankIO.liveEntries (b : BankIO) (c : BankCfg) (es : Nat) : List Nat :=
  (List.range c.cap).filter (fun e => b.isLive (entryOff b.s es e))

/-- COUNT plus `k`, saturating. -/
def BankIO.addCount (b : BankIO) (o k : Nat) : BankIO := b.put o 4 (min (b.entryCount o + k) (2 ^ 32 - 1))

/-- SUM plus a vector of values, each element in f32 (R98). -/
def BankIO.addSum (b : BankIO) (o : Nat) (xs : List FVal) : BankIO :=
  (indexed xs).foldl (fun b (m, x) => b.put (o + 16 + 4 * m) 4 (fAdd specF32 0 (specF32.decode (b.sum o m)) x).1) b

/-- round(KFMT, SUM / COUNT, RNE) with the exact quotient (R88, R317); free where COUNT is 0. Log entry 5: DESIGN CHOICE. -/
def centroidCode (p : FmtSpec) (sum count : Nat) : Nat :=
  if count = 0 then (Config.emptyCentroid sum).toNat % 2 ^ p.w
  else match specF32.decode sum with
  | .fin n m e => (fDiv p 0 (.fin n m e) (.fin false count 0)).1
  | v => (p.round false 0 v).1

/-- With TRACK, CENTROID becomes SUM / COUNT (R317). -/
def BankIO.recentre (b : BankIO) (c : BankCfg) (o : Nat) : BankIO :=
  if !c.track then b
  else match c.kfmt.spec with
  | none => b
  | some p => (List.range c.dim).foldl (fun b m =>
      b.put (centOff c o m) (c.kfmt.width / 8) (centroidCode p (b.sum o m) (b.entryCount o))) b

/-! ## Distances (R316) -/

/-- The distance of R316 between two vectors of KFMT codes, as an f32 code. -/
def bankDistance (c : BankCfg) (xs cs : List Nat) : Nat :=
  let f32 := specF32
  if c.metric = 3 then
    (f32.round false 0 (.fin false ((xs.zip cs).map (fun (x, y) => popcount 64 (x ^^^ y))).sum 0)).1
  else (xs.zip cs).foldl (fun s (x, y) =>
    let a := valueOf c.kfmt x
    let b := valueOf c.kfmt y
    let d := f32.decode (fSub f32 0 a b).1
    let acc := f32.decode s
    if c.metric = 0 then (fFma f32 0 d d acc).1
    else if c.metric = 1 then (fAdd f32 0 acc d.abs).1
    else (fFma f32 0 a.neg b acc).1) 0

/-- The candidate with the least distance, the first of equals; NaN distances take no part. -/
def leastOfAll {α : Type} : List (α × Nat) → Option (α × Nat)
  | [] => none
  | x :: r =>
    let y := leastOfAll r
    if (specF32.decode x.2).isNan then y
    else match y with
    | none => some x
    | some z => if (specF32.decode z.2).lt (specF32.decode x.2) then some z else some x

def BankIO.centroid (b : BankIO) (c : BankCfg) (o : Nat) : List Nat := (List.range c.dim).map (b.cent c o)

/-- The nearest live entry and its distance. -/
def BankIO.nearest (b : BankIO) (c : BankCfg) (es : Nat) (xs : List Nat) : Option (Nat × Nat) :=
  leastOfAll ((b.liveEntries c es).map (fun e => (e, bankDistance c xs (b.centroid c (entryOff b.s es e)))))

/-! ## One item (R317, R318) -/

/-- An item: its key or its codes, the values that are added to SUM, and the codes that SUM takes where the item opens an entry. -/
structure Item where
  key   : Nat
  codes : List Nat
  vals  : List FVal
  sums  : List Nat

/-- The probe slots of a key (R317). -/
def probes (c : BankCfg) (key : Nat) : List Nat :=
  let h := key * 0x9E3779B97F4A7C15 % 2 ^ 64 / 2 ^ 32 % c.cap
  (List.range 8).map (fun t => (h + t) % c.cap)

/-- The entry that an item matches. -/
def BankIO.matching (b : BankIO) (c : BankCfg) (es : Nat) (it : Item) : Option Nat :=
  if c.mode = 1 then
    (probes c it.key).find? (fun e => let o := entryOff b.s es e; b.isLive o && b.key o == it.key)
  else match b.nearest c es it.codes with
  | none => none
  | some (e, s) =>
    let r := specF32.decode (b.field 0x08)
    if r.isNan || r.lt (specF32.decode s) then none else some e

/-- The entry that an item may open. -/
def BankIO.free (b : BankIO) (c : BankCfg) (es : Nat) (it : Item) : Option Nat :=
  (if c.mode = 1 then probes c it.key else List.range c.cap).find? (fun e => !b.isLive (entryOff b.s es e))

/-- An item added to the entry it matches. -/
def BankIO.join (b : BankIO) (c : BankCfg) (o : Nat) (it : Item) : BankIO :=
  (((b.addSum o it.vals).addCount o 1).recentre c o).count hInserted 1

/-- An item opens an entry. -/
def BankIO.openAt (b : BankIO) (c : BankCfg) (o : Nat) (it : Item) : BankIO :=
  let b := ((b.put o 4 1).put (o + 4) 4 1).put (o + 8) 8 (if c.mode = 1 then it.key else 0)
  let b := (indexed it.sums).foldl (fun b (m, x) => b.put (o + 16 + 4 * m) 4 x) b
  let b := if c.mode = 1 then b
    else (indexed it.codes).foldl (fun b (m, x) => b.put (centOff c o m) (c.kfmt.width / 8) x) b
  (b.count hInserted 1).count hLive 1

/-- The item matches or opens an entry: its number. -/
def BankIO.insert (b : BankIO) (c : BankCfg) (es : Nat) (it : Item) : Option (Nat × BankIO) :=
  match b.matching c es it with
  | some e => some (e, b.join c (entryOff b.s es e) it)
  | none =>
    match b.free c es it with
    | some e => some (e, b.openAt c (entryOff b.s es e) it)
    | none => none

/-- Pairs of a rising list, in order. -/
def pairsOf : List Nat → List (Nat × Nat)
  | [] => []
  | a :: r => r.map (fun b => (a, b)) ++ pairsOf r

/-- The merge of R319: the pair merged, or none. -/
def BankIO.merge (b : BankIO) (c : BankCfg) (es : Nat) : Option ((Nat × Nat) × BankIO) :=
  let cs := (pairsOf (b.liveEntries c es)).map (fun p =>
    (p, bankDistance c (b.centroid c (entryOff b.s es p.1)) (b.centroid c (entryOff b.s es p.2))))
  match leastOfAll cs with
  | none => none
  | some (p, _) =>
    let x := entryOff b.s es p.1
    let y := entryOff b.s es p.2
    let sums := (List.range c.dim).map (fun m => specF32.decode (b.sum y m))
    let b := (((b.addSum x sums).addCount x (b.entryCount y)).recentre c x).zero y es
    some (p, (b.count hLive (-1)).count hMerged 1)

/-- The victim of POLICY EVICT: the live candidate with the least COUNT, lowest index on a tie (R318). -/
def BankIO.victim (b : BankIO) (c : BankCfg) (es : Nat) (it : Item) : Option Nat :=
  let cand := (List.range c.cap).filter (fun e =>
    b.isLive (entryOff b.s es e) && (c.mode = 0 || (probes c it.key).contains e))
  cand.foldl (fun best e => match best with
    | none => some e
    | some v => if b.entryCount (entryOff b.s es e) < b.entryCount (entryOff b.s es v) then some e else best) none

/-- The victim's bytes go to the spill ring and its entry is freed (R318). -/
def BankIO.evict (b : BankIO) (es e : Nat) : BankIO :=
  let o := entryOff b.s es e
  let dst := b.field 0x24 + b.field hSpillHead % max (b.field 0x28) 1 * es
  let bs := b.s.myRead o es
  let b : BankIO := ⟨b.s.bankWrite dst bs, (dst, es) :: b.w⟩
  (((b.zero o es).count hSpillHead 1).count hEvicted 1).count hLive (-1)

/-- What became of an item. -/
inductive Fate
  | entry (e : Nat) (b : BankIO)
  | rejected (b : BankIO)
  | full

/-- One item under POLICY (R317, R318). -/
def bankItem (c : BankCfg) (es : Nat) (it : Item) (b : BankIO) : Fate :=
  match b.insert c es it with
  | some (e, b) => .entry e b
  | none =>
    if c.policy = 1 then
      match b.merge c es with
      | none => .full
      | some (_, b) => match b.insert c es it with
        | some (e, b) => .entry e b
        | none => .full
    else if c.policy = 2 then
      match b.victim c es it with
      | none => .full
      | some e => let b := b.evict es e; .entry e (b.openAt c (entryOff b.s es e) it)
    else if c.policy = 3 then .rejected (b.count hRejected 1)
    else .full

/-! ## CLINS (R317, R322) -/

/-- The bits of a register group of the hart. -/
def State.groupBits (s : State) : Nat := s.hart.place.grant * 8192 * s.vt.size

/-- The code of the key of item `i`; free where it would lie beyond the group. Log entry 5: DESIGN CHOICE. -/
def State.keyCode (s : State) (a : Fin 64) (w i : Nat) : Nat :=
  if (i + 1) * w ≤ s.groupBits then s.elt a w i else (Config.freeKey (s.fresh + i)).toNat % 2 ^ w

/-- Item `i` of a CLINS. -/
def State.bankItemAt (s : State) (c : BankCfg) (a b : Fin 64) (i : Nat) : Item :=
  let f := c.kfmt
  if c.mode = 1 then
    let vs := (List.range c.dim).map (fun m => s.elt b 32 (i * c.dim + m))
    ⟨wrap 64 (intOf f.isSigned f.width (s.keyCode a f.width i)), [], vs.map specF32.decode, vs⟩
  else
    let xs := (List.range c.dim).map (fun m => s.elt a f.width (i * c.dim + m))
    ⟨0, xs, xs.map (valueOf f), xs.map (fun x => (specF32.round false 0 (valueOf f x)).1)⟩

/-- The result of an item in vd and kf; a result beyond the group has no place. Log entry 5: DESIGN CHOICE. -/
def State.itemResult (s : State) (d : Fin 64) (fk : Fin 8) (i r : Nat) (rej : Bool) : State :=
  let s := if 32 * (i + 1) ≤ s.groupBits then s.setElt d 32 i r else s
  if fk = 0 then s else s.setKbit fk i rej

/-- The items in ascending order, each one unit. An item sees the effects of the items before it (R317), so its operands are read after their
results were written, as they are after a stop between the two (R322). Log entry 19: DEDUCED. -/
def bankWalk (s0 : State) (c : BankCfg) (es : Nat) (d a b : Fin 64) (fk : Fin 8) : List Nat → State → Res
  | [], s => .done s
  | i :: r, s =>
    match bankItem c es (({ s with fresh := s0.fresh } : State).bankItemAt c a b i) ⟨s, []⟩ with
    | .full => .trap (trapOf .clFull (BitVec.ofNat 64 i) i) s
    | .rejected io => bankUnit s i io (fun s => bankWalk s0 c es d a b fk r (s.itemResult d fk i (2 ^ 32 - 1) true))
    | .entry e io => bankUnit s i io (fun s => bankWalk s0 c es d a b fk r (s.itemResult d fk i e false))

/-- STATE while the bank is not configured (R312); a copy of the hart on the region is awaited before the header is read (R55, R322). -/
def withBank (s : State) (k : BankCfg → Nat → Res) : Res :=
  whenFree s s.regionSpan <| match s.bank with
  | none => .trap (illegal .state) s
  | some (c, es) => whenFree s (s.bankSpans c es) (k c es)

/-- Items of a CLINS in the bank as it is configured. -/
def State.itemCount (s : State) : Nat :=
  match s.bank with
  | some (c, _) => s.vl / c.dim
  | none => 0

/-- CLINS: the items of the present turn of the lanes. In centroid mode vb is not read, and its alignment is not checked.
Log entry 19: DEDUCED. -/
def execClins (h : Hdr) (d : Fin 64) (a b : CVec) (m fk : Fin 8) (s : State) : Out :=
  issue h [] s (fun s =>
    whenMasks s [m, fk] <| withBank s (fun c es =>
      let n := s.vl / c.dim
      let want := if c.mode = 1 then Fmt.f32 else c.kfmt
      vcheck s (· == want) (d :: a.r :: (if c.mode = 1 then [b.r] else [])) <|
        needs (s.vl % c.dim == 0) .operand s <|
          let items := (List.range n).filter (fun i => s.inTurn i && (m == 0 || s.kbit m i))
          bankWalk s c es d a.r b.r fk items { s with fresh := s.fresh + n }))

/-! ## The other bank instructions (R319 to R321) -/

def execClmrg (h : Hdr) (d : Fin 32) (s : State) : Out :=
  issue h [] s (fun s => withBank s (fun c es =>
    needs (c.mode == 0) .operand s <|
      match (⟨s, []⟩ : BankIO).merge c es with
      | none => .done (s.setX d (BitVec.allOnes 64))
      | some (p, io) => bankUnit s 0 io (fun s => .done (s.setX d (BitVec.ofNat 64 (p.1 + p.2 * 2 ^ 32))))))

/-- The elements that CLRD writes (R320): the vtype they need and their codes. -/
def clrdList (s : State) (c : BankCfg) (es e : Nat) (fld : BitVec 2) : Option (Fmt × List Nat) :=
  let io : BankIO := ⟨s, []⟩
  let o := entryOff s es e
  match fld.toNat with
  | 0 => some (c.kfmt, if c.mode = 1 then [io.key o % 2 ^ c.kfmt.width] else io.centroid c o)
  | 1 => some (.f32, (List.range c.dim).map (io.sum o))
  | 2 => some (.n32, [io.entryCount o, io.get (o + 4) 4 % 2])
  | _ => none

def execClrd (h : Hdr) (d : Fin 64) (a : Fin 32) (fld : BitVec 2) (s : State) : Out :=
  issue h [a] s (fun s => withBank s (fun c es =>
    let e := (s.x a).toNat
    needs (e < c.cap) .operand s <|
      match clrdList s c es e fld with
      | none => .trap (illegal .operand) s
      | some (f, xs) =>
        vcheck s (· == f) [d] <| needs (xs.length ≤ s.vlmax s.vt) .operand s <|
          .done ((indexed xs).foldl (fun t (i, x) => t.setElt d f.width i x) s)))

def execClclr (h : Hdr) (s : State) : Out :=
  issue h [] s (fun s => withBank s (fun c es =>
    let base := s.hart.csr.bankBase
    let io : BankIO := ⟨s, []⟩
    bankUnit s 0 (((io.zero (base + 0x10) 20).setField hSpillHead 0).zero (base + 64) (c.cap * es)) .done))

/-- The header field that SEL selects (R321). -/
def bankStat (io : BankIO) (sel : Nat) : Option Nat :=
  match sel with
  | 0 => some (io.field hLive)
  | 1 => some (io.field hInserted)
  | 2 => some (io.field hRejected)
  | 3 => some (io.field hEvicted)
  | 4 => some (io.field hMerged)
  | 5 => some (io.field hSpillHead)
  | 6 => some (io.get io.s.hart.csr.bankBase 8)
  | 7 => some (io.field 0x0C)
  | _ => none

def execClstat (h : Hdr) (d : Fin 32) (sel : BitVec 4) (s : State) : Out :=
  issue h [] s (fun s => withBank s (fun _ _ =>
    match bankStat ⟨s, []⟩ sel.toNat with
    | some v => .done (s.setX d (BitVec.ofNat 64 v))
    | none => .trap (illegal .operand) s))

end Sys2Proof.Machine
end

