-- ==== Sys2Proof/Machine/Pair.lean ====
section
/-! DEFINITION. Pair words (R181 to R184) and the repeat prefix (R185 to R188). -/

namespace Sys2Proof.Machine

/-! ## Slots -/

/-- A slot's vector register: v0 to v31 (R182). -/
def slotVec (r : Fin 32) : Fin 64 := r.castLE (by decide)

/-- The x registers that an operand reads. -/
def psrcRegs : PSrc → List (Fin 32)
  | .reg r => [r]
  | .imm _ => []

/-- The x registers that a slot reads; D is its first source but for mv (R182). -/
def slotRegs : Slot → List (Fin 32)
  | .pnop => []
  | .salu _ d y => d :: psrcRegs y
  | .mv _ y => psrcRegs y
  | .br _ => []
  | .brg _ _ => []
  | .bdec d _ => [d]
  | .vint _ _ _ => []
  | .vfp _ _ _ => []
  | .vmv _ _ => []
  | .vfabs _ _ => []
  | .vfneg _ _ => []

/-- The vector register that a slot writes. -/
def slotDests : Slot → List (Fin 64)
  | .pnop => []
  | .salu _ _ _ => []
  | .mv _ _ => []
  | .br _ => []
  | .brg _ _ => []
  | .bdec _ _ => []
  | .vint _ d _ => [slotVec d]
  | .vfp _ d _ => [slotVec d]
  | .vmv d _ => [slotVec d]
  | .vfabs d _ => [slotVec d]
  | .vfneg d _ => [slotVec d]

/-- The vector register that a slot reads beside its destination. -/
def slotSrcs : Slot → List (Fin 64)
  | .pnop => []
  | .salu _ _ _ => []
  | .mv _ _ => []
  | .br _ => []
  | .brg _ _ => []
  | .bdec _ _ => []
  | .vint _ _ y => (psrcRegs y).map slotVec
  | .vfp _ _ a => [slotVec a]
  | .vmv _ y => (psrcRegs y).map slotVec
  | .vfabs _ a => [slotVec a]
  | .vfneg _ a => [slotVec a]

/-- The vtype formats that a slot's counterpart accepts (R236, R238). -/
def slotFmt : Slot → Fmt → Bool
  | .vint .vadd _ _ => Fmt.isInt
  | .vint .vsub _ _ => Fmt.isInt
  | .vint .vmul _ _ => Fmt.isInt
  | .vint .vmin _ _ => Fmt.isInt
  | .vint .vmax _ _ => Fmt.isInt
  | .vint .vand _ _ => anyFmt
  | .vint .vor _ _ => anyFmt
  | .vint .vxor _ _ => anyFmt
  | .vfp _ _ _ => Fmt.isVfp
  | .vfabs _ _ => Fmt.isVfp
  | .vfneg _ _ => Fmt.isVfp
  | .vmv _ _ => anyFmt
  | .pnop => anyFmt
  | .salu _ _ _ => anyFmt
  | .mv _ _ => anyFmt
  | .br _ => anyFmt
  | .brg _ _ => anyFmt
  | .bdec _ _ => anyFmt

/-- The vtype part of R183 for a slot. -/
def State.slotSuits (s : State) (p : Slot) : Bool := (slotDests p).all (aligned s.vt.size) && slotFmt p s.vt.fmt

/-- The operand of a scalar slot. -/
def State.psrc (s : State) : PSrc → Word
  | .reg r => s.x r
  | .imm b => b.signExtend 64

/-- Element `i` of the operand of a vector slot. -/
def State.pvsrc (s : State) (w i : Nat) : PSrc → Nat
  | .reg r => s.elt (slotVec r) w i
  | .imm b => (b.signExtend 64).toNat % 2 ^ w

def PairAlu.fn : PairAlu → Word → Word → Word
  | .add => (· + ·)
  | .sub => (· - ·)
  | .and => (· &&& ·)
  | .or => (· ||| ·)
  | .xor => (· ^^^ ·)
  | .sll => fun x y => x <<< shamt y
  | .srl => fun x y => x >>> shamt y
  | .sra => fun x y => x.sshiftRight (shamt y)
  | .mul => (· * ·)

def PairVint.fn : PairVint → Nat → Nat → Nat → Nat
  | .vadd => bvop (fun _ x y => x + y)
  | .vsub => bvop (fun _ x y => x - y)
  | .vmul => bvop (fun _ x y => x * y)
  | .vand => bvop (fun _ x y => x &&& y)
  | .vor => bvop (fun _ x y => x ||| y)
  | .vxor => bvop (fun _ x y => x ^^^ y)
  | .vmin => bvop (fun _ x y => sminR x y)
  | .vmax => bvop (fun _ x y => smaxR x y)

def PairVfp.fn (p : FmtSpec) (rm : BitVec 2) : PairVfp → Nat → Nat → Nat × Flags
  | .vfadd => fun x y => on2 fAdd p rm x y 0
  | .vfsub => fun x y => on2 fSub p rm x y 0
  | .vfmul => fun x y => on2 fMul p rm x y 0
  | .vfmin => fun x y => fMinMax p false x y
  | .vfmax => fun x y => fMinMax p true x y

/-- Element by element from the start index to vl, with operands read in `s0` and flags accumulated without a trap (R184). -/
def slotElts (s0 : State) (d : Fin 32) (f : Nat → Nat × Flags) (s : State) : State :=
  ((List.range s0.vl).filter s0.inTurn).foldl (fun t i =>
    let r := f i
    (t.setElt (slotVec d) s0.vt.fmt.width i r.1).accrue r.2) s

/-- What a slot writes: every operand is read in `s0` (R184). -/
def slotWrite (s0 : State) (p : Slot) (s : State) : State :=
  let w := s0.vt.fmt.width
  match p with
  | .pnop => s
  | .salu op d y => s.setX d (PairAlu.fn op (s0.x d) (s0.psrc y))
  | .mv d y => s.setX d (s0.psrc y)
  | .br _ => s
  | .brg _ _ => s
  | .bdec d _ => s.setX d (s0.x d - 1)
  | .vint op d y => slotElts s0 d (fun i => (PairVint.fn op w (s0.elt (slotVec d) w i) (s0.pvsrc w i y), 0)) s
  | .vfp op d a =>
    slotElts s0 d (fun i => PairVfp.fn s0.vspec s0.frm op (s0.elt (slotVec d) w i) (s0.elt (slotVec a) w i)) s
  | .vmv d y => slotElts s0 d (fun i => (s0.pvsrc w i y, 0)) s
  | .vfabs d a => slotElts s0 d (fun i => (s0.vspec.withSign false (s0.elt (slotVec a) w i), 0)) s
  | .vfneg d a =>
    slotElts s0 d (fun i => let x := s0.elt (slotVec a) w i; (s0.vspec.withSign (!s0.vspec.signBit x) x, 0)) s

/-- The target of a slot's branch, if it is taken; BDEC is judged by the value that it computes, also where D is x0. Log entry 34: DEDUCED. -/
def State.slotTarget (s : State) (p : Slot) : Option Word :=
  let t := fun (b : BitVec 19) => s.hart.ctl.pc + 8 * b.signExtend 64
  match p with
  | .br b => some (t b)
  | .brg g b => if s.g g then some (t b) else none
  | .bdec d b => if s.x d - 1 = 0 then none else some (t b)
  | .pnop => none
  | .salu _ _ _ => none
  | .mv _ _ => none
  | .vint _ _ _ => none
  | .vfp _ _ _ => none
  | .vmv _ _ => none
  | .vfabs _ _ => none
  | .vfneg _ _ => none

/-- Both slots together: the checks of R183, the alignment of the sources (R177, R192), the pop of R178, then both slots' writes and slot B's branch.
Log entry 34: DEDUCED. -/
def pairStep (a b : Slot) (s : State) : Out :=
  .next (finish s (
    needs (s.slotSuits a && s.slotSuits b) .pair s <|
    needs ((slotSrcs a ++ slotSrcs b).all (aligned s.vt.size)) .register s <|
      popFor (slotRegs a ++ slotRegs b) s (fun s0 =>
        let t := slotWrite s0 b (slotWrite s0 a s0)
        match s0.slotTarget b with
        | some x => .jump x t
        | none => .done t)))

def execPairWord (a b : Slot) (s : State) : Out := pairStep a b s
/-- The word whose slots are both pnop. -/
def execPnop (s : State) : Out := pairStep .pnop .pnop s
/-- The word whose slot B is brg beside a pnop. -/
def execBrg (g : Fin 8) (off : BitVec 19) (s : State) : Out := pairStep .pnop (.brg g off) s

/-! ## The repeat prefix (R185 to R188) -/

/-- A repeat begins, or continues, at iteration rpc; with no iteration left the words are passed over (R186, R188).
Log entry 38: DEDUCED. -/
def State.startRep (s : State) (r : RepState) : State :=
  if r.count ≤ s.hart.csr.rpc.toNat then
    (s.modCsr (fun c => { c with rpc := 0 })).modCtl (fun c => { c with
      pc := c.next, rep := none, resume := none, begin := 0, phase := .running })
  else s.modCtl (fun c => { c with rep := some r, phase := .running })

/-- REP: the count is read once; the iterations follow at the same address.
Log entry 13: DEDUCED; log entry 38: DEDUCED. -/
def execRep (p : RepPrefix) (f : BitVec 64) (lit : Option (BitVec 62)) (s : State) : Out :=
  match p.count with
  | .imm n => .next (s.startRep ⟨n.toNat, p, f, lit⟩)
  | .reg r =>
    .next (match popFor [r] s Res.done with
      | .done t => t.startRep ⟨(t.x r).toNat, p, f, lit⟩
      | e => finish s e)

end Sys2Proof.Machine
end

