-- ==== Sys2Proof/Machine/Agents.lean ====
section
/-! DEFINITION. Steps that the core and the stacks take beside the issue of instructions: filling the instruction cache (R28),
delivering a trap (R324), scalar stores that reach their targets (R203), write units and merging adds (R63, R64, R122). -/

namespace Sys2Proof.Machine

/-! ## Instruction fetch (R28) -/

/-- The word that the hart's core caches at an address for the hart's context. Log entry 33: DEDUCED. -/
def State.cached (s : State) (a : Word) : Option Word :=
  (s.cores.icache.find? (fun c => c.core == s.core && c.ctx == s.ctx && c.va == a.toNat)).map ICell.w

/-- The fault of a fetch of the word at `a`, or its page (R21, R28). -/
def State.fetchPage (s : State) (a : Word) : Except Cause Page :=
  let e := s.entryAt s.ctx a
  if !(classOf a).isVirt || !entV e || !entX e || entFMT e != 0 || s.linkLost a e then .error .protect
  else if !entP e then .error .absent
  else if s.hostRefused a e false then .error .protect
  else
    let p := pageOf s.ctx a e
    if (s.pmeta p.frame).state = 3 then .error .integrity else .ok p

/-- The word at `a` is in the instruction cache afterwards. Log entry 33: DEDUCED. -/
def State.fillWord (s : State) (a : Word) : Except Trap State :=
  match s.cached a with
  | some _ => .ok s
  | none =>
    match s.fetchPage a with
    | .error c => .error (trapOf c a)
    | .ok p =>
      let s := s.settle p.frame p.off 8
      let w := BitVec.ofNat 64 (s.rawNat p.frame p.off 8)
      .ok (s.modCores (fun c => { c with icache := ⟨s.core, s.ctx, a.toNat, w⟩ :: c.icache }))

/-- The words of the instruction at the pc, as many as it has (R167), from the cache as it stands. -/
def State.cachedWords (s : State) (n : Nat) : List Word :=
  (List.range n).filterMap (fun i => s.cached (s.hart.ctl.pc + BitVec.ofNat 64 (8 * i)))

/-- The state with one more word cached, as often as the instruction at the pc asks for; the words, in order. -/
def State.fetchWords : Nat → State → List Word → Except (Trap × State) (List Word × State)
  | 0, s, ws => .ok (ws, s)
  | n + 1, s, ws =>
    let a := s.hart.ctl.pc + BitVec.ofNat 64 (8 * ws.length)
    match s.fillWord a with
    | .error t => .error (t, s)
    | .ok s =>
      let ws := ws ++ [(s.cached a).getD 0]
      match ws with
      | w :: r => if ws.length < wordsWanted w r[0]? then State.fetchWords n s ws else .ok (ws, s)
      | [] => .ok (ws, s)

/-- The words of the instruction at the pc (three at most), with the cache filled as they need.
Log entry 33: DEDUCED. -/
def State.fetch (s : State) : Except (Trap × State) (List Word × State) := State.fetchWords 3 s []

/-- INSTRUCTION_FETCH: the instruction at the pc of the hart whose turn it is is brought into the cache, or its fetch faults once every older
instruction has completed. -/
def execInstructionFetch (s : State) : Out :=
  if s.hart.resident then
    match s.fetch with
    | .ok (_, t) => .next t
    | .error (t, u) =>
      if u.hart.ctl.window.isEmpty && u.hart.ctl.stores.isEmpty then .next (u.deliverEarly t)
      else .refused (.cannotOccur "INSTRUCTION_FETCH")
  else .refused (.cannotOccur "INSTRUCTION_FETCH")

/-! ## Trap delivery (R324) -/

/-- TRAP_DELIVERY: a trap found at the instruction at the pc of the hart whose turn it is, once every older one has completed. -/
def execTrapDelivery (t : Trap) (s : State) : Out :=
  if s.hart.resident && s.hart.ctl.window.isEmpty && s.hart.ctl.stores.isEmpty then .next (s.deliver t) else .refused (.cannotOccur "TRAP_DELIVERY")

/-! ## Scalar stores at their targets (R203) -/

/-- The oldest store of the hart whose turn it is reaches its target: it performs, or its fault is delivered.
Log entry 9: DEDUCED. -/
def State.storeArrives (s : State) : State :=
  match s.hart.ctl.stores with
  | [] => s
  | st :: rest =>
    let s := s.modCtl (fun c => { c with stores := rest })
    match s.storePerform st with
    | .ok t => t.pinUsed
    | .error c => s.takeTrap (trapOf c st.addr) st.pc (some st) true

/-- STORE_AT_TARGET: the oldest store of the resident hart at `loc` reaches its target. Log entry 8: DEDUCED. -/
def execStoreAtTarget (loc : HartLoc) (s : State) : Out :=
  let t := s.bringTurn loc
  if t.hart.resident && t.hart.place.loc == loc && !t.hart.ctl.stores.isEmpty then .next t.storeArrives
  else .refused (.cannotOccur "STORE_AT_TARGET")

/-! ## Units at their targets (R63, R64, R121, R122) -/

/-- Bytes that lie in one aligned 32-byte block. -/
def oneUnit (off n : Nat) : Bool := 0 < n && off % 32 + n ≤ 32

/-- WRITE_UNIT_PERFORM: bytes become visible in a window, or in the array of a stack; no unit performs on a frozen page (R116, R137) or a
poisoned one (R106). -/
def execWriteUnitPerform (u : WriteUnit) (s : State) : Out :=
  match u with
  | .pad core launch off bs =>
    if oneUnit off bs.length && off + bs.length ≤ s.windowSize core launch then .next (s.padWrite core launch off bs)
    else .refused (.cannotOccur "WRITE_UNIT_PERFORM")
  | .stack frame off bs =>
    if oneUnit off bs.length && off + bs.length ≤ 65536 && (s.pmeta frame).state ≤ 1 then
      .next (((s.settle frame off bs.length).rawWrite frame off bs).touch frame)
    else .refused (.cannotOccur "WRITE_UNIT_PERFORM")

/-- MERGING_ADD_ARRIVAL: a contribution opens or joins its line's entry; none arrives for a frozen page (R116, R137) or a poisoned one. -/
def execMergingAddArrival (c : MergeAdd) (s : State) : Out :=
  if c.off < 65536 && (s.pmeta c.frame).state ≤ 1 then .next (s.mergeArrive c) else .refused (.cannotOccur "MERGING_ADD_ARRIVAL")

/-- WRITE_QUEUE_APPLY: the entry numbered `n` in order of opening is applied, with the other lines of its row (R264). -/
def execWriteQueueApply (n : Nat) (s : State) : Out :=
  match s.ms.wq[n]? with
  | some e => .next (s.applyWhere e.together)
  | none => .refused (.cannotOccur "WRITE_QUEUE_APPLY")

end Sys2Proof.Machine
end

