-- ==== Sys2Proof/Machine/Return.lean ====
section
/-! DEFINITION. Leaving a handler (R214, R327 to R329): what URET issues again and where the hart goes on, what a handler's writes of ustart and
rpc change (R188, R328), and the progress pin (R42). -/

namespace Sys2Proof

/-- The start index of the instruction counts units (R325): it is element-wise, a load, a store, PLGAT, PLSCAT, TLD, TST, an outer product or
CLINS. Scalar and indivisible instructions have one unit, the whole. -/
def FWord.countsUnits (f : FWord) : Bool :=
  match f.opc with
  | 0x20 => true
  | 0x21 => true
  | 0x30 => true
  | 0x31 => true
  | 0x38 => f.fn != 5 && f.fn != 6
  | 0x39 => f.fn == 0 || f.fn == 1 || f.fn == 4
  | 0x49 => true
  | 0x50 => true
  | 0x51 => true
  | 0x60 => f.fn ≤ 1
  | 0x68 => f.fn == 2 || f.fn == 5
  | 0x70 => f.fn != 3
  | 0x78 => f.fn == 1
  | _ => false

end Sys2Proof

namespace Sys2Proof.Machine

/-! ## What a record's instruction is -/

/-- The word at an address as the hart fetches it; 0 where the fetch faults. -/
def State.wordAt (s : State) (a : Word) : Word :=
  match s.fillWord a with
  | .ok t => (t.cached a).getD 0
  | .error _ => 0

/-- The F-word of a record with its literal: the word at its address, or the stepped word of its repeat (R186). -/
def State.flightWord (s : State) (pc : Word) (i : Option Iter) : FWord × Option (BitVec 62) :=
  match i with
  | some (r, j) => ((FWord.ofWord r.f).step r.p j, r.lit)
  | none =>
    let f := FWord.ofWord (s.wordAt pc)
    (f, if f.lit then literal (some (s.wordAt (pc + 8))) else none)

/-- The virtual address of element `n` of a load, store, merging add, gather or scatter with the values it captured. -/
def State.eltVa (s : State) (w : FWord × Option (BitVec 62)) (v : Resume) (n : Nat) : Option Word :=
  let f := w.1
  let u := s.modCtl (fun c => { c with resume := some v })
  let x := fun (r : Nat) => u.x (fldN 32 r)
  let elt := fun (a0 : Word) (st : Int) => (eltAddr a0 st (u.stepBits a0 v.vtype.fmt.width) n).1
  let granule := fun (b q : Word) =>
    match u.hart.regs.pl[Fin.ofNat 16 (f.imm % 16)] with
    | none => none
    | some r =>
      let p := u.planAt r
      match planGeo u p b q.toNat with
      | none => none
      | some g => (g.slot p n).map (fun d => (g.addr p d n).1)
  match f.opc, f.fn with
  | 0x50, 0 => some (elt (x f.a + (f.immv w.2).sval) 1)
  | 0x51, 0 => some (elt (x f.a + (f.immv w.2).sval) 1)
  | 0x50, 1 => some (elt (x f.a) (x f.b).toInt)
  | 0x50, 2 => some (elt (x f.a) 1)
  | 0x60, 0 => some (elt (x f.a) 1)
  | 0x60, 1 => some (elt (x f.a) 1)
  | 0x51, 1 => some (elt (x f.a) (x f.b).toInt)
  | 0x68, 2 => granule (x f.a) (x f.b)
  | 0x68, 5 => granule (x f.a) (x f.d)
  | _, _ => none

/-! ## The progress pin (R42) -/

/-- The pin of a hart is taken on the page that holds an address, if the page is present; a pin that the hart held before goes. -/
def State.takePin (s : State) (h : Hart) (a : Word) : State :=
  let s := (s.unpin h).modAt h.dest (fun g => g.modCtl (fun t => { t with pin := none, pinAt := none }))
  let ctx := (s.fn h.place.fn).ctx
  let e := s.entryAt ctx a
  if entV e && entP e then
    let fr := (pageOf ctx a e).frame
    (s.modMeta fr (fun m => { m with pin := true })).modAt h.dest (fun h =>
      h.modCtl (fun t => { t with pin := some fr, pinAt := some a }))
  else s

/-- The address of the element that T is resumed at: the faulting one, or the element at the ustart that the handler wrote.
Log entry 39: DEDUCED. -/
def State.resumeAddr (s : State) (r : TrapRec) : Word :=
  let c := s.hart.csr
  match r.cap with
  | none => c.uinfo
  | some v =>
    if c.ustart.toNat = v.start then c.uinfo
    else (s.eltVa (s.flightWord r.pc r.iter) v c.ustart.toNat).getD c.uinfo

/-- URET after ABSENT or ABSENT_ST takes the pin; after any other cause a pin that stands goes on standing. -/
def State.pinFor (s : State) (r : TrapRec) : State :=
  let c := s.hart.csr.ucause
  if c = Cause.absent.code || c = Cause.absentSt.code then s.takePin s.hart (s.resumeAddr r) else s

/-! ## What a write of rpc changes (R188) -/

/-- The repeat that was in progress, with the address of its X-word. -/
def TrapRec.repeating (r : TrapRec) : Option (Word × RepState) :=
  match r.iter with
  | some (q, _) => some (r.pc, q)
  | none => match r.list.findSome? (fun f => f.iter.map (fun i => (f.pc, i.1))) with
    | some x => some x
    | none => r.cont.rep.map (fun q => (r.cont.pc, q))

/-- What is left of a trap record at URET: whether T is issued again and as which iteration, the list, and CONT. -/
structure Left where
  again : Bool
  iter  : Option Iter
  list  : List Flight
  cont  : Cont
deriving DecidableEq, Repr

/-- The record with `m` in CSR rpc. At or above the count no further iteration executes; at another value than the handler found,
the repeat goes on at that iteration: recorded iterations below it are dropped, and behind a smaller one everything is issued
from its start (R188). Log entry 38: DEDUCED. -/
def TrapRec.left (r : TrapRec) (m : Word) : Left :=
  match r.repeating with
  | none => ⟨true, none, r.list, { r.cont with rpc := m }⟩
  | some (x, q) =>
    let was := (oldestIter r.iter r.list r.cont.rpc).toNat
    let n := m.toNat
    let mine := fun (f : Flight) => f.pc == x && f.iter.isSome
    let inside := r.cont.rep.isSome && r.cont.pc == x
    let first := if r.iter.isSome then n + 1 else n
    if n = was then ⟨true, r.iter, r.list, r.cont⟩
    else if q.count ≤ n then
      ⟨r.iter.isNone, none, r.list.filter (fun f => !mine f),
        if inside then ⟨x + (if q.lit.isSome then 24 else 16), none, 0⟩ else r.cont⟩
    else if was < n then
      ⟨true, r.iter.map (fun _ => (q, n)), r.list.filter (fun f => !mine f || (f.iter.map Prod.snd).any (first ≤ ·)),
        if inside then { r.cont with rpc := BitVec.ofNat 64 (max first r.cont.rpc.toNat) } else r.cont⟩
    else ⟨true, r.iter.map (fun _ => (q, n)), r.list.takeWhile (fun f => !mine f && r.iter.isNone), ⟨x, some q, BitVec.ofNat 64 first⟩⟩

/-! ## URET and UJMP -/

/-- The handler is left: no trap record remains. -/
def State.leaveHandler (s : State) : State := s.modCtl (fun c => { c with inHandler := false, trapRec := none })

/-- These records are issued again, oldest first, and then the hart goes on at `c` (R327). -/
def State.goOn (s : State) (fs : List Flight) (c : Cont) : State :=
  (s.modCsr (fun x => { x with rpc := c.rpc })).modCtl (fun t => { t with pc := c.pc, rep := c.rep, reissue := fs })

/-- Where URET goes on when uepc is T's address (R327, R328): TRAP is passed; a store is on its way again with the address and data it first
issued with; any other T is issued again from ustart with the values it captured, unless ustart lies beyond its only unit. The
records of the list follow, and then CONT. A T that had not issued is what CONT names: it issues from ustart. A T that is not issued again is
abandoned, and its pin goes (R42). Log entry 14: DEDUCED. -/
def State.resumeT (s : State) (r : TrapRec) : State :=
  let c := s.hart.csr
  let s := (s.retireTo r.pc).leaveHandler
  let l := r.left c.rpc
  let none' := c.ustart != 0 && !(s.flightWord r.pc r.iter).1.countsUnits
  if r.isTrap then s.releasePin.modCtl (fun t => { t with reissue := r.list })
  else match r.store with
  | some st =>
    if l.again && l.iter == r.iter && c.ustart = 0 then
      ((s.goOn l.list l.cont).modCtl (fun t => { t with stores := t.stores ++ [st] })).pinFor r
    else if l.again && l.iter != r.iter then
      s.releasePin.goOn l.list ⟨r.pc, l.iter.map Prod.fst, c.rpc⟩
    else s.releasePin.goOn l.list l.cont
  | none =>
    match r.cap with
    | none =>
      (s.modCtl (fun t => { t with rep := r.iter.map Prod.fst, reissue := r.list, begin := c.ustart.toNat })).pinFor r
    | some v =>
      if l.again && !none' then
        (s.goOn (⟨r.pc, l.iter, { v with start := c.ustart.toNat, panel := [] }, none⟩ :: l.list) l.cont).pinFor r
      else s.releasePin.goOn l.list l.cont

/-- Log entry 14: DEDUCED. -/
def execUret (h : Hdr) (s : State) : Out :=
  if guardOn h s then
    match s.hart.ctl.trapRec with
    | none => .next (s.deliver (illegal .state))
    | some r =>
      if !s.hart.ctl.inHandler then .next (s.deliver (illegal .state))
      else if s.hart.csr.uepc.toNat % 8 != 0 then .next (s.deliver (trapOf .misalign s.hart.csr.uepc))
      else if s.hart.csr.uepc != r.pc then .next (s.retireTo s.hart.csr.uepc).leaveHandler.releasePin
      else .next (s.resumeT r)
  else .next s.retire

/-- UJMP: the trapped instruction and every record of the list are abandoned (R329). Log entry 14: DEDUCED. -/
def execUjmp (h : Hdr) (a : Fin 32) (s : State) : Out :=
  issue h [a] s (fun s =>
    if !s.hart.ctl.inHandler then .trap (illegal .state) s else .jump (s.x a) s.leaveHandler.releasePin)

end Sys2Proof.Machine
end

