-- ==== Sys2Proof/Machine/Sched.lean ====
section
/-! DEFINITION. The scheduler (R146 to R158, R163, R217, R331, R335): checking records, dependences, placing crews and choosing
grants, pre-emption, resumption and budgets. -/

namespace Sys2Proof.Machine

/-! ## The record at the head of a queue (R146, R149) -/

/-- The slot count of the record a queue considers next: the first one to be replayed, else the head. -/
def Queue.headCount (q : Queue) : BitVec 32 :=
  match q.replay with
  | c :: _ => c.1
  | [] => q.head

/-- The queue takes records: it is not stopped, and it is enabled or has records to replay. Log entry 15: DEDUCED. -/
def Queue.takes (q : Queue) : Bool := !q.stopped && (q.en || !q.replay.isEmpty)

/-- The queue has a record to take. -/
def Queue.hasRecord (q : Queue) : Bool := q.takes && (!q.replay.isEmpty || q.head != q.tail)

/-- The words of the record a queue considers next (R147, R148). -/
def State.headWords (s : State) (f : Fn) (q : Queue) : Option (Vector Word 8) :=
  match q.replay with
  | c :: _ => some c.2
  | [] => s.slotWords f q q.head

/-- Check 1 of R146: reserved fields and the limits of R143 to R145. -/
def recordOk (w : Vector Word 8) : Bool :=
  let crews := wfield w[2] 0 32
  let harts := wfield w[2] 32 8
  let stages := wfield w[2] 40 8
  let gmin := wfield w[3] 0 16
  let gmax := wfield w[3] 16 16
  let window := wfield w[3] 48 16
  w[0].toNat % 8 == 0 && w[5].toNat % 8 == 0 && w[7] == 0 &&
    wfield w[2] 58 6 == 0 && wfield w[2] 51 5 == 0 && wfield w[3] 35 13 == 0 &&
    1 ≤ crews && 1 ≤ harts && harts ≤ 32 && 1 ≤ stages && stages ≤ crews &&
    wfield w[3] 32 3 ≤ 4 && window % 4 == 0 && window ≤ 1024 &&
    gmax % 64 == 0 && gmax ≤ 768 && gmin % 64 == 0 && 64 ≤ gmin && gmin ≤ gmax

/-- A launch made of the words of a record, before any crew has started. -/
def newLaunch (id fn : Nat) (q : Fin 16) (slot : BitVec 32) (w : Vector Word 8) : Launch := ⟨id, fn, q, slot, w, 0, 0⟩

/-! ## What is free (R151, R159) -/

/-- The resident harts of a core. -/
def State.onCore (s : State) (core : Nat) : List Hart :=
  s.harts.filter (fun h => h.resident && coreOf h.place.loc == core)

def State.freeNums (s : State) (core : Nat) : List Nat :=
  (List.range 4).filter (fun n => !(s.onCore core).any (fun h => h.place.loc.toNat == 4 * core + n))
def State.freeUnits (s : State) (core : Nat) : Nat := 12 - ((s.onCore core).map (fun h => h.place.grant)).sum
def State.freeTiles (s : State) (core : Nat) : Nat := 4 - ((s.onCore core).map (fun h => h.place.tiles)).sum
/-- Windows are held by pre-empted harts too (R48). -/
def State.freeWindow (s : State) (core : Nat) : Nat :=
  2 ^ 20 - ((s.cores.windows.filter (fun w => w.core == core)).map Window.size).sum

def State.ringHeld (s : State) (furrow launch : Nat) : Bool :=
  s.cores.rings.any (fun r => r.furrow == furrow && r.launch == launch)

/-- The launch holds a ring slot on the furrow, or a slot is free (R159). -/
def State.ringRoom (s : State) (furrow launch : Nat) : Bool :=
  s.ringHeld furrow launch || (s.cores.rings.filter (fun r => r.furrow == furrow)).length < 8

/-- How many harts of a launch a core takes (R151). -/
def State.coreTakes (s : State) (l : Launch) (core : Nat) : Nat :=
  let tiles := if l.tileCount = 0 then 4 else s.freeTiles core / l.tileCount
  let window := if (s.window core l.id).isSome || l.windowBytes ≤ s.freeWindow core then 4 else 0
  min (min (s.freeNums core).length tiles) (min (s.freeUnits core / max l.grantMin 1) window)

/-- The places that a furrow gives the harts of a crew, in ascending (core, hart) order. -/
def State.furrowPlaces (s : State) (l : Launch) (furrow : Nat) : List Nat :=
  ((List.range 8).flatMap (fun c =>
    let core := 8 * furrow + c
    ((s.freeNums core).take (s.coreTakes l core)).map (fun n => 4 * core + n))).take l.hartCount

/-- The next placement step of a launch: its queue, its slot and the first crew of the step. -/
def Launch.step (l : Launch) : Fin 16 × BitVec 32 × Nat := (l.queue, l.slot, l.placed)

/-- A pre-empted crew of equal or higher PRIO waits to be resumed on the furrow (R157), unless it was pre-empted for this step.
Log entry 22: DEDUCED. -/
def State.furrowHeld (s : State) (l : Launch) (furrow : Nat) : Bool :=
  s.sched.crews.any (fun c => c.pre && c.harts.any (fun h => furrowOf h == furrow && !c.retired.contains h) &&
    c.yielded != some l.step &&
    match s.launch? c.launch with
    | some k => k.fn == l.fn && l.prio ≤ k.prio
    | none => false)

/-- The function's furrows in the order of R151: the fields that hold crews of the launch first. -/
def State.furrowOrder (s : State) (l : Launch) : List Nat :=
  let fields := (List.range 8).filter (fun f => s.harts.any (fun h => h.place.launch == l.id && fieldOf h.place.loc == f))
  let mine := (List.range 128).filter (s.fn l.fn).hasFurrow
  mine.filter (fun u => fields.contains (u / 16)) ++ mine.filter (fun u => !fields.contains (u / 16))

/-- The first furrow that fits a crew of a launch, with the crew's places. -/
def State.fitCrew (s : State) (l : Launch) : Option (Nat × List Nat) :=
  match (s.furrowOrder l).find? (fun u =>
      !s.furrowHeld l u && s.ringRoom u l.id && (s.furrowPlaces l u).length == l.hartCount) with
  | some u => some (u, s.furrowPlaces l u)
  | none => none

/-! ## Placement (R46, R151 to R154, R159) -/

/-- A hart at its start (R154). -/
def entryHart (l : Launch) (crew rank loc : Nat) : Hart :=
  let x2 : Word := if l.windowBytes = 0 then 0 else 0xFE00000000000000#64 + BitVec.ofNat 64 l.windowBytes
  let x := ((((Vector.replicate 32 (0 : Word)).set 2 x2).set 3 l.param).set 4 (BitVec.ofNat 64 crew)).set 5 (BitVec.ofNat 64 rank)
  { place := { loc := BitVec.ofNat 12 loc, fn := l.fn, launch := l.id, crew := BitVec.ofNat 32 crew,
               rank := BitVec.ofNat 8 rank, stage := BitVec.ofNat 8 (crew % max l.stageCount 1),
               crews := BitVec.ofNat 32 l.crewCount, harts := BitVec.ofNat 8 l.hartCount,
               stages := BitVec.ofNat 8 l.stageCount, grant := l.grantMin, tiles := l.tileCount }
    regs := { Regs.entry with x := x }
    csr := Csrs.entry
    ctl := { Ctl.entry with pc := l.kernel, next := l.kernel } }

/-- The core gets the launch's window, zeroed, unless the launch holds one there; its cached words of the context are
refreshed (R28, R46, R151). Log entry 21: DEDUCED. -/
def State.openCore (s : State) (l : Launch) (core : Nat) : State :=
  let s := if (s.window core l.id).isSome || l.windowBytes = 0 then s
    else s.modCores (fun c => { c with windows := c.windows ++ [⟨core, l.id, l.windowBytes, []⟩] })
  let ctx := (s.fn l.fn).ctx
  s.modCores (fun c => { c with icache := c.icache.filter (fun w => !(w.core == core && w.ctx == ctx)) })

/-- A crew starts at its places with the least grant. -/
def State.startCrew (s : State) (l : Launch) (crew : Nat) (furrow : Nat) (places : List Nat) : State :=
  let s := places.foldl (fun s p => s.openCore l (p / 4)) s
  let s := if s.ringHeld furrow l.id then s
    else s.modCores (fun c => { c with rings := c.rings ++ [⟨furrow, l.id, Vector.replicate 16 0⟩] })
  let harts := (indexed places).map (fun (r, p) => entryHart l crew r p)
  let rec' : CrewRec :=
    { launch := l.id, crew := crew, harts := places.map (BitVec.ofNat 12), retired := [], budget := 0,
      order := s.sched.order, pre := false, yielded := none, owed := [] }
  { s with parked := s.parked ++ harts,
           sched := { s.sched with crews := s.sched.crews ++ [rec'], order := s.sched.order + 1 } }

/-- The harts of a crew that have not retired. -/
def State.crewHarts (s : State) (launch crew : Nat) : List Hart := s.harts.filter (fun h => h.inGroup false launch crew)

/-- The crew takes the largest grant that every core of its harts has free, up to GRANTMAX (R152). -/
def State.growCrew (s : State) (l : Launch) (crew : Nat) : State :=
  let hs := s.crewHarts l.id crew
  let g := hs.foldl (fun g h =>
    let core := coreOf h.place.loc
    let k := hs.countP (fun h => coreOf h.place.loc == core)
    min g (h.place.grant + s.freeUnits core / max k 1)) l.grantMax
  s.modHarts (fun h => h.inGroup false l.id crew) (fun h => { h with place := { h.place with grant := max g l.grantMin } })

/-- `n` crews from index `i` on are placed with the least grant; none if one does not fit. -/
def State.placeCrews (l : Launch) : Nat → Nat → State → Option State
  | 0, _, s => some s
  | n + 1, i, s =>
    match s.fitCrew l with
    | none => none
    | some (u, places) => State.placeCrews l n (i + 1) (s.startCrew l i u places)

/-- The crews that one placement step of a launch starts: all of them under COSIDENT, else one (R153). -/
def Launch.stepCrews (l : Launch) : Nat := if l.cosident then l.crewCount - l.placed else 1

/-- One placement step: every crew of the step fits and takes its grant, or none starts. Log entry 21: DEDUCED. -/
def State.placeStep (s : State) (l : Launch) : Option State :=
  let s := if l.placed = 0 then
      s.modSched (fun d => { d with launches := d.launches ++ [l], nextId := max d.nextId (l.id + 1) })
    else s
  match State.placeCrews l l.stepCrews l.placed s with
  | none => none
  | some t =>
    let t := (List.range l.stepCrews).foldl (fun t i => t.growCrew l (l.placed + i)) t
    some (t.modLaunch l.id (fun x => { x with placed := l.placed + l.stepCrews }))

/-- Every crew of a record has started: its slot is free and its record is copied (R147, R148). -/
def State.recordStarted (s : State) (l : Launch) : State :=
  s.modQueue l.fn l.queue (fun q => if q.cur != some l.id then q else { q with
    headRec := none
    ready := false
    copies := q.copies.filter (fun c => c.1 != l.slot) ++ [(l.slot, l.words)]
    plain := if l.checkpoint then q.plain else q.plain ++ [l.slot]
    cur := none
    replay := q.replay.drop 1
    head := if q.replay.isEmpty then q.head + 1 else q.head })

/-! ## RECORD_CHECK and DEPENDENCE_READ (R146, R149) -/

/-- Check 2 of R146: with every furrow of the partition empty, one crew, or under COSIDENT the whole launch, can be placed. -/
def State.fitsEmpty (s : State) (l : Launch) : Bool := ((s.dropFn l.fn).placeStep l).isSome

/-- The stop code that the checks of R146 give a record, if one fails; a record that memory refuses is a bad one. -/
def State.recordCode (s : State) (n : Nat) (q : Fin 16) (w : Option (Vector Word 8)) : Option Nat :=
  match w with
  | none => some 1
  | some w =>
    let l := newLaunch s.sched.nextId n q 0 w
    if !recordOk w then some 1
    else if !s.fitsEmpty l then some 2
    else if w[4] = 0 && (s.fn n).budget = 0 then some 3
    else none

/-- RECORD_CHECK: the record at the head of queue `q` is read once and checked. Log entry 21: DEDUCED. -/
def execRecordCheck (fn : Nat) (q : Fin 16) (s : State) : Out :=
  let f := s.fn fn
  let x := f.queues[q]
  if (s.fn? fn).isNone || !x.hasRecord || x.headRec.isSome || x.cur.isSome then .refused (.cannotOccur "RECORD_CHECK")
  else
    let s := if x.replay.isEmpty then s.settleAt f.ctx (x.slotAddr x.head) 64 else s
    let w := s.headWords f x
    match s.recordCode fn q w, w with
    | some code, _ => .next (s.stopQueue fn q code x.headCount)
    | none, some w => .next (s.modQueue fn q (fun x => { x with headRec := some w, ready := w[5] == 0 }))
    | none, none => .next s

/-- The word at DEPADDR, unless the read meets a fault (R21, R149). -/
def State.depRead (s : State) (f : Fn) (a : Word) : Option Word :=
  if (classOf a).isVirt then (s.agentRead f.ctx a 8).map (fun bs => BitVec.ofNat 64 (leNat bs)) else none

/-- DEPENDENCE_READ: the word at DEPADDR is read once; the record is ready when it has reached DEPVAL. -/
def execDependenceRead (fn : Nat) (q : Fin 16) (s : State) : Out :=
  let f := s.fn fn
  let x := f.queues[q]
  match x.headRec with
  | none => .refused (.cannotOccur "DEPENDENCE_READ")
  | some w =>
    if x.ready || !x.takes then .refused (.cannotOccur "DEPENDENCE_READ")
    else match s.depRead f w[5] with
    | none => .next ((s.modQueue fn q (fun x => { x with headRec := none })).stopQueue fn q 4 x.headCount)
    | some v =>
      let t := s.settleAt f.ctx w[5] 8
      if v.ult w[6] then .next t else .next (t.modQueue fn q (fun x => { x with ready := true }))

/-! ## CREW_PLACEMENT (R150 to R153) -/

/-- The launches of a queue that a crew may be started of: those that have begun, and the one that its ready head record would begin
(R148, R149, R373). -/
def State.headLaunches (s : State) (f : Fn) (q : Fin 16) : List Launch :=
  let x := f.queues[q]
  let mayStart := x.ready && x.takes && x.cur.isNone && !f.quiesced &&
    (x.copies.length < 256 || x.copies.any (fun k => k.1 == x.headCount))
  s.sched.launches.filter (fun l => l.fn == f.num && l.queue == q && l.placed < l.crewCount) ++
    match x.headRec with
    | some w => if mayStart then [newLaunch s.sched.nextId f.num q x.headCount w] else []
    | none => []

/-- The queue after a number of steps from `q`, counted modulo 16. -/
def queueAfter (q k : Nat) : Fin 16 := Fin.ofNat 16 (q + k)

/-- The ready records at the heads of a function's queues in round-robin order, highest PRIO first (R150).
Log entry 21: DEDUCED. -/
def State.candidates (s : State) (n : Nat) : List Launch :=
  let f := s.fn n
  let all := (List.range 16).flatMap (fun k => s.headLaunches f (queueAfter f.rrNext k))
  (List.range 8).flatMap (fun p => all.filter (fun l => l.prio == 7 - p))

/-- A placement step of a launch with what follows it: the round robin, the function's count of decisions, and the started record.
Log entry 21: DEDUCED. -/
def State.serve (s : State) (l : Launch) : Option State :=
  match s.placeStep l with
  | none => none
  | some t =>
    let t := t.modFn l.fn (fun f => { f with rrNext := (l.queue.val + 1) % 16, served := f.served + 1 })
    let t := if l.placed = 0 then t.modQueue l.fn l.queue (fun q => { q with cur := some l.id }) else t
    some (if l.placed + l.stepCrews = l.crewCount then t.recordStarted l else t)

/-- CREW_PLACEMENT: the first candidate that fits starts its next crew, or all of them under COSIDENT; no function runs before the
firmware has mapped the furrows (R11, R375). -/
def execCrewPlacement (fn : Nat) (s : State) : Out :=
  match (if s.fwRuns then (s.candidates fn).findSome? s.serve else none) with
  | some t => .next t
  | none => .refused (.cannotOccur "CREW_PLACEMENT")

/-! ## Pre-emption (R157, R331) -/

/-- The crew's resources as if it were pre-empted for a record (R331 step 6). -/
def State.markPre (s : State) (l : Launch) (c : CrewRec) : State :=
  (s.modHarts (fun h => h.inGroup false c.launch c.crew) (fun h => h.modCtl (fun t => { t with
    phase := match t.phase with
      | .debug k => .preempted (some k)
      | .preempted k => .preempted k
      | _ => .preempted none }))).modCrew c.launch c.crew (fun x => { x with pre := true, yielded := some l.step })

/-- The record would fit with these crews released. -/
def State.fitsWithout (s : State) (l : Launch) (cs : List CrewRec) : Bool :=
  ((cs.foldl (fun s c => s.markPre l c) s).placeStep l).isSome

/-- Every hart of the crew has progressed since its resumption, or waits, or is stopped (R330). -/
def State.crewRested (s : State) (c : CrewRec) : Bool :=
  (s.crewHarts c.launch c.crew).all (fun h => !c.owed.contains h.place.loc || match h.ctl.phase with
    | .running => false
    | _ => true)

/-- The shortest beginning of a list that makes a record fit. -/
def State.firstFit (s : State) (l : Launch) (cs : List CrewRec) : Option (List CrewRec) :=
  ((List.range cs.length).find? (fun k => s.fitsWithout l (cs.take (k + 1)))).map (fun k => cs.take (k + 1))

/-- The list without the crews whose release is not needed. -/
def State.pruneVictims (s : State) (l : Launch) (must : CrewRec → Bool) (cs : List CrewRec) : List CrewRec :=
  cs.foldl (fun keep c =>
    let rest := keep.filter (· != c)
    if !must c && s.fitsWithout l rest then rest else keep) cs

/-- The PRIO of a crew's launch. -/
def State.crewPrio (s : State) (c : CrewRec) : Nat :=
  match s.launch? c.launch with
  | some l => l.prio
  | none => 0

/-- The victims for a ready record that does not fit: lowest PRIO first, then the most recently started (R157); `y` is the crew
that yields, which is taken first. Log entry 22: DEDUCED. -/
def State.victims (s : State) (l : Launch) (y : Option CrewRec) : Option (List CrewRec) :=
  if (s.placeStep l).isSome then none
  else
    let mine := s.sched.crews.filter (fun c => !c.pre && s.crewRested c && some c != y &&
      match s.launch? c.launch with
      | some k => k.fn == l.fn && k.prio < l.prio
      | none => false)
    let ranked := (List.range 8).flatMap (fun p =>
      sortedBy (fun a b => b.order ≤ a.order) (mine.filter (fun c => s.crewPrio c == p)))
    let cs := y.toList ++ ranked
    (s.firstFit l cs).map (s.pruneVictims l (fun c => some c == y))

/-- The hart's sequencer entries stop and are recorded, before the records that still wait to be issued again, and the hart's next
instruction is where it goes on (R331 steps 2 and 3). -/
def Hart.recordFlights (h : Hart) : Hart :=
  let late := h.ctl.aside.toList.map Prod.fst ++ h.ctl.reissue
  let h := match h.ctl.aside with
    | none => h
    | some (_, c) => (h.modCsr (fun x => { x with rpc := c.rpc })).modCtl (fun t => { t with
        pc := c.pc, rep := c.rep, resume := none, aside := none })
  h.modCtl (fun t => { t with window := [], reissue := t.window.flatMap SeqEntry.flights ++ late })

/-- CSR rpc of a stopped hart: the oldest iteration of its repeat that has not completed (R188).
Log entry 29: DEDUCED. -/
def Hart.oldestRpc (h : Hart) : Word := oldestIter none h.ctl.reissue h.csr.rpc

/-- Where a stopped hart continues: the X-word of a repeat of which it has an iteration to issue again (R188), else its pc. -/
def Hart.contPc (h : Hart) : Word :=
  match h.ctl.reissue.find? (fun f => f.iter.isSome) with
  | some f => f.pc
  | none => h.ctl.pc

/-- Everything of a hart that pre-emption and a debug stop stop: its store is performed, its sequencer entries are recorded, its
copies are drained, its pin is released, and a GCSLEEP, a push and a scatter that have not ended start again later (R331 steps 1 to 5, R334).
Log entry 9: DEDUCED. -/
def State.stopHart (s : State) (h : Hart) : State :=
  let l := h.place.loc
  let s := s.bringTurn l
  let s := (List.range s.hart.ctl.stores.length).foldl (fun s _ => s.storeArrives) s
  let s := s.drainCopies l
  match s.harts.find? (fun g => g.resident && g.dest == h.dest) with
  | none => s
  | some g => (s.unpin g).modHarts (fun x => x.resident && x.dest == h.dest) (fun x =>
      x.recordFlights.modCtl (fun c => { c with pin := none, sleep := none, pushTo := none, scat := none }))

/-- A crew is pre-empted (R331): every hart stops, and its number, units and tiles are released.
Log entry 22: DEDUCED. -/
def State.preempt (s : State) (launch crew : Nat) (why : Option (Fin 16 × BitVec 32 × Nat)) : State :=
  let s := (s.crewHarts launch crew).foldl State.stopHart s
  (s.modHarts (fun h => h.inGroup false launch crew) (fun h => h.modCtl (fun t => { t with
    phase := match t.phase with
      | .debug k => .preempted (some k)
      | .preempted k => .preempted k
      | _ => .preempted none }))).modCrew launch crew (fun x => { x with pre := true, yielded := why })

/-- The record for which the scheduler pre-empts a crew, with the crews it pre-empts. -/
def State.preemptFor (s : State) (n : Nat) : Option (Launch × List CrewRec) :=
  (s.candidates n).findSome? (fun l => (s.victims l none).map (fun cs => (l, cs)))

/-- PREEMPTION: a crew that a ready record of higher PRIO needs released is stopped, drained and saved. -/
def execPreemption (launch crew : Nat) (s : State) : Out :=
  match s.launch? launch with
  | none => .refused (.cannotOccur "PREEMPTION")
  | some k =>
    match s.preemptFor k.fn with
    | none => .refused (.cannotOccur "PREEMPTION")
    | some (_, cs) =>
      if cs.any (fun c => c.launch == launch && c.crew == crew) then .next (s.preempt launch crew none)
      else .refused (.cannotOccur "PREEMPTION")

/-- YIELD (R157, R217): the crew is pre-empted, first among the victims, for a ready record of at least its PRIO that does not fit
and would fit so. Log entry 22: DEDUCED. -/
def State.offerCrew (s : State) : State :=
  let p := s.hart.place
  match s.crew? p.launch p.crew.toNat with
  | none => s
  | some c =>
    if !s.crewRested c then s
    else match (s.candidates p.fn).findSome? (fun l =>
        if s.crewPrio c ≤ l.prio then (s.victims l (some c)).map (fun cs => (l, cs)) else none) with
    | none => s
    | some (l, cs) => cs.foldl (fun s c => s.preempt c.launch c.crew (some l.step)) s

def execYield (h : Hdr) (s : State) : Out := if guardOn h s then .next s.retire.offerCrew else .next s.retire

/-! ## Resumption (R157, R158, R335) -/

/-- The least grant under which the hart's vl fits (R152, R158). -/
def Hart.needUnits (h : Hart) : Nat :=
  let t := h.csr.vtype
  (h.csr.vl * t.fmt.width + 8192 * t.size - 1) / (8192 * t.size)

/-- The grant of a resumption, if the crew's own hart numbers, its tiles and enough units are free (R48, R158).
Log entry 22: DEDUCED. -/
def State.resumeGrant (s : State) (l : Launch) (hs : List Hart) : Option Nat :=
  let cores := (hs.map (fun h => coreOf h.place.loc)).eraseDups
  let count := fun (core : Nat) => hs.countP (fun h => coreOf h.place.loc == core)
  let numbers := hs.all (fun h => (s.freeNums (coreOf h.place.loc)).contains (h.place.loc.toNat % 4))
  let tiles := cores.all (fun c => count c * l.tileCount ≤ s.freeTiles c)
  let g := (hs.map (fun h => h.place.grant)).headD l.grantMin
  let least := hs.foldl (fun m h => max m h.needUnits) l.grantMin
  let most := cores.foldl (fun m c => min m (s.freeUnits c / max (count c) 1)) l.grantMax
  let g' := if cores.all (fun c => count c * g ≤ s.freeUnits c) then g else most
  if numbers && tiles && least ≤ g' then some g' else none

/-- Elements 0 to vl - 1 of a group under the old grant, at their positions under the new one; the other bits are `free`
(R158). -/
def regroup (old new vl w size : Nat) (src : Nat → VReg) (free : Nat → VReg) (r : Nat) : VReg :=
  let po := perReg old w
  let pn := perReg new w
  let g0 := r / size * size
  (List.range pn).foldl (fun v j =>
    let i := (r - g0) * pn + j
    if i < vl then setField v (j * w) w (natField (src (g0 + i / max po 1)).toNat (i % max po 1 * w) w) else v) (free r)

/-- The scale registers after a resumption with another grant (R77): bytes they gain hold 0x7F. -/
def rescale (old new : Nat) (v : ScReg) : ScReg :=
  let n := min old new * 512
  BitVec.ofNat 49152 (v.toNat % 2 ^ (8 * n) + scReset.toNat / 2 ^ (8 * n) * 2 ^ (8 * n))

/-- The registers after a resumption with grant `g`; `k` numbers the free values. Log entry 5: DESIGN CHOICE. -/
def Hart.regrant (h : Hart) (g k : Nat) : Hart :=
  let old := h.place.grant
  if g = old then h
  else
    let w := h.csr.vtype.fmt.width
    let v := Vector.ofFn (fun r : Fin 64 => regroup old g h.csr.vl w h.csr.vtype.size (fun i => h.regs.v[vnum i])
      (fun i => Config.freeVReg (k + i)) r.val)
    let m := Vector.ofFn (fun r : Fin 8 =>
      setField (Config.freeKReg (k + r.val)) 0 h.csr.vl (natField h.regs.k[r].toNat 0 h.csr.vl))
    { h with place := { h.place with grant := g }
             regs := { h.regs with v := v, k := m, sc := h.regs.sc.map (rescale old g) } }

/-- A hart comes back (R334, R335): its wait starts again, a debug stop persists, START is set.
Log entry 22: DEDUCED. -/
def Hart.comeBack (h : Hart) (g k : Nat) : Hart :=
  (h.regrant g k).modCtl (fun c => { c with
    pend := c.pend ||| 0b10000
    phase := match c.phase with
      | .preempted (some d) => .debug d
      | _ => .running })

/-- The free values that a hart's resumption uses. -/
def freePerHart : Nat := 64

/-- A hart that goes on takes a new progress pin if the element at its ustart has not performed (R42).
Log entry 29: DEDUCED. -/
def State.retakePin (s : State) (d : Dest) : State :=
  match s.hartAt d with
  | some h => match h.ctl.pinAt with
    | some a => s.takePin h a
    | none => s
  | none => s

/-- The hart is stopped in debug. -/
def Hart.debugged (h : Hart) : Bool :=
  match h.ctl.phase with
  | .debug _ => true
  | .preempted (some _) => true
  | _ => false

/-- The crew is resumed with a grant; a hart whose element at ustart has not performed takes a new pin (R42), unless it stays stopped in
debug. -/
def State.resume (s : State) (c : CrewRec) (g : Nat) : State :=
  let hs := s.crewHarts c.launch c.crew
  let s := (indexed hs).foldl (fun s (i, h) =>
    s.modAt h.dest (fun h => h.comeBack g (s.fresh + freePerHart * i))) s
  let s := { s with fresh := s.fresh + freePerHart * hs.length }
  let s := (hs.filter (fun h => !h.debugged)).foldl (fun s h => s.retakePin h.dest) s
  s.modCrew c.launch c.crew (fun x => { x with pre := false, yielded := none, owed := hs.map (fun h => h.place.loc) })

/-- A ready record that goes before the crew: one of higher PRIO, or the one it yielded to, that fits now (R157). -/
def State.yieldsTo (s : State) (c : CrewRec) (l : Launch) : Bool :=
  (s.crewPrio c < l.prio || c.yielded == some l.step) && (s.placeStep l).isSome

/-- The grant with which a pre-empted crew can be resumed now. Log entry 22: DEDUCED. -/
def State.resumable (s : State) (c : CrewRec) : Option Nat :=
  match s.launch? c.launch with
  | none => none
  | some l => if !c.pre || (s.candidates l.fn).any (s.yieldsTo c) then none else s.resumeGrant l (s.crewHarts c.launch c.crew)

/-- RESUMPTION: a pre-empted crew comes back on its own cores and hart numbers. -/
def execResumption (launch crew : Nat) (s : State) : Out :=
  match s.crew? launch crew with
  | none => .refused (.cannotOccur "RESUMPTION")
  | some c =>
    match s.resumable c with
    | some g => .next (s.resume c g)
    | none => .refused (.cannotOccur "RESUMPTION")

/-! ## Budgets (R163) -/

/-- The budget of a crew: BUDGET, or the function's present default, which replaces 0. Log entry 21: DEDUCED. -/
def State.budgetOf (s : State) (l : Launch) : Nat :=
  if l.budgetWord = 0 then (s.fn l.fn).budget.toNat else l.budgetWord.toNat

/-- The crew's lowest-ranked hart that has not retired. -/
def State.lowestRank (s : State) (launch crew : Nat) : Option Hart :=
  match s.crewHarts launch crew with
  | [] => none
  | h :: r => some (r.foldl (fun m x => if x.place.rank.ult m.place.rank then x else m) h)

/-- The crew's counter has exceeded its budget. -/
def State.overBudget (s : State) (c : CrewRec) : Bool :=
  match s.launch? c.launch with
  | some l => s.budgetOf l < c.budget
  | none => false

/-- BUDGET_EXPIRY: HANG is raised in the crew's lowest-ranked hart (R163, R194). -/
def execBudgetExpiry (launch crew : Nat) (s : State) : Out :=
  match s.crew? launch crew, s.lowestRank launch crew with
  | some c, some h =>
    if s.overBudget c then
      .next (s.resetPartition h.place.fn .hang (BitVec.ofNat 64 crew) h.place.loc h.ctl.pc)
    else .refused (.cannotOccur "BUDGET_EXPIRY")
  | _, _ => .refused (.cannotOccur "BUDGET_EXPIRY")

/-- A hart of the launch is stopped in debug (R162). -/
def State.launchStopped (s : State) (launch : Nat) : Bool :=
  s.harts.any (fun h => h.place.launch == launch && h.debugged)

/-- One core cycle passes: the budget counters of resident crews advance (R163).
Log entry 2: DESIGN CHOICE; log entry 36: DESIGN CHOICE. -/
def State.tick (s : State) : State :=
  { s with
    sched := { s.sched with crews := s.sched.crews.map (fun c =>
      if !c.pre && !s.launchStopped c.launch && (s.crewHarts c.launch c.crew).any Hart.resident then
        { c with budget := c.budget + 1 }
      else c) } }

/-- The hart at a place has completed an instruction or a unit since its crew's resumption (R330). -/
def State.noteProgress (s : State) (d : Dest) : State :=
  s.modSched (fun x => { x with crews := x.crews.map (fun c =>
    if c.launch == d.launch && c.crew == d.crew.toNat && c.owed.contains d.loc then { c with owed := c.owed.filter (· != d.loc) } else c) })

end Sys2Proof.Machine
end

