-- ==== Sys2Proof/Machine/Fw.lean ====
section
/-! DEFINITION. The firmware's memory services (R30, R32 to R37, R42, R69, R70, R101, R117), made by SVC or through a mailbox, and the
services VERSION, PARTITION and FRAMES (R212). -/

namespace Sys2Proof.Machine

/-! ## Memory as the firmware reads and writes it -/

/-- The page of `a` lets a device agent read, or write, eight bytes (R102, R105, R106). -/
def State.fwPageOk (s : State) (ctx : BitVec 16) (write : Bool) (a : Word) : Bool :=
  match s.translate ctx a (if write then Need.store else Need.load) (fun _ => false) with
  | .error _ => false
  | .ok p => (s.viewFault p write).isNone && !(write && entFMT p.e == 11)

/-- Eight bytes at `a`: in the hart's window, where the address may be local, or in the context's memory.
Log entry 26: DEDUCED. -/
def State.fwWordOk (s : State) (ctx : BitVec 16) (loc : Bool) (write : Bool) (a : Word) : Bool :=
  match classOf a with
  | .loc => loc && offsetOf a + 8 ≤ s.myWindow && !(write && s.liveRecord s.core s.hart.place.launch (offsetOf a) 8)
  | .virt => s.fwPageOk ctx write a
  | .sys => s.fwPageOk ctx write a
  | .frw _ => false
  | .none => false

/-- The addresses of the eight-byte words of an area. -/
def wordsAt (a : Word) (n : Nat) : List Word := (List.range (n / 8)).map (fun i => a + BitVec.ofNat 64 (8 * i))

/-- An area of `n` bytes that is aligned to 8 and that the firmware can write (and read, if `r`).
Log entry 26: DEDUCED. -/
def State.areaOk (s : State) (ctx : BitVec 16) (loc r : Bool) (a : Word) (n : Nat) : Bool :=
  a.toNat % 8 == 0 && (wordsAt a n).all (fun x => (!r || s.fwWordOk ctx loc false x) && s.fwWordOk ctx loc true x)

/-- Eight bytes read by the firmware. -/
def State.fwReadWord (s : State) (ctx : BitVec 16) (a : Word) : Word :=
  if classOf a = .loc then BitVec.ofNat 64 (leNat (s.myRead (offsetOf a) 8))
  else match s.agentRead ctx a 8 with
  | some bs => BitVec.ofNat 64 (leNat bs)
  | none => 0

/-- An area about to be read by the firmware: pending contributions of its lines are applied first (R64). -/
def State.fwSettle (s : State) (ctx : BitVec 16) (a : Word) (n : Nat) : State :=
  (wordsAt a n).foldl (fun s x => if classOf x = .loc then s else s.settleAt ctx x 8) s

/-- Eight bytes written by the firmware. -/
def State.fwWriteBytes (s : State) (ctx : BitVec 16) (a : Word) (bs : List Byte) : State :=
  if classOf a = .loc then s.myWrite (offsetOf a) bs else (s.agentWrite ctx a bs).getD s

/-- The words of an area written by the firmware. Log entry 26: DEDUCED. -/
def State.fwWriteWords (s : State) (ctx : BitVec 16) (a : Word) (ws : List Word) : State :=
  (indexed ws).foldl (fun s (i, w) => s.fwWriteBytes ctx (a + BitVec.ofNat 64 (8 * i)) (leBytes 8 w.toNat)) s

/-- A span cut at the ends of frames. -/
def framePieces : Nat → Word → Nat → List (Word × Nat)
  | 0, _, _ => []
  | k + 1, va, n =>
    if n = 0 then []
    else
      let m := min n (2 ^ 16 - va.toNat % 2 ^ 16)
      (va, m) :: framePieces k (va + BitVec.ofNat 64 m) (n - m)

/-- Bytes of main memory that the firmware can read, or write; at most one end of a frame lies between them. -/
def State.fwSpanOk (s : State) (ctx : BitVec 16) (write : Bool) (a : Word) (n : Nat) : Bool :=
  (framePieces 2 a n).all (fun x => (classOf x.1).isVirt && s.fwPageOk ctx write x.1)

/-- Bytes that the firmware reads; pending contributions of their lines are applied first (R64). -/
def State.fwReadBytes (s : State) (ctx : BitVec 16) (a : Word) (n : Nat) : State × List Byte :=
  (framePieces 2 a n).foldl (fun (acc : State × List Byte) x =>
    let t := acc.1.settleAt ctx x.1 x.2
    (t, acc.2 ++ (t.agentRead ctx x.1 x.2).getD [])) (s, [])

/-- Bytes that the firmware writes to main memory. -/
def State.fwWriteSpan (s : State) (ctx : BitVec 16) (a : Word) (bs : List Byte) : State :=
  (framePieces 2 a bs.length).foldl (fun s x => (s.agentWrite ctx x.1 ((bs.drop (x.1 - a).toNat).take x.2)).getD s) s

/-! ## Requests (R32) -/

/-- The fields of a request block. -/
structure Req where
  op    : Nat
  va    : Word
  count : Nat
  attr  : Word
  frame : Nat
  peer  : Nat
  rsv   : Word
deriving DecidableEq, Repr

def reqOf (w : Vector Word 8) : Req := ⟨wfield w[0] 0 32, w[1], w[2].toNat, w[3], w[4].toNat, w[5].toNat, w[7]⟩

/-- Bytes of a page of the request. -/
def Req.size (r : Req) : Nat := if entSZ r.attr then 2 ^ 21 else 2 ^ 16
/-- Frames of a page of the request. -/
def Req.frames (r : Req) : Nat := if entSZ r.attr then 32 else 1
/-- The address of page `i`. -/
def Req.pageVa (r : Req) (i : Nat) : Word := r.va + BitVec.ofNat 64 (i * r.size)
/-- The frame of page `i`, in the entry's encoding. -/
def Req.pageFrame (r : Req) (i : Nat) : Nat := r.frame + i * r.frames

/-- The constraints of R30 on an entry. -/
def entOk (e : Word) : Bool :=
  (!entX e || entFMT e == 0) && (!entGL e || entFMT e == 11) &&
    (if entRC e then entROWSZ e ≤ 5 && entFMT e ≤ 3 else entROWSZ e == 0) &&
    (entQT e == 0 || entFMT e == 10) && entFMT e < 12

/-- The pages of a request lie in the virtual space and on one side of the system window's boundary. -/
def Req.inSpace (r : Req) : Bool :=
  let stop := r.va.toNat + r.count * r.size
  let sysBase := 0x00F0000000000000
  stop ≤ 2 ^ 56 && (stop ≤ sysBase || sysBase ≤ r.va.toNat)

/-- The status of the checks of the request as a whole (R34), in their order; 0 where all pass.
Log entry 25: DEDUCED. -/
def Req.check (r : Req) : Nat :=
  let usesPeer := r.op == 0x13 || r.op == 0x14
  let usesFrame := r.op == 0x10 || r.op == 0x14
  if r.rsv != 0 || (!usesPeer && r.peer != 0) || (!usesFrame && r.frame != 0) then 8
  else if r.va.toNat % r.size != 0 || r.frame % r.frames != 0 || r.count = 0 || 65535 < r.count || !r.inSpace then 1
  else if wfield r.attr 0 44 != 0 then 2
  else if r.op == 0x10 && (!entV r.attr || entSH r.attr || !entOk r.attr) then 2
  else if r.op == 0x15 && r.attr &&& ~~~(BitVec.twoPow 64 58) != 0 then 2
  else 0

/-! ## Entries and frames -/

/-- An entry written over the page at `va`; a zero entry removes it. -/
def State.putEntry (s : State) (ctx : BitVec 16) (va e : Word) : State :=
  let page := va.toNat / 2 ^ 16
  s.modMs (fun ms => { ms with entries :=
    (if e = 0 then [] else [⟨ctx, page, e⟩]) ++ ms.entries.filter (fun t => !(t.ctx == ctx && t.page == page)) })

/-- The region of 2 MiB around `va` holds a page of the other size, or the page is mapped (R33, R34 MAPPED). -/
def State.pageTaken (s : State) (ctx : BitVec 16) (va : Word) (sz : Bool) : Bool :=
  entV (s.entryAt ctx va) || s.ms.entries.any (fun t => t.ctx == ctx && entV t.e && entSZ t.e != sz &&
    t.page / 32 == va.toNat / 2 ^ 21)

/-- The storage frames of the page that an entry maps at `va`. -/
def framesOf (ctx : BitVec 16) (va e : Word) : List Nat :=
  (List.range (entFrames e)).map (fun i => frameOf ctx va e i)

/-- The frame lies behind a pseudo-channel that was fenced off (R25, R379). -/
def State.frameGone (s : State) (frame : Nat) : Bool :=
  s.dev.fencedPcs.any (fun (st, c) => st == frame / 2 ^ 20 && frame % 2 ^ 20 % 12 == c / 32)

/-- The chunks of a page are drawn from the pool, every element reads zero, and the record starts anew (R69, R70, R101). -/
def State.initFrame (s : State) (fmt frame : Nat) : State :=
  if !isStackFrame frame then s
  else
    let s := s.abortConv frame
    let old := (s.pmeta frame).chunks
    let s := (s.poolAdd frame old).poolSub frame (chunksOf fmt)
    let s := s.modMs (fun ms => { ms with
      mem := Sparse.clear (keyOf frame 0) (2 ^ 17) ms.mem
      wq := ms.wq.filter (fun e => e.frame != frame) })
    s.modMeta frame (fun m => { m with
      wgen := m.wgen + 1, fmtnow := if fmt = 11 then 4 else 0, state := 0, age := 0, glabort := false,
      chunks := chunksOf fmt })

/-- What UNMAP does to a frame: WGEN advances, the record is cleared, and where no entry maps the frame any more its chunks go back
(R69, R70, R101). Log entry 25: DEDUCED. -/
def State.dropFrame (s : State) (frame : Nat) : State :=
  if !isStackFrame frame then s
  else
    let s := s.modMeta frame (fun m => { m with wgen := m.wgen + 1, fmtnow := 0, state := 0, age := 0, glabort := false })
    if (s.mappers frame).isEmpty then
      (if s.frameGone frame then s else s.poolAdd frame (s.pmeta frame).chunks).modMeta frame (fun m => { m with chunks := 0 })
    else s

/-- A progress pin stands on a frame of the page (R42). -/
def State.pinned (s : State) (fs : List Nat) : Bool := fs.any (fun f => (s.pmeta f).pin)

/-- Entries of other functions that accepted the frames of a page whose owner is `owner` (R35). -/
def State.acceptors (s : State) (owner : Nat) (frame : Nat) : List TEntry :=
  (s.mappers frame).filter (fun t => entOWN t.e == owner && t.ctx != (s.fn owner).ctx)

/-- An entry whose P, R, W, X and GL are those of `attr` (R33). -/
def protectEntry (e attr : Word) : Word :=
  let m : Word := BitVec.ofNat 64 (2 ^ 62 + 2 ^ 61 + 2 ^ 60 + 2 ^ 59 + 2 ^ 56)
  (e &&& ~~~m) ||| (attr &&& m)

/-! ## One page of each service (R33 to R35, R117): its status, or the state with the page done -/

/-- The stack-homed frames `lo .. lo + n - 1` of stack `st` lie in the function's range (R371). -/
def Fn.ownsFrames (f : Fn) (st lo n : Nat) : Bool :=
  let i : Fin 12 := Fin.ofNat 12 st
  f.fbase[i] ≤ lo && lo + n ≤ f.fbase[i] + f.fcount[i]

/-- Log entry 25: DEDUCED. -/
def State.mapPage (s : State) (f : Fn) (r : Req) (i : Nat) : Nat ⊕ State :=
  let va := r.pageVa i
  let fr := r.pageFrame i
  let sys := classOf va = .sys
  let st := homeStack f.ctx va
  let e : Word := (r.attr &&& ~~~(BitVec.ofNat 64 (2 ^ 44 - 1))) ||| BitVec.ofNat 64 (f.num * 2 ^ 37 + fr)
  let fs := framesOf f.ctx va e
  let chunks := r.frames * chunksOf (entFMT r.attr)
  if sys && (2 ^ 36 < fr + r.frames || fr / 2 ^ 28 != (fr + r.frames - 1) / 2 ^ 28 || !f.peermap.getLsbD (fr / 2 ^ 28)) then
    .inl 4
  else if !sys && 2 ^ 20 < fr + r.frames then .inl 4
  else if !sys && !f.ownsFrames st fr r.frames then .inl 3
  else if s.pageTaken f.ctx va (entSZ r.attr) then .inl 5
  else if !sys && (s.ms.pool[Fin.ofNat 12 st] < chunks || fs.any s.frameGone) then .inl 10
  else
    let s := (fs.foldl (fun s x => s.initFrame (entFMT r.attr) x) s).putEntry f.ctx va e
    .inr (if entP e then s.endPageReq f.num va none else s)

/-- SH is cleared in the owner's entry when the last acceptor of the frame has gone (R35). -/
def State.clearShare (s : State) (owner frame : Nat) : State :=
  if (s.acceptors owner frame).isEmpty then
    s.modMs (fun ms => { ms with entries := ms.entries.map (fun t =>
      if t.covers frame && t.ctx == (s.fn owner).ctx then { t with e := t.e &&& ~~~(BitVec.twoPow 64 54) } else t) })
  else s

/-- Log entry 25: DEDUCED. -/
def State.unmapPage (s : State) (f : Fn) (r : Req) (i : Nat) : Nat ⊕ State :=
  let va := r.pageVa i
  let e := s.entryAt f.ctx va
  let fs := framesOf f.ctx va e
  if !entV e then .inl 6
  else if entSZ e != entSZ r.attr then .inl 2
  else if entOWN e == f.num && fs.any (fun x => !(s.acceptors f.num x).isEmpty) then .inl 9
  else
    let s := fs.foldl (fun s x => (s.settleFrame x).abortConv x) s
    let s := s.putEntry f.ctx va 0
    let s := fs.foldl State.dropFrame s
    let s := s.modFn f.num (fun g => { g with offers := g.offers.filter (fun o => !fs.contains o.frame) })
    let s := if entOWN e != f.num then fs.foldl (fun s x => s.clearShare (entOWN e) x) s else s
    .inr (s.endPageReq f.num va (some Cause.protect.code))

/-- Log entry 25: DEDUCED. -/
def State.protectPage (s : State) (f : Fn) (r : Req) (i : Nat) : Nat ⊕ State :=
  let va := r.pageVa i
  let e := s.entryAt f.ctx va
  let fs := framesOf f.ctx va e
  let e' := protectEntry e r.attr
  if !entV e then .inl 6
  else if entSZ e != entSZ r.attr then .inl 2
  else if entOWN e != f.num then .inl 3
  else if !entOk e' then .inl 2
  else if !entP e' && fs.any (fun x => !(s.acceptors f.num x).isEmpty) then .inl 9
  else
    let s := if (entP e && !entP e') || (entW e && !entW e') then fs.foldl State.settleFrame s else s
    let s := if (entP e && !entP e') || (entGL e && !entGL e') then fs.foldl State.abortConv s else s
    let s := if entP e != entP e' then
        fs.foldl (fun s x => if isStackFrame x then s.modMeta x (fun m => { m with wgen := m.wgen + 1 }) else s) s
      else s
    let s := s.putEntry f.ctx va e'
    .inr (if entP e' then s.endPageReq f.num va none else s)

/-- An offer that names a PEER above 64, a function that does not exist or the requester itself is recorded like any other.
Log entry 25: DEDUCED. -/
def State.offerPage (s : State) (f : Fn) (r : Req) (i : Nat) : Nat ⊕ State :=
  let va := r.pageVa i
  let e := s.entryAt f.ctx va
  if !entV e then .inl 6
  else if entSZ e != entSZ r.attr then .inl 2
  else if entOWN e != f.num then .inl 3
  else
    let o : Offer := ⟨frameOf f.ctx va e 0, entSZ e, r.attr.extractLsb' 59 3, r.peer⟩
    .inr (s.modFn f.num (fun g => { g with offers := g.offers ++ [o] }))

/-- The FRAME encoding under which an offered storage frame is named (R29). -/
def Offer.named (o : Offer) (sys : Bool) (fr : Nat) : Bool :=
  if sys then !isStackFrame o.frame && o.frame % 2 ^ 28 == fr % 2 ^ 28 &&
    (let t := (o.frame - 2 ^ 24) / 2 ^ 28; if 256 ≤ t then fr / 2 ^ 28 == 0 else fr / 2 ^ 28 == t)
  else isStackFrame o.frame && o.frame % 2 ^ 20 == fr

/-- Log entry 25: DEDUCED. -/
def State.acceptPage (s : State) (f : Fn) (r : Req) (i : Nat) : Nat ⊕ State :=
  let va := r.pageVa i
  let fr := r.pageFrame i
  let owner := s.fn r.peer
  let sys := classOf va = .sys
  let want := r.attr.extractLsb' 59 3
  let fits := fun (o : Offer) => o.named sys fr && o.sz == entSZ r.attr && o.peer == f.num && want &&& ~~~o.rwx == 0
  let homed := fun (o : Offer) =>
    if sys then f.peermap.getLsbD (fr / 2 ^ 28) else o.frame / 2 ^ 20 == homeStack f.ctx va
  match owner.offers.find? fits with
  | none => .inl 7
  | some _ =>
    match owner.offers.find? (fun o => fits o && homed o) with
    | none => .inl 4
    | some o =>
      match (s.mappers o.frame).find? (fun t => t.ctx == owner.ctx && t.frame0 == o.frame && entSZ t.e == o.sz) with
      | none => .inl 7
      | some t =>
        let keep : Word := BitVec.ofNat 64 (2 ^ 63 + 2 ^ 62 + 2 ^ 58 + 2 ^ 57 + 2 ^ 56 + 2 ^ 55 + (2 ^ 54 - 1))
        let e : Word := (t.e &&& keep) ||| (r.attr &&& BitVec.ofNat 64 (7 * 2 ^ 59)) ||| BitVec.twoPow 64 54
        if s.pageTaken f.ctx va o.sz then .inl 5
        else if !entOk e then .inl 2
        else
          let s := s.putEntry owner.ctx t.va (t.e ||| BitVec.twoPow 64 54)
          let s := s.putEntry f.ctx va e
          .inr (s.modFn owner.num (fun g => { g with offers := g.offers.erase o }))

/-- A frozen frame in f8e4 form again (R117). -/
def State.thawFrame (s : State) (frame : Nat) : Option State :=
  let m := s.pmeta frame
  if m.state != 2 then some s
  else if s.ms.pool[frameStack frame] < 16 then none
  else
    let s := (s.toE4 frame).modMeta frame (fun m => { m with
      wgen := m.wgen + 1, fmtnow := 4, state := 0, age := 0, chunks := 16 })
    some ((s.poolSub frame 16).poolAdd frame m.chunks)

/-- Frames in ascending order until one lacks chunks. -/
def thawAll : List Nat → State → Bool × State
  | [], s => (true, s)
  | x :: r, s =>
    match s.thawFrame x with
    | none => (false, s)
    | some t => thawAll r t

/-! ## A request page by page (R34) -/

/-- The pages of a request in ascending order until one fails: status, pages done, state. -/
def pagesFrom (one : State → Nat → Nat ⊕ State) : Nat → Nat → State → Nat × Nat × State
  | 0, i, s => (0, i, s)
  | n + 1, i, s =>
    match one s i with
    | .inl c => (c, i, s)
    | .inr t => pagesFrom one n (i + 1) t

/-- THAW of a page: the frames that were done before NOCHUNK stay thawed (R112, R117). Log entry 25: DEDUCED. -/
def thawFrom (f : Fn) (r : Req) : Nat → Nat → State → Nat × Nat × State
  | 0, i, s => (0, i, s)
  | n + 1, i, s =>
    let va := r.pageVa i
    let e := s.entryAt f.ctx va
    if !entV e || !entW e then (3, i, s)
    else if entSZ e != entSZ r.attr then (2, i, s)
    else if entFMT e != 11 then (11, i, s)
    else match thawAll (framesOf f.ctx va e) s with
    | (false, t) => (10, i, t)
    | (true, t) => thawFrom f r n (i + 1) t

/-- A progress pin stands in the way of an UNMAP or a PROTECT of the request (R42). Log entry 25: DEDUCED. -/
def State.reqPinned (s : State) (f : Fn) (r : Req) : Bool :=
  (r.op == 0x11 || r.op == 0x12) && (List.range r.count).any (fun i =>
    let va := r.pageVa i
    let e := s.entryAt f.ctx va
    let e' := protectEntry e r.attr
    let removes := r.op == 0x11 || (entP e && !entP e') || (entR e && !entR e') || (entW e && !entW e') || (entX e && !entX e')
    entV e && removes && s.pinned (framesOf f.ctx va e))

/-! ## The order of requests (R36) -/

/-- A request that the firmware holds: its number in order of arrival, its function, its operation and its block. -/
structure FwReq where
  seq   : Nat
  fn    : Nat
  op    : Nat
  block : Vector Word 8

/-- The request of a busy mailbox. -/
def Fn.boxReq (f : Fn) : FwReq := ⟨f.arrived, f.num, wfield f.mbox[0] 0 32, f.mbox⟩

/-- The request of an SVC of function `n`. -/
def SvcRec.req (r : SvcRec) (n : Nat) : FwReq := ⟨r.arrived, n, r.op, r.block⟩

/-- The requests that have reached the firmware and have not completed. -/
def State.fwReqs (s : State) : List FwReq :=
  (s.fns.filter Fn.busy).map Fn.boxReq ++
    s.harts.filterMap (fun h => h.ctl.svc.map (fun r => r.req h.place.fn)) ++
    s.fns.flatMap (fun f => f.left.map (fun r => r.req f.num))

/-- A live hart of the function at a packed address; a resident one comes before a pre-empted one.
Log entry 29: DEDUCED. -/
def State.dbgHart (s : State) (n : Nat) (va : Word) : Option Hart :=
  let mine := s.harts.filter (fun h => h.place.fn == n && h.place.loc.setWidth 64 == va)
  match mine.find? Hart.resident with
  | some h => some h
  | none => mine.head?

/-- A request that cannot complete yet: a progress pin holds it (R42), the function that it moves is still on its way (R373), or the hart that
it retires waits for a tag (R216). Log entry 25: DEDUCED. -/
def State.fwHeld (s : State) (q : FwReq) : Bool :=
  let r := reqOf q.block
  if q.op = 0x46 then (s.fn r.peer).migrating
  else if q.op = 0x1D then (s.dbgHart q.fn r.va).any (fun h => h.debugged && h.ctl.tags.toList.any (fun t => t.st == .busy))
  else r.op == q.op && r.check == 0 && s.reqPinned (s.fn q.fn) r

/-- The frames of the pages that a request names: those mapped there, and those that MAP and ACCEPT put there. -/
def State.reqFrames (s : State) (q : FwReq) : List Nat :=
  let r := reqOf q.block
  let ctx := (s.fn q.fn).ctx
  (List.range r.count).flatMap (fun i =>
    let va := r.pageVa i
    let e := s.entryAt ctx va
    (if entV e then framesOf ctx va e else []) ++
      (if q.op = 0x10 || q.op = 0x14 then
        framesOf ctx va ((r.attr &&& BitVec.twoPow 64 58) ||| BitVec.ofNat 64 (q.fn * 2 ^ 37 + r.pageFrame i)) else []))

/-- The request works on pages: a memory service, EXPORT or IMPORT. -/
def FwReq.onPages (q : FwReq) : Bool := 0x10 ≤ q.op && q.op ≤ 0x17

/-- Two requests touch the same page. Log entry 25: DEDUCED. -/
def State.reqsMeet (s : State) (a b : FwReq) : Bool :=
  let x := reqOf a.block
  let y := reqOf b.block
  a.onPages && b.onPages &&
    (((s.fn a.fn).ctx == (s.fn b.fn).ctx && x.va.toNat < y.va.toNat + y.count * y.size && y.va.toNat < x.va.toNat + x.count * x.size) ||
      (s.reqFrames a).any (s.reqFrames b).contains)

/-- The firmware handles the request now: of the earlier ones every one is held back, and none of these touches a page of it (R36).
Log entry 25: DEDUCED. -/
def State.fwTurn (s : State) (q : FwReq) : Bool :=
  s.fwReqs.all (fun e => q.seq ≤ e.seq || (s.fwHeld e && !s.reqsMeet e q))

/-- A memory service for function `f`: status, pages done and the state; none while a progress pin holds it back. -/
def State.memService (s : State) (f : Fn) (op : Nat) (w : Vector Word 8) : Option (Nat × Nat × State) :=
  let r := reqOf w
  if r.op != op then some (8, 0, s)
  else if r.check != 0 then some (r.check, 0, s)
  else if s.reqPinned f r then none
  else some (match op with
    | 0x10 => pagesFrom (fun s i => s.mapPage f r i) r.count 0 s
    | 0x11 => pagesFrom (fun s i => s.unmapPage f r i) r.count 0 s
    | 0x12 => pagesFrom (fun s i => s.protectPage f r i) r.count 0 s
    | 0x13 => pagesFrom (fun s i => s.offerPage f r i) r.count 0 s
    | 0x14 => pagesFrom (fun s i => s.acceptPage f r i) r.count 0 s
    | _ => thawFrom f r r.count 0 s)

/-! ## Through SVC (R37, R212) -/

/-- The request block at an address. -/
def State.fwBlock (s : State) (ctx : BitVec 16) (a : Word) : Vector Word 8 :=
  Vector.ofFn (fun i => s.fwReadWord ctx (a + BitVec.ofNat 64 (8 * i.val)))

/-- STATUS and DONE written to the block at an address. -/
def State.fwAnswer (s : State) (ctx : BitVec 16) (a : Word) (status done : Nat) : State :=
  (s.fwWriteBytes ctx (a + 4) (leBytes 4 status)).fwWriteBytes ctx (a + 0x30) (leBytes 8 done)

/-- A memory service whose turn it is, unless a progress pin holds it back (R36, R42). -/
def State.svcNow (s : State) (n : Nat) (r : SvcRec) : Option (Nat × Nat × State) :=
  if s.fwTurn (r.req n) then s.memService (s.fn n) r.op r.block else none

/-- The service on a block that the firmware has read: it completes, or it waits and the firmware keeps the block. -/
def svcOn (r : SvcRec) (s : State) : Res :=
  match s.svcNow s.hart.place.fn r with
  | none => .wait (s.modCtl (fun c => { c with svc := some r }))
  | some (status, done, t) =>
    let t := t.modCtl (fun c => { c with svc := none })
    .done ((if t.areaOk t.ctx true false r.addr 64 then t.fwAnswer t.ctx r.addr status done else t).setX 10 (BitVec.ofNat 64 status))

/-- A memory service asked for by SVC: FENCE.ALL, the block at x10, the service, x10 := STATUS.
Log entry 26: DEDUCED. -/
def svcService (h : Hdr) (op : Nat) (s : State) : Out :=
  issue h [] s (fun s => fenceAll s (fun s =>
    let a := s.x 10
    match s.hart.ctl.svc with
    | some r => svcOn r s
    | none =>
      if !s.areaOk s.ctx true true a 64 then .done (s.setX 10 8)
      else
        let s := s.fwSettle s.ctx a 64
        svcOn ⟨h, op, a, s.fwBlock s.ctx a, s.fwSeq⟩ { s with fwSeq := s.fwSeq + 1 }))

/-- A service that a pre-empted or stopped hart waits for completes where it can, and x10 holds its result when the hart goes on
(R212, R334, R372). -/
def State.serviceFor (s : State) (h : Hart) : State :=
  match h.ctl.svc with
  | none => s
  | some r =>
    match svcService r.h r.op (s.turnTo h) with
    | .next t =>
      if t.hart.dest == h.dest && t.hart.ctl.svc.isNone then t.modCtl (fun c => { c with phase := h.ctl.phase }) else s
    | .fault _ => s
    | .refused _ => s

/-! ## Through the mailbox (R371) -/

/-- The firmware writes STATUS and DONE into a function's block and clears BUSY. -/
def State.mboxAnswer (s : State) (n status done : Nat) : State :=
  s.modFn n (fun f => { f with
    busy := false
    mbox := (f.mbox.set 0 ((f.mbox[0] &&& 0xFFFFFFFF) ||| BitVec.ofNat 64 (status * 2 ^ 32))).set 6 (BitVec.ofNat 64 done) })

/-- The firmware runs, and the function's mailbox is busy with a block of this operation. -/
def State.mboxAsks (s : State) (n op : Nat) : Bool :=
  match s.fn? n with
  | some f => s.fwRuns && f.busy && wfield f.mbox[0] 0 32 == op
  | none => false

/-- The firmware handles the block of this operation in the function's mailbox now (R36). -/
def State.mboxHas (s : State) (n op : Nat) : Bool := s.mboxAsks n op && s.fwTurn (s.fn n).boxReq

/-- A memory service of a hart that is gone completes where it can (R165); STATUS and DONE go into its block, where the block lies in
memory. Log entry 26: DEDUCED. -/
def State.serveLeft (s : State) (n : Nat) (r : SvcRec) : State :=
  match s.svcNow n r with
  | none => s
  | some (status, done, t) =>
    let ctx := (t.fn n).ctx
    let t := t.modFn n (fun f => { f with left := f.left.erase r })
    if (classOf r.addr).isVirt && t.areaOk ctx false false r.addr 64 then t.fwAnswer ctx r.addr status done else t

/-- A memory service asked for through a mailbox; BUSY stays while a progress pin holds it back. -/
def mboxService (n op : Nat) (what : String) (s : State) : Out :=
  if s.mboxHas n op then
    match s.memService (s.fn n) op (s.fn n).mbox with
    | none => .next s
    | some (status, done, t) => .next (t.mboxAnswer n status done)
  else .refused (.cannotOccur what)

/-- A memory service by the way it was asked for. -/
def viaService (op : Nat) (what : String) (v : Via) (s : State) : Out :=
  match v with
  | .svc h => svcService h op s
  | .mbox n => mboxService n op what s

def execMapPages (v : Via) (s : State) : Out := viaService 0x10 "MAP" v s
def execUnmapPages (v : Via) (s : State) : Out := viaService 0x11 "UNMAP" v s
def execProtectPages (v : Via) (s : State) : Out := viaService 0x12 "PROTECT" v s
def execOfferPages (v : Via) (s : State) : Out := viaService 0x13 "OFFER" v s
def execAcceptPages (v : Via) (s : State) : Out := viaService 0x14 "ACCEPT" v s
def execThawPages (v : Via) (s : State) : Out := viaService 0x15 "THAW" v s

/-! ## VERSION, PARTITION, FRAMES (R212) -/

/-- The firmware interface version: 1.0. -/
def interfaceVersion : Word := 0x00010000

def execVersion (h : Hdr) (s : State) : Out :=
  issue h [] s (fun s => fenceAll s (fun s => .done (s.setX 10 interfaceVersion)))

/-- A service that fills an area at x10. -/
def areaService (h : Hdr) (s : State) (words : Fn → List Word) : Out :=
  issue h [] s (fun s => fenceAll s (fun s =>
    let ws := words s.myFn
    let a := s.x 10
    if s.areaOk s.ctx true false a (8 * ws.length) then .done ((s.fwWriteWords s.ctx a ws).setX 10 0)
    else .done (s.setX 10 8)))

/-- The furrow bitmap of the partition as two words. -/
def Fn.partWords (f : Fn) : List Word := [f.part.extractLsb' 0 64, f.part.extractLsb' 64 64]
/-- First frame and frame count of each stack. -/
def Fn.frameWords (f : Fn) : List Word :=
  (List.finRange 12).flatMap (fun i => [BitVec.ofNat 64 f.fbase[i], BitVec.ofNat 64 f.fcount[i]])

def execSvcPartition (h : Hdr) (s : State) : Out := areaService h s Fn.partWords
def execFrames (h : Hdr) (s : State) : Out := areaService h s Fn.frameWords

end Sys2Proof.Machine
end

