-- ==== Sys2Proof/Machine/Glean.lean ====
section
/-! DEFINITION. The gleaner (R70, R112 to R115, R118): a sweep of a stack's frames and the commit of a conversion. -/

namespace Sys2Proof.Machine

/-- The entry by which the owner of a frame maps it (R29). -/
def State.ownerEntry (s : State) (frame : Nat) : Option TEntry :=
  (s.mappers frame).find? (fun t => t.ctx == (s.fn (entOWN t.e)).ctx)

/-- The frame may begin a conversion (R113). Log entry 24: DEDUCED. -/
def State.gleans (s : State) (frame : Nat) : Bool :=
  match s.ownerEntry frame with
  | none => false
  | some t =>
    let f := s.fn (entOWN t.e)
    let m := s.pmeta frame
    entP t.e && entGL t.e && entFMT t.e == 11 && m.fmtnow == 4 && m.state == 0 && f.gleanage != 0 &&
      f.gleanage.ule m.age && !f.migrating && 9 ≤ s.ms.pool[frameStack frame]

/-- The gleaner visits a frame: a conversion begins where R113 allows it (R114). Log entry 24: DEDUCED. -/
def State.visit (s : State) (frame : Nat) : State :=
  if s.gleans frame then (s.modMeta frame (fun m => { m with state := 1 })).poolSub frame 9 else s

/-- The frames of a stack that some entry maps, each once. -/
def State.mappedFrames (s : State) (st : Nat) : List Nat :=
  ((s.ms.entries.flatMap (fun t => if entV t.e then (List.range (entFrames t.e)).map (t.frame0 + ·) else [])).filter
    (fun x => isStackFrame x && x / 2 ^ 20 == st)).eraseDups

/-- AGE counts a completed sweep, up to 255 (R68, R70). -/
def State.growAge (s : State) (frame : Nat) : State :=
  s.modMeta frame (fun m => { m with age := if m.age = 255 then 255 else m.age + 1 })

/-- GLEAN_SWEEP: the gleaner of a stack visits its frames, and their AGE advances when the sweep is complete.
Log entry 24: DEDUCED. -/
def execGleanSweep (stack : Fin 12) (s : State) : Out :=
  let fs := s.mappedFrames stack.val
  .next (fs.foldl State.growAge (fs.foldl State.visit s))

/-- The commit of a conversion (R114): the frame takes its MX4 form and is frozen. -/
def State.commit (s : State) (frame : Nat) : State :=
  let s := (s.toMx4 frame).modMeta frame (fun m => { m with
    wgen := m.wgen + 1, fmtnow := 8, state := 2, glabort := false, chunks := 9 })
  let s := s.poolAdd frame 16
  match s.frameOwner frame with
  | some o => s.modFn o (fun f => { f with convs := f.convs + 1, chunks := f.chunks + 7 })
  | none => s

/-- CONVERSION_COMMIT: pending contributions of the frame are applied first, which aborts the conversion (R64).
Log entry 24: DEDUCED. -/
def execConversionCommit (frame : Nat) (s : State) : Out :=
  if (s.pmeta frame).state != 1 then .refused (.cannotOccur "CONVERSION_COMMIT")
  else if s.ms.wq.any (fun e => e.frame == frame) then .next (s.settleFrame frame)
  else .next (s.commit frame)

end Sys2Proof.Machine
end

