-- ==== Sys2Proof/Machine/Mailbox.lean ====
section
/-! DEFINITION. The mailbox operations beside the memory services (R371 to R374, R376): export and import, attestation, the physical
function's assignments, migration and the debugger. -/

namespace Sys2Proof.Machine

/-! ## A mailbox operation -/

/-- An operation through the mailbox of function `n`: `ok` says that every unused field is zero (R371), `k` gives STATUS, DONE and
the state. -/
def mboxOp (n op : Nat) (what : String) (s : State) (ok : Req → Bool) (k : Fn → Req → Nat × Nat × State) : Out :=
  if s.mboxHas n op then
    let f := s.fn n
    let r := reqOf f.mbox
    if ok r && r.rsv == 0 then let (st, done, t) := k f r; .next (t.mboxAnswer n st done)
    else .next (s.mboxAnswer n 8 0)
  else .refused (.cannotOccur what)

/-- Operations 0x40 to 0x46 are accepted only from function 0, and name an existing function in PEER.
Log entry 26: DEDUCED; log entry 28: DEDUCED. -/
def adminOp (n op : Nat) (what : String) (s : State) (ok : Req → Bool) (k : Fn → Req → Nat × State) : Out :=
  mboxOp n op what s (fun r => n == 0 && ok r && (s.fn? r.peer).isSome) (fun _ r =>
    let (st, t) := k (s.fn r.peer) r
    (st, 0, t))

/-! ## Poison (R70, R115, R374, R377) -/

/-- A frame gets STATE 3: a conversion aborts, and pending contributions are lost with the data (R64). -/
def State.poisonFrame (s : State) (frame : Nat) : State :=
  let s := s.abortConv frame
  (s.modMs (fun ms => { ms with wq := ms.wq.filter (fun e => e.frame != frame) })).modMeta frame (fun m =>
    { m with state := 3 })

/-- The page of an entry is poisoned, and its owner gets a POISON event that names the page. Log entry 30: DEDUCED. -/
def State.poisonPage (s : State) (t : TEntry) : State :=
  let fs := (List.range (entFrames t.e)).map (t.frame0 + ·)
  (fs.foldl State.poisonFrame s).postEvent (entOWN t.e) ⟨6, 0, 0, t.va, 0, 0⟩

/-! ## EXPORT and IMPORT (R374) -/

/-- Byte `a` of the function's host-side address space: its frame and offset (R29). -/
def hostByte (f : Fn) (a : Nat) : Nat × Nat := (2 ^ 24 + (256 + f.num) * 2 ^ 28 + a / 65536 % 2 ^ 28, a % 65536)

def State.hostPut (s : State) (f : Fn) (a : Nat) (bs : List Byte) : State :=
  (indexed bs).foldl (fun s (i, b) => let (fr, off) := hostByte f (a + i); s.rawWrite fr off [b]) s

def State.hostGet (s : State) (f : Fn) (a n : Nat) : List Byte :=
  (List.range n).map (fun i => let (fr, off) := hostByte f (a + i); Memory.get s.ms.mem (keyOf fr off))

/-- The initialisation vector and the additional data of a chunk. -/
def sealIv (seq : Word) (c : Nat) : BitVec 96 := BitVec.ofNat 96 (seq.toNat + c * 2 ^ 64)
def sealAad (va : Word) (fn : Nat) : List Byte := leBytes 8 va.toNat ++ leBytes 8 fn

/-- Exactly `n` bytes. Log entry 6: DESIGN CHOICE. -/
def exactly (n : Nat) (bs : List Byte) : List Byte := (List.range n).map (fun i => bs.getD i 0)

/-- Fields and whole checks of EXPORT and IMPORT: the status, or 0. -/
def Req.checkExport (r : Req) : Nat :=
  if r.va.toNat % 65536 != 0 || r.count = 0 || 65535 < r.count || !r.inSpace then 1
  else if 2 ^ 28 < r.frame + r.count then 4 else 0

/-- A page that EXPORT and IMPORT take: mapped, of 64 KiB, of FMT 0 to 5 or HDR. -/
def exportable (e : Word) : Bool := !entSZ e && (entFMT e ≤ 5 || entFMT e == 11)

/-- Log entry 27: DEDUCED. -/
def State.exportPage (s : State) (n : Nat) (r : Req) (i : Nat) : Nat ⊕ State :=
  let f := s.fn n
  let va := r.pageVa i
  let e := s.entryAt f.ctx va
  let p := pageOf f.ctx va e
  if !entV e then .inl 6
  else if !exportable e || !entP e || (s.pmeta p.frame).state != 0 then .inl 12
  else
    let s := s.settleFrame p.frame
    let bytes := s.viewRead p 65536
    let seq := f.exportSeq
    let chunks := (List.range 16).map (fun c => (bytes.drop (4096 * c)).take 4096)
    let sealed := (indexed chunks).map (fun (c, b) => Config.gcmSeal n (sealIv seq c) (sealAad va n) b)
    let out := if entENC e then sealed.flatMap (fun x => exactly 4096 x.1) else bytes
    let tags := if entENC e then leBytes 8 seq.toNat ++ leBytes 8 0 ++ sealed.flatMap (fun x => leBytes 16 x.2.toNat)
      else List.replicate 272 0
    let s := (s.hostPut f (65536 * (r.frame + i)) out).hostPut f (r.peer + 272 * i) tags
    .inr (s.modFn n (fun f => { f with exportSeq := f.exportSeq + 1 }))

/-- The plaintext of an exported page, if every tag verifies. -/
def openPage (n : Nat) (va : Word) (enc : Bool) (bytes tags : List Byte) : Option (List Byte) :=
  if enc then
    let seq : Word := BitVec.ofNat 64 (leNat (tags.take 8))
    (List.range 16).foldl (fun acc c => acc.bind (fun a =>
      (Config.gcmOpen n (sealIv seq c) (sealAad va n) ((bytes.drop (4096 * c)).take 4096)
        (BitVec.ofNat 128 (leNat ((tags.drop (16 + 16 * c)).take 16)))).map (fun p => a ++ exactly 4096 p))) (some [])
  else some bytes

/-- Log entry 27: DEDUCED. -/
def State.importPage (s : State) (n : Nat) (r : Req) (i : Nat) : Nat ⊕ State :=
  let f := s.fn n
  let va := r.pageVa i
  let e := s.entryAt f.ctx va
  let p := pageOf f.ctx va e
  let m := s.pmeta p.frame
  let short := entFMT e == 11 && m.chunks != 16
  if !entV e then .inl 6
  else if !exportable e || entP e then .inl 12
  else if short && s.ms.pool[frameStack p.frame] < 16 then .inl 10
  else match openPage n va (entENC e) (s.hostGet f (65536 * (r.frame + i)) 65536) (s.hostGet f (r.peer + 272 * i) 272) with
  | none => .inl 13
  | some bytes =>
    let s := (s.settleFrame p.frame).abortConv p.frame
    let s := if short then (s.poolSub p.frame 16).poolAdd p.frame m.chunks else s
    let s := s.modMs (fun ms => { ms with mem := Sparse.clear (keyOf p.frame 0) (2 ^ 17) ms.mem })
    let s := (s.rawWrite p.frame 0 bytes).touch p.frame
    let s := if entFMT e = 11 then s.modMeta p.frame (fun m => { m with fmtnow := 4, state := 0, chunks := 16 }) else s
    .inr ((s.putEntry f.ctx va (e ||| BitVec.twoPow 64 62)).endPageReq n va none)

/-- A page whose tags fail is poisoned (R374). -/
def State.failImport (s : State) (n : Nat) (va : Word) : State :=
  match s.ms.entries.find? (fun t => t.ctx == (s.fn n).ctx && t.va == va) with
  | some t => s.poisonPage t
  | none => s

/-- The fields that EXPORT and IMPORT use: VA, COUNT, FRAME of target 0 and PEER (R371). -/
def exportFields (r : Req) : Bool := r.attr == 0 && r.frame < 2 ^ 28

def execExportPages (fn : Nat) (s : State) : Out :=
  mboxOp fn 0x16 "EXPORT" s exportFields (fun _ r =>
    if r.checkExport != 0 then (r.checkExport, 0, s) else pagesFrom (fun s i => s.exportPage fn r i) r.count 0 s)

def execImportPages (fn : Nat) (s : State) : Out :=
  mboxOp fn 0x17 "IMPORT" s exportFields (fun _ r =>
    if r.checkExport != 0 then (r.checkExport, 0, s)
    else
      let (st, done, t) := pagesFrom (fun s i => s.importPage fn r i) r.count 0 s
      (st, done, if st = 13 then t.failImport fn (r.pageVa done) else t))

/-! ## ATTEST (R376) -/

/-- A 512-byte region that is present, readable where `rd`, writable and of FMT 0. -/
def State.rawArea (s : State) (ctx : BitVec 16) (rd : Bool) (a : Word) : Bool :=
  (!rd || s.fwSpanOk ctx false a 512) && s.fwSpanOk ctx true a 512 &&
    (framePieces 2 a 512).all (fun x => entFMT (s.entryAt ctx x.1) == 0)

/-- The bytes of words, in order. -/
def wordBytes (ws : List Word) : List Byte := ws.flatMap (fun w => leBytes 8 w.toNat)

/-- The 352 bytes of the report that are signed. Log entry 27: DEDUCED. -/
def State.report (s : State) (f : Fn) (nonce : List Byte) : List Byte :=
  nonce ++ [1, 0, BitVec.ofNat 8 f.num] ++ List.replicate 29 0 ++
    leBytes 64 s.dev.measLoader.toNat ++ leBytes 64 s.dev.measFw.toNat ++
    leBytes 64 (Config.sha512 (wordBytes (f.partWords ++ f.frameWords))).toNat ++
    leBytes 64 (Config.sha512 (leBytes 32 f.peermap.toNat)).toNat ++ leBytes 32 Config.identityKey.toNat

def execAttest (fn : Nat) (s : State) : Out :=
  mboxOp fn 0x18 "ATTEST" s (fun r => r.count == 0 && r.attr == 0 && r.frame == 0 && r.peer == 0) (fun f r =>
    if s.rawArea f.ctx true r.va then
      let (s, nonce) := s.fwReadBytes f.ctx r.va 32
      let body := s.report f nonce
      (0, 0, s.fwWriteSpan f.ctx r.va (body ++ leBytes 64 (Config.ed25519Sign body).toNat))
    else (8, 0, s))

/-! ## What the physical function assigns (R47, R371) -/

/-- The state after function `n` receives exactly the furrows of a bitmap; none while a furrow that changes hands has a hart. The credit
counts of their cores are freed; nothing else of them is left where no hart is (R47).
Log entry 28: DEDUCED. -/
def State.assignFurrows (s : State) (n : Nat) (bm : BitVec 128) : Option State :=
  let moved := s.fns.foldl (fun m f => m ||| (if f.num == n then f.part ^^^ bm else f.part &&& bm)) (0 : BitVec 128)
  let fenced := s.dev.fencedFurrows.any (fun u => bm.getLsbD u.toNat)
  if fenced || s.harts.any (fun h => moved.getLsbD (furrowOf h.place.loc)) then none
  else
    let s := s.dropCredits (fun c => moved.getLsbD (c.core / 8))
    some { s with fns := s.fns.map (fun f => { f with part := if f.num == n then bm else f.part &&& ~~~bm }) }

def execPartition (fn : Nat) (s : State) : Out :=
  adminOp fn 0x40 "PARTITION" s (fun r => r.count == 0 && r.attr == 0 && r.frame == 0) (fun g r =>
    let ctx := (s.fn 0).ctx
    if s.fwSpanOk ctx false r.va 16 then
      let (s, bs) := s.fwReadBytes ctx r.va 16
      match s.assignFurrows g.num (BitVec.ofNat 128 (leNat bs)) with
      | some t => (0, t)
      | none => (8, s)
    else (8, s))

/-- The frames `lo .. lo + n - 1` of a stack are owned by no function but `me`. -/
def State.framesFree (s : State) (me : Nat) (st : Fin 12) (lo n : Nat) : Bool :=
  lo + n ≤ 2 ^ 20 && s.fns.all (fun f => f.num == me || lo + n ≤ f.fbase[st] || f.fbase[st] + f.fcount[st] ≤ lo)

/-- The lowest range of `n` free frames: it begins at 0 or where another function's range ends. -/
def State.firstRange (s : State) (me : Nat) (st : Fin 12) (n : Nat) : Option Nat :=
  let starts := 0 :: s.fns.map (fun f => f.fbase[st] + f.fcount[st])
  (starts.filter (fun lo => s.framesFree me st lo n)).foldl (fun m x => match m with
    | some y => some (min x y)
    | none => some x) none

/-- An entry maps a frame of `lo .. hi - 1` of a stack. -/
def State.mapsIn (s : State) (st lo hi : Nat) : Bool :=
  s.ms.entries.any (fun t => entV t.e && t.frame0 < st * 2 ^ 20 + hi && st * 2 ^ 20 + lo < t.frame0 + entFrames t.e)

def Fn.setRange (f : Fn) (st : Fin 12) (base count : Nat) : Fn :=
  { f with fbase := f.fbase.set st base, fcount := f.fcount.set st count }

/-- QUOTA: the status and the state, with FBASE in the block's FRAME field. Log entry 28: DEDUCED. -/
def State.quota (s : State) (g : Fn) (st : Fin 12) (n : Nat) : Nat × State :=
  let base := g.fbase[st]
  let old := g.fcount[st]
  let grant := fun (b : Nat) =>
    let s := s.modFn g.num (fun f => f.setRange st (if n = 0 then 0 else b) n)
    s.modFn 0 (fun f => { f with mbox := f.mbox.set 4 (BitVec.ofNat 64 b) })
  if old = 0 then
    if n = 0 then (0, grant 0)
    else match s.firstRange g.num st n with
    | some b => (0, grant b)
    | none => (4, s)
  else if old < n then (if s.framesFree g.num st base n then (0, grant base) else (4, s))
  else if s.mapsIn st.val (base + n) (base + old) then (5, s)
  else (0, grant base)

def execQuota (fn : Nat) (s : State) : Out :=
  adminOp fn 0x41 "QUOTA" s (fun r => r.va == 0 && r.attr.toNat < 12) (fun g r =>
    s.quota g (Fin.ofNat 12 r.attr.toNat) r.count)

/-- The fields PEER and COUNT alone. -/
def countFields (r : Req) : Bool := r.va == 0 && r.attr == 0 && r.frame == 0

/-- Log entry 28: DEDUCED. -/
def execWeight (fn : Nat) (s : State) : Out :=
  adminOp fn 0x42 "WEIGHT" s (fun r => countFields r && 1 ≤ r.count && r.count ≤ 255) (fun g r =>
    (0, s.modFn g.num (fun f => { f with weight := r.count })))
def execSetglean (fn : Nat) (s : State) : Out :=
  adminOp fn 0x43 "SETGLEAN" s (fun r => countFields r && r.count ≤ 255) (fun g r =>
    (0, s.modFn g.num (fun f => { f with gleanage := BitVec.ofNat 8 r.count })))
def execSetbudget (fn : Nat) (s : State) : Out :=
  adminOp fn 0x44 "SETBUDGET" s countFields (fun g r =>
    (0, s.modFn g.num (fun f => { f with budget := BitVec.ofNat 64 r.count })))

def execPeerset (fn : Nat) (s : State) : Out :=
  adminOp fn 0x45 "PEERSET" s (fun r => r.count == 0 && r.attr == 0 && r.frame == 0) (fun g r =>
    let ctx := (s.fn 0).ctx
    if s.fwSpanOk ctx false r.va 32 then
      let (s, bs) := s.fwReadBytes ctx r.va 32
      (0, s.modFn g.num (fun f => { f with peermap := BitVec.ofNat 256 (leNat bs) }))
    else (8, s))

/-! ## Migration (R373) -/

/-- The storage frames of every page that a function maps. -/
def State.fnFrames (s : State) (f : Fn) : List Nat :=
  (s.ms.entries.filter (fun t => t.ctx == f.ctx && entV t.e)).flatMap (fun t =>
    (List.range (entFrames t.e)).map (t.frame0 + ·))

/-- WGEN of frames, recorded as the copies of their pages begin. -/
def State.wgensOf (s : State) (fs : List Nat) : List (Nat × BitVec 32) := fs.map (fun x => (x, (s.pmeta x).wgen))

/-- The mapped pages of a function. -/
def State.fnPages (s : State) (f : Fn) : List TEntry := s.ms.entries.filter (fun t => t.ctx == f.ctx && entV t.e)

/-- The mapped pages whose WGEN differs from the recorded value. -/
def State.changedPages (s : State) (f : Fn) : List TEntry :=
  (s.fnPages f).filter (fun t => (List.range (entFrames t.e)).any (fun i =>
    !f.migWgen.contains (t.frame0 + i, (s.pmeta (t.frame0 + i)).wgen)))

/-- Every mapped page is of a format that migration applies to (R374). -/
def State.mayMigrate (s : State) (f : Fn) : Bool := (s.fnPages f).all (fun t => entFMT t.e ≤ 5 || entFMT t.e == 11)

/-- A migration fails with a status: the function stays and its gleaning goes on. Log entry 27: DEDUCED. -/
def State.failMigration (s : State) (n status : Nat) : State :=
  let s := s.modFn n (fun f => { f with migrating := false, quiesced := false, migWgen := [] })
  if s.mboxAsks 0 0x46 then s.mboxAnswer 0 status 0 else s

/-- MIGRATE: steps 1 and 2. The block stays BUSY until the function has moved. The conversions that abort are those of pages whose gleaning
stops, which the function owns. Log entry 27: DEDUCED. -/
def execMigrate (fn : Nat) (s : State) : Out :=
  if s.mboxHas fn 0x46 then
    let r := reqOf (s.fn fn).mbox
    let ok := fn == 0 && r.va == 0 && r.attr == 0 && r.rsv == 0 && r.frame % 2 ^ 28 == 0 && r.frame / 2 ^ 28 != 0 &&
      r.frame < 2 ^ 36 && (s.fn? r.peer).isSome
    if !ok then .next (s.mboxAnswer fn 8 0)
    else if (s.fn r.peer).migrating then .refused (.cannotOccur "MIGRATE")
    else
      let g := s.fn r.peer
      if !s.mayMigrate g then .next (s.mboxAnswer fn 12 0)
      else
        let s := ((s.fnFrames g).filter (fun x => s.frameOwner x == some g.num)).foldl State.abortConv s
        .next (s.modFn g.num (fun f => { f with
          migrating := true, quiesced := false, migTarget := r.frame / 2 ^ 28, migThreshold := r.count, migRounds := 0,
          migWgen := s.wgensOf (s.fnFrames g) }))
  else .refused (.cannotOccur "MIGRATE")

/-- The records of queue `i` that the destination submits again: those that had started and not completed (`run` are the launches of which that
holds), from the scheduler's copies, then those that had not started, from their slots (R373 step 6). Log entry 27: DEDUCED. -/
def State.resubmits (s : State) (f : Fn) (run : List Launch) (i : Fin 16) : List (Vector Word 8) :=
  let q := f.queues[i]
  let live := fun (c : BitVec 32) =>
    run.any (fun l => l.queue == i && l.slot == c) || q.replay.any (fun r => r.1 == c)
  let begun := sortedBy (fun a b => (q.head - b.1).toNat ≤ (q.head - a.1).toNat) (q.copies.filter (fun c => live c.1))
  begun.map Prod.snd ++ (List.range (q.tail - q.head).toNat).filterMap (fun k => s.slotWords f q (q.head + BitVec.ofNat 32 k))

/-- What the final copy hands over to the destination (R373 steps 5 and 6, R374). Log entry 41: DESIGN CHOICE. -/
def State.departure (s : State) (f : Fn) (resubmit : Vector (List (Vector Word 8)) 16) : Departure :=
  let fs := s.fnFrames f
  { fn := f.num, target := f.migTarget, entries := s.fnPages f
    metas := fs.map (fun x => (x, { s.pmeta x with age := 0 }))
    mem := s.ms.mem.filter (fun c => fs.any (fun x => keyOf x 0 ≤ c.1 && c.1 < keyOf (x + 1) 0))
    rowstale := f.rowstale, convs := f.convs, aborts := f.aborts, chunks := f.chunks, queues := f.queues
    resubmit := resubmit
    key := Config.destVerifies f.migTarget s.cyc.toNat }

/-- Steps 4 to 6 once no launch with CHECKPOINT = 0 runs: the harts stop without a RESET event, the final copy leaves the device,
and the function's pages are unmapped here. Log entry 27: DEDUCED. -/
def State.depart (s : State) (n : Nat) : State :=
  let f := s.fn n
  let run := s.sched.launches.filter (fun l => l.fn == n)
  let s := s.dropFn n
  let fs := s.fnFrames f
  let s := fs.foldl (fun s x => (s.settleFrame x).abortConv x) s
  let pages := s.fnPages f
  let d := s.departure f (Vector.ofFn (s.resubmits f run))
  let s := s.modDev (fun x => { x with departures := d :: x.departures })
  let s := s.modMs (fun ms => { ms with entries := ms.entries.filter (fun t => t.ctx != f.ctx) })
  let s := fs.foldl State.dropFrame s
  let s := s.modFn n (fun f => { f with migrating := false, migWgen := [], offers := [], pr := { f.pr with reqs := [] } })
  if s.mboxAsks 0 0x46 then s.mboxAnswer 0 0 pages.length else s

/-- MIGRATION_QUIESCE: step 3, a check of every page's WGEN, and then the steps from 4 on; a page of another format ends the migration.
Log entry 27: DEDUCED. -/
def execMigrationQuiesce (fn : Nat) (s : State) : Out :=
  let f := s.fn fn
  if (s.fn? fn).isNone || !f.migrating then .refused (.cannotOccur "MIGRATION_QUIESCE")
  else if !s.mayMigrate f then .next (s.failMigration fn 12)
  else
    let changed := s.changedPages f
    if !f.quiesced && f.migThreshold < changed.length && f.migRounds < 32 then
      let fs := changed.flatMap (fun t => (List.range (entFrames t.e)).map (t.frame0 + ·))
      .next (s.modFn fn (fun f => { f with
        migRounds := f.migRounds + 1
        migWgen := f.migWgen.filter (fun p => !fs.contains p.1) ++ s.wgensOf fs }))
    else
      let s := s.modFn fn (fun f => { f with quiesced := true })
      if s.sched.launches.any (fun l => l.fn == fn && !l.checkpoint) then .next s else .next (s.depart fn)

/-! ## The debugger (R162, R372) -/

/-- The cause of the hart's debug stop, if it is stopped. -/
def Hart.stopCause (h : Hart) : Option Nat :=
  match h.ctl.phase with
  | .debug c => some c
  | .preempted c => c
  | _ => none

/-- The hart continues where it stopped. -/
def Hart.dbgContinue (h : Hart) : Hart :=
  h.modCtl (fun c => { c with phase := match c.phase with
    | .debug _ => .running
    | .preempted _ => .preempted none
    | p => p })

/-- A stopped hart continues; it takes a new progress pin where it is resident (R42). Log entry 29: DEDUCED. -/
def State.dbgGoOn (s : State) (h : Hart) : State :=
  let t := s.modAt h.dest Hart.dbgContinue
  if h.debugged && h.resident then t.retakePin h.dest else t

/-- A debugger operation that names a hart in VA; the hart must be there, and `stopped` asks for a debug stop. -/
def dbgOp (n op : Nat) (what : String) (s : State) (area stopped : Bool) (k : Hart → Req → Nat × State) : Out :=
  mboxOp n op what s
    (fun r => r.va.toNat < 4096 && r.count == 0 && r.attr == 0 && (area || r.frame == 0) && r.peer == 0) (fun _ r =>
    match s.dbgHart n r.va with
    | none => (14, 0, s)
    | some h => if stopped && h.stopCause.isNone then (14, 0, s) else let (st, t) := k h r; (st, 0, t))

/-- The block of an operation without fields. -/
def noFields (r : Req) : Bool := r.va == 0 && r.count == 0 && r.attr == 0 && r.frame == 0 && r.peer == 0

def execDbgattach (fn : Nat) (s : State) : Out :=
  mboxOp fn 0x19 "DBGATTACH" s noFields (fun f _ => (0, 0, s.modFn f.num (fun f => { f with dbg := true })))

def execDbgdetach (fn : Nat) (s : State) : Out :=
  mboxOp fn 0x1A "DBGDETACH" s noFields (fun f _ =>
    (0, 0, ((s.harts.filter (fun h => h.place.fn == fn)).foldl State.dbgGoOn s).modFn f.num (fun f => { f with dbg := false })))

/-- A hart stops in debug by DBGSTOP: as a pre-emption of it alone would stop it, but it keeps its place.
Log entry 29: DEDUCED. -/
def State.dbgStopHart (s : State) (n : Nat) (h : Hart) : State :=
  let s := if h.resident then s.stopHart h else s
  match s.hartAt h.dest with
  | none => s
  | some g =>
    let s := s.modAt h.dest (fun x => x.modCtl (fun c => { c with phase := match c.phase with
      | .preempted _ => .preempted (some 2)
      | _ => .debug 2 }))
    s.postEvent n ⟨8, 2, 0, g.place.loc.setWidth 64, g.contPc, 0⟩

def execDbgstop (fn : Nat) (s : State) : Out :=
  dbgOp fn 0x1B "DBGSTOP" s false false (fun h _ =>
    if !(s.fn fn).dbg then (14, s) else if h.stopCause.isSome then (0, s) else (0, s.dbgStopHart fn h))

def execDbgresume (fn : Nat) (s : State) : Out :=
  dbgOp fn 0x1C "DBGRESUME" s false true (fun h _ => (0, s.dbgGoOn h))

/-- DBGRETIRE: the hart retires as HALT retires it; a tag that is BUSY with a page request keeps the block BUSY (R216).
Log entry 29: DEDUCED. -/
def execDbgretire (fn : Nat) (s : State) : Out :=
  match s.dbgHart fn (reqOf (s.fn fn).mbox).va with
  | some h =>
    let t := if h.stopCause.isSome then s.drainCopies h.place.loc else s
    match t.hartAt h.dest with
    | some g =>
      if s.mboxHas fn 0x1D && g.stopCause.isSome && g.ctl.tags.toList.any (fun x => x.st == .busy) then .next t
      else dbgOp fn 0x1D "DBGRETIRE" t false true (fun h _ =>
        (0, (t.settleHart h.dest).retireHart h.dest))
    | none => dbgOp fn 0x1D "DBGRETIRE" t false true (fun _ _ => (14, t))
  | none => dbgOp fn 0x1D "DBGRETIRE" s false true (fun _ _ => (14, s))

/-- The image of a stopped hart as 64 words (R372); CSR rpc shows the oldest iteration that has not completed (R188). Log entry 5: DESIGN
CHOICE; log entry 29: DEDUCED. -/
def State.dbgImage (s : State) (h : Hart) (cause : Nat) : List Word :=
  let u := { s with hart := h.modCsr (fun c => { c with rpc := h.oldestRpc }) }
  let x := fun (i : Nat) => if i = 30 then Config.freePort s.fresh else h.regs.x[Fin.ofNat 32 i]
  let csr := fun (n : BitVec 12) => (u.csrRead n).getD 0
  [h.contPc] ++ (List.range 31).map (fun i => x (i + 1)) ++ [u.guards] ++
    [csr 0x000, csr 0x001, csr 0x002, csr 0x003, csr 0x004, csr 0x020, csr 0x021, csr 0x022, csr 0x023, csr 0x024,
      csr 0x026, csr 0x025, csr 0x060, csr 0x005] ++
    [csr 0x010, csr 0x011, csr 0x012] ++ [csr 0x033, BitVec.ofNat 64 cause] ++ List.replicate 12 0

def execDbgread (fn : Nat) (s : State) : Out :=
  dbgOp fn 0x1E "DBGREAD" s true true (fun h r =>
    let ctx := (s.fn fn).ctx
    let a : Word := BitVec.ofNat 64 r.frame
    if a.toNat % 8 = 0 && s.rawArea ctx false a then
      (0, { (s.fwWriteWords ctx a (s.dbgImage h (h.stopCause.getD 0))) with fresh := s.fresh + 1 })
    else (8, s))

end Sys2Proof.Machine
end

