-- ==== Sys2Proof/Machine/HostSide.lean ====
section
/-! DEFINITION. What the host and peers do to a function (R362 to R370): the aperture, peer accesses, queue registers, the rings, and
every other BAR0 register. -/

namespace Sys2Proof.Machine

/-! ## The aperture and peers (R367, R370) -/

/-- The fate of a part of a request (R367). -/
inductive ReqFate
  | perform
  | abort (c : Cause)
  | poisoned
deriving DecidableEq, Repr

/-- The function has been quiesced, every hart of it has stopped, and it has left for another device (R373 step 4). -/
def Fn.departed (f : Fn) : Bool := f.quiesced && !f.migrating

/-- The fate of bytes of one frame; `peer` for requests of peers. Log entry 32: DEDUCED. -/
def State.fate (s : State) (f : Fn) (peer write : Bool) (va : Word) (n : Nat) : ReqFate :=
  let e := s.entryAt f.ctx va
  let p := pageOf f.ctx va e
  let m := s.pmeta p.frame
  if entV e && classOf va = .virt && 6 ≤ entFMT e && entFMT e ≤ 10 then .abort .format
  else if classOf va != .virt || !entV e || (write && !entW e) || (!write && !entR e) || entENC e || f.departed then
    .abort .protect
  else if !entP e && (peer || !write) then .abort .absent
  else if m.state = 3 then (if write then .abort .integrity else .poisoned)
  else if write && m.state = 2 then .abort .frozen
  else if write && entFMT e == 11 && (va.toNat % 32 != 0 || n % 32 != 0) then .abort .partialBlock
  else .perform

/-- Bytes from `va` to the end of its page: 64 KiB where nothing maps it. -/
def State.toPageEnd (s : State) (f : Fn) (va : Word) : Nat :=
  if entSZ (s.entryAt f.ctx va) then 2 ^ 21 - va.toNat % 2 ^ 21 else 2 ^ 16 - va.toNat % 2 ^ 16

/-- The fate of a part that lies on one page: that of its first frame that does not perform. -/
def State.partFate (s : State) (f : Fn) (peer write : Bool) (va : Word) (n : Nat) : ReqFate :=
  ((framePieces 64 va n).findSome? (fun x => match s.fate f peer write x.1 x.2 with
    | .perform => none
    | r => some r)).getD .perform

/-- Bytes of one frame read through the byte view. -/
def State.apRead (s : State) (f : Fn) (va : Word) (n : Nat) : State × List Byte :=
  let p := pageOf f.ctx va (s.entryAt f.ctx va)
  let s := s.settle p.frame p.off n
  (s, s.viewRead p n)

/-- Bytes of one frame written through the byte view; WGEN advances and AGE is reset (R69). -/
def State.apWrite (s : State) (f : Fn) (va : Word) (bs : List Byte) : State :=
  let p := pageOf f.ctx va (s.entryAt f.ctx va)
  (s.settle p.frame p.off bs.length).viewWrite p bs

/-- The bytes of a span whose parts may all be read. -/
def State.apReadAll (s : State) (f : Fn) (va : Word) (n : Nat) : State × List Byte :=
  (framePieces 64 va n).foldl (fun (acc : State × List Byte) x =>
    let (t, bs) := acc.1.apRead f x.1 x.2
    (t, acc.2 ++ bs)) (s, [])

/-- A write of one page's part: it performs, or is discarded with a REFUSED event that names its first VA. -/
def State.writePart (s : State) (n : Nat) (src : Nat) (va : Word) (bs : List Byte) : State :=
  let f := s.fn n
  match s.partFate f (src != 0) true va bs.length with
  | .perform =>
    (framePieces 64 va bs.length).foldl (fun s x =>
      s.apWrite f x.1 ((bs.drop (x.1 - va).toNat).take x.2)) s
  | .abort c => s.postEvent n ⟨4, c.code.toNat, src, va, 0, 0⟩
  | .poisoned => s

/-- A write page by page. Log entry 32: DEDUCED. -/
def State.writeParts (n src : Nat) : Nat → State → Word → List Byte → State
  | 0, s, _, _ => s
  | k + 1, s, va, bs =>
    if bs.isEmpty then s
    else
      let m := min bs.length (s.toPageEnd (s.fn n) va)
      State.writeParts n src k (s.writePart n src va (bs.take m)) (va + BitVec.ofNat 64 m) (bs.drop m)

/-- The fate of a read: that of its first refused part. -/
def State.readFate (s : State) (f : Fn) (peer : Bool) : Nat → Word → Nat → ReqFate
  | 0, _, _ => .perform
  | k + 1, va, n =>
    if n = 0 then .perform
    else
      let m := min n (s.toPageEnd f va)
      match s.partFate f peer false va m with
      | .perform => s.readFate f peer k (va + BitVec.ofNat 64 m) (n - m)
      | r => r

/-- A read: the completion it returns is kept in the function's record. Log entry 32: DEDUCED. -/
def State.readReq (s : State) (n : Nat) (peer : Bool) (va : Word) (len : Nat) : State :=
  let f := s.fn n
  match s.readFate f peer 64 va len with
  | .perform => let (t, bs) := s.apReadAll f va len; t.modFn n (fun f => { f with cpl := .data bs })
  | .abort _ => s.modFn n (fun f => { f with cpl := .abort })
  | .poisoned => s.modFn n (fun f => { f with cpl := .poisoned })

/-- A PCIe request lies within the aperture and crosses no 4 KiB boundary. -/
def pcieOk (off : BitVec 36) (len : Nat) : Bool := 0 < len && off.toNat % 4096 + len ≤ 4096

/-- HOST_READ: a read at BAR2. -/
def execHostRead (fn : Nat) (off : BitVec 36) (len : Nat) (s : State) : Out :=
  match s.fn? fn with
  | some f =>
    if pcieOk off len then .next (s.readReq fn false (f.apbase + off.setWidth 64) len)
    else .refused (.cannotOccur "HOST_READ")
  | none => .refused (.cannotOccur "HOST_READ")

/-- HOST_WRITE: a write at BAR2. -/
def execHostWrite (fn : Nat) (off : BitVec 36) (bytes : List Byte) (s : State) : Out :=
  match s.fn? fn with
  | some f =>
    if pcieOk off bytes.length then .next (State.writeParts fn 0 2 s (f.apbase + off.setWidth 64) bytes)
    else .refused (.cannotOccur "HOST_WRITE")
  | none => .refused (.cannotOccur "HOST_WRITE")

/-! ### Atomics and merging adds of peers (R370) -/

/-- A refused write of a peer: a REFUSED event names its cause and address. -/
def State.refuseWrite (s : State) (n src : Nat) (va : Word) (c : Cause) : State := s.postEvent n ⟨4, c.code.toNat, src, va, 0, 0⟩

/-- A returning atomic of a peer performs at the write queue of its line and returns the old bytes (R62, R370); it needs what a read and a
write need. Log entry 32: DEDUCED. -/
def State.peerAtomic (s : State) (n src : Nat) (va : Word) (bytes : Nat) (op : AmoOp) (b c : Word) : State :=
  let f := s.fn n
  let cpl := fun (s : State) (r : ReadCpl) => s.modFn n (fun f => { f with cpl := r })
  match s.fate f true false va bytes, s.fate f true true va bytes with
  | .perform, .perform =>
    let (t, bs) := s.apRead f va bytes
    cpl (match amoNew op (8 * bytes) (leNat bs) b.toNat c.toNat with
      | some v => t.apWrite f va (leBytes bytes v)
      | none => t) (.data bs)
  | .abort x, _ => cpl (s.refuseWrite n src va x) .abort
  | .poisoned, _ => cpl (s.refuseWrite n src va .integrity) .poisoned
  | .perform, .abort x => cpl (s.refuseWrite n src va x) .abort
  | .perform, .poisoned => cpl s .poisoned

/-- One element of a peer's merging add joins its line's entry (R63, R370), or the cause of its refusal; it combines into the whole block of
32 bytes that holds it (R105). Log entry 32: DEDUCED. -/
def State.peerMerge (s : State) (n : Nat) (kind : MergeKind) (vramo : Bool) (va : Word) (nib : Nat) (v : Word) : Except Cause State :=
  let f := s.fn n
  let e := s.entryAt f.ctx va
  let p := pageOf f.ctx va e
  let fits := match kind with
    | .int _ => entFMT e == 0
    | .raw _ => entFMT e == 0
    | .page fmt => entFMT e == fmt
  match s.fate f true true (va &&& ~~~31#64) 32 with
  | .abort c => .error c
  | .poisoned => .error .integrity
  | .perform =>
    if !fits || (vramo && !entRC e) then .error .format
    else .ok (s.mergeArrive ⟨p.frame, p.off, nib, if entRC e then entRow e else 0, kind, v, none, vramo⟩)

/-- The elements of a peer's merging add; the first refused one of each page raises a REFUSED event. -/
def State.peerMergeAll (n src : Nat) (kind : MergeKind) (vramo : Bool) : List (Word × Nat × Word) → List Nat → State → State
  | [], _, s => s
  | (va, nib, v) :: r, bad, s =>
    let page := va.toNat + s.toPageEnd (s.fn n) va
    match s.peerMerge n kind vramo va nib v with
    | .ok t => State.peerMergeAll n src kind vramo r bad t
    | .error c => State.peerMergeAll n src kind vramo r (page :: bad) (if bad.contains page then s else s.refuseWrite n src va c)

/-- PEER_ACCESS: a request of a peer, page by page. -/
def execPeerAccess (target : BitVec 8) (fn : Nat) (req : PeerReq) (s : State) : Out :=
  if target = 0 || s.dev.linksDown.contains target || (s.fn? fn).isNone then .refused (.cannotOccur "PEER_ACCESS")
  else match req with
  | .read va len => .next (s.readReq fn true va len)
  | .write va bytes => .next (State.writeParts fn target.toNat (bytes.length + 1) s va bytes)
  | .atomic va word op b c =>
    let n := if word then 4 else 8
    if va.toNat % n = 0 then .next (s.peerAtomic fn target.toNat va n op b c) else .refused (.cannotOccur "PEER_ACCESS")
  | .merge kind elts vramo => .next (State.peerMergeAll fn target.toNat kind vramo elts [] s)

/-! ## Launch queues (R365) -/

/-- A slot count that QSIZE permits. -/
def sizeOk (n : Nat) : Bool := (List.range 16).any (fun k => n == 2 ^ (k + 1))

/-- A host write of `t` to QTAIL. Log entry 23: DEDUCED. -/
def State.doorbell (s : State) (n : Nat) (q : Fin 16) (t : BitVec 32) : State :=
  let x := (s.fn n).queues[q]
  if x.devfed || !x.en then s
  else if x.size.toNat < (t - x.head).toNat || (t - x.head).toNat < (x.tail - x.head).toNat then
    if x.stopped then s else s.stopQueue n q 7 x.head
  else s.modQueue n q (fun x => { x with tail := t })

def execQtailDoorbell (fn : Nat) (q : Fin 16) (t : BitVec 32) (s : State) : Out :=
  if (s.fn? fn).isSome then .next (s.doorbell fn q t) else .refused (.cannotOccur "QTAIL_DOORBELL")

/-- A new history of a queue: it has no fence record, and its replay point is its head (R166). -/
def Queue.fresh (x : Queue) : Queue :=
  { x with fence := none, done := [], start := x.head, plain := [], replayed := none, replay := [] }

/-- QSIZE and QBASE hold values that EN permits. -/
def Queue.mayEnable (x : Queue) : Bool := sizeOk x.size.toNat && x.base.toNat % 64 == 0

/-- EN is set: nothing changes unless QSIZE and QBASE hold permitted values; copies that no longer count are released (R148).
Log entry 23: DEDUCED. -/
def State.enableQueue (s : State) (n : Nat) (q : Fin 16) : State :=
  (s.modQueue n q (fun x =>
    if x.en || !x.mayEnable then x
    else Queue.fresh { x with en := true, head := 0, tail := 0, headRec := none, ready := false, cur := none })).trimCopies n q

def execQueueEnable (fn : Nat) (q : Fin 16) (s : State) : Out :=
  if (s.fn? fn).isSome then .next (s.enableQueue fn q) else .refused (.cannotOccur "QUEUE_ENABLE")

/-- EN is cleared: a LAUNCH that waits finds the queue not enabled. -/
def State.disableQueue (s : State) (n : Nat) (q : Fin 16) : State :=
  s.modQueue n q (fun x => { x with en := false, headRec := none, ready := false })

def execQueueDisable (fn : Nat) (q : Fin 16) (s : State) : Out :=
  if (s.fn? fn).isSome then .next (s.disableQueue fn q) else .refused (.cannotOccur "QUEUE_DISABLE")

/-- RESTART: STOPPED is cleared and the queue continues at QHEAD; with SKIP the head record is discarded first.
Log entry 23: DEDUCED. -/
def State.restartQueue (s : State) (n : Nat) (q : Fin 16) (skip : Bool) : State :=
  (s.modQueue n q (fun x =>
    let x := if skip && x.head != x.tail then { x with head := x.head + 1, cur := none } else x
    let x := if x.cur.isNone then { x with headRec := none, ready := false } else x
    { Queue.fresh x with stopped := false })).trimCopies n q

def execRestart (fn : Nat) (q : Fin 16) (s : State) : Out :=
  if (s.fn? fn).isSome then .next (s.restartQueue fn q false) else .refused (.cannotOccur "RESTART")

/-- Log entry 23: DEDUCED. -/
def execSkip (fn : Nat) (q : Fin 16) (s : State) : Out :=
  if (s.fn? fn).isSome then .next (s.restartQueue fn q true) else .refused (.cannotOccur "SKIP")

/-- A host write of QCTL: DEVFED, then RESTART with SKIP, then EN; one that sets EN of a queue that may not be enabled changes nothing
(R365). Log entry 23: DEDUCED. -/
def State.writeQctl (s : State) (n : Nat) (q : Fin 16) (v : Word) : State :=
  let x := (s.fn n).queues[q]
  if v.getLsbD 0 && !x.en && !x.mayEnable then s else
  let s := s.modQueue n q (fun x => { x with devfed := v.getLsbD 1 })
  let s := if v.getLsbD 2 then s.restartQueue n q (v.getLsbD 3) else s
  if v.getLsbD 0 then s.enableQueue n q else s.disableQueue n q

/-! ## Rings (R368, R369) -/

def State.writePrtail (s : State) (n : Nat) (v : BitVec 32) : State :=
  (s.modFn n (fun f => { f with pr := { f.pr with tail := v } })).flushReqs n

def execPrtailWrite (fn : Nat) (v : BitVec 32) (s : State) : Out :=
  if (s.fn? fn).isSome then .next (s.writePrtail fn v) else .refused (.cannotOccur "PRTAIL_WRITE")

/-- PRREFUSE: the pending request of the page at `va` ends, and its tags fault with cause ABSENT (R41). -/
def execPrrefuse (fn : Nat) (va : Word) (s : State) : Out :=
  if (s.fn? fn).isSome then .next (s.endPageReq fn va (some Cause.absent.code)) else .refused (.cannotOccur "PRREFUSE")

def State.writeEvtail (s : State) (n : Nat) (v : BitVec 32) : State :=
  (s.modFn n (fun f => { f with ev := { f.ev with tail := v } })).flushEvents n

def execEvtailWrite (fn : Nat) (v : BitVec 32) (s : State) : Out :=
  if (s.fn? fn).isSome then .next (s.writeEvtail fn v) else .refused (.cannotOccur "EVTAIL_WRITE")

/-! ## BAR0 (R363, R364, R371) -/

/-- The mailbox operations of R33, R117, R371 and R372. -/
def mailboxOp (op : Nat) : Bool := (0x10 ≤ op && op ≤ 0x1E) || (0x40 ≤ op && op ≤ 0x46)

/-- A write to MBDOOR submits the block: BUSY, or BADREQ at once for an unknown operation. -/
def State.submit (s : State) (n : Nat) : State :=
  let f := s.fn n
  if f.busy then s
  else if mailboxOp (wfield f.mbox[0] 0 32) then
    { (s.modFn n (fun f => { f with busy := true, arrived := s.fwSeq })) with fwSeq := s.fwSeq + 1 }
  else s.mboxAnswer n 8 0

/-- A ring size: 0 or a power of two from 2 to 65,536. -/
def ringOk (v : Word) : Bool := v == 0 || sizeOk v.toNat

/-- A host write of the register of queue `q` at a byte offset. -/
def State.writeQueueReg (s : State) (n : Nat) (q : Fin 16) (off : Nat) (v : Word) : State :=
  match off with
  | 0x00 => s.modQueue n q (fun x => if x.en then x else { x with base := v })
  | 0x08 => s.modQueue n q (fun x => if x.en then x else { x with size := v })
  | 0x10 => s.doorbell n q (v.setWidth 32)
  | 0x20 => s.writeQctl n q v
  | _ => s

/-- A host write of a BAR0 register; offsets that are not listed, and read-only ones, ignore it.
Log entry 23: DEDUCED. -/
def State.writeReg (s : State) (n : Nat) (off : Nat) (v : Word) : State :=
  if 0x1000 ≤ off && off < 0x1400 then s.writeQueueReg n (Fin.ofNat 16 ((off - 0x1000) / 0x40)) (off % 0x40) v
  else if 0x2000 ≤ off && off < 0x2040 && off % 8 == 0 then
    s.modFn n (fun f => if f.busy then f else { f with mbox := f.mbox.set (Fin.ofNat 8 (off / 8)) v })
  else match off with
  | 0x0010 =>
    if v.toNat % 2 ^ 21 = 0 && v.toNat < 0x00F0000000000000 then s.modFn n (fun f => { f with apbase := v }) else s
  | 0x2040 => s.submit n
  | 0x3000 => if v.toNat % 32 = 0 then (s.modFn n (fun f => { f with pr := { f.pr with base := v } })).flushReqs n else s
  | 0x3008 => if ringOk v then (s.modFn n (fun f => { f with pr := { f.pr with size := v } })).flushReqs n else s
  | 0x3018 => s.writePrtail n (v.setWidth 32)
  | 0x3020 => s.endPageReq n v (some Cause.absent.code)
  | 0x3100 => if v.toNat % 32 = 0 then (s.modFn n (fun f => { f with ev := { f.ev with base := v } })).flushEvents n else s
  | 0x3108 => if ringOk v then (s.modFn n (fun f => { f with ev := { f.ev with size := v } })).flushEvents n else s
  | 0x3118 => s.writeEvtail n (v.setWidth 32)
  | _ => s

/-- REGISTER_WRITE: a host write of 8 bytes in BAR0. -/
def execRegisterWrite (fn : Nat) (off : BitVec 16) (v : Word) (s : State) : Out :=
  if (s.fn? fn).isSome then .next (s.writeReg fn off.toNat v) else .refused (.cannotOccur "REGISTER_WRITE")

/-- A partition and a memory quota are assigned, and the device is not in recovery (R364, R375). -/
def State.fnReady (s : State) (f : Fn) : Bool :=
  f.part != 0 && f.fcount.toList.any (· != 0) && s.fwRuns

/-- Register STATUS (R364). -/
def State.statusReg (s : State) (f : Fn) : Word :=
  let stops := (List.finRange 16).foldl (fun a q => if f.queues[q].stopped then a + 2 ^ (16 + q.val) else a) 0
  BitVec.ofNat 64 (stops + f.dbg.toNat * 8 + f.migrating.toNat * 4 + s.dev.replaceReq.toNat * 2 + (s.fnReady f).toNat)

/-- QCTL and QSTAT as they read (R365). -/
def Queue.ctlReg (x : Queue) : Word := BitVec.ofNat 64 (x.devfed.toNat * 2 + x.en.toNat)
def Queue.statReg (x : Queue) : Word :=
  BitVec.ofNat 64 (x.slot.toNat * 2 ^ 32 + x.code % 256 * 2 ^ 8 + x.stopped.toNat)

def Queue.reg (x : Queue) (off : Nat) : Word :=
  match off with
  | 0x00 => x.base
  | 0x08 => x.size
  | 0x10 => x.tail.setWidth 64
  | 0x18 => x.head.setWidth 64
  | 0x20 => x.ctlReg
  | 0x28 => x.statReg
  | _ => 0

/-- What a host read of a BAR0 register returns (R363). -/
def State.readReg (s : State) (f : Fn) (off : Nat) : Word :=
  if 0x1000 ≤ off && off < 0x1400 then f.queues[Fin.ofNat 16 ((off - 0x1000) / 0x40)].reg (off % 0x40)
  else if 0x2000 ≤ off && off < 0x2040 && off % 8 == 0 then f.mbox[Fin.ofNat 8 (off / 8)]
  else if 0x200 ≤ off && off < 0x2C0 && off % 8 == 0 then
    let st : Fin 12 := Fin.ofNat 12 ((off - 0x200) / 16)
    BitVec.ofNat 64 (if off % 16 = 0 then f.fbase[st] else f.fcount[st])
  else if 0x40 ≤ off && off < 0x60 && off % 8 == 0 then f.peermap.extractLsb' (8 * (off - 0x40)) 64
  else match off with
  | 0x0000 => BitVec.ofNat 64 (0x8416 + f.num * 2 ^ 16 + 0x00010000 * 2 ^ 32)
  | 0x0008 => s.statusReg f
  | 0x0010 => f.apbase
  | 0x0018 => f.gleanage.setWidth 64
  | 0x0020 => f.budget
  | 0x0100 => f.rowstale
  | 0x0108 => f.convs
  | 0x0110 => f.aborts
  | 0x0118 => f.chunks
  | 0x0120 => f.evlost
  | 0x2040 => BitVec.ofNat 64 f.busy.toNat
  | 0x3000 => f.pr.base
  | 0x3008 => f.pr.size
  | 0x3010 => f.pr.head.setWidth 64
  | 0x3018 => f.pr.tail.setWidth 64
  | 0x3100 => f.ev.base
  | 0x3108 => f.ev.size
  | 0x3110 => f.ev.head.setWidth 64
  | 0x3118 => f.ev.tail.setWidth 64
  | _ => 0

end Sys2Proof.Machine
end

