-- ==== Sys2Proof/Machine/Device.lean ====
section
/-! DEFINITION. The device as a whole (R11, R362, R370, R375, R377 to R379): links, boot, reset, failures, function creation, and what an
unassigned encoding does (R191). -/

namespace Sys2Proof.Machine

/-! ## Links (R362, R370) -/

/-- A LINK event for every function that may map the target, and for the physical function. Log entry 30: DEDUCED. -/
def State.linkEvent (s : State) (target : BitVec 8) (up : Bool) : State :=
  (s.fns.filter (fun f => f.num == 0 || f.peermap.getLsbD target.toNat)).foldl (fun s f =>
    s.postEvent f.num ⟨7, up.toNat, target.toNat, 0, 0, 0⟩) s

/-- LINK_DOWN: every link to a target goes down. -/
def execLinkDown (target : BitVec 8) (s : State) : Out :=
  if target = 0 || s.dev.linksDown.contains target then .refused (.cannotOccur "LINK_DOWN")
  else .next ((s.modDev (fun d => { d with linksDown := target :: d.linksDown })).linkEvent target false)

/-- LINK_UP: a link to a target comes up. -/
def execLinkUp (target : BitVec 8) (s : State) : Out :=
  if s.dev.linksDown.contains target then
    .next ((s.modDev (fun d => { d with linksDown := d.linksDown.filter (· != target) })).linkEvent target true)
  else .refused (.cannotOccur "LINK_UP")

/-- HOST_LINK_TRAINING: the host link trains to a PCIe generation of at most 7 and a width of at most 16 lanes. -/
def execHostLinkTraining (gen width : Nat) (s : State) : Out :=
  if 1 ≤ gen && gen ≤ 7 && [1, 2, 4, 8, 16].contains width then
    .next (s.modDev (fun d => { d with hostGen := gen, hostWidth := width }))
  else .refused (.cannotOccur "HOST_LINK_TRAINING")

/-! ## Boot and reset (R29, R68, R375) -/

/-- An image is accepted: its signature verifies, and its version is not below the fused one. -/
def bootImageOk (bytes sig : List Byte) (ver : Nat) : Bool := Config.ed25519Verify bytes sig && Config.fusedVersion ≤ ver

/-- The firmware maps every logical furrow that has no physical one yet: the furrow of the same number, or the field's spare where that one
has failed (R11). Log entry 36: DESIGN CHOICE. -/
def Dev.mapFurrows (d : Dev) : Dev :=
  { d with
    booted := true
    furrowMap := Vector.ofFn (fun i => d.furrowMap[i] <|>
      if d.fencedFurrows.contains (BitVec.ofNat 7 i.val) then none else some (Fin.ofNat 17 (i.val % 16))) }

/-- BOOT: the loader, then the firmware; each accepted image is measured, and a refused one leaves the device in recovery. -/
def execBoot (img : BootImages) (s : State) : Out :=
  if s.dev.booted then .refused (.cannotOccur "BOOT")
  else if !bootImageOk img.loader img.loaderSig img.loaderVer then
    .next (s.modDev (fun d => { d with recovery := true }))
  else
    let s := s.modDev (fun d => { d with measLoader := Config.sha512 img.loader })
    if !bootImageOk img.fw img.fwSig img.fwVer then .next (s.modDev (fun d => { d with recovery := true }))
    else .next (s.modDev (fun d => { d.mapFurrows with measFw := Config.sha512 img.fw, recovery := false }))

/-- How many frames of a stack leave `k` modulo 12. -/
def classFrames (k : Nat) : Nat := (2 ^ 20 + 11 - k) / 12

/-- Frames of a stack that fenced pseudo-channels hold bytes of (R25): those of its twelve classes of 32 channels, the frames of class
`k` being those that leave `k` modulo 12. -/
def goneFrames (fenced : List (Nat × Nat)) (st : Nat) : Nat :=
  (((List.range 12).filter (fun k => fenced.any (fun x => x.1 == st && x.2 / 32 == k))).map classFrames).sum

/-- DEVICE_RESET: everything returns to its reset value; host memory, spares used up, and what comes from outside stay.
Log entry 31: DEDUCED. -/
def execDeviceReset (s : State) : Out :=
  let z := State.reset
  let d := s.dev
  .next { z with
    agenda := s.agenda
    fresh := s.fresh
    ms := { z.ms with
      mem := s.ms.mem.filter (fun c => keyOf (2 ^ 24) 0 ≤ c.1)
      pool := Vector.ofFn (fun i => Config.poolChunks - 16 * goneFrames d.fencedPcs i.val) }
    dev := { z.dev with
      linksDown := d.linksDown, hostGen := d.hostGen, hostWidth := d.hostWidth, furrowMap := d.furrowMap, departures := d.departures, spareFurrow := d.spareFurrow,
      sparePc := d.sparePc, fencedFurrows := d.fencedFurrows, fencedPcs := d.fencedPcs, replaceReq := d.replaceReq } }

/-! ## Errors and failures (R377 to R379) -/

/-- HBM_UNCORRECTABLE_ERROR: the page on the frame is poisoned. -/
def execHbmUncorrectableError (stack : Fin 12) (frame : Nat) (s : State) : Out :=
  if 2 ^ 20 ≤ frame then .refused (.cannotOccur "HBM_UNCORRECTABLE_ERROR")
  else match s.ownerEntry (stack.val * 2 ^ 20 + frame) with
  | some t => .next (s.poisonPage t)
  | none => .next s

/-- The function that owns a furrow. -/
def State.furrowOwner (s : State) (furrow : Nat) : Option Fn := s.fns.find? (fun f => f.hasFurrow furrow)

/-- A partition reset with cause INTEGRITY for an error on a furrow: it names the first hart on the core (or furrow).
Log entry 15: DEDUCED. -/
def State.integrityReset (s : State) (n : Nat) (here : Hart → Bool) (l : HartLoc) : State :=
  match (s.harts.filter (fun h => h.resident && here h)).head? with
  | some h => s.resetPartition n .integrity 0 h.place.loc h.ctl.pc
  | none => s.resetPartition n .integrity 0 l 0

/-- CORE_UNCORRECTABLE_ERROR: an error in a memory of a core. -/
def execCoreUncorrectableError (core : BitVec 10) (s : State) : Out :=
  match s.furrowOwner (core.toNat / 8) with
  | some f => .next (s.integrityReset f.num (fun h => coreOf h.place.loc == core.toNat) (BitVec.ofNat 12 (4 * core.toNat)))
  | none => .next s

/-- FURROW_FAILURE: the owner's partition is reset, then a spare takes the number, or the furrow is fenced off.
Log entry 30: DEDUCED. -/
def execFurrowFailure (furrow : BitVec 7) (s : State) : Out :=
  if s.dev.fencedFurrows.contains furrow then .refused (.cannotOccur "FURROW_FAILURE")
  else
    let u := furrow.toNat
    let field : Fin 8 := Fin.ofNat 8 (u / 16)
    let owner := s.furrowOwner u
    let s := match owner with
      | some f => s.integrityReset f.num (fun h => furrowOf h.place.loc == u) (BitVec.ofNat 12 (32 * u))
      | none => s
    let s' := s.modDev (fun d => { d with replaceReq := true })
    let place := fun (d : Dev) (p : Option (Fin 17)) => { d with furrowMap := Vector.ofFn (fun i => if i.val = u then p else d.furrowMap[i]) }
    if s.dev.spareFurrow[field] then
      .next (s'.modDev (fun d => { place d (some 16) with spareFurrow := d.spareFurrow.set field false }))
    else
      let t := s'.modDev (fun d => { place d none with fencedFurrows := furrow :: d.fencedFurrows })
      match owner with
      | some f =>
        .next ((t.modFn f.num (fun f => { f with part := f.part &&& ~~~(BitVec.twoPow 128 u) })).postEvent f.num
          ⟨5, 1, 0, BitVec.ofNat 64 u, 0, 0⟩)
      | none => .next t

/-- Frames of a function's range on a stack that a fenced pseudo-channel holds bytes of. -/
def Fn.framesGone (f : Fn) (st : Fin 12) (c : Nat) : Nat :=
  ((List.range f.fcount[st]).countP (fun i => (f.fbase[st] + i) % 12 == c / 32))

/-- A pseudo-channel with no spare left: its frames leave the pool, their pages are poisoned, and their owners are told.
Log entry 30: DEDUCED. -/
def State.fencePc (s : State) (st : Fin 12) (c : Nat) : State :=
  let known := s.dev.fencedPcs.any (fun x => x.1 == st.val && x.2 / 32 == c / 32)
  let hit := fun (x : Nat) => x / 2 ^ 20 == st.val && isStackFrame x && x % 2 ^ 20 % 12 == c / 32
  let pages := s.ms.entries.filter (fun t => entV t.e && t.ctx == (s.fn (entOWN t.e)).ctx &&
    (List.range (entFrames t.e)).any (fun i => hit (t.frame0 + i)))
  let owners := s.fns.filter (fun f => f.framesGone st c != 0)
  let mapped := (pages.map (fun t => (List.range (entFrames t.e)).countP (fun i => hit (t.frame0 + i)))).sum
  let s := s.modDev (fun d => { d with fencedPcs := (st.val, c) :: d.fencedPcs })
  let s := if known then s
    else s.modMs (fun ms => { ms with pool := ms.pool.set st (ms.pool[st] - 16 * (classFrames (c / 32) - mapped)) })
  let s := owners.foldl (fun s f => s.postEvent f.num
    ⟨5, 2, 0, BitVec.ofNat 64 st.val, BitVec.ofNat 64 (65536 * f.framesGone st c), 0⟩) s
  pages.foldl State.poisonPage s

/-- PSEUDO_CHANNEL_FAILURE: a spare takes the channel's contents, or the channel is fenced off. -/
def execPseudoChannelFailure (stack : Fin 12) (channel : Fin 384) (s : State) : Out :=
  if s.dev.fencedPcs.contains (stack.val, channel.val) then .refused (.cannotOccur "PSEUDO_CHANNEL_FAILURE")
  else
    let n := s.dev.sparePc[stack]
    if n = 0 then .next (s.fencePc stack channel.val)
    else .next (s.modDev (fun d => { d with sparePc := d.sparePc.set stack (n - 1), replaceReq := d.replaceReq || n == 1 }))

/-- MONITOR_LIMIT: the firmware lowers the clock of a field or a stack. Log entry 30: DEDUCED. -/
def execMonitorLimit (dom : ClockDomain) (s : State) : Out :=
  .next (s.modDev (fun d => { d with lowered := if d.lowered.contains dom then d.lowered else dom :: d.lowered }))

/-! ## Functions (R118, R362, R365) -/

/-- FUNCTION_CREATION: a function of a new number and context, with every register zero. Log entry 28: DEDUCED. -/
def execFunctionCreation (fn : Nat) (ctx : BitVec 16) (s : State) : Out :=
  if !s.fwRuns || 64 < fn || s.fns.any (fun f => f.num == fn || f.ctx == ctx) then .refused (.cannotOccur "FUNCTION_CREATION")
  else .next { s with fns := s.fns ++ [Fn.created fn ctx] }

/-! ## Unassigned encodings (R191, R192) -/

/-- UNASSIGNED_ENCODING: the hart whose turn it is raises ILLEGAL with a subcode, which resets its partition. -/
def execUnassignedEncoding (sub : Subcode) (s : State) : Out :=
  if s.hart.resident then .next (s.deliver (illegal sub)) else .refused (.cannotOccur "UNASSIGNED_ENCODING")

end Sys2Proof.Machine
end

