-- ==== Sys2Proof/Machine/Dispatch.lean ====
section
/-! DEFINITION. The meaning of every instruction and event: one arm for each constructor of `Instr`, one call of its definition. -/

namespace Sys2Proof.Machine

def exec (i : Instr) (s : State) : Host.Outcome State Fault Refusal :=
  match i with
  | .add h d a y => Sys2Proof.Machine.execAdd h d a y s
  | .sub h d a y => Sys2Proof.Machine.execSub h d a y s
  | .and h d a y => Sys2Proof.Machine.execAnd h d a y s
  | .or h d a y => Sys2Proof.Machine.execOr h d a y s
  | .xor h d a y => Sys2Proof.Machine.execXor h d a y s
  | .sll h d a y => Sys2Proof.Machine.execSll h d a y s
  | .srl h d a y => Sys2Proof.Machine.execSrl h d a y s
  | .sra h d a y => Sys2Proof.Machine.execSra h d a y s
  | .mul h d a y => Sys2Proof.Machine.execMul h d a y s
  | .mulh h d a y => Sys2Proof.Machine.execMulh h d a y s
  | .mulhu h d a y => Sys2Proof.Machine.execMulhu h d a y s
  | .div h d a y => Sys2Proof.Machine.execDiv h d a y s
  | .divu h d a y => Sys2Proof.Machine.execDivu h d a y s
  | .rem h d a y => Sys2Proof.Machine.execRem h d a y s
  | .remu h d a y => Sys2Proof.Machine.execRemu h d a y s
  | .min h d a y => Sys2Proof.Machine.execMin h d a y s
  | .max h d a y => Sys2Proof.Machine.execMax h d a y s
  | .minu h d a y => Sys2Proof.Machine.execMinu h d a y s
  | .maxu h d a y => Sys2Proof.Machine.execMaxu h d a y s
  | .clz h d a => Sys2Proof.Machine.execClz h d a s
  | .ctz h d a => Sys2Proof.Machine.execCtz h d a s
  | .popc h d a => Sys2Proof.Machine.execPopc h d a s
  | .addsh h d a b sh => Sys2Proof.Machine.execAddsh h d a b sh s
  | .rot h d a y => Sys2Proof.Machine.execRot h d a y s
  | .ceq h d a y => Sys2Proof.Machine.execCeq h d a y s
  | .cne h d a y => Sys2Proof.Machine.execCne h d a y s
  | .clt h d a y => Sys2Proof.Machine.execClt h d a y s
  | .cltu h d a y => Sys2Proof.Machine.execCltu h d a y s
  | .cge h d a y => Sys2Proof.Machine.execCge h d a y s
  | .cgeu h d a y => Sys2Proof.Machine.execCgeu h d a y s
  | .gand h d a b => Sys2Proof.Machine.execGand h d a b s
  | .gor h d a b => Sys2Proof.Machine.execGor h d a b s
  | .gxor h d a b => Sys2Proof.Machine.execGxor h d a b s
  | .gnot h d a => Sys2Proof.Machine.execGnot h d a s
  | .li h d im => Sys2Proof.Machine.execLi h d im s
  | .mv h d a => Sys2Proof.Machine.execMv h d a s
  | .adr h d im => Sys2Proof.Machine.execAdr h d im s
  | .sel h d a b n => Sys2Proof.Machine.execSel h d a b n s
  | .gget h d => Sys2Proof.Machine.execGget h d s
  | .gput h a => Sys2Proof.Machine.execGput h a s
  | .fadd h d a b => Sys2Proof.Machine.execFadd h d a b s
  | .fsub h d a b => Sys2Proof.Machine.execFsub h d a b s
  | .fmul h d a b => Sys2Proof.Machine.execFmul h d a b s
  | .fdiv h d a b => Sys2Proof.Machine.execFdiv h d a b s
  | .fma h d a b => Sys2Proof.Machine.execFma h d a b s
  | .fmin h d a b => Sys2Proof.Machine.execFmin h d a b s
  | .fmax h d a b => Sys2Proof.Machine.execFmax h d a b s
  | .fsqrt h d a => Sys2Proof.Machine.execFsqrt h d a s
  | .fcvtw h d a => Sys2Proof.Machine.execFcvtw h d a s
  | .fcvtf h d a => Sys2Proof.Machine.execFcvtf h d a s
  | .fclt h d a b => Sys2Proof.Machine.execFclt h d a b s
  | .fceq h d a b => Sys2Proof.Machine.execFceq h d a b s
  | .fcle h d a b => Sys2Proof.Machine.execFcle h d a b s
  | .lb h d a im => Sys2Proof.Machine.execLb h d a im s
  | .lbu h d a im => Sys2Proof.Machine.execLbu h d a im s
  | .lh h d a im => Sys2Proof.Machine.execLh h d a im s
  | .lhu h d a im => Sys2Proof.Machine.execLhu h d a im s
  | .lw h d a im => Sys2Proof.Machine.execLw h d a im s
  | .lwu h d a im => Sys2Proof.Machine.execLwu h d a im s
  | .ld h d a im => Sys2Proof.Machine.execLd h d a im s
  | .ldacq h d a sc => Sys2Proof.Machine.execLdacq h d a sc s
  | .sb h d a im => Sys2Proof.Machine.execSb h d a im s
  | .sh h d a im => Sys2Proof.Machine.execSh h d a im s
  | .sw h d a im => Sys2Proof.Machine.execSw h d a im s
  | .sd h d a im => Sys2Proof.Machine.execSd h d a im s
  | .strel h d a sc => Sys2Proof.Machine.execStrel h d a sc s
  | .amoadd h d a b o => Sys2Proof.Machine.execAmoadd h d a b o s
  | .amoswap h d a b o => Sys2Proof.Machine.execAmoswap h d a b o s
  | .amocas h d a b o => Sys2Proof.Machine.execAmocas h d a b o s
  | .amomin h d a b o => Sys2Proof.Machine.execAmomin h d a b o s
  | .amomax h d a b o => Sys2Proof.Machine.execAmomax h d a b o s
  | .amominu h d a b o => Sys2Proof.Machine.execAmominu h d a b o s
  | .amomaxu h d a b o => Sys2Proof.Machine.execAmomaxu h d a b o s
  | .amoand h d a b o => Sys2Proof.Machine.execAmoand h d a b o s
  | .amoor h d a b o => Sys2Proof.Machine.execAmoor h d a b o s
  | .amoxor h d a b o => Sys2Proof.Machine.execAmoxor h d a b o s
  | .br h im => Sys2Proof.Machine.execBr h im s
  | .jal h im => Sys2Proof.Machine.execJal h im s
  | .jr h a => Sys2Proof.Machine.execJr h a s
  | .jalr h d a => Sys2Proof.Machine.execJalr h d a s
  | .bdec h d im => Sys2Proof.Machine.execBdec h d im s
  | .csrr h d n => Sys2Proof.Machine.execCsrr h d n s
  | .csrw h a n => Sys2Proof.Machine.execCsrw h a n s
  | .csrs h a n => Sys2Proof.Machine.execCsrs h a n s
  | .csrc h a n => Sys2Proof.Machine.execCsrc h a n s
  | .trap h code => Sys2Proof.Machine.execTrap h code s
  | .svc h code => Sys2Proof.Machine.execSvc h code s
  | .ebreak h => Sys2Proof.Machine.execEbreak h s
  | .uret h => Sys2Proof.Machine.execUret h s
  | .halt h => Sys2Proof.Machine.execHalt h s
  | .yield h => Sys2Proof.Machine.execYield h s
  | .icsync h => Sys2Proof.Machine.execIcsync h s
  | .ujmp h a => Sys2Proof.Machine.execUjmp h a s
  | .wfe h d m => Sys2Proof.Machine.execWfe h d m s
  | .launch h a b => Sys2Proof.Machine.execLaunch h a b s
  | .barCrew h id => Sys2Proof.Machine.execBarCrew h id s
  | .barLaunch h id => Sys2Proof.Machine.execBarLaunch h id s
  | .itpost h a c => Sys2Proof.Machine.execItpost h a c s
  | .itwait h a c => Sys2Proof.Machine.execItwait h a c s
  | .fenceSv h sc => Sys2Proof.Machine.execFenceSv h sc s
  | .fenceVs h sc => Sys2Proof.Machine.execFenceVs h sc s
  | .fenceVv h sc => Sys2Proof.Machine.execFenceVv h sc s
  | .fenceAll h sc => Sys2Proof.Machine.execFenceAll h sc s
  | .fencerec h a b => Sys2Proof.Machine.execFencerec h a b s
  | .vadd h d a b m => Sys2Proof.Machine.execVadd h d a b m s
  | .vsub h d a b m => Sys2Proof.Machine.execVsub h d a b m s
  | .vrsub h d a b m => Sys2Proof.Machine.execVrsub h d a b m s
  | .vand h d a b m => Sys2Proof.Machine.execVand h d a b m s
  | .vor h d a b m => Sys2Proof.Machine.execVor h d a b m s
  | .vxor h d a b m => Sys2Proof.Machine.execVxor h d a b m s
  | .vsll h d a b m => Sys2Proof.Machine.execVsll h d a b m s
  | .vsrl h d a b m => Sys2Proof.Machine.execVsrl h d a b m s
  | .vsra h d a b m => Sys2Proof.Machine.execVsra h d a b m s
  | .vmul h d a b m => Sys2Proof.Machine.execVmul h d a b m s
  | .vmulh h d a b m => Sys2Proof.Machine.execVmulh h d a b m s
  | .vmulhu h d a b m => Sys2Proof.Machine.execVmulhu h d a b m s
  | .vdiv h d a b m => Sys2Proof.Machine.execVdiv h d a b m s
  | .vdivu h d a b m => Sys2Proof.Machine.execVdivu h d a b m s
  | .vrem h d a b m => Sys2Proof.Machine.execVrem h d a b m s
  | .vremu h d a b m => Sys2Proof.Machine.execVremu h d a b m s
  | .vmin h d a b m => Sys2Proof.Machine.execVmin h d a b m s
  | .vmax h d a b m => Sys2Proof.Machine.execVmax h d a b m s
  | .vminu h d a b m => Sys2Proof.Machine.execVminu h d a b m s
  | .vmaxu h d a b m => Sys2Proof.Machine.execVmaxu h d a b m s
  | .vsadd h d a b m => Sys2Proof.Machine.execVsadd h d a b m s
  | .vsaddu h d a b m => Sys2Proof.Machine.execVsaddu h d a b m s
  | .vssub h d a b m => Sys2Proof.Machine.execVssub h d a b m s
  | .vssubu h d a b m => Sys2Proof.Machine.execVssubu h d a b m s
  | .vabs h d a m => Sys2Proof.Machine.execVabs h d a m s
  | .vmv h d b m => Sys2Proof.Machine.execVmv h d b m s
  | .vmerge h d a b m => Sys2Proof.Machine.execVmerge h d a b m s
  | .vid h d m => Sys2Proof.Machine.execVid h d m s
  | .vseq h d a b m => Sys2Proof.Machine.execVseq h d a b m s
  | .vsne h d a b m => Sys2Proof.Machine.execVsne h d a b m s
  | .vslt h d a b m => Sys2Proof.Machine.execVslt h d a b m s
  | .vsltu h d a b m => Sys2Proof.Machine.execVsltu h d a b m s
  | .vsle h d a b m => Sys2Proof.Machine.execVsle h d a b m s
  | .vsleu h d a b m => Sys2Proof.Machine.execVsleu h d a b m s
  | .vsgt h d a b m => Sys2Proof.Machine.execVsgt h d a b m s
  | .vsgtu h d a b m => Sys2Proof.Machine.execVsgtu h d a b m s
  | .vfadd h d a b m => Sys2Proof.Machine.execVfadd h d a b m s
  | .vfsub h d a b m => Sys2Proof.Machine.execVfsub h d a b m s
  | .vfrsub h d a b m => Sys2Proof.Machine.execVfrsub h d a b m s
  | .vfmul h d a b m => Sys2Proof.Machine.execVfmul h d a b m s
  | .vfdiv h d a b m => Sys2Proof.Machine.execVfdiv h d a b m s
  | .vfrdiv h d a b m => Sys2Proof.Machine.execVfrdiv h d a b m s
  | .vfsqrt h d a m => Sys2Proof.Machine.execVfsqrt h d a m s
  | .vfrsqrt h d a m => Sys2Proof.Machine.execVfrsqrt h d a m s
  | .vfrcpz h d a m => Sys2Proof.Machine.execVfrcpz h d a m s
  | .vfma h d a b m => Sys2Proof.Machine.execVfma h d a b m s
  | .vfms h d a b m => Sys2Proof.Machine.execVfms h d a b m s
  | .vfnma h d a b m => Sys2Proof.Machine.execVfnma h d a b m s
  | .vfnms h d a b m => Sys2Proof.Machine.execVfnms h d a b m s
  | .vfmin h d a b m => Sys2Proof.Machine.execVfmin h d a b m s
  | .vfmax h d a b m => Sys2Proof.Machine.execVfmax h d a b m s
  | .vfabs h d a m => Sys2Proof.Machine.execVfabs h d a m s
  | .vfneg h d a m => Sys2Proof.Machine.execVfneg h d a m s
  | .vfsgnj h d a b m => Sys2Proof.Machine.execVfsgnj h d a b m s
  | .vfexp2 h d a m => Sys2Proof.Machine.execVfexp2 h d a m s
  | .vflog2 h d a m => Sys2Proof.Machine.execVflog2 h d a m s
  | .vfscale h d a b m => Sys2Proof.Machine.execVfscale h d a b m s
  | .vfclass h d a m => Sys2Proof.Machine.execVfclass h d a m s
  | .vfround h d a m => Sys2Proof.Machine.execVfround h d a m s
  | .vfeq h d a b m => Sys2Proof.Machine.execVfeq h d a b m s
  | .vfne h d a b m => Sys2Proof.Machine.execVfne h d a b m s
  | .vflt h d a b m => Sys2Proof.Machine.execVflt h d a b m s
  | .vfle h d a b m => Sys2Proof.Machine.execVfle h d a b m s
  | .vfgt h d a b m => Sys2Proof.Machine.execVfgt h d a b m s
  | .vfge h d a b m => Sys2Proof.Machine.execVfge h d a b m s
  | .vfuno h d a b m => Sys2Proof.Machine.execVfuno h d a b m s
  | .kand h d a b => Sys2Proof.Machine.execKand h d a b s
  | .kor h d a b => Sys2Proof.Machine.execKor h d a b s
  | .kxor h d a b => Sys2Proof.Machine.execKxor h d a b s
  | .kandn h d a b => Sys2Proof.Machine.execKandn h d a b s
  | .knot h d a => Sys2Proof.Machine.execKnot h d a s
  | .kpop h d a => Sys2Proof.Machine.execKpop h d a s
  | .kfirst h d a => Sys2Proof.Machine.execKfirst h d a s
  | .kset h d a => Sys2Proof.Machine.execKset h d a s
  | .kmvToMask h d a => Sys2Proof.Machine.execKmvToMask h d a s
  | .kmvToVector h d a => Sys2Proof.Machine.execKmvToVector h d a s
  | .kall h d => Sys2Proof.Machine.execKall h d s
  | .vslideup h d a n m => Sys2Proof.Machine.execVslideup h d a n m s
  | .vslidedown h d a n m => Sys2Proof.Machine.execVslidedown h d a n m s
  | .vbcast h d a n m => Sys2Proof.Machine.execVbcast h d a n m s
  | .vcompress h d a b => Sys2Proof.Machine.execVcompress h d a b s
  | .vexpand h d a b => Sys2Proof.Machine.execVexpand h d a b s
  | .vext h d a n => Sys2Proof.Machine.execVext h d a n s
  | .vins h d a n => Sys2Proof.Machine.execVins h d a n s
  | .vscanadd h d a m => Sys2Proof.Machine.execVscanadd h d a m s
  | .vscanmax h d a m => Sys2Proof.Machine.execVscanmax h d a m s
  | .vscanmin h d a m => Sys2Proof.Machine.execVscanmin h d a m s
  | .vscanmul h d a m => Sys2Proof.Machine.execVscanmul h d a m s
  | .vrecur h d a b => Sys2Proof.Machine.execVrecur h d a b s
  | .vredsum h d a m => Sys2Proof.Machine.execVredsum h d a m s
  | .vredmax h d a m => Sys2Proof.Machine.execVredmax h d a m s
  | .vredmin h d a m => Sys2Proof.Machine.execVredmin h d a m s
  | .vredand h d a m => Sys2Proof.Machine.execVredand h d a m s
  | .vredor h d a m => Sys2Proof.Machine.execVredor h d a m s
  | .vredxor h d a m => Sys2Proof.Machine.execVredxor h d a m s
  | .vfredsum h d a m => Sys2Proof.Machine.execVfredsum h d a m s
  | .vfredosum h d a m => Sys2Proof.Machine.execVfredosum h d a m s
  | .vfredmax h d a m => Sys2Proof.Machine.execVfredmax h d a m s
  | .vfredmin h d a m => Sys2Proof.Machine.execVfredmin h d a m s
  | .vset h d a t => Sys2Proof.Machine.execVset h d a t s
  | .vsetrun h d a b lg => Sys2Proof.Machine.execVsetrun h d a b lg s
  | .mcfg h a => Sys2Proof.Machine.execMcfg h a s
  | .qtld h d a => Sys2Proof.Machine.execQtld h d a s
  | .scmvToScale h d a => Sys2Proof.Machine.execScmvToScale h d a s
  | .scmvFromScale h d a => Sys2Proof.Machine.execScmvFromScale h d a s
  | .vcvth h d a m f sat => Sys2Proof.Machine.execVcvth h d a m f sat s
  | .vcvtd h d a m f => Sys2Proof.Machine.execVcvtd h d a m f s
  | .vcvtq h d a b m q4 qt => Sys2Proof.Machine.execVcvtq h d a b m q4 qt s
  | .vcvti h d a m dir => Sys2Proof.Machine.execVcvti h d a m dir s
  | .vld h d a im sc m fk => Sys2Proof.Machine.execVld h d a im sc m fk s
  | .vlds h d a b m fk => Sys2Proof.Machine.execVlds h d a b m fk s
  | .vldrow h d a m fk => Sys2Proof.Machine.execVldrow h d a m fk s
  | .vldl h d a im m => Sys2Proof.Machine.execVldl h d a im m s
  | .vldfm h d a m => Sys2Proof.Machine.execVldfm h d a m s
  | .vst h d a im sc m => Sys2Proof.Machine.execVst h d a im sc m s
  | .vsts h d a b m => Sys2Proof.Machine.execVsts h d a b m s
  | .vstl h d a im m => Sys2Proof.Machine.execVstl h d a im m s
  | .cpy h d a b tag => Sys2Proof.Machine.execCpy h d a b tag s
  | .cpy2 h d a b tag => Sys2Proof.Machine.execCpy2 h d a b tag s
  | .cpres h tag => Sys2Proof.Machine.execCpres h tag s
  | .pgreq h a tag => Sys2Proof.Machine.execPgreq h a tag s
  | .twany h d a => Sys2Proof.Machine.execTwany h d a s
  | .twall h a => Sys2Proof.Machine.execTwall h a s
  | .tffr h d a => Sys2Proof.Machine.execTffr h d a s
  | .tclr h a => Sys2Proof.Machine.execTclr h a s
  | .stlook h d a => Sys2Proof.Machine.execStlook h d a s
  | .stset h a b => Sys2Proof.Machine.execStset h a b s
  | .stinv h a => Sys2Proof.Machine.execStinv h a s
  | .vramo h a b m sc rl => Sys2Proof.Machine.execVramo h a b m sc rl s
  | .vrred h a b m sc => Sys2Proof.Machine.execVrred h a b m sc s
  | .mqpush h a b => Sys2Proof.Machine.execMqpush h a b s
  | .mqpop h d => Sys2Proof.Machine.execMqpop h d s
  | .mqcred h d a => Sys2Proof.Machine.execMqcred h d a s
  | .gcsleep h d a b m sc aq allm => Sys2Proof.Machine.execGcsleep h d a b m sc aq allm s
  | .plan h d a b fk => Sys2Proof.Machine.execPlan h d a b fk s
  | .planm h d a b => Sys2Proof.Machine.execPlanm h d a b s
  | .plgat h d a b m fk p chk => Sys2Proof.Machine.execPlgat h d a b m fk p chk s
  | .plcpy h d a b m fk p chk tag => Sys2Proof.Machine.execPlcpy h d a b m fk p chk tag s
  | .plgatv h d a m p => Sys2Proof.Machine.execPlgatv h d a m p s
  | .plscatAdd h d a b m p chk => Sys2Proof.Machine.execPlscatAdd h d a b m p chk s
  | .plscatMin h d a b m p chk => Sys2Proof.Machine.execPlscatMin h d a b m p chk s
  | .plscatMax h d a b m p chk => Sys2Proof.Machine.execPlscatMax h d a b m p chk s
  | .plscatFirst h d a b m p chk => Sys2Proof.Machine.execPlscatFirst h d a b m p chk s
  | .plscatLast h d a b m p chk => Sys2Proof.Machine.execPlscatLast h d a b m p chk s
  | .plscatAmoadd h d a b m p chk => Sys2Proof.Machine.execPlscatAmoadd h d a b m p chk s
  | .plredAdd h d a m p => Sys2Proof.Machine.execPlredAdd h d a m p s
  | .plredMin h d a m p => Sys2Proof.Machine.execPlredMin h d a m p s
  | .plredMax h d a m p => Sys2Proof.Machine.execPlredMax h d a m p s
  | .plbcast h d a p => Sys2Proof.Machine.execPlbcast h d a p s
  | .plcomp h d a b => Sys2Proof.Machine.execPlcomp h d a b s
  | .plinfo h d a sel => Sys2Proof.Machine.execPlinfo h d a sel s
  | .plchk h d a => Sys2Proof.Machine.execPlchk h d a s
  | .plsave h a b => Sys2Proof.Machine.execPlsave h a b s
  | .plload h d a => Sys2Proof.Machine.execPlload h d a s
  | .plfree h d => Sys2Proof.Machine.execPlfree h d s
  | .opa h d a b m fa fb qt => Sys2Proof.Machine.execOpa h d a b m fa fb qt s
  | .opa2 h d a b m fa fb qt => Sys2Proof.Machine.execOpa2 h d a b m fa fb qt s
  | .opamx h d a b m fa fb sa sb => Sys2Proof.Machine.execOpamx h d a b m fa fb sa sb s
  | .tzero h d int => Sys2Proof.Machine.execTzero h d int s
  | .tld h d a b m => Sys2Proof.Machine.execTld h d a b m s
  | .tst h d a b m tr => Sys2Proof.Machine.execTst h d a b m tr s
  | .clcfg h a b => Sys2Proof.Machine.execClcfg h a b s
  | .clins h d a b m fk => Sys2Proof.Machine.execClins h d a b m fk s
  | .clmrg h d => Sys2Proof.Machine.execClmrg h d s
  | .clrd h d a fld => Sys2Proof.Machine.execClrd h d a fld s
  | .clclr h => Sys2Proof.Machine.execClclr h s
  | .clstat h d sel => Sys2Proof.Machine.execClstat h d sel s
  | .pairWord a b => Sys2Proof.Machine.execPairWord a b s
  | .pnop => Sys2Proof.Machine.execPnop s
  | .brg g off => Sys2Proof.Machine.execBrg g off s
  | .rep p f lit => Sys2Proof.Machine.execRep p f lit s
  | .instructionFetch => Sys2Proof.Machine.execInstructionFetch s
  | .trapDelivery t => Sys2Proof.Machine.execTrapDelivery t s
  | .storeAtTarget loc => Sys2Proof.Machine.execStoreAtTarget loc s
  | .writeUnitPerform u => Sys2Proof.Machine.execWriteUnitPerform u s
  | .mergingAddArrival c => Sys2Proof.Machine.execMergingAddArrival c s
  | .writeQueueApply n => Sys2Proof.Machine.execWriteQueueApply n s
  | .copyChunk loc tag => Sys2Proof.Machine.execCopyChunk loc tag s
  | .copyComplete loc tag => Sys2Proof.Machine.execCopyComplete loc tag s
  | .messageDelivery dst msg => Sys2Proof.Machine.execMessageDelivery dst msg s
  | .creditGrant dst => Sys2Proof.Machine.execCreditGrant dst s
  | .gcsleepReevaluation loc => Sys2Proof.Machine.execGcsleepReevaluation loc s
  | .recordCheck fn q => Sys2Proof.Machine.execRecordCheck fn q s
  | .dependenceRead fn q => Sys2Proof.Machine.execDependenceRead fn q s
  | .crewPlacement fn => Sys2Proof.Machine.execCrewPlacement fn s
  | .preemption launch crew => Sys2Proof.Machine.execPreemption launch crew s
  | .resumption launch crew => Sys2Proof.Machine.execResumption launch crew s
  | .budgetExpiry launch crew => Sys2Proof.Machine.execBudgetExpiry launch crew s
  | .gleanSweep stack => Sys2Proof.Machine.execGleanSweep stack s
  | .conversionCommit frame => Sys2Proof.Machine.execConversionCommit frame s
  | .version h => Sys2Proof.Machine.execVersion h s
  | .svcPartition h => Sys2Proof.Machine.execSvcPartition h s
  | .frames h => Sys2Proof.Machine.execFrames h s
  | .mapPages v => Sys2Proof.Machine.execMapPages v s
  | .unmapPages v => Sys2Proof.Machine.execUnmapPages v s
  | .protectPages v => Sys2Proof.Machine.execProtectPages v s
  | .offerPages v => Sys2Proof.Machine.execOfferPages v s
  | .acceptPages v => Sys2Proof.Machine.execAcceptPages v s
  | .thawPages v => Sys2Proof.Machine.execThawPages v s
  | .exportPages fn => Sys2Proof.Machine.execExportPages fn s
  | .importPages fn => Sys2Proof.Machine.execImportPages fn s
  | .attest fn => Sys2Proof.Machine.execAttest fn s
  | .partition fn => Sys2Proof.Machine.execPartition fn s
  | .quota fn => Sys2Proof.Machine.execQuota fn s
  | .weight fn => Sys2Proof.Machine.execWeight fn s
  | .setglean fn => Sys2Proof.Machine.execSetglean fn s
  | .setbudget fn => Sys2Proof.Machine.execSetbudget fn s
  | .peerset fn => Sys2Proof.Machine.execPeerset fn s
  | .migrate fn => Sys2Proof.Machine.execMigrate fn s
  | .migrationQuiesce fn => Sys2Proof.Machine.execMigrationQuiesce fn s
  | .dbgattach fn => Sys2Proof.Machine.execDbgattach fn s
  | .dbgdetach fn => Sys2Proof.Machine.execDbgdetach fn s
  | .dbgstop fn => Sys2Proof.Machine.execDbgstop fn s
  | .dbgresume fn => Sys2Proof.Machine.execDbgresume fn s
  | .dbgretire fn => Sys2Proof.Machine.execDbgretire fn s
  | .dbgread fn => Sys2Proof.Machine.execDbgread fn s
  | .hostRead fn off len => Sys2Proof.Machine.execHostRead fn off len s
  | .hostWrite fn off bytes => Sys2Proof.Machine.execHostWrite fn off bytes s
  | .peerAccess target fn req => Sys2Proof.Machine.execPeerAccess target fn req s
  | .qtailDoorbell fn q t => Sys2Proof.Machine.execQtailDoorbell fn q t s
  | .queueEnable fn q => Sys2Proof.Machine.execQueueEnable fn q s
  | .queueDisable fn q => Sys2Proof.Machine.execQueueDisable fn q s
  | .restart fn q => Sys2Proof.Machine.execRestart fn q s
  | .skip fn q => Sys2Proof.Machine.execSkip fn q s
  | .prtailWrite fn v => Sys2Proof.Machine.execPrtailWrite fn v s
  | .prrefuse fn va => Sys2Proof.Machine.execPrrefuse fn va s
  | .evtailWrite fn v => Sys2Proof.Machine.execEvtailWrite fn v s
  | .registerWrite fn off v => Sys2Proof.Machine.execRegisterWrite fn off v s
  | .linkDown target => Sys2Proof.Machine.execLinkDown target s
  | .linkUp target => Sys2Proof.Machine.execLinkUp target s
  | .hostLinkTraining gen width => Sys2Proof.Machine.execHostLinkTraining gen width s
  | .boot img => Sys2Proof.Machine.execBoot img s
  | .deviceReset => Sys2Proof.Machine.execDeviceReset s
  | .hbmUncorrectableError stack frame => Sys2Proof.Machine.execHbmUncorrectableError stack frame s
  | .coreUncorrectableError core => Sys2Proof.Machine.execCoreUncorrectableError core s
  | .furrowFailure furrow => Sys2Proof.Machine.execFurrowFailure furrow s
  | .pseudoChannelFailure stack channel => Sys2Proof.Machine.execPseudoChannelFailure stack channel s
  | .monitorLimit dom => Sys2Proof.Machine.execMonitorLimit dom s
  | .functionCreation fn ctx => Sys2Proof.Machine.execFunctionCreation fn ctx s
  | .unassignedEncoding sub => Sys2Proof.Machine.execUnassignedEncoding sub s

end Sys2Proof.Machine
end

