-- ==== Sys2Proof/Machine/Seq.lean ====
section
/-! DEFINITION. The sequencer (R156): which instructions hold an entry of the core's window, when the next element groups of an entry may
be performed (R174), what a turn of the lanes does, and the traps that older instructions hold back (R324). -/

namespace Sys2Proof

/-! ## Classes of instructions -/

/-- What an instruction needs of its hart's older instructions that are still in flight: nothing, a place behind them in the window, or
that they have completed. Log entry 40: DESIGN CHOICE. -/
inductive SeqClass
  | passes | holds | drains
deriving DecidableEq, Repr

/-- The fields that name x registers do not name x30, whose read is a pop. -/
noncomputable def FWord.popless (f : FWord) : Bool :=
  match shapeOf f with
  | .error _ => false
  | .ok sh => match sh.form? f with
    | none => false
    | some r => !((r.d == .x && f.d == 30) || (r.a == .x && f.a == 30) || (r.b == .x && f.b == 30))

/-- The vector instructions that the model keeps in the window: element-wise ones, loads and stores, PLGAT, outer products, TLD, TST
and CLINS. Log entry 40: DESIGN CHOICE. -/
def FWord.windowed (f : FWord) : Bool :=
  match f.opc with
  | 0x20 => true
  | 0x21 => true
  | 0x30 => true
  | 0x31 => true
  | 0x38 => f.fn != 5 && f.fn != 6
  | 0x39 => f.fn == 0 || f.fn == 1 || f.fn == 4
  | 0x50 => true
  | 0x51 => true
  | 0x68 => f.fn == 2
  | 0x70 => f.fn != 3
  | 0x78 => f.fn == 1
  | _ => false

/-- Scalar instructions that complete at issue, scalar loads, branches, VSET and VSETRUN issue past older instructions in flight.
Log entry 40: DESIGN CHOICE. -/
def FWord.passing (f : FWord) : Bool :=
  f.opc ≤ 0x03 || f.opc == 0x08 || f.opc == 0x10 || (f.opc == 0x48 && f.fn ≤ 1)

/-- The flag mask of the word is not its operation mask as well, which a turn of the lanes would change for the next one. -/
def FWord.flagsApart (f : FWord) : Bool := f.fk = 0 || f.fk != f.m

/-- The F-word of an instruction; none for a pair word and for a step that no word encodes. -/
def fwordOf (i : Instr) : Option FWord :=
  match encode i with
  | w :: _ => if bitsOf w 62 2 = 0 then some (FWord.ofWord w) else none
  | [] => none

/-- The literal of an instruction that has one. -/
def literalOf (i : Instr) : Option (BitVec 62) := literal (encode i)[1]?

def isRep : Instr → Bool
  | .rep _ _ _ => true
  | _ => false

/-- The slots of a pair word. -/
def slotsOf : Instr → Option (Slot × Slot)
  | .pairWord a b => some (a, b)
  | .pnop => some (.pnop, .pnop)
  | .brg g o => some (.pnop, .brg g o)
  | _ => none

/-- The pair word with those of its slots alone that a test takes; pnop stands for the others. -/
noncomputable def keepSlots (p : Bool → Slot → Bool) (i : Instr) : Instr :=
  match i with
  | .pairWord a b => .pairWord (if p false a then a else .pnop) (if p true b then b else .pnop)
  | _ => i

/-- How many vector slots a pair word has. -/
def vectorSlots (i : Instr) : Nat :=
  match slotsOf i with
  | some (a, b) => a.isVector.toNat + b.isVector.toNat
  | none => 0

/-- Log entry 40: DESIGN CHOICE. -/
noncomputable def seqClass (i : Instr) : SeqClass :=
  match fwordOf i with
  | some f => if f.passing then .passes else if f.windowed && f.popless then .holds else .drains
  | none =>
    if vectorSlots i != 0 then .holds else if isRep i || (slotsOf i).isSome then .passes else .drains

/-- The instruction issues through the sequencer, so it needs a free entry (R156, R263). -/
def FWord.sequenced (f : FWord) : Bool := 0x20 ≤ f.opc && f.opc != 0x53 && f.opc != 0x54

/-- The sequencer entries that an instruction takes: one for each vector slot of a pair word (R184). -/
def entriesOf (i : Instr) : Nat :=
  match fwordOf i with
  | some f => f.sequenced.toNat
  | none => vectorSlots i

/-- The start index of the instruction counts units (R325); it counts nothing of a scalar one. -/
def countsUnits (i : Instr) : Bool :=
  match fwordOf i with
  | some f => f.countsUnits
  | none => (slotsOf i).isNone || vectorSlots i != 0

end Sys2Proof

namespace Sys2Proof.Machine

/-! ## Element groups (R156, R227, R302) -/

/-- The instruction of an entry. -/
def SeqEntry.word (e : SeqEntry) : FWord := (fwordOf e.instr).getD {}

/-- The state in which the entry's instruction reads what it captured. -/
def State.withCap (s : State) (e : SeqEntry) : State := s.modCtl (fun c => { c with resume := some e.fl.cap })

/-- The units that an entry has (R325): rank-1 steps, items, else elements. -/
def State.unitsOf (s : State) (e : SeqEntry) : Nat :=
  if e.word.opc = 0x70 && e.word.fn ≤ 2 then mcfgSteps e.fl.cap.mcfg
  else if e.word.opc = 0x78 then (s.withCap e).itemCount
  else e.fl.cap.vl

/-- The register group at `n` shares no register with the destination's. -/
def SeqEntry.apart (e : SeqEntry) (n : Nat) : Bool :=
  !groupsMeet (vnum e.word.d) e.fl.cap.vtype.size (vnum n) e.fl.cap.vtype.size

/-- The units of one element group of an entry; none for an entry that the model completes in one turn.
Log entry 40: DESIGN CHOICE. -/
def SeqEntry.group (e : SeqEntry) : Option Nat :=
  let f := e.word
  let n := perGroup e.fl.cap.vtype.fmt.width
  if (slotsOf e.instr).isSome then some n else match f.opc with
  | 0x20 => some n
  | 0x21 => some n
  | 0x30 => some n
  | 0x31 => some n
  | 0x50 => if (f.fn = 0 && (scOf f.b).isNone) || f.fn = 3 || f.fn = 4 then some n else none
  | 0x51 => if (f.fn = 0 && (scOf f.b).isNone) || f.fn = 2 then some n else none
  | 0x68 => if f.flagsApart then some n else none
  | 0x70 => if f.fn = 0 then some 1 else if f.fn = 1 then some 2 else if f.fn = 2 then some 32 else some n
  | 0x78 => if f.flagsApart && e.apart f.a && e.apart f.b then some 1 else none
  | _ => none

/-- The first address of a contiguous load or store and its step in bits. -/
def State.entryBase (s : State) (e : SeqEntry) : Option (Word × Nat) :=
  let f := e.word
  let u := s.withCap e
  let w := e.fl.cap.vtype.fmt.width
  let a := u.x (fldN 32 f.a) + (if (f.opc = 0x50 && f.fn = 4) then 0 else (f.immv (literalOf e.instr)).sval)
  if (f.opc = 0x50 && (f.fn = 0 || f.fn = 3 || f.fn = 4)) || (f.opc = 0x51 && (f.fn = 0 || f.fn = 2)) then
    some (a, s.stepBits a w)
  else none

/-- A gather may stop before element `n`: there a position begins, or an aligned 32-byte group of its granule (R121).
Log entry 40: DESIGN CHOICE. -/
def State.gatherStops (s : State) (e : SeqEntry) (n : Nat) : Bool :=
  let u := s.withCap e
  match u.hart.regs.pl[Fin.ofNat 16 (e.word.imm % 16)] with
  | none => true
  | some r =>
    let p := u.planAt r
    match planGeo u p (u.x (fldN 32 e.word.a)) (u.x (fldN 32 e.word.b)).toNat with
    | none => true
    | some g => n % g.r == 0 || match g.slot p n with
      | none => true
      | some sl => let (x, nib) := g.addr p sl n; nib == 0 && x.toNat % 32 == 0

/-- An entry may stop before unit `n`: for a load or store, where its address begins an aligned 32-byte group on a page without blocks,
so that no unit of R121 is split. Log entry 40: DESIGN CHOICE. -/
def State.mayStop (s : State) (e : SeqEntry) (n : Nat) : Bool :=
  if e.word.opc = 0x68 then s.gatherStops e n else match s.entryBase e with
  | none => true
  | some (a, sb) =>
    let (x, nib) := eltAddr a 1 sb n
    nib == 0 && x.toNat % 32 == 0 && !((classOf x).isVirt && 6 ≤ entFMT (s.entryAt s.ctx x))

/-- Where an entry stands after `n` more element groups; none when it has completed. -/
def State.stopAfter (s : State) (e : SeqEntry) (n : Nat) : Option Nat :=
  match e.group with
  | none => none
  | some g =>
    let stop := (e.fl.cap.start / g + n) * g
    if stop < s.unitsOf e && s.mayStop e stop then some stop else none

/-! ## Chaining (R174) -/

/-- Registers that an entry uses: their class, the first and how many, whether the use follows its producer group by group, and whether
it writes them. -/
structure RegUse where
  cls   : FClass
  base  : Nat
  n     : Nat
  chain : Bool
  write : Bool
deriving DecidableEq, Repr

def regUse (size : Nat) (c : FClass) (n : Nat) (chain write : Bool) : List RegUse :=
  match c with
  | .none => []
  | .x => []
  | .g => []
  | .v => [⟨.v, n, size, chain, write⟩]
  | .sc => match scOf n with
    | some q => [⟨.s, q.val, 1, false, write⟩]
    | none => []
  | .k => [⟨.k, n, 1, chain, write⟩]
  | .s => [⟨.s, n, 1, false, write⟩]
  | .q => [⟨.q, n, 1, false, write⟩]
  | .p => [⟨.p, n, 1, false, write⟩]
  | .t => [⟨.t, n, 1, false, write⟩]

/-- The uses of a slot of a pair word: its destination and its vector source follow group by group. -/
def slotUses (size : Nat) (p : Slot) : List RegUse :=
  (slotDests p).map (fun r => ⟨.v, r.val, size, true, true⟩) ++ (slotSrcs p).map (fun r => ⟨.v, r.val, size, true, false⟩)

/-- The uses of an entry. Its destination, the register that a store reads and its operation mask follow group by group (R229); sources do
under their chain bits. -/
noncomputable def SeqEntry.uses (e : SeqEntry) : List RegUse :=
  let f := e.word
  let size := e.fl.cap.vtype.size
  let grouped := e.group.isSome
  match slotsOf e.instr with
  | some (a, b) => slotUses size a ++ slotUses size b
  | none => match shapeOf f with
  | .error _ => []
  | .ok sh => match sh.form? f with
    | none => []
    | some r =>
      regUse size r.d f.d grouped (f.opc != 0x51) ++ regUse size r.a f.a (f.ca && grouped) false ++
        regUse size r.b f.b (f.cb && grouped) (f.opc == 0x50) ++
        (if f.m = 0 then [] else [⟨.k, f.m, 1, grouped, false⟩]) ++ (if f.fk = 0 then [] else [⟨.k, f.fk, 1, grouped, true⟩])

/-- The entry has operands that only complete results serve: it waits for every older entry of its hart, and every younger one for it. -/
def SeqEntry.alone (e : SeqEntry) : Bool := e.word.opc == 0x68 || e.word.opc == 0x70 || e.word.opc == 0x78

/-- A use of a younger entry, up to unit `stop`, does not have to wait for a use of an older one. -/
def useClear (p e : SeqEntry) (x y : RegUse) (stop : Nat) : Bool :=
  let met := x.cls == y.cls && x.base < y.base + y.n && y.base < x.base + x.n
  !met || (!x.write && !y.write) ||
    y.chain && p.group.isSome && x.base == y.base && x.n == y.n &&
      (if x.cls == .v then stop * e.fl.cap.vtype.fmt.width ≤ p.fl.cap.start * p.fl.cap.vtype.fmt.width
       else stop ≤ p.fl.cap.start)

/-- The V accesses of two entries keep their order, loads as well as stores: their bytes may meet (R125).
Log entry 8: DEDUCED. -/
def State.memoryClash (s : State) (p e : SeqEntry) : Bool :=
  let mem := fun (q : SeqEntry) => q.word.opc == 0x50 || q.word.opc == 0x51
  mem p && mem e &&
    match s.entryBase p, s.entryBase e with
    | some (a, x), some (b, y) =>
      (accessSpan a 1 x p.fl.cap.vl).any (fun u => (accessSpan b 1 y e.fl.cap.vl).any (spansMeet s.loc 64 u))
    | _, _ => true

/-- The element groups of an entry up to unit `stop` have their operands, as far as the older entry `p` of its hart goes. -/
noncomputable def State.clearOf (s : State) (p e : SeqEntry) (stop : Nat) : Bool :=
  !p.alone && !e.alone && !s.memoryClash p e && p.uses.all (fun x => e.uses.all (fun y => useClear p e x y stop))

/-! ## A turn of the lanes -/

/-- The instruction of an entry or a record executes beside its hart's pc: these stand for it while it does, and `c` is where the hart
goes on. -/
def State.standAside (s : State) (fl : Flight) (c : Cont) (young : List SeqEntry) (later : List Flight) : State :=
  (s.modCsr (fun x => { x with rpc := match fl.iter with
    | some (_, j) => BitVec.ofNat 64 j
    | none => x.rpc })).modCtl (fun t => { t with
      pc := fl.pc
      rep := fl.iter.map Prod.fst
      resume := some fl.cap
      window := young
      reissue := later
      aside := some (fl, c) })

/-- A trap has been taken between two states: the hart is in its handler now, or no longer there. -/
def trapped (s t : State) : Bool :=
  t.hart.dest != s.hart.dest || !t.hart.live || (t.hart.ctl.inHandler && !s.hart.ctl.inHandler)

/-- The trap record of an entry that trapped within a turn holds what the entry captured, not where the turn was to end. -/
def State.wholeCap (t : State) (v : Resume) : State :=
  t.modCtl (fun c => { c with trapRec := c.trapRec.map (fun r =>
    { r with cap := r.cap.map (fun x => { x with vl := v.vl, upto := v.upto }) }) })

/-- The hart's oldest entry or store has moved on, so its progress pin is released (R42) and its crew has progressed (R330). -/
def State.moved (s : State) (oldest : Bool) : State := (if oldest then s.pinUsed else s).noteProgress s.hart.dest

/-- The groups of its B panel that an entry has read when the rank-1 steps below `n` are done (R303). -/
def State.panelOf (s : State) (e : SeqEntry) (n : Nat) : List (Nat × List Byte) :=
  match e.instr with
  | .opa _ _ _ (.pad r) _ _ fb _ => let u := s.withCap e; u.panelAfter (u.x r) fb.width n
  | .opa2 _ _ _ (.pad r) _ _ fb _ => let u := s.withCap e; u.panelAfter (u.x r) fb.width n
  | _ => []

/-- What is left of an entry that has been performed up to unit `n`. -/
def State.goesOn (s : State) (e : SeqEntry) (n : Nat) : SeqEntry :=
  { e with fault := false, fl := { e.fl with cap := { e.fl.cap with start := n, joins := true, panel := s.panelOf e n } } }

/-- The entry `e` of the hart whose turn it is is performed up to unit `stop`, or to its end; `old` are the hart's older entries and
`young` its younger ones. A trap waits until everything older has completed (R324). Log entry 40: DESIGN CHOICE. -/
noncomputable def State.perform (s : State) (old young : List SeqEntry) (e : SeqEntry) (stop : Option Nat) : State :=
  let c := s.hart.ctl
  let oldest := old.isEmpty && c.stores.isEmpty
  let cap := match stop with
    | none => e.fl.cap
    | some n => if e.alone then { e.fl.cap with upto := some n } else { e.fl.cap with vl := n }
  let u := (if oldest then s else s.modCtl (fun t => { t with pin := none, pinAt := none })).standAside
    { e.fl with cap := cap } s.contHere young (c.aside.toList.map Prod.fst ++ c.reissue)
  match exec e.instr u with
  | .next t =>
    if trapped s t then
      if oldest then
        let t := if t.hart.dest == s.hart.dest then t.wholeCap e.fl.cap else t
        if t.hart.dest == s.hart.dest && e.fl.cap.start < t.hart.csr.ustart.toNat then t.noteProgress s.hart.dest else t
      else s.modCtl (fun c => { c with window := old ++ { e with fault := true } :: young })
    else if t.hart.ctl.phase == .waiting then s
    else
      let left := stop.toList.map (s.goesOn e)
      let t := t.modCsr (fun x => { x with
        rpc := s.hart.csr.rpc
        inst := if stop.isNone && (slotsOf e.instr).isNone then x.inst else s.hart.csr.inst })
      ((t.modCtl (fun _ => { c with window := old ++ left ++ young })).moved oldest)
  | .fault _ => s
  | .refused _ => s

/-- The entries of a core with their harts, in issue order. -/
def State.entriesOn (s : State) (core : Nat) : List (Hart × SeqEntry) :=
  sortedBy (fun x y => x.2.order ≤ y.2.order) ((s.harts.filter (fun h => h.resident && coreOf h.place.loc == core)).flatMap
    (fun h => h.ctl.window.map (fun e => (h, e))))

/-- Unit up to which an entry is performed by `n` more element groups, or to its end. -/
def State.goal (s : State) (e : SeqEntry) (n : Option Nat) : Option Nat := n.bind (s.stopAfter e)

/-- An entry that the lanes may serve: its next element groups have their operands (R156), and no fault of it waits for older
instructions. -/
noncomputable def State.readyEntry (s : State) (h : Hart) (e : SeqEntry) (n : Option Nat) : Bool :=
  let s := s.turnTo h
  let old := h.ctl.window.takeWhile (· != e)
  (!e.fault || (old.isEmpty && h.ctl.stores.isEmpty)) && old.all (fun p => s.clearOf p e ((s.goal e n).getD (s.unitsOf e)))

/-- The entry waits for data from memory, so a younger one may go first though it could be performed by the order of issue. -/
def SeqEntry.onMemory (e : SeqEntry) : Bool := e.word.opc == 0x50 || e.word.opc == 0x68

/-- The entry that a turn of a core's lanes serves: the one that `pace` names, unless an older one is ready whose operands are in
registers; else the oldest ready one (R156). Log entry 40: DESIGN CHOICE. -/
noncomputable def State.served (s : State) (es : List (Hart × SeqEntry)) (k : Option Nat) (n : Option Nat) : Option (Hart × SeqEntry) :=
  let ready := es.filter (fun x => s.readyEntry x.1 x.2 n)
  match k.bind (es[·]?) with
  | none => ready.head?
  | some x =>
    if ready.contains x && (ready.takeWhile (· != x)).all (fun y => y.2.onMemory) then some x else ready.head?

/-- A turn of a core's lanes: one entry moves on by as many element groups as `pace` says, or is completed.
Log entry 40: DESIGN CHOICE. -/
noncomputable def State.lanesOf (s : State) (core : Nat) : State :=
  match s.entriesOn core with
  | [] => s
  | es =>
    let item := s.pace.head?
    let n := item.map Prod.snd
    let s := { s with pace := s.pace.drop 1 }
    if n = some 0 then s
    else match s.served es (item.map Prod.fst) n with
    | none => s
    | some (h, e) =>
      let u := s.turnTo h
      u.perform (h.ctl.window.takeWhile (· != e)) ((h.ctl.window.dropWhile (· != e)).drop 1) e (u.goal e n)

/-- The lanes of every core have their turn. In a turn that begins with no pace left, every core completes its oldest ready entry, so that no
entry waits for ever (R122), and a new pace, which is free, follows it. -/
noncomputable def State.lanes (s : State) : State :=
  let cores := ((s.harts.filter (fun h => h.resident && !h.ctl.window.isEmpty)).map (fun h => coreOf h.place.loc)).eraseDups
  let t := (sortedBy (fun a b => a ≤ b) cores).foldl State.lanesOf s
  if s.pace.isEmpty then { t with pace := Config.lanePace s.cyc.toNat } else t

/-! ## Issue into the window -/

/-- How many entries of a core's window are taken. -/
def State.taken (s : State) (core : Nat) : Nat :=
  ((s.harts.filter (fun h => h.resident && coreOf h.place.loc == core)).map (fun h => (h.ctl.window.map (fun e => e.slots.length)).sum)).sum

/-- The hart and its core have `n` entries free (R156). Log entry 40: DESIGN CHOICE. -/
def State.hasRoom (s : State) (n : Nat) : Bool :=
  n = 0 || ((s.hart.ctl.window.map (fun e => e.slots.length)).sum + n ≤ 8 && s.taken s.core + n ≤ 16)

/-- The entry that an instruction takes as it issues, with what it reads at issue; `tested` tells that a plan apply has passed its staleness
test (R283). -/
def State.entryFor (s : State) (i : Instr) (tested : Bool) : SeqEntry :=
  ⟨⟨s.hart.ctl.pc, s.iterNow, { s.cur with tested := tested }, s.hart.ctl.aside.bind (fun x => x.1.slot)⟩, i, s.cyc.toNat, false⟩

/-- The instruction issues and holds an entry; it has not completed. `rebins` is CSR plrebin, in which a plan apply counts as it issues
(R284). -/
def State.enqueue (s : State) (e : SeqEntry) (rebins : Word) : State :=
  (s.modCtl (fun c => { c with window := c.window ++ [e] })).retire.modCsr (fun c => { c with inst := s.hart.csr.inst, plrebin := rebins })

/-- The virtual bytes that a vector store names, for the plans that watch them. -/
def State.storeSpans (s : State) (i : Instr) : List Span :=
  match fwordOf i with
  | none => []
  | some f =>
    let a := s.x (fldN 32 f.a) + (if f.fn = 0 then (f.immv (literalOf i)).sval else 0)
    if f.opc = 0x51 && f.fn ≤ 1 then
      accessSpan a (if f.fn = 0 then 1 else (s.x (fldN 32 f.b)).toInt) (s.stepBits a s.vt.fmt.width) s.vl
    else []

/-- The instruction takes an entry; `t` is what it would give at once. A store marks the plans that watch its bytes as it issues (R57),
unless it is illegal. -/
def State.takeEntry (s t : State) (i : Instr) : State :=
  let here := t.hart.dest == s.hart.dest
  let trap := trapped s t
  let bad := here && trap && t.hart.csr.ucause == Cause.illegal.code
  (if bad then s else s.noteSpans (s.storeSpans i)).enqueue (s.entryFor i !trap) (if here then t.hart.csr.plrebin else s.hart.csr.plrebin)

def State.waits (s : State) : State := s.modCtl (fun c => { c with phase := .waiting })

/-- The instruction's guard lets it execute. -/
def State.guardOf (s : State) (i : Instr) : Bool :=
  match fwordOf i with
  | some f => guardOn f.hdr s
  | none => true

/-- The hart whose turn it is waits. -/
def State.waiting (s : State) : Bool := s.hart.ctl.phase == .waiting

/-- The instruction as it issues: of a pair word whose record is issued again the slot that the record stands for (R184). -/
noncomputable def State.dueOf (s : State) (i : Instr) : Instr :=
  match s.hart.ctl.aside.bind (fun x => x.1.slot) with
  | some b => keepSlots (fun k _ => k == b) i
  | none => i

/-- A slot of a pair word that is issued again is counted in CSR inst no second time (R193). -/
def State.countOnce (s t : State) (i : Instr) : State :=
  if (slotsOf i).isSome && s.hart.ctl.aside.isSome then t.modCsr (fun c => { c with inst := s.hart.csr.inst }) else t

/-- A pair word with vector slots issues (R184): its scalar slot and its branch complete, and each vector slot takes an entry. The two entries
stand together, as their element groups do. Log entry 40: DESIGN CHOICE. -/
noncomputable def State.issuePair (s : State) (i : Instr) : Out :=
  match exec (keepSlots (fun _ p => !p.isVector) i) s with
  | .next u =>
    .next (s.countOnce (u.modCtl (fun c => { c with
      window := c.window ++ [s.entryFor (keepSlots (fun _ p => p.isVector) i) false] })) i)
  | .fault e => .fault e
  | .refused r => .refused r

/-- An instruction that holds an entry issues; `t` is what it would give at once. A pair word that traps has no effect of its slots. -/
noncomputable def State.issueHeld (s t : State) (i : Instr) : Out :=
  if t.hart.dest == s.hart.dest && t.waiting then .next t
  else if (slotsOf i).isNone then .next (s.takeEntry t i)
  else if trapped s t then .next t
  else s.issuePair i

/-- An instruction issues: it waits for older ones or for entries, takes its entries, or executes whole. It takes none while no pace is
given and nothing else is in flight on the core: then it completes as it issues. A guarded-off instruction waits for nothing (R189), and one
whose only unit lies below the start index that a handler has set completes without it (R328). Log entry 40: DESIGN CHOICE. -/
noncomputable def State.issueWord (j : Instr) (s : State) : Out :=
  let i := s.dueOf j
  let k := seqClass i
  if !s.guardOf i then exec i s
  else if s.hart.ctl.begin != 0 && s.hart.ctl.resume.isNone && !countsUnits i then .next s.retire
  else if (k == .drains && !s.hart.ctl.window.isEmpty) || !s.hasRoom (entriesOf i) then .next s.waits
  else match exec i s with
  | .next t => if k == .holds && !(s.pace.isEmpty && s.taken s.core = 0) then s.issueHeld t i else .next (s.countOnce t i)
  | .fault e => .fault e
  | .refused r => .refused r

end Sys2Proof.Machine
end

