-- ==== Sys2Proof/Machine/Cycle.lean ====
section
/-! DEFINITION. What happens next: which hart has the turn (R155), which word or repeat iteration it issues (R167, R186, R187), and
which step of the stacks, the firmware or the scheduler takes place between issues. -/

namespace Sys2Proof.Machine

/-! ## Turns (R155) -/

/-- The hart issues when its turn comes; a waiting one tries again. -/
def Hart.ready (h : Hart) : Bool :=
  match h.ctl.phase with
  | .running => true
  | .waiting => true
  | _ => false

/-- The hart may issue in this cycle: it is ready, its core has not issued, it has not tried in vain, and none of its instructions in
flight has met a fault (R324). -/
def State.eligible (s : State) (h : Hart) : Bool :=
  h.ready && !s.issued.contains (coreOf h.place.loc) && !s.tried.contains h.dest && h.ctl.window.all (fun e => !e.fault)

/-- `a` goes before `b`: it has waited longer since its last issue; among equals the lower number goes first. -/
def Hart.before (a b : Hart) : Bool :=
  a.ctl.last < b.ctl.last || (a.ctl.last == b.ctl.last && a.place.loc.toNat < b.place.loc.toNat)

/-- Of two harts that may be absent, the one that goes first. -/
def firstOf (a : Option Hart) (b : Hart) : Option Hart :=
  match a with
  | none => some b
  | some a => if b.before a then some b else some a

/-- The hart that issues next, if one may still issue in this cycle (R155). Log entry 2: DESIGN CHOICE. -/
def State.pick (s : State) : Option Hart := ((s.hart :: s.parked).filter s.eligible).foldl firstOf none

/-! ## Issue -/

/-- The address after an instruction of `n` words at the pc. -/
def State.setNext (s : State) (n : Nat) : State :=
  s.modCtl (fun c => { c with next := c.pc + BitVec.ofNat 64 (8 * n) })

/-- The instruction that words decode to; an encoding that R192 refuses is UNASSIGNED_ENCODING with its subcode. -/
noncomputable def instrOf : Decoded → Instr
  | .ok i => i
  | .bad c => .unassignedEncoding c

/-- The next iteration of a repeat, with its stepped fields (R186), or REP_RANGE (R187). Log entry 38: DEDUCED. -/
noncomputable def State.iterate (s : State) (r : RepState) : Out :=
  let s := s.setNext (if r.lit.isSome then 3 else 2)
  let j := s.hart.csr.rpc.toNat
  let f := FWord.ofWord r.f
  let tiles := s.hart.place.tiles
  if r.count ≤ j then .next (s.startRep r)
  else match (if j = 0 then none else repRangeField tiles s.vt.size f r.p j) with
    | some k => .next (s.deliverEarly (trapOf .repRange (BitVec.ofNat 64 k)))
    | none => s.issueWord (instrOf (decodeF tiles (f.step r.p j) (r.lit.map litWordOf)))

/-- The iteration that issues with its repeat prefix (R155), if the repeat has begun. -/
noncomputable def State.firstIteration (t : State) : Out :=
  match t.hart.ctl.rep with
  | some r => if t.waiting then .next t else t.iterate r
  | none => .next t

/-- The words at the pc issue; a repeat prefix does with its first iteration. -/
noncomputable def State.issueFetched (s : State) (ws : List Word) : Out :=
  let i := instrOf (decode s.hart.place.tiles ws)
  match (s.setNext ws.length).issueWord i with
  | .next t => if isRep i then t.firstIteration else .next t
  | .fault e => .fault e
  | .refused r => .refused r

/-- An iteration of the hart's repeat issues, or the word at its pc. -/
noncomputable def State.issueHere (s : State) : Out :=
  match s.hart.ctl.rep with
  | some r => s.iterate r
  | none => match s.fetch with
    | .error (t, u) => .next (u.deliverEarly t)
    | .ok (ws, u) => (if u.hart.ctl.aside.isSome then u else u.pinDone).issueFetched ws

/-- The hart whose turn it is sleeps on memory (R269). -/
def State.sleeping (s : State) : Bool :=
  s.hart.ctl.sleep.isSome && s.hart.ctl.phase == .waiting && s.hart.resident

/-- The record that is to be issued again takes the place of the pc (R327). -/
def State.nextRecord (s : State) : State :=
  match s.hart.ctl.aside, s.hart.ctl.reissue with
  | none, f :: r => s.standAside { f with cap := { f.cap with joins := false, panel := [], tested := false } } s.contHere s.hart.ctl.window r
  | none, [] => s
  | some _, _ => s

/-- A record has issued again: the hart stands where it goes on, unless the record waits. -/
def State.endAside (s : State) : State :=
  match s.hart.ctl.aside with
  | none => s
  | some (_, c) =>
    if s.waiting then s
    else (s.modCsr (fun x => { x with rpc := c.rpc })).modCtl (fun t => { t with pc := c.pc, rep := c.rep, aside := none })

/-- Older instructions of the hart are in flight. -/
def State.olderWork (s : State) : Bool := !s.hart.ctl.window.isEmpty || !s.hart.ctl.stores.isEmpty

/-- A trap of an instruction waits until everything older has completed (R324): the hart tries again then. -/
def State.settled (s t : State) : State :=
  if s.olderWork && trapped s t then s.waits else if t.hart.dest == s.hart.dest then t.endAside else t

/-- The hart whose turn it is issues: the evaluation of its GCSLEEP, a record that is issued again, an iteration of its repeat, or the
instruction at its pc. -/
noncomputable def State.issueOnce (s : State) : Out :=
  match (if s.sleeping then exec (.gcsleepReevaluation s.loc) s else s.nextRecord.issueHere) with
  | .next t => .next (s.settled t)
  | .fault e => .fault e
  | .refused r => .refused r

/-- The hart has completed an instruction, or a unit of one that then trapped (R330). -/
def State.progressed (s t : State) : Bool :=
  let start := match s.hart.ctl.resume, s.hart.ctl.reissue with
    | some r, _ => r.start
    | none, f :: _ => f.cap.start
    | none, [] => s.hart.ctl.begin
  t.hart.live && t.hart.dest == s.hart.dest &&
    (t.hart.csr.inst != s.hart.csr.inst ||
      (t.hart.ctl.inHandler && !s.hart.ctl.inHandler && start < t.hart.csr.ustart.toNat))

/-- The hart that had the turn has tried and still waits. -/
def State.stillWaits (s t : State) : Bool := t.hart.dest == s.hart.dest && t.hart.ctl.phase == .waiting

/-- What follows an issue: progress is noted, and the core has used its issue of this cycle; a hart that waits has used none. -/
def State.afterIssue (s t : State) : State :=
  if s.stillWaits t then { t with tried := s.hart.dest :: t.tried }
  else
    let t := if s.progressed t then t.noteProgress s.hart.dest else t
    { t with
      issued := s.core :: t.issued
      hart := if t.hart.dest == s.hart.dest then t.hart.modCtl (fun c => { c with last := s.cyc.toNat + 1 }) else t.hart }

/-- An outcome with its next state changed. -/
def andThen (o : Out) (f : State → State) : Out :=
  match o with
  | .next t => .next (f t)
  | .fault e => .fault e
  | .refused e => .refused e

/-! ## Steps between issues -/

/-- The mailbox operation a function's block asks for, unless its turn has not come (R36) or a progress pin holds it back. -/
noncomputable def State.mailboxStep (s : State) (f : Fn) : List Instr :=
  let n := f.num
  let op := wfield f.mbox[0] 0 32
  if !f.busy || !s.fwRuns || !s.fwTurn f.boxReq then []
  else if (s.memService f op f.mbox).isNone && 0x10 ≤ op && op ≤ 0x15 then []
  else match op with
    | 0x10 => [.mapPages (.mbox n)]
    | 0x11 => [.unmapPages (.mbox n)]
    | 0x12 => [.protectPages (.mbox n)]
    | 0x13 => [.offerPages (.mbox n)]
    | 0x14 => [.acceptPages (.mbox n)]
    | 0x15 => [.thawPages (.mbox n)]
    | 0x16 => [.exportPages n]
    | 0x17 => [.importPages n]
    | 0x18 => [.attest n]
    | 0x19 => [.dbgattach n]
    | 0x1A => [.dbgdetach n]
    | 0x1B => [.dbgstop n]
    | 0x1C => [.dbgresume n]
    | 0x1D => [.dbgretire n]
    | 0x1E => [.dbgread n]
    | 0x40 => [.partition n]
    | 0x41 => [.quota n]
    | 0x42 => [.weight n]
    | 0x43 => [.setglean n]
    | 0x44 => [.setbudget n]
    | 0x45 => [.peerset n]
    | 0x46 => [.migrate n]
    | _ => []

/-- The dependence reads of a function's records (R149). -/
noncomputable def dependenceSteps (f : Fn) : List (List Instr) :=
  ((List.finRange 16).filter (fun q => f.queues[q].headRec.isSome && !f.queues[q].ready)).map (fun q => [.dependenceRead f.num q])

/-- What the scheduler does for a function's crews: it checks the records that have reached the heads of the queues, and then places a
crew, or pre-empts, or resumes one (R146, R150, R157, R158). -/
noncomputable def State.crewSteps (s : State) (f : Fn) : List Instr :=
  ((List.finRange 16).filter (fun q => let x := f.queues[q]; x.headRec.isNone && x.hasRecord && x.cur.isNone)).map
      (fun q => Instr.recordCheck f.num q) ++
    .crewPlacement f.num ::
    ((match s.preemptFor f.num with
      | some (_, cs) => cs.map (fun c => Instr.preemption c.launch c.crew)
      | none => []) ++
    (s.sched.crews.filter CrewRec.pre).map (fun c => .resumption c.launch c.crew))

/-- Under their weights, `f` is owed a placement decision no later than `g` (R150). Log entry 21: DEDUCED. -/
def Fn.owedFirst (f g : Fn) : Bool := f.served * g.weight ≤ g.served * f.weight

/-- A list turned by `n` places. -/
def rotate {α : Type} (n : Nat) (l : List α) : List α := l.drop (n % max l.length 1) ++ l.take (n % max l.length 1)

/-- The steps that may take place now, grouped; of a group the first possible one does. The groups take turns, and in every eighth cycle the
stores on their way come first. Log entry 2: DESIGN CHOICE. -/
noncomputable def State.steps (s : State) : List (List Instr) :=
  let copies := (s.harts.filter Hart.resident).flatMap (fun h =>
    ((List.finRange 64).filter (fun t => h.ctl.tags[t].st == .busy)).map (fun t =>
      [Instr.copyChunk h.place.loc t, Instr.copyComplete h.place.loc t]))
  let mail := s.cores.net.map (fun m => [Instr.messageDelivery m.1.loc m.2])
  let credits := (s.harts.filter (fun h => !h.ctl.mq.held.isEmpty)).map (fun h => [Instr.creditGrant h.place.loc])
  let adds := if s.ms.wq.isEmpty then [] else [[Instr.writeQueueApply 0]]
  let glean := (s.ms.metas.filter (fun m => m.2.state == 1)).map (fun m => [Instr.conversionCommit m.1])
  let boxes := s.fns.map s.mailboxStep
  let deps := s.fns.flatMap dependenceSteps
  let crews := [(sortedBy Fn.owedFirst s.fns).flatMap s.crewSteps]
  let budgets := (s.sched.crews.filter s.overBudget).map (fun c => [Instr.budgetExpiry c.launch c.crew])
  let stores := if s.cyc.toNat % 8 = 7 then
      (s.harts.filter (fun h => h.resident && !h.ctl.stores.isEmpty)).map (fun h => [Instr.storeAtTarget h.place.loc])
    else []
  let moves := (s.fns.filter Fn.migrating).map (fun f => [Instr.migrationQuiesce f.num])
  (rotate (s.cyc.toNat / 8) stores ++
    rotate s.cyc.toNat (copies ++ mail ++ credits ++ adds ++ glean ++ boxes ++ deps ++ crews ++ budgets ++ moves)).filter (!·.isEmpty)

/-- The state that an instruction leads to, if it leads to one. -/
def nextOf (o : Out) : Option State :=
  match o with
  | .next t => some t
  | .fault _ => none
  | .refused _ => none

/-- One step beside issue: the first that takes place. Log entry 2: DESIGN CHOICE. -/
noncomputable def State.background (s : State) : Option State :=
  s.steps.findSome? (fun g => g.findSome? (fun e => nextOf (exec e s)))

/-- Bytes `a .. a + n - 1` lie apart from a store that is on its way: their offsets in a page do, so no other address names them either. -/
def PendingStore.apart (st : PendingStore) (a : Word) (n : Nat) : Bool :=
  let x := a.toNat % 2 ^ 16
  let y := st.addr.toNat % 2 ^ 16
  x + n ≤ y || y + st.n ≤ x

/-- The instruction may issue while a scalar store of its hart is on its way (R225): one that is guarded off (R189), a scalar
instruction that completes at issue, a load of other bytes, or a vector instruction that takes an entry. Log entry 8: DEDUCED. -/
noncomputable def State.issuesPast (s : State) (i : Instr) : Bool :=
  !s.guardOf i ||
  match fwordOf i with
  | none => (slotsOf i).isSome && (vectorSlots i = 0 || !s.pace.isEmpty)
  | some f =>
    if f.opc == 0x08 then
      let a := s.x (fldN 32 f.a) + (if f.fn = 7 then 0 else (f.immv (literalOf i)).sval)
      f.popless && s.hart.ctl.stores.all (fun st => st.apart a 8)
    else f.passing || (seqClass i == .holds && !s.pace.isEmpty)

/-- The next word of the hart may issue while its store is on its way. Log entry 8: DEDUCED. -/
noncomputable def State.storeMayWait (s : State) : Bool :=
  let c := s.hart.ctl
  c.phase == .running && c.aside.isNone && c.reissue.isEmpty && c.rep.isNone &&
    match s.fetch with
    | .error _ => false
    | .ok (ws, u) => match decode s.hart.place.tiles ws with
      | .ok i => u.issuesPast i
      | .bad _ => false

/-- The hart whose turn it is performs the store it has on its way, unless its next word may issue before; else it issues. -/
noncomputable def State.issueTurn (s : State) : Out :=
  if s.hart.resident && !s.hart.ctl.stores.isEmpty && !s.storeMayWait then exec (.storeAtTarget s.loc) s
  else andThen s.issueOnce s.afterIssue

/-- The services that pre-empted and stopped harts wait for, and those of harts that are gone, complete where they can (R165, R212, R334,
R372). -/
def State.services (s : State) : State :=
  let t := (s.harts.filter (fun h => h.live && (!h.resident || h.debugged) && h.ctl.svc.isSome)).foldl State.serviceFor s
  (t.fns.flatMap (fun f => f.left.map (fun r => (f.num, r)))).foldl (fun t x => t.serveLeft x.1 x.2) t

/-- The counters of a function, without those that the firmware clears in a cycle (R67, R118). Log entry 41: DESIGN CHOICE. -/
def Fn.clearCounters (f : Fn) (cyc : Nat) : Fn :=
  let keep := fun (c : Config.FwCounter) (v : Word) => if Config.counterClears cyc f.num c then 0 else v
  { f with rowstale := keep .rowstale f.rowstale, convs := keep .convs f.convs, aborts := keep .aborts f.aborts,
           chunks := keep .chunks f.chunks }

/-- The firmware, where it runs, clears the counters that it has read. -/
def State.clearCounters (s : State) : State :=
  { s with fns := s.fns.map (fun f => if s.fwRuns then f.clearCounters s.cyc.toNat else f) }

/-- The end of a cycle: the lanes have their turns, a step beside issue takes place where one can, the firmware clears counters, and the
next cycle begins with cyc one higher. Log entry 2: DESIGN CHOICE. -/
noncomputable def State.endCycle (s : State) : State :=
  let t := s.lanes.services
  { ((t.background.getD t).clearCounters).tick with cyc := s.cyc + 1, issued := [], tried := [] }

/-- With no event on the agenda: the hart that R155 names issues, or the cycle ends. -/
noncomputable def State.proceed (s : State) : Out :=
  match s.pick with
  | some h => (s.turnTo h).issueTurn
  | none => .next s.endCycle

/-- One step: the event at the head of the agenda, else what the device does by itself. An instruction of a hart is no event, and is
passed over. Log entry 2: DESIGN CHOICE. -/
noncomputable def State.cycle (s : State) : Out :=
  match s.agenda with
  | e :: r => if (encode e).isEmpty then exec e { s with agenda := r } else .next { s with agenda := r }
  | [] => s.proceed

end Sys2Proof.Machine
end

