-- ==== Sys2Proof/Machine/Loader.lean ====
section
/-! DEFINITION. A state in which the next step runs words given from outside: a hart that is the next to issue, an executable page at
its pc, and the words in memory. -/

namespace Sys2Proof.Machine

/-- A ready hart has the turn: the one that has it, another one, or hart 0 of a launch of one crew that function 0
starts on furrow 0, the furrows being mapped. Log entry 4: DESIGN CHOICE. -/
def State.withHart (s : State) : State :=
  match (s.hart :: s.parked).find? Hart.ready with
  | some h => s.turnTo h
  | none =>
    let s := s.modDev Dev.mapFurrows
    let s := if (s.fn? 0).isSome then s else { s with fns := s.fns ++ [{ Fn.created 0 0 with part := 1, budget := 2 ^ 40 }] }
    let l := newLaunch s.sched.nextId 0 0 0 #v[0, 0, 0x10100000001, 0x0040000400400040, 0, 0, 0, 0]
    let s := s.modSched (fun d => { d with
      launches := d.launches ++ [{ l with placed := 1 }], nextId := d.nextId + 1 })
    let s := s.startCrew l 0 0 [0]
    match s.parked.find? Hart.ready with
    | some h => s.turnTo h
    | none => s

/-- The hart whose turn it is stands between two instructions, at an address of main memory, and is the next to issue.
Log entry 4: DESIGN CHOICE. -/
def State.atFetch (s : State) : State :=
  { s with
    agenda := []
    issued := []
    pace := []
    tried := (s.parked.map Hart.dest).filter (· != s.hart.dest)
    hart := s.hart.modCtl (fun c => { c with
      phase := .running
      last := 0
      pc := if classOf c.pc == .virt && classOf (c.pc + 24) == .virt then c.pc else 0
      resume := none
      begin := 0
      scat := none
      rep := none
      sleep := none
      pushTo := none
      svc := none
      stores := []
      window := []
      reissue := []
      aside := none }) }

/-- The entry of a page that holds code: V, P, R and X set, frame 0 of its stack. Log entry 4: DESIGN CHOICE. -/
def codeEntry (fn : Nat) : Word := BitVec.ofNat 64 (2 ^ 63 + 2 ^ 62 + 2 ^ 61 + 2 ^ 59 + fn * 2 ^ 37)

/-- The word at `a` is fetched as `w`: its page is executable, memory holds it and the cache holds no older one. -/
def State.placeWord (s : State) (a w : Word) : State :=
  let s := match s.fetchPage a with
    | .ok _ => s
    | .error _ =>
      let e := codeEntry s.hart.place.fn
      let s := s.putEntry s.ctx (a &&& ~~~0xFFFF#64) e
      s.modMeta (frameOf s.ctx a e 0) (fun m => { m with state := 0 })
  let p := pageOf s.ctx a (s.entryAt s.ctx a)
  let ctx := s.ctx
  (s.rawWrite p.frame p.off (leBytes 8 w.toNat)).modCores (fun c => { c with
    icache := c.icache.filter (fun x => !(x.core == s.core && x.ctx == ctx && x.va == a.toNat)) })

/-- The state with an instruction of `nbits` bits `w`, and zeros above up to three words, at the pc of the hart whose
turn it is; where no hart is started, one is. Log entry 4: DESIGN CHOICE. -/
def State.placeInstr (s : State) (nbits w : Nat) : State :=
  let s := s.withHart.atFetch
  let n := w % 2 ^ nbits
  (List.range 3).foldl (fun s i =>
    s.placeWord (s.hart.ctl.pc + BitVec.ofNat 64 (8 * i)) (BitVec.ofNat 64 (n / 2 ^ (64 * i)))) s

end Sys2Proof.Machine
end

