-- ==== Sys2Proof/Machine/Step.lean ====
section
/-! DEFINITION. The step of the machine, and a state in which the next step runs a given word. -/

namespace Sys2Proof.Machine

/-- One step of the device. -/
noncomputable def step (s : State) : Host.Outcome State Fault Refusal := s.cycle

/-- The state with an instruction of `nbits` bits `w`, and zeros above up to three words, at the pc of the hart that is the next
to issue. Log entry 4: DESIGN CHOICE. -/
def State.withFetchWord (s : State) (nbits w : Nat) : State := s.placeInstr nbits w

end Sys2Proof.Machine
end

