-- ==== Sys2Proof/Laws/Decode.lean ====
section
/-! SUPPORT. What the encoder writes, the decoder reads (R170 to R192): the fields of an F-word, literal words, service codes, pair
words and repeat prefixes. -/

set_option linter.all false

namespace Sys2Proof

/-! ## Fields -/

/-- Every field fits its place. -/
structure FWord.InRange (f : FWord) : Prop where
  opc : f.opc < 128
  g : f.g < 8
  form : f.form < 4
  d : f.d < 64
  a : f.a < 64
  b : f.b < 64
  m : f.m < 8
  fk : f.fk < 8
  fn : f.fn < 64
  imm : f.imm < 65536

theorem bitsOf_ofNat (n lo len : Nat) (h : n < 2 ^ 64) : bitsOf (BitVec.ofNat 64 n) lo len = n / 2 ^ lo % 2 ^ len := by
  rw [bitsOf, BitVec.toNat_ofNat, Nat.mod_eq_of_lt h]

theorem FWord.toNat_lt {f : FWord} (h : f.InRange) : f.toNat < 2 ^ 62 := by
  obtain ⟨h1,h2,h3,h4,h5,h6,h7,h8,h9,h10⟩ := h
  have := Bool.toNat_lt f.gn; have := Bool.toNat_lt f.lit; have := Bool.toNat_lt f.ca; have := Bool.toNat_lt f.cb
  simp only [FWord.toNat]; omega

theorem FWord.ofWord_toNat {f : FWord} (h : f.InRange) : FWord.ofWord (BitVec.ofNat 64 f.toNat) = f := by
  have hl : f.toNat < 2 ^ 64 := by have := FWord.toNat_lt h; omega
  obtain ⟨h1,h2,h3,h4,h5,h6,h7,h8,h9,h10⟩ := h
  cases f with
  | mk opc g gn lit form d a b ca cb m fk fn imm =>
  have b1 := Bool.toNat_lt gn; have b2 := Bool.toNat_lt lit; have b3 := Bool.toNat_lt ca; have b4 := Bool.toNat_lt cb
  simp only [FWord.ofWord, bitsOf_ofNat _ _ _ hl]
  simp only [FWord.toNat] at hl ⊢
  simp only at *
  generalize e1 : gn.toNat = n1 at *
  generalize e2 : lit.toNat = n2 at *
  generalize e3 : ca.toNat = n3 at *
  generalize e4 : cb.toNat = n4 at *
  have q1 : (n1 == 1) = gn := by subst e1; cases gn <;> rfl
  have q2 : (n2 == 1) = lit := by subst e2; cases lit <;> rfl
  have q3 : (n3 == 1) = ca := by subst e3; cases ca <;> rfl
  have q4 : (n4 == 1) = cb := by subst e4; cases cb <;> rfl
  rw [FWord.mk.injEq]
  refine ⟨by omega, by omega, ?_, ?_, by omega, by omega, by omega, by omega, ?_, ?_, by omega, by omega, by omega, by omega⟩
  · rw [← q1]; congr 1; omega
  · rw [← q2]; congr 1; omega
  · rw [← q3]; congr 1; omega
  · rw [← q4]; congr 1; omega


/-- An F-word's fields with the guard and the immediate that the encoder adds. -/
def FWord.withEnc (f : FWord) (h : Hdr) (i : Option Imm) : FWord :=
  match i with
  | none => { f with g := h.g.val, gn := h.gn }
  | some i => { f with g := h.g.val, gn := h.gn, lit := i.isLit, imm := i.immVal }

/-- The word that follows an F-word with this immediate. -/
def litNext (i : Option Imm) : Option Word :=
  match i with
  | some (.lit b) => some (litWordOf b)
  | some (.short _) => none
  | none => none

theorem FWord.InRange.withEnc {f : FWord} (h : f.InRange) (g : Hdr) (i : Option Imm) : (f.withEnc g i).InRange := by
  obtain ⟨h1,h2,h3,h4,h5,h6,h7,h8,h9,h10⟩ := h
  have := g.g.isLt
  rcases i with _ | (b | b)
  · constructor <;> simp [FWord.withEnc] <;> omega
  · have := b.isLt
    constructor <;> simp [FWord.withEnc, Imm.immVal] <;> omega
  · constructor <;> simp [FWord.withEnc, Imm.immVal] <;> omega

theorem literal_litNext (b : BitVec 62) : literal (litNext (some (.lit b))) = some b := by
  have h := b.isLt
  have e : (litWordOf b).toNat = 3 * 2 ^ 62 + b.toNat := by
    simp only [litWordOf, BitVec.toNat_ofNat]; omega
  have k : bitsOf (litWordOf b) 62 2 = 3 := by
    simp only [bitsOf, e]; omega
  simp only [litNext, literal, k, beq_self_eq_true, if_true]; congr 1
  apply BitVec.eq_of_toNat_eq
  simp only [BitVec.toNat_ofNat, e]; omega

theorem decode_word (tiles : Nat) (f : FWord) (h : f.InRange) (r : List Word) :
    decode tiles (BitVec.ofNat 64 f.toNat :: r) = decodeF tiles f r[0]? := by
  have hl := FWord.toNat_lt h
  have k : bitsOf (BitVec.ofNat 64 f.toNat) 62 2 = 0 := by
    rw [bitsOf_ofNat _ _ _ (by omega)]; omega
  simp only [decode, k, FWord.ofWord_toNat h]; rfl

theorem decode_fEnc (tiles : Nat) (h : Hdr) (i : Option Imm) (f : FWord) (hf : f.InRange) :
    decode tiles (fEnc h i f) = decodeF tiles (f.withEnc h i) (litNext i) := by
  have hw := hf.withEnc h i
  rcases i with _ | (b | b)
  · exact decode_word tiles _ hw []
  · exact decode_word tiles _ hw _
  · exact decode_word tiles _ hw _


/-- The checks 7 to 12 of an F-word in form `r`. -/
def Shape.accepts (tiles : Nat) (sh : Shape) (r : FormRow) (f : FWord) (next : Option Word) : Bool :=
  sh.reservedOk f r && litOk f r next && (r.d.regOk tiles f.d && r.a.regOk tiles f.a && r.b.regOk tiles f.b) &&
    !((f.ca && !r.a.chainable) || (f.cb && !r.b.chainable)) && sh.maskOk f && sh.ok f

theorem decodeF_ok {tiles : Nat} {f : FWord} {next : Option Word} {sh : Shape} {r : FormRow} (h1 : shapeOf f = .ok sh)
    (h2 : sh.form? f = some r) (h : sh.accepts tiles r f next = true) :
    decodeF tiles f next = .ok (sh.build f (if f.lit then literal next else none)) := by
  simp only [Shape.accepts, Bool.and_eq_true, Bool.not_eq_true'] at h
  obtain ⟨⟨⟨⟨⟨h3, h4⟩, h5⟩, h6⟩, h7⟩, h8⟩ := h
  simp only [decodeF, h1, decodeShape, h2, h3, h4, h6, h7, h8, h5.1.1, h5.1.2, h5.2]; rfl

theorem fldN_val {n : Nat} [NeZero n] (d : Fin n) : fldN n d.val = d := by
  simp [fldN]

theorem toNat_beq_one (b : Bool) : (b.toNat == 1) = b := by cases b <;> rfl

/-- A number below `2 ^ k` is its own low `k` bits. -/
theorem and_mask {n : Nat} (k : Nat) (h : n < 2 ^ k) : n &&& (2 ^ k - 1) = n := by
  rw [Nat.and_two_pow_sub_one_eq_mod, Nat.mod_eq_of_lt h]

/-! ## Codes -/

theorem Fmt.code_lt (f : Fmt) : f.code < 15 := by cases f <;> decide
theorem Fmt.code_ne (f : Fmt) : (f.code != 15) = true := by cases f <;> rfl
theorem fmtOf_code (f : Fmt) : fmtOf f.code = f := by cases f <;> rfl
theorem scopeOf_code (s : Scope) : scopeOf s.code = s := by cases s <;> rfl
theorem Scope.code_lt (s : Scope) : s.code < 6 := by cases s <;> decide
theorem scBits_lt (s : Option (Fin 8)) : scBits s < 16 := by
  cases s with
  | none => decide
  | some n => simp only [scBits]; omega
theorem scBitsOk_bits (s : Option (Fin 8)) : scBitsOk (scBits s) = true := by
  cases s with
  | none => rfl
  | some n => revert n; decide
theorem scOf_bits (s : Option (Fin 8)) : scOf (scBits s) = s := by
  cases s with
  | none => rfl
  | some n => revert n; decide

theorem AmoOpts.bits_lt (o : AmoOpts) : o.bits < 64 := by
  rcases o with ⟨w, r, a, s⟩
  cases w <;> cases r <;> cases a <;> cases s <;> decide
theorem AmoOpts.wide (o : AmoOpts) (f : FWord) (h : f.imm = o.bits) : f.immBits 5 2 ≤ 1 := by
  have := o.bits_lt
  rw [FWord.immBits, h]; omega
theorem AmoOpts.scopeOk (o : AmoOpts) (f : FWord) (h : f.imm = o.bits) : Sys2Proof.scopeOk f = true := by
  rw [Sys2Proof.scopeOk, FWord.immBits, h]
  rcases o with ⟨w, r, a, s⟩
  cases w <;> cases r <;> cases a <;> cases s <;> decide
theorem AmoOpts.amo (o : AmoOpts) (f : FWord) (h : f.imm = o.bits) : f.amo = o := by
  simp only [FWord.amo, FWord.scope, FWord.immBits, h]
  rcases o with ⟨w, r, a, s⟩
  cases w <;> cases r <;> cases a <;> cases s <;> rfl

theorem opaFmtOk_code {t : Bool} (f : Fmt) (h : opaFmt t f = true) : opaFmtOk t f.code = true := by
  cases t <;> cases f <;> first | rfl | cases h

theorem opa_ok {t : Bool} {fa fb : Fmt} {qt : Fin 4}
    (h : (opaFmt t fa && opaFmt t fb && (qt == 0 || fa == .q4 || fb == .q4)) = true) :
    opaFmtOk t fa.code = true ∧ opaFmtOk t fb.code = true ∧
      ((qt = 0 ∨ fa.code = 14) ∨ fb.code = 14) := by
  simp only [Bool.and_eq_true, Bool.or_eq_true, beq_iff_eq] at h
  refine ⟨opaFmtOk_code _ h.1.1, opaFmtOk_code _ h.1.2, ?_⟩
  rcases h.2 with (h | h) | h
  · exact .inl (.inl h)
  · exact .inl (.inr (by rw [h]; rfl))
  · exact .inr (by rw [h]; rfl)

theorem mx_ok {fa fb : Fmt} (h : (mxFmt fa && mxFmt fb) = true) : mxFmtOk fa.code = true ∧ mxFmtOk fb.code = true := by
  rw [Bool.and_eq_true] at h
  have k : ∀ f : Fmt, mxFmt f = true → mxFmtOk f.code = true := fun f => by cases f <;> first | exact fun _ => rfl | (intro h; cases h)
  exact ⟨k _ h.1, k _ h.2⟩

theorem plred_mask (p : Fin 16) (j : Nat) (h : j < 3) : (p.val + 32 * j) &&& 111 = p.val + 32 * j := by
  have : j = 0 ∨ j = 1 ∨ j = 2 := by omega
  rcases this with rfl | rfl | rfl <;> revert p <;> decide

theorem apart_ne {a : CVec} {d : Fin 64} (h : a.apart d = true) : ¬ d.val = a.r.val := by
  intro q; rw [Fin.ext q] at h; simp [CVec.apart] at h

/-! ## Services (R212) -/

theorem svcInstr_other (h : Hdr) (code : BitVec 16)
    (w : (!(decide (code.toNat ≤ 2) || (decide (16 ≤ code.toNat) && decide (code.toNat ≤ 21)))) = true) :
    svcInstr { opc := 0x18, fn := 5, imm := code.toNat, g := h.g.val, gn := h.gn } = .svc h code := by
  simp only [Bool.not_eq_true', Bool.or_eq_false_iff, Bool.and_eq_false_iff, decide_eq_false_iff_not] at w
  unfold svcInstr
  split <;> first | omega | simp_all [FWord.hdr, fldN_val]

theorem svc_word (h : Hdr) (n : Nat) (hn : n < 2 ^ 16) :
    decode 4 (svcEnc h n) = .ok (svcInstr { opc := 0x18, fn := 5, imm := n, g := h.g.val, gn := h.gn }) := by
  have hm : n &&& 65535 = n := and_mask 16 hn
  have e : svcEnc h n = fEnc h none { opc := 0x18, fn := 5, imm := n } := rfl
  rw [e, decode_fEnc (hf := by constructor <;> simp <;> omega)]
  refine (decodeF_ok rfl rfl ?_).trans rfl
  simp [Shape.accepts, Shape.reservedOk, FClass.resvOk, Shape.maskOk, litOk, FClass.regOk, FWord.withEnc, hm]

/-! ## Pair words (R181) -/

theorem slot_pop (pop : Nat) (d : Fin 32) (y : PSrc) (h : pop < 64) : slotBits pop d.val y / 2 ^ 25 % 64 = pop := by
  cases y <;> simp only [slotBits] <;> omega

theorem slot_d (pop : Nat) (d : Fin 32) (y : PSrc) : fldN 32 (slotBits pop d.val y / 2 ^ 20) = d := by
  have : slotBits pop d.val y / 2 ^ 20 % 32 = d.val := by cases y <;> simp only [slotBits] <;> omega
  exact Fin.ext this

theorem slot_reg_i (pop : Nat) (d a : Fin 32) : (slotBits pop d.val (.reg a) / 2 ^ 19 % 2 == 1) = false := by
  rw [beq_eq_false_iff_ne]; simp only [slotBits]; omega
theorem slot_reg_a (pop : Nat) (d a : Fin 32) : fldN 32 (slotBits pop d.val (.reg a) / 2 ^ 14) = a := by
  have : slotBits pop d.val (.reg a) / 2 ^ 14 % 32 = a.val := by simp only [slotBits]; omega
  exact Fin.ext this
theorem slot_reg_low (pop : Nat) (d a : Fin 32) : (slotBits pop d.val (.reg a) % 2 ^ 14 == 0) = true := by
  rw [beq_iff_eq]; simp only [slotBits]; omega

theorem slot_imm_i (pop : Nat) (d : Fin 32) (b : BitVec 19) : (slotBits pop d.val (.imm b) / 2 ^ 19 % 2 == 1) = true := by
  rw [beq_iff_eq]; simp only [slotBits]; omega
theorem slot_imm_b (pop : Nat) (d : Fin 32) (b : BitVec 19) : BitVec.ofNat 19 (slotBits pop d.val (.imm b)) = b := by
  apply BitVec.eq_of_toNat_eq; rw [BitVec.toNat_ofNat]; simp only [slotBits]; omega

theorem slotOf_bits (s : Slot) : slotOf s.bits = some s := by
  cases s with
  | pnop => rfl
  | salu op d y =>
    have e := slot_pop op.pop d y (by cases op <;> decide)
    simp only [slotOf, Slot.bits, e, slot_d]
    cases y <;> simp only [slot_reg_i, slot_reg_a, slot_reg_low, slot_imm_i, slot_imm_b] <;> cases op <;> rfl
  | mv d y =>
    have e := slot_pop 9 d y (by decide)
    simp only [slotOf, Slot.bits, e, slot_d]
    cases y <;> simp only [slot_reg_i, slot_reg_a, slot_reg_low, slot_imm_i, slot_imm_b] <;> rfl
  | br off =>
    have e := slot_pop 11 0 (.imm off) (by decide)
    have d0 := slot_d 11 0 (.imm off)
    have i0 := slot_imm_i 11 0 off
    have b0 := slot_imm_b 11 0 off
    simp only [Fin.val_zero] at e d0 i0 b0
    simp only [slotOf, Slot.bits, e, d0, i0, b0]; rfl
  | brg g off =>
    have k : g.val = (⟨g.val, by omega⟩ : Fin 32).val := rfl
    have e := slot_pop 12 ⟨g.val, by omega⟩ (.imm off) (by decide)
    have d0 := slot_d 12 ⟨g.val, by omega⟩ (.imm off)
    have i0 := slot_imm_i 12 ⟨g.val, by omega⟩ off
    have b0 := slot_imm_b 12 ⟨g.val, by omega⟩ off
    have l : decide (g.val < 8) = true := decide_eq_true g.isLt
    simp only [slotOf, Slot.bits, e, d0, i0, b0, l, fldN_val]; rfl
  | bdec d off =>
    have e := slot_pop 13 d (.imm off) (by decide)
    simp only [slotOf, Slot.bits, e, slot_d, slot_imm_i, slot_imm_b]; rfl
  | vint op d y =>
    have e := slot_pop op.pop d y (by cases op <;> decide)
    simp only [slotOf, Slot.bits, e, slot_d]
    cases y <;> simp only [slot_reg_i, slot_reg_a, slot_reg_low, slot_imm_i, slot_imm_b] <;> cases op <;> rfl
  | vfp op d a =>
    have e := slot_pop op.pop d (.reg a) (by cases op <;> decide)
    simp only [slotOf, Slot.bits, e, slot_d, slot_reg_i, slot_reg_a, slot_reg_low]
    cases op <;> rfl
  | vmv d y =>
    have e := slot_pop 29 d y (by decide)
    simp only [slotOf, Slot.bits, e, slot_d]
    cases y <;> simp only [slot_reg_i, slot_reg_a, slot_reg_low, slot_imm_i, slot_imm_b] <;> rfl
  | vfabs d a =>
    have e := slot_pop 30 d (.reg a) (by decide)
    simp only [slotOf, Slot.bits, e, slot_d, slot_reg_i, slot_reg_a, slot_reg_low]; rfl
  | vfneg d a =>
    have e := slot_pop 31 d (.reg a) (by decide)
    simp only [slotOf, Slot.bits, e, slot_d, slot_reg_i, slot_reg_a, slot_reg_low]; rfl

theorem slotBits_lt (pop d : Nat) (y : PSrc) (h : pop < 64) (hd : d < 32) : slotBits pop d y < 2 ^ 31 := by
  cases y <;> simp only [slotBits] <;> omega

theorem Slot.bits_lt (s : Slot) : s.bits < 2 ^ 31 := by
  cases s with
  | pnop => exact Nat.two_pow_pos 31
  | salu op d y => exact slotBits_lt op.pop d.val y (by cases op <;> decide) d.isLt
  | mv d y => exact slotBits_lt 9 d.val y (by decide) d.isLt
  | br off => exact slotBits_lt 11 0 (.imm off) (by decide) (by decide)
  | brg g off => exact slotBits_lt 12 g.val (.imm off) (by decide) (by omega)
  | bdec d off => exact slotBits_lt 13 d.val (.imm off) (by decide) d.isLt
  | vint op d y => exact slotBits_lt op.pop d.val y (by cases op <;> decide) d.isLt
  | vfp op d a => exact slotBits_lt op.pop d.val (.reg a) (by cases op <;> decide) d.isLt
  | vmv d y => exact slotBits_lt 29 d.val y (by decide) d.isLt
  | vfabs d a => exact slotBits_lt 30 d.val (.reg a) (by decide) d.isLt
  | vfneg d a => exact slotBits_lt 31 d.val (.reg a) (by decide) d.isLt

/-- What two slots decode to (R183). -/
noncomputable def pairDecoded (a b : Slot) : Decoded :=
  if pairOk a b then
    match a, b with
    | .pnop, .pnop => .ok .pnop
    | .pnop, .brg g off => .ok (.brg g off)
    | a, b => .ok (.pairWord a b)
  else .bad .pair

theorem pair_fields (x y : Nat) (hx : x < 2 ^ 31) (hy : y < 2 ^ 31) :
    bitsOf (BitVec.ofNat 64 (2 ^ 62 + x * 2 ^ 31 + y)) 62 2 = 1 ∧
      bitsOf (BitVec.ofNat 64 (2 ^ 62 + x * 2 ^ 31 + y)) 31 31 = x ∧
      bitsOf (BitVec.ofNat 64 (2 ^ 62 + x * 2 ^ 31 + y)) 0 31 = y := by
  have l : 2 ^ 62 + x * 2 ^ 31 + y < 2 ^ 64 := by omega
  rw [bitsOf_ofNat _ _ _ l, bitsOf_ofNat _ _ _ l, bitsOf_ofNat _ _ _ l]
  omega

theorem decode_pair (w : Word) (h : bitsOf w 62 2 = 1) : decode 4 [w] = decodeP w := by
  simp only [decode, h]; rfl

theorem decodeP_slots (w : Word) (a b : Slot) (ha : slotOf (bitsOf w 31 31) = some a)
    (hb : slotOf (bitsOf w 0 31) = some b) : decodeP w =
    pairDecoded a b := by
  simp only [decodeP, ha, hb]
  cases a <;> cases b <;> rfl

theorem decode_pEnc (a b : Slot) : decode 4 (pEnc a b) =
    pairDecoded a b := by
  obtain ⟨k, ka, kb⟩ := pair_fields a.bits b.bits a.bits_lt b.bits_lt
  exact (decode_pair _ k).trans (decodeP_slots _ a b (by rw [ka]; exact slotOf_bits a) (by rw [kb]; exact slotOf_bits b))

theorem wellFormed_pairWord (a b : Slot) : wellFormed (.pairWord a b) =
    (pairOk a b && !(a == .pnop && (b == .pnop || match b with | .brg _ _ => true | _ => false))) := rfl

theorem pair_word (a b : Slot) (h : wellFormed (.pairWord a b) = true) :
    decode 4 (pEnc a b) = .ok (.pairWord a b) := by
  rw [wellFormed_pairWord, Bool.and_eq_true, Bool.not_eq_true'] at h
  rw [decode_pEnc, pairDecoded, if_pos h.1]
  have h := h.2
  · rintro rfl rfl
    exact absurd h (by decide)
  · rintro g off rfl rfl
    exact absurd h (by simp)

theorem brg_word (g : Fin 8) (off : BitVec 19) : decode 4 (pEnc .pnop (.brg g off)) = .ok (.brg g off) := by
  rw [decode_pEnc]; rfl

/-! ## Repeat prefixes (R185) -/

theorem rep_prefix (p : RepPrefix) :
    bitsOf p.word 62 2 = 2 ∧ bitsOf p.word 58 4 = 0 ∧ bitsOf p.word 0 32 = 0 ∧ bitsOf p.word 57 1 = (match p.count with
        | .imm _ => 0
        | .reg _ => 1) ∧
      (⟨match p.count with
        | .imm _ => .imm (BitVec.ofNat 16 (bitsOf p.word 41 16))
        | .reg _ => .reg (fldN 32 (bitsOf p.word 41 5)),
        BitVec.ofNat 3 (bitsOf p.word 38 3), BitVec.ofNat 3 (bitsOf p.word 35 3), BitVec.ofNat 3 (bitsOf p.word 32 3)⟩
        : RepPrefix) = p ∧ (∀ r, p.count = .reg r → bitsOf p.word 46 11 = 0) := by
  rcases p with ⟨c, sd, sa, sb⟩
  have e3 : ∀ (n : Nat) (b : BitVec 3), n = b.toNat → BitVec.ofNat 3 n = b := fun n b h => by
    rw [h, BitVec.ofNat_toNat, BitVec.setWidth_eq]
  cases c with
  | imm n =>
    have l : 2 * 2 ^ 62 + n.toNat * 2 ^ 41 + sd.toNat * 2 ^ 38 + sa.toNat * 2 ^ 35 + sb.toNat * 2 ^ 32 < 2 ^ 64 := by omega
    have e : (RepPrefix.mk (.imm n) sd sa sb).word = BitVec.ofNat 64
      (2 * 2 ^ 62 + n.toNat * 2 ^ 41 + sd.toNat * 2 ^ 38 + sa.toNat * 2 ^ 35 + sb.toNat * 2 ^ 32) := rfl
    simp only [e, bitsOf_ofNat _ _ _ l]
    refine ⟨by omega, by omega, by omega, by omega, ?_, fun r h => by cases h⟩
    rw [e3 _ sd (by omega), e3 _ sa (by omega), e3 _ sb (by omega)]
    congr 2
    apply BitVec.eq_of_toNat_eq; rw [BitVec.toNat_ofNat]; omega
  | reg r =>
    have l : 2 * 2 ^ 62 + (2 ^ 57 + r.val * 2 ^ 41) + sd.toNat * 2 ^ 38 + sa.toNat * 2 ^ 35 + sb.toNat * 2 ^ 32 < 2 ^ 64 := by
      omega
    have e : (RepPrefix.mk (.reg r) sd sa sb).word = BitVec.ofNat 64
      (2 * 2 ^ 62 + (2 ^ 57 + r.val * 2 ^ 41) + sd.toNat * 2 ^ 38 + sa.toNat * 2 ^ 35 + sb.toNat * 2 ^ 32) := rfl
    simp only [e, bitsOf_ofNat _ _ _ l]
    refine ⟨by omega, by omega, by omega, by omega, ?_, fun _ _ => by omega⟩
    rw [e3 _ sd (by omega), e3 _ sa (by omega), e3 _ sb (by omega)]
    congr 2
    apply Fin.ext; simp only [fldN, Fin.ofNat]; omega

theorem decode_rep (w : Word) (r : List Word) (h : bitsOf w 62 2 = 2) :
    decode 4 (w :: r) = decodeX 4 w r[0]? r[1]? := by
  simp only [decode, h]; rfl

theorem rep_checks (p : RepPrefix) (f : Word) (lit : Option (BitVec 62)) (f1 : bitsOf f 62 2 = 0)
    (f2 : (FWord.ofWord f).lit = lit.isSome) (w3 : (FWord.ofWord f).opc ≠ 0x10) (w4 : (FWord.ofWord f).opc ≠ 0x18)
    (w5 : (FWord.ofWord f).opc ≠ 0x19) (ha : fits (.rep p f lit)) :
    decodeX 4 p.word (some f) (lit.map litWordOf) = .ok (.rep p f lit) := by
  obtain ⟨sh, r, i, a1, a2, a3, a4⟩ := ha
  obtain ⟨-, p2, p3, p4, p5, p6⟩ := rep_prefix p
  have hl : (if lit.isSome = true then literal (lit.map litWordOf) else none) = lit := by
    cases lit with
    | none => rfl
    | some b => exact literal_litNext b
  rcases p with ⟨c, sd, sa, sb⟩
  cases c with
  | imm n =>
    simp only at p4 p5 a3
    simp [decodeX, p2, f1, a1, a2, a4, p3, w3, w4, w5, p4, p5, a3, f2, hl]
  | reg x =>
    have p6 := p6 x rfl
    simp only at p4 p5 a3
    simp [decodeX, p2, f1, a1, a2, a4, p3, w3, w4, w5, p4, p5, p6, a3, f2, hl]

theorem rep_word (p : RepPrefix) (f : Word) (lit : Option (BitVec 62)) (h : wellFormed (.rep p f lit) = true)
    (ha : fits (.rep p f lit)) : decode 4 (encode (.rep p f lit)) = .ok (.rep p f lit) := by
  have w : (f.toNat / 2 ^ 62 == 0 && (f.toNat / 2 ^ 50 % 2 == 1) == lit.isSome &&
      !(f.toNat / 2 ^ 55 == 0x10 || f.toNat / 2 ^ 55 == 0x18 || f.toNat / 2 ^ 55 == 0x19)) = true := h
  simp only [Bool.and_eq_true, Bool.not_eq_true', Bool.or_eq_false_iff, beq_iff_eq, beq_eq_false_iff_ne] at w
  obtain ⟨⟨w1, w2⟩, ⟨w3, w4⟩, w5⟩ := w
  have lf := f.isLt
  have f1 : bitsOf f 62 2 = 0 := by simp only [bitsOf]; omega
  have f2 : (FWord.ofWord f).opc = f.toNat / 2 ^ 55 := by simp only [FWord.ofWord, bitsOf]; omega
  have f3 : (FWord.ofWord f).lit = lit.isSome := by simp only [FWord.ofWord, bitsOf]; exact w2
  rw [← f2] at w3 w4 w5
  have key := rep_checks p f lit f1 f3 w3 w4 w5 ha
  cases lit with
  | none => exact (decode_rep _ [f] (rep_prefix p).1).trans key
  | some b => exact (decode_rep _ [f, _] (rep_prefix p).1).trans key
end Sys2Proof
end

