-- ==== Sys2Proof/Laws/Seq.lean ====
section
/-! SUPPORT. The sequencer: what a pair word is to it, and what a turn of the lanes leaves of an entry (R156, R184). -/

namespace Sys2Proof

/-- The word of a pair has no F-word. -/
theorem fwordOf_pairWord (a b : Slot) : fwordOf (.pairWord a b) = none := by
  have ha := a.bits_lt
  have hb := b.bits_lt
  have h : bitsOf (BitVec.ofNat 64 (2 ^ 62 + a.bits * 2 ^ 31 + b.bits)) 62 2 = 1 := by
    simp only [bitsOf, BitVec.toNat_ofNat]
    omega
  have e : encode (.pairWord a b) = pEnc a b := rfl
  unfold fwordOf
  rw [e]
  simp only [pEnc]
  rw [if_neg (by rw [h]; decide)]

theorem entriesOf_none (i : Instr) (h : fwordOf i = none) : entriesOf i = vectorSlots i := by
  unfold entriesOf
  rw [h]

/-- A pair word takes an entry for each of its vector slots. -/
theorem entriesOf_pairWord (a b : Slot) : entriesOf (.pairWord a b) = a.isVector.toNat + b.isVector.toNat :=
  entriesOf_none _ (fwordOf_pairWord a b)

namespace Machine

@[simp] theorem State.goesOn_start (s : State) (e : SeqEntry) (n : Nat) : (s.goesOn e n).fl.cap.start = n := rfl
@[simp] theorem State.goesOn_instr (s : State) (e : SeqEntry) (n : Nat) : (s.goesOn e n).instr = e.instr := rfl
@[simp] theorem State.goesOn_fault (s : State) (e : SeqEntry) (n : Nat) : (s.goesOn e n).fault = false := rfl

end Machine

end Sys2Proof
end

