-- ==== Sys2Proof/Safety.lean ====
section
/-! DEFINITION. The terms that claims are stated in: memory in its canonical form, what an instruction starts from, and what it means that
it completes, jumps or waits, with everything it leaves unchanged. -/

namespace Sys2Proof.Machine

/-- Every tile of a hart lists its cells in canonical form. -/
def Hart.canonical (h : Hart) : Prop := ∀ t : Fin 4, Sparse.wf (0 : Cell56) h.regs.acc[t].cells = true

/-- Main memory, every window, the page records and every hart's tiles are in canonical form: rising keys and no entry that equals what
an unlisted key reads as. -/
def State.canonical (s : State) : Prop :=
  Memory.wf s.ms.mem = true ∧ Sparse.wf PageMeta.reset s.ms.metas = true ∧
    (∀ w ∈ s.cores.windows, Memory.wf w.bytes = true) ∧ s.hart.canonical ∧ ∀ h ∈ s.parked, h.canonical

/-- The outcome is a next state. -/
def goesOn (o : Out) : Prop := ∃ t, o = .next t

/-- Nothing but the memory side and the functions' records differs from `s` in `t`. -/
def State.memOnly (s t : State) : Prop := t = { s with ms := t.ms, fns := t.fns }

/-! ## What an instruction starts from -/

/-- The state after the pop that the reads of x30 among `rs` make (R60, R178): the head message leaves the queue and its first eight
bytes are what x30 reads as. None where the hart has no queue or no message, or a copy of the hart holds the message's bytes (R55). -/
def popped (rs : List (Fin 32)) (s : State) : Option State :=
  if rs.contains 30 then
    if s.hart.csr.mqEntries = 0 then none
    else match s.hart.ctl.mq.msgs with
    | [] => none
    | (n, _) :: r =>
      let off := s.hart.csr.mqBase + 256 * s.hart.ctl.mq.head
      if s.interlocked [(locAddr off, n)] then none
      else some ((s.modCtl (fun c => { c with
        mq := { c.mq with head := (c.mq.head + 1) % s.hart.csr.mqEntries, msgs := r } })).modRegs
        (fun g => { g with x := g.x.set 30 (BitVec.ofNat 64 (leNat ((s.myRead off n).take 8))) }))
  else some s

/-- An F-word executes in `s` (R171), and `u` is the state after its pop; one that is re-issued pops nothing (R327). -/
def Starts (h : Hdr) (rs : List (Fin 32)) (s u : State) : Prop :=
  guardOn h s = true ∧ if s.hart.ctl.resume.isSome then u = s else popped rs s = some u

/-! ## F-words -/

end Sys2Proof.Machine

namespace Sys2Proof

/-- The header of the service call that a memory service comes by. -/
def Via.header : Via → Option Hdr
  | .svc h => some h
  | .mbox _ => none

/-- The guard fields of an F-word (R170, R171); none for every other instruction and for the events. -/
def Instr.header : Instr → Option Hdr
  | .add h _ _ _ => some h
  | .sub h _ _ _ => some h
  | .and h _ _ _ => some h
  | .or h _ _ _ => some h
  | .xor h _ _ _ => some h
  | .sll h _ _ _ => some h
  | .srl h _ _ _ => some h
  | .sra h _ _ _ => some h
  | .mul h _ _ _ => some h
  | .mulh h _ _ _ => some h
  | .mulhu h _ _ _ => some h
  | .div h _ _ _ => some h
  | .divu h _ _ _ => some h
  | .rem h _ _ _ => some h
  | .remu h _ _ _ => some h
  | .min h _ _ _ => some h
  | .max h _ _ _ => some h
  | .minu h _ _ _ => some h
  | .maxu h _ _ _ => some h
  | .clz h _ _ => some h
  | .ctz h _ _ => some h
  | .popc h _ _ => some h
  | .addsh h _ _ _ _ => some h
  | .rot h _ _ _ => some h
  | .ceq h _ _ _ => some h
  | .cne h _ _ _ => some h
  | .clt h _ _ _ => some h
  | .cltu h _ _ _ => some h
  | .cge h _ _ _ => some h
  | .cgeu h _ _ _ => some h
  | .gand h _ _ _ => some h
  | .gor h _ _ _ => some h
  | .gxor h _ _ _ => some h
  | .gnot h _ _ => some h
  | .li h _ _ => some h
  | .mv h _ _ => some h
  | .adr h _ _ => some h
  | .sel h _ _ _ _ => some h
  | .gget h _ => some h
  | .gput h _ => some h
  | .fadd h _ _ _ => some h
  | .fsub h _ _ _ => some h
  | .fmul h _ _ _ => some h
  | .fdiv h _ _ _ => some h
  | .fma h _ _ _ => some h
  | .fmin h _ _ _ => some h
  | .fmax h _ _ _ => some h
  | .fsqrt h _ _ => some h
  | .fcvtw h _ _ => some h
  | .fcvtf h _ _ => some h
  | .fclt h _ _ _ => some h
  | .fceq h _ _ _ => some h
  | .fcle h _ _ _ => some h
  | .lb h _ _ _ => some h
  | .lbu h _ _ _ => some h
  | .lh h _ _ _ => some h
  | .lhu h _ _ _ => some h
  | .lw h _ _ _ => some h
  | .lwu h _ _ _ => some h
  | .ld h _ _ _ => some h
  | .ldacq h _ _ _ => some h
  | .sb h _ _ _ => some h
  | .sh h _ _ _ => some h
  | .sw h _ _ _ => some h
  | .sd h _ _ _ => some h
  | .strel h _ _ _ => some h
  | .amoadd h _ _ _ _ => some h
  | .amoswap h _ _ _ _ => some h
  | .amocas h _ _ _ _ => some h
  | .amomin h _ _ _ _ => some h
  | .amomax h _ _ _ _ => some h
  | .amominu h _ _ _ _ => some h
  | .amomaxu h _ _ _ _ => some h
  | .amoand h _ _ _ _ => some h
  | .amoor h _ _ _ _ => some h
  | .amoxor h _ _ _ _ => some h
  | .br h _ => some h
  | .jal h _ => some h
  | .jr h _ => some h
  | .jalr h _ _ => some h
  | .bdec h _ _ => some h
  | .csrr h _ _ => some h
  | .csrw h _ _ => some h
  | .csrs h _ _ => some h
  | .csrc h _ _ => some h
  | .trap h _ => some h
  | .svc h _ => some h
  | .ebreak h => some h
  | .uret h => some h
  | .halt h => some h
  | .yield h => some h
  | .icsync h => some h
  | .ujmp h _ => some h
  | .wfe h _ _ => some h
  | .launch h _ _ => some h
  | .barCrew h _ => some h
  | .barLaunch h _ => some h
  | .itpost h _ _ => some h
  | .itwait h _ _ => some h
  | .fenceSv h _ => some h
  | .fenceVs h _ => some h
  | .fenceVv h _ => some h
  | .fenceAll h _ => some h
  | .fencerec h _ _ => some h
  | .vadd h _ _ _ _ => some h
  | .vsub h _ _ _ _ => some h
  | .vrsub h _ _ _ _ => some h
  | .vand h _ _ _ _ => some h
  | .vor h _ _ _ _ => some h
  | .vxor h _ _ _ _ => some h
  | .vsll h _ _ _ _ => some h
  | .vsrl h _ _ _ _ => some h
  | .vsra h _ _ _ _ => some h
  | .vmul h _ _ _ _ => some h
  | .vmulh h _ _ _ _ => some h
  | .vmulhu h _ _ _ _ => some h
  | .vdiv h _ _ _ _ => some h
  | .vdivu h _ _ _ _ => some h
  | .vrem h _ _ _ _ => some h
  | .vremu h _ _ _ _ => some h
  | .vmin h _ _ _ _ => some h
  | .vmax h _ _ _ _ => some h
  | .vminu h _ _ _ _ => some h
  | .vmaxu h _ _ _ _ => some h
  | .vsadd h _ _ _ _ => some h
  | .vsaddu h _ _ _ _ => some h
  | .vssub h _ _ _ _ => some h
  | .vssubu h _ _ _ _ => some h
  | .vabs h _ _ _ => some h
  | .vmv h _ _ _ => some h
  | .vmerge h _ _ _ _ => some h
  | .vid h _ _ => some h
  | .vseq h _ _ _ _ => some h
  | .vsne h _ _ _ _ => some h
  | .vslt h _ _ _ _ => some h
  | .vsltu h _ _ _ _ => some h
  | .vsle h _ _ _ _ => some h
  | .vsleu h _ _ _ _ => some h
  | .vsgt h _ _ _ _ => some h
  | .vsgtu h _ _ _ _ => some h
  | .vfadd h _ _ _ _ => some h
  | .vfsub h _ _ _ _ => some h
  | .vfrsub h _ _ _ _ => some h
  | .vfmul h _ _ _ _ => some h
  | .vfdiv h _ _ _ _ => some h
  | .vfrdiv h _ _ _ _ => some h
  | .vfsqrt h _ _ _ => some h
  | .vfrsqrt h _ _ _ => some h
  | .vfrcpz h _ _ _ => some h
  | .vfma h _ _ _ _ => some h
  | .vfms h _ _ _ _ => some h
  | .vfnma h _ _ _ _ => some h
  | .vfnms h _ _ _ _ => some h
  | .vfmin h _ _ _ _ => some h
  | .vfmax h _ _ _ _ => some h
  | .vfabs h _ _ _ => some h
  | .vfneg h _ _ _ => some h
  | .vfsgnj h _ _ _ _ => some h
  | .vfexp2 h _ _ _ => some h
  | .vflog2 h _ _ _ => some h
  | .vfscale h _ _ _ _ => some h
  | .vfclass h _ _ _ => some h
  | .vfround h _ _ _ => some h
  | .vfeq h _ _ _ _ => some h
  | .vfne h _ _ _ _ => some h
  | .vflt h _ _ _ _ => some h
  | .vfle h _ _ _ _ => some h
  | .vfgt h _ _ _ _ => some h
  | .vfge h _ _ _ _ => some h
  | .vfuno h _ _ _ _ => some h
  | .kand h _ _ _ => some h
  | .kor h _ _ _ => some h
  | .kxor h _ _ _ => some h
  | .kandn h _ _ _ => some h
  | .knot h _ _ => some h
  | .kpop h _ _ => some h
  | .kfirst h _ _ => some h
  | .kset h _ _ => some h
  | .kmvToMask h _ _ => some h
  | .kmvToVector h _ _ => some h
  | .kall h _ => some h
  | .vslideup h _ _ _ _ => some h
  | .vslidedown h _ _ _ _ => some h
  | .vbcast h _ _ _ _ => some h
  | .vcompress h _ _ _ => some h
  | .vexpand h _ _ _ => some h
  | .vext h _ _ _ => some h
  | .vins h _ _ _ => some h
  | .vscanadd h _ _ _ => some h
  | .vscanmax h _ _ _ => some h
  | .vscanmin h _ _ _ => some h
  | .vscanmul h _ _ _ => some h
  | .vrecur h _ _ _ => some h
  | .vredsum h _ _ _ => some h
  | .vredmax h _ _ _ => some h
  | .vredmin h _ _ _ => some h
  | .vredand h _ _ _ => some h
  | .vredor h _ _ _ => some h
  | .vredxor h _ _ _ => some h
  | .vfredsum h _ _ _ => some h
  | .vfredosum h _ _ _ => some h
  | .vfredmax h _ _ _ => some h
  | .vfredmin h _ _ _ => some h
  | .vset h _ _ _ => some h
  | .vsetrun h _ _ _ _ => some h
  | .mcfg h _ => some h
  | .qtld h _ _ => some h
  | .scmvToScale h _ _ => some h
  | .scmvFromScale h _ _ => some h
  | .vcvth h _ _ _ _ _ => some h
  | .vcvtd h _ _ _ _ => some h
  | .vcvtq h _ _ _ _ _ _ => some h
  | .vcvti h _ _ _ _ => some h
  | .vld h _ _ _ _ _ _ => some h
  | .vlds h _ _ _ _ _ => some h
  | .vldrow h _ _ _ _ => some h
  | .vldl h _ _ _ _ => some h
  | .vldfm h _ _ _ => some h
  | .vst h _ _ _ _ _ => some h
  | .vsts h _ _ _ _ => some h
  | .vstl h _ _ _ _ => some h
  | .cpy h _ _ _ _ => some h
  | .cpy2 h _ _ _ _ => some h
  | .cpres h _ => some h
  | .pgreq h _ _ => some h
  | .twany h _ _ => some h
  | .twall h _ => some h
  | .tffr h _ _ => some h
  | .tclr h _ => some h
  | .stlook h _ _ => some h
  | .stset h _ _ => some h
  | .stinv h _ => some h
  | .vramo h _ _ _ _ _ => some h
  | .vrred h _ _ _ _ => some h
  | .mqpush h _ _ => some h
  | .mqpop h _ => some h
  | .mqcred h _ _ => some h
  | .gcsleep h _ _ _ _ _ _ _ => some h
  | .plan h _ _ _ _ => some h
  | .planm h _ _ _ => some h
  | .plgat h _ _ _ _ _ _ _ => some h
  | .plcpy h _ _ _ _ _ _ _ _ => some h
  | .plgatv h _ _ _ _ => some h
  | .plscatAdd h _ _ _ _ _ _ => some h
  | .plscatMin h _ _ _ _ _ _ => some h
  | .plscatMax h _ _ _ _ _ _ => some h
  | .plscatFirst h _ _ _ _ _ _ => some h
  | .plscatLast h _ _ _ _ _ _ => some h
  | .plscatAmoadd h _ _ _ _ _ _ => some h
  | .plredAdd h _ _ _ _ => some h
  | .plredMin h _ _ _ _ => some h
  | .plredMax h _ _ _ _ => some h
  | .plbcast h _ _ _ => some h
  | .plcomp h _ _ _ => some h
  | .plinfo h _ _ _ => some h
  | .plchk h _ _ => some h
  | .plsave h _ _ => some h
  | .plload h _ _ => some h
  | .plfree h _ => some h
  | .opa h _ _ _ _ _ _ _ => some h
  | .opa2 h _ _ _ _ _ _ _ => some h
  | .opamx h _ _ _ _ _ _ _ _ => some h
  | .tzero h _ _ => some h
  | .tld h _ _ _ _ => some h
  | .tst h _ _ _ _ _ => some h
  | .clcfg h _ _ => some h
  | .clins h _ _ _ _ _ => some h
  | .clmrg h _ => some h
  | .clrd h _ _ _ => some h
  | .clclr h => some h
  | .clstat h _ _ => some h
  | .pairWord _ _ => none
  | .pnop => none
  | .brg _ _ => none
  | .rep _ _ _ => none
  | .instructionFetch => none
  | .trapDelivery _ => none
  | .storeAtTarget _ => none
  | .writeUnitPerform _ => none
  | .mergingAddArrival _ => none
  | .writeQueueApply _ => none
  | .copyChunk _ _ => none
  | .copyComplete _ _ => none
  | .messageDelivery _ _ => none
  | .creditGrant _ => none
  | .gcsleepReevaluation _ => none
  | .recordCheck _ _ => none
  | .dependenceRead _ _ => none
  | .crewPlacement _ => none
  | .preemption _ _ => none
  | .resumption _ _ => none
  | .budgetExpiry _ _ => none
  | .gleanSweep _ => none
  | .conversionCommit _ => none
  | .version h => some h
  | .svcPartition h => some h
  | .frames h => some h
  | .mapPages v => v.header
  | .unmapPages v => v.header
  | .protectPages v => v.header
  | .offerPages v => v.header
  | .acceptPages v => v.header
  | .thawPages v => v.header
  | .exportPages _ => none
  | .importPages _ => none
  | .attest _ => none
  | .partition _ => none
  | .quota _ => none
  | .weight _ => none
  | .setglean _ => none
  | .setbudget _ => none
  | .peerset _ => none
  | .migrate _ => none
  | .migrationQuiesce _ => none
  | .dbgattach _ => none
  | .dbgdetach _ => none
  | .dbgstop _ => none
  | .dbgresume _ => none
  | .dbgretire _ => none
  | .dbgread _ => none
  | .hostRead _ _ _ => none
  | .hostWrite _ _ _ => none
  | .peerAccess _ _ _ => none
  | .qtailDoorbell _ _ _ => none
  | .queueEnable _ _ => none
  | .queueDisable _ _ => none
  | .restart _ _ => none
  | .skip _ _ => none
  | .prtailWrite _ _ => none
  | .prrefuse _ _ => none
  | .evtailWrite _ _ => none
  | .registerWrite _ _ _ => none
  | .linkDown _ => none
  | .linkUp _ => none
  | .hostLinkTraining _ _ => none
  | .boot _ => none
  | .deviceReset => none
  | .hbmUncorrectableError _ _ => none
  | .coreUncorrectableError _ => none
  | .furrowFailure _ => none
  | .pseudoChannelFailure _ _ => none
  | .monitorLimit _ => none
  | .functionCreation _ _ => none
  | .unassignedEncoding _ => none

end Sys2Proof

namespace Sys2Proof.Machine

/-! ## How it ends -/

/-- `t` is `u` after the instruction at its pc has completed and goes on at `target`: `inst` counts it, the pc or the repeat advances
(R186, R188), the progress pin is released unless older instructions of the hart are in flight or it is in its handler (R42), and nothing
else changes. -/
structure Passes (u : State) (target : Word) (t : State) : Prop where
  regs  : t.hart.regs = u.hart.regs
  place : t.hart.place = u.hart.place
  csr   : t.hart.csr = { u.hart.csr with inst := u.hart.csr.inst + 1, rpc := t.hart.csr.rpc }
  ctl   : t.hart.ctl = { u.hart.ctl with
            pc := t.hart.ctl.pc, rep := t.hart.ctl.rep, resume := none, begin := 0, scat := none,
            phase := .running, pin := t.hart.ctl.pin, pinAt := t.hart.ctl.pinAt }
  plain : u.hart.ctl.rep = none →
            t.hart.ctl.pc = target ∧ t.hart.ctl.rep = none ∧ t.hart.csr.rpc = u.hart.csr.rpc
  last  : ∀ r, u.hart.ctl.rep = some r → r.count ≤ u.hart.csr.rpc.toNat + 1 →
            t.hart.ctl.pc = u.hart.ctl.next ∧ t.hart.ctl.rep = none ∧ t.hart.csr.rpc = 0
  again : ∀ r, u.hart.ctl.rep = some r → u.hart.csr.rpc.toNat + 1 < r.count →
            t.hart.ctl.pc = u.hart.ctl.pc ∧ t.hart.ctl.rep = some r ∧
              t.hart.csr.rpc = BitVec.ofNat 64 (u.hart.csr.rpc.toNat + 1)
  free  : u.hart.ctl.window = [] ∧ u.hart.ctl.stores = [] ∧ u.hart.ctl.inHandler = false →
            t.hart.ctl.pin = none ∧ t.hart.ctl.pinAt = none ∧ t.ms = (u.unpin u.hart).ms
  held  : ¬ (u.hart.ctl.window = [] ∧ u.hart.ctl.stores = [] ∧ u.hart.ctl.inHandler = false) →
            t.hart.ctl.pin = u.hart.ctl.pin ∧ t.hart.ctl.pinAt = u.hart.ctl.pinAt ∧ t.ms = u.ms
  rest  : t = { u with hart := t.hart, ms := t.ms }

/-- The instruction completes, having made `u` of the state it started from. -/
def Completes (i : Instr) (s u : State) : Prop := ∃ t, exec i s = .next t ∧ Passes u u.hart.ctl.next t

/-- The instruction completes with a branch to `target`. -/
def Jumps (i : Instr) (s : State) (target : Word) (u : State) : Prop := ∃ t, exec i s = .next t ∧ Passes u target t

/-- The instruction waits: from `u`, its pop is undone, the hart tries again later, and nothing else changes. -/
def Waits (i : Instr) (s u : State) : Prop :=
  exec i s = .next ((u.unpop s).modCtl (fun c => { c with phase := .waiting }))

/-- An F-word traps, found in `u`; what it popped stays popped, and its re-issue reads it (R326). -/
def Traps (i : Instr) (s u : State) (t : Trap) : Prop := exec i s = .next (u.deliver t)

/-! ## What vector instructions write -/

/-- The grant is one the scheduler gives, and the elements that `vl` counts fit a register group (R152, R231, R232). -/
def State.vecOk (u : State) : Prop :=
  1 ≤ u.hart.place.grant ∧ u.hart.place.grant ≤ 12 ∧ u.vl ≤ vlmaxOf u.hart.place.grant u.vt.size u.vt.fmt.width

/-- From `u` to `t` the elements `i` of the group of `size` registers at `d` with `p i` got the values `f i`; no other element of the
group, no other register and nothing else changed. -/
structure WroteElts (u : State) (d : Fin 64) (size w : Nat) (p : Nat → Bool) (f : Nat → Nat) (t : State) : Prop where
  elts    : ∀ i, i < vlmaxOf u.hart.place.grant size w → t.elt d w i = if p i then f i % 2 ^ w else u.elt d w i
  outside : ∀ r : Fin 64, r.val < d.val ∨ d.val + size ≤ r.val → t.hart.regs.v[r] = u.hart.regs.v[r]
  above   : ∀ (r : Fin 64) (j : Nat), u.hart.place.grant * 8192 ≤ j →
              t.hart.regs.v[r].getLsbD j = u.hart.regs.v[r].getLsbD j
  rest    : t = u.modRegs (fun g => { g with v := t.hart.regs.v })

/-- From `u` to `t` the bits `i` of mask `k` with `p i` got the values `f i`; nothing else changed. -/
structure WroteBits (u : State) (k : Fin 8) (p : Nat → Bool) (f : Nat → Bool) (t : State) : Prop where
  bits : ∀ i, i < 196608 → t.kbit k i = if p i then f i else u.kbit k i
  rest : t = u.modRegs (fun g => { g with k := g.k.set k t.hart.regs.k[k] })

/-- The flags that the elements `i` of `is` raise together. -/
def joinFlags (f : Nat → Flags) (is : List Nat) : Flags := is.foldl (fun x i => x ||| f i) 0

/-- What an element-wise instruction that sets flags does (R86), given the flags `fl` that its elements raise: where no element group
raises an enabled flag, it completes with all its writes and all the flags; at the first group that raises one it traps with ARITH, that
group's flags and its first index, the groups below it written and their flags accumulated. An execution that is a turn of the lanes goes up to
the end of the turn (`turnEnd`). `Wrote v p t` says that from `v` to `t`
the positions with `p` were written; `fin` is what follows a completed instruction. -/
def endsByGroup (i : Instr) (s u : State) (w : Nat) (fl : Nat → Flags) (Wrote : State → (Nat → Bool) → State → Prop)
    (fin : State → State := id) : Prop :=
  let n := u.turnEnd u.vl
  let live := fun j => decide (j < n) && decide (u.cur.start ≤ j)
  let fl := fun j => if live j then fl j else 0
  let per := 256 / w
  let group := fun k => (List.range per).map (k * per + ·)
  ((∀ k, u.enabled (joinFlags fl (group k)) = false) →
    ∃ t, Completes i s (fin t) ∧ Wrote (u.accrue (joinFlags fl (List.range n))) live t) ∧
  (∀ k, k * per < n → (∀ j, j < k → u.enabled (joinFlags fl (group j)) = false) →
    u.enabled (joinFlags fl (group k)) = true →
    ∃ t, Traps i s t (arithTrap (joinFlags fl (group k)) (k * per)) ∧
      Wrote (u.accrue (joinFlags fl (List.range (k * per)))) (fun j => live j && decide (j < k * per)) t)

end Sys2Proof.Machine
end

