-- ==== Sys2Proof/Certificates/Slice0/Obligations.lean ====
section
/-! DEFINITION. What is claimed of the model, statement by statement: the rules of spec/ as equations about `exec`, and four claims about the
machine as a whole. -/

open Sys2Proof Sys2Proof.Machine

/-- R198: every SALU instruction completes, and puts into `x[d]` the value that R198 gives it of `x[a]` and the second operand: CLZ counts the
zero bits above the highest set bit, CTZ those below the lowest, POPC the set bits. `setX` discards the write where d is x0 or x30. No flag
changes and no trap is taken; a word of ADDSH with other bits of IMM16 set is refused with subcode RESERVED. -/
def Obligations.ScalarArithmetic : Prop :=
  (∀ (h : Hdr) (d a : Fin 32) (y : Src) (s u : State), Starts h (a :: srcRegs y) s u →
    let p := u.x a
    let q := u.src y
    let n := q.toNat % 64
    let put := fun (i : Instr) (v : Word) => Completes i s (u.setX d v)
    put (.add h d a y) (p + q) ∧ put (.sub h d a y) (p - q) ∧
    put (.and h d a y) (p &&& q) ∧ put (.or h d a y) (p ||| q) ∧ put (.xor h d a y) (p ^^^ q) ∧
    put (.sll h d a y) (p <<< n) ∧ put (.srl h d a y) (p >>> n) ∧ put (.sra h d a y) (p.sshiftRight n) ∧
    put (.rot h d a y) (p.rotateRight n) ∧
    put (.mul h d a y) (BitVec.ofInt 64 (p.toInt * q.toInt)) ∧
    put (.mulh h d a y) (BitVec.ofInt 64 (p.toInt * q.toInt / 2 ^ 64)) ∧
    put (.mulhu h d a y) (BitVec.ofNat 64 (p.toNat * q.toNat / 2 ^ 64)) ∧
    put (.div h d a y) (if q = 0 then BitVec.allOnes 64 else BitVec.ofInt 64 (p.toInt.tdiv q.toInt)) ∧
    put (.divu h d a y) (if q = 0 then BitVec.allOnes 64 else BitVec.ofNat 64 (p.toNat / q.toNat)) ∧
    put (.rem h d a y) (if q = 0 then p else BitVec.ofInt 64 (p.toInt.tmod q.toInt)) ∧
    put (.remu h d a y) (if q = 0 then p else BitVec.ofNat 64 (p.toNat % q.toNat)) ∧
    put (.min h d a y) (BitVec.ofInt 64 (min p.toInt q.toInt)) ∧
    put (.max h d a y) (BitVec.ofInt 64 (max p.toInt q.toInt)) ∧
    put (.minu h d a y) (BitVec.ofNat 64 (min p.toNat q.toNat)) ∧
    put (.maxu h d a y) (BitVec.ofNat 64 (max p.toNat q.toNat))) ∧
  (∀ (h : Hdr) (d a : Fin 32) (s u : State), Starts h [a] s u →
    let p := u.x a
    (∃ n, n ≤ 64 ∧ Completes (.clz h d a) s (u.setX d (BitVec.ofNat 64 n)) ∧
      (∀ i, i < n → p.getLsbD (63 - i) = false) ∧ (n < 64 → p.getLsbD (63 - n) = true)) ∧
    (∃ n, n ≤ 64 ∧ Completes (.ctz h d a) s (u.setX d (BitVec.ofNat 64 n)) ∧
      (∀ i, i < n → p.getLsbD i = false) ∧ (n < 64 → p.getLsbD n = true)) ∧
    Completes (.popc h d a) s (u.setX d (BitVec.ofNat 64 ((List.range 64).countP p.getLsbD)))) ∧
  (∀ (h : Hdr) (d a b : Fin 32) (sh : BitVec 3) (s u : State), Starts h [a, b] s u →
    Completes (.addsh h d a b sh) s (u.setX d (u.x a + u.x b * BitVec.ofNat 64 (2 ^ sh.toNat)))) ∧
  (∀ (h : Hdr) (d a b : Fin 32) (w n : Word), encode (.addsh h d a b 0) = [w] → 8 ≤ n.toNat → n.toNat < 65536 →
    decode 4 [w + n] = .bad .reserved)

/-- R199: the scalar compares write one guard with the relation, and GAND to GNOT with the function of guards; a guard of number 0 reads true. A
compare whose D field is above 7 is refused with subcode REGISTER. -/
def Obligations.ScalarCompares : Prop :=
  ∀ (h : Hdr) (d e f : Fin 8) (a : Fin 32) (y : Src) (s : State),
    (∀ u, Starts h (a :: srcRegs y) s u →
      let p := u.x a
      let q := u.src y
      let put := fun (i : Instr) (v : Bool) => Completes i s (u.setG d v)
      put (.ceq h d a y) (decide (p = q)) ∧ put (.cne h d a y) (decide (p ≠ q)) ∧
      put (.clt h d a y) (decide (p.toInt < q.toInt)) ∧ put (.cltu h d a y) (decide (p.toNat < q.toNat)) ∧
      put (.cge h d a y) (decide (q.toInt ≤ p.toInt)) ∧ put (.cgeu h d a y) (decide (q.toNat ≤ p.toNat))) ∧
    (∀ u, Starts h [] s u →
      Completes (.gand h d e f) s (u.setG d (u.g e && u.g f)) ∧ Completes (.gor h d e f) s (u.setG d (u.g e || u.g f)) ∧
      Completes (.gxor h d e f) s (u.setG d (u.g e ^^ u.g f)) ∧ Completes (.gnot h d e) s (u.setG d !(u.g e))) ∧
    s.g 0 = true ∧
    (∀ i ∈ [Instr.ceq h d a y, .cne h d a y, .clt h d a y, .cltu h d a y, .cge h d a y, .cgeu h d a y], ∀ w r n,
      encode i = w :: r → 1 ≤ n → n ≤ 7 → decode 4 ((w + BitVec.ofNat 64 (n * 2 ^ 45)) :: r) = .bad .register)

/-- R200: LI, MV, ADR and SEL complete with their results. R200: GGET reads the eight guards into the low byte, and GPUT writes g1 to g7 from
bits 1 to 7 and nothing else. -/
def Obligations.ScalarMoves : Prop :=
  (∀ (h : Hdr) (d a b : Fin 32) (n : BitVec 3) (im : Imm) (s : State),
      (∀ u, Starts h [a, b] s u →
        Completes (.sel h d a b n) s (u.setX d (if u.g n.toFin then u.x a else u.x b))) ∧
      (∀ u, Starts h [a] s u → Completes (.mv h d a) s (u.setX d (u.x a))) ∧
      (∀ u, Starts h [] s u →
        Completes (.li h d im) s (u.setX d im.sval) ∧
        Completes (.adr h d im) s (u.setX d (u.hart.ctl.pc + 8 * im.sval)))) ∧
  (∀ (h : Hdr) (d a : Fin 32) (s : State),
      (∀ u, Starts h [] s u → ∃ w : Word, Completes (.gget h d) s (u.setX d w) ∧
        (∀ i : Fin 8, w.getLsbD i.val = u.g i) ∧ ∀ i, 8 ≤ i → w.getLsbD i = false) ∧
      (∀ u, Starts h [a] s u → ∃ v : State, Completes (.gput h a) s v ∧
        (∀ i : Fin 8, v.g i = if i = 0 then true else (u.x a).getLsbD i.val) ∧
        v = u.modRegs (fun r => { r with g := v.hart.regs.g })))

/-- R177, R178: a write of an x register is read back from it and from no other, x0 reads zero and x30 keeps what it is whatever is written; and
a write of a guard likewise, with g0 reading true. Neither changes anything else. An instruction that is issued again reads the x registers
that it captured, whatever has been written since (R326, R327). -/
def Obligations.RegisterWrites : Prop :=
  ∀ (s : State) (r q : Fin 32) (v : Word) (e f : Fin 8) (b : Bool),
    (s.hart.ctl.resume = none → (s.setX r v).x q = (if q = r ∧ r ≠ 0 ∧ r ≠ 30 then v else s.x q)) ∧
    (∀ c, s.hart.ctl.resume = some c → (s.setX r v).x q = if q = 0 then 0 else c.xs[q]) ∧ s.x 0 = 0 ∧
    (r ≠ 0 → r ≠ 30 → (s.setX r v).hart.regs.x[r] = v) ∧
    (s.setX r v) = s.modRegs (fun g => { g with x := (s.setX r v).hart.regs.x }) ∧
    (s.setG e b).g f = (if f = e ∧ e ≠ 0 then b else s.g f) ∧ s.g 0 = true ∧
    (s.setG e b) = s.modRegs (fun g => { g with g := (s.setG e b).hart.regs.g })

/-- R86, R201: an SFP instruction whose flags trap no ARITH accumulates its flags and puts its f32 result into `x[d]`, or its relation into
`g[d]`; with a trap enabled for a flag that it raises it writes nothing and raises ARITH with those flags. R74, R87, R199, R201, R240: what
the relations say of two values, and the flags of each: a relation with a NaN is false but for `ne` and `uno`; the order relations raise NV
for any NaN, the others for a signalling one; finite values compare by their exact values, and the infinities lie below and above them. -/
def Obligations.ScalarFloat : Prop :=
  (∀ (h : Hdr) (d a b : Fin 32) (e : Fin 8) (s u : State),
      let x := f32Of (u.x a)
      let y := f32Of (u.x b)
      let rm := u.hart.csr.frm
      let low := fun (w : Word) => w.toNat % 2 ^ 32
      let ends := fun (i : Instr) (r : Nat × Flags) =>
        (u.enabled r.2 = false → Completes i s ((u.accrue r.2).setX d (BitVec.ofNat 64 r.1))) ∧
        (u.enabled r.2 = true → Traps i s u (arithTrap r.2 0))
      let decides := fun (i : Instr) (r : Bool × Flags) =>
        (u.enabled r.2 = false → Completes i s ((u.accrue r.2).setG e r.1)) ∧
        (u.enabled r.2 = true → Traps i s u (arithTrap r.2 0))
      (Starts h [a, b] s u →
        ends (.fadd h d a b) (fAdd specF32 rm x y) ∧ ends (.fsub h d a b) (fSub specF32 rm x y) ∧
        ends (.fmul h d a b) (fMul specF32 rm x y) ∧ ends (.fdiv h d a b) (fDiv specF32 rm x y) ∧
        ends (.fmin h d a b) (fMinMax specF32 false (low (u.x a)) (low (u.x b))) ∧
        ends (.fmax h d a b) (fMinMax specF32 true (low (u.x a)) (low (u.x b))) ∧
        decides (.fclt h e a b) (FRel.eval .lt x y) ∧ decides (.fceq h e a b) (FRel.eval .eq x y) ∧
        decides (.fcle h e a b) (FRel.eval .le x y)) ∧
      (Starts h [a, b, d] s u → ends (.fma h d a b) (fFma specF32 rm x y (f32Of (u.x d)))) ∧
      (Starts h [a] s u →
        ends (.fsqrt h d a) (fSqrt specF32 rm x) ∧ ends (.fcvtw h d a) (x.toIntFmt rm true 64) ∧
        ends (.fcvtf h d a) (specF32.round false rm (.ofInt (u.x a).toInt)))) ∧
  (∀ (x y : FVal) (nx ny : Bool) (mx my : Nat) (ex ey : Int),
      let un := x.isNan || y.isNan
      let sig := x.isSnan || y.isSnan
      ((FRel.eval .uno x y).1 = un) ∧ ((FRel.eval .ne x y).1 = !(FRel.eval .eq x y).1) ∧
      (un = true → ∀ r ∈ [FRel.eq, .lt, .le, .gt, .ge], (r.eval x y).1 = false) ∧
      (∀ r ∈ [FRel.eq, .ne, .uno], (r.eval x y).2 = if sig then flagNV else 0) ∧
      (∀ r ∈ [FRel.lt, .le, .gt, .ge], (r.eval x y).2 = if un then flagNV else 0) ∧
      (∀ z : FVal, z.isNan = false →
        (FRel.eval .lt (.inf true) z).1 = decide (z ≠ .inf true) ∧ (FRel.eval .lt z (.inf false)).1 = decide (z ≠ .inf false) ∧
        (FRel.eval .lt z (.inf true)).1 = false ∧ (FRel.eval .lt (.inf false) z).1 = false) ∧
      (x.isNan = false → y.isNan = false → let lt := (FRel.eval .lt x y).1; let gt := (FRel.eval .lt y x).1
        (FRel.eval .eq x y).1 = (!lt && !gt) ∧ (FRel.eval .le x y).1 = !gt ∧ (FRel.eval .gt x y).1 = gt ∧ (FRel.eval .ge x y).1 = !lt) ∧
      (let e := min ex ey
       let vx : Int := (if nx then -1 else 1) * (mx * 2 ^ (ex - e).toNat)
       let vy : Int := (if ny then -1 else 1) * (my * 2 ^ (ey - e).toNat)
       let p := FVal.fin nx mx ex
       let q := FVal.fin ny my ey
       (FRel.eval .eq p q).1 = decide (vx = vy) ∧ (FRel.eval .lt p q).1 = decide (vx < vy) ∧
       (FRel.eval .le p q).1 = decide (vx ≤ vy) ∧ (FRel.eval .gt p q).1 = decide (vx > vy) ∧
       (FRel.eval .ge p q).1 = decide (vx ≥ vy)))

/-- R22, R202: a scalar load that no copy in flight holds back and whose access meets no fault puts the bytes, sign- or zero-extended, into
`x[d]`; `v` is the state after the contributions pending on those bytes were applied (R64). R20 to R22, R31, R64, R102, R106: what a scalar
read of `n` bytes gives. In the hart's own window and in the furrow windows it gives the window's bytes, and a read that begins beyond the
window raises PROTECT before a misaligned one raises MISALIGN. At a main-memory address the entry must be valid and readable, its format
assigned, the address aligned (MISALIGN comes first of all) and the page present, and the page's own conditions must hold. -/
def Obligations.ScalarLoads : Prop :=
  (∀ (h : Hdr) (d a : Fin 32) (im : Imm) (sc : Scope) (s u v : State) (bs : List Byte), Starts h [a] s u →
      let p := u.x a + im.sval
      let loads := fun (i : Instr) (p : Word) (n : Nat) (x : Word) =>
        u.interlocked [(p, n)] = false → u.scalarRead p n = .ok (bs, v) → Completes i s (v.setX d x)
      let z := fun (w : Nat) => (BitVec.ofNat w (leNat bs)).setWidth 64
      let sx := fun (w : Nat) => (BitVec.ofNat w (leNat bs)).signExtend 64
      loads (.lb h d a im) p 1 (sx 8) ∧ loads (.lbu h d a im) p 1 (z 8) ∧
      loads (.lh h d a im) p 2 (sx 16) ∧ loads (.lhu h d a im) p 2 (z 16) ∧
      loads (.lw h d a im) p 4 (sx 32) ∧ loads (.lwu h d a im) p 4 (z 32) ∧
      loads (.ld h d a im) p 8 (z 64) ∧ loads (.ldacq h d a sc) (u.x a) 8 (z 64)) ∧
  (∀ (s : State) (a : Word) (n c : Nat) (p : Page) (x : Cause),
      (classOf a = .loc → offsetOf a < s.myWindow → a.toNat % n = 0 →
        s.scalarRead a n = .ok (s.myRead (offsetOf a) n, s)) ∧
      (classOf a = .loc → offsetOf a < s.myWindow → a.toNat % n ≠ 0 → s.scalarRead a n = .error .misalign) ∧
      (classOf a = .loc → s.myWindow ≤ offsetOf a → s.scalarRead a n = .error .protect) ∧
      (classOf a = .frw c → offsetOf a < s.windowSize (furrowOf s.loc * 8 + c) s.hart.place.launch → a.toNat % n = 0 →
        s.scalarRead a n = .ok (s.padRead (furrowOf s.loc * 8 + c) s.hart.place.launch (offsetOf a) n, s)) ∧
      (classOf a = .none → s.scalarRead a n = .error .protect) ∧
      ((classOf a).isVirt = true → a.toNat % n ≠ 0 → s.scalarRead a n = .error .misalign) ∧
      ((classOf a).isVirt = true → a.toNat % n = 0 → s.translate s.ctx a Need.load (fun _ => false) = .error x →
        s.scalarRead a n = .error x) ∧
      ((classOf a).isVirt = true → a.toNat % n = 0 → s.translate s.ctx a Need.load (fun _ => false) = .ok p →
        s.viewFault p false = some x → s.scalarRead a n = .error x) ∧
      ((classOf a).isVirt = true → a.toNat % n = 0 → s.translate s.ctx a Need.load (fun _ => false) = .ok p →
        s.viewFault p false = none →
        s.scalarRead a n = .ok ((s.settle p.frame p.off n).viewRead p n, s.settle p.frame p.off n)))

/-- R22, R29 to R31, R362: the order of the checks of a translated access, and where a translated address lies. A request that the host refuses
raises PROTECT; that it is the last check is the model's choice (log entry 41). -/
def Obligations.Translation : Prop :=
  ∀ (s : State) (ctx : BitVec 16) (a : Word) (n : Need) (mis : Word → Bool),
    let e := s.entryAt ctx a
    let denied := entV e = false ∨ (n.r = true ∧ entR e = false) ∨ (n.w = true ∧ entW e = false) ∨ s.linkLost a e = true
    (denied → s.translate ctx a n mis = .error .protect) ∧
    (¬denied → 12 ≤ entFMT e → s.translate ctx a n mis = .error .format) ∧
    (¬denied → entFMT e < 12 → mis e = true → s.translate ctx a n mis = .error .misalign) ∧
    (¬denied → entFMT e < 12 → mis e = false → entP e = false →
      s.translate ctx a n mis = .error (if n.w then .absentSt else .absent)) ∧
    (¬denied → entFMT e < 12 → mis e = false → entP e = true →
      s.translate ctx a n mis = if s.hostRefused a e n.w then .error .protect else .ok (pageOf ctx a e)) ∧
    (classOf a ≠ .sys ∨ entFRAME e / 2 ^ 28 ≠ 0 → s.hostRefused a e n.w = false)

/-- R57, R203: a scalar store that no copy holds back and that passes the checks of issue is on its way, after any store before it; the plans
that watch its bytes are marked, and no byte is written yet. R42, R203, R329: the oldest store of the hart that has the turn reaches its
target, whatever the hart does meanwhile. It writes its bytes there, little-endian, into the window or through the byte view of the page,
and the hart's progress pin is released unless it is in its handler; or its fault is delivered with the address of the store and the store
itself, which URET can issue again. -/
def Obligations.ScalarStores : Prop :=
  (∀ (h : Hdr) (d a : Fin 32) (im : Imm) (sc : Scope) (s u : State), Starts h [a, d] s u →
      let p := u.x a + im.sval
      let stores := fun (i : Instr) (p : Word) (n : Nat) =>
        u.interlocked [(p, n)] = false → u.scalarIssueFault p n true = none →
        let st : PendingStore := ⟨p, n, u.x d, u.hart.ctl.pc, u.hart.ctl.rep.map (fun r => (r, u.hart.csr.rpc.toNat))⟩
        ∃ v, Completes i s v ∧ v.hart.ctl.stores = u.hart.ctl.stores ++ [st] ∧
          v = { u.noteStore (p, n) with hart := v.hart } ∧
          v.hart = u.hart.modCtl (fun c => { c with stores := u.hart.ctl.stores ++ [st] })
      stores (.sb h d a im) p 1 ∧ stores (.sh h d a im) p 2 ∧ stores (.sw h d a im) p 4 ∧ stores (.sd h d a im) p 8 ∧
      stores (.strel h d a sc) (u.x a) 8) ∧
  (∀ (s u : State) (st : PendingStore) (rest : List PendingStore) (p : Page) (c : Cause),
      s.hart.resident = true → s.hart.ctl.stores = st :: rest → u = s.modCtl (fun x => { x with stores := rest }) →
      let bs := leBytes st.n st.data.toNat
      let done := fun (w : State) => if s.hart.ctl.inHandler then w else w.releasePin
      (classOf st.addr = .loc → exec (.storeAtTarget s.loc) s = .next (done (u.myWrite (offsetOf st.addr) bs))) ∧
      ((classOf st.addr).isVirt = true → u.translate u.ctx st.addr Need.store (fun _ => false) = .ok p →
        u.viewFault p true = none → entFMT p.e ≠ 11 →
        exec (.storeAtTarget s.loc) s = .next (done ((u.settle p.frame p.off st.n).viewWrite p bs))) ∧
      (u.storePerform st = .error c →
        exec (.storeAtTarget s.loc) s = .next (u.takeTrap (trapOf c st.addr) st.pc (some st) true)))

/-- A write into a window changes the bytes written and no others: no other byte of the window, no other window, nothing beside the windows
(R19). A write of a frame's bytes changes the bytes written and no others (R4, R25). -/
def Obligations.StorageWrites : Prop :=
  (∀ (s : State) (core launch off c l a : Nat) (bs : List Byte), s.canonical → (s.window core launch).isSome = true →
      ((s.padWrite core launch off bs).padRead core launch off bs.length = bs) ∧
      ((c, l) ≠ (core, launch) ∨ a < off ∨ off + bs.length ≤ a →
        (s.padWrite core launch off bs).padRead c l a 1 = s.padRead c l a 1) ∧
      s.padWrite core launch off bs = { s with cores := { s.cores with windows := (s.padWrite core launch off bs).cores.windows } }) ∧
  (∀ (s : State) (frame off fr o : Nat) (bs : List Byte), s.canonical →
      off + bs.length ≤ 2 ^ 17 → o < 2 ^ 17 →
      ((s.rawWrite frame off bs).rawRead frame off bs.length = bs) ∧
      (fr ≠ frame ∨ o < off ∨ off + bs.length ≤ o → (s.rawWrite frame off bs).rawRead fr o 1 = s.rawRead fr o 1) ∧
      s.rawWrite frame off bs = { s with ms := { s.ms with mem := (s.rawWrite frame off bs).ms.mem } })

/-- R204 to R207: an atomic that no copy holds back and whose access meets no fault puts the old value, sign-extended, into `x[d]`, and writes
the new one, which its operation makes of the old value and `x[b]`; AMOCAS writes only where the old value equals `x[d]` as it stood before.
`old` is the value at the target and `v` the state with the new one written there. R22, R204, R207: an atomic reads and writes its target at
once. In the hart's own window it works on the window's bytes; at a main-memory address the page must be readable and writable, present, of
a format without blocks, and not poisoned. -/
def Obligations.Atomics : Prop :=
  (∀ (h : Hdr) (d a b : Fin 32) (o : AmoOpts) (s u v : State) (old : Nat),
      let n := if o.word then 4 else 8
      let w := 8 * n
      let y := (u.x b).setWidth w
      let p := u.x a
      let sext := (BitVec.ofNat w old).signExtend 64
      let amo := fun (i : Instr) (new : BitVec w → BitVec w) =>
        Starts h [a, b] s u → u.interlocked [(p, n)] = false →
        u.amoAt p n (fun z => some (new (BitVec.ofNat w z)).toNat) = .ok (old, v) →
        Completes i s ((v.noteStore (p, n)).setX d sext)
      amo (.amoadd h d a b o) (· + y) ∧ amo (.amoswap h d a b o) (fun _ => y) ∧
      amo (.amoand h d a b o) (· &&& y) ∧ amo (.amoor h d a b o) (· ||| y) ∧ amo (.amoxor h d a b o) (· ^^^ y) ∧
      amo (.amomin h d a b o) (fun z => if y.toInt < z.toInt then y else z) ∧
      amo (.amomax h d a b o) (fun z => if z.toInt < y.toInt then y else z) ∧
      amo (.amominu h d a b o) (fun z => if y.toNat < z.toNat then y else z) ∧
      amo (.amomaxu h d a b o) (fun z => if z.toNat < y.toNat then y else z) ∧
      (Starts h [a, b, d] s u → u.interlocked [(p, n)] = false →
        u.amoAt p n (fun z => if z = ((u.x d).setWidth w).toNat then some y.toNat else none) = .ok (old, v) →
        (old = ((u.x d).setWidth w).toNat → Completes (.amocas h d a b o) s ((v.noteStore (p, n)).setX d sext)) ∧
        (old ≠ ((u.x d).setWidth w).toNat → Completes (.amocas h d a b o) s (v.setX d sext)))) ∧
  (∀ (s : State) (a : Word) (n : Nat) (f : Nat → Option Nat) (p : Page),
      let old := leNat (s.myRead (offsetOf a) n)
      let at' := s.settle p.frame p.off n
      let oldV := at'.rawNat p.frame p.off n
      (classOf a = .loc → s.scalarIssueFault a n true = none →
        s.amoAt a n f = .ok (old, match f old with
          | some v => s.myWrite (offsetOf a) (leBytes n v)
          | none => s)) ∧
      ((classOf a).isVirt = true → a.toNat % n = 0 → s.translate s.ctx a Need.amo (fun _ => false) = .ok p →
        (s.pmeta p.frame).state ≠ 3 → entFMT p.e < 6 →
        s.amoAt a n f = .ok (oldV, match f oldV with
          | some v => at'.viewWrite p (leBytes n v)
          | none => at')) ∧
      (∀ c, classOf a = .frw c → s.amoAt a n f = .error .protect))

/-- R208, R214, R329: branches and jumps. A target that is not a multiple of 8 raises MISALIGN, and then nothing is written; JAL and JALR write
the address after the instruction; BDEC falls through when the counter reaches 0; UJMP leaves the handler, and the progress pin goes. BDEC
naming x0, which reads 0 and keeps nothing, branches on the computed value 2^64 - 1: the model's choice (log entry 34). -/
def Obligations.Branches : Prop :=
  ∀ (h : Hdr) (d a : Fin 32) (im : Imm) (s u : State),
    let rel := u.hart.ctl.pc + 8 * im.sval
    let goes := fun (i : Instr) (x : Word) (v : State) =>
      (x.toNat % 8 = 0 → Jumps i s x v) ∧ (x.toNat % 8 ≠ 0 → exec i s = .next ((s.keepPop u).deliver (trapOf .misalign x)))
    (Starts h [] s u → goes (.br h im) rel u ∧ goes (.jal h im) rel (u.setX 1 u.hart.ctl.next)) ∧
    (Starts h [a] s u → goes (.jr h a) (u.x a) u ∧ goes (.jalr h d a) (u.x a) (u.setX d u.hart.ctl.next) ∧
      (u.hart.ctl.inHandler = true → goes (.ujmp h a) (u.x a) u.leaveHandler.releasePin) ∧
      (u.hart.ctl.inHandler = false → Traps (.ujmp h a) s u (illegal .state))) ∧
    (Starts h [d] s u →
      (u.x d = 1 → Completes (.bdec h d im) s (u.setX d 0)) ∧
      (u.x d ≠ 1 → goes (.bdec h d im) rel (u.setX d (u.x d - 1)))) ∧
    (Starts h [0] s u → goes (.bdec h 0 im) rel u) ∧
    (s.keepPop u).hart = { s.hart with
      ctl := { s.hart.ctl with mq := u.hart.ctl.mq }, regs := { s.hart.regs with x := s.hart.regs.x.set 30 u.hart.regs.x[30] } }

/-- R193, R209, R210: CSRR puts the CSR's value into `x[d]`; CSRW, CSRS and CSRC write `x[a]`, the old value with bits set, or with bits
cleared; an unassigned number, a read-only CSR or a value that its rule refuses raises ILLEGAL with subcode CSR and writes nothing. R12,
R49, R53, R67, R142, R152, R193: the assigned CSR numbers and what each reads as; every other number reads as nothing. R193: a write of a
read-only CSR is refused, one of utvec or uepc with bits 2:0 not zero is refused, and a write that is taken leaves every other part of the
state as it was, the hart's control state and CSRs apart. -/
def Obligations.ControlRegisters : Prop :=
  (∀ (h : Hdr) (d a : Fin 32) (n : BitVec 12) (s u : State) (old : Word),
      (Starts h [] s u →
        (u.csrRead n = some old → Completes (.csrr h d n) s (u.setX d old)) ∧
        (u.csrRead n = none → Traps (.csrr h d n) s u (illegal .csr))) ∧
      (Starts h [a] s u → u.csrRead n = some old →
        let writes := fun (i : Instr) (x : Word) =>
          (∀ v, u.csrWrite n x = some v → Completes i s v) ∧ (u.csrWrite n x = none → Traps i s u (illegal .csr))
        writes (.csrw h a n) (u.x a) ∧ writes (.csrs h a n) (old ||| u.x a) ∧ writes (.csrc h a n) (old &&& ~~~(u.x a))) ∧
      (Starts h [a] s u → u.csrRead n = none →
        Traps (.csrw h a n) s u (illegal .csr) ∧ Traps (.csrs h a n) s u (illegal .csr) ∧ Traps (.csrc h a n) s u (illegal .csr))) ∧
  (∀ (s : State),
      let c := s.hart.csr
      let p := s.hart.place
      let table : List (Nat × Word) :=
        [(0x000, BitVec.ofNat 64 c.vl), (0x001, BitVec.ofNat 64 c.vtype.bits), (0x002, c.frm.setWidth 64),
         (0x003, c.fflags.setWidth 64), (0x004, c.mcfg), (0x005, BitVec.ofNat 64 (p.grant * 65536)),
         (0x010, s.hart.tagBits .done), (0x011, s.hart.tagBits .fault), (0x012, s.hart.tagBits .busy),
         (0x020, c.rpc), (0x021, c.utvec), (0x022, c.uepc), (0x023, c.ucause.setWidth 64), (0x024, c.uinfo),
         (0x025, c.ustart), (0x026, c.uinfo2), (0x030, p.crew.setWidth 64), (0x031, p.rank.setWidth 64),
         (0x032, p.stage.setWidth 64), (0x033, p.loc.setWidth 64), (0x034, p.crews.setWidth 64),
         (0x035, p.harts.setWidth 64), (0x036, p.stages.setWidth 64), (0x040, c.plarena), (0x041, c.ttcfg),
         (0x042, c.mqcfg), (0x043, c.clbase), (0x044, c.psent), (0x050, s.cyc), (0x051, c.inst),
         (0x052, s.myFn.rowstale), (0x053, c.plrebin), (0x060, c.xcar)]
      (∀ e ∈ table, s.csrRead (BitVec.ofNat 12 e.1) = some e.2) ∧
      (∀ n : BitVec 12, (∀ e ∈ table, n.toNat ≠ e.1) → s.csrRead n = none)) ∧
  (∀ (s t : State) (n : BitVec 12) (v : Word),
      (n.toNat ∈ [0x000, 0x001, 0x005, 0x010, 0x011, 0x012, 0x023, 0x024, 0x026, 0x030, 0x031, 0x032, 0x033, 0x034, 0x035, 0x036,
        0x050, 0x051, 0x052] → s.csrWrite n v = none) ∧
      (n.toNat = 0x021 ∨ n.toNat = 0x022 → v.toNat % 8 ≠ 0 → s.csrWrite n v = none) ∧
      (n.toNat = 0x021 → v.toNat % 8 = 0 → s.csrWrite n v = some (s.modCsr (fun c => { c with utvec := v }))) ∧
      (n.toNat = 0x003 → v.toNat < 2 ^ 13 → v.toNat / 2 ^ 5 % 8 = 0 →
        s.csrWrite n v = some (s.modCsr (fun c => { c with fflags := v.setWidth 13 }))) ∧
      (s.csrWrite n v = some t →
        t = { s with hart := { s.hart with csr := t.hart.csr, ctl := { s.hart.ctl with share := t.hart.ctl.share } } }))

/-- The cause codes of R194 and the causes marked U. -/
def causeTable : List (Cause × Nat × Bool) :=
  [(.illegal, 0x01, false), (.repRange, 0x02, true), (.brk, 0x03, false), (.misalign, 0x04, true), (.absent, 0x05, true),
   (.absentSt, 0x06, true), (.protect, 0x07, false), (.format, 0x08, true), (.frozen, 0x09, true), (.partialBlock, 0x0A, true),
   (.stride, 0x0B, true), (.smeta, 0x0C, true), (.stalePlan, 0x0D, true), (.planCap, 0x0E, true), (.clFull, 0x0F, true),
   (.tagFault, 0x10, true), (.barScope, 0x11, false), (.queue, 0x12, false), (.arith, 0x13, true), (.trap, 0x14, true),
   (.svc, 0x15, false), (.integrity, 0x16, false), (.hang, 0x17, false)]

/-- R188, R194, R324 to R326: taking an exception. A cause marked U with a handler that is not running enters it: uepc, ucause, uinfo, uinfo2
and ustart are written, rpc is the iteration of the repeat's oldest instruction that has not completed, the pc goes to utvec, and no
register, tag, byte or other CSR changes; where no iteration of a repeat is among T and the instructions in flight, rpc stands. The progress
pin is released if the element that it was taken for has performed, and stands else (R42). The trap record keeps what URET needs: T with
what it captured and its start index, the younger instructions in flight, which hold no entry any more (of a pair word one record for each
vector slot, R184), and where the hart goes on behind them. Every other trap resets the partition, with the instruction's own address as the
PC of the event, for TRAP as for every other: the model's choice (log entry 15). TRAP's uepc is the next instruction's address (R211). R165:
a partition reset stops every hart of the function and releases what it holds, in this model at once (log entry 15): no live hart of the
function is left, the other harts stand as they were, the function's launches, crews, windows and ring slots are gone, the others' are kept,
the memory services that the firmware holds for the harts stay with it, and the device itself is unchanged. An unassigned encoding, whose
cause ILLEGAL is never delivered (R192, R194), resets the partition so. -/
def Obligations.TrapEntry : Prop :=
  ((∀ e ∈ causeTable, e.1.code.toNat = e.2.1 ∧ e.1.user = e.2.2) ∧
    (∀ (e : SeqEntry), (∀ a b, e.instr ≠ .pairWord a b) → e.flights = [e.fl]) ∧
    (∀ (f : Flight) (a b : Slot) (k : Nat) (x : Bool), f.slot = none →
      (SeqEntry.mk f (.pairWord a b) k x).flights =
        (if a.isVector then [{ f with slot := some false }] else []) ++ (if b.isVector then [{ f with slot := some true }] else [])) ∧
    ∀ (s : State) (t : Trap),
      let past := s.cur.start < t.start
      let delivered := t.cause.user = true ∧ s.hart.csr.utvec ≠ 0 ∧ s.hart.ctl.inHandler = false
      let n := s.deliver t
      let c := s.hart.ctl
      (delivered →
        n.hart.csr = { s.hart.csr with
          rpc := n.hart.csr.rpc, uepc := (if t.cause = .trap then c.next else c.pc),
          ucause := t.cause.code, uinfo := t.info, uinfo2 := t.info2, ustart := BitVec.ofNat 64 t.start } ∧
        n.hart.ctl.pc = s.hart.csr.utvec ∧ n.hart.ctl.inHandler = true ∧ n.hart.ctl.phase = .running ∧ n.hart.ctl.rep = none ∧
        n.hart.ctl.resume = none ∧ n.hart.ctl.begin = 0 ∧ n.hart.ctl.scat = none ∧ n.hart.ctl.window = [] ∧ n.hart.ctl.reissue = [] ∧ n.hart.ctl.aside = none ∧
        (∃ r, n.hart.ctl.trapRec = some r ∧ r.pc = n.hart.csr.uepc ∧ r.isTrap = decide (t.cause = .trap) ∧ r.store = none ∧
          r.iter = c.rep.map (fun q => (q, s.hart.csr.rpc.toNat)) ∧ r.cap = some { s.cur with start := t.start } ∧
          r.list = c.window.flatMap SeqEntry.flights ++ c.reissue ∧
          (∀ f k, c.aside = some (f, k) → r.cont = k) ∧
          (c.aside = none → c.rep = none → r.cont = ⟨c.next, none, s.hart.csr.rpc⟩) ∧
          (∀ q, c.aside = none → c.rep = some q → r.cont =
            if q.count ≤ s.hart.csr.rpc.toNat + 1 then ⟨c.next, none, 0⟩ else ⟨c.pc, some q, s.hart.csr.rpc + 1⟩)) ∧
        (∀ q, c.rep = some q → n.hart.csr.rpc = s.hart.csr.rpc) ∧
        (∀ q j, c.rep = none → (c.window.flatMap SeqEntry.flights ++ c.reissue).findSome? Flight.iter = some (q, j) →
          n.hart.csr.rpc = BitVec.ofNat 64 j) ∧
        (c.rep = none → (∀ f ∈ c.window.flatMap SeqEntry.flights ++ c.reissue, f.iter = none) → n.hart.csr.rpc = s.hart.csr.rpc) ∧
        n.hart.ctl.tags = c.tags ∧ n.hart.ctl.stores = c.stores ∧ n.hart.ctl.mq = c.mq ∧
        n.hart.regs = s.hart.regs ∧ n.hart.place = s.hart.place ∧
        n = { s with hart := n.hart, ms := if past then (s.unpin s.hart).ms else s.ms } ∧
        n.hart.ctl.pin = (if past then none else c.pin) ∧ n.hart.ctl.pinAt = (if past then none else c.pinAt)) ∧
      (¬delivered → n = (if past then s.releasePin else s).resetPartition s.hart.place.fn t.cause t.info s.hart.place.loc c.pc) ∧
      (s.hart.resident = true → c.window = [] → c.stores = [] → exec (.trapDelivery t) s = .next n)) ∧
  (∀ (s : State) (n : Nat) (cause : Cause) (info : Word) (l : HartLoc) (pc : Word) (c : Subcode),
      let t := s.resetPartition n cause info l pc
      let mine := fun (h : Hart) => h.live && h.place.fn == n
      let gone := fun (id : Nat) => s.sched.launches.any (fun x => x.fn == n && x.id == id)
      (∀ h ∈ t.hart :: t.parked, h.live = true → h.place.fn ≠ n) ∧
      (mine s.hart = false → t.hart = s.hart) ∧ t.parked = s.parked.filter (fun h => !mine h) ∧
      t.sched.launches = s.sched.launches.filter (fun x => x.fn != n) ∧
      (∀ c ∈ s.sched.crews, c ∈ t.sched.crews ↔ gone c.launch = false) ∧
      (∀ w ∈ s.cores.windows, w ∈ t.cores.windows ↔ gone w.launch = false) ∧
      (∀ r ∈ s.cores.rings, r ∈ t.cores.rings ↔ gone r.launch = false) ∧
      ((s.fn? n).isSome = true → (t.fn n).left = (s.fn n).left ++ (s.harts.filter mine).filterMap (fun h => h.ctl.svc)) ∧
      t.cores.icache = s.cores.icache ∧ t.dev = s.dev ∧ t.cyc = s.cyc ∧ t.agenda = s.agenda ∧
      (s.hart.resident = true → exec (.unassignedEncoding c) s =
        .next (s.resetPartition s.hart.place.fn .illegal c.code s.hart.place.loc s.hart.ctl.pc)))

/-- R211, R214: TRAP raises TRAP with its code as uinfo, the next instruction's address as uepc and 0 as ustart, so that URET goes on after it;
with utvec = 0, or in a handler, it resets the partition as a fault that is not delivered does; that the event then records the TRAP's own
address is the model's choice (log entry 15). -/
def Obligations.TrapInstruction : Prop :=
  ∀ (h : Hdr) (code : BitVec 16) (s : State), guardOn h s = true →
    let c := s.hart.csr
    (c.utvec ≠ 0 → s.hart.ctl.inHandler = false → ∃ n, exec (.trap h code) s = .next n ∧
      n.hart.csr = { c with rpc := n.hart.csr.rpc, uepc := s.hart.ctl.next, ucause := 0x14, uinfo := code.setWidth 64, uinfo2 := 0, ustart := 0 } ∧
      n.hart.ctl.pc = c.utvec ∧ n.hart.regs = s.hart.regs ∧
      (s.hart.ctl.next.toNat % 8 = 0 → ∀ g, guardOn g n = true → ∃ m, exec (.uret g) n = .next m ∧ m.hart.ctl.pc = s.hart.ctl.next ∧
        m.hart.ctl.inHandler = false)) ∧
    (c.utvec = 0 ∨ s.hart.ctl.inHandler = true → exec (.trap h code) s =
      .next (s.resetPartition s.hart.place.fn .trap (code.setWidth 64) s.hart.place.loc s.hart.ctl.pc))

/-- R214, R327, R328: URET. Outside a handler it raises ILLEGAL with subcode STATE; a misaligned uepc raises MISALIGN; at another address than
the recorded one the hart leaves the handler and goes on at uepc, and after TRAP it goes on behind the TRAP, the records of the list issued
again first. At the recorded address the trapped instruction is issued again from ustart with the values it captured, then the records of
the list, oldest first, and then the hart goes on at CONT; a recorded store is on its way again; an instruction that had not issued is what
the hart goes on at, from ustart. A write of rpc by the handler changes what is left of the record (`TrapRec.left`, R188). A scalar or
indivisible instruction has one unit, so none is left of it for another ustart than 0: the model's choice (log entry 14). After ABSENT or
ABSENT_ST on a page that is now present the page of the element at ustart is pinned (R42), which is the faulting one's unless the handler
wrote ustart; a T that is not issued again leaves no pin. -/
def Obligations.ReturnFromHandler : Prop :=
  (∀ (w : State) (a : Word),
    let e := w.entryAt w.ctx a
    let fr := (pageOf w.ctx a e).frame
    let z := w.releasePin
    (entV e = false ∨ entP e = false → w.hart.live = true → (w.takePin w.hart a).hart = z.hart ∧ (w.takePin w.hart a).ms = z.ms) ∧
    (entV e = true → entP e = true → w.hart.live = true →
      (w.takePin w.hart a).hart = z.hart.modCtl (fun c => { c with pin := some fr, pinAt := some a }) ∧
      (w.takePin w.hart a).ms = (z.modMeta fr (fun m => { m with pin := true })).ms)) ∧
  ∀ (h : Hdr) (s : State) (r : TrapRec), guardOn h s = true →
    let c := s.hart.csr
    let absent := c.ucause = Cause.absent.code ∨ c.ucause = Cause.absentSt.code
    let l := r.left c.rpc
    let goes := fun (v : State) (fs : List Flight) (k : Cont) =>
      (v.modCsr (fun x => { x with rpc := k.rpc })).modCtl (fun x => { x with pc := k.pc, rep := k.rep, reissue := fs })
    let pinned := fun (w : State) => if absent then w.takePin w.hart (w.resumeAddr r) else w
    (∀ w : State, w.hart.csr = { c with inst := w.hart.csr.inst, rpc := w.hart.csr.rpc } →
      (r.cap = none ∨ (∃ v, r.cap = some v ∧ c.ustart.toNat = v.start) → w.resumeAddr r = c.uinfo) ∧
      (∀ v a, r.cap = some v → c.ustart.toNat ≠ v.start → w.eltVa (w.flightWord r.pc r.iter) v c.ustart.toNat = some a →
        w.resumeAddr r = a)) ∧
    (s.hart.ctl.trapRec = none ∨ s.hart.ctl.inHandler = false → exec (.uret h) s = .next (s.deliver (illegal .state))) ∧
    (∀ v : State, v.leaveHandler = v.modCtl (fun x => { x with inHandler := false, trapRec := none })) ∧
    (s.hart.ctl.trapRec = some r → s.hart.ctl.inHandler = true →
      (c.uepc.toNat % 8 ≠ 0 → exec (.uret h) s = .next (s.deliver (trapOf .misalign c.uepc))) ∧
      (c.uepc.toNat % 8 = 0 → c.uepc ≠ r.pc → ∃ v, Passes s c.uepc v ∧ exec (.uret h) s = .next v.leaveHandler.releasePin) ∧
      (c.uepc.toNat % 8 = 0 → c.uepc = r.pc → ∃ v, Passes s r.pc v ∧
        let v := v.leaveHandler
        let counts := (v.flightWord r.pc r.iter).1.countsUnits = true
        (r.isTrap = true → exec (.uret h) s = .next (v.releasePin.modCtl (fun x => { x with reissue := r.list }))) ∧
        (r.isTrap = false →
          (∀ cap, r.store = none → r.cap = some cap → l.again = true → c.ustart = 0 ∨ counts →
            exec (.uret h) s =
              .next (pinned (goes v (⟨r.pc, l.iter, { cap with start := c.ustart.toNat, panel := [] }, none⟩ :: l.list) l.cont))) ∧
          (∀ cap, r.store = none → r.cap = some cap → l.again = false ∨ (c.ustart ≠ 0 ∧ ¬counts) →
            exec (.uret h) s = .next (goes v.releasePin l.list l.cont)) ∧
          (r.store = none → r.cap = none → exec (.uret h) s = .next (pinned (v.modCtl (fun x => { x with
            rep := r.iter.map Prod.fst, reissue := r.list, begin := c.ustart.toNat })))) ∧
          (∀ st, r.store = some st → l.again = true → l.iter = r.iter → c.ustart = 0 →
            exec (.uret h) s = .next (pinned ((goes v l.list l.cont).modCtl (fun x => { x with stores := x.stores ++ [st] })))) ∧
          (∀ st, r.store = some st → l.again = true → l.iter ≠ r.iter →
            exec (.uret h) s = .next (goes v.releasePin l.list ⟨r.pc, l.iter.map Prod.fst, c.rpc⟩)) ∧
          (∀ st, r.store = some st → l.again = false ∨ (l.iter = r.iter ∧ c.ustart ≠ 0) →
            exec (.uret h) s = .next (goes v.releasePin l.list l.cont)))))

/-- R211 to R213, R215, R219: SVC with a code that no service has answers BADREQ in x10, and VERSION the interface version, both after
FENCE.ALL; EBREAK stops the hart in debug where a debugger is attached and raises BREAK elsewhere; WFE takes the pending events it names,
and waits while there are none; ICSYNC drops the words its core caches for the hart's context. -/
def Obligations.SystemInstructions : Prop :=
  ∀ (h : Hdr) (d : Fin 32) (code : BitVec 16) (m : BitVec 5) (s : State), guardOn h s = true →
    (s.hart.copying = false → s.unperformed = false →
      Completes (.svc h code) s ((s.settleHart s.hart.dest).setX 10 8) ∧
      Completes (.version h) s ((s.settleHart s.hart.dest).setX 10 0x00010000)) ∧
    (s.hart.copying = true ∨ s.unperformed = true → Waits (.svc h code) s s ∧ Waits (.version h) s s) ∧
    (s.myFn.dbg = true → ∃ v, Passes s s.hart.ctl.next v ∧ exec (.ebreak h) s = .next (v.debugStop 1)) ∧
    (s.myFn.dbg = false → exec (.ebreak h) s = .next (s.deliver (trapOf .brk 0))) ∧
    (∀ v : State, (v.debugStop 1).hart = v.hart.modCtl (fun c => { c with phase := .debug 1 }) ∧
      (v.modCtl (fun c => { c with phase := .debug 1 })).memOnly (v.debugStop 1)) ∧
    (let got := s.hart.ctl.pend &&& (if m = 0 then 0b11111 else m);
      (got ≠ 0 → Completes (.wfe h d m) s
        ((s.setX d (got.setWidth 64)).modCtl (fun c => { c with pend := s.hart.ctl.pend &&& ~~~got }))) ∧
      (got = 0 → Waits (.wfe h d m) s s)) ∧
    Completes (.icsync h) s (s.modCores (fun c => { c with
      icache := s.cores.icache.filter (fun w => ¬(w.core = s.core ∧ w.ctx = s.ctx)) }))

/-- R127, R133, R147, R153, R157, R216 to R218: HALT with no tag BUSY and every access performed ends the hart, which is then no hart of the
machine, and waits until then. YIELD completes, and offers the crew: of the ready records of at least its PRIO, in the scheduler's order,
the first that does not fit and would fit with the crew and, where needed, crews of lower PRIO released, has these pre-empted; a crew with a
hart that has not progressed since its resumption (R330) is not offered, and where there is no such record nothing happens. LAUNCH appends
the record it reads to a queue with room, waits while the queue is full or an earlier access of the hart beside its copies has not
performed, raises QUEUE on a queue that is not open to the device, PROTECT at an address that is not virtual, MISALIGN at one that is no
multiple of 64, and the fault that the read of the record meets. -/
def Obligations.LaunchAndHalt : Prop :=
  ∀ (h : Hdr) (a b : Fin 32) (s u v : State) (bs : List Byte),
    (guardOn h s = true → s.hart.live = true →
      ((∀ t : Fin 64, (s.tag t).st ≠ .busy) → s.unperformed = false →
        ∃ t, exec (.halt h) s = .next t ∧ ∀ g ∈ t.harts, g.dest ≠ s.hart.dest) ∧
      ((∃ t : Fin 64, (s.tag t).st = .busy) ∨ s.unperformed = true → exec (.halt h) s = .next (s.modCtl (fun c => { c with phase := .waiting })))) ∧
    (guardOn h s = true → ∃ w, Passes s s.hart.ctl.next w ∧ exec (.yield h) s = .next w.offerCrew ∧
      (w.crew? w.hart.place.launch w.hart.place.crew.toNat = none → w.offerCrew = w) ∧
      (∀ c, w.crew? w.hart.place.launch w.hart.place.crew.toNat = some c →
        let serves := fun (l : Launch) (cs : List CrewRec) => w.crewPrio c ≤ l.prio ∧ w.victims l (some c) = some cs
        (w.crewRested c = false ∨ (∀ l ∈ w.candidates w.hart.place.fn, ∀ cs, ¬serves l cs) → w.offerCrew = w) ∧
        (∀ before l after cs, w.crewRested c = true → w.candidates w.hart.place.fn = before ++ l :: after →
          (∀ k ∈ before, ∀ cs, ¬serves k cs) → serves l cs →
          w.offerCrew = cs.foldl (fun x y => x.preempt y.launch y.crew (some l.step)) w ∧
          w.placeStep l = none ∧ c ∈ cs ∧ w.fitsWithout l cs = true ∧
          ∀ y ∈ cs, y = c ∨ ∃ k, w.launch? y.launch = some k ∧ k.fn = l.fn ∧ k.prio < l.prio))) ∧
    (Starts h [a, b] s u →
      let p := u.x a
      let n := (u.x b).toNat
      let q := u.myFn.queues[Fin.ofNat 16 n]
      (16 ≤ n → Traps (.launch h a b) s u (trapOf .queue (u.x b))) ∧
      (n < 16 → (classOf p).isVirt = false → Traps (.launch h a b) s u (trapOf .protect p)) ∧
      (n < 16 → (classOf p).isVirt = true → p.toNat % 64 ≠ 0 → Traps (.launch h a b) s u (trapOf .misalign p)) ∧
      (n < 16 → (classOf p).isVirt = true → p.toNat % 64 = 0 →
        (q.en = false ∨ q.devfed = false → Traps (.launch h a b) s u (trapOf .queue (u.x b))) ∧
        (q.en = true → q.devfed = true → q.size.toNat ≤ (q.tail - q.head).toNat ∨ u.unperformed = true →
          Waits (.launch h a b) s u) ∧
        (q.en = true → q.devfed = true → (q.tail - q.head).toNat < q.size.toNat → u.unperformed = false → u.interlocked [(p, 64)] = false →
          ((u.settleHart u.hart.dest).recordRead p = .ok (bs, v) →
            Completes (.launch h a b) s (v.appendRecord v.hart.place.fn (Fin.ofNat 16 n) bs)) ∧
          (∀ x, (u.settleHart u.hart.dest).recordRead p = .error x → Traps (.launch h a b) s u (trapOf x p)))))

/-- R127, R159 to R161, R221 to R223: a hart that has arrived at a barrier passes it once it has released and waits until then; one that
arrives, with every access and copy performed, releases it if every hart of the crew (or of the launch) has arrived there, and passes at
once. BAR.LAUNCH needs a launch with COSIDENT. ITPOST raises a channel's count, never lowers it, and raises event ITPOST; ITWAIT passes once
the count has been reached. R160: a barrier releases when every live hart of its group has arrived at it, and not before; then every hart of
the group is released. R64, R119, R127, R134, R166, R223, R224: FENCE.SV waits for the hart's scalar stores; FENCE.VS for its vector
instructions in flight and its messages on their way, and applies its pending contributions; FENCE.VV and FENCE.ALL wait for all of these
and for its copies. FENCEREC stores its value behind FENCE.ALL and notes the fence record of a checkpointed launch. That copies are no V
accesses for FENCE.VS, that FENCE.VV waits for stores too, and that the scope makes no difference is the model's choice (log entries 8 and
9). -/
def Obligations.BarriersAndFences : Prop :=
  (∀ (h : Hdr) (id c : BitVec 4) (a : Fin 32) (s u : State) (lvl : Bool),
      let i := if lvl then Instr.barLaunch h id else Instr.barCrew h id
      (guardOn h s = true → (lvl = true → s.cosident = true) →
        (s.hart.ctl.arrived.isSome = true → s.hart.ctl.released = true →
          Completes i s (s.modCtl (fun c => { c with arrived := none, released := false }))) ∧
        (s.hart.ctl.arrived.isSome = true → s.hart.ctl.released = false → Waits i s s) ∧
        (s.hart.ctl.arrived = none → s.hart.copying = true ∨ s.unperformed = true → Waits i s s) ∧
        (s.hart.ctl.arrived = none → s.hart.copying = false → s.unperformed = false →
          let w := ((s.settleHart s.hart.dest).modCtl (fun c => { c with arrived := some (lvl, id), released := false })).tryBarrier
            lvl s.hart.place.launch s.hart.place.crew.toNat id
          (w.hart.ctl.released = true → Completes i s (w.modCtl (fun c => { c with arrived := none, released := false }))) ∧
          (w.hart.ctl.released = false → Waits i s w))) ∧
      (guardOn h s = true → s.cosident = false → exec (.barLaunch h id) s =
        .next ((s.unpop s).deliver (trapOf .barScope (id.setWidth 64)))) ∧
      (Starts h [a] s u →
        let v : BitVec 32 := (u.x a).setWidth 32
        let n := u.ringCount (furrowOf u.loc) u.hart.place.launch c
        let here := fun (f l : Nat) => f = furrowOf u.loc ∧ l = u.hart.place.launch
        (n.toNat < v.toNat → ∃ w, w = u.modCores (fun x => { x with rings := w.cores.rings }) ∧
          (u.ringHeld (furrowOf u.loc) u.hart.place.launch = true →
            w.ringCount (furrowOf u.loc) u.hart.place.launch c = v) ∧
          (∀ f l e, ¬(here f l ∧ e = c) → w.ringCount f l e = u.ringCount f l e) ∧
          Completes (.itpost h a c) s (w.raise 2 (fun g => here (furrowOf g.place.loc) g.place.launch))) ∧
        (v.toNat ≤ n.toNat → Completes (.itpost h a c) s u ∧ Completes (.itwait h a c) s u) ∧
        (n.toNat < v.toNat → Waits (.itwait h a c) s u))) ∧
  (∀ (s : State) (lvl : Bool) (launch crew : Nat) (id : BitVec 4),
      let mem := fun (h : Hart) => h.place.launch = launch ∧ (lvl = true ∨ h.place.crew.toNat = crew)
      let here := fun (h : Hart) => h.ctl.arrived = some (lvl, id) ∧ h.ctl.released = false
      ((∃ h ∈ s.harts, mem h) → (∀ h ∈ s.harts, mem h → here h) →
        ∀ h ∈ (s.tryBarrier lvl launch crew id).harts, mem h → h.ctl.released = true) ∧
      ((∃ h ∈ s.harts, mem h ∧ ¬here h) → s.tryBarrier lvl launch crew id = s)) ∧
  (∀ (h : Hdr) (sc : Scope) (a b : Fin 32) (s u v : State),
      let busy := fun (u : State) => u.hart.copying = true ∨ u.hart.ctl.stores ≠ [] ∨ u.vPending = true
      (s.vPending = true ↔ s.hart.ctl.window ≠ [] ∨ ∃ m ∈ s.cores.net, m.2.sender = s.loc) ∧
      (guardOn h s = true →
        let w := s.settleHart s.hart.dest
        (s.hart.ctl.stores = [] → Completes (.fenceSv h sc) s s) ∧ (s.hart.ctl.stores ≠ [] → Waits (.fenceSv h sc) s s) ∧
        (s.vPending = false → Completes (.fenceVs h sc) s w) ∧ (s.vPending = true → Waits (.fenceVs h sc) s s) ∧
        (¬busy s → Completes (.fenceVv h sc) s w ∧ Completes (.fenceAll h sc) s w) ∧
        (busy s → Waits (.fenceVv h sc) s s ∧ Waits (.fenceAll h sc) s s)) ∧
      (Starts h [a, b] s u →
        let p := u.x a
        (busy u → Waits (.fencerec h a b) s u) ∧
        (¬busy u → (classOf p).isVirt = true → p.toNat % 8 = 0 →
          ((u.settleHart u.hart.dest).noteStore (p, 8)).storePerform ⟨p, 8, u.x b, u.hart.ctl.pc, none⟩ = .ok v →
          Completes (.fencerec h a b) s v.noteFenceRec)))

/-- R90, R228, R236: a VINT instruction that starts, with aligned groups and a format its family accepts, gives each active element from the
start index on the value of R236, computed from the elements as they stood at issue, and changes nothing else. R226, R236: VABS, VID, VMV
and VMERGE. -/
def Obligations.VectorInteger : Prop :=
  (∀ (h : Hdr) (d : Fin 64) (a : CVec) (b : VSrc) (m : Fin 8) (s u : State), Starts h (vsrcRegs b) s u → u.vecOk →
      u.maskHeld m = false → (d :: a.r :: vsrcVec b).all (aligned u.vt.size) = true →
      let w := u.vt.fmt.width
      let x := fun j => BitVec.ofNat w (u.elt a.r w j)
      let y := fun j => BitVec.ofNat w (u.vsrc b w j)
      let puts := fun (i : Instr) (f : Nat → BitVec w) => ∃ t, Completes i s t ∧
        WroteElts u d u.vt.size w (fun j => decide (u.cur.start ≤ j) && u.active m j) (fun j => (f j).toNat) t
      let clamp := fun (lo hi z : Int) => BitVec.ofInt w (max lo (min hi z))
      let clampS := clamp (-(2 ^ (w - 1))) (2 ^ (w - 1) - 1)
      let clampU := clamp 0 (2 ^ w - 1)
      (puts (.vand h d a b m) (fun j => x j &&& y j) ∧ puts (.vor h d a b m) (fun j => x j ||| y j) ∧
        puts (.vxor h d a b m) (fun j => x j ^^^ y j)) ∧
      (u.vt.fmt.isInt = true →
        puts (.vadd h d a b m) (fun j => x j + y j) ∧ puts (.vsub h d a b m) (fun j => x j - y j) ∧
        puts (.vrsub h d a b m) (fun j => y j - x j) ∧
        puts (.vsll h d a b m) (fun j => x j <<< ((y j).toNat % w)) ∧
        puts (.vsrl h d a b m) (fun j => x j >>> ((y j).toNat % w)) ∧
        puts (.vsra h d a b m) (fun j => (x j).sshiftRight ((y j).toNat % w)) ∧
        puts (.vmul h d a b m) (fun j => BitVec.ofInt w ((x j).toInt * (y j).toInt)) ∧
        puts (.vmulh h d a b m) (fun j => BitVec.ofInt w ((x j).toInt * (y j).toInt / 2 ^ w)) ∧
        puts (.vmulhu h d a b m) (fun j => BitVec.ofNat w ((x j).toNat * (y j).toNat / 2 ^ w)) ∧
        puts (.vdiv h d a b m)
          (fun j => if y j = 0 then BitVec.allOnes w else BitVec.ofInt w ((x j).toInt.tdiv (y j).toInt)) ∧
        puts (.vdivu h d a b m)
          (fun j => if y j = 0 then BitVec.allOnes w else BitVec.ofNat w ((x j).toNat / (y j).toNat)) ∧
        puts (.vrem h d a b m) (fun j => if y j = 0 then x j else BitVec.ofInt w ((x j).toInt.tmod (y j).toInt)) ∧
        puts (.vremu h d a b m) (fun j => if y j = 0 then x j else BitVec.ofNat w ((x j).toNat % (y j).toNat)) ∧
        puts (.vmin h d a b m) (fun j => BitVec.ofInt w (min (x j).toInt (y j).toInt)) ∧
        puts (.vmax h d a b m) (fun j => BitVec.ofInt w (max (x j).toInt (y j).toInt)) ∧
        puts (.vminu h d a b m) (fun j => BitVec.ofNat w (min (x j).toNat (y j).toNat)) ∧
        puts (.vmaxu h d a b m) (fun j => BitVec.ofNat w (max (x j).toNat (y j).toNat)) ∧
        puts (.vsadd h d a b m) (fun j => clampS ((x j).toInt + (y j).toInt)) ∧
        puts (.vsaddu h d a b m) (fun j => clampU ((x j).toNat + (y j).toNat)) ∧
        puts (.vssub h d a b m) (fun j => clampS ((x j).toInt - (y j).toInt)) ∧
        puts (.vssubu h d a b m) (fun j => clampU ((x j).toNat - (y j).toNat)))) ∧
  (∀ (h : Hdr) (d : Fin 64) (a : CVec) (b : VSrc) (n : VmvSrc) (m : Fin 8) (s u : State), u.vecOk → u.maskHeld m = false →
      let w := u.vt.fmt.width
      let ok := fun (vs : List (Fin 64)) => vs.all (aligned u.vt.size) = true
      let from' := fun j => decide (u.cur.start ≤ j)
      let puts := fun (i : Instr) (p : Nat → Bool) (f : Nat → Nat) => ∃ t, Completes i s t ∧
        WroteElts u d u.vt.size w (fun j => from' j && p j) f t
      (Starts h [] s u → u.vt.fmt.isInt = true → ok [d, a.r] →
        puts (.vabs h d a m) (u.active m) (fun j => (BitVec.ofNat w (u.elt a.r w j)).toInt.natAbs)) ∧
      (Starts h [] s u → u.vt.fmt.isInt = true → ok [d] → puts (.vid h d m) (u.active m) (fun j => j)) ∧
      (Starts h (vmvRegs n) s u → ok (d :: vmvVec n) → puts (.vmv h d n m) (u.active m) (u.vmvElt n w)) ∧
      (Starts h (vsrcRegs b) s u → ok (d :: a.r :: vsrcVec b) →
        puts (.vmerge h d a b m) (fun j => j < u.vl) (fun j => if u.kbit m j then u.vsrc b w j else u.elt a.r w j)))

/-- R192, R227, R228, R237: an integer compare writes, for each active element from the start index on, the bit of the relation of its operands,
signed or unsigned by its mnemonic, and no other bit. A VINT or VICMP instruction whose groups are misaligned raises ILLEGAL with subcode
REGISTER, and under a floating-point format with subcode OPERAND. R86, R87, R240: the VFCMP instructions; a group whose NV traps writes no
bit. -/
def Obligations.VectorCompares : Prop :=
  (∀ (h : Hdr) (d : Fin 8) (e : Fin 64) (a : CVec) (b : VSrc) (m : Fin 8) (s u : State), Starts h (vsrcRegs b) s u →
      u.maskHeld m = false → u.maskHeld d = false →
      let w := u.vt.fmt.width
      let x := fun j => BitVec.ofNat w (u.elt a.r w j)
      let y := fun j => BitVec.ofNat w (u.vsrc b w j)
      let ok := (a.r :: vsrcVec b).all (aligned u.vt.size) = true
      let puts := fun (i : Instr) (f : Nat → Bool) => ∃ t, Completes i s t ∧
        WroteBits u d (fun j => decide (u.cur.start ≤ j) && u.active m j) f t
      (ok → u.vecOk → u.vt.fmt.isInt = true →
        puts (.vseq h d a b m) (fun j => decide (x j = y j)) ∧ puts (.vsne h d a b m) (fun j => decide (x j ≠ y j)) ∧
        puts (.vslt h d a b m) (fun j => decide ((x j).toInt < (y j).toInt)) ∧
        puts (.vsltu h d a b m) (fun j => decide ((x j).toNat < (y j).toNat)) ∧
        puts (.vsle h d a b m) (fun j => decide ((x j).toInt ≤ (y j).toInt)) ∧
        puts (.vsleu h d a b m) (fun j => decide ((x j).toNat ≤ (y j).toNat)) ∧
        puts (.vsgt h d a b m) (fun j => decide ((x j).toInt > (y j).toInt)) ∧
        puts (.vsgtu h d a b m) (fun j => decide ((x j).toNat > (y j).toNat))) ∧
      (¬ok → ∀ i ∈ [Instr.vseq h d a b m, .vsltu h d a b m, .vadd h e a b m, .vand h e a b m, .vmulh h e a b m],
        Traps i s u (illegal .register)) ∧
      (ok → aligned u.vt.size e = true → u.vt.fmt.isInt = false →
        ∀ i ∈ [Instr.vseq h d a b m, .vsltu h d a b m, .vadd h e a b m, .vmulh h e a b m], Traps i s u (illegal .operand))) ∧
  (∀ (h : Hdr) (d : Fin 8) (a : CVec) (b : VSrc) (m : Fin 8) (s u : State), Starts h (vsrcRegs b) s u → u.vecOk →
      u.maskHeld m = false → u.maskHeld d = false → u.vt.fmt.isVfp = true → (a.r :: vsrcVec b).all (aligned u.vt.size) = true →
      let p := u.vspec
      let w := u.vt.fmt.width
      let puts := fun (i : Instr) (r : FRel) =>
        let v := fun j => r.eval (p.decode (u.elt a.r w j)) (p.decode (u.vsrc b w j))
        endsByGroup i s u w (fun j => if u.active m j then (v j).2 else 0)
          (fun u' q t => WroteBits u' d (fun j => q j && u.active m j) (fun j => (v j).1) t)
      puts (.vfeq h d a b m) .eq ∧ puts (.vfne h d a b m) .ne ∧ puts (.vflt h d a b m) .lt ∧ puts (.vfle h d a b m) .le ∧
      puts (.vfgt h d a b m) .gt ∧ puts (.vfge h d a b m) .ge ∧ puts (.vfuno h d a b m) .uno)

/-- R241: the mask instructions. -/
def Obligations.Masks : Prop :=
  ∀ (h : Hdr) (d : Fin 8) (a b : CMask) (e : Fin 32) (c : CVec) (v : Fin 64) (s u : State), u.vecOk →
    [d, a.r, b.r].all (fun k => !u.maskHeld k) = true →
    let w := u.vt.fmt.width
    let live := fun j => decide (j < u.vl) && decide (u.cur.start ≤ j)
    let puts := fun (i : Instr) (f : Nat → Bool) => ∃ t, Completes i s t ∧ WroteBits u d live f t
    let A := u.kbit a.r
    let B := u.kbit b.r
    (Starts h [] s u →
      puts (.kand h d a b) (fun j => A j && B j) ∧ puts (.kor h d a b) (fun j => A j || B j) ∧
      puts (.kxor h d a b) (fun j => A j ^^ B j) ∧ puts (.kandn h d a b) (fun j => A j && !(B j)) ∧
      puts (.knot h d a) (fun j => !(A j)) ∧ puts (.kall h d) (fun _ => true) ∧
      (aligned u.vt.size c.r = true → puts (.kmvToMask h d c) (fun j => decide (u.elt c.r w j ≠ 0))) ∧
      (aligned u.vt.size v = true → u.vt.fmt.isInt = true → ∃ t, Completes (.kmvToVector h v a) s t ∧
        WroteElts u v u.vt.size w live (fun j => (A j).toNat) t) ∧
      (∃ n, Completes (.kpop h e a) s (u.setX e (BitVec.ofNat 64 n)) ∧ n = (List.range u.vl).countP A) ∧
      ((∀ j, j < u.vl → A j = false) → Completes (.kfirst h e a) s (u.setX e (BitVec.ofInt 64 (-1)))) ∧
      (∀ n, n < u.vl → A n = true → (∀ j, j < n → A j = false) →
        Completes (.kfirst h e a) s (u.setX e (BitVec.ofNat 64 n)))) ∧
    (Starts h [e] s u → puts (.kset h d e) (fun j => (u.x e).getLsbD j))

/-- R86, R229, R238, R239: the VFP instructions, element by element under the vtype format; the arithmetic is that of `fAdd`, `fFma` and the
other functions of Machine/Float.lean. R73, R79, R82, R84, R88: rounding into a format. A value is taken as a whole number of units, which
the mode rounds down or up; the unit is the last place of a number with the value's leading bit, or of the least exponent. OF, UF and NX are
as R84 has them; an overflow gives an infinity or the largest finite value, and infinities and NaNs follow the table of R88. R84, R87, R94:
sums and products are formed exactly and rounded once, a fused operation once for both; NaNs, infinities and divisions by zero as R84 has
them. An inexact quotient is rounded as the value half a unit above its truncation to more bits than the format has. R87, R89, R94, R95,
R238, R239: the values and the flags of the operations on one element that are exact or correctly rounded. Minimum and maximum take the
lesser or the greater value, with -0 below +0, and the other operand of one NaN; they raise NV for a signalling NaN alone. Square root and
reciprocal square root round the exact root once, by the bits of its integer part and a sticky bit for the rest; VFSCALE rounds a * 2^n with
n clamped; VFROUND and the conversion to an integer round to an integer, the latter saturating with NV; VFCLASS sets the bit of the
operand's class; the special operands of VFEXP2, VFLOG2 and VFRCPZ give what the tables say, and an integer's power of two and the logarithm
of a power of two are exact. -/
def Obligations.VectorFloat : Prop :=
  (∀ (h : Hdr) (d : Fin 64) (a : CVec) (b : VSrc) (m : Fin 8) (s u : State), u.vecOk → u.maskHeld m = false →
      u.vt.fmt.isVfp = true →
      let p := u.vspec
      let w := u.vt.fmt.width
      let rm := u.frm
      let xc := u.elt a.r w
      let yc := u.vsrc b w
      let x := fun j => p.decode (xc j)
      let y := fun j => p.decode (yc j)
      let z := fun j => p.decode (u.elt d w j)
      let puts := fun (i : Instr) (r : Nat → Nat × Flags) =>
        endsByGroup i s u w (fun j => if u.active m j then (r j).2 else 0)
          (fun v q t => WroteElts v d u.vt.size w (fun j => q j && u.active m j) (fun j => (r j).1) t)
      (Starts h (vsrcRegs b) s u → (d :: a.r :: vsrcVec b).all (aligned u.vt.size) = true →
        puts (.vfadd h d a b m) (fun j => fAdd p rm (x j) (y j)) ∧ puts (.vfsub h d a b m) (fun j => fSub p rm (x j) (y j)) ∧
        puts (.vfrsub h d a b m) (fun j => fSub p rm (y j) (x j)) ∧ puts (.vfmul h d a b m) (fun j => fMul p rm (x j) (y j)) ∧
        puts (.vfdiv h d a b m) (fun j => fDiv p rm (x j) (y j)) ∧ puts (.vfrdiv h d a b m) (fun j => fDiv p rm (y j) (x j)) ∧
        puts (.vfma h d a b m) (fun j => fFma p rm (x j) (y j) (z j)) ∧
        puts (.vfms h d a b m) (fun j => fFma p rm (x j) (y j) (z j).neg) ∧
        puts (.vfnma h d a b m) (fun j => fFma p rm (x j).neg (y j) (z j).neg) ∧
        puts (.vfnms h d a b m) (fun j => fFma p rm (x j).neg (y j) (z j)) ∧
        puts (.vfmin h d a b m) (fun j => fMinMax p false (xc j) (yc j)) ∧
        puts (.vfmax h d a b m) (fun j => fMinMax p true (xc j) (yc j)) ∧
        puts (.vfsgnj h d a b m) (fun j => (p.withSign (p.signBit (yc j)) (xc j), 0)) ∧
        puts (.vfscale h d a b m) (fun j => fScale p rm (x j) (u.scaleArg b w j))) ∧
      (Starts h [] s u → [d, a.r].all (aligned u.vt.size) = true →
        puts (.vfsqrt h d a m) (fun j => fSqrt p rm (x j)) ∧ puts (.vfround h d a m) (fun j => fRound p rm (xc j)) ∧
        puts (.vfabs h d a m) (fun j => (p.withSign false (xc j), 0)) ∧
        puts (.vfneg h d a m) (fun j => (p.withSign (!p.signBit (xc j)) (xc j), 0)) ∧
        puts (.vfclass h d a m) (fun j => (p.classBits (xc j), 0)) ∧
        (u.vt.fmt = .f32 →
          puts (.vfrsqrt h d a m) (fun j => fRsqrt (x j)) ∧ puts (.vfrcpz h d a m) (fun j => fRcpz (x j)) ∧
          puts (.vfexp2 h d a m) (fun j => fExp2 (x j)) ∧ puts (.vflog2 h d a m) (fun j => fLog2 (x j))))) ∧
  (∀ (p : FmtSpec) (sat : Bool) (mode : BitVec 2) (neg sig : Bool) (m : Nat) (e : Int),
      p ∈ [specF32, specBf16, specF16, specE4, specE5, specF4, specA56] →
      let cut := fun (q : Int) => 2 ^ (q - e).toNat
      let units := fun (q : Int) => if q ≤ e then m * 2 ^ (e - q).toNat else
        m / cut q + (if (mode = 0 ∧ (cut q < 2 * (m % cut q) ∨ (cut q = 2 * (m % cut q) ∧ m / cut q % 2 = 1))) ∨
          (m % cut q ≠ 0 ∧ ((mode = 2 ∧ neg = true) ∨ (mode = 3 ∧ neg = false))) then 1 else 0)
      let free : Int := e + Nat.log2 m - p.f
      let least : Int := 1 - (p.bias : Int) - p.f
      let q := max free least
      let inexact := e < q ∧ m % cut q ≠ 0
      let big := (p.maxM : Rat) * 2 ^ p.maxE < units free * (2 : Rat) ^ free
      let tiny := units free * (2 : Rat) ^ free < 2 ^ (least + p.f)
      let r := p.round sat mode (.fin neg m e)
      let largest := fun (b : Nat) => ∃ n d, p.decode b = .fin neg n d ∧ (n : Rat) * 2 ^ d = p.maxM * (2 : Rat) ^ p.maxE
      let clamps := p = specE4 ∨ p = specF4 ∨ (sat = true ∧ p = specE5)
      let i := p.round sat mode (.inf neg)
      let n := p.round sat mode (.nan sig)
      (r.1 < 2 ^ p.w ∧ i.1 < 2 ^ p.w ∧ n.1 < 2 ^ p.w) ∧
      (m = 0 → r.2 = 0 ∧ ∃ d, p.decode r.1 = .fin neg 0 d) ∧
      (m ≠ 0 → ¬big → r.2 = flagIf (tiny ∧ inexact) flagUF ||| flagIf inexact flagNX ∧
        ∃ n d, p.decode r.1 = .fin neg n d ∧ (n : Rat) * 2 ^ d = units q * (2 : Rat) ^ q) ∧
      (m ≠ 0 → big → r.2 = flagOF ||| flagNX ∧
        (clamps ∨ mode = 1 ∨ (mode = 2 ∧ neg = false) ∨ (mode = 3 ∧ neg = true) → largest r.1) ∧
        (¬clamps → mode = 0 ∨ (mode = 2 ∧ neg = true) ∨ (mode = 3 ∧ neg = false) → p.decode r.1 = .inf neg)) ∧
      (clamps → i.2 = flagOF ||| flagNX ∧ largest i.1) ∧
      (¬clamps → i.2 = 0 ∧ p.decode i.1 = .inf neg) ∧
      (n.2 = flagIf (sig = true ∨ p = specF4) flagNV ∧ (p = specF4 → n.1 = 0) ∧
        (p ≠ specF4 → n.1 = p.nanBits ∧ p.decode n.1 = .nan false)) ∧
      (specE4.maxM : Rat) * 2 ^ specE4.maxE = 448 ∧ (specE5.maxM : Rat) * 2 ^ specE5.maxE = 57344 ∧
      (specF4.maxM : Rat) * 2 ^ specF4.maxE = 6 ∧ (specF16.maxM : Rat) * 2 ^ specF16.maxE = 65504) ∧
  (∀ (p : FmtSpec) (mode : BitVec 2) (a b c : FVal) (x y : Bool) (m n : Nat) (e d : Int),
      let val := fun (neg : Bool) (m : Nat) (e : Int) => (if neg then -(m : Rat) else m) * (2 : Rat) ^ e
      let once := fun (r : FVal × Flags) => ((p.round false mode r.1).1, r.2 ||| (p.round false mode r.1).2)
      let u := FVal.fin x m e
      let v := FVal.fin y n d
      let sum := val x m e + val y n d
      (∃ z k q, addX mode u v = (.fin z k q, 0) ∧ val z k q = sum ∧
        (sum = 0 → k = 0 ∧ z = if m = 0 ∧ n = 0 ∧ x = y then x else mode == 2)) ∧
      mulX u v = (.fin (x != y) (m * n) (e + d), 0) ∧
      addX mode (.inf x) (.inf y) = (if x = y then (.inf x, 0) else (.nan false, flagNV)) ∧
      addX mode (.inf x) v = (.inf x, 0) ∧ addX mode u (.inf y) = (.inf y, 0) ∧
      mulX (.inf x) (.inf y) = (.inf (x != y), 0) ∧
      mulX (.inf x) v = (if n = 0 then (.nan false, flagNV) else (.inf (x != y), 0)) ∧
      mulX u (.inf y) = (if m = 0 then (.nan false, flagNV) else (.inf (x != y), 0)) ∧
      (a.isNan = true ∨ b.isNan = true → let nv := flagIf (a.isSnan || b.isSnan) flagNV
        addX mode a b = (.nan false, nv) ∧ mulX a b = (.nan false, nv) ∧ fDiv p mode a b = (p.nanBits, nv)) ∧
      fAdd p mode a b = once (addX mode a b) ∧ fSub p mode a b = once (addX mode a b.neg) ∧ fMul p mode a b = once (mulX a b) ∧
      fFma p mode a b c = once ((addX mode (mulX a b).1 c).1, (mulX a b).2 ||| (addX mode (mulX a b).1 c).2) ∧
      fDiv p mode (.inf x) (.inf y) = (p.nanBits, flagNV) ∧
      fDiv p mode (.inf x) v = (p.infBits (x != y), 0) ∧
      fDiv p mode u (.inf y) = p.round false mode (.fin (x != y) 0 0) ∧
      (n = 0 → fDiv p mode u v = if m = 0 then (p.nanBits, flagNV) else (p.infBits (x != y), flagDZ)) ∧
      (n ≠ 0 → m = 0 → fDiv p mode u v = p.round false mode (.fin (x != y) 0 0)) ∧
      (n ≠ 0 → m ≠ 0 → ∃ k : Nat, 2 ^ (p.f + 1) ≤ m * 2 ^ k / n ∧
        fDiv p mode u v = p.round false mode (.fin (x != y)
          (2 * (m * 2 ^ k / n) + (if m * 2 ^ k % n = 0 then 0 else 1)) (e - d - k - 1)))) ∧
  ((∀ (p : FmtSpec) (x y : Nat), p ∈ [specF32, specBf16, specF16] →
      let a := p.decode x
      let b := p.decode y
      let nv := flagIf (a.isSnan || b.isSnan) flagNV
      let lo := fMinMax p false x y
      let hi := fMinMax p true x y
      let both := fun (r q : Nat × Flags) => lo = r ∧ hi = q
      (a.isNan = true → b.isNan = true → both (p.nanBits, nv) (p.nanBits, nv)) ∧
      (a.isNan = true → b.isNan = false → both (y, nv) (y, nv)) ∧ (a.isNan = false → b.isNan = true → both (x, nv) (x, nv)) ∧
      (a.isNan = false → b.isNan = false →
        ((FRel.eval .lt a b).1 = true → both (x, 0) (y, 0)) ∧ ((FRel.eval .lt b a).1 = true → both (y, 0) (x, 0)) ∧
        (∀ d e, a = .fin true 0 d → b = .fin false 0 e → both (x, 0) (y, 0)) ∧
        (∀ d e, a = .fin false 0 d → b = .fin true 0 e → both (y, 0) (x, 0)) ∧
        lo ∈ [(x, 0), (y, 0)] ∧ hi ∈ [(x, 0), (y, 0)]) ∧
      (∀ n : Bool, p.withSign n x = if a.isNan then p.nanBits else x % 2 ^ (p.w - 1) + (if n then 2 ^ (p.w - 1) else 0)) ∧
      (let neg := x.testBit (p.w - 1)
       let exp := x / 2 ^ p.f % 2 ^ (p.w - 1 - p.f)
       let frac := x % 2 ^ p.f
       p.classBits x = 2 ^ (if exp = 2 ^ (p.w - 1 - p.f) - 1 then
           (if frac = 0 then (if neg then 0 else 7) else if frac < 2 ^ (p.f - 1) then 8 else 9)
         else if exp = 0 then (if frac = 0 then (if neg then 3 else 4) else if neg then 2 else 5)
         else if neg then 1 else 6))) ∧
    (∀ (p : FmtSpec) (mode : BitVec 2) (b : Nat) (s neg signed : Bool) (m w : Nat) (e n : Int), p ∈ [specF32, specBf16, specF16] → 0 < w →
      let cut := 2 ^ (-e).toNat
      let rest := m % cut
      let whole := if 0 ≤ e then m * 2 ^ e.toNat else
        m / cut + (if (mode = 0 ∧ (cut < 2 * rest ∨ (cut = 2 * rest ∧ m / cut % 2 = 1))) ∨
          (rest ≠ 0 ∧ ((mode = 2 ∧ neg = true) ∨ (mode = 3 ∧ neg = false))) then 1 else 0)
      let nx := flagIf (e < 0 ∧ rest ≠ 0) flagNX
      let int : Int := if neg then -(whole : Int) else whole
      let least : Int := if signed then -(2 ^ (w - 1) : Nat) else 0
      let most : Int := if signed then (2 ^ (w - 1) : Nat) - 1 else (2 ^ w : Nat) - 1
      let code := fun (z : Int) => (z % (2 ^ w : Nat)).toNat
      let nan := (p.nanBits, flagIf s flagNV)
      let inf := (p.infBits neg, (0 : Flags))
      ((FVal.nan s).toIntFmt mode signed w = (0, flagNV)) ∧
      ((FVal.inf neg).toIntFmt mode signed w = (code (if neg then least else most), flagNV)) ∧
      ((FVal.fin neg m e).toIntFmt mode signed w =
        if int < least then (code least, flagNV) else if most < int then (code most, flagNV) else (code int, nx)) ∧
      (p.decode b = .nan s → fRound p mode b = nan) ∧ (p.decode b = .inf neg → fRound p mode b = inf) ∧
      (p.decode b = .fin neg m e → (fRound p mode b).2 = nx ∧
        ∃ k d, p.decode (fRound p mode b).1 = .fin neg k d ∧ (k : Rat) * 2 ^ d = whole) ∧
      fScale p mode (.nan s) n = nan ∧ fScale p mode (.inf neg) n = inf ∧
      fScale p mode (.fin neg m e) n = p.round false mode (.fin neg m (e + max (-4096) (min 4096 n))) ∧
      fSqrt p mode (.nan s) = nan ∧ fSqrt p mode (.inf false) = (p.infBits false, 0) ∧ fSqrt p mode (.inf true) = (p.nanBits, flagNV) ∧
      fSqrt p mode (.fin neg 0 e) = (if neg then 2 ^ (p.w - 1) else 0, 0) ∧
      (m ≠ 0 → fSqrt p mode (.fin true m e) = (p.nanBits, flagNV) ∧
        ∃ k r : Nat, r * r ≤ m * 2 ^ k ∧ m * 2 ^ k < (r + 1) * (r + 1) ∧ (e - k) % 2 = 0 ∧ 2 ^ (p.f + 2) ≤ r ∧
          fSqrt p mode (.fin false m e) = p.round false mode (.fin false (2 * r + (if r * r = m * 2 ^ k then 0 else 1)) ((e - k) / 2 - 1)))) ∧
    (∀ (s neg : Bool) (m : Nat) (e j : Int),
      let nan := (0x7FC00000, flagIf s flagNV)
      let bad := (0x7FC00000, flagNV)
      let up := 0x7F800000
      let down := 0xFF800000
      (fRcpz (.nan s) = nan ∧ fRcpz (.inf neg) = (if neg then 0x80000000 else 0, 0) ∧ fRcpz (.fin neg 0 e) = (0, 0) ∧
        (m ≠ 0 → fRcpz (.fin neg m e) = fDiv specF32 0 (.fin false 1 0) (.fin neg m e))) ∧
      (fExp2 (.nan s) = nan ∧ fExp2 (.inf true) = (0, 0) ∧ fExp2 (.inf false) = (up, 0) ∧ fExp2 (.fin neg 0 e) = (0x3F800000, 0)) ∧
      (-149 ≤ j → j ≤ 127 → (if neg then -(m : Rat) else m) * 2 ^ e = j → (fExp2 (.fin neg m e)).2 = 0 ∧
        ∃ k d, specF32.decode (fExp2 (.fin neg m e)).1 = .fin false k d ∧ (k : Rat) * 2 ^ d = 2 ^ j) ∧
      (fLog2 (.nan s) = nan ∧ fLog2 (.inf true) = bad ∧ fLog2 (.inf false) = (up, 0) ∧ fLog2 (.fin neg 0 e) = (down, flagDZ) ∧
        (m ≠ 0 → fLog2 (.fin true m e) = bad)) ∧
      ((m : Rat) * 2 ^ e = 2 ^ j → fLog2 (.fin false m e) = specF32.round false 0 (.fin (decide (j < 0)) j.natAbs 0)) ∧
      (fRsqrt (.nan s) = nan ∧ fRsqrt (.inf true) = bad ∧ fRsqrt (.inf false) = (0, 0) ∧
        fRsqrt (.fin neg 0 e) = (if neg then down else up, flagDZ) ∧ (m ≠ 0 → fRsqrt (.fin true m e) = bad)) ∧
      (m ≠ 0 → ∃ k r : Nat, r * r * m ≤ 2 ^ k ∧ 2 ^ k < (r + 1) * (r + 1) * m ∧ (k + e) % 2 = 0 ∧ 2 ^ 25 ≤ r ∧
        fRsqrt (.fin false m e) = specF32.round false 0 (.fin false (2 * r + (if r * r * m = 2 ^ k then 0 else 1)) (-(k + e) / 2 - 1)))))

/-- R228, R242: the VPERM instructions. The five that move elements want a destination that shares no register with the source, else they raise
ILLEGAL with subcode OPERAND. -/
def Obligations.Permutations : Prop :=
  ∀ (h : Hdr) (d : Fin 64) (a : CVec) (b : CMask) (n : PosSrc) (m : Fin 8) (e c : Fin 32) (s u : State), u.vecOk →
    u.maskHeld m = false → u.maskHeld b.r = false →
    let w := u.vt.fmt.width
    let k := u.pos n
    let from' := fun j => decide (u.cur.start ≤ j)
    let x := u.elt a.r w
    let puts := fun (i : Instr) (p : Nat → Bool) (f : Nat → Nat) => ∃ t, Completes i s t ∧ WroteElts u d u.vt.size w p f t
    let chosen := (List.range u.vl).filter (u.kbit b.r)
    let apart := d.val + u.vt.size ≤ a.r.val ∨ a.r.val + u.vt.size ≤ d.val
    ([d, a.r].all (aligned u.vt.size) = true → apart →
      (Starts h (posRegs n) s u →
        puts (.vslideup h d a n m) (fun j => from' j && (u.active m j && decide (k ≤ j))) (fun j => x (j - k)) ∧
        puts (.vslidedown h d a n m) (fun j => from' j && u.active m j) (fun j => if j + k < u.vl then x (j + k) else 0) ∧
        puts (.vbcast h d a n m) (fun j => from' j && u.active m j) (fun _ => if k < u.vl then x k else 0)) ∧
      (Starts h [] s u →
        puts (.vcompress h d a b) (fun j => decide (j < chosen.length)) (fun j => x (chosen.getD j 0)) ∧
        puts (.vexpand h d a b) (fun j => decide (j < u.vl) && u.kbit b.r j)
          (fun j => x ((List.range j).countP (u.kbit b.r))))) ∧
    ([d, a.r].all (aligned u.vt.size) = true → ¬apart →
      (Starts h (posRegs n) s u → ∀ i ∈ [Instr.vslideup h d a n m, .vslidedown h d a n m, .vbcast h d a n m],
        Traps i s u (illegal .operand)) ∧
      (Starts h [] s u → ∀ i ∈ [Instr.vcompress h d a b, .vexpand h d a b], Traps i s u (illegal .operand))) ∧
    (Starts h (posRegs n) s u → aligned u.vt.size a.r = true →
      Completes (.vext h e a n) s (u.setX e (if k < u.vl then
        (if u.vt.fmt.isSigned then (BitVec.ofNat w (x k)).signExtend 64 else (BitVec.ofNat w (x k)).setWidth 64) else 0))) ∧
    (Starts h (c :: posRegs n) s u → aligned u.vt.size d = true →
      puts (.vins h d c n) (fun j => decide (j = k) && decide (j < u.vl)) (fun _ => (u.x c).toNat))

/-- R86, R96, R230, R243, R244: a scan or recurrence carries a value from xcar through its elements, `c 0`, `c 1`, …; element `j` becomes `c (j
+ 1)` and xcar the last carry. It counts as one group: a flag whose trap is enabled raises ARITH with start index 0, and then nothing is
written. -/
def Obligations.Scans : Prop :=
  ∀ (h : Hdr) (d : Fin 64) (a b : CVec) (m : Fin 8) (s u : State), Starts h [] s u → u.vecOk → u.maskHeld m = false →
    scanFmt u.vt.fmt = true →
    let p := u.vspec
    let f := u.vt.fmt
    let w := f.width
    let x := u.elt a.r w
    let val := fun (c : Nat) => if f.isSigned then (BitVec.ofNat w c).toInt else (BitVec.ofNat w c).toNat
    let ext := fun (c : Nat) => if f.isSigned then (BitVec.ofNat w c).signExtend 64 else (BitVec.ofNat w c).setWidth 64
    let apart := fun (v : Fin 64) => d.val + u.vt.size ≤ v.val ∨ v.val + u.vt.size ≤ d.val
    let scans := fun (i : Instr) (step : Nat → Nat → Nat × Flags) => ∃ c : Nat → Nat,
      c 0 = u.cur.xcar.toNat % 2 ^ w ∧ (∀ j, j < u.vl → c (j + 1) = (step j (c j)).1) ∧
      (let fl := joinFlags (fun j => (step j (c j)).2) (List.range u.vl);
      (u.enabled fl = false → ∃ t, Completes i s t ∧
        WroteElts ((u.accrue fl).modCsr (fun q => { q with xcar := if u.vl = 0 then q.xcar else ext (c u.vl) })) d u.vt.size w
          (fun j => decide (j < u.vl)) (fun j => c (j + 1)) t) ∧
      (u.enabled fl = true → Traps i s u (arithTrap fl 0)))
    let heads := fun (op : Nat → Nat → Nat × Flags) (j c : Nat) =>
      if m ≠ 0 ∧ u.kbit m j = true then (x j, 0) else op c (x j)
    ([d, a.r].all (aligned u.vt.size) = true → apart a.r →
      scans (.vscanadd h d a m)
        (heads (fun c y => if f.isInt then ((c + y) % 2 ^ w, 0) else fAdd p u.frm (p.decode c) (p.decode y))) ∧
      scans (.vscanmul h d a m)
        (heads (fun c y => if f.isInt then (c * y % 2 ^ w, 0) else fMul p u.frm (p.decode c) (p.decode y))) ∧
      scans (.vscanmax h d a m)
        (heads (fun c y => if f.isInt then (if val c < val y then y else c, 0) else fMinMax p true c y)) ∧
      scans (.vscanmin h d a m)
        (heads (fun c y => if f.isInt then (if val c < val y then c else y, 0) else fMinMax p false c y))) ∧
    ([d, a.r, b.r].all (aligned u.vt.size) = true → apart a.r → apart b.r →
      scans (.vrecur h d a b) (fun j c => if f.isInt then ((x j * c + u.elt b.r w j) % 2 ^ w, 0)
        else fFma p u.frm (p.decode (x j)) (p.decode c) (p.decode (u.elt b.r w j))))

/-- R86, R96, R245: the reductions of the active elements `xs`, in ascending order. R96: the pairwise tree of VFREDSUM. Each level adds
neighbours, and an odd last value passes up unrounded. -/
def Obligations.Reductions : Prop :=
  (∀ (h : Hdr) (d : Fin 32) (a : CVec) (m : Fin 8) (s u : State), Starts h [] s u → u.maskHeld m = false →
      aligned u.vt.size a.r = true →
      let f := u.vt.fmt
      let w := f.width
      let p := u.vspec
      let xs := ((List.range u.vl).filter (u.active m)).map (u.elt a.r w)
      let ext := fun (n : Nat) => if f.isSigned then (BitVec.ofNat w n).signExtend 64 else (BitVec.ofNat w n).setWidth 64
      let val := fun (c : Nat) => if f.isSigned then (BitVec.ofNat w c).toInt else (BitVec.ofNat w c).toNat
      let gives := fun (i : Instr) (n : Nat) => Completes i s (u.setX d (ext n))
      let ends := fun (i : Instr) (empty : Nat) (many : Nat × Flags) =>
        let r : Nat × Flags := match xs with
          | [] => (empty, 0)
          | [y] => if (p.decode y).isNan then (p.nanBits, if (p.decode y).isSnan then flagNV else 0) else (y, 0)
          | _ => many
        (u.enabled r.2 = false → Completes i s ((u.accrue r.2).setX d (BitVec.ofNat 64 r.1))) ∧
        (u.enabled r.2 = true → Traps i s u (arithTrap r.2 0))
      let add := fun (y z : Nat) => fAdd p u.frm (p.decode y) (p.decode z)
      (f.isInt = true →
        gives (.vredsum h d a m) (xs.sum % 2 ^ w) ∧
        gives (.vredand h d a m) (xs.foldl (· &&& ·) (2 ^ w - 1)) ∧
        gives (.vredor h d a m) (xs.foldl (· ||| ·) 0) ∧ gives (.vredxor h d a m) (xs.foldl (· ^^^ ·) 0) ∧
        (∃ n, gives (.vredmax h d a m) n ∧ (∀ y ∈ xs, val y ≤ val n) ∧
          (n ∈ xs ∨ xs = [] ∧ ∀ y, val n ≤ val y)) ∧
        (∃ n, gives (.vredmin h d a m) n ∧ (∀ y ∈ xs, val n ≤ val y) ∧
          (n ∈ xs ∨ xs = [] ∧ ∀ y, val y ≤ val n))) ∧
      (f.isVfp = true →
        ends (.vfredsum h d a m) 0 (pairTree add xs.length xs 0) ∧
        ends (.vfredosum h d a m) 0 (inOrder add xs.tail (xs.headD 0) 0) ∧
        ends (.vfredmax h d a m) (p.infBits true) (inOrder (fMinMax p true) xs.tail (xs.headD 0) 0) ∧
        ends (.vfredmin h d a m) (p.infBits false) (inOrder (fMinMax p false) xs.tail (xs.headD 0) 0))) ∧
  (∀ (add : Nat → Nat → Nat × Flags) (l : List Nat) (x : Nat) (f : Flags) (n : Nat),
      let level := pairLevel add l
      (level.1.length = (l.length + 1) / 2) ∧
      (∀ j, 2 * j + 1 < l.length → level.1.getD j 0 = (add (l.getD (2 * j) 0) (l.getD (2 * j + 1) 0)).1) ∧
      (l.length % 2 = 1 → level.1.getD (l.length / 2) 0 = l.getD (l.length - 1) 0) ∧
      level.2 = joinFlags (fun j => (add (l.getD (2 * j) 0) (l.getD (2 * j + 1) 0)).2) (List.range (l.length / 2)) ∧
      pairTree add n [x] f = (x, f) ∧
      (2 ≤ l.length → pairTree add (n + 1) l f = pairTree add n level.1 (f ||| level.2)))

/-- R5, R152, R180, R231 to R235: the VCFG instructions. VSET takes min(x[a], VLMAX) elements of the new vtype, VSETRUN no more than reach the
next boundary of 2^lg; MCFG takes the values that R180 allows and raises ILLEGAL with subcode CSR for any other; QTLD reads sixteen
halfwords; SCMV moves the ⌈vl/32⌉ scale bytes. -/
def Obligations.VectorConfig : Prop :=
  ∀ (h : Hdr) (d a b : Fin 32) (t : VType) (lg : BitVec 5) (q : Fin 4) (k : Fin 8) (c : CVec) (v : Fin 64) (s u w : State) (bs : List Byte),
    (Starts h [a] s u →
      let max := u.hart.place.grant * 8192 * t.size / t.fmt.width
      let n := min (u.x a).toNat max
      Completes (.vset h d a t) s (((u.setVl n).setVtype t).setX d (BitVec.ofNat 64 n))) ∧
    (Starts h [a, b] s u →
      let max := u.hart.place.grant * 8192 * u.vt.size / u.vt.fmt.width
      let p := 2 ^ lg.toNat
      let n := min (min (u.x a).toNat max) (p - (u.x b).toNat % p)
      Completes (.vsetrun h d a b lg) s ((u.setVl n).setX d (BitVec.ofNat 64 n))) ∧
    (Starts h [a] s u →
      let x := u.x a
      let span := (x.extractLsb' 0 7).toNat
      let legal := x.extractLsb' 40 24 = 0 ∧ x.getLsbD 7 = false ∧ 1 ≤ span ∧ span ≤ 64 ∧ x.extractLsb' 8 16 ≠ 0
      (legal → Completes (.mcfg h a) s (u.modCsr (fun r => { r with mcfg := x }))) ∧
      (¬legal → Traps (.mcfg h a) s u (illegal .csr)) ∧
      (u.blockStarts x = true → x.toNat % 32 = 0 → u.interlocked [(x, 32)] = false →
        (u.blockRead x 4 = .ok (bs, w) →
          Completes (.qtld h q a) s (w.modRegs (fun g => { g with qt := g.qt.set q (Vector.ofFn (fun j =>
            BitVec.ofNat 16 (leNat ((bs.drop (2 * j.val)).take 2)))) }))) ∧
        (∀ c y, u.blockRead x 4 = .error (c, y) → Traps (.qtld h q a) s u (trapOf c x)))) ∧
    (Starts h [] s u → u.vecOk →
      let n := (u.vl + 31) / 32
      (aligned u.vt.size c.r = true → ∃ t, Completes (.scmvToScale h k c) s t ∧
        (∀ j, j < 6144 → t.scByte k j = if j < n then u.elt c.r 8 j else u.scByte k j) ∧
        t = u.modRegs (fun g => { g with sc := g.sc.set k t.hart.regs.sc[k] })) ∧
      (aligned u.vt.size v = true → ∃ t, Completes (.scmvFromScale h v k) s t ∧
        WroteElts u v u.vt.size 8 (fun j => decide (j < n)) (u.scByte k) t))

/-- R86, R88, R89, R91, R227, R228, R246, R248: VCVTH narrows, VCVTD widens and VCVTI converts between integers and floating point, element by
element; each then leaves the new vtype. A pair of formats that R91 or R248 does not list raises ILLEGAL with subcode OPERAND. R92, R93,
R247: VCVTQ, block by block. A block's active elements become f4 codes with one scale byte, or q4 codes of a codebook; an enabled flag stops
it at its block with the earlier blocks written. R92, R93: the scale byte and the codes of a block. By the MX scale rule a block with a NaN
or an infinity gets scale 0xFF and codes 0; any other one the scale X + 127, X being the clamped exponent of its largest magnitude less
emax, and -127 where every value is zero, and each code is the value divided by 2^X, rounded once to nearest-even, saturating. VCVTQ to f4
takes these and joins the flags of its elements' roundings; to q4 the scale is 0x7F and each code the lowest of those whose entry is nearest
and no NaN, 0 where every entry is a NaN, with NX for an entry that differs from its element; a block with a NaN or an infinity raises NV
alone. -/
def Obligations.Conversions : Prop :=
  (∀ (h : Hdr) (d : Fin 64) (a : CVec) (m : Fin 8) (f : Fmt) (sat : Bool) (dir : BitVec 2) (s u : State), Starts h [] s u → u.vecOk →
      u.maskHeld m = false → aligned u.vt.size a.r = true →
      let src := u.vt.fmt
      let x := u.elt a.r src.width
      let apart := fun (n : Nat) => d.val + n ≤ a.r.val ∨ a.r.val + u.vt.size ≤ d.val
      let converts := fun (i : Instr) (t : VType) (r : Nat → Nat × Flags) =>
        endsByGroup i s u (max src.width t.fmt.width) (fun j => if u.active m j then (r j).2 else 0)
          (fun v q z => WroteElts v d t.size t.fmt.width (fun j => q j && u.active m j) (fun j => (r j).1) z) (State.setVtype · t)
      (let t : VType := ⟨f, halfGroup u.vt.group⟩;
        aligned t.size d = true →
        (narrows src f = true → (sat = true → f = .f8e5) → d = a.r ∨ apart t.size →
          converts (.vcvth h d a m f sat) t (fun j => match src.spec with
            | some p => roundTo f sat u.frm (p.decode (x j))
            | none => (wrap f.width (clampInt (intMin f.isSigned f.width) (intMax f.isSigned f.width)
                (intOf src.isSigned src.width (x j))), 0))) ∧
        (narrows src f = false ∨ (sat = true ∧ f ≠ .f8e5) → Traps (.vcvth h d a m f sat) s u (illegal .operand))) ∧
      (let t : VType := ⟨f, doubleGroup u.vt.group⟩;
        aligned t.size d = true → u.vt.group ≠ 3 →
        (narrows f src = true → apart t.size →
          converts (.vcvtd h d a m f) t (fun j => match src.spec with
            | some p => roundTo f false u.frm (p.decode (x j))
            | none => (wrap f.width (intOf src.isSigned src.width (x j)), 0))) ∧
        (narrows f src = false → Traps (.vcvtd h d a m f) s u (illegal .operand))) ∧
      (aligned u.vt.size d = true →
        (vcvtiDst src dir = some f → converts (.vcvti h d a m dir) ⟨f, u.vt.group⟩
          (fun j => roundTo f false u.frm (valueOf src (x j)))) ∧
        (vcvtiDst src dir = none → Traps (.vcvti h d a m dir) s u (illegal .operand)))) ∧
  (∀ (h : Hdr) (d : Fin 64) (a : CVec) (b m : Fin 8) (q4 : Bool) (qt : Fin 4) (s u : State), Starts h [] s u → u.vecOk →
      u.maskHeld m = false → aligned u.vt.size a.r = true → u.vt.fmt = .f32 → d.val < a.r.val ∨ a.r.val + u.vt.size ≤ d.val →
      let i := Instr.vcvtq h d a b m q4 qt
      let elts := fun j => ((List.range 32).map (32 * j + ·)).filter (fun k => decide (u.cur.start ≤ k) && u.active m k)
      let coded := fun j => quantBlock (if q4 then some u.hart.regs.qt[qt] else none) ((elts j).map (fun k => specF32.decode (u.elt a.r 32 k)))
      let fl := fun j => if elts j = [] then 0 else (coded j).2.2
      let wrote := fun (n : Nat) (t : State) =>
        (∀ j k, k < (elts j).length → t.elt d 4 ((elts j).getD k 0) =
          if j < n then ((coded j).2.1.getD k 0) % 16 else u.elt d 4 ((elts j).getD k 0)) ∧
        (∀ j, j < 6144 → t.scByte b j = if j < n ∧ elts j ≠ [] then (coded j).1 % 256 else u.scByte b j) ∧
        WroteElts ((u.accrue (joinFlags fl (List.range n))).modRegs (fun g => { g with sc := t.hart.regs.sc })) d 1 4
          (fun k => decide (k < 32 * n) && (decide (u.cur.start ≤ k) && u.active m k)) (fun k => t.elt d 4 k) t
      ((∀ j, u.enabled (fl j) = false) → ∃ t, wrote ((u.vl + 31) / 32) t ∧
        Completes i s (t.setVtype ⟨if q4 then .q4 else .f4, 0⟩)) ∧
      (∀ n, n < (u.vl + 31) / 32 → (∀ j, j < n → u.enabled (fl j) = false) → u.enabled (fl n) = true →
        ∃ t, wrote n t ∧ Traps i s t (arithTrap (fl n) (32 * n)))) ∧
  ((∀ (f : Fmt) (p : FmtSpec) (emax : Int) (xs : List FVal), (f, p, emax) ∈ [(Fmt.f8e4, specE4, 8), (Fmt.f8e5, specE5, 15), (Fmt.f4, specF4, 2)] →
      ((∃ v ∈ xs, v.isFinite = false) → mxEncode f xs = (255, xs.map (fun _ => 0))) ∧
      ((∀ v ∈ xs, v.isFinite = true) → ∃ x : Int, -127 ≤ x ∧ x ≤ 127 ∧
        mxEncode f xs = ((x + 127).toNat, xs.map (fun v => match v with
          | .fin n m e => (p.round true 0 (.fin n m (e - x))).1
          | _ => 0)) ∧
        ((∀ n m e, FVal.fin n m e ∈ xs → m = 0) → x = -127) ∧
        ∀ n m e, FVal.fin n m e ∈ xs → m ≠ 0 → (∀ n' m' e', FVal.fin n' m' e' ∈ xs → (m' : Rat) * 2 ^ e' ≤ m * 2 ^ e) →
          ∃ l : Int, (2 : Rat) ^ l ≤ m * 2 ^ e ∧ (m : Rat) * 2 ^ e < 2 ^ (l + 1) ∧ x = min (max (l - emax) (-127)) 127)) ∧
    (∀ (q : Option QtReg) (xs : List FVal), (∃ v ∈ xs, v.isFinite = false) → quantBlock q xs = (255, xs.map (fun _ => 0), flagNV)) ∧
    (∀ xs : List FVal, (∀ v ∈ xs, v.isFinite = true) →
      let b := mxEncode .f4 xs
      (quantBlock none xs).1 = b.1 ∧ (quantBlock none xs).2.1 = b.2 ∧
      (quantBlock none xs).2.2 = joinFlags (fun k => match xs.getD k (.fin false 0 0) with
        | .fin n m e => (specF4.round true 0 (.fin n m (e - ((b.1 : Int) - 127)))).2
        | _ => 0) (List.range xs.length)) ∧
    (∀ (q : QtReg) (xs : List FVal), (∀ v ∈ xs, v.isFinite = true) →
      let entry := fun (c : Fin 16) => specBf16.decode q[c].toNat
      let r := quantBlock (some q) xs
      r.1 = 0x7F ∧ r.2.1.length = xs.length ∧
      (∀ k, k < xs.length → ∃ c : Fin 16, r.2.1.getD k 0 = c.val ∧ ∀ n m e, xs.getD k (.fin false 0 0) = .fin n m e →
        let x : Rat := (if n then -(m : Rat) else m) * 2 ^ e
        let far := fun (z : Bool) (i : Nat) (d : Int) =>
          let y : Rat := (if z then -(i : Rat) else i) * 2 ^ d
          if x ≤ y then y - x else x - y
        ((∀ j, (entry j).isNan = true) → c = 0) ∧
        ((∀ j, (entry j).isFinite = false) → (∃ j, (entry j).isNan = false) → (entry c).isNan = false ∧ ∀ j, (entry j).isNan = false → c ≤ j) ∧
        ((∃ j, (entry j).isFinite = true) → ∃ z i d, entry c = .fin z i d ∧ ∀ j z' i' d', entry j = .fin z' i' d' →
          far z i d < far z' i' d' ∨ (far z i d = far z' i' d' ∧ c ≤ j))) ∧
      r.2.2 = if (List.range xs.length).all (fun k => (FRel.eval .eq (xs.getD k (.fin false 0 0)) (entry (Fin.ofNat 16 (r.2.1.getD k 0)))).1) then 0
        else flagNX))

/-- R22, R38, R103, R252, R253: a vector load takes its remaining active elements, `todo`, in ascending order. Where fetching them one after the
other finds `x 0`, `x 1`, … and passes the states `t 0`, `t 1`, …, it completes: each element gets what its fetch delivers, and with a flag
mask its bit is set for an absent or malformed element and cleared for every other one below vl. At the first fetch that faults it traps
with that cause, the element's address and its index, the elements before it delivered. -/
def Obligations.VectorLoads : Prop :=
  ∀ (h : Hdr) (d : Fin 64) (a b : Fin 32) (im : Imm) (m fk : Fin 8) (s u : State), u.vecOk →
    [m, fk].any u.maskHeld = false → aligned u.vt.size d = true →
    let f := u.vt.fmt
    let todo := (List.range u.vl).filter (fun i => u.inTurn i && u.active m i)
    let loads := fun (i : Instr) (a0 : Word) (stride : Int) =>
      let sb := u.stepBits a0 f.width
      let at' := fun k => eltAddr a0 stride sb (todo.getD k 0)
      let fetch := fun (t : State) (k : Nat) => t.fetchElt (at' k).1 a0 (at' k).2 sb f false none (decide (fk ≠ 0))
      let got := fun (n : Nat) (x : Nat → Fetched) (v r : State) => ∃ w, WroteElts v d u.vt.size f.width
          (fun i => (todo.take n).contains i) (fun i => (x (todo.idxOf i)).code f) w ∧
        (fk = 0 → r = w) ∧
        (fk ≠ 0 → WroteBits w fk (fun i => decide (u.cur.start ≤ i) && decide (i < if n = todo.length then u.turnEnd u.vl else todo.getD n 0))
          (fun i => (todo.take n).contains i && (x (todo.idxOf i)).isFlagged) r)
      u.interlocked (accessSpan a0 stride sb u.vl) = false →
      ∀ (t : Nat → State) (x : Nat → Fetched) (n : Nat), t 0 = u → n ≤ todo.length →
        (∀ k, k < n → fetch (t k) k = .ok (x k, t (k + 1))) →
        (n = todo.length → ∃ r, Completes i s r ∧ got n x (t n) r) ∧
        (∀ c, n < todo.length → fetch (t n) n = .error c →
          ∃ r, Traps i s r (trapOf c (at' n).1 (todo.getD n 0)) ∧ got n x (t n) r)
    (Starts h [a] s u → loads (.vld h d a im none m fk) (u.x a + im.sval) 1) ∧
    (Starts h [a, b] s u → (u.stepBits (u.x a) f.width = 4 → (u.x b).toNat % 2 = 0) →
      loads (.vlds h d a b m fk) (u.x a) (u.x b).toInt) ∧
    (Starts h [a, b] s u → u.stepBits (u.x a) f.width = 4 → (u.x b).toNat % 2 = 1 →
      Traps (.vlds h d a b m fk) s u (trapOf .stride (u.x b)))

/-- R20, R22, R252: VLDL reads the hart's own window and VLDFM a furrow window: each remaining active element gets the window's bytes at its
address, and the first one that lies outside the window or is misaligned traps with its address and index, the elements before it delivered.
R20 to R22, R274: when an element at a window address faults, and in which order: the class and the range before the alignment, and a store
that meets a live plan record between them. -/
def Obligations.WindowLoads : Prop :=
  (∀ (h : Hdr) (d : Fin 64) (a : Fin 32) (im : Imm) (m : Fin 8) (s u : State), Starts h [a] s u → u.vecOk →
      u.maskHeld m = false → aligned u.vt.size d = true →
      let w := u.vt.fmt.width
      let loads := fun (i : Instr) (a0 : Word) (frw : Bool) =>
        let at' := fun k => eltAddr a0 1 (u.stepBits a0 w) k
        let todo := fun k => u.inTurn k && u.active m k
        let value := fun k => natField (leNat (u.padRead ((padCore u.loc (at' k).1).getD 0) u.hart.place.launch
          (offsetOf (at' k).1) ((w + 7) / 8))) (at' k).2 w
        u.interlocked (accessSpan a0 1 w u.vl) = false →
        ((∀ k, todo k = true → u.padFault frw false (at' k).1 w = none) →
          ∃ r, Completes i s r ∧ WroteElts u d u.vt.size w todo value r) ∧
        (∀ n c, todo n = true → u.padFault frw false (at' n).1 w = some c →
          (∀ k, k < n → todo k = true → u.padFault frw false (at' k).1 w = none) →
          ∃ r, Traps i s r (trapOf c (at' n).1 n) ∧ WroteElts u d u.vt.size w (fun k => todo k && decide (k < n)) value r)
      loads (.vldl h d a im m) (u.x a + im.sval) false ∧ loads (.vldfm h d a m) (u.x a) true) ∧
  (∀ (s : State) (frw write : Bool) (a : Word) (sb core : Nat), padCore s.loc a = some core →
      let right := ((∃ c, classOf a = .frw c) ↔ frw = true) ∧ offsetOf a < s.windowSize core s.hart.place.launch
      let guarded := write = true ∧ s.liveRecord core s.hart.place.launch (offsetOf a) (max (sb / 8) 1) = true
      let crooked := 8 ≤ sb ∧ a.toNat % (sb / 8) ≠ 0
      (¬right → s.padFault frw write a sb = some .protect) ∧ (right → guarded → s.padFault frw write a sb = some .protect) ∧
      (right → ¬guarded → crooked → s.padFault frw write a sb = some .misalign) ∧
      (right → ¬guarded → ¬crooked → s.padFault frw write a sb = none))

/-- R22, R38, R76, R100, R103, R106, R109: one element fetched from main memory. PROTECT for another class; the faults of translation, MISALIGN
among them, but an absent page only flags the element under a flag mask; then INTEGRITY for a poisoned page, FORMAT for a page of another
step or a format that vtype cannot take, and SMETA for a malformed element without a flag mask. A RAW page delivers the element's bits;
another page the code, the scale of its block and the decoded value, for a malformed element those of code 0. `blk` is the row of the
element's register block in a load with sc=; element 0 must be aligned where that is the row of stored codes. R103: how the page's layout
and vtype choose what is delivered: RAW and q4 bytes unchanged; q4 wants a q4 page; the stored code under a matching f8 or f4 format with
sc=; values encoded again for the other f8 and f4 forms with sc=; else the decoded value, rounded to nearest-even, saturating. Nothing that
an element delivers on its own sets a flag. R103: the row of a register block in a load with sc=: none without an active element whose page
has one, the one that all such elements share, else the one that encodes decoded values. R4, R76, R78, R101, R107 to R109, R114: where a
page's codes and scales lie, and what a sparse block decodes to: from the header's KIND, META and SCALE and the 32 values behind it, and
when it is malformed, which gives code 0. The pages of MX format keep one scale byte for every 32 elements in the frame's trailer. -/
def Obligations.ElementFetch : Prop :=
  (∀ (s : State) (a a0 : Word) (nib sb : Nat) (f : Fmt) (sc fk : Bool) (blk : Option Row) (p : Page) (c : Cause),
      let mis := fun e => decide (8 ≤ sb ∧ a.toNat % (sb / 8) ≠ 0 ∨ logicalSize (entFMT e) ≠ 0 ∧ a.toNat % logicalSize (entFMT e) ≠ 0 ∨
        (s.layout (pageOf s.ctx a e)).isBlock = true ∧ rowFor (s.layout (pageOf s.ctx a e)) f sc = some .stored ∧ blk = some .stored ∧
          a0.toNat % 32 ≠ 0)
      let got := s.fetchElt a a0 nib sb f sc blk fk
      ((classOf a).isVirt = false → got = .error .protect) ∧
      ((classOf a).isVirt = true →
        (s.translate s.ctx a Need.load mis = .error .absent → got = if fk then .ok (.absent, s) else .error .absent) ∧
        (s.translate s.ctx a Need.load mis = .error c → c ≠ .absent → got = .error c) ∧
        (s.translate s.ctx a Need.load mis = .ok p →
          let t := s.settle p.frame p.off (max (sb / 8) 1)
          let lay := s.layout p
          ((s.pmeta p.frame).state = 3 → got = .error .integrity) ∧
          ((s.pmeta p.frame).state ≠ 3 → sameStep p.e sb f.width = false ∨ rowFor lay f sc = none → got = .error .format) ∧
          (∀ row, (s.pmeta p.frame).state ≠ 3 → sameStep p.e sb f.width = true → rowFor lay f sc = some row →
            (lay = .raw →
              let code := natField (t.rawNat p.frame p.off ((f.width + 7) / 8)) nib f.width
              got = .ok (.elt false .bytes code 0x7F (valueOf f code), t)) ∧
            (lay ≠ .raw → t.eltBad lay p.frame p.off = true → fk = false → got = .error .smeta) ∧
            (lay ≠ .raw → t.eltBad lay p.frame p.off = false ∨ fk = true →
              let code := t.eltCode lay p.frame p.off
              let scale := t.blockScale lay p.frame (p.off / 32)
              got = .ok (.elt (t.eltBad lay p.frame p.off) row code scale
                (codeValue lay t.hart.regs.qt[Fin.ofNat 4 (entQT p.e)] code scale), t)))))) ∧
  (∀ (lay : Layout) (f : Fmt) (sc bad : Bool) (code scale : Nat) (v : FVal),
      let mx := f = .f8e4 ∨ f = .f8e5 ∨ f = .f4
      (lay = .raw → rowFor lay f sc = some .bytes) ∧
      (lay ≠ .raw → f = .q4 → rowFor lay f sc = if lay = .q4 then some .bytes else none) ∧
      (lay ≠ .raw → mx → sc = true → rowFor lay f sc = if lay.fmt = some f then some .stored else some .recode) ∧
      (lay ≠ .raw → f ≠ .q4 → sc = false ∨ ¬mx → rowFor lay f sc = some .value) ∧
      ((Fetched.elt bad .bytes code scale v).code f = code) ∧ ((Fetched.elt bad .stored code scale v).code f = code) ∧
      ((Fetched.elt bad .value code scale v).code f = (roundTo f true 0 v).1) ∧ (Fetched.absent.code f = 0) ∧
      (Fetched.absent.isFlagged = true) ∧ ((Fetched.elt bad .value code scale v).isFlagged = bad)) ∧
  (∀ (s : State) (a0 : Word) (stride : Int) (sb : Nat) (m : Fin 8) (fk : Bool) (j : Nat) (r : Row),
      let row := fun i => s.rowAt (eltAddr a0 stride sb i).1 sb s.vt.fmt fk
      let mine := fun i => 32 * j ≤ i ∧ i < 32 * j + 32 ∧ s.active m i = true
      let got := s.blockRow a0 stride sb m fk j
      ((∀ i, mine i → row i = none) → got = none) ∧
      ((∃ i, mine i ∧ row i = some r) → (∀ i q, mine i → row i = some q → q = r) → got = some r) ∧
      (∀ i k q p, mine i → mine k → row i = some q → row k = some p → p ≠ q → got = some .recode)) ∧
  (∀ (s : State) (frame b k : Nat) (f : Fmt), k < 32 →
      let off := 32 * b + k
      let byte := fun n => s.rawNat frame n 1
      let nibble := fun n v => byte (n + v / 2) / 16 ^ (v % 2) % 16
      let head := s.rawNat frame (24 * b) 8
      let field := fun lo n => head / 2 ^ lo % 2 ^ n
      let kind := field 8 2
      let mask := fun e => decide (field (16 + e) 1 = 1)
      let value := nibble (24 * b + 8)
      let pos0 := field (16 + 4 * (k / 4)) 2
      let pos1 := field (18 + 4 * (k / 4)) 2
      let spoilt := kind = 3 ∨ field 10 6 ≠ 0 ∨ field 48 16 ≠ 0
      (s.eltBad .smx4 frame off = decide (spoilt ∨ (kind = 2 ∧ pos1 ≤ pos0))) ∧
      (s.eltBad .smx4 frame off = true → s.eltCode .smx4 frame off = 0) ∧
      (s.eltBad .smx4 frame off = false →
        (kind = 0 → s.eltCode .smx4 frame off = value k) ∧
        (kind = 1 → s.eltCode .smx4 frame off = if mask k then value ((List.range k).countP mask) else 0) ∧
        (kind = 2 → s.eltCode .smx4 frame off =
          if k % 4 = pos0 then value (2 * (k / 4)) else if k % 4 = pos1 then value (2 * (k / 4) + 1) else 0)) ∧
      s.blockScale .smx4 frame b = field 0 8 ∧
      s.eltCode .mx4 frame off = nibble (16 * b) k ∧ s.eltCode .q4 frame off = nibble (16 * b) k ∧
      s.eltCode (.mx f) frame off = byte off ∧ s.eltCode (.plain f) frame off = s.rawNat frame off (f.width / 8) ∧
      s.blockScale .mx4 frame b = byte (65536 + b) ∧ s.blockScale (.mx f) frame b = byte (65536 + b) ∧
      s.blockScale (.plain f) frame b = 0x7F ∧ s.blockScale .q4 frame b = 0x7F ∧
      (∀ lay, lay ≠ .smx4 → s.eltBad lay frame off = false) ∧
      (∀ lay ∈ [Layout.smx4, .mx4, .q4, .mx f, .plain .f8e4], (s.blockCodes lay frame b).getD k (0, true) = (s.eltCode lay frame off, s.eltBad lay frame off)))

/-- R103, R252: VLD with sc=. With every fetch on its way free of faults, the codes and scale bytes go register block by register block. A block
that takes the row of stored codes keeps its codes and takes the memory block's scale, one of unchanged bytes gets scale byte 0x7F, and one
that encodes decoded values gets the codes and the scale of R92 for its elements, `old` among them, which an earlier part of the same
instruction has delivered. R38, R65 to R67, R106, R125, R136, R254: VLDROW. The base must be a row of an RC page, at most as long as the
row, and the elements come from the row as it stands, with pending VRAMOs of other harts left out and counted in `rowstale`; it waits while
a merging add of its own hart to the row is pending. An absent row gives zeros and sets the flag bits of its active elements where a flag
mask is named, and raises ABSENT else; a poisoned one raises INTEGRITY. With no active element left it reads nothing and counts nothing, but
raises MISALIGN and FORMAT all the same unless vl is 0; by log entry 39, a fault names the lowest active element, MISALIGN the row, and
elements beyond the row raise OPERAND whatever is active. -/
def Obligations.RowAndScaledLoads : Prop :=
  (∀ (h : Hdr) (d : Fin 64) (a : Fin 32) (im : Imm) (n m fk : Fin 8) (s u : State) (t : Nat → State) (x : Nat → Fetched),
      Starts h [a] s u → [m, fk].any u.maskHeld = false → aligned u.vt.size d = true →
      let f := u.vt.fmt
      let todo := u.todo m
      let a0 := u.x a + im.sval
      let sb := u.stepBits a0 f.width
      let at' := fun k => eltAddr a0 1 sb (todo.getD k 0)
      let rows := (List.range ((u.vl + 31) / 32)).map (u.blockRow a0 1 sb m (fk != 0))
      u.interlocked (accessSpan a0 1 sb u.vl) = false → t 0 = u →
      (∀ k, k < todo.length → (t k).fetchElt (at' k).1 a0 (at' k).2 sb f true (rows.getD (todo.getD k 0 / 32) none) (fk != 0) =
        .ok (x k, t (k + 1))) →
      let got := (List.range todo.length).map (fun k => (todo.getD k 0, x k))
      Completes (.vld h d a im (some n) m fk) s (((t todo.length).putFetched u d m (some n) rows got).putFlags u fk
        ((got.filter (fun y => y.2.isFlagged)).map Prod.fst) u.vl) ∧
      (∀ (old : List (Nat × FVal)) (is : List (Nat × Nat)) (sc : Nat) (v : Nat → FVal), is ≠ [] →
        let got := fun (r : Row) => deliverBlock f (some r) old (is.map (fun y => (y.1, .elt false r y.2 sc (v y.1))))
        got .stored = (is, some sc) ∧ got .bytes = (is, some 0x7F) ∧
        (f = .f8e4 ∨ f = .f8e5 ∨ f = .f4 →
          let vals := old ++ is.map (fun y => (y.1, v y.1))
          got .recode = ((vals.map Prod.fst).zip (mxEncode f (vals.map Prod.snd)).2, some (mxEncode f (vals.map Prod.snd)).1)))) ∧
  (∀ (h : Hdr) (d : Fin 64) (a : Fin 32) (m fk : Fin 8) (s u : State) (p : Page) (c : Cause), Starts h [a] s u →
      [m, fk].any u.maskHeld = false → aligned u.vt.size d = true →
      let i := Instr.vldrow h d a m fk
      let a0 := u.x a
      let f := u.vt.fmt
      let sb := u.stepBits a0 f.width
      let e := u.entryAt u.ctx a0
      let todo := u.todo m
      let first := todo.headD 0
      let x := (eltAddr a0 1 sb first).1
      let flags := fun (t : State) (on : List Nat) (n : Nat) => t.putFlags u fk on n
      let long := (classOf a0).isVirt = true ∧ entV e = true ∧ entRC e = true ∧ u.vl * sb > 8 * entRow e
      let idle := u.vl = 0 ∨ u.cur.start ≠ 0 ∨ (classOf a0).isVirt = false ∨ entV e = false
      let stops := fun (c : Cause) (y : Word) => Traps i s (flags u [] first) (trapOf c y first)
      (∀ (t : State) (on : List Nat) (n : Nat), (fk = 0 → flags t on n = t) ∧ (fk ≠ 0 → WroteBits t fk
        (fun k => decide (u.cur.start ≤ k) && decide (k < min n (u.turnEnd u.vl))) on.contains (flags t on n))) ∧
      (long → Traps i s u (illegal .operand)) ∧
      (¬long → u.interlocked (accessSpan a0 1 sb u.vl) = false →
        (todo = [] →
          (idle → Completes i s (flags u [] u.vl)) ∧ (¬idle → rowMisaligned a0 sb e = true → Traps i s u (trapOf .misalign a0)) ∧
          (¬idle → rowMisaligned a0 sb e = false → entRC e = false → Traps i s u (trapOf .format a0)) ∧
          (¬idle → rowMisaligned a0 sb e = false → entRC e = true → Completes i s (flags u [] u.vl))) ∧
        (todo ≠ [] → (classOf a0).isVirt = false → stops .protect x) ∧
        (todo ≠ [] → (classOf a0).isVirt = true →
          (u.translate u.ctx a0 Need.load (rowMisaligned a0 sb) = .error c → c ≠ .absent ∨ fk = 0 → stops c (if c = .misalign then a0 else x)) ∧
          (u.translate u.ctx a0 Need.load (rowMisaligned a0 sb) = .error .absent → fk ≠ 0 →
            Completes i s (flags (todo.foldl (fun t k => t.setElt d f.width k 0) u) todo u.vl)) ∧
          (u.translate u.ctx a0 Need.load (rowMisaligned a0 sb) = .ok p →
            ((u.pmeta p.frame).state = 3 → stops .integrity x) ∧
            ((u.pmeta p.frame).state ≠ 3 → entRC p.e = false ∨ f = .q4 ∧ entFMT p.e ≠ 0 → stops .format x) ∧
            ((u.pmeta p.frame).state ≠ 3 → entRC p.e = true → (f = .q4 → entFMT p.e = 0) →
              let row := p.off / entRow p.e * entRow p.e
              let pend := u.ms.wq.filter (fun q => q.meets p.frame row (entRow p.e) && !q.rowAdds.isEmpty)
              let own := ∃ q ∈ u.ms.wq, q.meets p.frame row (entRow p.e) = true ∧ u.hart.dest ∈ q.who
              let got := (u.rowElts p m sb f).foldl (fun t x => t.setElt d f.width x.1 x.2) u
              (own → Waits i s u) ∧ (¬own → pend = [] → Completes i s (flags got [] u.vl)) ∧
              (¬own → pend ≠ [] →
                Completes i s (flags (got.modFn u.hart.place.fn (fun g => { g with rowstale := g.rowstale + 1 })) [] u.vl)))))))

/-- R22, R57, R69, R104, R105, R255, R256: a vector store marks the plans that watch its span and takes its remaining active elements in
ascending order. Where storing them one after the other passes the states `t 0`, `t 1`, …, it completes in the last; at the first that
faults it traps, and the stores before it stand. In a further turn of the lanes it goes on with the write request of the turn before: what
one request is over several turns is the model's choice (log 11). R20, R22, R255: VSTL stores its remaining active elements into the hart's
own window, in ascending order; the first outside it, in a live plan record or misaligned traps. For whole bytes the window then holds each
element's bytes. R22, R100, R104 to R106: one element stored to main memory. The checks come in the order of R22 and R106: class,
translation, INTEGRITY, FORMAT, FROZEN, PARTIAL. On a RAW page it replaces its bits; on a page of scalar elements it is rounded to
nearest-even, saturating; a q4 code replaces the old one. The first active element of a block takes the block with all its active elements,
`mates`. R92, R104, R105: a block stored. Where all 32 elements are active, the named scale register gives them one scale byte and vtype is
the format of a page with scales, the codes and that byte are stored unchanged; else the block's values, the active elements' in their
places, are encoded again: by the scale rule, or for the HDR form, which has no scale, each rounded to nearest-even, saturating. That the
codes are kept only where one scale byte holds for all 32 elements, and that an HDR page is rounded whatever sc= names, is the model's
reading of R105 (log 39). R4, R103, R105, R110: after a block write its codes and scale byte read back, and no other block changes. A sparse
block never reads as malformed and keeps a code 8 as 0; KIND is 2 where every group of four has at most two codes that are no zeros, else 1
where some code is a zero, else 0. -/
def Obligations.VectorStores : Prop :=
  (∀ (h : Hdr) (d : Fin 64) (a b : Fin 32) (im : Imm) (sc : Option (Fin 8)) (m : Fin 8) (s u : State), u.maskHeld m = false →
      aligned u.vt.size d = true →
      let f := u.vt.fmt
      let todo := (List.range u.vl).filter (fun i => u.inTurn i && u.active m i)
      let stores := fun (i : Instr) (a0 : Word) (stride : Int) (sc : Option (Fin 8)) =>
        let sb := u.stepBits a0 f.width
        let span := accessSpan a0 stride sb u.vl
        let u' := span.foldl State.noteStore u
        let at' := fun k => eltAddr a0 stride sb (todo.getD k 0)
        let store := fun (t : State × Option Burst) (k : Nat) =>
          u'.storeElt t.1 d (at' k).1 a0 (at' k).2 stride sb sc m t.2 (todo.getD k 0)
        let sent := if stride = 1 then u'.requestBefore a0 sb m else none
        u.interlocked span = false →
        (u.cur.joins = false → sent = none) ∧
        ∀ (t : Nat → State × Option Burst) (n : Nat), t 0 = (u', sent) → n ≤ todo.length →
          (∀ k, k < n → store (t k) k = .ok (t (k + 1))) →
          (n = todo.length → Completes i s (t n).1) ∧
          (∀ c, n < todo.length → store (t n) n = .error c → Traps i s (t n).1 (trapOf c (at' n).1 (todo.getD n 0)))
      (Starts h [a] s u → stores (.vst h d a im sc m) (u.x a + im.sval) 1 sc) ∧
      (Starts h [a, b] s u → (u.stepBits (u.x a) f.width = 4 → (u.x b).toNat % 2 = 0) →
        stores (.vsts h d a b m) (u.x a) (u.x b).toInt none)) ∧
  (∀ (h : Hdr) (d : Fin 64) (a : Fin 32) (im : Imm) (m : Fin 8) (s u : State), Starts h [a] s u → u.maskHeld m = false →
      aligned u.vt.size d = true → 8 ≤ u.vt.fmt.width →
      let w := u.vt.fmt.width
      let a0 := u.x a + im.sval
      let todo := (List.range u.vl).filter (fun i => u.inTurn i && u.active m i)
      let at' := fun k => (eltAddr a0 1 (u.stepBits a0 w) (todo.getD k 0)).1
      let after := fun n => (List.range n).foldl (fun t k =>
        t.myWrite (offsetOf (at' k)) (leBytes (w / 8) (u.elt d w (todo.getD k 0)))) u
      let i := Instr.vstl h d a im m
      u.interlocked (accessSpan a0 1 w u.vl) = false →
      ((∀ k, k < todo.length → u.padFault false true (at' k) w = none) → Completes i s (after todo.length)) ∧
      (∀ n c, n < todo.length → (∀ k, k < n → u.padFault false true (at' k) w = none) → u.padFault false true (at' n) w = some c →
        Traps i s (after n) (trapOf c (at' n) (todo.getD n 0)))) ∧
  (∀ (s t : State) (b : Fin 64) (a a0 : Word) (nib : Nat) (stride : Int) (sb : Nat) (sc : Option (Fin 8)) (m : Fin 8)
      (run : Option Burst) (i : Nat) (p : Page) (c : Cause) (g : Fmt),
      let f := s.vt.fmt
      let mis := fun e => decide (8 ≤ sb ∧ a.toNat % (sb / 8) ≠ 0 ∨ logicalSize (entFMT e) ≠ 0 ∧ a.toNat % logicalSize (entFMT e) ≠ 0)
      let out := s.storeElt t b a a0 nib stride sb sc m run i
      ((classOf a).isVirt = false → out = .error .protect) ∧
      ((classOf a).isVirt = true → t.translate t.ctx a Need.store mis = .error c → out = .error c) ∧
      ((classOf a).isVirt = true → t.translate t.ctx a Need.store mis = .ok p →
        let lay := t.layout p
        let st := (t.pmeta p.frame).state
        let unfit := sameStep p.e sb f.width = false ∨ (lay ≠ .raw ∧ ((f = .q4) ↔ (lay ≠ .q4)))
        let part := blockFmt (entFMT p.e) = true ∧ blockCovered a0 a stride s.vl = false
        let v := t.settle p.frame p.off (max (sb / 8) 1)
        (st = 3 → out = .error .integrity) ∧ (st ≠ 3 → unfit → out = .error .format) ∧
        (st = 2 → ¬unfit → out = .error .frozen) ∧ (st ≠ 3 → st ≠ 2 → ¬unfit → part → out = .error .partialBlock) ∧
        (st ≠ 3 → st ≠ 2 → ¬unfit → ¬part →
          (lay = .raw →
            let n := (f.width + 7) / 8
            let old := v.rawNat p.frame p.off n
            out = .ok ((v.rawWrite p.frame p.off (leBytes n (old - natField old nib f.width * 2 ^ nib + s.elt b f.width i * 2 ^ nib))).request
              run p.frame (8 * p.off + nib) f.width)) ∧
          (lay = .plain g → blockFmt (entFMT p.e) = false → out = .ok ((v.putCode lay p.frame p.off
            (roundTo g true 0 (s.storeValue b sc i)).1).request run p.frame (8 * p.off) g.width)) ∧
          (lay = .q4 → out = .ok ((v.putCode .q4 p.frame p.off (s.elt b 4 i)).request run p.frame (8 * p.off) 8)) ∧
          (blockFmt (entFMT p.e) = true → lay ≠ .raw →
            let mates := blockMates i p.off (fun j => decide (s.cur.start ≤ j) && s.active m j)
            (∀ k j, (k, j) ∈ mates ↔ k < 32 ∧ j + p.off % 32 = i + k ∧ s.cur.start ≤ j ∧ s.active m j = true) ∧
            ((∃ q ∈ mates, q.2 < i) → out = .ok (v, run)) ∧
            ((∀ q ∈ mates, i ≤ q.2) → out = .ok ((v.storeBlock s lay p.frame (p.off / 32) b sc i mates).request run p.frame
              (8 * 32 * (p.off / 32)) 256)))))) ∧
  (∀ (s s0 : State) (lay : Layout) (frame blk : Nat) (b : Fin 64) (sc : Option (Fin 8)) (i : Nat) (mates : List (Nat × Nat)) (g : Fmt)
      (vs : List FVal),
      let f := s0.vt.fmt
      let whole := fun n => mates.length = 32 ∧ lay.isBlock = true ∧ lay.fmt = some f ∧
        s0.scByte n (i / 32) = s0.scByte n ((i + 31) / 32)
      let out := s.storeBlock s0 lay frame blk b sc i mates
      let mixed := (indexed (s.blockValues lay frame blk)).map (fun x => match mates.lookup x.1 with
        | some j => s0.storeValue b sc j
        | none => x.2)
      (∀ n, sc = some n → whole n →
        out = s.putBlock lay frame blk (s0.scByte n (i / 32)) (mates.map (fun q => s0.elt b f.width q.2))) ∧
      (sc = none ∨ (∃ n, sc = some n ∧ ¬whole n) → out = s.encodeBlock lay frame blk mixed) ∧
      (lay.fmt = some g → lay.isBlock = true →
        s.encodeBlock lay frame blk vs = s.putBlock lay frame blk (mxEncode g vs).1 (mxEncode g vs).2) ∧
      (lay.fmt = some g → lay.isBlock = false →
        s.encodeBlock lay frame blk vs = s.putBlock lay frame blk 0x7F (vs.map (fun v => (roundTo g true 0 v).1)))) ∧
  (∀ (s : State) (lay : Layout) (frame b c k scale : Nat) (codes : List Nat), s.canonical → b < 2048 → c < 2048 → k < 32 → codes.length = 32 →
      scale < 256 → lay ∈ [Layout.mx .f8e4, .mx .f8e5, .mx4, .smx4, .plain .f8e4] →
      (∀ x ∈ codes, x < if lay = .mx4 ∨ lay = .smx4 then 16 else 256) →
      let t := s.putBlock lay frame b scale codes
      let code := fun e => if lay = .smx4 ∧ codes.getD e 0 = 8 then 0 else codes.getD e 0
      let head := t.rawNat frame (24 * b) 8
      let kind := head / 2 ^ 8 % 4
      let some' := fun g => ((List.range 4).filter (fun e => decide (code (4 * g + e) ≠ 0))).length
      let value := fun v => t.rawNat frame (24 * b + 8 + v / 2) 1 / 16 ^ (v % 2) % 16
      t.eltCode lay frame (32 * b + k) = code k ∧ t.eltBad lay frame (32 * b + k) = false ∧
      (lay ≠ .plain .f8e4 → t.blockScale lay frame b = scale) ∧
      (c ≠ b → t.eltCode lay frame (32 * c + k) = s.eltCode lay frame (32 * c + k) ∧
        t.eltBad lay frame (32 * c + k) = s.eltBad lay frame (32 * c + k) ∧ t.blockScale lay frame c = s.blockScale lay frame c) ∧
      (lay = .smx4 → kind = (if (List.range 8).all (fun g => decide (some' g ≤ 2)) then 2 else if (List.range 32).any (fun e => decide (code e = 0)) then 1 else 0) ∧
        (kind = 2 → ∀ v, 16 ≤ v → v < 32 → value v = 0) ∧
        (kind = 1 → ∀ v, (List.range 32).countP (fun e => decide (code e ≠ 0)) ≤ v → v < 32 → value v = 0)) ∧
      t = { s with ms := t.ms })

/-- R53, R257, R258, R260: CPY and CPY2 wait for their tag, then check the length, the source range, the destination range and the overlap in
this order, wait for a copy in flight, and hand the copy to its tag, which is BUSY with no byte moved; CPY of no byte completes the tag at
once. CPRES takes a tag in FAULT back to BUSY at its recorded progress, with nothing of the source kept that had been read, posts a page
request again, and leaves any other tag alone. R53, R54, R121, R259: a copy in flight of the hart that has the turn moves in ascending
order. In one step it reads one aligned 32-byte group of its source, whose bytes it keeps with its progress unchanged, until it holds every
group that the next write needs; in one step it then writes those of its bytes whose destinations lie in the next aligned 32-byte group, the
progress counts them, and it keeps only the group that the next byte needs (the steps are the model's choice, log entry 10: DESIGN CHOICE).
Here both ranges lie in the hart's window. When all bytes have been moved the tag goes to DONE and the hart's TAG event is set. -/
def Obligations.Copies : Prop :=
  (∀ (h : Hdr) (d a b : Fin 32) (tag : Fin 64) (s u v : State) (bs : List Byte) (op : CopyOp),
      let whole := fun (x : Span) => x.1.toNat + x.2 ≤ 2 ^ 64 ∧ (classOf x.1).kind = (classOf (x.1 + BitVec.ofNat 64 (x.2 - 1))).kind
      let from' := fun (x : Span) => whole x ∧ classOf x.1 ≠ .none
      let to' := fun (x : Span) => whole x ∧ ((classOf x.1).isVirt = true ∨ classOf x.1 = .loc)
      let hands := fun (i : Instr) (v : State) (src dst : Span) (op : CopyOp) =>
        (¬from' src → Traps i s v (trapOf .protect src.1)) ∧
        (from' src → ¬to' dst → Traps i s v (trapOf .protect dst.1)) ∧
        (from' src → to' dst → spansMeet v.loc 1 src dst = true → Traps i s v (illegal .operand)) ∧
        (from' src → to' dst → spansMeet v.loc 1 src dst = false → v.interlocked [src, dst] = true → Waits i s v) ∧
        (from' src → to' dst → spansMeet v.loc 1 src dst = false → v.interlocked [src, dst] = false →
          Completes i s ((v.noteStore dst).setTag tag ⟨.busy, some op, 0, 0, 0⟩))
      (Starts h [a, b, d] s u → (u.tag tag).st = .busy →
        Waits (.cpy h d a b tag) s u ∧ Waits (.cpy2 h d a b tag) s u) ∧
      (Starts h [a, b, d] s u → (u.tag tag).st ≠ .busy →
        let n := (u.x b).toNat
        let p := u.x b
        (2 ^ 32 < n → Traps (.cpy h d a b tag) s u (illegal .operand)) ∧
        (n = 0 → Completes (.cpy h d a b tag) s (u.setTag tag ⟨.done, none, 0, 0, 0⟩)) ∧
        (0 < n → n ≤ 2 ^ 32 →
          hands (.cpy h d a b tag) u (u.x a, n) (u.x d, n) ⟨.cpy, u.x d, u.x a, n, n, 0, 0, 0, [], 0, 0, [], 0, true⟩) ∧
        (u.interlocked [(p, 32)] = false → u.blockStarts p = true → p.toNat % 8 = 0 → u.blockRead p 4 = .ok (bs, v) →
          let rows := leNat (bs.take 8)
          let rb := leNat ((bs.drop 8).take 8)
          let ss := (BitVec.ofNat 64 (leNat ((bs.drop 16).take 8))).toInt
          let ds := (BitVec.ofNat 64 (leNat ((bs.drop 24).take 8))).toInt
          let fit := 1 ≤ rows ∧ rows ≤ 65535 ∧ 1 ≤ rb ∧ rb ≤ 2 ^ 20 ∧ rows * rb ≤ 2 ^ 32 ∧ (rows = 1 ∨ rb ≤ ds.natAbs)
          (¬fit → Traps (.cpy2 h d a b tag) s v (illegal .operand)) ∧
          (fit → hands (.cpy2 h d a b tag) v (rowSpan (v.x a) rows rb ss) (rowSpan (v.x d) rows rb ds)
            ⟨.cpy2, v.x d, v.x a, rows * rb, rb, ss, ds, 0, [], 0, 0, [], 0, true⟩))) ∧
      (Starts h [] s u →
        ((u.tag tag).st ≠ .fault → Completes (.cpres h tag) s u) ∧
        ((u.tag tag).st = .fault → (u.tag tag).op = some op → op.kind ≠ .pgreq → u.interlocked op.spans = false →
          Completes (.cpres h tag) s ((u.noteCopy op).setTag tag { u.tag tag with st := .busy, op := some { op with first := true, got := [], part := 0, flags := op.flags % 2 ^ (u.tag tag).prog } })) ∧
        ((u.tag tag).st = .fault → (u.tag tag).op = some op → op.kind = .pgreq →
          Completes (.cpres h tag) s (u.requestPage tag op.src)))) ∧
  (∀ (s : State) (tag : Fin 64) (op : CopyOp) (g : Word),
      let t := s.tag tag
      let src := fun (k : Nat) => op.src + BitVec.ofNat 64 (t.prog + k)
      let dst := op.dst + BitVec.ofNat 64 t.prog
      let n := min (op.total - t.prog) (32 - dst.toNat % 32)
      let needs := (List.range n).map (fun k => src k &&& ~~~31#64)
      let held := fun (x : Word) => op.got.any (fun y => y.1 == x)
      let byte := fun (k : Nat) => match op.got.find? (fun y => y.1 == src k &&& ~~~31#64) with
        | some y => y.2.getD ((src k).toNat % 32) 0
        | none => 0
      let keeps := op.got.filter (fun y => decide (t.prog + n < op.total) && src n &&& ~~~31#64 == y.1)
      s.hart.resident = true → t.st = .busy → t.op = some op → op.kind = .cpy → op.rowBytes = op.total → 0 < op.total →
      op.total ≤ 2 ^ 32 →
      (t.prog < op.total → needs.find? (fun x => !held x) = some g → classOf g = .loc → offsetOf g + 32 ≤ s.myWindow →
        ∃ w, exec (.copyChunk s.loc tag) s = .next w ∧
          w.hart = s.hart.setTag tag { t with op := some { op with got := op.got ++ [(g, s.myRead (offsetOf g) 32)] } } ∧
          w = { s with hart := w.hart, parked := w.parked }) ∧
      (t.prog < op.total → (∀ x, x ∈ needs → held x = true) → classOf dst = .loc → offsetOf dst + n ≤ s.myWindow →
        s.liveRecord s.core s.hart.place.launch (offsetOf dst) n = false →
        ∃ w, exec (.copyChunk s.loc tag) s = .next w ∧
          w.hart = s.hart.setTag tag { t with prog := t.prog + n, op := some { op with first := false, part := 0, got := keeps } } ∧
          w.cores.windows = (s.myWrite (offsetOf dst) ((List.range n).map byte)).cores.windows ∧
          w.ms = s.ms ∧ w.sched = s.sched ∧ w.fns = s.fns) ∧
      (op.total ≤ t.prog → ∃ w, exec (.copyComplete s.loc tag) s = .next w ∧
        (w.tag tag).st = .done ∧ (∀ r : Fin 64, r ≠ tag → w.tag r = s.tag r) ∧ w.hart.ctl.pend = s.hart.ctl.pend ||| 1 ∧
        w.hart.regs = s.hart.regs ∧ w.hart.csr = s.hart.csr ∧
        w = { s with hart := w.hart, parked := w.parked }))

/-- R41, R53, R261: PGREQ on a free tag. Without V the tag goes to FAULT with PROTECT; on a present page it is DONE at once, and the TAG event
is set; otherwise it stays BUSY while the host brings the page in. R53, R54, R262: the tag waits over the set of tags named by `x[a]`. A
wait that is satisfied raises TAG_FAULT for the lowest-numbered tag of the set that is in FAULT, with its cause, progress and address; with
none in FAULT it completes. TCLR raises nothing and makes the tags IDLE. R51, R52, R263: the tag table of a hart with a share. STLOOK
answers the slot that holds the line and makes it the most recent way, or the victim slot of the set, the lowest invalid way or else the
least recent; STSET makes the slot hold the line, and no other way of the set, and most recent; STINV makes it invalid and least recent. No
other set changes. Without a share each raises ILLEGAL with subcode STATE, and a slot out of range or in another set one with OPERAND. -/
def Obligations.TagsAndRequests : Prop :=
  (∀ (h : Hdr) (a : Fin 32) (tag : Fin 64) (s u : State), Starts h [a] s u →
      let i := Instr.pgreq h a tag
      let p := u.x a
      let e := u.entryAt u.ctx p
      let w := u.requestPage tag p
      ((classOf p).isVirt = false → Traps i s u (trapOf .protect p)) ∧
      ((classOf p).isVirt = true → (u.tag tag).st = .busy → Waits i s u) ∧
      ((classOf p).isVirt = true → (u.tag tag).st ≠ .busy →
        Completes i s w ∧
        (entV e = false → (w.tag tag).st = .fault ∧ (w.tag tag).cause = Cause.protect.code ∧ (w.tag tag).addr = p ∧ (w.tag tag).prog = 0) ∧
        (entV e = true → entP e = true → (w.tag tag).st = .done ∧ w.hart.ctl.pend = u.hart.ctl.pend ||| 1) ∧
        (entV e = true → entP e = false → u.myFn.pr.reqs.length < 1024 → (w.tag tag).st = .busy) ∧
        (∀ r : Fin 64, r ≠ tag → w.tag r = u.tag r) ∧ w.hart.regs = u.hart.regs ∧ w.hart.csr = u.hart.csr)) ∧
  (∀ (h : Hdr) (d a : Fin 32) (s u : State), Starts h [a] s u →
      let mask := u.x a
      let is := fun (t : Fin 64) (st : TagSt) => mask.getLsbD t.val = true ∧ (u.tag t).st = st
      let allIn := ∀ t, ¬is t .busy
      let anyIn := allIn ∨ ∃ t, is t .done ∨ is t .fault
      let calm := ∀ t, ¬is t .fault
      let ti := Instr.twall h a
      let ta := Instr.twany h d a
      let tf := Instr.tffr h d a
      let least := fun (st : TagSt) (t : Fin 64) => is t st ∧ ∀ r, r < t → ¬is r st
      let faults := fun (i : Instr) => ∀ t, least .fault t →
        Traps i s u { cause := .tagFault, info := BitVec.ofNat 64 ((u.tag t).cause.toNat * 2 ^ 56 + (u.tag t).prog % 2 ^ 56),
                       info2 := (u.tag t).addr }
      (¬allIn → Waits ti s u ∧ Waits (.tclr h a) s u) ∧ (allIn → faults ti) ∧ (allIn → calm → Completes ti s u) ∧
      (¬anyIn → Waits ta s u ∧ Waits tf s u) ∧ (anyIn → faults ta ∧ faults tf) ∧
      (anyIn → calm → Completes ta s (u.setX d (u.hart.tagBits .done &&& mask))) ∧
      (anyIn → calm → (∀ t, least .done t → Completes tf s ((u.setTag t Tag.idle).setX d (BitVec.ofNat 64 t.val))) ∧
        ((∀ t, ¬is t .done) → Completes tf s (u.setX d (BitVec.allOnes 64)))) ∧
      (allIn → ∃ v, Completes (.tclr h a) s v ∧ v = u.modHart (fun g => g.modCtl (fun c => { c with tags := v.hart.ctl.tags })) ∧
        ∀ t : Fin 64, v.tag t = if mask.getLsbD t.val then Tag.idle else u.tag t)) ∧
  (∀ (h : Hdr) (d a b : Fin 32) (s u : State) (l : List TagSet) (set : TagSet) (w : Fin 4),
      let c := u.hart.csr
      let on := u.hart.ctl.share = some l ∧ ttEn c = true
      let off := u.hart.ctl.share = none ∨ ttEn c = false
      let line := fun (va : Word) => va.toNat / 2 ^ (8 + ttSlotLg c)
      let setOf := fun (va : Word) => line va % 2 ^ ttSetLg c
      (Starts h [a] s u → off →
        Traps (.stlook h d a) s u (illegal .state) ∧ Traps (.stinv h a) s u (illegal .state)) ∧
      (Starts h [a, b] s u → off → Traps (.stset h a b) s u (illegal .state)) ∧
      (Starts h [a] s u → on → l[setOf (u.x a)]? = some set →
        (set.ways[w] = some (line (u.x a)) → (∀ x, x < w → set.ways[x] ≠ some (line (u.x a))) →
          Completes (.stlook h d a) s ((u.setShare (l.set (setOf (u.x a)) { set with order := w :: set.order.filter (· != w) })).setX d
            (BitVec.ofNat 64 (4 * setOf (u.x a) + w.val)))) ∧
        ((∀ x : Fin 4, set.ways[x] ≠ some (line (u.x a))) →
          ((set.ways[w] = none ∧ ∀ x, x < w → set.ways[x] ≠ none) ∨
            ((∀ x : Fin 4, set.ways[x] ≠ none) ∧ set.order.getLast? = some w)) →
          Completes (.stlook h d a) s (u.setX d (BitVec.ofNat 64 ((4 * setOf (u.x a) + w.val) * 2 ^ 48 + (2 ^ 48 - 1)))))) ∧
      (Starts h [a, b] s u → on →
        let j := (u.x a).toNat
        let n := line (u.x b)
        (4 * l.length ≤ j ∨ j / 4 ≠ setOf (u.x b) → Traps (.stset h a b) s u (illegal .operand)) ∧
        (j < 4 * l.length → j / 4 = setOf (u.x b) → l[setOf (u.x b)]? = some set → w.val = j % 4 →
          ∃ t : TagSet, Completes (.stset h a b) s (u.setShare (l.set (setOf (u.x b)) t)) ∧
            t.ways[w] = some n ∧ t.order = w :: set.order.filter (· != w) ∧
            ∀ x : Fin 4, x ≠ w → t.ways[x] = if set.ways[x] = some n then none else set.ways[x])) ∧
      (Starts h [a] s u → on →
        let j := (u.x a).toNat
        (4 * l.length ≤ j → Traps (.stinv h a) s u (illegal .operand)) ∧
        (j < 4 * l.length → l[j / 4]? = some set → w.val = j % 4 →
          Completes (.stinv h a) s (u.setShare (l.set (j / 4)
            { ways := set.ways.set w none, order := set.order.filter (· != w) ++ [w] })))))

/-- R65, R264, R265: VRAMO and VRRED read their target once for the checks, and send the contribution of each active element at or above ustart,
in ascending order, to its stack; nothing is written yet. VRAMO works on a whole row of a row-coherent page; more bytes than the row has, an
address that is no multiple of the row and a page without row coherence are refused whichever elements are active; with RL = 1 it follows
every access and copy of its hart; the page must be writable, present and unpoisoned. That the other checks are made only where an element
is active, that MISALIGN names the row address with the lowest active index, and the order of the wait behind OPERAND are the model's choice
(log entries 8, 17 and 39). R62 to R64, R66, R116, R264: a contribution joins the pending entry of its 64-byte line, or opens one; where its
element already has a pending sum it is added to that sum, and the other sums stand. An entry is applied at once with the other entries of
its row: they leave the queue and each of their elements is written; the entries of a poisoned page are discarded, and nothing of a frozen
one changes. R116, R122: a write unit of at most 32 bytes, within one aligned group of 32, is visible at its target as a whole, and changes
nothing else there; on a page of a stack it finds the page neither frozen nor poisoned. -/
def Obligations.MergingAdds : Prop :=
  (∀ (h : Hdr) (a : Fin 32) (b : CVec) (m : Fin 8) (gran : Scope) (sc : Option (Fin 8)) (rl : Bool) (s u v : State) (p : Page)
      (c : Nat → MergeAdd), Starts h [a] s u → u.maskHeld m = false → aligned u.vt.size b.r = true →
      let f := u.vt.fmt
      let a0 := u.x a
      let sb := u.stepBits a0 f.width
      let spans := accessSpan a0 1 sb u.vl
      let i := Instr.vramo h a b m gran rl
      let e := u.entryAt u.ctx a0
      let short := (classOf a0).isVirt = true ∧ entV e = true ∧ entRC e = true ∧ 8 * entRow e < u.vl * sb
      let idle := u.vl = 0 ∨ u.cur.start ≠ 0 ∨ (classOf a0).isVirt = false ∨ entV e = false
      ((f = .f32 ∨ f = .bf16) → short → Traps i s u (illegal .operand)) ∧
      (u.interlocked spans = false →
      ((f = .f32 ∨ f = .bf16) → ¬short →
        (rl = true → u.hart.copying = true ∨ u.unperformed = true → Waits i s u) ∧
        ((rl = true → u.hart.copying = false ∧ u.unperformed = false) → v = (if rl then u.settleHart u.hart.dest else u) →
        (v.todo m = [] →
          (idle → Completes i s v) ∧ (¬idle → rowMisaligned a0 sb e = true → Traps i s v (trapOf .misalign a0)) ∧
          (¬idle → rowMisaligned a0 sb e = false → entRC e = false → Traps i s v (trapOf .format a0)) ∧
          (¬idle → rowMisaligned a0 sb e = false → entRC e = true → Completes i s v)) ∧
        (∀ i0 r, v.todo m = i0 :: r → (classOf a0).isVirt = true →
          v.translate v.ctx a0 Need.store (fun _ => false) = .ok p →
          (rowMisaligned a0 sb p.e = true → Traps i s v (trapOf .misalign a0 i0)) ∧
          (rowMisaligned a0 sb p.e = false → (v.pmeta p.frame).state = 3 → Traps i s v (trapOf .integrity (eltAddr a0 1 sb i0).1 i0)) ∧
          (entRC p.e = false → rowMisaligned a0 sb p.e = false → (v.pmeta p.frame).state ≠ 3 →
            Traps i s v (trapOf .format (eltAddr a0 1 sb i0).1 i0)) ∧
          (entRC p.e = true → rowMisaligned a0 sb p.e = false → (v.pmeta p.frame).state ≠ 3 →
            Completes i s ((v.noteSpans spans).sendAll ((v.todo m).map (fun i => ⟨p.frame, p.off + i * (sb / 8), 0, entRow p.e,
              mergeKind (entFMT p.e) f, v.contribution b.r none i, some v.hart.dest, true⟩))))))) ∧
      (f ≠ .q4 → (∀ i ∈ u.todo m, u.reduceElt b.r (eltAddr a0 1 sb i).1 (eltAddr a0 1 sb i).2 sb sc i = .ok (c i)) →
        Completes (.vrred h a b m sc) s ((u.noteSpans spans).sendAll ((u.todo m).map c))))) ∧
  (∀ (s : State) (c : MergeAdd) (e : WqEntry) (n w : Nat),
      let t := s.mergeArrive c
      let at' := fun (q : WqEntry) => q.frame == c.frame && q.line == c.off / 64
      let sumOf := fun (q : WqEntry) (k : Nat × Nat × MergeKind) =>
        (q.slots.find? (fun x => (x.off, x.nib, x.kind) == k)).map WqSlot.acc
      let key := (c.off, c.nib, c.kind)
      let joined := fun (q : WqEntry) => e = q ∨ (e.frame = q.frame ∧ e.row ≠ 0 ∧ e.row = q.row ∧ e.line * 64 / e.row = q.line * 64 / q.row)
      (c.off < 65536 → (s.pmeta c.frame).state ≤ 1 → exec (.mergingAddArrival c) s = .next t) ∧
      (t = s.modMs (fun ms => { ms with wq := t.ms.wq })) ∧
      (s.ms.wq.find? at' = none →
        t.ms.wq = s.ms.wq ++ [⟨c.frame, c.off / 64, c.row, [⟨c.off, c.nib, c.kind, c.val⟩], c.who.toList, if c.vramo then [c.who] else []⟩]) ∧
      (s.ms.wq.find? at' = some e → ∃ g, t.ms.wq.find? at' = some g ∧ t.ms.wq.length = s.ms.wq.length ∧
        g.row = e.row ∧ (∀ l, c.who = some l → l ∈ g.who) ∧ (∀ l ∈ e.who, l ∈ g.who) ∧
        (c.vramo = true → c.who ∈ g.rowAdds) ∧ (∀ l ∈ e.rowAdds, l ∈ g.rowAdds) ∧
        (∀ k, k ≠ key → sumOf g k = sumOf e k) ∧
        sumOf g key = some (match sumOf e key with
          | none => c.val
          | some x => mergeSum c.kind x c.val)) ∧
      (s.ms.wq[n]? = some e → ∃ t, exec (.writeQueueApply n) s = .next t ∧ s.memOnly t ∧
        (∀ q, q ∈ t.ms.wq ↔ q ∈ s.ms.wq ∧ ¬joined q) ∧
        (2 ≤ (s.pmeta e.frame).state → (s.pmeta e.frame).state ≤ 3 → t.ms.mem = s.ms.mem) ∧
        (∀ x : WqSlot, (s.pmeta e.frame).state ≤ 1 → s.canonical → s.ms.wq.filter (fun q => decide (joined q)) = [e] →
          e.slots = [⟨x.off, 0, .int w, x.acc⟩] → w % 8 = 0 → x.off + w / 8 ≤ 65536 →
          t.rawNat e.frame x.off (w / 8) = (s.rawNat e.frame x.off (w / 8) + x.acc.toNat) % 2 ^ w))) ∧
  (∀ (s : State) (core launch off : Nat) (bs : List Byte) (c l a : Nat), s.canonical →
      0 < bs.length → off % 32 + bs.length ≤ 32 →
      (off + bs.length ≤ s.windowSize core launch →
        ∃ t, exec (.writeUnitPerform (.pad core launch off bs)) s = .next t ∧ t.padRead core launch off bs.length = bs ∧
          ((c, l) ≠ (core, launch) ∨ a < off ∨ off + bs.length ≤ a → t.padRead c l a 1 = s.padRead c l a 1)) ∧
      (off + bs.length ≤ 65536 → (s.pmeta core).state ≤ 1 →
        exec (.writeUnitPerform (.stack core off bs)) s =
          .next (((s.settle core off bs.length).rawWrite core off bs).touch core)))

/-- R59 to R61, R128, R266 to R268: MQPUSH to a hart that its launch does not have, with more than 256 bytes, or whose destination has retired
while it waited, raises QUEUE; at a place where a hart of the launch was pre-empted it names the resident one (log entry 37); it is a
release and waits for every earlier access. With a credit, and a ring entry that no live plan record covers, it spends the credit and sends
the first bytes of its group, which stand at once in a queue of its own core (the model's choice, log entry 37); without a credit it waits,
and its own request is held at the target. MQPOP takes the message at the head of the queue, its bytes followed by zeros, raises QUEUE
without a queue and waits while the queue is empty or a copy holds the bytes. MQCRED reads the count. R59, R60: a message on its way, the
first of its sender to that hart, arrives: its bytes lie in the next entry of the target's ring, the target's queue is one longer, the
promise is kept and its MSG event is set. A hart with free entries grants the first request that it holds at most four credits, which its
free count loses. -/
def Obligations.Messages : Prop :=
  (∀ (h : Hdr) (d a : Fin 32) (b : CVec) (vd : Fin 64) (s u v w : State) (g : Hart) (n len : Nat) (from' : HartLoc)
      (msgs : List (Nat × HartLoc)),
      (Starts h [a] s u →
        let x := u.x a
        let there := u.harts.filter (fun q => q.place.launch == u.hart.place.launch && q.place.loc == x.setWidth 12)
        let dst := g.dest
        let bytes := (u.vl * u.vt.fmt.width + 7) / 8
        let i := Instr.mqpush h a b
        let named := there.find? Hart.resident = some g ∨ (∀ q ∈ there, q.resident = false) ∧ there.head? = some g
        let asked := (g.place.crew, g.place.rank)
        (aligned u.vt.size b.r = true →
          (4096 ≤ x.toNat ∨ 256 < bytes ∨ there = [] → Traps i s u (trapOf .queue x)) ∧
          (x.toNat < 4096 → bytes ≤ 256 → named →
            (∀ p, u.hart.ctl.pushTo = some p → p ≠ asked → Traps i s u (trapOf .queue x)) ∧
            ((∀ p, u.hart.ctl.pushTo = some p → p = asked) →
              (u.hart.copying = true ∨ u.unperformed = true → Waits i s u) ∧
              (u.hart.copying = false → u.unperformed = false → v = u.settleHart u.hart.dest →
                (v.creditOf v.core dst = some (n + 1) → v.ringGuarded (x.setWidth 12) = true →
                  Traps i s v (trapOf .protect (v.entryAddr (x.setWidth 12)))) ∧
                (v.creditOf v.core dst = some (n + 1) → v.ringGuarded (x.setWidth 12) = false →
                  let msg : Message := ⟨v.loc, (List.range bytes).map (fun j => BitVec.ofNat 8 (v.elt b.r 8 j))⟩
                  ∃ w, w.creditOf w.core dst = some n ∧ w.cores.net = v.cores.net ++ [(dst, msg)] ∧
                    w = (v.modCores (fun c => { c with credits := w.cores.credits, net := w.cores.net })).modCtl
                      (fun c => { c with pushTo := none }) ∧
                    (coreOf dst.loc ≠ v.core → Completes i s w) ∧
                    (coreOf dst.loc = v.core → ∀ z, exec (.messageDelivery dst.loc msg) w = .next z → Completes i s z)) ∧
                (v.creditOf v.core dst = none ∨ v.creditOf v.core dst = some 0 →
                  (v.makeCredit v.core dst = none → Waits i s v) ∧
                  (v.makeCredit v.core dst = some w → Waits i s (w.requestCredit g))))))) ∧
        (4096 ≤ x.toNat ∨ there = [] → Completes (.mqcred h d a) s (u.setX d 0)) ∧
        (x.toNat < 4096 → named → Completes (.mqcred h d a) s (u.setX d (BitVec.ofNat 64 ((u.creditOf u.core dst).getD 0))))) ∧
      (s.harts.find? (fun q => q.dest == g.dest) = some g →
        let r := s.requestCredit g
        (s.hart.ctl.pushTo = none ∨ s.loc ∉ g.ctl.mq.held → r.hart.ctl.pushTo = some (g.place.crew, g.place.rank) ∧
          ∃ q ∈ r.harts, q.dest = g.dest ∧ q.ctl.mq.held = g.ctl.mq.held ++ [s.loc]) ∧
        (s.hart.ctl.pushTo ≠ none → s.loc ∈ g.ctl.mq.held → r = s)) ∧
      (Starts h [] s u → aligned u.vt.size vd = true →
        let i := Instr.mqpop h vd
        let c := u.hart.csr
        let q := u.hart.ctl.mq
        let at' := c.mqBase + 256 * q.head
        (c.mqEntries = 0 → Traps i s u (trapOf .queue (u.loc.setWidth 64))) ∧
        (c.mqEntries ≠ 0 → q.msgs = [] → Waits i s u) ∧
        (c.mqEntries ≠ 0 → q.msgs = (len, from') :: msgs → u.interlocked [(locAddr at', len)] = true → Waits i s u) ∧
        (c.mqEntries ≠ 0 → q.msgs = (len, from') :: msgs → u.interlocked [(locAddr at', len)] = false → u.vecOk →
          let bs := u.myRead at' len
          let taken := u.modCtl (fun t => { t with mq := { q with head := (q.head + 1) % c.mqEntries, msgs := msgs } })
          ∃ t, Completes i s t ∧
            WroteElts taken vd u.vt.size 8 (fun j => decide (j < 256)) (fun j => (bs.getD j 0).toNat) t))) ∧
  (∀ (s : State) (g : Hart) (msg : Message) (asker : HartLoc) (held : List HartLoc),
      s.hart = g → g.live = true →
      (s.cores.net.find? (fun m => m.1.loc == g.place.loc && m.2 == msg) = some (g.dest, msg) →
        s.cores.net.find? (fun x => x.1 == g.dest && x.2.sender == msg.sender) = some (g.dest, msg) →
        ∃ t, exec (.messageDelivery g.place.loc msg) s = .next t ∧ t.cores.net = s.cores.net.erase (g.dest, msg) ∧
          t.hart.ctl.mq = { g.ctl.mq with
            msgs := g.ctl.mq.msgs ++ [(msg.bytes.length, msg.sender)], promised := g.ctl.mq.promised - 1 } ∧
          t.hart.ctl.pend = g.ctl.pend ||| 2 ∧ t.hart.regs = g.regs ∧ t.hart.csr = g.csr ∧ t.ms = s.ms ∧
          t.cores.windows = (s.padWrite (coreOf g.place.loc) g.place.launch
            (g.csr.mqBase + 256 * ((g.ctl.mq.head + g.ctl.mq.msgs.length) % max g.csr.mqEntries 1)) msg.bytes).cores.windows) ∧
      (g.ctl.mq.held = asker :: held → g.freeEntries ≠ 0 →
        ∃ t, exec (.creditGrant g.place.loc) s = .next t ∧
          t.hart.ctl.mq = { g.ctl.mq with held := held, promised := g.ctl.mq.promised + min g.freeEntries 4 } ∧
          t.creditOf (coreOf asker) g.dest = (s.creditOf (coreOf asker) g.dest).map (· + min g.freeEntries 4) ∧
          t.ms = s.ms ∧ t.hart.regs = g.regs ∧ t.hart.csr = g.csr))

/-- R269, R270: one evaluation of GCSLEEP. Where its condition holds (no element is active; with ANY an element's word equals the expected
value; with ALL every active one does) it completes with the satisfied elements as bits of `k[d]`, and waits otherwise; an element whose
read faults raises its trap. A waiting GCSLEEP of the hart that has the turn evaluates again as if it were issued. `v` is the state after
the reads, `sat` the satisfied elements. R269: the evaluation reads the words of the active elements in ascending order through the byte
view; with no merging add pending and every word in the hart's reach, the satisfied elements are those whose word equals the expected value. -/
def Obligations.SleepOnMemory : Prop :=
  (∀ (h : Hdr) (d : Fin 8) (a b : CVec) (m : Fin 8) (sc : Scope) (aq allm : Bool) (s u v : State) (sat : List Nat) (c : Cause)
      (n : Nat) (x : Word) (r : SleepRec),
      let i := Instr.gcsleep h d a b m sc aq allm
      let act := (List.range u.vl).filter (u.active m)
      let spans := act.map (fun i => (BitVec.ofNat 64 (u.elt a.r 64 i), 8))
      (Starts h [] s u → u.maskHeld m = false → u.maskHeld d = false →
        (64 < u.vl → Traps i s u (illegal .operand)) ∧
        (u.vl ≤ 64 → (u.vt.fmt = .i64 ∨ u.vt.fmt = .n64) → aligned u.vt.size a.r = true → aligned u.vt.size b.r = true →
          u.interlocked spans = false →
          (sleepWalk a.r b.r act u [] = (sat, v, none) →
            (act = [] ∨ (allm = false ∧ sat ≠ []) ∨ (allm = true ∧ sat.length = act.length) →
              ∃ t, Completes i s t ∧ WroteBits (v.setSleep none) d (fun j => decide (j < u.vl)) sat.contains t) ∧
            (act ≠ [] → (allm = false ∧ sat = []) ∨ (allm = true ∧ sat.length ≠ act.length) →
              Waits i s (v.setSleep (some ⟨h, d, a, b, m, sc, aq, allm⟩)).pinDone)) ∧
          (sleepWalk a.r b.r act u [] = (sat, v, some (c, n, x)) → Traps i s (v.setSleep none) (trapOf c x n)))) ∧
      (s.hart.resident = true → s.hart.ctl.sleep = some r → s.hart.ctl.phase = .waiting → guardOn r.h s = true →
        exec (.gcsleepReevaluation s.loc) s = exec (.gcsleep r.h r.d r.a r.b r.m r.sc r.aq r.allm) s)) ∧
  (∀ (a b : Fin 64) (is : List Nat) (s : State),
      s.ms.wq = [] → (∀ i ∈ is, (classOf (BitVec.ofNat 64 (s.elt a 64 i))).isVirt = true ∧
        ∃ bs t, s.scalarRead (BitVec.ofNat 64 (s.elt a 64 i)) 8 = .ok (bs, t)) →
      sleepWalk a b is s [] = (is.filter (fun i =>
        match s.scalarRead (BitVec.ofNat 64 (s.elt a 64 i)) 8 with
        | .ok (bs, _) => leNat bs == s.elt b 64 i
        | .error _ => false), s, none))

/-- R276: what a build makes of the positions. DIST is strictly ascending and holds exactly the accepted indices; SLOT names each position's
index in it, or 0xFFFF; ORDER lists the accepted positions by slot and then by position; GSTART[g] counts the accepted positions of the
slots below g; the flags DUP, REJ, SENTLEGAL, SORTED and SENTEN are as R276 forms them. A position is accepted unless it is the enabled
sentinel or not below BOUND. R273 to R278: PLAN over a group and PLANM over a list in memory read their parameter block, raise ILLEGAL with
subcode OPERAND where a field of it is out of range, and otherwise place the record of the build in the arena, at the lowest multiple of 64
where it fits, under the handle, whose former plan is freed; without room they raise PLAN_CAP, and while a copy holds the place they wait.
`bs` is the block and `v` the state after its read; `w` the state after the list was read. R274, R282, R283, R292 to R296: the handle
instructions. PLINFO, PLCHK and PLSAVE of an empty handle raise ILLEGAL with subcode STATE. PLINFO writes the field that SEL selects; PLCHK
marks a plan whose sources have changed and writes 1 or 0; PLSAVE writes the record's bytes to memory; PLLOAD of an image that breaks a rule
leaves its handle empty and raises ILLEGAL with subcode PLAN_IMAGE, and of another places the record, its runs formed anew; PLFREE empties
its handle; PLCOMP places the composition of two plans, and raises STALE_PLAN where one is stale as it issues (log entry 16). They wait
while a copy holds bytes of the record (R55). That PLSAVE keeps nothing of an image whose write faults is the model's choice (log entry 16).
R292, R293: the value that each SEL of PLINFO selects, and none for any other; the composition of two plans has the second's positions, and
position i of it stands for what the first plan has at the position that the second's index names, unless one of the two rejects it. -/
def Obligations.PlanLifecycle : Prop :=
  (∀ (k : PlanKey) (ctx : BitVec 16) (idx : List Nat), idx.length < 0xFFFF →
      let p := k.build ctx (k.classify idx)
      let ok := fun (x : Nat) => x < k.bound ∧ ¬(k.senten = true ∧ x = k.sent)
      let acc := idx.filter (fun x => decide (ok x))
      p.key = k ∧ p.n = idx.length ∧
      p.dist.Pairwise (· < ·) ∧ (∀ x, x ∈ p.dist ↔ x ∈ idx ∧ ok x) ∧
      (∀ (i x : Nat), idx[i]? = some x →
        (ok x → ∃ d, p.slot[i]? = some d ∧ p.dist[d]? = some x) ∧ (¬ok x → p.slot[i]? = some 0xFFFF)) ∧
      (∀ i, i ∈ p.order ↔ i < p.n ∧ p.slot.getD i 0xFFFF ≠ 0xFFFF) ∧
      p.order.Pairwise (fun i j => p.slot.getD i 0 < p.slot.getD j 0 ∨ (p.slot.getD i 0 = p.slot.getD j 0 ∧ i < j)) ∧
      p.gstart.length = p.d + 1 ∧
      (∀ g, g ≤ p.d → p.gstart[g]? = some (p.order.countP (fun i => decide (p.slot.getD i 0 < g)))) ∧
      (p.flags.testBit 0 = true ↔ ¬acc.Nodup) ∧ (p.flags.testBit 1 = true ↔ ∃ x ∈ idx, ¬ok x) ∧
      (p.flags.testBit 2 = true ↔ k.senten = true ∧ k.sent < k.bound) ∧ (p.flags.testBit 3 = true ↔ acc.Pairwise (· ≤ ·)) ∧
      p.flags.testBit 4 = false ∧ p.flags.testBit 5 = false ∧ (p.flags.testBit 6 = k.senten)) ∧
  (∀ (h : Hdr) (d : Fin 16) (ra : CVec) (a b : Fin 32) (fk : Fin 8) (s u v w : State) (bs : List Byte) (idx : List Nat),
      let pb := u.x b
      let num := fun (off n : Nat) => leNat ((bs.drop off).take n)
      let own := (num 8 8) / 2 ^ 32 % 2 = 1
      let en := own ∨ v.hart.csr.psent.getLsbD 32 = true
      let valid := num 8 8 / 2 ^ 33 % 2 ^ 31 = 0 ∧ (∃ e, e < 12 ∧ num 24 4 = 2 ^ e) ∧ num 16 8 % num 24 4 = 0 ∧ num 28 4 < 2
      let key : PlanKey := ⟨num 0 8, if own then num 8 4 else v.hart.csr.psent.toNat % 2 ^ 32, decide en,
        BitVec.ofNat 64 (num 16 8), num 24 4⟩
      let places := fun (i : Instr) (w : State) (r : PlanRec) (watch : Option (Word × Nat)) (k : Fin 8) =>
        let f := w.setPl d none
        (∀ o, f.arenaPlace r.size = some o → w.interlocked [(locAddr o, r.size)] = true → Waits i s w) ∧
        ((∀ o, f.arenaPlace r.size = some o → w.interlocked [(locAddr o, r.size)] = false) →
        (f.hart.regs.pl.toList.countP (fun p => (p.bind PlanRef.watch).isSome) < 16 ∨ watch = none →
          (∀ o, f.arenaPlace r.size = some o → f.canonical → (f.window f.core f.hart.place.launch).isSome = true →
            ∃ t, Completes i s t ∧ t.hart.regs.pl[d] = some ⟨o, r.size, watch⟩ ∧ t.myRead o r.size = r.bytes ∧
              t.ms = f.ms ∧ t.hart.csr = f.hart.csr ∧ t.hart.ctl = f.hart.ctl ∧ t.hart.regs.x = f.hart.regs.x ∧
              t.hart.regs.v = f.hart.regs.v ∧ (k = 0 → t.hart.regs.k = f.hart.regs.k) ∧
              (k ≠ 0 → ∀ j, j < 196608 → t.kbit k j = if j < r.n then r.slot.getD j rejected != rejected else f.kbit k j) ∧
              (∀ e : Fin 16, e ≠ d → t.hart.regs.pl[e] = f.hart.regs.pl[e])) ∧
          (f.arenaPlace r.size = none → Traps i s f (trapOf .planCap (BitVec.ofNat 64 d.val)))) ∧
        (16 ≤ f.hart.regs.pl.toList.countP (fun p => (p.bind PlanRef.watch).isSome) → watch ≠ none →
          Traps i s f (trapOf .planCap (BitVec.ofNat 64 d.val))))
      let block := (u.vt.fmt = .i32 ∨ u.vt.fmt = .n32) ∧ u.interlocked [(pb, 32)] = false ∧ u.blockStarts pb = true ∧ pb.toNat % 8 = 0 ∧
        u.blockRead pb 4 = .ok (bs, v)
      let i := Instr.plan h d ra b fk
      let j := Instr.planm h d a b
      (Starts h [b] s u → block → aligned u.vt.size ra.r = true → u.maskHeld fk = false →
        (¬valid → Traps i s v (illegal .operand)) ∧
        (valid → places i v (key.build v.ctx (key.classify ((List.range v.vl).map (v.elt ra.r 32)))) none fk)) ∧
      (Starts h [a, b] s u → block →
        let src := u.x a
        (¬valid → Traps j s v (illegal .operand)) ∧
        (valid → (classOf src).isVirt = false → Traps j s v (trapOf .protect src)) ∧
        (valid → (classOf src).isVirt = true → src.toNat % 4 ≠ 0 → Traps j s v (trapOf .misalign src)) ∧
        (valid → (classOf src).isVirt = true → src.toNat % 4 = 0 → v.interlocked [(src, 4 * u.vl)] = false →
          readIndices u.vl src v = .ok (idx, w) →
          let p := key.build w.ctx (key.classify idx)
          let watched := num 28 4 = 0 ∧ u.vl ≠ 0
          places j w { p with flags := p.flags + (if watched then 16 else 0), srcva := src.toNat, wgens := w.sourceWgens src (4 * u.vl) }
            (if watched then some (src, 4 * u.vl) else none) 0))) ∧
  (∀ (h : Hdr) (d a : Fin 32) (n k m : Fin 16) (sel : BitVec 8) (s u v w : State) (r q : PlanRef) (bs hd : List Byte) (o : Nat),
      (Starts h [] s u → u.hart.regs.pl[n] = none →
        Traps (.plinfo h d n sel) s u (illegal .state) ∧ Traps (.plchk h d n) s u (illegal .state) ∧
        Traps (.plcomp h k n m) s u (illegal .state) ∧ Completes (.plfree h n) s u) ∧
      (Starts h [a] s u → u.hart.regs.pl[n] = none → Traps (.plsave h a n) s u (illegal .state)) ∧
      (Starts h [] s u → u.hart.regs.pl[n] = some r → u.interlocked [(locAddr r.off, r.size)] = true →
        Waits (.plinfo h d n sel) s u ∧ Waits (.plchk h d n) s u ∧ Waits (.plcomp h k n m) s u) ∧
      (Starts h [] s u → u.hart.regs.pl[n] = some r → u.interlocked [(locAddr r.off, r.size)] = false →
        let p := u.planAt r
        let tests := u.cur.start = 0 ∧ u.cur.tested = false ∧ u.hart.ctl.scat = none
        Completes (.plfree h n) s (u.modRegs (fun g => { g with pl := g.pl.set n none })) ∧
        (∀ x, planInfo p r.off r.size sel.toNat = some x → Completes (.plinfo h d n sel) s (u.setX d (BitVec.ofNat 64 x))) ∧
        (planInfo p r.off r.size sel.toNat = none → Traps (.plinfo h d n sel) s u (illegal .operand)) ∧
        (u.changed p = false → Completes (.plchk h d n) s (u.setX d (if p.stale then 0 else 1))) ∧
        (u.changed p = true → u.canonical → (u.window u.core u.hart.place.launch).isSome = true → 4 ≤ r.size →
          ∃ t : State, Completes (.plchk h d n) s (t.setX d 0) ∧ t.hart = u.hart ∧ t.ms = u.ms ∧
            (t.myRead (r.off + 3) 1).map (fun b => b.getLsbD 5) = [true]) ∧
        (p.stale = true → tests → Traps (.plcomp h k n m) s u (trapOf .stalePlan (BitVec.ofNat 64 n.val))) ∧
        (u.hart.regs.pl[m] = none → p.stale = false ∨ ¬tests → Traps (.plcomp h k n m) s u (illegal .state)) ∧
        (u.hart.regs.pl[m] = some q → p.stale = false ∨ ¬tests → (u.planAt q).stale = true → tests →
          u.interlocked [(locAddr q.off, q.size)] = false →
          Traps (.plcomp h k n m) s u (trapOf .stalePlan (BitVec.ofNat 64 m.val))) ∧
        (u.hart.regs.pl[m] = some q → p.stale = false ∨ ¬tests → (u.planAt q).stale = false ∨ ¬tests →
          u.interlocked [(locAddr q.off, q.size)] = false →
          let c := p.key.build u.ctx (composed p (u.planAt q))
          (p.n < (u.planAt q).key.bound → Traps (.plcomp h k n m) s u (illegal .operand)) ∧
          ((u.planAt q).key.bound ≤ p.n → (u.setPl k none).arenaPlace c.size = some o →
            u.interlocked [(locAddr o, c.size)] = false →
            Completes (.plcomp h k n m) s (((u.setPl k none).myWrite o c.bytes).setPl k (some ⟨o, c.size, none⟩))))) ∧
      (Starts h [a] s u → u.hart.regs.pl[n] = some r →
        let p := u.x a
        u.interlocked [(locAddr r.off, r.size)] = false → u.interlocked [(p, r.size)] = false → u.blockStarts p = true →
        (p.toNat % 8 ≠ 0 → Traps (.plsave h a n) s u (trapOf .misalign p)) ∧
        (p.toNat % 8 = 0 → saveImage (p.toNat % 32 == 0 && r.size % 32 == 0) (r.size / 8 + 1) p (u.myRead r.off r.size)
          (u.noteStore (p, r.size)) = .ok v → Completes (.plsave h a n) s v)) ∧
      (Starts h [a] s u →
        let p := u.x a
        u.interlocked [(p, 64)] = false → u.blockStarts p = true → p.toNat % 8 = 0 → u.blockRead p 8 = .ok (hd, v) →
        (headerOk hd = false → Traps (.plload h n a) s (v.setPl n none) (illegal .planImage)) ∧
        (headerOk hd = true → v.interlocked [(p, leNat ((hd.drop 60).take 4))] = false →
          v.blockRead p (leNat ((hd.drop 60).take 4) / 8) = .ok (bs, w) →
          (imageOk bs = false → Traps (.plload h n a) s (w.setPl n none) (illegal .planImage)) ∧
          (imageOk bs = true →
            let q := { readRec bs with runs := planRuns w.ctx (readRec bs).key (readRec bs).dist }
            (q.flags.testBit 4 = false ∨ q.stale = true) → (w.setPl n none).arenaPlace q.size = some o →
            w.interlocked [(locAddr o, q.size)] = false →
            Completes (.plload h n a) s (((w.setPl n none).myWrite o q.bytes).setPl n (some ⟨o, q.size, none⟩)))))) ∧
  (∀ (p q : PlanRec) (off size i x : Nat),
      let at' := fun (sel v : Nat) => planInfo p off size sel = some v
      (at' 0 p.n ∧ at' 1 p.d ∧ at' 2 p.flags ∧ at' 3 p.key.bound ∧ at' 4 p.key.base.toNat ∧ at' 5 p.key.gran ∧
        at' 6 (p.key.sent + if p.key.senten then 2 ^ 32 else 0) ∧ at' 7 size ∧ at' 8 off ∧ at' 9 p.runs.length ∧ at' 10 p.order.length) ∧
      (∀ k, k < 12 → at' (16 + k) (p.runs.countP (fun r => decide (r.stack = k)))) ∧
      (∀ sel, 10 < sel → sel < 16 ∨ 28 ≤ sel → planInfo p off size sel = none) ∧
      (composed p q).length = q.n ∧
      ((∀ d ∈ q.slot, d = rejected ∨ d < q.d) → (∀ d ∈ p.slot, d = rejected ∨ d < p.d) → (∀ b ∈ q.dist, b < p.n) →
        ((composed p q)[i]? = some (some x) ↔ ∃ (d : Nat) (b : Nat) (e : Nat), q.slot[i]? = some d ∧ d ≠ rejected ∧ q.dist[d]? = some b ∧
          p.slot[b]? = some e ∧ e ≠ rejected ∧ p.dist[e]? = some x)))

/-- R279, R280, R282, R295: the record of a plan that a build places, read back from its bytes, is the plan, and passes the checks that PLLOAD
makes of an image. So does that of a PLANM, with the address of its list, the WGEN words of at most five source frames and WATCHED, and each
of these when it has become stale. -/
def Obligations.PlanImage : Prop :=
  ∀ (k : PlanKey) (ctx : BitVec 16) (idx : List Nat) (srcva : Nat) (wgens : List (BitVec 32)) (watched stale : Bool),
    idx.length ≤ 24576 → srcva < 2 ^ 56 → wgens.length ≤ 5 → (∀ x ∈ idx, x < 2 ^ 32) → k.bound < 2 ^ 64 →
    k.sent < 2 ^ 32 → (k.senten = false → k.sent = 0) → granOk k.gran = true → k.base.toNat % k.gran = 0 →
    let b := k.build ctx (k.classify idx)
    let p := { b with flags := b.flags + (if watched then 16 else 0) + (if stale then 32 else 0), srcva := srcva, wgens := wgens }
    p.stale = stale ∧ p.flags.testBit 4 = watched ∧ p.bytes.length = p.size ∧ readRec p.bytes = p ∧ headerOk (p.bytes.take 64) = true ∧ imageOk p.bytes = true

/-- R287, R290, R291: the register applies. PLGATV puts into element i the element of `a` that the index of i's position names, or 0 where the
position is rejected; PLBCAST the element of its slot; PLRED combines the active elements of each slot's positions in ascending order, by
sums rounded to nearest-even or by minima or maxima, a NaN as the canonical one (R74), and leaves the elements of a slot without one. A plan
that is stale as the instruction issues raises STALE_PLAN (log entry 16). R283 to R286, R288, R289: the memory applies, from base `x[a]` at
the first position `x[b]`. A plan that is stale as the apply issues, after the check by CHK, raises STALE_PLAN, and a geometry that R284
excludes or positions beyond the plan's raise ILLEGAL with subcode OPERAND. PLGAT fetches the active elements whose position is accepted,
and zeros for the others; one that an earlier element has fetched before, in a former turn of the lanes, is delivered again. PLCPY hands a
copy of granules to its tag, after the checks of its two spans. PLSCAT checks every target and reads those below the first that fails, or
all; at its next turn, with what it read, it checks again and writes the combined values; merging adds are sent at once (the two turns are
the model's choice, log entry 8, and when the plan is tested is log entry 16). `g` is the geometry of R284. R98, R288, R289: one combining
step adds with one rounding to nearest-even, or takes the minimum or maximum, integers wrapping or in their sign; first and last keep the
first or the last value; a single value is combined with nothing (the model's choice, log entry 16). PLSCAT checks the targets of the active
elements in ascending order and goes up to the first that fails; each target then takes its combined value, with what was read of it, in one
rounding, and on a RAW page nothing beside its bytes changes. The reads are made in the order of the targets. -/
def Obligations.PlanApplies : Prop :=
  (∀ (h : Hdr) (d : Fin 64) (a : CVec) (m : Fin 8) (n : Fin 16) (s u : State) (r : PlanRef),
      Starts h [] s u → u.maskHeld m = false → aligned u.vt.size d = true → aligned u.vt.size a.r = true →
      u.vecOk → u.hart.regs.pl[n] = some r → u.interlocked [(locAddr r.off, r.size)] = false →
      let p := u.planAt r
      let f := u.vt.fmt
      let w := f.width
      let per := 8 * p.key.gran / w
      let whole := 8 * p.key.gran % w = 0 ∧ 1 ≤ per
      let apart := groupsMeet d u.vt.size a.r u.vt.size = false
      let x := fun (i : Nat) => u.elt a.r w i
      let slot := fun (i : Nat) => p.slot.getD (i / per) rejected
      let writes := fun (i : Instr) (g : Nat → Bool) (f : Nat → Nat) => ∃ t, Completes i s t ∧ WroteElts u d u.vt.size w g f t
      let lim := whole ∧ u.vl = p.n * per ∧ p.d * per ≤ u.vlmax u.vt
      let tests := u.cur.start = 0 ∧ u.cur.tested = false ∧ u.hart.ctl.scat = none
      let sole := fun (x : Nat) => match f.spec with
        | some sp => if (sp.decode x).isNan then sp.nanBits else x
        | none => x
      let reds := fun (i : Instr) (c : Comb) =>
        let vs := fun (e : Nat) => (p.order.filter (fun q => p.slot.getD q rejected == e / per && u.active m (q * per + e % per))).map
          (fun q => x (q * per + e % per))
        apart → f ≠ .q4 → lim → writes i (fun e => decide (e < p.d * per) && !(vs e).isEmpty)
          (fun e => ((vs e).drop 1).foldl (c.step f) (sole ((vs e).headD 0)))
      (p.stale = true → tests → Traps (.plbcast h d a n) s u (trapOf .stalePlan (BitVec.ofNat 64 n.val)) ∧
        (apart → Traps (.plgatv h d a m n) s u (trapOf .stalePlan (BitVec.ofNat 64 n.val)) ∧
          Traps (.plredAdd h d a m n) s u (trapOf .stalePlan (BitVec.ofNat 64 n.val)))) ∧
      (p.stale = false ∨ ¬tests →
        (apart → whole → p.key.bound * per ≤ u.vlmax u.vt → u.vl ≤ p.n * per →
          writes (.plgatv h d a m n) (fun i => u.active m i)
            (fun i => if slot i = rejected then 0 else x (p.dist.getD (slot i) 0 * per + i % per))) ∧
        (lim → writes (.plbcast h d a n) (fun i => decide (i < u.vl)) (fun i => if slot i = rejected then 0 else x (slot i * per + i % per))) ∧
        reds (.plredAdd h d a m n) .add ∧ reds (.plredMin h d a m n) .min ∧ reds (.plredMax h d a m n) .max)) ∧
  (∀ (h : Hdr) (d : Fin 64) (xd a b : Fin 32) (vb : CVec) (m fk : Fin 8) (n : Fin 16) (chk : Bool) (tag : Fin 64) (s u : State)
      (r : PlanRef) (g : Geo),
      let tests := u.cur.start == 0 && !u.cur.tested && u.hart.ctl.scat.isNone
      let v := if chk && tests then u.checkPlan r else u
      let p := v.planAt r
      let fresh := p.stale = false ∨ tests = false
      let applies := fun (i : Instr) (rs : List (Fin 32)) (xa xq : Word) (ok : Bool) (k : State → Prop) =>
        Starts h rs s u → (u.hart.regs.pl[n] = none → Traps i s u (illegal .state)) ∧ (u.hart.regs.pl[n] = some r →
        (u.interlocked [(locAddr r.off, r.size)] = true → Waits i s u) ∧
        (u.interlocked [(locAddr r.off, r.size)] = false →
        (p.stale = true → tests = true → Traps i s v (trapOf .stalePlan (BitVec.ofNat 64 n.val))) ∧
        (fresh → ok = false → Traps i s v (illegal .operand)) ∧
        (fresh → ok = true → planGeo v p xa xq.toNat = none → Traps i s v (illegal .operand)) ∧
        (fresh → ok = true → planGeo v p xa xq.toNat = some g →
          (g.covers p v.vl = false → Traps i s v (illegal .operand)) ∧
          (g.covers p v.vl = true → v.interlocked (planSpan p xa) = true → Waits i s v) ∧
          (g.covers p v.vl = true → v.interlocked (planSpan p xa) = false → k (v.rebin p xa)))))
      let scat := fun (i : Instr) (mode : Scat) =>
        u.maskHeld m = false → aligned u.vt.size vb.r = true →
        applies i [a, xd] (u.x a) (u.x xd) (u.vt.fmt != .q4 || mode == .first || mode == .last) (fun z =>
          let ts := scatWalk z p g mode (z.todo m)
          let gs := scatGroups ts.1
          let done := z.scatAll z mode g.sb vb.r gs
          let reads := u.scatReads g.sb (gs.map Prod.fst)
          let now := mode = .amoadd ∨ gs = [] ∨ u.hart.ctl.scat ≠ none
          (¬now → Waits i s (reads.1.modCtl (fun c => { c with scat := some reads.2 }))) ∧
          (now → (ts.2 = none → Completes i s done) ∧ (∀ c e x, ts.2 = some (c, e, x) → Traps i s done (trapOf c x e))))
      (u.maskHeld m = false → u.maskHeld fk = false → aligned u.vt.size d = true →
        applies (.plgat h d a b m fk n chk) [a, b] (u.x a) (u.x b) true (fun z =>
          let i := Instr.plgat h d a b m fk n chk
          let f := u.vt.fmt
          let todo := u.todo m
          let at' := fun (e k : Nat) => g.addr p e (todo.getD k 0)
          let before := fun (e : Nat) => (List.range u.cur.start).find? (fun j =>
            u.active m j && g.slot p j == g.slot p e && j % g.r == e % g.r)
          let again := fun (j : Nat) => if fk ≠ 0 ∧ u.kbit fk j = true then Fetched.absent
            else .elt false .bytes (u.elt d f.width j) 0x7F (.fin false 0 0)
          let fetch := fun (t : State) (k : Nat) => match g.slot p (todo.getD k 0) with
            | none => Except.ok (Fetched.elt false .bytes 0 0x7F (.fin false 0 0), t)
            | some e => match before (todo.getD k 0) with
              | some j => .ok (again j, t)
              | none => t.fetchElt (at' e k).1 (at' e k).1 (at' e k).2 g.sb f false none (decide (fk ≠ 0))
          let got := fun (n : Nat) (x : Nat → Fetched) (v r : State) => ∃ w, WroteElts v d u.vt.size f.width
              (fun i => (todo.take n).contains i) (fun i => (x (todo.idxOf i)).code f) w ∧
            (fk = 0 → r = w) ∧
            (fk ≠ 0 → WroteBits w fk (fun i => decide (u.cur.start ≤ i) && decide (i < if n = todo.length then u.turnEnd u.vl else todo.getD n 0))
              (fun i => (todo.take n).contains i && (x (todo.idxOf i)).isFlagged) r)
          u.vecOk → ∀ (t : Nat → State) (x : Nat → Fetched) (n : Nat), t 0 = z → n ≤ todo.length →
            (∀ k, k < n → fetch (t k) k = .ok (x k, t (k + 1))) →
            (n = todo.length → ∃ r, Completes i s r ∧ got n x (t n) r) ∧
            (∀ c e, n < todo.length → g.slot p (todo.getD n 0) = some e → fetch (t n) n = .error c →
              ∃ r, Traps i s r (trapOf c (at' e n).1 (todo.getD n 0)) ∧ got n x (t n) r))) ∧
      (Starts h [a, b, xd] s u →
        let i := Instr.plcpy h xd a b m fk n chk tag
        let q := (u.x b).toNat
        let z := v.rebin p (u.x a)
        ((u.tag tag).st = .busy → Waits i s u) ∧
        ((u.tag tag).st ≠ .busy → u.maskHeld m = false → u.maskHeld fk = false →
          (u.hart.regs.pl[n] = none → Traps i s u (illegal .state)) ∧
          (u.hart.regs.pl[n] = some r → u.interlocked [(locAddr r.off, r.size)] = false →
            (p.stale = true → tests = true → Traps i s v (trapOf .stalePlan (BitVec.ofNat 64 n.val))) ∧
            (fresh → planGeo v p (u.x a) q = none → Traps i s v (illegal .operand)) ∧
            (fresh → planGeo v p (u.x a) q = some g →
              (p.n < q + u.vl → Traps i s v (illegal .operand)) ∧
              (q + u.vl ≤ p.n → u.vl = 0 → Completes i s (z.setTag tag ⟨.done, none, 0, 0, 0⟩)) ∧
              (q + u.vl ≤ p.n → 0 < u.vl →
                let ps := plcpyPosns v p g m
                let dst : Span := (u.x xd, u.vl * p.key.gran)
                let src := granuleSpan p.key.gran (ps.filter Prod.fst)
                let whole := fun (x : Span) => x.1.toNat + x.2 ≤ 2 ^ 64 ∧
                  (classOf x.1).kind = (classOf (x.1 + BitVec.ofNat 64 (x.2 - 1))).kind
                let from' := ∀ x, src = some x → whole x ∧ (classOf x.1).isVirt = true
                let to' := whole dst ∧ ((classOf dst.1).isVirt = true ∨ classOf dst.1 = .loc)
                (∀ x, src = some x → ¬(whole x ∧ (classOf x.1).isVirt = true) → Traps i s v (trapOf .protect x.1)) ∧
                (from' → ¬to' → Traps i s v (trapOf .protect dst.1)) ∧
                (from' → to' → v.interlocked (dst :: src.toList) = true → Waits i s v) ∧
                (from' → to' → v.interlocked (dst :: src.toList) = false →
                  Completes i s ((z.noteStore dst).setTag tag ⟨.busy, some ⟨.plcpy, u.x xd, u.x a, u.vl, p.key.gran, 0, 0,
                    p.key.gran, ps, fk, 0, [], 0, true⟩, 0, 0, 0⟩))))))) ∧
      scat (.plscatAdd h xd a vb m n chk) (.comb .add) ∧ scat (.plscatMin h xd a vb m n chk) (.comb .min) ∧
      scat (.plscatMax h xd a vb m n chk) (.comb .max) ∧ scat (.plscatFirst h xd a vb m n chk) .first ∧
      scat (.plscatLast h xd a vb m n chk) .last ∧ scat (.plscatAmoadd h xd a vb m n chk) .amoadd) ∧
  (∀ (s : State) (p : PlanRec) (g : Geo) (mode : Scat) (c : Comb) (f : Fmt) (sp : FmtSpec) (is : List Nat) (vs : List Nat) (x y v : Nat)
      (t : Target) (sb : Nat) (mates : List (Nat × Nat)) (run : Option Burst),
      (f.spec = some sp → Comb.add.step f x y = (fAdd sp 0 (sp.decode x) (sp.decode y)).1 ∧
        Comb.min.step f x y = (fMinMax sp false x y).1 ∧ Comb.max.step f x y = (fMinMax sp true x y).1) ∧
      (f.isInt = true → x < 2 ^ f.width → y < 2 ^ f.width →
        let num := intOf f.isSigned f.width
        Comb.add.step f x y = (x + y) % 2 ^ f.width ∧
        num (Comb.min.step f x y) = min (num x) (num y) ∧ num (Comb.max.step f x y) = max (num x) (num y)) ∧
      (Scat.first.fold f (v :: vs) = v ∧ Scat.last.fold f (vs ++ [v]) = v ∧ Scat.amoadd.fold f (v :: vs) = vs.foldl (Comb.add.step f) v ∧
        (Scat.comb c).fold f (v :: vs) = vs.foldl (c.step f) v) ∧
      (let w := scatWalk s p g mode is
        let okAt := fun (i : Nat) => ∀ d, g.slot p i = some d → ∃ pg, s.checkTarget mode (g.addr p d i).1 (g.addr p d i).2 g.sb = .ok pg
        (w.2 = none ↔ ∀ i ∈ is, okAt i) ∧
        (∀ (c : Cause) (i : Nat) (a : Word), w.2 = some (c, i, a) → ∃ (k : Nat) (d : Nat), is[k]? = some i ∧ (∀ j ∈ is.take k, okAt j) ∧
          g.slot p i = some d ∧ a = (g.addr p d i).1 ∧ s.checkTarget mode a (g.addr p d i).2 g.sb = .error c ∧
          w.1 = (scatWalk s p g mode (is.take k)).1) ∧
        (w.2 = none → w.1.map Prod.fst = is.filter (fun i => (g.slot p i).isSome)) ∧
        (∀ q ∈ w.1, g.slot p q.1 = some q.2.slot ∧ q.2.a = (g.addr p q.2.slot q.1).1 ∧
          s.checkTarget mode q.2.a (g.addr p q.2.slot q.1).2 g.sb = .ok q.2.page)) ∧
      (∀ ts, s.scatReads sb (ts ++ [t]) =
        let w := s.scatReads sb ts
        ((w.1.scatRead t sb).1, w.2 ++ [(w.1.scatRead t sb).2])) ∧
      (s.canonical → s.layout t.page = .raw → entFMT t.page.e = 0 → s.vt.fmt.width % 8 = 0 → t.nib = 0 →
        t.page.off + s.vt.fmt.width / 8 ≤ 65536 →
        let n := s.vt.fmt.width / 8
        let u := s.settle t.page.frame t.page.off (max (sb / 8) 1)
        let z := (s.scatOne mode t sb v mates run).1
        let old := match (s.hart.ctl.scat.getD []).find? (fun r => r.addr == t.a && r.vals.isEmpty) with
          | some r => r.code
          | none => u.rawNat t.page.frame t.page.off n
        s.scatRead t sb = (u, ⟨t.a, [], u.rawNat t.page.frame t.page.off n⟩) ∧
        z.rawNat t.page.frame t.page.off n = mode.rawCode s.vt.fmt old v % 2 ^ s.vt.fmt.width ∧
        ∀ k, k < t.page.off ∨ t.page.off + n ≤ k → k < 65536 → z.rawNat t.page.frame k 1 = u.rawNat t.page.frame k 1))

/-- R306: TZERO clears every cell of the tile and sets its mode, and does nothing else, whatever vl, mcfg and the masks hold. -/
def Obligations.TileZero : Prop :=
  ∀ (h : Hdr) (d : Fin 4) (int : Bool) (s u : State), d.val < s.hart.place.tiles → Starts h [] s u →
    ∃ t : Tile, Completes (.tzero h d int) s (u.setTile d t) ∧ t.int = int ∧ ∀ i j, t.cell i j = 0

/-- R44, R79, R177, R299, R307: a tile at or beyond TILES raises ILLEGAL with subcode REGISTER, whatever the guard. TLD writes the active
elements of the present turn of the lanes into one row, integers modulo 2^56 or values rounded to the tile's format, and leaves the other
cells and the mode. R81, R86, R308: TST converts one row, or one column, of the tile into vtype: integer cells saturate, floating-point
cells are rounded under frm and set flags. R97, R300 to R305: the outer products. For row i below MR and active column j, OPA adds the
products of the k-steps from ustart on (and, in a turn of the lanes, below where the turn ends), one after the other, OPA2 two by two, and
OPAMX block by block of 32 with the scales; every other cell and the mode stand. In integer mode the sums are exact modulo 2^56; otherwise
each is rounded once to the tile's format, the product too where an operand is f32. The geometry is that of the mcfg the instruction was
issued with (R233), and a byte of a window panel is that of its group of 32 as an earlier turn of the instruction has read it, if one has
(R303). -/
def Obligations.TilesAndProducts : Prop :=
  (∀ (h : Hdr) (d : Fin 4) (a : CVec) (b : Fin 32) (ob : OpaB) (v : Fin 64) (m sa sb : Fin 8) (fa fb : Fmt) (qt : Fin 4)
      (int tr : Bool) (s u : State),
      let fails := fun (i : Instr) => exec i s = .next (s.deliver (illegal .register))
      (s.hart.place.tiles ≤ d.val →
        fails (.tzero h d int) ∧ fails (.tld h d a b m) ∧ fails (.tst h v d b m tr) ∧ fails (.opa h d a ob m fa fb qt) ∧
        fails (.opa2 h d a ob m fa fb qt) ∧ fails (.opamx h d a a m fa fb sa sb)) ∧
      (d.val < s.hart.place.tiles → Starts h [b] s u → u.maskHeld m = false → aligned u.vt.size a.r = true →
        let old := u.hart.regs.acc[d]
        let f := u.vt.fmt
        let r := (u.x b).toNat
        let fits := if old.int then f.isInt = true else f.isFloat = true
        (fits → 64 ≤ r ∨ 128 < u.vl → Traps (.tld h d a b m) s u (illegal .operand)) ∧
        (¬fits → Traps (.tld h d a b m) s u (illegal .operand)) ∧
        (fits → r < 64 → u.vl ≤ 128 → Sparse.wf (0 : Cell56) old.cells = true →
          ∃ t : Tile, Completes (.tld h d a b m) s (u.setTile d t) ∧ t.int = old.int ∧
            ∀ i j, i < 64 → j < 128 → t.cell i j =
              if i = r ∧ u.inTurn j = true ∧ u.active m j = true then
                (if old.int then wrap 56 (intOf f.isSigned f.width (u.elt a.r f.width j)) else roundA56 (valueOf f (u.elt a.r f.width j))) % 2 ^ 56
              else old.cell i j))) ∧
  (∀ (h : Hdr) (d : Fin 64) (a : Fin 4) (b : Fin 32) (m : Fin 8) (tr : Bool) (s u : State),
      a.val < s.hart.place.tiles → Starts h [b] s u → u.vecOk → u.maskHeld m = false → aligned u.vt.size d = true →
      let t := u.hart.regs.acc[a]
      let f := u.vt.fmt
      let x := (u.x b).toNat
      let fits := if t.int then f.isInt = true else f.isFloat = true
      let inside := if tr then x < 128 ∧ u.vl ≤ 64 else x < 64 ∧ u.vl ≤ 128
      let cell := fun i => if tr then t.cell i x else t.cell x i
      let lo := intMin f.isSigned f.width
      let hi := intMax f.isSigned f.width
      let out := fun i => if t.int then (wrap f.width (max lo (min hi (intOf true 56 (cell i)))), 0)
        else roundTo f false u.frm (specA56.decode (cell i))
      (¬fits ∨ ¬inside → Traps (.tst h d a b m tr) s u (illegal .operand)) ∧
      (fits → inside → endsByGroup (.tst h d a b m tr) s u f.width (fun i => if u.active m i then (out i).2 else 0)
        (fun v q w => WroteElts v d u.vt.size f.width (fun i => q i && u.active m i) (fun i => (out i).1) w))) ∧
  (∀ (h : Hdr) (d : Fin 4) (a bv : CVec) (ob : OpaB) (m sa sb : Fin 8) (fa fb : Fmt) (qt : Fin 4) (s u : State) (core : Nat),
      d.val < s.hart.place.tiles → u.maskHeld m = false → aligned u.vt.size a.r = true →
      let old := u.hart.regs.acc[d]
      let add := fun (cell : Nat) (v : FVal) => roundA56 (addX 0 (specA56.decode cell) v).1
      let fills := fun (i : Instr) (f : Nat → Nat → Nat → Nat) =>
        ∃ t : Tile, Completes i s (u.setTile d t) ∧ t.int = old.int ∧
          ∀ i j, i < 64 → j < 128 → t.cell i j =
            if i < u.mr ∧ u.active m j = true then f i j (old.cell i j) % 2 ^ 56 else old.cell i j
      let fit := fun (n w : Nat) => n * w ≤ u.hart.place.grant * 8192 * u.vt.size
      let float := fun (f : Fmt) => f.isFloat = true ∨ f = .q4
      let byte := fun (f : Fmt) => f = .i8 ∨ f = .n8
      u.mr ≤ 64 → u.mcfg ≠ 0 → u.vl ≤ 128 → Sparse.wf (0 : Cell56) old.cells = true →
      (let w := fb.width
        let x := match ob with
          | .vec _ => 0
          | .pad r => u.x r
        let n := if u.vl = 0 then 0 else (((u.kSteps - 1) * u.bstr + u.vl) * w + 7) / 8
        let panel := match ob with
          | .vec v => aligned u.vt.size v.r = true ∧ fit (u.kSteps * u.vl) w
          | .pad _ => padCore u.loc x = some core ∧ (8 ≤ w → x.toNat % (w / 8) = 0) ∧ (w = 4 → u.bstr % 2 = 0) ∧
              offsetOf x + n ≤ u.windowSize core u.hart.place.launch ∧ u.interlocked [(x, n)] = false
        let panelByte := fun (i : Nat) => match u.cur.panel.find? (fun g => g.1 == i / 32 * 32) with
          | some g => g.2.getD (i % 32) 0
          | none => (u.padRead core u.hart.place.launch i 1).getD 0 0
        let bCode := fun k j => match ob with
          | .vec v => u.elt v.r w (k * u.vl + j)
          | .pad _ => natField (leNat ((List.range n).map (fun i => panelByte (offsetOf x + i)))) ((k * u.bstr + j) * w) w
        let aCode := fun i k => u.elt a.r fa.width (k * u.mr + i)
        let q := u.hart.regs.qt[qt]
        let prod := fun i j k => (mulX (operandValue fa q (aCode i k)) (operandValue fb q (bCode k j))).1
        let iprod := fun i j k => intOf fa.isSigned fa.width (aCode i k) * intOf fb.isSigned w (bCode k j)
        let start := fun k => decide (u.cur.start ≤ k) && u.cur.upto.all (fun n => decide (k < n))
        let steps := (List.range u.kSteps).filter start
        let evens := (List.range u.kSteps).filter (fun k => start k && k % 2 == 0)
        let one := fun i j k => if k + 1 < u.kSteps then prod i j (k + 1) else .fin false 0 0
        Starts h (match ob with
          | .vec _ => []
          | .pad r => [r]) s u →
        fit (u.mr * u.kSteps) fa.width → panel →
        (old.int = true → byte fa → byte fb →
          fills (.opa h d a ob m fa fb qt) (fun i j x => steps.foldl (fun x k => wrap 56 ((x : Int) + iprod i j k)) x) ∧
          fills (.opa2 h d a ob m fa fb qt) (fun i j x => evens.foldl (fun x k =>
            wrap 56 ((x : Int) + iprod i j k + if k + 1 < u.kSteps then iprod i j (k + 1) else 0)) x)) ∧
        (old.int = false → float fa → float fb →
          fills (.opa h d a ob m fa fb qt) (fun i j x => steps.foldl (fun x k =>
            if fa = .f32 ∨ fb = .f32 then add x (specA56.decode (roundA56 (prod i j k))) else add x (prod i j k)) x) ∧
          fills (.opa2 h d a ob m fa fb qt) (fun i j x => evens.foldl (fun x k =>
            roundA56 (addX 0 (addX 0 (specA56.decode x) (prod i j k)).1 (one i j k)).1) x))) ∧
      (let kb := u.kSteps / 32
        let scale := fun (v : FVal) (x y : Nat) => if x = 255 ∨ y = 255 then .nan false else match v with
          | .fin n m e => .fin n m (e + x + y - 254)
          | v => v
        let prod := fun i j n => (mulX (valueOf fa (u.elt a.r fa.width (i * u.kSteps + n))) (valueOf fb (u.elt bv.r fb.width (j * u.kSteps + n)))).1
        Starts h [] s u → aligned u.vt.size bv.r = true → old.int = false → u.kSteps % 32 = 0 →
        fit (u.mr * u.kSteps) fa.width → fit (u.vl * u.kSteps) fb.width →
        fills (.opamx h d a bv m fa fb sa sb) (fun i j x =>
          ((List.range kb).filter (fun z => decide (u.cur.start ≤ 32 * z) && u.cur.upto.all (fun n => decide (32 * z < n)))).foldl (fun x z =>
            let sum := exactSum ((List.range 32).map (fun n => prod i j (32 * z + n)))
            add x (scale sum (u.scByte sa (i * kb + z)) (u.scByte sb (j * kb + z)))) x)))

/-- R312, R314, R319 to R322: while a copy of the hart holds bytes of the region each instruction waits; without a configured bank each but
CLCFG raises ILLEGAL with subcode STATE. CLCFG writes CONFIG, RADIUS and ES, clears the counters and every entry, and raises OPERAND for
what R314 excludes. CLCLR clears the counters and the entries; CLSTAT reads a header field; CLRD writes the elements of an entry's field;
CLMRG merges the nearest pair, or answers all ones. Bytes outside the window stand. R315, R317, R318: one item. One that matches entry e
adds its values to the sums, each rounded in f32, and one to COUNT, saturating, and to INSERTED. One that opens a free entry makes it live,
with COUNT 1, its key and its values. Else REJECT counts it, TRAP leaves the bank as it was, EVICT sends the victim's bytes to the spill
ring and opens its entry, and MERGE tries again after the merge of a pair. R316, R98: the distance takes one step a dimension, each rounded
to nearest-even: a fused square of the rounded difference, the sum of its magnitude, or a fused negative product; the Hamming distance is
the exact number of differing bits. R316 to R319: in centroid mode the nearest live entry matches where its distance is not above RADIUS, a
NaN never; in exact-key mode the first of the eight probe slots that holds the key. An item opens the lowest free entry or probe slot. The
victim is the live entry with the least COUNT, the lowest of equals, among all or among the probe slots. A merge takes the live pair with
the least distance, the first of equals, adds the sums, each rounded, and the counts, saturating, frees the second entry and counts the
merge. R317, R318, R322, R274: CLINS takes its items one after the other, each on its operands as they stand after the items before it (log
19). The entry's number, or -1, is its result, and its bit of kf tells whether it was rejected. A full bank traps with its index, and a live
plan record raises PROTECT. -/
def Obligations.Clustering : Prop :=
  (∀ (h : Hdr) (vd : Fin 64) (d a b : Fin 32) (va vb : CVec) (m fk : Fin 8) (fld : BitVec 2) (sel : BitVec 4) (s u v : State)
      (c : BankCfg) (es x : Nat) (f : Fmt) (xs : List Nat) (p : Nat × Nat) (io : BankIO) (tr : Trap),
      let cs := u.hart.csr
      let base := cs.bankBase
      let get := fun (t : State) (o n : Nat) => leNat (t.myRead (base + o) n)
      let zeros := fun (t : State) (o n : Nat) => t.myRead (base + o) n = List.replicate n 0
      let held := u.canonical ∧ (u.window u.core u.hart.place.launch).isSome = true
      let region : List Span := if cs.bankSize = 0 then [] else [(locAddr base, cs.bankSize)]
      let within := fun (t : State) => t = { u with cores := { u.cores with windows := t.cores.windows } }
      (Starts h [a, b] s u →
        let i := Instr.clcfg h a b
        (bankCfg (u.x a).toNat = none → Traps i s u (illegal .operand)) ∧
        (bankCfg (u.x a).toNat = some c →
          (c.shapeOk = false → Traps i s u (illegal .operand)) ∧
          (c.shapeOk = true → u.interlocked region = true → Waits i s u) ∧
          (c.shapeOk = true → u.interlocked region = false → u.bankRoom c c.entrySize = false → Traps i s u (illegal .operand)) ∧
          (c.shapeOk = true → u.interlocked region = false → u.bankRoom c c.entrySize = true →
            u.interlocked (u.bankSpans c c.entrySize) = true → Waits i s u) ∧
          (c.shapeOk = true → u.interlocked region = false → u.bankRoom c c.entrySize = true →
            u.interlocked (u.bankSpans c c.entrySize) = false → base + cs.bankSize ≤ u.myWindow →
            u.liveRecord u.core u.hart.place.launch base (64 + c.cap * c.entrySize) = false → held →
            ∃ t, Completes i s t ∧ within t ∧ get t 0 8 = (u.x a).toNat ∧ get t 8 4 = (u.x b).toNat % 2 ^ 32 ∧ get t 12 4 = c.entrySize ∧
              zeros t 16 20 ∧ zeros t 0x2C 4 ∧ zeros t 64 (c.cap * c.entrySize)))) ∧
      (Starts h [] s u → u.interlocked region = true →
        Waits (.clclr h) s u ∧ Waits (.clstat h d sel) s u ∧ Waits (.clmrg h d) s u ∧
        (u.maskHeld m = false → u.maskHeld fk = false → Waits (.clins h vd va vb m fk) s u)) ∧
      (Starts h [a] s u → u.interlocked region = true → Waits (.clrd h vd a fld) s u) ∧
      (u.interlocked region = false →
      (Starts h [] s u → u.bank = none →
        Traps (.clclr h) s u (illegal .state) ∧ Traps (.clstat h d sel) s u (illegal .state) ∧
        Traps (.clmrg h d) s u (illegal .state) ∧ (u.maskHeld m = false → u.maskHeld fk = false →
          Traps (.clins h vd va vb m fk) s u (illegal .state))) ∧
      (Starts h [a] s u → u.bank = none → Traps (.clrd h vd a fld) s u (illegal .state)) ∧
      (u.bank = some (c, es) → u.interlocked (u.bankSpans c es) = false →
        (Starts h [] s u →
          (u.liveRecord u.core u.hart.place.launch base (64 + c.cap * es) = false → held → base + cs.bankSize ≤ u.myWindow →
            ∃ t, Completes (.clclr h) s t ∧ within t ∧ zeros t 16 20 ∧ zeros t 0x2C 4 ∧ zeros t 64 (c.cap * es) ∧
              t.myRead base 16 = u.myRead base 16 ∧ t.myRead (base + 0x24) 8 = u.myRead (base + 0x24) 8) ∧
          (∀ o, [(0, (0x10, 4)), (1, (0x14, 4)), (2, (0x18, 4)), (3, (0x1C, 4)), (4, (0x20, 4)), (5, (0x2C, 4)), (6, (0, 8)), (7, (0x0C, 4))].lookup
              sel.toNat = some o → Completes (.clstat h d sel) s (u.setX d (BitVec.ofNat 64 (get u o.1 o.2)))) ∧
          (c.mode ≠ 0 → Traps (.clmrg h d) s u (illegal .operand)) ∧
          (c.mode = 0 → (⟨u, []⟩ : BankIO).merge c es = none → Completes (.clmrg h d) s (u.setX d (BitVec.allOnes 64))) ∧
          (c.mode = 0 → (⟨u, []⟩ : BankIO).merge c es = some (p, io) → u.bankGuard io.w = none →
            Completes (.clmrg h d) s (io.s.setX d (BitVec.ofNat 64 (p.1 + p.2 * 2 ^ 32)))) ∧
          (u.maskHeld m = false → u.maskHeld fk = false → (vd :: va.r :: (if c.mode = 1 then [vb.r] else [])).all (aligned u.vt.size) = true →
            u.vt.fmt = (if c.mode = 1 then .f32 else c.kfmt) →
            (u.vl % c.dim ≠ 0 → Traps (.clins h vd va vb m fk) s u (illegal .operand)) ∧
            (u.vl % c.dim = 0 →
              let n := u.vl / c.dim
              let items := (List.range n).filter (fun i => u.inTurn i && (m == 0 || u.kbit m i))
              let r := bankWalk u c es vd va.r vb.r fk items { u with fresh := u.fresh + n }
              (r = .done v → Completes (.clins h vd va vb m fk) s v) ∧ (r = .trap tr v → Traps (.clins h vd va vb m fk) s v tr)))) ∧
        (Starts h [a] s u → u.vecOk → u.x a = BitVec.ofNat 64 x → x < 2 ^ 64 →
          (c.cap ≤ x → Traps (.clrd h vd a fld) s u (illegal .operand)) ∧
          (x < c.cap → clrdList u c es x fld = none → Traps (.clrd h vd a fld) s u (illegal .operand)) ∧
          (x < c.cap → clrdList u c es x fld = some (f, xs) → u.vt.fmt = f → aligned u.vt.size vd = true → xs.length ≤ u.vlmax u.vt →
            ∃ t, Completes (.clrd h vd a fld) s t ∧ WroteElts u vd u.vt.size f.width (fun i => decide (i < xs.length)) (fun i => xs.getD i 0) t))))) ∧
  (∀ (s : State) (c : BankCfg) (es e : Nat) (it : Item),
      let b : BankIO := ⟨s, []⟩
      let o := entryOff s es e
      let base := s.hart.csr.bankBase
      let inc := fun (x : BankIO) (f : Nat) => x.field f = (b.field f + 1) % 2 ^ 32
      let same := fun (x : BankIO) (f : Nat) => x.field f = b.field f
      let opened := fun (x : BankIO) => x.entryCount o = 1 ∧ x.isLive o = true ∧
        x.key o = (if c.mode = 1 then it.key % 2 ^ 64 else 0) ∧
        ∀ m, m < c.dim → x.sum o m = it.sums.getD m 0 % 2 ^ 32
      s.canonical → (s.window s.core s.hart.place.launch).isSome = true → it.vals.length = c.dim → it.sums.length = c.dim → it.codes.length ≤ c.dim →
      c.entrySize ≤ es → base + 64 + c.cap * es ≤ s.myWindow → e < c.cap →
      (b.matching c es it = some e → ∃ x, bankItem c es it b = .entry e x ∧
        x.entryCount o = min (b.entryCount o + 1) (2 ^ 32 - 1) ∧ x.isLive o = b.isLive o ∧ x.key o = b.key o ∧
        (∀ m, m < c.dim → x.sum o m = (fAdd specF32 0 (specF32.decode (b.sum o m)) (it.vals.getD m (.nan false))).1 % 2 ^ 32) ∧
        inc x 0x14 ∧ same x 0x10 ∧ same x 0x18 ∧ same x 0x1C ∧ same x 0x20) ∧
      (b.matching c es it = none → b.free c es it = some e → ∃ x, bankItem c es it b = .entry e x ∧ opened x ∧
        inc x 0x14 ∧ inc x 0x10 ∧ same x 0x18 ∧ same x 0x1C ∧ same x 0x20) ∧
      (b.matching c es it = none → b.free c es it = none →
        (c.policy = 0 → bankItem c es it b = .full) ∧
        (c.policy = 1 → b.merge c es = none → bankItem c es it b = .full) ∧
        (∀ p y, c.policy = 1 → b.merge c es = some (p, y) → bankItem c es it b = match y.insert c es it with
          | some (k, z) => .entry k z
          | none => .full) ∧
        (c.policy = 3 → ∃ x, bankItem c es it b = .rejected x ∧ inc x 0x18 ∧ same x 0x10 ∧ same x 0x14) ∧
        (c.policy = 2 → b.victim c es it = some e →
          let ring := b.field 0x24
          let n := b.field 0x28
          let dst := ring + b.field 0x2C % n * es
          n ≠ 0 → ring + n * es ≤ s.myWindow → (ring + n * es ≤ base ∨ base + 64 + c.cap * es ≤ ring) →
          ∃ x, bankItem c es it b = .entry e x ∧ opened x ∧ inc x 0x14 ∧ inc x 0x1C ∧ inc x 0x2C ∧ same x 0x10 ∧
            x.s.myRead dst es = s.myRead o es))) ∧
  (∀ (c : BankCfg) (xs ys : List Nat) (x y : Nat), xs.length = ys.length →
      let val := valueOf c.kfmt
      let sofar := specF32.decode (bankDistance c xs ys)
      let next := bankDistance c (xs ++ [x]) (ys ++ [y])
      let diff := specF32.decode (fSub specF32 0 (val x) (val y)).1
      let bits := ((xs.zip ys).map (fun p => (List.range 64).countP (fun k => p.1.testBit k != p.2.testBit k))).sum
      (c.metric ≠ 3 → bankDistance c [] [] = 0) ∧
      (c.metric = 0 → next = (fFma specF32 0 diff diff sofar).1) ∧
      (c.metric = 1 → next = (fAdd specF32 0 sofar diff.abs).1) ∧
      (c.metric = 2 → next = (fFma specF32 0 (val x).neg (val y) sofar).1) ∧
      (c.metric = 3 → bankDistance c xs ys = (specF32.round false 0 (.fin false bits 0)).1)) ∧
  (∀ (b : BankIO) (c : BankCfg) (es e : Nat) (it : Item) (q : Nat × Nat) (y : BankIO),
      let off := entryOff b.s es
      let live := fun (k : Nat) => k < c.cap ∧ b.isLive (off k) = true
      let slot := fun (t : Nat) => (it.key * 0x9E3779B97F4A7C15 % 2 ^ 64 / 2 ^ 32 % c.cap + t) % c.cap
      let point := fun (k : Nat) => (List.range c.dim).map (fun m => b.cent c (off k) m)
      let num := fun (x : Nat) => specF32.decode x
      let real := fun (x : Nat) => (num x).isNan = false
      let below := fun (x z : Nat) => (num x).lt (num z) = true
      let dist := fun (k : Nat) => bankDistance c it.codes (point k)
      let apart := fun (p : Nat × Nat) => bankDistance c (point p.1) (point p.2)
      let pair := fun (p : Nat × Nat) => p.1 < p.2 ∧ live p.1 ∧ live p.2 ∧ real (apart p)
      let before := fun (p r : Nat × Nat) => p.1 < r.1 ∨ p.1 = r.1 ∧ p.2 < r.2
      let radius := b.field 8
      (c.mode ≠ 1 → (b.matching c es it = some e ↔ live e ∧ real (dist e) ∧ real radius ∧ ¬below radius (dist e) ∧
        ∀ k, live k → real (dist k) → ¬below (dist k) (dist e) ∧ (k < e → below (dist e) (dist k)))) ∧
      (c.mode = 1 → (b.matching c es it = some e ↔ ∃ t, t < 8 ∧ e = slot t ∧ b.isLive (off e) = true ∧ b.key (off e) = it.key ∧
        ∀ r, r < t → ¬(b.isLive (off (slot r)) = true ∧ b.key (off (slot r)) = it.key))) ∧
      (c.mode ≠ 1 → (b.free c es it = some e ↔ e < c.cap ∧ b.isLive (off e) = false ∧ ∀ k, k < e → b.isLive (off k) = true)) ∧
      (c.mode = 1 → (b.free c es it = some e ↔ ∃ t, t < 8 ∧ e = slot t ∧ b.isLive (off e) = false ∧
        ∀ r, r < t → b.isLive (off (slot r)) = true)) ∧
      (let cand := fun (k : Nat) => live k ∧ (c.mode = 0 ∨ ∃ t, t < 8 ∧ k = slot t);
        b.victim c es it = some e ↔ cand e ∧ ∀ k, cand k →
          b.entryCount (off e) ≤ b.entryCount (off k) ∧ (k < e → b.entryCount (off e) < b.entryCount (off k))) ∧
      (b.merge c es = none ↔ ∀ p, ¬pair p) ∧
      (b.merge c es = some (q, y) → pair q ∧ (∀ p, pair p → ¬below (apart p) (apart q) ∧ (before p q → below (apart q) (apart p))) ∧
        (b.s.canonical → (b.s.window b.s.core b.s.hart.place.launch).isSome = true → c.entrySize ≤ es →
          b.s.hart.csr.bankBase + 64 + c.cap * es ≤ b.s.myWindow →
          let count := min (b.entryCount (off q.1) + b.entryCount (off q.2)) (2 ^ 32 - 1)
          y.entryCount (off q.1) = count ∧ y.isLive (off q.1) = true ∧
          (∀ m, m < c.dim → y.sum (off q.1) m = (fAdd specF32 0 (num (b.sum (off q.1) m)) (num (b.sum (off q.2) m))).1 % 2 ^ 32) ∧
          y.s.myRead (off q.2) es = List.replicate es 0 ∧
          (y.field 0x10 + 1) % 2 ^ 32 = b.field 0x10 ∧ y.field 0x20 = (b.field 0x20 + 1) % 2 ^ 32 ∧
          (∀ (p : FmtSpec) (m : Nat), c.track = true → c.kfmt.spec = some p → c.kfmt.width % 8 = 0 → count ≠ 0 → m < c.dim →
            y.cent c (off q.1) m = (match num (y.sum (off q.1) m) with
              | .fin n x z => (fDiv p 0 (.fin n x z) (.fin false count 0)).1
              | v => (p.round false 0 v).1) % 2 ^ c.kfmt.width) ∧
          (c.track = false → point q.1 = (List.range c.dim).map (fun m => y.cent c (off q.1) m))))) ∧
  (∀ (u t : State) (c : BankCfg) (es e i : Nat) (d a b : Fin 64) (fk : Fin 8) (r : List Nat) (io : BankIO) (p : Word),
      let f := c.kfmt
      let it := (({ t with fresh := u.fresh } : State).bankItemAt c a b i)
      let walk := bankWalk u c es d a b fk
      let unit := bankItem c es it ⟨t, []⟩
      walk [] t = .done t ∧
      (unit = .full → walk (i :: r) t = .trap (trapOf .clFull (BitVec.ofNat 64 i) i) t) ∧
      (unit = .entry e io ∨ unit = .rejected io →
        t.bankGuard io.w = some p → walk (i :: r) t = .trap (trapOf .protect p i) t) ∧
      (unit = .entry e io → t.bankGuard io.w = none → walk (i :: r) t = walk r (io.s.itemResult d fk i e false)) ∧
      (unit = .rejected io → t.bankGuard io.w = none → walk (i :: r) t = walk r (io.s.itemResult d fk i (2 ^ 32 - 1) true)) ∧
      (∀ (n : Nat) (rej : Bool),
        let z := if 32 * (i + 1) ≤ t.hart.place.grant * 8192 * t.vt.size then t.setElt d 32 i n else t
        t.itemResult d fk i n rej = if fk = 0 then z else z.setKbit fk i rej) ∧
      (c.mode = 0 → it.codes = (List.range c.dim).map (fun m => t.elt a f.width (i * c.dim + m)) ∧ it.vals = it.codes.map (valueOf f) ∧
        it.sums = it.vals.map (fun v => (specF32.round false 0 v).1)) ∧
      (c.mode = 1 → it.sums = (List.range c.dim).map (fun m => t.elt b 32 (i * c.dim + m)) ∧ it.vals = it.sums.map specF32.decode ∧
        ((i + 1) * f.width ≤ t.hart.place.grant * 8192 * t.vt.size →
          (it.key : Int) = (intOf f.isSigned f.width (t.elt a f.width i)) % 2 ^ 64)))

/-- The tile that an instruction names (R299). -/
def tileOf : Instr → Option (Fin 4)
  | .opa _ d _ _ _ _ _ _ => some d
  | .opa2 _ d _ _ _ _ _ _ => some d
  | .opamx _ d _ _ _ _ _ _ _ => some d
  | .tzero _ d _ => some d
  | .tld _ d _ _ _ => some d
  | .tst _ _ d _ _ _ => some d
  | _ => none

/-- R171, R189: an F-word whose guard is off, whatever it is, writes nothing, waits for nothing, pops nothing and traps not; the pc or the
repeat goes on. -/
def Obligations.GuardedOff : Prop :=
  ∀ (i : Instr) (h : Hdr) (s : State), i.header = some h → guardOn h s = false →
    (∀ t, tileOf i = some t → t.val < s.hart.place.tiles) → Completes i s s

/-- R182, R184: what each slot of a pair word writes: its operands are read in `u`, whatever the other slot has written into `v`. Vector slots
write every element below vl, from the start index on and in the present turn of the lanes, and accumulate their flags without a trap. R178,
R182 to R184: a pair word. Where vtype does not suit a slot, or a destination is not aligned to its group, it raises ILLEGAL with subcode
PAIR, and where only a source is not aligned, with subcode REGISTER, (the model's choice, log entry 34) before either slot has any effect.
Else both slots write what the first part says, read from the state after the pop, and slot B's branch is taken or not: BDEC by the value
that it computes, also where D is x0 (log entry 34). -/
def Obligations.PairWords : Prop :=
  (∀ (u v : State) (d a : Fin 32) (y : PSrc) (o : BitVec 19) (g : Fin 8), u.vecOk → v.hart.place = u.hart.place →
      let w := u.vt.fmt.width
      let p := u.vspec
      let rm := u.frm
      let x := u.x d
      let z := match y with
        | .reg r => u.x r
        | .imm b => b.signExtend 64
      let sh := z.toNat % 64
      let ea := fun j => BitVec.ofNat w (u.elt (slotVec d) w j)
      let eb := fun j => match y with
        | .reg r => BitVec.ofNat w (u.elt (slotVec r) w j)
        | .imm b => (b.signExtend 64).setWidth w
      let fa := fun j => p.decode (u.elt (slotVec d) w j)
      let fb := fun j => p.decode (u.elt (slotVec a) w j)
      let puts := fun (q : Slot) (f : Nat → Nat × Flags) =>
        WroteElts (v.accrue (joinFlags (fun j => (f j).2) ((List.range u.vl).filter u.inTurn))) (slotVec d) u.vt.size w
          (fun j => u.inTurn j && decide (j < u.vl))
          (fun j => (f j).1) (slotWrite u q v)
      let int := fun (q : PairVint) (f : Nat → BitVec w) => puts (.vint q d y) (fun j => ((f j).toNat, 0))
      slotWrite u .pnop v = v ∧ slotWrite u (.br o) v = v ∧ slotWrite u (.brg g o) v = v ∧ slotWrite u (.bdec d o) v = v.setX d (x - 1) ∧
      slotWrite u (.mv d y) v = v.setX d z ∧ slotWrite u (.salu .add d y) v = v.setX d (x + z) ∧
      slotWrite u (.salu .sub d y) v = v.setX d (x - z) ∧ slotWrite u (.salu .and d y) v = v.setX d (x &&& z) ∧
      slotWrite u (.salu .or d y) v = v.setX d (x ||| z) ∧ slotWrite u (.salu .xor d y) v = v.setX d (x ^^^ z) ∧
      slotWrite u (.salu .sll d y) v = v.setX d (x <<< sh) ∧ slotWrite u (.salu .srl d y) v = v.setX d (x >>> sh) ∧
      slotWrite u (.salu .sra d y) v = v.setX d (x.sshiftRight sh) ∧ slotWrite u (.salu .mul d y) v = v.setX d (x * z) ∧
      (aligned u.vt.size (slotVec d) = true →
        int .vadd (fun j => ea j + eb j) ∧ int .vsub (fun j => ea j - eb j) ∧ int .vmul (fun j => ea j * eb j) ∧
        int .vand (fun j => ea j &&& eb j) ∧ int .vor (fun j => ea j ||| eb j) ∧ int .vxor (fun j => ea j ^^^ eb j) ∧
        int .vmin (fun j => BitVec.ofInt w (min (ea j).toInt (eb j).toInt)) ∧
        int .vmax (fun j => BitVec.ofInt w (max (ea j).toInt (eb j).toInt)) ∧
        puts (.vmv d y) (fun j => ((eb j).toNat, 0)) ∧
        puts (.vfp .vfadd d a) (fun j => fAdd p rm (fa j) (fb j)) ∧ puts (.vfp .vfsub d a) (fun j => fSub p rm (fa j) (fb j)) ∧
        puts (.vfp .vfmul d a) (fun j => fMul p rm (fa j) (fb j)) ∧
        puts (.vfp .vfmin d a) (fun j => fMinMax p false (u.elt (slotVec d) w j) (u.elt (slotVec a) w j)) ∧
        puts (.vfp .vfmax d a) (fun j => fMinMax p true (u.elt (slotVec d) w j) (u.elt (slotVec a) w j)) ∧
        puts (.vfabs d a) (fun j => (p.withSign false (u.elt (slotVec a) w j), 0)) ∧
        puts (.vfneg d a) (fun j => (p.withSign (!p.signBit (u.elt (slotVec a) w j)) (u.elt (slotVec a) w j), 0)))) ∧
  (∀ (a b : Slot) (g : Fin 8) (o : BitVec 19) (s u : State),
      let even := (slotSrcs a ++ slotSrcs b).all (aligned s.vt.size) = true
      let suits := (slotDests a ++ slotDests b).all (aligned s.vt.size) = true ∧ slotFmt a s.vt.fmt = true ∧ slotFmt b s.vt.fmt = true
      let rel := fun (o : BitVec 19) => u.hart.ctl.pc + 8 * o.signExtend 64
      let v := slotWrite u b (slotWrite u a u)
      let i := Instr.pairWord a b
      let goes := fun (i : Instr) (x : Word) (v : State) =>
        (x.toNat % 8 = 0 → Jumps i s x v) ∧ (x.toNat % 8 ≠ 0 → exec i s = .next ((s.keepPop v).deliver (trapOf .misalign x)))
      (¬suits → Traps i s s (illegal .pair)) ∧ (suits → ¬even → Traps i s s (illegal .register)) ∧
      (suits → even → popped (slotRegs a ++ slotRegs b) s = some u →
        ((∀ o, b ≠ .br o) → (∀ g o, b ≠ .brg g o) → (∀ d o, b ≠ .bdec d o) → Completes i s v) ∧
        (b = .br o → goes i (rel o) v) ∧
        (b = .brg g o → (u.g g = true → goes i (rel o) v) ∧ (u.g g = false → Completes i s v)) ∧
        (∀ d, b = .bdec d o → (u.x d = 1 → Completes i s v) ∧ (u.x d ≠ 1 → goes i (rel o) v))) ∧
      Completes .pnop s s ∧
      (let t := s.hart.ctl.pc + 8 * o.signExtend 64;
        (s.g g = false → Completes (.brg g o) s s) ∧ (s.g g = true → goes (.brg g o) t s)))

/-- R185, R186, R188: a repeat begins at iteration rpc with its count, read once, and further iterations issue at the same address. A count that
is not above rpc ends it: the pc passes the repeated words and rpc is 0. An iteration that completes adds one to rpc, and the last one
leaves rpc 0 and the pc behind the words. R186, R187: iteration j executes the F-word with j strides added to each of its fields D, A and B
and with its literal, the next pc behind the words. Before an iteration after the first, the stepped fields are checked: the first in the
order D, A, B that leaves its class, or breaks or runs off the end of its register group, raises REP_RANGE with its number, and the
iteration is not begun. An issue ends as it stands unless an older instruction is on its way. R188, R327, R328: URET with another value in
rpc than the handler found goes on there (the model's choice in its details, log entry 38): at or above the count no further iteration
executes, and the pc passes the words; below it the trapped iteration is replaced by iteration rpc. With the value found, the record stands
as it was. -/
def Obligations.Repeats : Prop :=
  ((∀ (p : RepPrefix) (f : BitVec 64) (lit : Option (BitVec 62)) (s u : State) (n : Nat) (r : Fin 32),
      (p.count = .imm (BitVec.ofNat 16 n) → n < 65536 → u = s) →
      (p.count = .reg r → popped [r] s = some u ∧ n = (u.x r).toNat) →
      (p.count = .imm (BitVec.ofNat 16 n) ∧ n < 65536 ∨ p.count = .reg r) →
      (n ≤ u.hart.csr.rpc.toNat → exec (.rep p f lit) s = .next ((u.modCsr (fun c => { c with rpc := 0 })).modCtl (fun c =>
        { c with pc := u.hart.ctl.next, rep := none, resume := none, begin := 0, phase := .running }))) ∧
      (u.hart.csr.rpc.toNat < n → exec (.rep p f lit) s = .next (u.modCtl (fun c =>
        { c with rep := some ⟨n, p, f, lit⟩, phase := .running })))) ∧
    (∀ (s : State) (r : RepState), s.hart.ctl.rep = some r →
      let j := s.hart.csr.rpc.toNat
      let t := s.retire
      (j + 1 < r.count → j + 1 < 2 ^ 64 → t.hart.csr.rpc.toNat = j + 1 ∧ t.hart.ctl.pc = s.hart.ctl.pc ∧ t.hart.ctl.rep = some r) ∧
      (r.count ≤ j + 1 → t.hart.csr.rpc = 0 ∧ t.hart.ctl.pc = s.hart.ctl.next ∧ t.hart.ctl.rep = none) ∧
      t.hart.csr.inst = s.hart.csr.inst + 1 ∧ t.hart.ctl.resume = none ∧ t.hart.ctl.begin = 0 ∧ t.hart.ctl.scat = none ∧
        t.hart.regs = s.hart.regs)) ∧
  ((∀ (s : State) (r : RepState) (k : Nat), s.sleeping = false → s.hart.ctl.rep = some r → s.hart.ctl.aside = none → s.hart.ctl.reissue = [] →
      let j := s.hart.csr.rpc.toNat
      let w := s.setNext (if r.lit.isSome then 3 else 2)
      let field := repRangeField s.hart.place.tiles s.vt.size (FWord.ofWord r.f) r.p j
      let does := fun (o : Out) => s.issueOnce = andThen o s.settled
      (r.count ≤ j → does (.next (w.startRep r))) ∧
      (j < r.count → 0 < j → field = some k → does (.next (w.deliverEarly (trapOf .repRange (BitVec.ofNat 64 k))))) ∧
      (j < r.count → j = 0 ∨ field = none →
        does (w.issueWord (instrOf (decodeF s.hart.place.tiles ((FWord.ofWord r.f).step r.p j) (r.lit.map litWordOf)))))) ∧
    (∀ (f : FWord) (p : RepPrefix) (j : Nat), f.step p j =
      { f with d := f.d + j * p.sd.toNat, a := f.a + j * p.sa.toNat, b := f.b + j * p.sb.toNat }) ∧
    (∀ (s t : State), s.olderWork = false → t.hart.ctl.aside = none → s.settled t = t) ∧
    (∀ (tiles g j : Nat) (f : FWord) (p : RepPrefix) (sh : Shape) (row : FormRow), shapeOf f = .ok sh → sh.form? f = some row →
      let out := fun (c : FClass) (x n : Nat) => match c with
        | .v => x % n ≠ 0 ∨ 64 < x + n
        | .x => 32 ≤ x
        | .g => 8 ≤ x
        | .k => 8 ≤ x
        | .s => 8 ≤ x
        | .q => 4 ≤ x
        | .p => 16 ≤ x
        | .t => tiles ≤ x
        | .none => False
        | .sc => False
      let leaves := fun (stride : BitVec 3) (c : FClass) (x n : Nat) => stride ≠ 0 ∧ out c (x + j * stride.toNat) n
      let d := leaves p.sd row.d f.d (fieldGroup f.opc f.fn true g)
      let a := leaves p.sa row.a f.a g
      let b := leaves p.sb row.b f.b g
      let got := repRangeField tiles g f p j
      (d → got = some 0) ∧ (¬d → a → got = some 1) ∧ (¬d → ¬a → b → got = some 2) ∧ (¬d → ¬a → ¬b → got = none))) ∧
  (∀ (r : TrapRec) (q : RepState) (i : Nat) (m : Word), r.iter = some (q, i) → i < 2 ^ 64 →
      let after := r.pc + (if q.lit.isSome then 24 else 16)
      let l := r.left m
      (m.toNat = i → l.again = true ∧ l.iter = r.iter ∧ l.list = r.list ∧ l.cont = r.cont) ∧
      (m.toNat ≠ i → q.count ≤ m.toNat → l.again = false ∧ l.iter = none ∧
        (∀ f, f ∈ l.list ↔ f ∈ r.list ∧ ¬(f.pc = r.pc ∧ f.iter.isSome = true)) ∧
        (r.cont.rep.isSome = true → r.cont.pc = r.pc → l.cont = ⟨after, none, 0⟩)) ∧
      (m.toNat ≠ i → m.toNat < q.count → l.again = true ∧ l.iter = some (q, m.toNat)))

/-- R143 to R146, R149: the record at the head of a queue that is not stopped, and is enabled or has records to replay (log 15), is read once
and checked. A reserved bit or a broken limit stops the queue with code 1, a launch that could never be placed with code 2, no budget at all
with code 3. A record that passes is ready at once without a dependence; with one, each read of the word at DEPADDR makes it ready when the
word has reached DEPVAL, and a fault stops the queue with code 4. The firmware reads after the write queues have been applied there; the
steps are the model's (log 21). R12, R46, R142, R151 to R154, R159: how a crew starts. Where the firmware runs, a placement takes the first
candidate that fits; one step starts all crews of a COSIDENT launch, else one, on the first furrow of R151 with room. Each hart stands at
KERNEL with the registers of R154, its place and its rank; each core holds the launch's window, a new one empty, and the furrow a ring slot,
a new one with counts of zero; other harts stand as before. The crew takes the largest grant up to GRANTMAX that each of its cores has free.
The order of candidates and steps is the model's choice (log entries 21 and 22). R157, R158, R331, R334, R335: a crew that a record of
higher PRIO needs released is pre-empted: none of its harts is resident. A pre-empted crew comes back where its grant can be had and no
record goes before it: its harts run again (or stand in debug), each with its event START set; they keep their registers, but under another
grant vector elements and mask bits from vl on, and scale bytes that are gained. What was in a sequencer is recorded, and issues again
first. The choice of victims and grants is the model's (log entry 22). R163: a crew whose counter has passed its budget, its own or the
function's default, raises HANG in its hart of lowest rank, which resets the partition. The counter advances each cycle a hart of the crew
is resident, but not while the launch is stopped in debug. -/
def Obligations.Scheduling : Prop :=
  (∀ (s : State) (n : Nat) (q : Fin 16) (w : Vector Word 8) (c : Nat) (v : Word),
      let f := s.fn n
      let x := f.queues[q]
      let field := fun (k lo len : Nat) => (w.toList.getD k 0).toNat / 2 ^ lo % 2 ^ len
      let good := field 0 0 3 = 0 ∧ field 5 0 3 = 0 ∧ field 7 0 64 = 0 ∧ field 2 58 6 = 0 ∧ field 2 51 5 = 0 ∧ field 3 35 13 = 0 ∧
        1 ≤ field 2 0 32 ∧ 1 ≤ field 2 32 8 ∧ field 2 32 8 ≤ 32 ∧ 1 ≤ field 2 40 8 ∧ field 2 40 8 ≤ field 2 0 32 ∧
        field 3 32 3 ≤ 4 ∧ field 3 48 16 % 4 = 0 ∧ field 3 48 16 ≤ 1024 ∧ field 3 16 16 % 64 = 0 ∧ field 3 16 16 ≤ 768 ∧
        field 3 0 16 % 64 = 0 ∧ 64 ≤ field 3 0 16 ∧ field 3 0 16 ≤ field 3 16 16
      let z := if x.replay = [] then s.settleAt f.ctx (x.slotAddr x.head) 64 else s
      let fits := z.fitsEmpty (newLaunch z.sched.nextId n q 0 w) = true
      let stops := fun (i : Instr) (t : State) (code : Nat) => exec i s = .next (t.stopQueue n q code x.headCount)
      let check := Instr.recordCheck n q
      let dep := Instr.dependenceRead n q
      ((s.fn? n).isSome = true → x.hasRecord = true → x.headRec = none → x.cur = none →
        (z.headWords f x = none → stops check z 1) ∧
        (z.headWords f x = some w →
          (¬good → stops check z 1) ∧ (good → ¬fits → stops check z 2) ∧ (good → fits → w[4] = 0 → (z.fn n).budget = 0 → stops check z 3) ∧
          (good → fits → (w[4] ≠ 0 ∨ (z.fn n).budget ≠ 0) →
            exec check s = .next (z.modQueue n q (fun y => { y with headRec := some w, ready := w[5] == 0 }))))) ∧
      (x.hasRecord = true ↔ x.stopped = false ∧ (x.en = true ∨ x.replay ≠ []) ∧ (x.replay ≠ [] ∨ x.head ≠ x.tail)) ∧
      (x.headRec = some w → x.stopped = false → x.en = true ∨ x.replay ≠ [] → x.ready = false →
        (s.depRead f w[5] = none → stops dep (s.modQueue n q (fun y => { y with headRec := none })) 4) ∧
        (s.depRead f w[5] = some v →
          (v.toNat < w[6].toNat → exec dep s = .next (s.settleAt f.ctx w[5] 8)) ∧
          (w[6].toNat ≤ v.toNat → exec dep s = .next ((s.settleAt f.ctx w[5] 8).modQueue n q (fun y => { y with ready := true }))))) ∧
      (x.headRec = none → exec dep s = .refused (.cannotOccur "DEPENDENCE_READ")) ∧
      (x.hasRecord = false → exec check s = .refused (.cannotOccur "RECORD_CHECK")) ∧
      ((s.stopQueue n q c x.headCount).hart = s.hart ∧ s.memOnly (s.stopQueue n q c x.headCount))) ∧
  (∀ (s t : State) (l : Launch) (n crew furrow : Nat) (places : List Nat),
      let u := s.startCrew l crew furrow places
      let x2 : Word := if l.windowBytes = 0 then 0 else 0xFE00000000000000#64 + BitVec.ofNat 64 l.windowBytes
      (s.fwRuns = true → (s.candidates n).findSome? s.serve = some t → exec (.crewPlacement n) s = .next t) ∧
      ((s.candidates n).findSome? s.serve = none → exec (.crewPlacement n) s = .refused (.cannotOccur "CREW_PLACEMENT")) ∧
      (s.serve l = some t → ∃ w, State.placeCrews l l.stepCrews l.placed (if l.placed = 0 then
          s.modSched (fun d => { d with launches := d.launches ++ [l], nextId := max d.nextId (l.id + 1) }) else s) = some w ∧
        t.harts = ((List.range l.stepCrews).foldl (fun t i => t.growCrew l (l.placed + i)) w).harts) ∧
      l.stepCrews = (if l.cosident then l.crewCount - l.placed else 1) ∧
      (∀ k, State.placeCrews l (k + 1) crew s = match s.fitCrew l with
        | none => none
        | some (f, ps) => State.placeCrews l k (crew + 1) (s.startCrew l crew f ps)) ∧ State.placeCrews l 0 crew s = some s ∧
      (let room := fun (f : Nat) => s.furrowHeld l f = false ∧ s.ringRoom f l.id = true ∧ (s.furrowPlaces l f).length = l.hartCount;
        (s.fitCrew l = some (furrow, places) ↔ places = s.furrowPlaces l furrow ∧ room furrow ∧
          ∃ before after, s.furrowOrder l = before ++ furrow :: after ∧ ∀ f ∈ before, ¬room f)) ∧
      (let mine := fun (h : Hart) => h.inGroup false l.id crew = true
        let units := fun (core : Nat) => ((s.onCore core).map (fun h => h.place.grant)).sum
        let count := fun (core : Nat) => s.harts.countP (fun h => decide (mine h) && coreOf h.place.loc == core)
        (∃ h ∈ s.harts, mine h) → (∀ h ∈ s.harts, mine h → h.place.grant = l.grantMin ∧ h.resident = true) → (∀ core, units core ≤ 12) →
        l.grantMin ≤ l.grantMax →
        ∃ g, (s.growCrew l crew).harts = s.harts.map (fun h => if mine h then { h with place := { h.place with grant := g } } else h) ∧
          l.grantMin ≤ g ∧ g ≤ l.grantMax ∧ (∀ core, 0 < count core → units core + count core * g ≤ 12 + count core * l.grantMin) ∧
          (g < l.grantMax → ∃ core, 0 < count core ∧ 12 + count core * l.grantMin < units core + count core * (g + 1))) ∧
      u.hart = s.hart ∧ u.ms = s.ms ∧ u.fns = s.fns ∧
      (∃ new : List Hart, u.parked = s.parked ++ new ∧ new.length = places.length ∧
        ∀ (r : Nat) (h : Hart) (p : Nat), new[r]? = some h → places[r]? = some p →
          h.place.loc = BitVec.ofNat 12 p ∧ h.place.launch = l.id ∧ h.place.fn = l.fn ∧ h.place.crew = BitVec.ofNat 32 crew ∧
          h.place.rank = BitVec.ofNat 8 r ∧ h.place.grant = l.grantMin ∧ h.place.tiles = l.tileCount ∧
          h.place.crews = BitVec.ofNat 32 l.crewCount ∧ h.place.harts = BitVec.ofNat 8 l.hartCount ∧
          h.ctl.pc = l.kernel ∧ h.ctl.phase = .running ∧ h.ctl.inHandler = false ∧ h.ctl.rep = none ∧ h.ctl.pend = 0b10000 ∧
          h.ctl.share = none ∧ h.ctl.mq = MsgQ.empty ∧ h.ctl.stores = [] ∧ (∀ k : Fin 64, h.ctl.tags[k].st = .idle) ∧
          (∀ k : Fin 32, h.regs.x[k] = if k = 2 then x2 else if k = 3 then l.param else if k = 4 then BitVec.ofNat 64 crew
            else if k = 5 then BitVec.ofNat 64 r else 0) ∧
          (∀ k : Fin 8, h.regs.g[k] = decide (k = 0)) ∧ (∀ k : Fin 64, h.regs.v[k] = 0) ∧ (∀ k : Fin 8, h.regs.k[k] = 0) ∧
          (∀ (k : Fin 8) (j : Nat), j < 6144 → natField h.regs.sc[k].toNat (8 * j) 8 = 0x7F) ∧
          (∀ k : Fin 16, h.regs.pl[k] = none) ∧ (∀ k : Fin 4, h.regs.acc[k].int = false ∧ h.regs.acc[k].cells = []) ∧
          h.csr.vl = 0 ∧ h.csr.vtype.bits = 4 ∧ h.csr.frm = 0 ∧ h.csr.fflags = 0 ∧ h.csr.mcfg = 0 ∧ h.csr.utvec = 0 ∧ h.csr.rpc = 0 ∧
          h.csr.inst = 0) ∧
      (∀ p ∈ places, l.windowBytes ≠ 0 → u.window (p / 4) l.id =
        some ((s.window (p / 4) l.id).getD ⟨p / 4, l.id, l.windowBytes, []⟩)) ∧
      (s.ringHeld furrow l.id = false → ∀ c, u.ringCount furrow l.id c = 0) ∧ u.ringHeld furrow l.id = true) ∧
  (∀ (s : State) (k l : Launch) (cs : List CrewRec) (c : CrewRec) (g m launch crew : Nat) (h : Hart),
      (s.launch? launch = some k → s.preemptFor k.fn = some (l, cs) → (∃ c ∈ cs, c.launch = launch ∧ c.crew = crew) →
        ∃ t, exec (.preemption launch crew) s = .next t ∧ ∀ h ∈ t.harts, h.place.launch = launch → h.place.crew.toNat = crew →
          h.resident = false) ∧
      (s.crew? launch crew = some c → s.resumable c = some g → exec (.resumption launch crew) s = .next (s.resume c g)) ∧
      (s.crew? launch crew = none → exec (.resumption launch crew) s = .refused (.cannotOccur "RESUMPTION")) ∧
      (h.ctl.aside = none → h.recordFlights = h.modCtl (fun t =>
        { t with window := [], reissue := h.ctl.window.flatMap SeqEntry.flights ++ h.ctl.reissue })) ∧
      (∀ (f : Flight) (k : Cont), h.ctl.aside = some (f, k) →
        let r := h.recordFlights
        r.ctl.window = [] ∧ r.ctl.reissue = h.ctl.window.flatMap SeqEntry.flights ++ f :: h.ctl.reissue ∧ r.ctl.pc = k.pc ∧ r.ctl.rep = k.rep ∧
          r.csr.rpc = k.rpc ∧ r.regs = h.regs) ∧
      (let r := h.comeBack g m
        let w := h.csr.vtype.fmt.width
        let size := h.csr.vtype.size
        let old := h.place.grant
        let a := { s with hart := h }
        let b := { s with hart := r }
        r.place = { h.place with grant := g } ∧ r.csr = h.csr ∧ r.regs.x = h.regs.x ∧ r.regs.g = h.regs.g ∧ r.regs.pl = h.regs.pl ∧
        r.regs.acc = h.regs.acc ∧ r.regs.qt = h.regs.qt ∧
        r.ctl = { h.ctl with pend := h.ctl.pend ||| 0b10000, phase := r.ctl.phase } ∧
        (h.ctl.phase = .preempted none → r.ctl.phase = .running) ∧ (∀ d, h.ctl.phase = .preempted (some d) → r.ctl.phase = .debug d) ∧
        (g = old → r.regs = h.regs) ∧
        (1 ≤ old → old ≤ 12 → 1 ≤ g → g ≤ 12 → h.csr.vl ≤ vlmaxOf old size w → h.csr.vl ≤ vlmaxOf g size w →
          (∀ (d : Fin 64) (i : Nat), aligned size d = true → i < h.csr.vl → b.elt d w i = a.elt d w i) ∧
          (∀ (n : Fin 8) (i : Nat), i < h.csr.vl → b.kbit n i = a.kbit n i) ∧
          (∀ (n : Fin 8) (j : Nat), j < 512 * min old g → b.scByte n j = a.scByte n j)))) ∧
  (∀ (s : State) (launch crew : Nat) (c : CrewRec) (h : Hart) (l : Launch),
      s.crew? launch crew = some c → s.lowestRank launch crew = some h → s.launch? c.launch = some l →
      let budget := if l.budgetWord = 0 then (s.fn l.fn).budget.toNat else l.budgetWord.toNat
      (budget < c.budget → exec (.budgetExpiry launch crew) s =
        .next (s.resetPartition h.place.fn .hang (BitVec.ofNat 64 crew) h.place.loc h.ctl.pc)) ∧
      (c.budget ≤ budget → exec (.budgetExpiry launch crew) s = .refused (.cannotOccur "BUDGET_EXPIRY")) ∧
      (c.pre = false → s.launchStopped c.launch = false → (∃ g ∈ s.crewHarts c.launch c.crew, g.resident = true) →
        s.tick.crew? launch crew = some { c with budget := c.budget + 1 }) ∧
      (c.pre = true ∨ s.launchStopped c.launch = true → s.tick.crew? launch crew = some c))

/-- The memory services, their operation codes and what each does to page `i` (R33, R117). -/
noncomputable def serviceTable : List ((Via → Instr) × Nat) :=
  [(.mapPages, 0x10), (.unmapPages, 0x11), (.protectPages, 0x12), (.offerPages, 0x13), (.acceptPages, 0x14), (.thawPages, 0x15)]

/-- R32, R34, R37, R42, R371: a memory service runs as R34 says: another OP or an unused field answers BADREQ, a bad range ALIGN, an ATTR that
breaks its rule ATTR, with no page touched. Else the pages follow in order until one fails; STATUS and DONE say how far it came. By SVC,
after FENCE.ALL, x10 gets STATUS too. While a pin or an earlier request holds it back the hart waits, or the mailbox stays busy. The whole
request's wait, and BADREQ for a block that cannot be written, are the model's choice (log 25, 26). R36, R165, R212, R334, R372: the
firmware holds the requests of busy mailboxes, of waiting harts and of harts that are gone, and handles one when every earlier one is held
back and touches no page of it (log 25). What a pre-empted or stopped hart waits for is done, and it stays stopped; that of a hart that is
gone is done with STATUS and DONE in its block where that lies in memory (log 26). R29, R33, R34, R101: MAP of one page: STACK, OWNER,
MAPPED, NOCHUNK in this order; else the page has an entry with ATTR and the frame, owned by the requester and not shared, its bytes read
zero, and no other entry changes. R33, R34: UNMAP, PROTECT and OFFER: UNMAPPED, ATTR for another page size, OWNER (for an acceptor: log 25),
ATTR for the resulting entry, SHARED, in this order; else UNMAP leaves no entry, PROTECT replaces P, R, W, X and GL alone, and OFFER notes
frame, permissions and acceptor. R33 to R35, R117: the pages of a request follow one another until one fails. ACCEPT: NOOFFER, STACK where
none lies in its home or in a target its PEERMAP allows, MAPPED, ATTR where R30 would be broken; else the acceptor's entry has the owner's
bits but R, W and X of ATTR, SH is set in both, and the offer is used up. THAW: OWNER, ATTR for another page size, NOTHDR; then the frames
thaw in order, NOCHUNK at the first that the pool cannot serve. R212: PARTITION and FRAMES, after FENCE.ALL, fill the area at x10 and put 0
into x10; BADREQ for an area that cannot be written. -/
def Obligations.MemoryServices : Prop :=
  (∀ (mk : Via → Instr) (op : Nat), (mk, op) ∈ serviceTable →
      ∀ (h : Hdr) (s t : State) (f : Fn) (n st done : Nat) (w : Vector Word 8),
        (guardOn h s = true → s.hart.copying = false → s.unperformed = false →
          let i := mk (.svc h)
          let u := s.settleHart s.hart.dest
          let a := u.x 10
          let serves := fun (v : State) (r : SvcRec) =>
            let n := v.hart.place.fn
            let run := if v.fwTurn ⟨r.arrived, n, r.op, r.block⟩ = true then v.memService (v.fn n) r.op r.block else none
            (run = none → Waits i s (v.modCtl (fun c => { c with svc := some r }))) ∧
            (run = some (st, done, t) →
              let t := t.modCtl (fun c => { c with svc := none })
              Completes i s ((if t.areaOk t.ctx true false r.addr 64 then t.fwAnswer t.ctx r.addr st done else t).setX 10 (BitVec.ofNat 64 st)))
          (u.hart.ctl.svc = none → u.areaOk u.ctx true true a 64 = false → Completes i s (u.setX 10 8)) ∧
          (u.hart.ctl.svc = none → u.areaOk u.ctx true true a 64 = true →
            let v := u.fwSettle u.ctx a 64
            serves { v with fwSeq := v.fwSeq + 1 } ⟨h, op, a, v.fwBlock v.ctx a, v.fwSeq⟩) ∧
          (∀ r, u.hart.ctl.svc = some r → serves u r)) ∧
        (guardOn h s = true → s.hart.copying = true ∨ s.unperformed = true → Waits (mk (.svc h)) s s) ∧
        (s.fn? n = some f → s.fwRuns = true → f.busy = true → f.mbox[0].toNat % 2 ^ 32 = op →
          let q : FwReq := ⟨f.arrived, f.num, op, f.mbox⟩
          (s.fwTurn q = false → ∃ e, exec (mk (.mbox n)) s = .refused (.cannotOccur e)) ∧
          (∀ t, s.fwTurn q = true → s.memService f op f.mbox = some (st, done, t) → exec (mk (.mbox n)) s = .next (t.mboxAnswer n st done)) ∧
          (s.fwTurn q = true → s.memService f op f.mbox = none → exec (mk (.mbox n)) s = .next s)) ∧
        (s.fn? n = none → ∃ e, exec (mk (.mbox n)) s = .refused (.cannotOccur e)) ∧
        (let r := reqOf w;
          (r.op ≠ op → s.memService f op w = some (8, 0, s)) ∧
          (r.op = op → r.rsv ≠ 0 ∨ (op ≠ 0x13 ∧ op ≠ 0x14 ∧ r.peer ≠ 0) ∨ (op ≠ 0x10 ∧ op ≠ 0x14 ∧ r.frame ≠ 0) →
            s.memService f op w = some (8, 0, s)) ∧
          (r.op = op → r.rsv = 0 → (op = 0x13 ∨ op = 0x14 ∨ r.peer = 0) → (op = 0x10 ∨ op = 0x14 ∨ r.frame = 0) →
            (r.va.toNat % r.size ≠ 0 ∨ r.count = 0 ∨ 65535 < r.count → s.memService f op w = some (1, 0, s)) ∧
            (r.check = 0 → s.reqPinned f r = false → op = 0x10 → s.memService f op w = some (pagesFrom (fun s i => s.mapPage f r i) r.count 0 s)) ∧
            (r.check = 0 → s.reqPinned f r = false → op = 0x11 → s.memService f op w = some (pagesFrom (fun s i => s.unmapPage f r i) r.count 0 s)) ∧
            (r.check = 0 → s.reqPinned f r = false → op = 0x12 → s.memService f op w = some (pagesFrom (fun s i => s.protectPage f r i) r.count 0 s)) ∧
            (r.check = 0 → s.reqPinned f r = false → op = 0x13 → s.memService f op w = some (pagesFrom (fun s i => s.offerPage f r i) r.count 0 s)) ∧
            (r.check = 0 → s.reqPinned f r = false → op = 0x14 → s.memService f op w = some (pagesFrom (fun s i => s.acceptPage f r i) r.count 0 s)) ∧
            (r.check = 0 → s.reqPinned f r = false → op = 0x15 → s.memService f op w = some (thawFrom f r r.count 0 s)) ∧
            (r.check = 0 → s.reqPinned f r = true → s.memService f op w = none)))) ∧
  (∀ (s t : State) (q e : FwReq) (h : Hart) (r : SvcRec) (n st done : Nat) (mk : Via → Instr),
      let req := reqOf q.block
      (s.fwTurn q = true ↔ ∀ e ∈ s.fwReqs, e.seq < q.seq → s.fwHeld e = true ∧ s.reqsMeet e q = false) ∧
      (q ∈ s.fwReqs ↔
        (∃ f ∈ s.fns, f.busy = true ∧ q = ⟨f.arrived, f.num, f.mbox[0].toNat % 2 ^ 32, f.mbox⟩) ∨
        (∃ h ∈ s.harts, ∃ r, h.ctl.svc = some r ∧ q = ⟨r.arrived, h.place.fn, r.op, r.block⟩) ∨
        (∃ f ∈ s.fns, ∃ r ∈ f.left, q = ⟨r.arrived, f.num, r.op, r.block⟩)) ∧
      (q.op < 0x16 → (s.fwHeld q = true ↔ req.op = q.op ∧ req.check = 0 ∧ s.reqPinned (s.fn q.fn) req = true)) ∧
      (let x := reqOf e.block;
        0x10 ≤ q.op → q.op ≤ 0x17 → 0x10 ≤ e.op → e.op ≤ 0x17 → (s.fn e.fn).ctx = (s.fn q.fn).ctx →
        x.va.toNat < req.va.toNat + req.count * req.size → req.va.toNat < x.va.toNat + x.count * x.size → s.reqsMeet e q = true) ∧
      (h.ctl.svc = none → s.serviceFor h = s) ∧
      (h.ctl.svc = some r → (mk, r.op) ∈ serviceTable → exec (mk (.svc r.h)) (s.turnTo h) = .next t → t.hart.dest = h.dest →
        (t.hart.ctl.svc = none → s.serviceFor h = t.modCtl (fun c => { c with phase := h.ctl.phase })) ∧
        (t.hart.ctl.svc ≠ none → s.serviceFor h = s)) ∧
      (let turn := s.fwTurn ⟨r.arrived, n, r.op, r.block⟩;
        (turn = false ∨ s.memService (s.fn n) r.op r.block = none → s.serveLeft n r = s) ∧
        (turn = true → s.memService (s.fn n) r.op r.block = some (st, done, t) →
          let z := t.modFn n (fun f => { f with left := f.left.erase r })
          s.serveLeft n r = if (classOf r.addr).isVirt = true ∧ z.areaOk (t.fn n).ctx false false r.addr 64 = true
            then z.fwAnswer (t.fn n).ctx r.addr st done else z))) ∧
  (∀ (s : State) (n : Nat) (f : Fn) (r : Req) (i : Nat),
      let va := r.pageVa i
      let fr := r.pageFrame i
      let st := homeStack f.ctx va
      let done := s.mapPage f r i
      classOf va = .virt → va.toNat % 2 ^ 16 = 0 → entSZ r.attr = false → fr < 2 ^ 36 → f.num < 128 →
      let frame := st * 2 ^ 20 + fr
      let owned := f.fbase[Fin.ofNat 12 st] ≤ fr ∧ fr + 1 ≤ f.fbase[Fin.ofNat 12 st] + f.fcount[Fin.ofNat 12 st]
      let room := chunksOf (entFMT r.attr) ≤ s.ms.pool[Fin.ofNat 12 st] ∧ s.frameGone frame = false
      (2 ^ 20 ≤ fr → done = .inl 4) ∧ (fr < 2 ^ 20 → ¬owned → done = .inl 3) ∧
      (fr < 2 ^ 20 → owned → s.pageTaken f.ctx va false = true → done = .inl 5) ∧
      (fr < 2 ^ 20 → owned → s.pageTaken f.ctx va false = false → ¬room → done = .inl 10) ∧
      (fr < 2 ^ 20 → owned → s.pageTaken f.ctx va false = false → room → entV r.attr = true → (s.fn f.num).pr.reqs = [] → s.canonical →
        (∀ x ∈ s.ms.entries, entV x.e = true) →
        ∃ t, done = .inr t ∧ t.hart = s.hart ∧ t.entryAt f.ctx va = (r.attr &&& ~~~(BitVec.ofNat 64 (2 ^ 44 - 1))) ||| BitVec.ofNat 64 (f.num * 2 ^ 37 + fr) ∧
          (∀ o, o < 2 ^ 17 → t.rawRead frame o 1 = [0]) ∧ (t.pmeta frame).state = 0 ∧ (t.pmeta frame).wgen = (s.pmeta frame).wgen + 1 ∧
          (∀ (c : BitVec 16) (a : Word), c ≠ f.ctx ∨ a.toNat / 2 ^ 16 ≠ va.toNat / 2 ^ 16 → t.entryAt c a = s.entryAt c a) ∧
          (∀ fr' o, fr' ≠ frame → o < 2 ^ 17 → t.rawRead fr' o 1 = s.rawRead fr' o 1))) ∧
  (∀ (s : State) (f : Fn) (r : Req) (i : Nat),
      let va := r.pageVa i
      let e := s.entryAt f.ctx va
      let fs := framesOf f.ctx va e
      let e' := protectEntry e r.attr
      let shared := ∃ x ∈ fs, s.acceptors f.num x ≠ []
      let all := fun (c : Nat) => s.unmapPage f r i = .inl c ∧ s.protectPage f r i = .inl c ∧ s.offerPage f r i = .inl c
      (entV e = false → all 6) ∧ (entV e = true → entSZ e ≠ entSZ r.attr → all 2) ∧
      (entV e = true → entSZ e = entSZ r.attr →
        (entOWN e ≠ f.num → s.protectPage f r i = .inl 3 ∧ s.offerPage f r i = .inl 3) ∧
        (entOWN e = f.num → shared → s.unmapPage f r i = .inl 9) ∧
        (entOWN e = f.num → entOk e' = false → s.protectPage f r i = .inl 2) ∧
        (entOWN e = f.num → entOk e' = true → entP e' = false → shared → s.protectPage f r i = .inl 9) ∧
        (entOWN e = f.num → s.offerPage f r i = .inr (s.modFn f.num (fun g => { g with offers := g.offers ++
          [⟨frameOf f.ctx va e 0, entSZ e, r.attr.extractLsb' 59 3, r.peer⟩] }))) ∧
        (va.toNat % r.size = 0 → entOWN e ≠ f.num ∨ ¬shared →
          (∀ x ∈ s.ms.entries, x.ctx = f.ctx → x.page / 32 = va.toNat / 2 ^ 21 → entSZ x.e = entSZ r.attr) →
          ∃ t, s.unmapPage f r i = .inr t ∧ entV (t.entryAt f.ctx va) = false ∧
            ∀ (c : BitVec 16) (a : Word), c ≠ f.ctx → entOWN e = f.num → t.entryAt c a = s.entryAt c a) ∧
        (va.toNat % r.size = 0 → entOWN e = f.num → entOk e' = true → entP e' = true ∨ ¬shared →
          ∃ t, s.protectPage f r i = .inr t ∧ t.entryAt f.ctx va = e' ∧
            ∀ (c : BitVec 16) (a : Word), c ≠ f.ctx → t.entryAt c a = s.entryAt c a)) ∧
      (∀ k, k < 64 → (protectEntry e r.attr).getLsbD k = if k ∈ [56, 59, 60, 61, 62] then r.attr.getLsbD k else e.getLsbD k)) ∧
  (∀ (s z : State) (f : Fn) (r : Req) (i n x : Nat) (xs : List Nat) (o : Offer) (t : TEntry) (one : State → Nat → Nat ⊕ State),
      let va := r.pageVa i
      let fr := r.pageFrame i
      let owner := s.fn r.peer
      let got := s.acceptPage f r i
      let fits := fun (o : Offer) => o.named (decide (classOf va = .sys)) fr = true ∧ o.sz = entSZ r.attr ∧ o.peer = f.num ∧
        ∀ k, k < 3 → r.attr.getLsbD (59 + k) = true → o.rwx.getLsbD k = true
      let homed := fun (o : Offer) => if classOf va = .sys then f.peermap.getLsbD (fr / 2 ^ 28) = true else o.frame / 2 ^ 20 = homeStack f.ctx va
      let maps := fun (t : TEntry) => t.ctx == owner.ctx && t.frame0 == o.frame && entSZ t.e == o.sz
      ((∀ o ∈ owner.offers, ¬fits o) → got = .inl 7) ∧
      ((∃ o ∈ owner.offers, fits o) → (∀ o ∈ owner.offers, fits o → ¬homed o) → got = .inl 4) ∧
      (∀ before after, owner.offers = before ++ o :: after → fits o → homed o → (∀ p ∈ before, ¬(fits p ∧ homed p)) →
        ((s.mappers o.frame).find? maps = none → got = .inl 7) ∧
        ((s.mappers o.frame).find? maps = some t → ∀ e : Word,
          (∀ k, k < 64 → e.getLsbD k = if k = 59 ∨ k = 60 ∨ k = 61 then r.attr.getLsbD k else t.e.getLsbD k || k == 54) →
          (s.pageTaken f.ctx va o.sz = true → got = .inl 5) ∧
          (s.pageTaken f.ctx va o.sz = false → entOk e = false → got = .inl 2) ∧
          (s.pageTaken f.ctx va o.sz = false → entOk e = true → f.ctx ≠ owner.ctx → va.toNat % r.size = 0 → t.va.toNat % r.size = 0 →
            ∃ w, got = .inr w ∧ w.entryAt f.ctx va = e ∧ w.entryAt owner.ctx t.va = t.e ||| BitVec.twoPow 64 54 ∧ w.ms.mem = s.ms.mem ∧
              (s.fn? owner.num = some owner → (w.fn owner.num).offers = owner.offers.erase o) ∧
              ∀ (c : BitVec 16) (a : Word), c ≠ f.ctx → c ≠ owner.ctx → w.entryAt c a = s.entryAt c a))) ∧
      (let e := s.entryAt f.ctx va
        let got := thawFrom f r (n + 1) i s
        (entV e = false ∨ entW e = false → got = (3, i, s)) ∧
        (entV e = true → entW e = true → entSZ e ≠ entSZ r.attr → got = (2, i, s)) ∧
        (entV e = true → entW e = true → entSZ e = entSZ r.attr → entFMT e ≠ 11 → got = (11, i, s)) ∧
        (entV e = true → entW e = true → entSZ e = entSZ r.attr → entFMT e = 11 →
          (thawAll (framesOf f.ctx va e) s = (false, z) → got = (10, i, z)) ∧
          (thawAll (framesOf f.ctx va e) s = (true, z) → got = thawFrom f r n (i + 1) z))) ∧
      thawFrom f r 0 i s = (0, i, s) ∧ thawAll [] s = (true, s) ∧
      (s.thawFrame x = none → thawAll (x :: xs) s = (false, s)) ∧ (s.thawFrame x = some z → thawAll (x :: xs) s = thawAll xs z) ∧
      pagesFrom one 0 i s = (0, i, s) ∧ (∀ c, one s i = .inl c → pagesFrom one (n + 1) i s = (c, i, s)) ∧
      (one s i = .inr z → pagesFrom one (n + 1) i s = pagesFrom one n (i + 1) z)) ∧
  (∀ (h : Hdr) (s : State), guardOn h s = true →
      let u := s.settleHart s.hart.dest
      let f := u.myFn
      let a := u.x 10
      let fills := fun (i : Instr) (ws : List Word) =>
        (s.hart.copying = true ∨ s.unperformed = true → Waits i s s) ∧
        (s.hart.copying = false → s.unperformed = false →
          (u.areaOk u.ctx true false a (8 * ws.length) = true → Completes i s ((u.fwWriteWords u.ctx a ws).setX 10 0)) ∧
          (u.areaOk u.ctx true false a (8 * ws.length) = false → Completes i s (u.setX 10 8)))
      fills (.svcPartition h) [f.part.extractLsb' 0 64, f.part.extractLsb' 64 64] ∧
      fills (.frames h) ((List.finRange 12).flatMap (fun i => [BitVec.ofNat 64 f.fbase[i], BitVec.ofNat 64 f.fcount[i]])))

/-- R68, R70, R112 to R117: a sweep visits the mapped frames of a stack; it begins a conversion on each that R113 allows when its turn comes,
which takes nine chunks and sets STATE 1, and leaves the state of the others; the AGE of every one advances. The order of the visits is the
model's choice (log entry 24). Further, a commit of a frame with a contribution pending applies it, which aborts the conversion, and
otherwise freezes the frame in its MX4 form and returns its sixteen chunks. THAW of a frozen frame needs sixteen chunks, and gives it back
in its writable form with its nine returned. -/
def Obligations.Gleaner : Prop :=
  ∀ (s : State) (stack : Fin 12) (frame : Nat), s.canonical →
    let m := s.pmeta frame
    let st := frameStack frame
    let fs := s.mappedFrames stack.val
    let pool := fun (t : State) (fr : Nat) => t.ms.pool[frameStack fr]
    (∀ fr, s.gleans fr = true ↔ ∃ t, s.ownerEntry fr = some t ∧ entP t.e = true ∧ entGL t.e = true ∧ entFMT t.e = 11 ∧
      (s.pmeta fr).fmtnow = 4 ∧ (s.pmeta fr).state = 0 ∧ (s.fn (entOWN t.e)).gleanage ≠ 0 ∧
      (s.fn (entOWN t.e)).gleanage.toNat ≤ (s.pmeta fr).age.toNat ∧ (s.fn (entOWN t.e)).migrating = false ∧ 9 ≤ pool s fr) ∧
    (∀ fr, (s.gleans fr = false → s.visit fr = s) ∧ (s.gleans fr = true →
      ((s.visit fr).pmeta fr).state = 1 ∧ pool (s.visit fr) fr = pool s fr - 9 ∧ ∀ x, x ≠ fr → (s.visit fr).pmeta x = s.pmeta x)) ∧
    (∃ t, exec (.gleanSweep stack) s = .next t ∧ s.memOnly t ∧
      (∀ before fr after, fs = before ++ fr :: after → (before.foldl State.visit s).gleans fr = true → (t.pmeta fr).state = 1) ∧
      (∀ before fr after, fs = before ++ fr :: after → (before.foldl State.visit s).gleans fr = false → (t.pmeta fr).state = (s.pmeta fr).state) ∧
      t.ms.pool[stack] + 9 * fs.countP (fun fr => (t.pmeta fr).state == 1 && (s.pmeta fr).state == 0) = s.ms.pool[stack] ∧
      (∀ fr, fr ∉ s.mappedFrames stack.val → t.pmeta fr = s.pmeta fr) ∧
      (∀ fr, fr ∈ s.mappedFrames stack.val → (t.pmeta fr).age = (if (s.pmeta fr).age = 255 then 255 else (s.pmeta fr).age + 1) ∧
        (s.gleans fr = false → (t.pmeta fr).state = (s.pmeta fr).state))) ∧
    (m.state ≠ 1 → exec (.conversionCommit frame) s = .refused (.cannotOccur "CONVERSION_COMMIT")) ∧
    (m.state = 1 → (∃ e ∈ s.ms.wq, e.frame = frame) → exec (.conversionCommit frame) s = .next (s.settleFrame frame)) ∧
    (m.state = 1 → (∀ e ∈ s.ms.wq, e.frame ≠ frame) → ∃ t, exec (.conversionCommit frame) s = .next t ∧ s.memOnly t ∧
      (t.pmeta frame).state = 2 ∧ (t.pmeta frame).fmtnow = 8 ∧ (t.pmeta frame).chunks = 9 ∧ (t.pmeta frame).wgen = m.wgen + 1 ∧
      t.ms.pool[st] = s.ms.pool[st] + 16) ∧
    (m.state ≠ 2 → s.thawFrame frame = some s) ∧ (m.state = 2 → s.ms.pool[st] < 16 → s.thawFrame frame = none) ∧
    (m.state = 2 → 16 ≤ s.ms.pool[st] → ∃ t, s.thawFrame frame = some t ∧ s.memOnly t ∧
      (t.pmeta frame).state = 0 ∧ (t.pmeta frame).fmtnow = 4 ∧ (t.pmeta frame).age = 0 ∧ t.ms.pool[st] = s.ms.pool[st] - 16 + m.chunks)

/-- R47, R362, R371: what the physical function assigns. Through any other mailbox, with a field that the operation does not use or outside its
range, or for a function that does not exist, each of the six operations answers BADREQ. WEIGHT, SETGLEAN, SETBUDGET set their value of the
function named by PEER; PARTITION gives it the furrows of a bitmap, and frees the credits of the cores that change hands, unless a furrow
that changes hands has a hart or is fenced off; while the block's turn has not come (R36) none of them takes place; QUOTA gives a stack's
range, or refuses; PEERSET its peer map. Each clears BUSY and writes STATUS. BADREQ where the firmware cannot read an area, and where
PARTITION cannot be done, is the model's choice (log entries 26 and 28). -/
def Obligations.Assignments : Prop :=
  ∀ (s u v : State) (f g : Fn) (n : Nat) (bm : BitVec 128) (bs : List Byte),
    let r := reqOf f.mbox
    let busy := fun (op : Nat) => s.fwRuns = true ∧ s.fn? n = some f ∧ f.busy = true ∧ f.mbox[0].toNat % 2 ^ 32 = op ∧
      s.fwTurn ⟨f.arrived, f.num, op, f.mbox⟩ = true
    let sets := fun (i : Instr) (s : State) (k : Fn → Fn) => exec i s = .next ((s.modFn r.peer k).mboxAnswer 0 0 0)
    let known := n = 0 ∧ r.rsv = 0 ∧ s.fn? r.peer = some g
    let plain := r.va = 0 ∧ r.attr = 0 ∧ r.frame = 0
    let area := r.count = 0 ∧ r.attr = 0 ∧ r.frame = 0
    let table : List (Instr × Nat × Prop) := [(.partition n, 0x40, area), (.quota n, 0x41, r.va = 0 ∧ r.attr.toNat < 12),
      (.weight n, 0x42, plain ∧ 1 ≤ r.count ∧ r.count ≤ 255), (.setglean n, 0x43, plain ∧ r.count ≤ 255), (.setbudget n, 0x44, plain),
      (.peerset n, 0x45, area)]
    let ctx := (s.fn 0).ctx
    let moved := fun (w : Nat) => ∃ x ∈ s.fns, if x.num = n then x.part.getLsbD w ≠ bm.getLsbD w else
      x.part.getLsbD w = true ∧ bm.getLsbD w = true
    (∀ (i : Instr) (op : Nat) (ok : Prop), (i, op, ok) ∈ table → s.fn? n = some f → s.fwTurn ⟨f.arrived, f.num, op, f.mbox⟩ = false →
      ∃ e, exec i s = .refused (.cannotOccur e)) ∧
    (∀ (i : Instr) (op : Nat) (ok : Prop), (i, op, ok) ∈ table → busy op →
      ¬(n = 0 ∧ r.rsv = 0 ∧ (s.fn? r.peer).isSome = true ∧ ok) → exec i s = .next (s.mboxAnswer n 8 0)) ∧
    (known →
      (busy 0x42 → plain → 1 ≤ r.count → r.count ≤ 255 → sets (.weight n) s (fun f => { f with weight := r.count })) ∧
      (busy 0x43 → plain → r.count ≤ 255 → sets (.setglean n) s (fun f => { f with gleanage := BitVec.ofNat 8 r.count })) ∧
      (busy 0x44 → plain → sets (.setbudget n) s (fun f => { f with budget := BitVec.ofNat 64 r.count })) ∧
      (busy 0x40 → area →
        (s.fwSpanOk ctx false r.va 16 = false → exec (.partition n) s = .next (s.mboxAnswer 0 8 0)) ∧
        (s.fwSpanOk ctx false r.va 16 = true → s.fwReadBytes ctx r.va 16 = (v, bs) →
          (v.assignFurrows r.peer (BitVec.ofNat 128 (leNat bs)) = none → exec (.partition n) s = .next (v.mboxAnswer 0 8 0)) ∧
          (v.assignFurrows r.peer (BitVec.ofNat 128 (leNat bs)) = some u → exec (.partition n) s = .next (u.mboxAnswer 0 0 0)))) ∧
      (busy 0x45 → area →
        (s.fwSpanOk ctx false r.va 32 = false → exec (.peerset n) s = .next (s.mboxAnswer 0 8 0)) ∧
        (s.fwSpanOk ctx false r.va 32 = true → s.fwReadBytes ctx r.va 32 = (v, bs) →
          sets (.peerset n) v (fun f => { f with peermap := BitVec.ofNat 256 (leNat bs) }))) ∧
      (busy 0x41 → r.va = 0 → r.attr.toNat < 12 →
        let st : Fin 12 := Fin.ofNat 12 r.attr.toNat
        let q := s.quota g st r.count
        let w := q.2
        exec (.quota n) s = .next (w.mboxAnswer 0 q.1 0) ∧
        (q.1 = 0 → (w.fn g.num).fcount[st] = r.count ∧ w = { s with fns := w.fns } ∧
          (g.fcount[st] < r.count → s.framesFree g.num st (w.fn g.num).fbase[st] r.count = true)) ∧
        (q.1 ≠ 0 → w = s) ∧
        (r.count < g.fcount[st] → s.mapsIn st (g.fbase[st] + r.count) (g.fbase[st] + g.fcount[st]) = true → q.1 = 5))) ∧
    ((∃ h ∈ s.harts, moved (furrowOf h.place.loc)) ∨ (∃ w ∈ s.dev.fencedFurrows, bm.getLsbD w.toNat = true) ↔ s.assignFurrows n bm = none) ∧
    (s.assignFurrows n bm = some u → u.ms = s.ms ∧ u.sched = s.sched ∧ u.hart.regs = s.hart.regs ∧ u.hart.csr = s.hart.csr ∧
      (∀ c, c ∈ u.cores.credits ↔ c ∈ s.cores.credits ∧ ¬moved (c.core / 8)) ∧
      ∀ x ∈ u.fns, if x.num = n then x.part = bm else x.part &&& bm = 0)

/-- R373 to R376: EXPORT and IMPORT take the pages of a range in order, an unmapped one giving UNMAPPED and one that they do not move NOEXPORT,
and ATTEST writes its report to an area that is raw, readable and writable. MIGRATE of a function with a page of another format fails with
NOEXPORT; else it notes the target and the counts of every page; each check then records the pages that changed, until few enough did, and
at last the function's harts are gone, its pages have left the device and are unmapped, and the block is answered. That a check is one step
and that 32 of them are made at most is the model's choice (log entry 27). R162, R372: the debugger. DBGATTACH and DBGDETACH set and clear
the function's DBG, and a detach lets its stopped harts go on. The other operations name a hart, and answer STATUS 14 where there is none,
or where it is not stopped but must be: DBGSTOP stops it, DBGRESUME lets it go on, with its progress pin taken again (R42), DBGRETIRE
retires it, DBGREAD writes its image to a raw area; the image shows the oldest iteration of a repeat that has not completed (R188). That
DBGSTOP first drains what the hart has in flight, and that DBGRETIRE waits for its tags, is the model's choice (log entry 29). -/
def Obligations.MailboxOperations : Prop :=
  (∀ (s : State) (f g : Fn) (n st done : Nat) (t v : State) (i : Nat) (nonce : List Byte),
      let r := reqOf f.mbox
      let busy := fun (op : Nat) => s.fwRuns = true ∧ s.fn? n = some f ∧ f.busy = true ∧ f.mbox[0].toNat % 2 ^ 32 = op ∧
        s.fwTurn ⟨f.arrived, f.num, op, f.mbox⟩ = true
      let fields := r.attr = 0 ∧ r.frame < 2 ^ 28 ∧ r.rsv = 0
      let e := s.entryAt (s.fn n).ctx (r.pageVa i)
      let body := v.report f nonce
      (busy 0x16 → fields → r.checkExport ≠ 0 → exec (.exportPages n) s = .next (s.mboxAnswer n r.checkExport 0)) ∧
      (busy 0x17 → fields → r.checkExport ≠ 0 → exec (.importPages n) s = .next (s.mboxAnswer n r.checkExport 0)) ∧
      (busy 0x16 → fields → r.checkExport = 0 → pagesFrom (fun s i => s.exportPage n r i) r.count 0 s = (st, done, t) →
        exec (.exportPages n) s = .next (t.mboxAnswer n st done)) ∧
      (busy 0x17 → fields → r.checkExport = 0 → pagesFrom (fun s i => s.importPage n r i) r.count 0 s = (st, done, t) →
        exec (.importPages n) s = .next ((if st = 13 then t.failImport n (r.pageVa done) else t).mboxAnswer n st done)) ∧
      (entV e = false → s.exportPage n r i = .inl 6 ∧ s.importPage n r i = .inl 6) ∧
      (entV e = true → entP e = false → s.exportPage n r i = .inl 12) ∧
      (entV e = true → entP e = true → s.importPage n r i = .inl 12) ∧
      (busy 0x18 → r.count = 0 → r.attr = 0 → r.frame = 0 → r.peer = 0 → r.rsv = 0 →
        (s.rawArea f.ctx true r.va = false → exec (.attest n) s = .next (s.mboxAnswer n 8 0)) ∧
        (s.rawArea f.ctx true r.va = true → s.fwReadBytes f.ctx r.va 32 = (v, nonce) → exec (.attest n) s =
          .next ((v.fwWriteSpan f.ctx r.va (body ++ leBytes 64 (Config.ed25519Sign body).toNat)).mboxAnswer n 0 0))) ∧
      (busy 0x46 →
        let ok := n = 0 ∧ r.va = 0 ∧ r.attr = 0 ∧ r.rsv = 0 ∧ r.frame % 2 ^ 28 = 0 ∧ r.frame / 2 ^ 28 ≠ 0 ∧ r.frame < 2 ^ 36 ∧
          s.fn? r.peer = some g
        (n ≠ 0 → exec (.migrate n) s = .next (s.mboxAnswer n 8 0)) ∧
        (ok → g.migrating = false → s.mayMigrate g = false → exec (.migrate n) s = .next (s.mboxAnswer 0 12 0)) ∧
        (ok → g.migrating = false → s.mayMigrate g = true →
          let u := ((s.fnFrames g).filter (fun x => s.frameOwner x == some g.num)).foldl State.abortConv s
          exec (.migrate n) s = .next (u.modFn r.peer (fun f => { f with
            migrating := true, quiesced := false, migTarget := r.frame / 2 ^ 28, migThreshold := r.count, migRounds := 0,
            migWgen := u.wgensOf (s.fnFrames g) })))) ∧
      (s.fn? n = some f →
        (f.migrating = false → exec (.migrationQuiesce n) s = .refused (.cannotOccur "MIGRATION_QUIESCE")) ∧
        (f.migrating = true → s.mayMigrate f = false → exec (.migrationQuiesce n) s = .next (s.failMigration n 12)) ∧
        (f.migrating = true → s.mayMigrate f = true → f.quiesced = false → f.migThreshold < (s.changedPages f).length → f.migRounds < 32 →
          ∃ w, exec (.migrationQuiesce n) s = .next w ∧ w = { s with fns := w.fns } ∧ (w.fn n).migRounds = f.migRounds + 1 ∧
            (w.fn n).migrating = true) ∧
        (f.migrating = true → s.mayMigrate f = true → f.quiesced = true ∨ (s.changedPages f).length ≤ f.migThreshold ∨ 32 ≤ f.migRounds →
          ((∃ l ∈ s.sched.launches, l.fn = n ∧ l.checkpoint = false) →
            exec (.migrationQuiesce n) s = .next (s.modFn n (fun f => { f with quiesced := true }))) ∧
          ((∀ l ∈ s.sched.launches, l.fn = n → l.checkpoint = true) →
            ∃ w, exec (.migrationQuiesce n) s = .next w ∧ (∀ h ∈ w.harts, h.place.fn ≠ n) ∧ (w.fn n).migrating = false ∧
              (w.fn n).quiesced = true ∧ (∀ x ∈ w.ms.entries, x.ctx ≠ f.ctx) ∧
              ∃ d, w.dev.departures = d :: s.dev.departures ∧ d.fn = n ∧ d.target = f.migTarget ∧ ∀ x ∈ d.metas, x.2.age = 0)))) ∧
  (∀ (s : State) (f : Fn) (n c : Nat) (h : Hart),
      let r := reqOf f.mbox
      let busy := fun (op : Nat) => s.fwRuns = true ∧ s.fn? n = some f ∧ f.busy = true ∧ f.mbox[0].toNat % 2 ^ 32 = op ∧
        s.fwTurn ⟨f.arrived, f.num, op, f.mbox⟩ = true
      let ops : List (Instr × Nat) := [(.dbgstop n, 0x1B), (.dbgresume n, 0x1C), (.dbgretire n, 0x1D), (.dbgread n, 0x1E)]
      let empty := r.va = 0 ∧ r.count = 0 ∧ r.attr = 0 ∧ r.frame = 0 ∧ r.peer = 0 ∧ r.rsv = 0
      let named := r.va.toNat < 4096 ∧ r.count = 0 ∧ r.attr = 0 ∧ r.peer = 0 ∧ r.rsv = 0
      let answers := fun (i : Instr) (t : State) (st : Nat) => exec i s = .next (t.mboxAnswer n st 0)
      (busy 0x19 → empty → answers (.dbgattach n) (s.modFn n (fun f => { f with dbg := true })) 0) ∧
      (busy 0x19 → ¬empty → answers (.dbgattach n) s 8) ∧
      (busy 0x1A → empty → ∃ t, exec (.dbgdetach n) s = .next t ∧ (t.fn n).dbg = false ∧
        (∀ g ∈ t.harts, g.place.fn = n → g.stopCause = none) ∧ t.hart.regs = s.hart.regs ∧ t.ms.mem = s.ms.mem ∧ t.ms.entries = s.ms.entries) ∧
      (∀ i op, (i, op) ∈ ops → busy op → named → r.frame = 0 → s.dbgHart n r.va = none → answers i s 14) ∧
      (named → s.dbgHart n r.va = some h →
        (busy 0x1B → r.frame = 0 → (f.dbg = false → answers (.dbgstop n) s 14) ∧
          (f.dbg = true → h.stopCause = some c → answers (.dbgstop n) s 0) ∧
          (f.dbg = true → h.stopCause = none → answers (.dbgstop n) (s.dbgStopHart n h) 0)) ∧
        (busy 0x1C → r.frame = 0 → (h.stopCause = none → answers (.dbgresume n) s 14) ∧
          (h.stopCause = some c →
            let t := s.modAt h.dest Hart.dbgContinue
            answers (.dbgresume n) (if h.resident = true then t.retakePin h.dest else t) 0)) ∧
        (busy 0x1D → r.frame = 0 → (h.stopCause = none → s.hartAt h.dest = some h → answers (.dbgretire n) s 14) ∧
          (h.stopCause = some c → (∀ t : Fin 64, h.ctl.tags[t].st ≠ .busy) → s.hartAt h.dest = some h → s.drainCopies h.place.loc = s →
            answers (.dbgretire n) ((s.settleHart h.dest).retireHart h.dest) 0)) ∧
        (busy 0x1E → (h.stopCause = none → answers (.dbgread n) s 14) ∧
          (h.stopCause = some c →
            let a : Word := BitVec.ofNat 64 r.frame
            (a.toNat % 8 ≠ 0 ∨ s.rawArea f.ctx false a = false → answers (.dbgread n) s 8) ∧
            (a.toNat % 8 = 0 → s.rawArea f.ctx false a = true → answers (.dbgread n)
              { (s.fwWriteWords f.ctx a (s.dbgImage h c)) with fresh := s.fresh + 1 } 0)))) ∧
      (∀ k, k = s.dbgImage h c → k.length = 64 ∧
        ((∀ x ∈ h.ctl.reissue, x.iter = none) → k[0]? = some h.ctl.pc ∧ k[38]? = some h.csr.rpc) ∧
        (∀ a x b i, h.ctl.reissue = a ++ x :: b → (∀ y ∈ a, y.iter = none) → x.iter = some i →
          k[0]? = some x.pc ∧ k[38]? = some (BitVec.ofNat 64 i.2))) ∧
      (∀ (d : Dest) (g : Hart), s.hartAt d = some g →
        (g.ctl.pinAt = none → s.retakePin d = s) ∧ (∀ a, g.ctl.pinAt = some a → s.retakePin d = s.takePin g a)))

/-- R367, R370, R373: requests of the host and of peers. A request at a BAR2 offset reaches APBASE plus that offset; the first refusal that
applies decides what becomes of it, and a function that has left for another device refuses all. What may be read is read through the byte
view and answered as data, and a refused read with an abort or poisoned data. What may be written is written through the byte view; a
refused write changes nothing but the events of the function, which get a REFUSED event with the cause and the address, one for the part of
the request on one page. A peer's atomic reads and writes its line in one step; a peer's merging add joins the line's entry, combines into
the whole block of 32 bytes that holds it, and so is never refused with PARTIAL_BLOCK (R105); one that the page's format does not take is
refused with FORMAT. The model's choice: FORMAT before the permissions, the first refused frame for its page, and an atomic that needs what
a read and a write need (log 32). R363, R365, R368, R369, R371: host writes of BAR0 registers. QTAIL appends records, is ignored where only
LAUNCH appends, and stops the queue with code 7 where the value is out of reach. EN starts the queue empty only where QSIZE and QBASE are
permitted, and a QCTL write that sets EN where they are not changes nothing; RESTART clears STOPPED, and SKIP also drops the head record;
copies that no longer count are released. The model's choice: QTAIL is ignored while EN is 0, and DEVFED comes before RESTART with SKIP and
EN last (log 23). PRTAIL, EVTAIL and PRREFUSE act on the rings. A block word is written only while BUSY is clear, QBASE and QSIZE only while
EN is clear, and an offset that names no register changes nothing. -/
def Obligations.HostInterface : Prop :=
  (∀ (s : State) (f : Fn) (n : Nat) (off : BitVec 36) (va : Word) (len : Nat) (bs : List Byte) (tg : BitVec 8) (peer write : Bool) (c : Cause)
      (src k : Nat) (word : Bool) (op : AmoOp) (b d v : Word) (kind : MergeKind) (nib : Nat) (vr : Bool),
      let e := s.entryAt f.ctx va
      let p := pageOf f.ctx va e
      let st := (s.pmeta p.frame).state
      let narrow := 6 ≤ entFMT e ∧ entFMT e ≤ 10
      let link := tg ≠ 0 ∧ tg ∉ s.dev.linksDown
      let fateIs := fun (write : Bool) (x : ReqFate) => s.fate f peer write va len = x
      let allowed := classOf va = .virt ∧ entV e = true ∧ (if write then entW e else entR e) = true ∧ ¬narrow ∧ entENC e = false ∧ (f.quiesced = false ∨ f.migrating = true)
      let whole := va.toNat % 32 = 0 ∧ len % 32 = 0
      let inFrame := 0 < len ∧ va.toNat % 65536 + len ≤ 65536
      let bytes := if word then 4 else 8
      let t := s.settle p.frame p.off bytes
      let old := t.viewRead p bytes
      let blk := va &&& ~~~31#64
      let answer := fun (s : State) (r : ReadCpl) => s.modFn n (fun f => { f with cpl := r })
      let fits := (match kind with
        | .int _ => entFMT e = 0
        | .raw _ => entFMT e = 0
        | .page fmt => entFMT e = fmt) ∧ (vr = true → entRC e = true)
      s.fn? n = some f →
      (0 < len → off.toNat % 4096 + len ≤ 4096 →
        exec (.hostRead n off len) s = .next (s.readReq n false (f.apbase + off.setWidth 64) len) ∧
        (bs.length = len → exec (.hostWrite n off bs) s = .next (State.writeParts n 0 2 s (f.apbase + off.setWidth 64) bs))) ∧
      (link → exec (.peerAccess tg n (.read va len)) s = .next (s.readReq n true va len) ∧
        exec (.peerAccess tg n (.write va bs)) s = .next (State.writeParts n tg.toNat (bs.length + 1) s va bs) ∧
        (va.toNat % bytes = 0 → ∃ u, exec (.peerAccess tg n (.atomic va word op b d)) s = .next u ∧
          (s.fate f true false va bytes = .perform → s.fate f true true va bytes = .perform →
            u = answer (match amoNew op (8 * bytes) (leNat old) b.toNat d.toNat with
              | some x => (t.settle p.frame p.off bytes).viewWrite p (leBytes bytes x)
              | none => t) (.data old)) ∧
          (s.fate f true false va bytes = .abort c →
            u = answer (s.postEvent n ⟨4, c.code.toNat, tg.toNat, va, 0, 0⟩) .abort) ∧
          (s.fate f true false va bytes = .perform → s.fate f true true va bytes = .abort c →
            u = answer (s.postEvent n ⟨4, c.code.toNat, tg.toNat, va, 0, 0⟩) .abort)) ∧
        (∃ u, exec (.peerAccess tg n (.merge kind [(va, nib, v)] vr)) s = .next u ∧
          (s.fate f true true blk 32 = .perform → fits →
            u = s.mergeArrive ⟨p.frame, p.off, nib, if entRC e then entRow e else 0, kind, v, none, vr⟩) ∧
          (s.fate f true true blk 32 = .perform → ¬fits → u = s.postEvent n ⟨4, Cause.format.code.toNat, tg.toNat, va, 0, 0⟩) ∧
          (s.fate f true true blk 32 = .abort c → u = s.postEvent n ⟨4, c.code.toNat, tg.toNat, va, 0, 0⟩) ∧
          s.fate f true true blk 32 ≠ .abort .partialBlock)) ∧
      (¬(allowed) → fateIs write (.abort (if entV e = true ∧ classOf va = .virt ∧ narrow then .format else .protect))) ∧
      (allowed → entP e = false → (peer = true ∨ write = false) → fateIs write (.abort .absent)) ∧
      (allowed → (entP e = true ∨ (peer = false ∧ write = true)) →
        (st = 3 → fateIs write (if write then .abort .integrity else .poisoned)) ∧
        (st ≠ 3 → write = false → fateIs false .perform) ∧
        (write = true → st = 2 → fateIs true (.abort .frozen)) ∧
        (write = true → st ≠ 2 → st ≠ 3 → fateIs true (if entFMT e = 11 ∧ ¬whole then .abort .partialBlock else .perform))) ∧
      (inFrame → (fateIs false .perform → s.readReq n peer va len =
          (s.settle p.frame p.off len).modFn n (fun f => { f with cpl := .data ((s.settle p.frame p.off len).viewRead p len) })) ∧
        (fateIs false .poisoned → s.readReq n peer va len = s.modFn n (fun f => { f with cpl := .poisoned })) ∧
        (fateIs false (.abort c) → s.readReq n peer va len = s.modFn n (fun f => { f with cpl := .abort }))) ∧
      (0 < len → len ≤ s.toPageEnd f va → bs.length = len → peer = (src != 0) →
        ∀ i, (hi : i < (framePieces 64 va len).length) →
          let piece := fun (j : Nat) (hj : j < (framePieces 64 va len).length) => s.fate f peer true (framePieces 64 va len)[j].1 (framePieces 64 va len)[j].2
          (∀ j (hj : j < i), piece j (by omega) = .perform) → piece i hi = .abort c →
          State.writeParts n src (k + 1) s va bs = s.postEvent n ⟨4, c.code.toNat, src, va, 0, 0⟩) ∧
      (inFrame → bs.length = len → peer = (src != 0) →
        (fateIs true .perform → State.writeParts n src (k + 1) s va bs = (s.settle p.frame p.off len).viewWrite p bs) ∧
        (fateIs true (.abort c) → State.writeParts n src (k + 1) s va bs = s.postEvent n ⟨4, c.code.toNat, src, va, 0, 0⟩))) ∧
  (∀ (s : State) (f : Fn) (n : Nat) (q : Fin 16) (t v : BitVec 32) (w : Word) (off : BitVec 16) (k : Fin 8),
      let x := f.queues[q]
      let sizes := fun (z : Word) => ∃ k, 1 ≤ k ∧ k ≤ 16 ∧ z.toNat = 2 ^ k
      let reach := (t - x.head).toNat ≤ x.size.toNat ∧ (x.tail - x.head).toNat ≤ (t - x.head).toNat
      let makes := fun (i : Instr) (y : Queue) => exec i s = .next (s.modQueue n q (fun _ => y))
      let mends := fun (i : Instr) (y : Queue) => exec i s = .next ((s.modQueue n q (fun _ => y)).trimCopies n q)
      let may := x.en = true ∨ (sizes x.size ∧ x.base.toNat % 64 = 0)
      let fed := s.modQueue n q (fun x => { x with devfed := w.getLsbD 1 })
      let wr := fun (o : Nat) (w : Word) => exec (.registerWrite n (BitVec.ofNat 16 o) w) s
      let of := fun (o : Nat) => 0x1000 + 0x40 * q.val + o
      s.fn? n = some f →
      (x.devfed = true ∨ x.en = false → exec (.qtailDoorbell n q t) s = .next s) ∧
      (x.devfed = false → x.en = true →
        (reach → makes (.qtailDoorbell n q t) { x with tail := t }) ∧
        (¬reach → x.stopped = false → exec (.qtailDoorbell n q t) s = .next (s.stopQueue n q 7 x.head)) ∧
        (¬reach → x.stopped = true → exec (.qtailDoorbell n q t) s = .next s)) ∧
      (x.en = false → sizes x.size → x.base.toNat % 64 = 0 → ∃ y, mends (.queueEnable n q) y ∧ y.en = true ∧ y.head = 0 ∧ y.tail = 0 ∧
        y.base = x.base ∧ y.size = x.size ∧ y.devfed = x.devfed ∧ y.stopped = x.stopped ∧ y.fence = none ∧ y.headRec = none) ∧
      (x.en = true ∨ ¬sizes x.size ∨ x.base.toNat % 64 ≠ 0 → mends (.queueEnable n q) x) ∧
      (∃ y, makes (.queueDisable n q) y ∧ y.en = false ∧ y.head = x.head ∧ y.tail = x.tail ∧ y.stopped = x.stopped ∧ y.base = x.base ∧
        y.size = x.size ∧ y.devfed = x.devfed) ∧
      (∃ y, mends (.restart n q) y ∧ y.stopped = false ∧ y.head = x.head ∧ y.tail = x.tail ∧ y.en = x.en ∧ y.base = x.base ∧ y.size = x.size) ∧
      (∃ y, mends (.skip n q) y ∧ y.stopped = false ∧ y.head = (if x.head = x.tail then x.head else x.head + 1) ∧ y.tail = x.tail ∧
        y.en = x.en) ∧
      exec (.prtailWrite n v) s = .next ((s.modFn n (fun f => { f with pr := { f.pr with tail := v } })).flushReqs n) ∧
      exec (.evtailWrite n v) s = .next ((s.modFn n (fun f => { f with ev := { f.ev with tail := v } })).flushEvents n) ∧
      exec (.prrefuse n w) s = .next (s.endPageReq n w (some Cause.absent.code)) ∧
      wr (0x2000 + 8 * k.val) w = .next (if f.busy then s else s.modFn n (fun f => { f with mbox := f.mbox.set k w })) ∧
      (f.busy = true → wr 0x2040 w = .next s) ∧
      (f.busy = false → mailboxOp (f.mbox[0].toNat % 2 ^ 32) = true → wr 0x2040 w = .next
        { (s.modFn n (fun f => { f with busy := true, arrived := s.fwSeq })) with fwSeq := s.fwSeq + 1 }) ∧
      (f.busy = false → mailboxOp (f.mbox[0].toNat % 2 ^ 32) = false → wr 0x2040 w = .next (s.mboxAnswer n 8 0)) ∧
      (w.toNat % 2 ^ 21 = 0 → w.toNat < 0x00F0000000000000 → wr 0x10 w = .next (s.modFn n (fun f => { f with apbase := w }))) ∧
      (x.en = true → wr (of 0) w = .next s ∧ wr (of 8) w = .next s) ∧
      (x.en = false → wr (of 0) w = .next (s.modQueue n q (fun x => { x with base := w })) ∧
        wr (of 8) w = .next (s.modQueue n q (fun x => { x with size := w }))) ∧
      wr (of 0x10) w = exec (.qtailDoorbell n q (w.setWidth 32)) s ∧
      wr (of 0x18) w = .next s ∧ wr (of 0x28) w = .next s ∧
      (w.getLsbD 0 = true → ¬may → wr (of 0x20) w = .next s) ∧
      (w.getLsbD 0 = true → may → wr (of 0x20) w =
        .next ((if w.getLsbD 2 then fed.restartQueue n q (w.getLsbD 3) else fed).enableQueue n q)) ∧
      (w.getLsbD 0 = false → wr (of 0x20) w =
        .next ((if w.getLsbD 2 then fed.restartQueue n q (w.getLsbD 3) else fed).disableQueue n q)) ∧
      wr 0x3018 w = exec (.prtailWrite n (w.setWidth 32)) s ∧ wr 0x3118 w = exec (.evtailWrite n (w.setWidth 32)) s ∧
      wr 0x3020 w = exec (.prrefuse n w) s ∧
      (off.toNat < 0x1000 → off ≠ 0x10 → exec (.registerWrite n off w) s = .next s) ∧
      (0x3120 ≤ off.toNat → exec (.registerWrite n off w) s = .next s))

/-- R28, R118, R362, R364, R370, R375: what happens to the device. A fetch brings the words at the pc into the cache; a link goes down or comes
up, and functions are told; the host link trains; the boot ROM accepts the loader and the firmware, which maps the furrows (R11), or the
device stays in recovery; a function is created with registers of zero by a firmware that runs; a reset clears the functions, harts and
entries. The model's choice: a fetch faults when nothing older is in flight and keeps the words it has read (log 33), LINK events go to
function 0 too and the limit of a monitor is noted (log 30), which furrows the firmware maps (log 36), what a device reset keeps (log 31),
and stack bytes that read zero after it (log 3). R11, R25, R377 to R379: errors and failures. An error in a stack poisons the page on the
frame; one in a core's memories resets the owner's partition with cause INTEGRITY. A failing furrow also resets it, and then the field's
spare takes its number, or it leaves the partition with a CAPACITY event. A failing pseudo-channel is replaced unseen while its stack has
spares; with none left, the frames of its class of twelve are withdrawn, and the pages of a function on them are poisoned. The last spare of
a class sets REPLACE_REQUESTED. The model's choice: an error on a frame without an owner changes nothing, and the order of these events (log
30). -/
def Obligations.DeviceEvents : Prop :=
  (∀ (s : State) (f : Fn) (n : Nat) (tg : BitVec 8) (gen width : Nat) (img : BootImages) (ctx : BitVec 16) (ws : List Word) (t : State)
      (tr : Trap) (dom : ClockDomain) (a : Word),
      let e := s.entryAt s.ctx a
      let d := s.dev
      let ok := fun (b g : List Byte) (v : Nat) => Config.ed25519Verify b g = true ∧ Config.fusedVersion ≤ v
      let mayFetch := (classOf a).isVirt = true ∧ entV e = true ∧ entX e = true ∧ entFMT e = 0 ∧ s.linkLost a e = false
      let idle := s.hart.ctl.window = [] ∧ s.hart.ctl.stores = []
      let linksIs := fun (ls : List (BitVec 8)) (u : State) => u.dev = { d with linksDown := ls } ∧ u.hart = s.hart ∧ u.parked = s.parked
      (s.hart.resident = true →
        (s.fetch = .ok (ws, t) → exec .instructionFetch s = .next t ∧ t.hart = s.hart ∧ 1 ≤ ws.length ∧ ws.length ≤ 3 ∧
          ∀ j (h : j < ws.length), t.cached (s.hart.ctl.pc + BitVec.ofNat 64 (8 * j)) = some ws[j]) ∧
        (s.fetch = .error (tr, t) → idle → exec .instructionFetch s = .next (t.deliverEarly tr))) ∧
      (s.cached a = none →
        (¬mayFetch → s.fillWord a = .error (trapOf .protect a)) ∧
        (mayFetch → entP e = false → s.fillWord a = .error (trapOf .absent a)) ∧
        (mayFetch → entP e = true → s.hostRefused a e false = true → s.fillWord a = .error (trapOf .protect a)) ∧
        (mayFetch → entP e = true → s.hostRefused a e false = false → (s.pmeta (pageOf s.ctx a e).frame).state = 3 → s.fillWord a = .error (trapOf .integrity a)) ∧
        (mayFetch → entP e = true → s.hostRefused a e false = false → (s.pmeta (pageOf s.ctx a e).frame).state ≠ 3 → ∃ u, s.fillWord a = .ok u ∧ u.hart = s.hart ∧
          u.cached a = some (BitVec.ofNat 64 ((s.settle (pageOf s.ctx a e).frame (pageOf s.ctx a e).off 8).rawNat
            (pageOf s.ctx a e).frame (pageOf s.ctx a e).off 8)))) ∧
      (tg ≠ 0 → tg ∉ d.linksDown → ∃ u, exec (.linkDown tg) s = .next u ∧ linksIs (tg :: d.linksDown) u ∧
        (s.fns = [f] → (f.num = 0 ∨ f.peermap.getLsbD tg.toNat = true) →
          u = (s.modDev (fun d => { d with linksDown := tg :: d.linksDown })).postEvent f.num ⟨7, 0, tg.toNat, 0, 0, 0⟩)) ∧
      (tg ∈ d.linksDown → ∃ u, exec (.linkUp tg) s = .next u ∧ linksIs (d.linksDown.filter (· != tg)) u ∧
        (s.fns = [f] → (f.num = 0 ∨ f.peermap.getLsbD tg.toNat = true) →
          u = (s.modDev (fun d => { d with linksDown := d.linksDown.filter (· != tg) })).postEvent f.num ⟨7, 1, tg.toNat, 0, 0, 0⟩)) ∧
      (1 ≤ gen → gen ≤ 7 → width ∈ [1, 2, 4, 8, 16] → exec (.hostLinkTraining gen width) s = .next { s with dev := { d with
        hostGen := gen, hostWidth := width } }) ∧
      (d.booted = false →
        (¬ok img.loader img.loaderSig img.loaderVer → exec (.boot img) s = .next { s with dev := { d with recovery := true } }) ∧
        (ok img.loader img.loaderSig img.loaderVer → ok img.fw img.fwSig img.fwVer → ∃ fm, exec (.boot img) s = .next { s with dev := { d with
          measLoader := Config.sha512 img.loader, measFw := Config.sha512 img.fw, booted := true, recovery := false, furrowMap := fm } } ∧
          ∀ i : Fin 128, (d.furrowMap[i] ≠ none → fm[i] = d.furrowMap[i]) ∧ (d.furrowMap[i] = none →
            fm[i] = if BitVec.ofNat 7 i.val ∈ d.fencedFurrows then none else some (Fin.ofNat 17 (i.val % 16)))) ∧
        (ok img.loader img.loaderSig img.loaderVer → ¬ok img.fw img.fwSig img.fwVer → exec (.boot img) s = .next { s with dev := { d with
          measLoader := Config.sha512 img.loader, recovery := true } })) ∧
      (d.recovery = true ∨ d.booted = false → s.fnReady f = false ∧ s.fwRuns = false ∧ s.mailboxStep f = []) ∧
      (exec (.monitorLimit dom) s = .next { s with dev := { d with
        lowered := if dom ∈ d.lowered then d.lowered else dom :: d.lowered } }) ∧
      (s.fwRuns = true → n ≤ 64 → (∀ g ∈ s.fns, g.num ≠ n ∧ g.ctx ≠ ctx) → exec (.functionCreation n ctx) s = .next { s with fns := s.fns ++ [Fn.created n ctx] } ∧
        ∀ q : Fin 16, (Fn.created n ctx).queues[q] = Queue.reset ∧ Queue.reset.base = 0 ∧ Queue.reset.size = 0 ∧ Queue.reset.tail = 0 ∧
          Queue.reset.head = 0 ∧ Queue.reset.en = false ∧ Queue.reset.devfed = false ∧ Queue.reset.stopped = false) ∧
      ∃ u, exec .deviceReset s = .next u ∧ u.fns = [] ∧ u.harts = [] ∧ u.ms.entries = [] ∧ u.ms.metas = [] ∧ u.ms.wq = [] ∧
        u.sched = State.reset.sched ∧ u.cores = State.reset.cores ∧ u.dev.booted = false ∧ u.dev.furrowMap = d.furrowMap ∧
        u.dev.spareFurrow = d.spareFurrow ∧ u.dev.sparePc = d.sparePc ∧ u.dev.replaceReq = d.replaceReq ∧
        ∀ k, Memory.get u.ms.mem k = if k < keyOf (2 ^ 24) 0 then 0 else Memory.get s.ms.mem k) ∧
  (∀ (s : State) (f : Fn) (st : Fin 12) (ch : Fin 384) (fr k : Nat) (core : BitVec 10) (u : BitVec 7) (e : TEntry),
      let field : Fin 8 := Fin.ofNat 8 (u.toNat / 16)
      (fr < 2 ^ 20 →
        (s.ownerEntry (st.val * 2 ^ 20 + fr) = none → exec (.hbmUncorrectableError st fr) s = .next s) ∧
        (s.ownerEntry (st.val * 2 ^ 20 + fr) = some e → ∃ t, exec (.hbmUncorrectableError st fr) s = .next t ∧ t = s.poisonPage e ∧
          (k < entFrames e.e → isStackFrame (e.frame0 + k) = true → ((((List.range (entFrames e.e)).map (e.frame0 + ·)).foldl State.poisonFrame s).pmeta (e.frame0 + k)).state = 3) ∧
          t = (((List.range (entFrames e.e)).map (e.frame0 + ·)).foldl State.poisonFrame s).postEvent (entOWN e.e) ⟨6, 0, 0, e.va, 0, 0⟩)) ∧
      (s.furrowOwner (core.toNat / 8) = none → exec (.coreUncorrectableError core) s = .next s) ∧
      (s.furrowOwner (core.toNat / 8) = some f → ∃ l pc, exec (.coreUncorrectableError core) s =
        .next (s.resetPartition f.num .integrity 0 l pc)) ∧
      (u ∉ s.dev.fencedFurrows →
        ∃ w, (match s.furrowOwner u.toNat with
          | some f => ∃ l pc, w = s.resetPartition f.num .integrity 0 l pc
          | none => w = s) ∧
        (s.dev.spareFurrow[field] = true → ∃ t, exec (.furrowFailure u) s = .next t ∧
          t = { w with dev := { w.dev with
            replaceReq := true, furrowMap := w.dev.furrowMap.set u.toNat (some 16) u.isLt, spareFurrow := w.dev.spareFurrow.set field false } }) ∧
        (s.dev.spareFurrow[field] = false →
          let v := { w with dev := { w.dev with
            replaceReq := true, furrowMap := w.dev.furrowMap.set u.toNat none u.isLt, fencedFurrows := u :: w.dev.fencedFurrows } }
          (s.furrowOwner u.toNat = none → exec (.furrowFailure u) s = .next v) ∧
          (s.furrowOwner u.toNat = some f → exec (.furrowFailure u) s =
            .next ((v.modFn f.num (fun f => { f with part := f.part &&& ~~~(BitVec.twoPow 128 u.toNat) })).postEvent f.num
              ⟨5, 1, 0, BitVec.ofNat 64 u.toNat, 0, 0⟩)))) ∧
      ((st.val, ch.val) ∉ s.dev.fencedPcs →
        (s.dev.sparePc[st] ≠ 0 → exec (.pseudoChannelFailure st ch) s = .next { s with dev := { s.dev with
          sparePc := s.dev.sparePc.set st (s.dev.sparePc[st] - 1), replaceReq := s.dev.replaceReq || s.dev.sparePc[st] == 1 } }) ∧
        (s.dev.sparePc[st] = 0 → ∃ t, exec (.pseudoChannelFailure st ch) s = .next t ∧ t.dev.fencedPcs = (st.val, ch.val) :: s.dev.fencedPcs ∧
          t.hart = s.hart ∧ t.parked = s.parked ∧
          (fr < 2 ^ 20 → s.dev.fencedPcs = [] → (t.frameGone (st.val * 2 ^ 20 + fr) = true ↔ fr % 12 = ch.val / 32)) ∧
          (s.ms.entries = [e] → entV e.e = true → e.ctx = (s.fn (entOWN e.e)).ctx → k < entFrames e.e → isStackFrame (e.frame0 + k) = true →
            (e.frame0 + k) / 2 ^ 20 = st.val → (e.frame0 + k) % 2 ^ 20 % 12 = ch.val / 32 → (t.pmeta (e.frame0 + k)).state = 3))) ∧
      (∀ h ∈ (s.resetPartition f.num .integrity 0 (BitVec.ofNat 12 k) 0).harts, h.place.fn ≠ f.num))

/-- R167 to R193: decoding what the encoder writes gives the instruction back, for every well-formed instruction that has words. A repeat
carries its F-word as bits, so `fits` asks that those bits decode. -/
def Obligations.RoundTrip : Prop :=
  ∀ i : Instr, wellFormed i = true → encode i ≠ [] → fits i → decode 4 (encode i) = .ok i

/-- R170 to R187, R195: words written out from the spec's encodings decode to the instructions they stand for; among them the two that R195
works. -/
def Obligations.DecodedWords : Prop :=
  decode 4 [0x1802000020003F80] = .ok (.vfadd ⟨0, false⟩ 0 ⟨0, true⟩ (.imm (.short 0x3F80)) 0) ∧
  decode 4 [0x10292041E2000000] = .ok (.vadd ⟨2, true⟩ 8 ⟨4, true⟩ (.x 7) 1) ∧
  decode 4 [0x083200000000FFF9] = .ok (.br ⟨3, false⟩ (.short 0xFFF9)) ∧
  decode 4 [0x050024C20002000C] = .ok (.amocas ⟨0, false⟩ 9 12 8 ⟨false, false, true, .dev⟩) ∧
  decode 4 [0x300004004005002C] = .ok (.gcsleep ⟨0, false⟩ 1 ⟨0, false⟩ ⟨1, false⟩ 0 .dev true true) ∧
  decode 4 [0x340060B002030060] = .ok (.plcpy ⟨0, false⟩ 24 11 0 1 0 0 false 3) ∧
  decode 4 [0x4130E0001A880000] = .ok (.pairWord (.salu .add 6 (.reg 7)) (.bdec 8 0)) ∧
  decode 4 [0x10292041F2000000] = .bad .chain ∧
  decode 4 [0xFE00000000004000] = .bad .lword

/-- R29, R68, R362: after reset no function exists, no hart has started, every translation entry and page record is zero. The model's choice:
every stack's pool is whole, every link is up, the device is neither booted nor in recovery and no furrow is mapped (log 1, 7, 36), every
byte reads as zero (log 3), and the lanes' next turns are free (log 40). -/
def Obligations.ResetState : Prop :=
  let s := State.reset
  s.fns = [] ∧ s.harts = [] ∧ s.hart.ctl.phase = .absent ∧ s.agenda = [] ∧ s.cyc = 0 ∧ s.fwSeq = 0 ∧ s.sched.launches = [] ∧ s.sched.crews = [] ∧
    s.dev.booted = false ∧ s.dev.recovery = false ∧ s.dev.linksDown = [] ∧ s.ms.wq = [] ∧ s.canonical ∧ s.pace = [] ∧ s.issued = [] ∧
    s.hart.ctl.window = [] ∧ s.hart.ctl.stores = [] ∧ s.cores.net = [] ∧ s.fwRuns = false ∧
    (∀ i : Fin 128, s.dev.furrowMap[i] = none) ∧
    (∀ ctx va, s.entryAt ctx va = 0) ∧ (∀ fr, s.pmeta fr = PageMeta.reset) ∧ (∀ k, Memory.get s.ms.mem k = 0) ∧
    (∀ st : Fin 12, s.ms.pool[st] = Config.poolChunks) ∧ ∀ n, s.fn? n = none

/-- A step runs the decoded instruction. Where the hart that has the turn is the one that R155 names, has no store on its way, nothing in the
window and no record to issue again, and its words decode to `i`, the step issues `i` at the state whose next pc lies behind those words,
and then does what an issue leaves behind; a repeat issues with its first iteration (R155), and words that do not decode raise ILLEGAL with
the check that failed. With the lanes' next turn free, no entry taken on the core and no start index set for it, issuing `i` is executing
it. The model's choice: an event on the agenda comes before everything (log 2), a store on its way is performed in place of an issue (log 8,
9), an instruction completes as it issues where the lanes are free (log 40), and a trap waits for older work, when the hart tries again (log
14). -/
def Obligations.StepRunsDecoded : Prop :=
  ∀ (s t u : State) (ws : List Word) (i e : Instr) (c : Subcode) (st : PendingStore) (sts : List PendingStore) (es : List Instr) (r : RepState),
    let k := s.hart.ctl
    let after := fun (t : State) => s.afterIssue (s.settled t)
    let fresh := k.stores = [] ∧ k.reissue = [] ∧ k.aside = none ∧ s.sleeping = false
    let v := u.pinDone.setNext ws.length
    (s.agenda = [] → s.pick = some s.hart →
      (fresh → k.rep = none → s.fetch = .ok (ws, u) →
        (decode s.hart.place.tiles ws = .ok i → isRep i = false → step s = andThen (v.issueWord i) after) ∧
        (decode s.hart.place.tiles ws = .ok i → isRep i = true → (∀ t, v.issueWord i = .next t → step s = andThen t.firstIteration after)) ∧
        (decode s.hart.place.tiles ws = .bad c → step s = andThen (v.issueWord (.unassignedEncoding c)) after) ∧
        (k.window = [] → k.begin = 0 → s.pace = [] → s.taken s.core = 0 → v.issueWord i = exec i v)) ∧
      (k.stores = [] → s.sleeping = true → step s = andThen (exec (.gcsleepReevaluation s.loc) s) after) ∧
      (fresh → k.rep = some r → step s = andThen (s.iterate r) after) ∧
      (s.hart.resident = true → k.stores = st :: sts → s.storeMayWait = false → step s = exec (.storeAtTarget s.loc) s)) ∧
    (k.window = [] → k.stores = [] → t.hart.ctl.aside = none → s.settled t = t) ∧
    (k.window ≠ [] → trapped s t = true → s.settled t = s.waits) ∧
    (s.agenda = e :: es → encode e = [] → step s = exec e { s with agenda := es }) ∧
    (u.setNext ws.length).hart.ctl.next = u.hart.ctl.pc + BitVec.ofNat 64 (8 * ws.length)

/-- R155: the turn goes to a hart that may issue and that no other such hart goes before, by the time since its last issue and then by number. A
core that has issued issues nothing more in the cycle; when no hart may issue, the cycle ends, the count of cycles goes up by one, and every
core may issue again. That one hart at a time has the turn, and what else happens as a cycle ends, is the model's choice (log 2). R156,
R184, R189, R324: the sequencer. A guarded-off instruction waits for nothing. An instruction that needs complete results waits while older
ones of its hart are in flight, and one that issues through the sequencer waits until as many entries as it takes, one for each vector slot
of a pair word, are free of the hart's eight and the core's sixteen. A vector instruction that takes an entry does not complete: its entry,
with its address and what it read at issue, stands last in the window; registers, main memory and the count of completed instructions are as
before. The scalar slot and the branch of a pair word complete as it issues, and its vector slots stand in the window. A turn of the lanes
performs an entry up to a unit, from which it goes on, or to its end, and then takes it away; a fault behind older work only marks the
entry, and the hart issues no more. The model's choice: which instructions take entries, and that one completes as it issues where nothing
is in flight and the lanes' next turn is free (log 40); an instruction that had not issued and whose only unit lies below the start index
set for it completes without its effect (log 14). -/
def Obligations.Turns : Prop :=
  (∀ (s t : State) (h : Hart),
      (s.pick = some h → h ∈ s.hart :: s.parked ∧ s.eligible h = true ∧ coreOf h.place.loc ∉ s.issued ∧
        ∀ g ∈ s.hart :: s.parked, s.eligible g = true → g.before h = false) ∧
      (s.pick = none → ∀ g ∈ s.hart :: s.parked, s.eligible g = false) ∧
      (s.agenda = [] → s.pick = none → step s = .next s.endCycle ∧ s.endCycle.issued = [] ∧ s.endCycle.tried = [] ∧
        s.endCycle.cyc = s.cyc + 1) ∧
      (s.pick = some h → (s.turnTo h).hart = h) ∧
      (s.stillWaits t = false → (s.afterIssue t).issued = s.core :: t.issued) ∧
      (s.stillWaits t = true → (s.afterIssue t).issued = t.issued ∧ (s.afterIssue t).tried = s.hart.dest :: t.tried)) ∧
  (∀ (s t u : State) (i j : Instr) (e : SeqEntry) (old young : List SeqEntry) (h : Hart) (n : Nat) (a b : Slot) (f : Flight) (cont : Cont) (right : Bool),
      let k := seqClass i
      let c := s.hart.ctl
      let pair := (slotsOf i).isSome = true
      let past := c.begin ≠ 0 ∧ c.resume = none ∧ countsUnits i = false
      let bars := (k = .drains ∧ c.window ≠ []) ∨ s.hasRoom (entriesOf i) = false
      let free := s.pace = [] ∧ s.taken s.core = 0
      let vectors := keepSlots (fun _ p => p.isVector) i
      let scalars := keepSlots (fun _ p => !p.isVector) i
      let entry := fun (i : Instr) (tested : Bool) =>
        (⟨⟨c.pc, s.iterNow, { s.cur with tested := tested }, c.aside.bind (fun x => x.1.slot)⟩, i, s.cyc.toNat, false⟩ : SeqEntry)
      let once := fun (t : State) =>
        if pair ∧ c.aside.isSome = true then t.modCsr (fun x => { x with inst := s.hart.csr.inst }) else t
      let cap := e.fl.cap
      let aside := fun (old : List SeqEntry) (cap : Resume) =>
        (if old = [] ∧ c.stores = [] then s else s.modCtl (fun t => { t with pin := none, pinAt := none })).standAside
          { e.fl with cap := cap } s.contHere young (c.aside.toList.map Prod.fst ++ c.reissue)
      let turnTo := if e.alone = true then { cap with upto := some n } else { cap with vl := n }
      (s.hasRoom n = true ↔ n = 0 ∨
        ((c.window.map (fun e => e.slots.length)).sum + n ≤ 8 ∧ s.taken s.core + n ≤ 16)) ∧
      (entriesOf (.pairWord a b) = a.isVector.toNat + b.isVector.toNat) ∧
      (c.aside = none → s.dueOf j = j) ∧
      (c.aside = some (f, cont) → f.slot = some right →
        s.dueOf (.pairWord a b) = if right then .pairWord .pnop b else .pairWord a .pnop) ∧
      (s.dueOf j = i → s.guardOf i = false → s.issueWord j = exec i s) ∧
      (s.dueOf j = i → s.guardOf i = true →
        (past → s.issueWord j = .next s.retire) ∧
        (¬past → bars → s.issueWord j = .next s.waits) ∧
        (¬past → ¬bars → exec i s = .next t →
          (k ≠ .holds ∨ free → s.issueWord j = .next (once t)) ∧
          (k = .holds → ¬free →
            (t.hart.dest = s.hart.dest ∧ t.waiting = true → s.issueWord j = .next t) ∧
            (¬(t.hart.dest = s.hart.dest ∧ t.waiting = true) →
              (¬pair → s.issueWord j = .next (s.takeEntry t i)) ∧
              (pair → trapped s t = true → s.issueWord j = .next t) ∧
              (pair → trapped s t = false → exec scalars s = .next u → s.issueWord j =
                .next (once (u.modCtl (fun x => { x with window := x.window ++ [entry vectors false] })))))))) ∧
      (∃ w, s.takeEntry t i = w ∧ w.hart.ctl.window = c.window ++ [entry i (!trapped s t)] ∧
        w.hart.regs = s.hart.regs ∧ w.hart.csr.inst = s.hart.csr.inst ∧ w.ms.mem = s.ms.mem ∧ w.ms.wq = s.ms.wq ∧ w.cores.net = s.cores.net ∧
        (c.rep = none → w.hart.ctl.pc = c.next)) ∧
      (exec e.instr (aside old cap) = .next t → trapped s t = false → t.hart.ctl.phase ≠ .waiting →
        let w := s.perform old young e none
        w.hart.ctl.window = old ++ young ∧ w.hart.ctl.pc = c.pc ∧ w.hart.csr.rpc = s.hart.csr.rpc ∧ w.hart.regs = t.hart.regs ∧
          w.hart.csr.inst = (if (slotsOf e.instr).isSome = true then s.hart.csr.inst else t.hart.csr.inst) ∧
          w.ms.mem = t.ms.mem ∧ w.ms.wq = t.ms.wq) ∧
      (exec e.instr (aside old turnTo) = .next t → trapped s t = false → t.hart.ctl.phase ≠ .waiting → ∃ g,
        let w := s.perform old young e (some n)
        w.hart.ctl.window = old ++ [{ e with fault := false, fl := { e.fl with cap := { cap with start := n, joins := true, panel := g } } }] ++ young ∧
          w.hart.ctl.pc = c.pc ∧ w.hart.csr.rpc = s.hart.csr.rpc ∧ w.hart.regs = t.hart.regs ∧ w.hart.csr.inst = s.hart.csr.inst ∧
          w.ms.mem = t.ms.mem ∧ w.ms.wq = t.ms.wq) ∧
      (old ≠ [] → exec e.instr (aside old cap) = .next t → trapped s t = true →
        s.perform old young e none = s.modCtl (fun c => { c with window := old ++ { e with fault := true } :: young })) ∧
      (exec e.instr (aside [] cap) = .next t → trapped s t = true → c.stores = [] → t.hart.dest = s.hart.dest →
        (s.perform [] young e none).hart.regs = t.hart.regs ∧ (s.perform [] young e none).ms = t.ms ∧
          (s.perform [] young e none).hart.csr = t.hart.csr) ∧
      (e ∈ h.ctl.window → e.fault = true → s.eligible h = false) ∧
      (s.stopAfter e n = none ∨ ∃ g, e.group = some g ∧ s.stopAfter e n = some ((cap.start / g + n) * g)))

/-- A step never stops: with nothing on the agenda, every state has a next one. -/
def Obligations.AlwaysNext : Prop :=
  ∀ s : State, s.agenda = [] → goesOn (step s)

/-- Every step keeps the canonical form of main memory, windows, page records and tiles. -/
def Obligations.CanonicalKept : Prop :=
  ∀ s t : State, s.canonical → step s = .next t → t.canonical
end

