-- ==== Sys2Proof/Laws/State.lean ====
section
/-! SUPPORT. What each named update of the state leaves in each field: one lemma per field and update. -/

namespace Sys2Proof.Machine

/-! ## modRegs -/

@[simp] theorem State.modRegs_hart_place (s : State) (f : Regs → Regs) : (s.modRegs f).hart.place = s.hart.place := rfl
@[simp] theorem State.modRegs_hart_regs (s : State) (f : Regs → Regs) : (s.modRegs f).hart.regs = f s.hart.regs := rfl
@[simp] theorem State.modRegs_hart_csr (s : State) (f : Regs → Regs) : (s.modRegs f).hart.csr = s.hart.csr := rfl
@[simp] theorem State.modRegs_hart_ctl (s : State) (f : Regs → Regs) : (s.modRegs f).hart.ctl = s.hart.ctl := rfl
@[simp] theorem State.modRegs_parked (s : State) (f : Regs → Regs) : (s.modRegs f).parked = s.parked := rfl
@[simp] theorem State.modRegs_agenda (s : State) (f : Regs → Regs) : (s.modRegs f).agenda = s.agenda := rfl
@[simp] theorem State.modRegs_cores (s : State) (f : Regs → Regs) : (s.modRegs f).cores = s.cores := rfl
@[simp] theorem State.modRegs_ms (s : State) (f : Regs → Regs) : (s.modRegs f).ms = s.ms := rfl
@[simp] theorem State.modRegs_sched (s : State) (f : Regs → Regs) : (s.modRegs f).sched = s.sched := rfl
@[simp] theorem State.modRegs_fns (s : State) (f : Regs → Regs) : (s.modRegs f).fns = s.fns := rfl
@[simp] theorem State.modRegs_dev (s : State) (f : Regs → Regs) : (s.modRegs f).dev = s.dev := rfl
@[simp] theorem State.modRegs_cyc (s : State) (f : Regs → Regs) : (s.modRegs f).cyc = s.cyc := rfl
@[simp] theorem State.modRegs_issued (s : State) (f : Regs → Regs) : (s.modRegs f).issued = s.issued := rfl
@[simp] theorem State.modRegs_tried (s : State) (f : Regs → Regs) : (s.modRegs f).tried = s.tried := rfl
@[simp] theorem State.modRegs_pace (s : State) (f : Regs → Regs) : (s.modRegs f).pace = s.pace := rfl
@[simp] theorem State.modRegs_fresh (s : State) (f : Regs → Regs) : (s.modRegs f).fresh = s.fresh := rfl
@[simp] theorem State.modRegs_fwSeq (s : State) (f : Regs → Regs) : (s.modRegs f).fwSeq = s.fwSeq := rfl

/-! ## modCsr -/

@[simp] theorem State.modCsr_hart_place (s : State) (f : Csrs → Csrs) : (s.modCsr f).hart.place = s.hart.place := rfl
@[simp] theorem State.modCsr_hart_regs (s : State) (f : Csrs → Csrs) : (s.modCsr f).hart.regs = s.hart.regs := rfl
@[simp] theorem State.modCsr_hart_csr (s : State) (f : Csrs → Csrs) : (s.modCsr f).hart.csr = f s.hart.csr := rfl
@[simp] theorem State.modCsr_hart_ctl (s : State) (f : Csrs → Csrs) : (s.modCsr f).hart.ctl = s.hart.ctl := rfl
@[simp] theorem State.modCsr_parked (s : State) (f : Csrs → Csrs) : (s.modCsr f).parked = s.parked := rfl
@[simp] theorem State.modCsr_agenda (s : State) (f : Csrs → Csrs) : (s.modCsr f).agenda = s.agenda := rfl
@[simp] theorem State.modCsr_cores (s : State) (f : Csrs → Csrs) : (s.modCsr f).cores = s.cores := rfl
@[simp] theorem State.modCsr_ms (s : State) (f : Csrs → Csrs) : (s.modCsr f).ms = s.ms := rfl
@[simp] theorem State.modCsr_sched (s : State) (f : Csrs → Csrs) : (s.modCsr f).sched = s.sched := rfl
@[simp] theorem State.modCsr_fns (s : State) (f : Csrs → Csrs) : (s.modCsr f).fns = s.fns := rfl
@[simp] theorem State.modCsr_dev (s : State) (f : Csrs → Csrs) : (s.modCsr f).dev = s.dev := rfl
@[simp] theorem State.modCsr_cyc (s : State) (f : Csrs → Csrs) : (s.modCsr f).cyc = s.cyc := rfl
@[simp] theorem State.modCsr_issued (s : State) (f : Csrs → Csrs) : (s.modCsr f).issued = s.issued := rfl
@[simp] theorem State.modCsr_tried (s : State) (f : Csrs → Csrs) : (s.modCsr f).tried = s.tried := rfl
@[simp] theorem State.modCsr_pace (s : State) (f : Csrs → Csrs) : (s.modCsr f).pace = s.pace := rfl
@[simp] theorem State.modCsr_fresh (s : State) (f : Csrs → Csrs) : (s.modCsr f).fresh = s.fresh := rfl
@[simp] theorem State.modCsr_fwSeq (s : State) (f : Csrs → Csrs) : (s.modCsr f).fwSeq = s.fwSeq := rfl

/-! ## modCtl -/

@[simp] theorem State.modCtl_hart_place (s : State) (f : Ctl → Ctl) : (s.modCtl f).hart.place = s.hart.place := rfl
@[simp] theorem State.modCtl_hart_regs (s : State) (f : Ctl → Ctl) : (s.modCtl f).hart.regs = s.hart.regs := rfl
@[simp] theorem State.modCtl_hart_csr (s : State) (f : Ctl → Ctl) : (s.modCtl f).hart.csr = s.hart.csr := rfl
@[simp] theorem State.modCtl_hart_ctl (s : State) (f : Ctl → Ctl) : (s.modCtl f).hart.ctl = f s.hart.ctl := rfl
@[simp] theorem State.modCtl_parked (s : State) (f : Ctl → Ctl) : (s.modCtl f).parked = s.parked := rfl
@[simp] theorem State.modCtl_agenda (s : State) (f : Ctl → Ctl) : (s.modCtl f).agenda = s.agenda := rfl
@[simp] theorem State.modCtl_cores (s : State) (f : Ctl → Ctl) : (s.modCtl f).cores = s.cores := rfl
@[simp] theorem State.modCtl_ms (s : State) (f : Ctl → Ctl) : (s.modCtl f).ms = s.ms := rfl
@[simp] theorem State.modCtl_sched (s : State) (f : Ctl → Ctl) : (s.modCtl f).sched = s.sched := rfl
@[simp] theorem State.modCtl_fns (s : State) (f : Ctl → Ctl) : (s.modCtl f).fns = s.fns := rfl
@[simp] theorem State.modCtl_dev (s : State) (f : Ctl → Ctl) : (s.modCtl f).dev = s.dev := rfl
@[simp] theorem State.modCtl_cyc (s : State) (f : Ctl → Ctl) : (s.modCtl f).cyc = s.cyc := rfl
@[simp] theorem State.modCtl_issued (s : State) (f : Ctl → Ctl) : (s.modCtl f).issued = s.issued := rfl
@[simp] theorem State.modCtl_tried (s : State) (f : Ctl → Ctl) : (s.modCtl f).tried = s.tried := rfl
@[simp] theorem State.modCtl_pace (s : State) (f : Ctl → Ctl) : (s.modCtl f).pace = s.pace := rfl
@[simp] theorem State.modCtl_fresh (s : State) (f : Ctl → Ctl) : (s.modCtl f).fresh = s.fresh := rfl
@[simp] theorem State.modCtl_fwSeq (s : State) (f : Ctl → Ctl) : (s.modCtl f).fwSeq = s.fwSeq := rfl

/-! ## modCores -/

@[simp] theorem State.modCores_hart (s : State) (f : Cores → Cores) : (s.modCores f).hart = s.hart := rfl
@[simp] theorem State.modCores_parked (s : State) (f : Cores → Cores) : (s.modCores f).parked = s.parked := rfl
@[simp] theorem State.modCores_agenda (s : State) (f : Cores → Cores) : (s.modCores f).agenda = s.agenda := rfl
@[simp] theorem State.modCores_cores (s : State) (f : Cores → Cores) : (s.modCores f).cores = f s.cores := rfl
@[simp] theorem State.modCores_ms (s : State) (f : Cores → Cores) : (s.modCores f).ms = s.ms := rfl
@[simp] theorem State.modCores_sched (s : State) (f : Cores → Cores) : (s.modCores f).sched = s.sched := rfl
@[simp] theorem State.modCores_fns (s : State) (f : Cores → Cores) : (s.modCores f).fns = s.fns := rfl
@[simp] theorem State.modCores_dev (s : State) (f : Cores → Cores) : (s.modCores f).dev = s.dev := rfl
@[simp] theorem State.modCores_cyc (s : State) (f : Cores → Cores) : (s.modCores f).cyc = s.cyc := rfl
@[simp] theorem State.modCores_issued (s : State) (f : Cores → Cores) : (s.modCores f).issued = s.issued := rfl
@[simp] theorem State.modCores_tried (s : State) (f : Cores → Cores) : (s.modCores f).tried = s.tried := rfl
@[simp] theorem State.modCores_pace (s : State) (f : Cores → Cores) : (s.modCores f).pace = s.pace := rfl
@[simp] theorem State.modCores_fresh (s : State) (f : Cores → Cores) : (s.modCores f).fresh = s.fresh := rfl
@[simp] theorem State.modCores_fwSeq (s : State) (f : Cores → Cores) : (s.modCores f).fwSeq = s.fwSeq := rfl

/-! ## modMs -/

@[simp] theorem State.modMs_hart (s : State) (f : Memsys → Memsys) : (s.modMs f).hart = s.hart := rfl
@[simp] theorem State.modMs_parked (s : State) (f : Memsys → Memsys) : (s.modMs f).parked = s.parked := rfl
@[simp] theorem State.modMs_agenda (s : State) (f : Memsys → Memsys) : (s.modMs f).agenda = s.agenda := rfl
@[simp] theorem State.modMs_cores (s : State) (f : Memsys → Memsys) : (s.modMs f).cores = s.cores := rfl
@[simp] theorem State.modMs_ms (s : State) (f : Memsys → Memsys) : (s.modMs f).ms = f s.ms := rfl
@[simp] theorem State.modMs_sched (s : State) (f : Memsys → Memsys) : (s.modMs f).sched = s.sched := rfl
@[simp] theorem State.modMs_fns (s : State) (f : Memsys → Memsys) : (s.modMs f).fns = s.fns := rfl
@[simp] theorem State.modMs_dev (s : State) (f : Memsys → Memsys) : (s.modMs f).dev = s.dev := rfl
@[simp] theorem State.modMs_cyc (s : State) (f : Memsys → Memsys) : (s.modMs f).cyc = s.cyc := rfl
@[simp] theorem State.modMs_issued (s : State) (f : Memsys → Memsys) : (s.modMs f).issued = s.issued := rfl
@[simp] theorem State.modMs_tried (s : State) (f : Memsys → Memsys) : (s.modMs f).tried = s.tried := rfl
@[simp] theorem State.modMs_pace (s : State) (f : Memsys → Memsys) : (s.modMs f).pace = s.pace := rfl
@[simp] theorem State.modMs_fresh (s : State) (f : Memsys → Memsys) : (s.modMs f).fresh = s.fresh := rfl
@[simp] theorem State.modMs_fwSeq (s : State) (f : Memsys → Memsys) : (s.modMs f).fwSeq = s.fwSeq := rfl

/-! ## modSched -/

@[simp] theorem State.modSched_hart (s : State) (f : Sched → Sched) : (s.modSched f).hart = s.hart := rfl
@[simp] theorem State.modSched_parked (s : State) (f : Sched → Sched) : (s.modSched f).parked = s.parked := rfl
@[simp] theorem State.modSched_agenda (s : State) (f : Sched → Sched) : (s.modSched f).agenda = s.agenda := rfl
@[simp] theorem State.modSched_cores (s : State) (f : Sched → Sched) : (s.modSched f).cores = s.cores := rfl
@[simp] theorem State.modSched_ms (s : State) (f : Sched → Sched) : (s.modSched f).ms = s.ms := rfl
@[simp] theorem State.modSched_sched (s : State) (f : Sched → Sched) : (s.modSched f).sched = f s.sched := rfl
@[simp] theorem State.modSched_fns (s : State) (f : Sched → Sched) : (s.modSched f).fns = s.fns := rfl
@[simp] theorem State.modSched_dev (s : State) (f : Sched → Sched) : (s.modSched f).dev = s.dev := rfl
@[simp] theorem State.modSched_cyc (s : State) (f : Sched → Sched) : (s.modSched f).cyc = s.cyc := rfl
@[simp] theorem State.modSched_issued (s : State) (f : Sched → Sched) : (s.modSched f).issued = s.issued := rfl
@[simp] theorem State.modSched_tried (s : State) (f : Sched → Sched) : (s.modSched f).tried = s.tried := rfl
@[simp] theorem State.modSched_pace (s : State) (f : Sched → Sched) : (s.modSched f).pace = s.pace := rfl
@[simp] theorem State.modSched_fresh (s : State) (f : Sched → Sched) : (s.modSched f).fresh = s.fresh := rfl
@[simp] theorem State.modSched_fwSeq (s : State) (f : Sched → Sched) : (s.modSched f).fwSeq = s.fwSeq := rfl

/-! ## modDev -/

@[simp] theorem State.modDev_hart (s : State) (f : Dev → Dev) : (s.modDev f).hart = s.hart := rfl
@[simp] theorem State.modDev_parked (s : State) (f : Dev → Dev) : (s.modDev f).parked = s.parked := rfl
@[simp] theorem State.modDev_agenda (s : State) (f : Dev → Dev) : (s.modDev f).agenda = s.agenda := rfl
@[simp] theorem State.modDev_cores (s : State) (f : Dev → Dev) : (s.modDev f).cores = s.cores := rfl
@[simp] theorem State.modDev_ms (s : State) (f : Dev → Dev) : (s.modDev f).ms = s.ms := rfl
@[simp] theorem State.modDev_sched (s : State) (f : Dev → Dev) : (s.modDev f).sched = s.sched := rfl
@[simp] theorem State.modDev_fns (s : State) (f : Dev → Dev) : (s.modDev f).fns = s.fns := rfl
@[simp] theorem State.modDev_dev (s : State) (f : Dev → Dev) : (s.modDev f).dev = f s.dev := rfl
@[simp] theorem State.modDev_cyc (s : State) (f : Dev → Dev) : (s.modDev f).cyc = s.cyc := rfl
@[simp] theorem State.modDev_issued (s : State) (f : Dev → Dev) : (s.modDev f).issued = s.issued := rfl
@[simp] theorem State.modDev_tried (s : State) (f : Dev → Dev) : (s.modDev f).tried = s.tried := rfl
@[simp] theorem State.modDev_pace (s : State) (f : Dev → Dev) : (s.modDev f).pace = s.pace := rfl
@[simp] theorem State.modDev_fresh (s : State) (f : Dev → Dev) : (s.modDev f).fresh = s.fresh := rfl
@[simp] theorem State.modDev_fwSeq (s : State) (f : Dev → Dev) : (s.modDev f).fwSeq = s.fwSeq := rfl

/-! ## modFn -/

@[simp] theorem State.modFn_hart (s : State) (n : Nat) (f : Fn → Fn) : (s.modFn n f).hart = s.hart := rfl
@[simp] theorem State.modFn_parked (s : State) (n : Nat) (f : Fn → Fn) : (s.modFn n f).parked = s.parked := rfl
@[simp] theorem State.modFn_agenda (s : State) (n : Nat) (f : Fn → Fn) : (s.modFn n f).agenda = s.agenda := rfl
@[simp] theorem State.modFn_cores (s : State) (n : Nat) (f : Fn → Fn) : (s.modFn n f).cores = s.cores := rfl
@[simp] theorem State.modFn_ms (s : State) (n : Nat) (f : Fn → Fn) : (s.modFn n f).ms = s.ms := rfl
@[simp] theorem State.modFn_sched (s : State) (n : Nat) (f : Fn → Fn) : (s.modFn n f).sched = s.sched := rfl
@[simp] theorem State.modFn_fns (s : State) (n : Nat) (f : Fn → Fn) : (s.modFn n f).fns = modFirst (fun g => g.num == n) f s.fns := rfl
@[simp] theorem State.modFn_dev (s : State) (n : Nat) (f : Fn → Fn) : (s.modFn n f).dev = s.dev := rfl
@[simp] theorem State.modFn_cyc (s : State) (n : Nat) (f : Fn → Fn) : (s.modFn n f).cyc = s.cyc := rfl
@[simp] theorem State.modFn_issued (s : State) (n : Nat) (f : Fn → Fn) : (s.modFn n f).issued = s.issued := rfl
@[simp] theorem State.modFn_tried (s : State) (n : Nat) (f : Fn → Fn) : (s.modFn n f).tried = s.tried := rfl
@[simp] theorem State.modFn_pace (s : State) (n : Nat) (f : Fn → Fn) : (s.modFn n f).pace = s.pace := rfl
@[simp] theorem State.modFn_fresh (s : State) (n : Nat) (f : Fn → Fn) : (s.modFn n f).fresh = s.fresh := rfl
@[simp] theorem State.modFn_fwSeq (s : State) (n : Nat) (f : Fn → Fn) : (s.modFn n f).fwSeq = s.fwSeq := rfl

/-! ## modHart -/

@[simp] theorem State.modHart_hart (s : State) (f : Hart → Hart) : (s.modHart f).hart = f s.hart := rfl
@[simp] theorem State.modHart_parked (s : State) (f : Hart → Hart) : (s.modHart f).parked = s.parked := rfl
@[simp] theorem State.modHart_agenda (s : State) (f : Hart → Hart) : (s.modHart f).agenda = s.agenda := rfl
@[simp] theorem State.modHart_cores (s : State) (f : Hart → Hart) : (s.modHart f).cores = s.cores := rfl
@[simp] theorem State.modHart_ms (s : State) (f : Hart → Hart) : (s.modHart f).ms = s.ms := rfl
@[simp] theorem State.modHart_sched (s : State) (f : Hart → Hart) : (s.modHart f).sched = s.sched := rfl
@[simp] theorem State.modHart_fns (s : State) (f : Hart → Hart) : (s.modHart f).fns = s.fns := rfl
@[simp] theorem State.modHart_dev (s : State) (f : Hart → Hart) : (s.modHart f).dev = s.dev := rfl
@[simp] theorem State.modHart_cyc (s : State) (f : Hart → Hart) : (s.modHart f).cyc = s.cyc := rfl
@[simp] theorem State.modHart_issued (s : State) (f : Hart → Hart) : (s.modHart f).issued = s.issued := rfl
@[simp] theorem State.modHart_tried (s : State) (f : Hart → Hart) : (s.modHart f).tried = s.tried := rfl
@[simp] theorem State.modHart_pace (s : State) (f : Hart → Hart) : (s.modHart f).pace = s.pace := rfl
@[simp] theorem State.modHart_fresh (s : State) (f : Hart → Hart) : (s.modHart f).fresh = s.fresh := rfl
@[simp] theorem State.modHart_fwSeq (s : State) (f : Hart → Hart) : (s.modHart f).fwSeq = s.fwSeq := rfl

/-! ## setElt -/

@[simp] theorem State.setElt_hart_place (s : State) (v : Fin 64) (w i x : Nat) : (s.setElt v w i x).hart.place = s.hart.place := rfl
@[simp] theorem State.setElt_hart_csr (s : State) (v : Fin 64) (w i x : Nat) : (s.setElt v w i x).hart.csr = s.hart.csr := rfl
@[simp] theorem State.setElt_hart_ctl (s : State) (v : Fin 64) (w i x : Nat) : (s.setElt v w i x).hart.ctl = s.hart.ctl := rfl
@[simp] theorem State.setElt_parked (s : State) (v : Fin 64) (w i x : Nat) : (s.setElt v w i x).parked = s.parked := rfl
@[simp] theorem State.setElt_agenda (s : State) (v : Fin 64) (w i x : Nat) : (s.setElt v w i x).agenda = s.agenda := rfl
@[simp] theorem State.setElt_cores (s : State) (v : Fin 64) (w i x : Nat) : (s.setElt v w i x).cores = s.cores := rfl
@[simp] theorem State.setElt_ms (s : State) (v : Fin 64) (w i x : Nat) : (s.setElt v w i x).ms = s.ms := rfl
@[simp] theorem State.setElt_sched (s : State) (v : Fin 64) (w i x : Nat) : (s.setElt v w i x).sched = s.sched := rfl
@[simp] theorem State.setElt_fns (s : State) (v : Fin 64) (w i x : Nat) : (s.setElt v w i x).fns = s.fns := rfl
@[simp] theorem State.setElt_dev (s : State) (v : Fin 64) (w i x : Nat) : (s.setElt v w i x).dev = s.dev := rfl
@[simp] theorem State.setElt_cyc (s : State) (v : Fin 64) (w i x : Nat) : (s.setElt v w i x).cyc = s.cyc := rfl
@[simp] theorem State.setElt_issued (s : State) (v : Fin 64) (w i x : Nat) : (s.setElt v w i x).issued = s.issued := rfl
@[simp] theorem State.setElt_tried (s : State) (v : Fin 64) (w i x : Nat) : (s.setElt v w i x).tried = s.tried := rfl
@[simp] theorem State.setElt_pace (s : State) (v : Fin 64) (w i x : Nat) : (s.setElt v w i x).pace = s.pace := rfl
@[simp] theorem State.setElt_fresh (s : State) (v : Fin 64) (w i x : Nat) : (s.setElt v w i x).fresh = s.fresh := rfl
@[simp] theorem State.setElt_fwSeq (s : State) (v : Fin 64) (w i x : Nat) : (s.setElt v w i x).fwSeq = s.fwSeq := rfl

/-! ## setKbit -/

@[simp] theorem State.setKbit_hart_place (s : State) (k : Fin 8) (i : Nat) (x : Bool) : (s.setKbit k i x).hart.place = s.hart.place := rfl
@[simp] theorem State.setKbit_hart_csr (s : State) (k : Fin 8) (i : Nat) (x : Bool) : (s.setKbit k i x).hart.csr = s.hart.csr := rfl
@[simp] theorem State.setKbit_hart_ctl (s : State) (k : Fin 8) (i : Nat) (x : Bool) : (s.setKbit k i x).hart.ctl = s.hart.ctl := rfl
@[simp] theorem State.setKbit_parked (s : State) (k : Fin 8) (i : Nat) (x : Bool) : (s.setKbit k i x).parked = s.parked := rfl
@[simp] theorem State.setKbit_agenda (s : State) (k : Fin 8) (i : Nat) (x : Bool) : (s.setKbit k i x).agenda = s.agenda := rfl
@[simp] theorem State.setKbit_cores (s : State) (k : Fin 8) (i : Nat) (x : Bool) : (s.setKbit k i x).cores = s.cores := rfl
@[simp] theorem State.setKbit_ms (s : State) (k : Fin 8) (i : Nat) (x : Bool) : (s.setKbit k i x).ms = s.ms := rfl
@[simp] theorem State.setKbit_sched (s : State) (k : Fin 8) (i : Nat) (x : Bool) : (s.setKbit k i x).sched = s.sched := rfl
@[simp] theorem State.setKbit_fns (s : State) (k : Fin 8) (i : Nat) (x : Bool) : (s.setKbit k i x).fns = s.fns := rfl
@[simp] theorem State.setKbit_dev (s : State) (k : Fin 8) (i : Nat) (x : Bool) : (s.setKbit k i x).dev = s.dev := rfl
@[simp] theorem State.setKbit_cyc (s : State) (k : Fin 8) (i : Nat) (x : Bool) : (s.setKbit k i x).cyc = s.cyc := rfl
@[simp] theorem State.setKbit_issued (s : State) (k : Fin 8) (i : Nat) (x : Bool) : (s.setKbit k i x).issued = s.issued := rfl
@[simp] theorem State.setKbit_tried (s : State) (k : Fin 8) (i : Nat) (x : Bool) : (s.setKbit k i x).tried = s.tried := rfl
@[simp] theorem State.setKbit_pace (s : State) (k : Fin 8) (i : Nat) (x : Bool) : (s.setKbit k i x).pace = s.pace := rfl
@[simp] theorem State.setKbit_fresh (s : State) (k : Fin 8) (i : Nat) (x : Bool) : (s.setKbit k i x).fresh = s.fresh := rfl
@[simp] theorem State.setKbit_fwSeq (s : State) (k : Fin 8) (i : Nat) (x : Bool) : (s.setKbit k i x).fwSeq = s.fwSeq := rfl

/-! ## setScByte -/

@[simp] theorem State.setScByte_hart_place (s : State) (n : Fin 8) (j x : Nat) : (s.setScByte n j x).hart.place = s.hart.place := rfl
@[simp] theorem State.setScByte_hart_csr (s : State) (n : Fin 8) (j x : Nat) : (s.setScByte n j x).hart.csr = s.hart.csr := rfl
@[simp] theorem State.setScByte_hart_ctl (s : State) (n : Fin 8) (j x : Nat) : (s.setScByte n j x).hart.ctl = s.hart.ctl := rfl
@[simp] theorem State.setScByte_parked (s : State) (n : Fin 8) (j x : Nat) : (s.setScByte n j x).parked = s.parked := rfl
@[simp] theorem State.setScByte_agenda (s : State) (n : Fin 8) (j x : Nat) : (s.setScByte n j x).agenda = s.agenda := rfl
@[simp] theorem State.setScByte_cores (s : State) (n : Fin 8) (j x : Nat) : (s.setScByte n j x).cores = s.cores := rfl
@[simp] theorem State.setScByte_ms (s : State) (n : Fin 8) (j x : Nat) : (s.setScByte n j x).ms = s.ms := rfl
@[simp] theorem State.setScByte_sched (s : State) (n : Fin 8) (j x : Nat) : (s.setScByte n j x).sched = s.sched := rfl
@[simp] theorem State.setScByte_fns (s : State) (n : Fin 8) (j x : Nat) : (s.setScByte n j x).fns = s.fns := rfl
@[simp] theorem State.setScByte_dev (s : State) (n : Fin 8) (j x : Nat) : (s.setScByte n j x).dev = s.dev := rfl
@[simp] theorem State.setScByte_cyc (s : State) (n : Fin 8) (j x : Nat) : (s.setScByte n j x).cyc = s.cyc := rfl
@[simp] theorem State.setScByte_issued (s : State) (n : Fin 8) (j x : Nat) : (s.setScByte n j x).issued = s.issued := rfl
@[simp] theorem State.setScByte_tried (s : State) (n : Fin 8) (j x : Nat) : (s.setScByte n j x).tried = s.tried := rfl
@[simp] theorem State.setScByte_pace (s : State) (n : Fin 8) (j x : Nat) : (s.setScByte n j x).pace = s.pace := rfl
@[simp] theorem State.setScByte_fresh (s : State) (n : Fin 8) (j x : Nat) : (s.setScByte n j x).fresh = s.fresh := rfl
@[simp] theorem State.setScByte_fwSeq (s : State) (n : Fin 8) (j x : Nat) : (s.setScByte n j x).fwSeq = s.fwSeq := rfl

/-! ## accrue -/

@[simp] theorem State.accrue_hart_place (s : State) (f : Flags) : (s.accrue f).hart.place = s.hart.place := rfl
@[simp] theorem State.accrue_hart_regs (s : State) (f : Flags) : (s.accrue f).hart.regs = s.hart.regs := rfl
@[simp] theorem State.accrue_hart_csr (s : State) (f : Flags) : (s.accrue f).hart.csr = { s.hart.csr with fflags := s.hart.csr.fflags ||| f.setWidth 13 } := rfl
@[simp] theorem State.accrue_hart_ctl (s : State) (f : Flags) : (s.accrue f).hart.ctl = s.hart.ctl := rfl
@[simp] theorem State.accrue_parked (s : State) (f : Flags) : (s.accrue f).parked = s.parked := rfl
@[simp] theorem State.accrue_agenda (s : State) (f : Flags) : (s.accrue f).agenda = s.agenda := rfl
@[simp] theorem State.accrue_cores (s : State) (f : Flags) : (s.accrue f).cores = s.cores := rfl
@[simp] theorem State.accrue_ms (s : State) (f : Flags) : (s.accrue f).ms = s.ms := rfl
@[simp] theorem State.accrue_sched (s : State) (f : Flags) : (s.accrue f).sched = s.sched := rfl
@[simp] theorem State.accrue_fns (s : State) (f : Flags) : (s.accrue f).fns = s.fns := rfl
@[simp] theorem State.accrue_dev (s : State) (f : Flags) : (s.accrue f).dev = s.dev := rfl
@[simp] theorem State.accrue_cyc (s : State) (f : Flags) : (s.accrue f).cyc = s.cyc := rfl
@[simp] theorem State.accrue_issued (s : State) (f : Flags) : (s.accrue f).issued = s.issued := rfl
@[simp] theorem State.accrue_tried (s : State) (f : Flags) : (s.accrue f).tried = s.tried := rfl
@[simp] theorem State.accrue_pace (s : State) (f : Flags) : (s.accrue f).pace = s.pace := rfl
@[simp] theorem State.accrue_fresh (s : State) (f : Flags) : (s.accrue f).fresh = s.fresh := rfl
@[simp] theorem State.accrue_fwSeq (s : State) (f : Flags) : (s.accrue f).fwSeq = s.fwSeq := rfl

/-! ## setTag -/

@[simp] theorem State.setTag_hart_place (s : State) (t : Fin 64) (v : Tag) : (s.setTag t v).hart.place = s.hart.place := rfl
@[simp] theorem State.setTag_hart_regs (s : State) (t : Fin 64) (v : Tag) : (s.setTag t v).hart.regs = s.hart.regs := rfl
@[simp] theorem State.setTag_hart_csr (s : State) (t : Fin 64) (v : Tag) : (s.setTag t v).hart.csr = s.hart.csr := rfl
@[simp] theorem State.setTag_hart_ctl (s : State) (t : Fin 64) (v : Tag) : (s.setTag t v).hart.ctl = { s.hart.ctl with tags := s.hart.ctl.tags.set t v } := rfl
@[simp] theorem State.setTag_parked (s : State) (t : Fin 64) (v : Tag) : (s.setTag t v).parked = s.parked := rfl
@[simp] theorem State.setTag_agenda (s : State) (t : Fin 64) (v : Tag) : (s.setTag t v).agenda = s.agenda := rfl
@[simp] theorem State.setTag_cores (s : State) (t : Fin 64) (v : Tag) : (s.setTag t v).cores = s.cores := rfl
@[simp] theorem State.setTag_ms (s : State) (t : Fin 64) (v : Tag) : (s.setTag t v).ms = s.ms := rfl
@[simp] theorem State.setTag_sched (s : State) (t : Fin 64) (v : Tag) : (s.setTag t v).sched = s.sched := rfl
@[simp] theorem State.setTag_fns (s : State) (t : Fin 64) (v : Tag) : (s.setTag t v).fns = s.fns := rfl
@[simp] theorem State.setTag_dev (s : State) (t : Fin 64) (v : Tag) : (s.setTag t v).dev = s.dev := rfl
@[simp] theorem State.setTag_cyc (s : State) (t : Fin 64) (v : Tag) : (s.setTag t v).cyc = s.cyc := rfl
@[simp] theorem State.setTag_issued (s : State) (t : Fin 64) (v : Tag) : (s.setTag t v).issued = s.issued := rfl
@[simp] theorem State.setTag_tried (s : State) (t : Fin 64) (v : Tag) : (s.setTag t v).tried = s.tried := rfl
@[simp] theorem State.setTag_pace (s : State) (t : Fin 64) (v : Tag) : (s.setTag t v).pace = s.pace := rfl
@[simp] theorem State.setTag_fresh (s : State) (t : Fin 64) (v : Tag) : (s.setTag t v).fresh = s.fresh := rfl
@[simp] theorem State.setTag_fwSeq (s : State) (t : Fin 64) (v : Tag) : (s.setTag t v).fwSeq = s.fwSeq := rfl

/-! ## setVl -/

@[simp] theorem State.setVl_hart_place (s : State) (n : Nat) : (s.setVl n).hart.place = s.hart.place := rfl
@[simp] theorem State.setVl_hart_regs (s : State) (n : Nat) : (s.setVl n).hart.regs = s.hart.regs := rfl
@[simp] theorem State.setVl_hart_csr (s : State) (n : Nat) : (s.setVl n).hart.csr = { s.hart.csr with vl := n } := rfl
@[simp] theorem State.setVl_hart_ctl (s : State) (n : Nat) : (s.setVl n).hart.ctl = s.hart.ctl := rfl
@[simp] theorem State.setVl_parked (s : State) (n : Nat) : (s.setVl n).parked = s.parked := rfl
@[simp] theorem State.setVl_agenda (s : State) (n : Nat) : (s.setVl n).agenda = s.agenda := rfl
@[simp] theorem State.setVl_cores (s : State) (n : Nat) : (s.setVl n).cores = s.cores := rfl
@[simp] theorem State.setVl_ms (s : State) (n : Nat) : (s.setVl n).ms = s.ms := rfl
@[simp] theorem State.setVl_sched (s : State) (n : Nat) : (s.setVl n).sched = s.sched := rfl
@[simp] theorem State.setVl_fns (s : State) (n : Nat) : (s.setVl n).fns = s.fns := rfl
@[simp] theorem State.setVl_dev (s : State) (n : Nat) : (s.setVl n).dev = s.dev := rfl
@[simp] theorem State.setVl_cyc (s : State) (n : Nat) : (s.setVl n).cyc = s.cyc := rfl
@[simp] theorem State.setVl_issued (s : State) (n : Nat) : (s.setVl n).issued = s.issued := rfl
@[simp] theorem State.setVl_tried (s : State) (n : Nat) : (s.setVl n).tried = s.tried := rfl
@[simp] theorem State.setVl_pace (s : State) (n : Nat) : (s.setVl n).pace = s.pace := rfl
@[simp] theorem State.setVl_fresh (s : State) (n : Nat) : (s.setVl n).fresh = s.fresh := rfl
@[simp] theorem State.setVl_fwSeq (s : State) (n : Nat) : (s.setVl n).fwSeq = s.fwSeq := rfl

/-! ## setVtype -/

@[simp] theorem State.setVtype_hart_place (s : State) (t : VType) : (s.setVtype t).hart.place = s.hart.place := rfl
@[simp] theorem State.setVtype_hart_regs (s : State) (t : VType) : (s.setVtype t).hart.regs = s.hart.regs := rfl
@[simp] theorem State.setVtype_hart_csr (s : State) (t : VType) : (s.setVtype t).hart.csr = { s.hart.csr with vtype := t } := rfl
@[simp] theorem State.setVtype_hart_ctl (s : State) (t : VType) : (s.setVtype t).hart.ctl = s.hart.ctl := rfl
@[simp] theorem State.setVtype_parked (s : State) (t : VType) : (s.setVtype t).parked = s.parked := rfl
@[simp] theorem State.setVtype_agenda (s : State) (t : VType) : (s.setVtype t).agenda = s.agenda := rfl
@[simp] theorem State.setVtype_cores (s : State) (t : VType) : (s.setVtype t).cores = s.cores := rfl
@[simp] theorem State.setVtype_ms (s : State) (t : VType) : (s.setVtype t).ms = s.ms := rfl
@[simp] theorem State.setVtype_sched (s : State) (t : VType) : (s.setVtype t).sched = s.sched := rfl
@[simp] theorem State.setVtype_fns (s : State) (t : VType) : (s.setVtype t).fns = s.fns := rfl
@[simp] theorem State.setVtype_dev (s : State) (t : VType) : (s.setVtype t).dev = s.dev := rfl
@[simp] theorem State.setVtype_cyc (s : State) (t : VType) : (s.setVtype t).cyc = s.cyc := rfl
@[simp] theorem State.setVtype_issued (s : State) (t : VType) : (s.setVtype t).issued = s.issued := rfl
@[simp] theorem State.setVtype_tried (s : State) (t : VType) : (s.setVtype t).tried = s.tried := rfl
@[simp] theorem State.setVtype_pace (s : State) (t : VType) : (s.setVtype t).pace = s.pace := rfl
@[simp] theorem State.setVtype_fresh (s : State) (t : VType) : (s.setVtype t).fresh = s.fresh := rfl
@[simp] theorem State.setVtype_fwSeq (s : State) (t : VType) : (s.setVtype t).fwSeq = s.fwSeq := rfl

/-! ## setNext -/

@[simp] theorem State.setNext_hart_place (s : State) (n : Nat) : (s.setNext n).hart.place = s.hart.place := rfl
@[simp] theorem State.setNext_hart_regs (s : State) (n : Nat) : (s.setNext n).hart.regs = s.hart.regs := rfl
@[simp] theorem State.setNext_hart_csr (s : State) (n : Nat) : (s.setNext n).hart.csr = s.hart.csr := rfl
@[simp] theorem State.setNext_hart_ctl (s : State) (n : Nat) : (s.setNext n).hart.ctl = { s.hart.ctl with next := s.hart.ctl.pc + BitVec.ofNat 64 (8 * n) } := rfl
@[simp] theorem State.setNext_parked (s : State) (n : Nat) : (s.setNext n).parked = s.parked := rfl
@[simp] theorem State.setNext_agenda (s : State) (n : Nat) : (s.setNext n).agenda = s.agenda := rfl
@[simp] theorem State.setNext_cores (s : State) (n : Nat) : (s.setNext n).cores = s.cores := rfl
@[simp] theorem State.setNext_ms (s : State) (n : Nat) : (s.setNext n).ms = s.ms := rfl
@[simp] theorem State.setNext_sched (s : State) (n : Nat) : (s.setNext n).sched = s.sched := rfl
@[simp] theorem State.setNext_fns (s : State) (n : Nat) : (s.setNext n).fns = s.fns := rfl
@[simp] theorem State.setNext_dev (s : State) (n : Nat) : (s.setNext n).dev = s.dev := rfl
@[simp] theorem State.setNext_cyc (s : State) (n : Nat) : (s.setNext n).cyc = s.cyc := rfl
@[simp] theorem State.setNext_issued (s : State) (n : Nat) : (s.setNext n).issued = s.issued := rfl
@[simp] theorem State.setNext_tried (s : State) (n : Nat) : (s.setNext n).tried = s.tried := rfl
@[simp] theorem State.setNext_pace (s : State) (n : Nat) : (s.setNext n).pace = s.pace := rfl
@[simp] theorem State.setNext_fresh (s : State) (n : Nat) : (s.setNext n).fresh = s.fresh := rfl
@[simp] theorem State.setNext_fwSeq (s : State) (n : Nat) : (s.setNext n).fwSeq = s.fwSeq := rfl

/-! ## setPl -/

@[simp] theorem State.setPl_hart_place (s : State) (h : Fin 16) (v : Option PlanRef) : (s.setPl h v).hart.place = s.hart.place := rfl
@[simp] theorem State.setPl_hart_regs (s : State) (h : Fin 16) (v : Option PlanRef) : (s.setPl h v).hart.regs = { s.hart.regs with pl := s.hart.regs.pl.set h v } := rfl
@[simp] theorem State.setPl_hart_csr (s : State) (h : Fin 16) (v : Option PlanRef) : (s.setPl h v).hart.csr = s.hart.csr := rfl
@[simp] theorem State.setPl_hart_ctl (s : State) (h : Fin 16) (v : Option PlanRef) : (s.setPl h v).hart.ctl = s.hart.ctl := rfl
@[simp] theorem State.setPl_parked (s : State) (h : Fin 16) (v : Option PlanRef) : (s.setPl h v).parked = s.parked := rfl
@[simp] theorem State.setPl_agenda (s : State) (h : Fin 16) (v : Option PlanRef) : (s.setPl h v).agenda = s.agenda := rfl
@[simp] theorem State.setPl_cores (s : State) (h : Fin 16) (v : Option PlanRef) : (s.setPl h v).cores = s.cores := rfl
@[simp] theorem State.setPl_ms (s : State) (h : Fin 16) (v : Option PlanRef) : (s.setPl h v).ms = s.ms := rfl
@[simp] theorem State.setPl_sched (s : State) (h : Fin 16) (v : Option PlanRef) : (s.setPl h v).sched = s.sched := rfl
@[simp] theorem State.setPl_fns (s : State) (h : Fin 16) (v : Option PlanRef) : (s.setPl h v).fns = s.fns := rfl
@[simp] theorem State.setPl_dev (s : State) (h : Fin 16) (v : Option PlanRef) : (s.setPl h v).dev = s.dev := rfl
@[simp] theorem State.setPl_cyc (s : State) (h : Fin 16) (v : Option PlanRef) : (s.setPl h v).cyc = s.cyc := rfl
@[simp] theorem State.setPl_issued (s : State) (h : Fin 16) (v : Option PlanRef) : (s.setPl h v).issued = s.issued := rfl
@[simp] theorem State.setPl_tried (s : State) (h : Fin 16) (v : Option PlanRef) : (s.setPl h v).tried = s.tried := rfl
@[simp] theorem State.setPl_pace (s : State) (h : Fin 16) (v : Option PlanRef) : (s.setPl h v).pace = s.pace := rfl
@[simp] theorem State.setPl_fresh (s : State) (h : Fin 16) (v : Option PlanRef) : (s.setPl h v).fresh = s.fresh := rfl
@[simp] theorem State.setPl_fwSeq (s : State) (h : Fin 16) (v : Option PlanRef) : (s.setPl h v).fwSeq = s.fwSeq := rfl

/-! ## setTile -/

@[simp] theorem State.setTile_hart_place (s : State) (n : Fin 4) (t : Tile) : (s.setTile n t).hart.place = s.hart.place := rfl
@[simp] theorem State.setTile_hart_regs (s : State) (n : Fin 4) (t : Tile) : (s.setTile n t).hart.regs = { s.hart.regs with acc := s.hart.regs.acc.set n t } := rfl
@[simp] theorem State.setTile_hart_csr (s : State) (n : Fin 4) (t : Tile) : (s.setTile n t).hart.csr = s.hart.csr := rfl
@[simp] theorem State.setTile_hart_ctl (s : State) (n : Fin 4) (t : Tile) : (s.setTile n t).hart.ctl = s.hart.ctl := rfl
@[simp] theorem State.setTile_parked (s : State) (n : Fin 4) (t : Tile) : (s.setTile n t).parked = s.parked := rfl
@[simp] theorem State.setTile_agenda (s : State) (n : Fin 4) (t : Tile) : (s.setTile n t).agenda = s.agenda := rfl
@[simp] theorem State.setTile_cores (s : State) (n : Fin 4) (t : Tile) : (s.setTile n t).cores = s.cores := rfl
@[simp] theorem State.setTile_ms (s : State) (n : Fin 4) (t : Tile) : (s.setTile n t).ms = s.ms := rfl
@[simp] theorem State.setTile_sched (s : State) (n : Fin 4) (t : Tile) : (s.setTile n t).sched = s.sched := rfl
@[simp] theorem State.setTile_fns (s : State) (n : Fin 4) (t : Tile) : (s.setTile n t).fns = s.fns := rfl
@[simp] theorem State.setTile_dev (s : State) (n : Fin 4) (t : Tile) : (s.setTile n t).dev = s.dev := rfl
@[simp] theorem State.setTile_cyc (s : State) (n : Fin 4) (t : Tile) : (s.setTile n t).cyc = s.cyc := rfl
@[simp] theorem State.setTile_issued (s : State) (n : Fin 4) (t : Tile) : (s.setTile n t).issued = s.issued := rfl
@[simp] theorem State.setTile_tried (s : State) (n : Fin 4) (t : Tile) : (s.setTile n t).tried = s.tried := rfl
@[simp] theorem State.setTile_pace (s : State) (n : Fin 4) (t : Tile) : (s.setTile n t).pace = s.pace := rfl
@[simp] theorem State.setTile_fresh (s : State) (n : Fin 4) (t : Tile) : (s.setTile n t).fresh = s.fresh := rfl
@[simp] theorem State.setTile_fwSeq (s : State) (n : Fin 4) (t : Tile) : (s.setTile n t).fwSeq = s.fwSeq := rfl

/-! ## setX -/

@[simp] theorem State.setX_hart_place (s : State) (r : Fin 32) (v : Word) : (s.setX r v).hart.place = s.hart.place := by
  unfold State.setX; split <;> rfl
@[simp] theorem State.setX_hart_csr (s : State) (r : Fin 32) (v : Word) : (s.setX r v).hart.csr = s.hart.csr := by
  unfold State.setX; split <;> rfl
@[simp] theorem State.setX_hart_ctl (s : State) (r : Fin 32) (v : Word) : (s.setX r v).hart.ctl = s.hart.ctl := by
  unfold State.setX; split <;> rfl
@[simp] theorem State.setX_parked (s : State) (r : Fin 32) (v : Word) : (s.setX r v).parked = s.parked := by
  unfold State.setX; split <;> rfl
@[simp] theorem State.setX_agenda (s : State) (r : Fin 32) (v : Word) : (s.setX r v).agenda = s.agenda := by
  unfold State.setX; split <;> rfl
@[simp] theorem State.setX_cores (s : State) (r : Fin 32) (v : Word) : (s.setX r v).cores = s.cores := by
  unfold State.setX; split <;> rfl
@[simp] theorem State.setX_ms (s : State) (r : Fin 32) (v : Word) : (s.setX r v).ms = s.ms := by
  unfold State.setX; split <;> rfl
@[simp] theorem State.setX_sched (s : State) (r : Fin 32) (v : Word) : (s.setX r v).sched = s.sched := by
  unfold State.setX; split <;> rfl
@[simp] theorem State.setX_fns (s : State) (r : Fin 32) (v : Word) : (s.setX r v).fns = s.fns := by
  unfold State.setX; split <;> rfl
@[simp] theorem State.setX_dev (s : State) (r : Fin 32) (v : Word) : (s.setX r v).dev = s.dev := by
  unfold State.setX; split <;> rfl
@[simp] theorem State.setX_cyc (s : State) (r : Fin 32) (v : Word) : (s.setX r v).cyc = s.cyc := by
  unfold State.setX; split <;> rfl
@[simp] theorem State.setX_issued (s : State) (r : Fin 32) (v : Word) : (s.setX r v).issued = s.issued := by
  unfold State.setX; split <;> rfl
@[simp] theorem State.setX_tried (s : State) (r : Fin 32) (v : Word) : (s.setX r v).tried = s.tried := by
  unfold State.setX; split <;> rfl
@[simp] theorem State.setX_pace (s : State) (r : Fin 32) (v : Word) : (s.setX r v).pace = s.pace := by
  unfold State.setX; split <;> rfl
@[simp] theorem State.setX_fresh (s : State) (r : Fin 32) (v : Word) : (s.setX r v).fresh = s.fresh := by
  unfold State.setX; split <;> rfl
@[simp] theorem State.setX_fwSeq (s : State) (r : Fin 32) (v : Word) : (s.setX r v).fwSeq = s.fwSeq := by
  unfold State.setX; split <;> rfl

/-! ## setG -/

@[simp] theorem State.setG_hart_place (s : State) (r : Fin 8) (v : Bool) : (s.setG r v).hart.place = s.hart.place := by
  unfold State.setG; split <;> rfl
@[simp] theorem State.setG_hart_csr (s : State) (r : Fin 8) (v : Bool) : (s.setG r v).hart.csr = s.hart.csr := by
  unfold State.setG; split <;> rfl
@[simp] theorem State.setG_hart_ctl (s : State) (r : Fin 8) (v : Bool) : (s.setG r v).hart.ctl = s.hart.ctl := by
  unfold State.setG; split <;> rfl
@[simp] theorem State.setG_parked (s : State) (r : Fin 8) (v : Bool) : (s.setG r v).parked = s.parked := by
  unfold State.setG; split <;> rfl
@[simp] theorem State.setG_agenda (s : State) (r : Fin 8) (v : Bool) : (s.setG r v).agenda = s.agenda := by
  unfold State.setG; split <;> rfl
@[simp] theorem State.setG_cores (s : State) (r : Fin 8) (v : Bool) : (s.setG r v).cores = s.cores := by
  unfold State.setG; split <;> rfl
@[simp] theorem State.setG_ms (s : State) (r : Fin 8) (v : Bool) : (s.setG r v).ms = s.ms := by
  unfold State.setG; split <;> rfl
@[simp] theorem State.setG_sched (s : State) (r : Fin 8) (v : Bool) : (s.setG r v).sched = s.sched := by
  unfold State.setG; split <;> rfl
@[simp] theorem State.setG_fns (s : State) (r : Fin 8) (v : Bool) : (s.setG r v).fns = s.fns := by
  unfold State.setG; split <;> rfl
@[simp] theorem State.setG_dev (s : State) (r : Fin 8) (v : Bool) : (s.setG r v).dev = s.dev := by
  unfold State.setG; split <;> rfl
@[simp] theorem State.setG_cyc (s : State) (r : Fin 8) (v : Bool) : (s.setG r v).cyc = s.cyc := by
  unfold State.setG; split <;> rfl
@[simp] theorem State.setG_issued (s : State) (r : Fin 8) (v : Bool) : (s.setG r v).issued = s.issued := by
  unfold State.setG; split <;> rfl
@[simp] theorem State.setG_tried (s : State) (r : Fin 8) (v : Bool) : (s.setG r v).tried = s.tried := by
  unfold State.setG; split <;> rfl
@[simp] theorem State.setG_pace (s : State) (r : Fin 8) (v : Bool) : (s.setG r v).pace = s.pace := by
  unfold State.setG; split <;> rfl
@[simp] theorem State.setG_fresh (s : State) (r : Fin 8) (v : Bool) : (s.setG r v).fresh = s.fresh := by
  unfold State.setG; split <;> rfl
@[simp] theorem State.setG_fwSeq (s : State) (r : Fin 8) (v : Bool) : (s.setG r v).fwSeq = s.fwSeq := by
  unfold State.setG; split <;> rfl

/-! ## padWrite -/

@[simp] theorem State.padWrite_hart (s : State) (core launch off : Nat) (bs : List Byte) : (s.padWrite core launch off bs).hart = s.hart := rfl
@[simp] theorem State.padWrite_parked (s : State) (core launch off : Nat) (bs : List Byte) : (s.padWrite core launch off bs).parked = s.parked := rfl
@[simp] theorem State.padWrite_agenda (s : State) (core launch off : Nat) (bs : List Byte) : (s.padWrite core launch off bs).agenda = s.agenda := rfl
@[simp] theorem State.padWrite_ms (s : State) (core launch off : Nat) (bs : List Byte) : (s.padWrite core launch off bs).ms = s.ms := rfl
@[simp] theorem State.padWrite_sched (s : State) (core launch off : Nat) (bs : List Byte) : (s.padWrite core launch off bs).sched = s.sched := rfl
@[simp] theorem State.padWrite_fns (s : State) (core launch off : Nat) (bs : List Byte) : (s.padWrite core launch off bs).fns = s.fns := rfl
@[simp] theorem State.padWrite_dev (s : State) (core launch off : Nat) (bs : List Byte) : (s.padWrite core launch off bs).dev = s.dev := rfl
@[simp] theorem State.padWrite_cyc (s : State) (core launch off : Nat) (bs : List Byte) : (s.padWrite core launch off bs).cyc = s.cyc := rfl
@[simp] theorem State.padWrite_issued (s : State) (core launch off : Nat) (bs : List Byte) : (s.padWrite core launch off bs).issued = s.issued := rfl
@[simp] theorem State.padWrite_tried (s : State) (core launch off : Nat) (bs : List Byte) : (s.padWrite core launch off bs).tried = s.tried := rfl
@[simp] theorem State.padWrite_pace (s : State) (core launch off : Nat) (bs : List Byte) : (s.padWrite core launch off bs).pace = s.pace := rfl
@[simp] theorem State.padWrite_fresh (s : State) (core launch off : Nat) (bs : List Byte) : (s.padWrite core launch off bs).fresh = s.fresh := rfl
@[simp] theorem State.padWrite_fwSeq (s : State) (core launch off : Nat) (bs : List Byte) : (s.padWrite core launch off bs).fwSeq = s.fwSeq := rfl

/-! ## setMeta -/

@[simp] theorem State.setMeta_hart (s : State) (frame : Nat) (m : PageMeta) : (s.setMeta frame m).hart = s.hart := rfl
@[simp] theorem State.setMeta_parked (s : State) (frame : Nat) (m : PageMeta) : (s.setMeta frame m).parked = s.parked := rfl
@[simp] theorem State.setMeta_agenda (s : State) (frame : Nat) (m : PageMeta) : (s.setMeta frame m).agenda = s.agenda := rfl
@[simp] theorem State.setMeta_cores (s : State) (frame : Nat) (m : PageMeta) : (s.setMeta frame m).cores = s.cores := rfl
@[simp] theorem State.setMeta_sched (s : State) (frame : Nat) (m : PageMeta) : (s.setMeta frame m).sched = s.sched := rfl
@[simp] theorem State.setMeta_fns (s : State) (frame : Nat) (m : PageMeta) : (s.setMeta frame m).fns = s.fns := rfl
@[simp] theorem State.setMeta_dev (s : State) (frame : Nat) (m : PageMeta) : (s.setMeta frame m).dev = s.dev := rfl
@[simp] theorem State.setMeta_cyc (s : State) (frame : Nat) (m : PageMeta) : (s.setMeta frame m).cyc = s.cyc := rfl
@[simp] theorem State.setMeta_issued (s : State) (frame : Nat) (m : PageMeta) : (s.setMeta frame m).issued = s.issued := rfl
@[simp] theorem State.setMeta_tried (s : State) (frame : Nat) (m : PageMeta) : (s.setMeta frame m).tried = s.tried := rfl
@[simp] theorem State.setMeta_pace (s : State) (frame : Nat) (m : PageMeta) : (s.setMeta frame m).pace = s.pace := rfl
@[simp] theorem State.setMeta_fresh (s : State) (frame : Nat) (m : PageMeta) : (s.setMeta frame m).fresh = s.fresh := rfl
@[simp] theorem State.setMeta_fwSeq (s : State) (frame : Nat) (m : PageMeta) : (s.setMeta frame m).fwSeq = s.fwSeq := rfl

/-! ## rawWrite -/

@[simp] theorem State.rawWrite_hart (s : State) (frame off : Nat) (bs : List Byte) : (s.rawWrite frame off bs).hart = s.hart := rfl
@[simp] theorem State.rawWrite_parked (s : State) (frame off : Nat) (bs : List Byte) : (s.rawWrite frame off bs).parked = s.parked := rfl
@[simp] theorem State.rawWrite_agenda (s : State) (frame off : Nat) (bs : List Byte) : (s.rawWrite frame off bs).agenda = s.agenda := rfl
@[simp] theorem State.rawWrite_cores (s : State) (frame off : Nat) (bs : List Byte) : (s.rawWrite frame off bs).cores = s.cores := rfl
@[simp] theorem State.rawWrite_sched (s : State) (frame off : Nat) (bs : List Byte) : (s.rawWrite frame off bs).sched = s.sched := rfl
@[simp] theorem State.rawWrite_fns (s : State) (frame off : Nat) (bs : List Byte) : (s.rawWrite frame off bs).fns = s.fns := rfl
@[simp] theorem State.rawWrite_dev (s : State) (frame off : Nat) (bs : List Byte) : (s.rawWrite frame off bs).dev = s.dev := rfl
@[simp] theorem State.rawWrite_cyc (s : State) (frame off : Nat) (bs : List Byte) : (s.rawWrite frame off bs).cyc = s.cyc := rfl
@[simp] theorem State.rawWrite_issued (s : State) (frame off : Nat) (bs : List Byte) : (s.rawWrite frame off bs).issued = s.issued := rfl
@[simp] theorem State.rawWrite_tried (s : State) (frame off : Nat) (bs : List Byte) : (s.rawWrite frame off bs).tried = s.tried := rfl
@[simp] theorem State.rawWrite_pace (s : State) (frame off : Nat) (bs : List Byte) : (s.rawWrite frame off bs).pace = s.pace := rfl
@[simp] theorem State.rawWrite_fresh (s : State) (frame off : Nat) (bs : List Byte) : (s.rawWrite frame off bs).fresh = s.fresh := rfl
@[simp] theorem State.rawWrite_fwSeq (s : State) (frame off : Nat) (bs : List Byte) : (s.rawWrite frame off bs).fwSeq = s.fwSeq := rfl

/-! ## Reading what was written -/

/-- A read of an x register after a write, unless the instruction is re-issued (R177, R178). -/
theorem State.x_setX (s : State) (n : s.hart.ctl.resume = none) (r q : Fin 32) (v : Word) :
    (s.setX r v).x q = if q = r ∧ r ≠ 0 ∧ r ≠ 30 then v else s.x q := by
  unfold State.setX State.x State.xs
  by_cases h : r = 0 ∨ r = 30
  · have n : ¬(q = r ∧ r ≠ 0 ∧ r ≠ 30) := fun c => h.elim c.2.1 c.2.2
    rw [if_pos h, if_neg n]
  · rw [if_neg h]
    by_cases e : q = r
    · subst e
      simp only [not_or] at h
      simp [State.modRegs, h.1, h.2, n]
    · have c : ¬(q = r ∧ r ≠ 0 ∧ r ≠ 30) := fun c => e c.1
      have e' : ¬(r : Nat) = q := fun c => e (Fin.ext c.symm)
      rw [if_neg c]
      simp [State.modRegs, e', n]

/-- An instruction that is re-issued reads what it captured, whatever it writes (R327). -/
theorem State.x_setX_resumed (s : State) (c : s.hart.ctl.resume.isSome) (r q : Fin 32) (v : Word) : (s.setX r v).x q = s.x q := by
  obtain ⟨w, e⟩ := Option.isSome_iff_exists.mp c
  unfold State.setX
  split
  · rfl
  · simp [State.x, State.xs, State.modRegs, e]

/-- A read of a guard after a write. -/
theorem State.g_setG (s : State) (r q : Fin 8) (v : Bool) :
    (s.setG r v).g q = if q = r ∧ r ≠ 0 then v else s.g q := by
  unfold State.setG State.g
  by_cases h : r = 0
  · have n : ¬(q = r ∧ r ≠ 0) := fun c => c.2 h
    rw [if_pos h, if_neg n]
  · rw [if_neg h]
    by_cases e : q = r
    · subst e; simp [State.modRegs, h]
    · have n : ¬(q = r ∧ r ≠ 0) := fun c => e c.1
      have e' : ¬(r : Nat) = q := fun c => e (Fin.ext c.symm)
      rw [if_neg n]
      simp [State.modRegs, e']


end Sys2Proof.Machine
end

