-- ==== Sys2Proof/Laws/Ops.lean ====
section
/-! SUPPORT. What each shared operation can do, said once: the pop of x30, how an instruction starts and ends, and the checks that an
instruction passes before its effect. -/

namespace Sys2Proof.Machine

/-! ## Releasing the pin, retiring -/

theorem State.releasePin_eq (s : State) :
    s.releasePin = { s with ms := (s.unpin s.hart).ms, hart := s.hart.modCtl (fun c => { c with pin := none, pinAt := none }) } := by
  unfold State.releasePin State.unpin
  cases s.hart.ctl.pin with
  | none => rfl
  | some fr =>
    dsimp only
    split <;> rfl

/-- What becomes of the pin at the end of an instruction. -/
theorem State.pinDone_eq (s : State) :
    s.pinDone = if s.hart.ctl.window = [] ∧ s.hart.ctl.stores = [] ∧ s.hart.ctl.inHandler = false then s.releasePin else s := by
  unfold State.pinDone State.pinUsed
  cases s.hart.ctl.inHandler <;> simp

/-- Retirement makes the step that `Passes` describes. -/
theorem passes_retireTo (u : State) (target : Word) : Passes u target (u.retireTo target) := by
  unfold State.retireTo
  rw [State.pinDone_eq]
  by_cases w : u.hart.ctl.window = [] ∧ u.hart.ctl.stores = [] ∧ u.hart.ctl.inHandler = false
  · rw [if_pos w, State.releasePin_eq]
    cases h : u.hart.ctl.rep with
    | none => constructor <;> simp [h, w, Hart.modCtl, State.modCsr, State.modCtl]
    | some r =>
      by_cases c : r.count ≤ u.hart.csr.rpc.toNat + 1
      · constructor <;> simp [h, w, Hart.modCtl, State.modCsr, State.modCtl, c]
      · constructor <;> simp [h, w, Hart.modCtl, State.modCsr, State.modCtl, c]
        omega
  · rw [if_neg w]
    cases h : u.hart.ctl.rep with
    | none => constructor <;> simp [h, w, State.modCsr, State.modCtl]
    | some r =>
      by_cases c : r.count ≤ u.hart.csr.rpc.toNat + 1
      · constructor <;> simp [h, w, State.modCsr, State.modCtl, c]
      · constructor <;> simp [h, w, State.modCsr, State.modCtl, c]
        omega

theorem passes_retire (u : State) : Passes u u.hart.ctl.next u.retire := passes_retireTo u _

/-! ## The pop of x30 -/

/-- Where no source names x30, nothing is popped. -/
theorem popped_none {rs : List (Fin 32)} (s : State) (h : rs.contains 30 = false) : popped rs s = some s := by
  unfold popped
  rw [h]
  rfl

theorem popFor_popped {rs : List (Fin 32)} {s u : State} (h : popped rs s = some u) (k : State → Res) :
    popFor rs s k = k u := by
  by_cases c : rs.contains 30 = true
  · by_cases e : s.hart.csr.mqEntries = 0
    · rw [popped, if_pos c, if_pos e] at h
      cases h
    · rw [popped, if_pos c, if_neg e] at h
      rw [popFor, if_pos c]
      unfold popMsg
      dsimp only
      rw [if_neg e]
      revert h
      cases s.hart.ctl.mq.msgs with
      | nil => exact fun h => nomatch h
      | cons m r =>
        dsimp only [whenFree]
        intro h
        split at h
        · cases h
        · next f =>
          cases h
          rw [if_neg f]
  · rw [popped, if_neg c] at h
    rw [popFor, if_neg c]
    cases h
    rfl

/-! ## Starting and ending -/

theorem issue_starts {h : Hdr} {rs : List (Fin 32)} {s u : State} (st : Starts h rs s u) (body : State → Res) :
    issue h rs s body = .next (finish s (body u)) := by
  unfold issue
  obtain ⟨g, p⟩ := st
  rw [if_pos g]
  split at p
  · next c => rw [if_pos c, p]
  · next c => rw [if_neg c, popFor_popped p]

/-- An F-word whose effect is done completes. -/
theorem completes_issue {i : Instr} {h : Hdr} {rs : List (Fin 32)} {s u v : State} {body : State → Res}
    (st : Starts h rs s u) (e : exec i s = issue h rs s body) (b : body u = .done v) : Completes i s v :=
  ⟨v.retire, by rw [e, issue_starts st, b]; rfl, passes_retire v⟩

/-- An F-word that branches to an aligned target completes there. -/
theorem jumps_issue {i : Instr} {h : Hdr} {rs : List (Fin 32)} {s u v : State} {body : State → Res} {x : Word}
    (st : Starts h rs s u) (e : exec i s = issue h rs s body) (b : body u = .jump x v) (a : x.toNat % 8 = 0) :
    Jumps i s x v :=
  ⟨v.retireTo x, by rw [e, issue_starts st, b]; simp [finish, a], passes_retireTo v x⟩

theorem waits_issue {i : Instr} {h : Hdr} {rs : List (Fin 32)} {s u v : State} {body : State → Res}
    (st : Starts h rs s u) (e : exec i s = issue h rs s body) (b : body u = .wait v) : Waits i s v := by
  unfold Waits
  rw [e, issue_starts st, b]
  rfl

theorem traps_issue {i : Instr} {h : Hdr} {rs : List (Fin 32)} {s u v : State} {body : State → Res} {t : Trap}
    (st : Starts h rs s u) (e : exec i s = issue h rs s body) (b : body u = .trap t v) : Traps i s v t := by
  unfold Traps
  rw [e, issue_starts st, b]
  rfl

/-- An F-word whose guard is off is passed over. -/
theorem issue_off {h : Hdr} {s : State} (g : guardOn h s = false) (rs : List (Fin 32)) (body : State → Res) :
    issue h rs s body = .next s.retire := by
  simp [issue, g]

/-! ## Checks -/

theorem needs_true {c : Bool} (h : c = true) (sub : Subcode) (s : State) (k : Res) : needs c sub s k = k := by
  simp [needs, h]

theorem whenFree_free {s : State} {xs : List Span} (h : s.interlocked xs = false) (k : Res) : whenFree s xs k = k := by
  simp [whenFree, h]

theorem whenMasks_free {s : State} {ks : List (Fin 8)} (h : ks.any s.maskHeld = false) (k : Res) : whenMasks s ks k = k := by
  simp [whenMasks, h]

theorem whenTagFree_free {s : State} {t : Fin 64} (h : (s.tag t).st ≠ .busy) (k : Res) : whenTagFree s t k = k := by
  simp [whenTagFree, h]

theorem vcheck_ok {s : State} {ok : Fmt → Bool} {vs : List (Fin 64)} (a : vs.all (aligned s.vt.size) = true)
    (f : ok s.vt.fmt = true) (k : Res) : vcheck s ok vs k = k := by
  simp [vcheck, needs, a, f]

theorem fenceAll_free {s : State} (h : s.hart.copying = false) (h' : s.unperformed = false) (k : State → Res) :
    fenceAll s k = k (s.settleHart s.hart.dest) := by
  simp [fenceAll, h, h']

theorem oneGroup_calm {s : State} {f : Flags} (h : s.enabled f = false) (k : State → Res) : oneGroup s f k = k (s.accrue f) := by
  simp [oneGroup, h]

theorem oneGroup_trap {s : State} {f : Flags} (h : s.enabled f = true) (k : State → Res) :
    oneGroup s f k = .trap (arithTrap f 0) s := by
  simp [oneGroup, h]

end Sys2Proof.Machine
end

