-- ==== Sys2Proof/Laws/Frames.lean ====
section
/-! SUPPORT. What the operations on memory, on the event and page-request rings and on queues leave alone: everything but the memory side
and the functions' records. -/

namespace Sys2Proof.Machine

theorem State.memOnly.refl (s : State) : s.memOnly s := rfl

theorem State.memOnly.trans {s t u : State} (a : s.memOnly t) (b : t.memOnly u) : s.memOnly u := by
  unfold State.memOnly at *
  rw [b, a]

theorem State.memOnly.foldl {α : Type} {f : State → α → State} (h : ∀ (s : State) (x : α), s.memOnly (f s x)) (l : List α) (s : State) :
    s.memOnly (l.foldl f s) := by
  induction l generalizing s with
  | nil => exact .refl s
  | cons a l ih => exact (h s a).trans (ih (f s a))

theorem State.memOnly.ite {c : Prop} [Decidable c] {s t u : State} (a : s.memOnly t) (b : s.memOnly u) :
    s.memOnly (if c then t else u) := by split <;> assumption

namespace State.memOnly

variable {s t : State} (h : s.memOnly t)
include h

theorem hart : t.hart = s.hart := by rw [h]
theorem parked : t.parked = s.parked := by rw [h]
theorem agenda : t.agenda = s.agenda := by rw [h]
theorem cores : t.cores = s.cores := by rw [h]
theorem sched : t.sched = s.sched := by rw [h]
theorem dev : t.dev = s.dev := by rw [h]
theorem cyc : t.cyc = s.cyc := by rw [h]
theorem issued : t.issued = s.issued := by rw [h]
theorem tried : t.tried = s.tried := by rw [h]
theorem pace : t.pace = s.pace := by rw [h]
theorem fresh : t.fresh = s.fresh := by rw [h]

end State.memOnly

/-! ## Memory -/

theorem State.memOnly_modMs (s : State) (f : Memsys → Memsys) : s.memOnly (s.modMs f) := rfl
theorem State.memOnly_modFn (s : State) (n : Nat) (f : Fn → Fn) : s.memOnly (s.modFn n f) := rfl
theorem State.memOnly_modQueue (s : State) (n : Nat) (q : Fin 16) (g : Queue → Queue) : s.memOnly (s.modQueue n q g) := rfl
theorem State.memOnly_modMeta (s : State) (frame : Nat) (f : PageMeta → PageMeta) : s.memOnly (s.modMeta frame f) := rfl
theorem State.memOnly_rawWrite (s : State) (frame off : Nat) (bs : List Byte) : s.memOnly (s.rawWrite frame off bs) := rfl

theorem State.memOnly_unpin (s : State) (h : Hart) : s.memOnly (s.unpin h) := by
  unfold State.unpin
  cases h.ctl.pin
  · rfl
  · exact .ite (.refl s) (State.memOnly_modMeta _ _ _)

theorem State.memOnly_abortConv (s : State) (frame : Nat) : s.memOnly (s.abortConv frame) := by
  unfold State.abortConv
  dsimp only
  split
  · rfl
  · generalize State.frameOwner _ _ = o
    cases o <;> rfl

theorem State.memOnly_touch (s : State) (frame : Nat) : s.memOnly (s.touch frame) :=
  (s.memOnly_abortConv frame).trans (State.memOnly_modMeta _ _ _)

theorem State.memOnly_putBlock (s : State) (lay : Layout) (frame b scale : Nat) (codes : List Nat) :
    s.memOnly (s.putBlock lay frame b scale codes) := by
  cases lay <;> rfl

theorem State.memOnly_encodeBlock (s : State) (lay : Layout) (frame b : Nat) (vs : List FVal) :
    s.memOnly (s.encodeBlock lay frame b vs) := by
  unfold State.encodeBlock
  cases lay.fmt
  · rfl
  · exact State.memOnly_putBlock _ _ _ _ _ _

theorem State.memOnly_putCode (s : State) (lay : Layout) (frame off code : Nat) : s.memOnly (s.putCode lay frame off code) := by
  cases lay <;> rfl

theorem State.memOnly_applySlot (s : State) (frame : Nat) (t : WqSlot) : s.memOnly (s.applySlot frame t) := by
  unfold State.applySlot
  split
  · rfl
  · split <;> rfl
  · split
    · split
      · rfl
      · exact State.memOnly_putCode _ _ _ _ _
    all_goals rfl

theorem State.memOnly_applySlots (s : State) (e : WqEntry) : s.memOnly (s.applySlots e) := by
  unfold State.applySlots
  dsimp only
  apply State.memOnly.ite
  · exact .foldl (fun s b => .ite (.refl s) (State.memOnly_encodeBlock _ _ _ _ _)) _ _
  · exact .foldl (fun s t => State.memOnly_applySlot s e.frame t) _ _

theorem State.memOnly_applyEntry (s : State) (e : WqEntry) : s.memOnly (s.applyEntry e) :=
  .ite (.refl s) ((s.memOnly_applySlots e).trans (State.memOnly_touch _ _))

theorem State.memOnly_applyWhere (s : State) (p : WqEntry → Bool) : s.memOnly (s.applyWhere p) :=
  .ite (.refl s) (.trans (State.memOnly_modMs _ _) (.foldl State.memOnly_applyEntry _ _))

theorem State.memOnly_settle (s : State) (frame off n : Nat) : s.memOnly (s.settle frame off n) := s.memOnly_applyWhere _
theorem State.memOnly_settleFrame (s : State) (frame : Nat) : s.memOnly (s.settleFrame frame) := s.memOnly_applyWhere _
theorem State.memOnly_settleHart (s : State) (d : Dest) : s.memOnly (s.settleHart d) := s.memOnly_applyWhere _
theorem State.memOnly_mergeArrive (s : State) (c : MergeAdd) : s.memOnly (s.mergeArrive c) := rfl

theorem State.memOnly_viewWrite (s : State) (p : Page) (bs : List Byte) : s.memOnly (s.viewWrite p bs) :=
  .trans (State.memOnly_rawWrite _ _ _ _) (State.memOnly_touch _ _)

/-! ## Device agents and rings -/

theorem State.memOnly_agentWrite {s t : State} {ctx : BitVec 16} {a : Word} {bs : List Byte}
    (h : s.agentWrite ctx a bs = some t) : s.memOnly t := by
  unfold State.agentWrite at h
  split at h
  · cases h
  · split at h
    · cases h
    · cases h
      exact .trans (State.memOnly_settle _ _ _ _) (State.memOnly_viewWrite _ _ _)

theorem State.memOnly_settleAt (s : State) (ctx : BitVec 16) (a : Word) (n : Nat) : s.memOnly (s.settleAt ctx a n) := by
  unfold State.settleAt
  split
  · exact .ite (.refl s) (State.memOnly_settle _ _ _ _)
  · exact .refl s

theorem State.memOnly_flushEventsN (n : Nat) (s : State) (fn : Nat) : s.memOnly (State.flushEventsN n s fn) := by
  induction n generalizing s with
  | zero => exact .refl s
  | succ n ih =>
    unfold State.flushEventsN
    dsimp only
    split
    · exact .refl s
    · split
      · exact .refl s
      · split
        · exact .refl s
        · next h => exact .trans (State.memOnly_agentWrite h) (.trans (State.memOnly_modFn _ _ _) (ih _))

theorem State.memOnly_flushEvents (s : State) (fn : Nat) : s.memOnly (s.flushEvents fn) := State.memOnly_flushEventsN 64 s fn

/-- Reporting an event touches memory and the function's records alone. -/
theorem State.memOnly_postEvent (s : State) (fn : Nat) (e : Event) : s.memOnly (s.postEvent fn e) :=
  .ite (.trans (State.memOnly_modFn _ _ _) (State.memOnly_flushEvents _ _)) (State.memOnly_modFn _ _ _)

theorem State.memOnly_flushReqsN (n : Nat) (s : State) (fn : Nat) : s.memOnly (State.flushReqsN n s fn) := by
  induction n generalizing s with
  | zero => exact .refl s
  | succ n ih =>
    unfold State.flushReqsN
    dsimp only
    split
    · exact .refl s
    · split
      · exact .refl s
      · split
        · exact .refl s
        · next h => exact .trans (State.memOnly_agentWrite h) (.trans (State.memOnly_modFn _ _ _) (ih _))

theorem State.memOnly_flushReqs (s : State) (fn : Nat) : s.memOnly (s.flushReqs fn) := State.memOnly_flushReqsN 1024 s fn

/-! ## Queues and partition reset -/

theorem State.memOnly_stopQueue (s : State) (n : Nat) (q : Fin 16) (code : Nat) (slot : BitVec 32) :
    s.memOnly (s.stopQueue n q code slot) :=
  .trans (State.memOnly_modQueue _ _ _ _) (State.memOnly_postEvent _ _ _)

theorem State.memOnly_replayQueue (s : State) (n : Nat) (i : Fin 16) (busy : Bool) : s.memOnly (s.replayQueue n i busy) := by
  unfold State.replayQueue
  dsimp only
  have w := State.memOnly.foldl (f := fun (s' : State) c => s'.settleAt (s.fn n).ctx ((s.fn n).queues[i].slotAddr c) 64)
    (fun s' c => State.memOnly_settleAt s' _ _ _)
    ((List.range ((s.fn n).queues[i].tail - (s.fn n).queues[i].head).toNat).map (fun k => (s.fn n).queues[i].head + BitVec.ofNat 32 k)) s
  refine .ite (State.memOnly_modQueue _ _ _ _) (w.trans (.ite ?_ (.ite ?_ (State.memOnly_modQueue _ _ _ _))))
  · exact .trans (State.memOnly_modQueue _ _ _ _) (State.memOnly_stopQueue _ _ _ _ _)
  · exact .trans (State.memOnly_modQueue _ _ _ _) (State.memOnly_stopQueue _ _ _ _ _)

/-- A partition reset is what `dropFn` releases, and changes of memory (the event ring) and of the function's records. -/
theorem State.memOnly_resetPartition (s : State) (n : Nat) (cause : Cause) (info : Word) (l : HartLoc) (pc : Word) :
    (s.dropFn n).memOnly (s.resetPartition n cause info l pc) := by
  unfold State.resetPartition
  exact .trans (State.memOnly_postEvent _ _ _) (.foldl (fun s q => State.memOnly_replayQueue s n q _) _ _)

theorem State.memOnly_trimCopies (s : State) (fn : Nat) (i : Fin 16) : s.memOnly (s.trimCopies fn i) := rfl

end Sys2Proof.Machine
end

