-- ==== Sys2Proof/Laws/Memory.lean ====
section
/-! SUPPORT. The laws of sparse maps and of memory: every operation keeps the canonical form, a read after a write gives what was
written, and a write leaves every other key alone. -/

namespace Sys2Proof.Machine

variable {α : Type} [DecidableEq α] {d : α}

/-! ## The canonical form -/

theorem Sparse.wfAbove_mono {d : α} {lo lo' : Nat} {m : List (Nat × α)} (h : lo' ≤ lo) (w : Sparse.wfAbove d lo m = true) :
    Sparse.wfAbove d lo' m = true := by
  cases m with
  | nil => rfl
  | cons c r =>
    simp only [Sparse.wfAbove, Bool.and_eq_true, decide_eq_true_eq] at w ⊢
    exact ⟨⟨by omega, w.1.2⟩, w.2⟩

theorem Sparse.wfAbove_put {d : α} (m : List (Nat × α)) (lo a : Nat) (x : α) (w : Sparse.wfAbove d lo m = true)
    (h : lo ≤ a) : Sparse.wfAbove d lo (Sparse.put d m a x) = true := by
  induction m generalizing lo with
  | nil =>
    simp only [Sparse.put]
    split
    · rfl
    · next hx => simp [Sparse.wfAbove, h, hx]
  | cons c r ih =>
    obtain ⟨k, v⟩ := c
    have w' := w
    simp only [Sparse.wfAbove, Bool.and_eq_true, decide_eq_true_eq] at w
    simp only [Sparse.put]
    split
    · next lt =>
      split
      · exact w'
      · next hx =>
        simp only [Sparse.wfAbove, Bool.and_eq_true, decide_eq_true_eq, bne_iff_ne, ne_eq]
        exact ⟨⟨h, hx⟩, ⟨lt, by simpa using w.1.2⟩, w.2⟩
    · split
      · next eq =>
        subst eq
        split
        · exact Sparse.wfAbove_mono (by omega) w.2
        · next hx =>
          simp only [Sparse.wfAbove, Bool.and_eq_true, decide_eq_true_eq, bne_iff_ne, ne_eq]
          exact ⟨⟨h, hx⟩, w.2⟩
      · simp only [Sparse.wfAbove, Bool.and_eq_true, decide_eq_true_eq]
        exact ⟨⟨w.1.1, w.1.2⟩, ih (k + 1) w.2 (by omega)⟩

theorem Sparse.wf_put {d : α} {m : List (Nat × α)} (w : Sparse.wf d m = true) (a : Nat) (x : α) :
    Sparse.wf d (Sparse.put d m a x) = true := Sparse.wfAbove_put m 0 a x w (Nat.zero_le _)

theorem Sparse.wfAbove_filter {d : α} (p : Nat × α → Bool) (m : List (Nat × α)) (lo : Nat)
    (w : Sparse.wfAbove d lo m = true) : Sparse.wfAbove d lo (m.filter p) = true := by
  induction m generalizing lo with
  | nil => rfl
  | cons c r ih =>
    obtain ⟨k, v⟩ := c
    simp only [Sparse.wfAbove, Bool.and_eq_true, decide_eq_true_eq] at w
    cases hp : p (k, v) with
    | true =>
      rw [List.filter_cons_of_pos hp]
      simp only [Sparse.wfAbove, Bool.and_eq_true, decide_eq_true_eq]
      exact ⟨w.1, ih (k + 1) w.2⟩
    | false =>
      rw [List.filter_cons_of_neg (by simp [hp])]
      exact Sparse.wfAbove_mono (by omega) (ih (k + 1) w.2)

theorem Sparse.wf_filter {d : α} {m : List (Nat × α)} (w : Sparse.wf d m = true) (p : Nat × α → Bool) :
    Sparse.wf d (m.filter p) = true := Sparse.wfAbove_filter p m 0 w

theorem Sparse.wf_clear {d : α} {m : List (Nat × α)} (w : Sparse.wf d m = true) (lo n : Nat) :
    Sparse.wf d (Sparse.clear lo n m) = true := Sparse.wf_filter w _

theorem Memory.wf_put {m : List Host.Cell} (w : Memory.wf m = true) (a : Nat) (b : Byte) :
    Memory.wf (Memory.put m a b) = true := Sparse.wf_put w a b

theorem Memory.wf_write {m : List Host.Cell} (w : Memory.wf m = true) (a : Nat) (bs : List Byte) :
    Memory.wf (Memory.write m a bs) = true := by
  induction bs generalizing m a with
  | nil => exact w
  | cons b bs ih => exact ih (Memory.wf_put w a b) (a + 1)

/-! ## What a key reads as -/

theorem Sparse.get_above {d : α} (m : List (Nat × α)) (lo a : Nat) (w : Sparse.wfAbove d lo m = true) (h : a < lo) :
    Sparse.get d m a = d := by
  cases m with
  | nil => rfl
  | cons c r =>
    obtain ⟨k, v⟩ := c
    simp only [Sparse.wfAbove, Bool.and_eq_true, decide_eq_true_eq] at w
    simp only [Sparse.get]
    rw [if_neg (by omega), if_pos (by omega)]

theorem Sparse.get_putAbove {d : α} (m : List (Nat × α)) (lo a b : Nat) (x : α) (w : Sparse.wfAbove d lo m = true) :
    Sparse.get d (Sparse.put d m a x) b = if b = a then x else Sparse.get d m b := by
  induction m generalizing lo with
  | nil =>
    simp only [Sparse.put]
    split
    · next hx => simp [Sparse.get, hx]
    · simp only [Sparse.get]
      grind
  | cons c r ih =>
    obtain ⟨k, v⟩ := c
    have w' := w
    simp only [Sparse.wfAbove, Bool.and_eq_true, decide_eq_true_eq] at w
    simp only [Sparse.put]
    split
    · next lt =>
      split
      · next hx =>
        by_cases e : b = a
        · subst e
          rw [if_pos rfl]
          simp only [Sparse.get]
          rw [if_neg (by omega), if_pos lt, hx]
        · rw [if_neg e]
      · simp only [Sparse.get]
        grind
    · next nl =>
      split
      · next eq =>
        subst eq
        split
        · next hx =>
          by_cases e : b = k
          · subst e
            rw [if_pos rfl, hx]
            exact Sparse.get_above r (b + 1) b w.2 (by omega)
          · rw [if_neg e]
            simp only [Sparse.get]
            rw [if_neg (fun q => e q.symm)]
            split
            · next l => exact Sparse.get_above r (k + 1) b w.2 (by omega)
            · rfl
        · simp only [Sparse.get]
          grind
      · next ne =>
        simp only [Sparse.get]
        rw [ih (k + 1) w.2]
        grind

/-- A read after a write of a key, and of every other key. -/
theorem Sparse.get_put {d : α} {m : List (Nat × α)} (w : Sparse.wf d m = true) (a b : Nat) (x : α) :
    Sparse.get d (Sparse.put d m a x) b = if b = a then x else Sparse.get d m b := Sparse.get_putAbove m 0 a b x w

theorem Memory.get_put {m : List Host.Cell} (w : Memory.wf m = true) (a b : Nat) (x : Byte) :
    Memory.get (Memory.put m a x) b = if b = a then x else Memory.get m b := Sparse.get_put w a b x

/-- Keys outside the written bytes read as before. -/
theorem Memory.get_write_outside {m : List Host.Cell} (w : Memory.wf m = true) (a : Nat) (bs : List Byte) (b : Nat)
    (h : b < a ∨ a + bs.length ≤ b) : Memory.get (Memory.write m a bs) b = Memory.get m b := by
  induction bs generalizing m a with
  | nil => rfl
  | cons x bs ih =>
    simp only [List.length_cons] at h
    rw [Memory.write, ih (Memory.wf_put w a x) (a + 1) (by omega), Memory.get_put w, if_neg (by omega)]

/-- The written bytes read as what was written. -/
theorem Memory.get_write_inside {m : List Host.Cell} (w : Memory.wf m = true) (a : Nat) (bs : List Byte) (i : Nat)
    (h : i < bs.length) : Memory.get (Memory.write m a bs) (a + i) = bs[i] := by
  induction bs generalizing m a i with
  | nil => exact absurd h (Nat.not_lt_zero _)
  | cons x bs ih =>
    rw [Memory.write]
    cases i with
    | zero =>
      rw [Memory.get_write_outside (Memory.wf_put w a x) (a + 1) bs (a + 0) (by omega), Memory.get_put w]
      simp
    | succ i =>
      have e : a + (i + 1) = a + 1 + i := by omega
      rw [e, ih (Memory.wf_put w a x) (a + 1) i (by simpa using h)]
      rfl

theorem Memory.read_length (m : List Host.Cell) (a n : Nat) : (Memory.read m a n).length = n := by
  induction n generalizing a with
  | zero => rfl
  | succ n ih => simp [Memory.read, ih]

/-- A read of the bytes just written gives them back. -/
theorem Memory.read_write {m : List Host.Cell} (w : Memory.wf m = true) (a : Nat) (bs : List Byte) :
    Memory.read (Memory.write m a bs) a bs.length = bs := by
  induction bs generalizing m a with
  | nil => rfl
  | cons x bs ih =>
    rw [List.length_cons, Memory.read, Memory.write, ih (Memory.wf_put w a x) (a + 1)]
    rw [Memory.get_write_outside (Memory.wf_put w a x) (a + 1) bs a (by omega), Memory.get_put w, if_pos rfl]

/-! ## Numbers as bytes (R4) -/

theorem leBytes_length (n x : Nat) : (leBytes n x).length = n := by
  induction n generalizing x with
  | zero => rfl
  | succ n ih => simp [leBytes, ih]

theorem leNat_leBytes (n x : Nat) : leNat (leBytes n x) = x % 256 ^ n := by
  induction n generalizing x with
  | zero => simp [leBytes, leNat, Nat.mod_one]
  | succ n ih =>
    rw [leBytes, leNat, ih, BitVec.toNat_ofNat]
    have e : 256 ^ (n + 1) = 256 * 256 ^ n := by rw [Nat.pow_succ, Nat.mul_comm]
    rw [e, Nat.mod_mul]

end Sys2Proof.Machine
end

