-- ==== Sys2Proof/Laws/PerInstr.lean ====
section
/-! SUPPORT. The family Exact: decoding what the encoder writes gives the instruction back, for each constructor. -/

set_option linter.all false

open Sys2Proof

/-- A well-formed instruction that has words is what they decode to. -/
def Sys2Proof.Laws.Exact.Statement (i : Instr) : Prop :=
  wellFormed i = true → encode i ≠ [] → fits i → decode 4 (encode i) = .ok i

theorem Sys2Proof.Laws.Exact.add (h : Hdr) (d : Fin 32) (a : Fin 32) (y : Src) : Sys2Proof.Laws.Exact.Statement (.add h d a y) := by
  intro hwf _ _
  have e : encode (.add h d a y) = fEnc h y.immOf { opc := 0x00, fn := 0, form := y.formVal, d := d.val, a := a.val, b := y.bVal } := rfl
  rcases y with r | (b | b) <;>
  · rw [e, decode_fEnc (hf := by constructor <;> simp [Src.formVal, Src.bVal, Src.immOf, FWord.src] <;> omega)]
    refine (decodeF_ok rfl rfl ?_).trans ?_ <;>
      simp [Shape.accepts, Shape.reservedOk, FClass.resvOk, Shape.maskOk, FClass.chainable, litOk, FClass.regOk, FClass.size, FWord.withEnc, literal_litNext, Imm.isLit, Imm.immVal, fldN_val, FWord.hdr, FWord.immv, FWord.immBits, FWord.immBv, Src.formVal, Src.bVal, Src.immOf, FWord.src]

theorem Sys2Proof.Laws.Exact.sub (h : Hdr) (d : Fin 32) (a : Fin 32) (y : Src) : Sys2Proof.Laws.Exact.Statement (.sub h d a y) := by
  intro hwf _ _
  have e : encode (.sub h d a y) = fEnc h y.immOf { opc := 0x00, fn := 1, form := y.formVal, d := d.val, a := a.val, b := y.bVal } := rfl
  rcases y with r | (b | b) <;>
  · rw [e, decode_fEnc (hf := by constructor <;> simp [Src.formVal, Src.bVal, Src.immOf, FWord.src] <;> omega)]
    refine (decodeF_ok rfl rfl ?_).trans ?_ <;>
      simp [Shape.accepts, Shape.reservedOk, FClass.resvOk, Shape.maskOk, FClass.chainable, litOk, FClass.regOk, FClass.size, FWord.withEnc, literal_litNext, Imm.isLit, Imm.immVal, fldN_val, FWord.hdr, FWord.immv, FWord.immBits, FWord.immBv, Src.formVal, Src.bVal, Src.immOf, FWord.src]

theorem Sys2Proof.Laws.Exact.and (h : Hdr) (d : Fin 32) (a : Fin 32) (y : Src) : Sys2Proof.Laws.Exact.Statement (.and h d a y) := by
  intro hwf _ _
  have e : encode (.and h d a y) = fEnc h y.immOf { opc := 0x00, fn := 2, form := y.formVal, d := d.val, a := a.val, b := y.bVal } := rfl
  rcases y with r | (b | b) <;>
  · rw [e, decode_fEnc (hf := by constructor <;> simp [Src.formVal, Src.bVal, Src.immOf, FWord.src] <;> omega)]
    refine (decodeF_ok rfl rfl ?_).trans ?_ <;>
      simp [Shape.accepts, Shape.reservedOk, FClass.resvOk, Shape.maskOk, FClass.chainable, litOk, FClass.regOk, FClass.size, FWord.withEnc, literal_litNext, Imm.isLit, Imm.immVal, fldN_val, FWord.hdr, FWord.immv, FWord.immBits, FWord.immBv, Src.formVal, Src.bVal, Src.immOf, FWord.src]

theorem Sys2Proof.Laws.Exact.or (h : Hdr) (d : Fin 32) (a : Fin 32) (y : Src) : Sys2Proof.Laws.Exact.Statement (.or h d a y) := by
  intro hwf _ _
  have e : encode (.or h d a y) = fEnc h y.immOf { opc := 0x00, fn := 3, form := y.formVal, d := d.val, a := a.val, b := y.bVal } := rfl
  rcases y with r | (b | b) <;>
  · rw [e, decode_fEnc (hf := by constructor <;> simp [Src.formVal, Src.bVal, Src.immOf, FWord.src] <;> omega)]
    refine (decodeF_ok rfl rfl ?_).trans ?_ <;>
      simp [Shape.accepts, Shape.reservedOk, FClass.resvOk, Shape.maskOk, FClass.chainable, litOk, FClass.regOk, FClass.size, FWord.withEnc, literal_litNext, Imm.isLit, Imm.immVal, fldN_val, FWord.hdr, FWord.immv, FWord.immBits, FWord.immBv, Src.formVal, Src.bVal, Src.immOf, FWord.src]

theorem Sys2Proof.Laws.Exact.xor (h : Hdr) (d : Fin 32) (a : Fin 32) (y : Src) : Sys2Proof.Laws.Exact.Statement (.xor h d a y) := by
  intro hwf _ _
  have e : encode (.xor h d a y) = fEnc h y.immOf { opc := 0x00, fn := 4, form := y.formVal, d := d.val, a := a.val, b := y.bVal } := rfl
  rcases y with r | (b | b) <;>
  · rw [e, decode_fEnc (hf := by constructor <;> simp [Src.formVal, Src.bVal, Src.immOf, FWord.src] <;> omega)]
    refine (decodeF_ok rfl rfl ?_).trans ?_ <;>
      simp [Shape.accepts, Shape.reservedOk, FClass.resvOk, Shape.maskOk, FClass.chainable, litOk, FClass.regOk, FClass.size, FWord.withEnc, literal_litNext, Imm.isLit, Imm.immVal, fldN_val, FWord.hdr, FWord.immv, FWord.immBits, FWord.immBv, Src.formVal, Src.bVal, Src.immOf, FWord.src]

theorem Sys2Proof.Laws.Exact.sll (h : Hdr) (d : Fin 32) (a : Fin 32) (y : Src) : Sys2Proof.Laws.Exact.Statement (.sll h d a y) := by
  intro hwf _ _
  have e : encode (.sll h d a y) = fEnc h y.immOf { opc := 0x00, fn := 5, form := y.formVal, d := d.val, a := a.val, b := y.bVal } := rfl
  rcases y with r | (b | b) <;>
  · rw [e, decode_fEnc (hf := by constructor <;> simp [Src.formVal, Src.bVal, Src.immOf, FWord.src] <;> omega)]
    refine (decodeF_ok rfl rfl ?_).trans ?_ <;>
      simp [Shape.accepts, Shape.reservedOk, FClass.resvOk, Shape.maskOk, FClass.chainable, litOk, FClass.regOk, FClass.size, FWord.withEnc, literal_litNext, Imm.isLit, Imm.immVal, fldN_val, FWord.hdr, FWord.immv, FWord.immBits, FWord.immBv, Src.formVal, Src.bVal, Src.immOf, FWord.src]

theorem Sys2Proof.Laws.Exact.srl (h : Hdr) (d : Fin 32) (a : Fin 32) (y : Src) : Sys2Proof.Laws.Exact.Statement (.srl h d a y) := by
  intro hwf _ _
  have e : encode (.srl h d a y) = fEnc h y.immOf { opc := 0x00, fn := 6, form := y.formVal, d := d.val, a := a.val, b := y.bVal } := rfl
  rcases y with r | (b | b) <;>
  · rw [e, decode_fEnc (hf := by constructor <;> simp [Src.formVal, Src.bVal, Src.immOf, FWord.src] <;> omega)]
    refine (decodeF_ok rfl rfl ?_).trans ?_ <;>
      simp [Shape.accepts, Shape.reservedOk, FClass.resvOk, Shape.maskOk, FClass.chainable, litOk, FClass.regOk, FClass.size, FWord.withEnc, literal_litNext, Imm.isLit, Imm.immVal, fldN_val, FWord.hdr, FWord.immv, FWord.immBits, FWord.immBv, Src.formVal, Src.bVal, Src.immOf, FWord.src]

theorem Sys2Proof.Laws.Exact.sra (h : Hdr) (d : Fin 32) (a : Fin 32) (y : Src) : Sys2Proof.Laws.Exact.Statement (.sra h d a y) := by
  intro hwf _ _
  have e : encode (.sra h d a y) = fEnc h y.immOf { opc := 0x00, fn := 7, form := y.formVal, d := d.val, a := a.val, b := y.bVal } := rfl
  rcases y with r | (b | b) <;>
  · rw [e, decode_fEnc (hf := by constructor <;> simp [Src.formVal, Src.bVal, Src.immOf, FWord.src] <;> omega)]
    refine (decodeF_ok rfl rfl ?_).trans ?_ <;>
      simp [Shape.accepts, Shape.reservedOk, FClass.resvOk, Shape.maskOk, FClass.chainable, litOk, FClass.regOk, FClass.size, FWord.withEnc, literal_litNext, Imm.isLit, Imm.immVal, fldN_val, FWord.hdr, FWord.immv, FWord.immBits, FWord.immBv, Src.formVal, Src.bVal, Src.immOf, FWord.src]

theorem Sys2Proof.Laws.Exact.mul (h : Hdr) (d : Fin 32) (a : Fin 32) (y : Src) : Sys2Proof.Laws.Exact.Statement (.mul h d a y) := by
  intro hwf _ _
  have e : encode (.mul h d a y) = fEnc h y.immOf { opc := 0x00, fn := 8, form := y.formVal, d := d.val, a := a.val, b := y.bVal } := rfl
  rcases y with r | (b | b) <;>
  · rw [e, decode_fEnc (hf := by constructor <;> simp [Src.formVal, Src.bVal, Src.immOf, FWord.src] <;> omega)]
    refine (decodeF_ok rfl rfl ?_).trans ?_ <;>
      simp [Shape.accepts, Shape.reservedOk, FClass.resvOk, Shape.maskOk, FClass.chainable, litOk, FClass.regOk, FClass.size, FWord.withEnc, literal_litNext, Imm.isLit, Imm.immVal, fldN_val, FWord.hdr, FWord.immv, FWord.immBits, FWord.immBv, Src.formVal, Src.bVal, Src.immOf, FWord.src]

theorem Sys2Proof.Laws.Exact.mulh (h : Hdr) (d : Fin 32) (a : Fin 32) (y : Src) : Sys2Proof.Laws.Exact.Statement (.mulh h d a y) := by
  intro hwf _ _
  have e : encode (.mulh h d a y) = fEnc h y.immOf { opc := 0x00, fn := 9, form := y.formVal, d := d.val, a := a.val, b := y.bVal } := rfl
  rcases y with r | (b | b) <;>
  · rw [e, decode_fEnc (hf := by constructor <;> simp [Src.formVal, Src.bVal, Src.immOf, FWord.src] <;> omega)]
    refine (decodeF_ok rfl rfl ?_).trans ?_ <;>
      simp [Shape.accepts, Shape.reservedOk, FClass.resvOk, Shape.maskOk, FClass.chainable, litOk, FClass.regOk, FClass.size, FWord.withEnc, literal_litNext, Imm.isLit, Imm.immVal, fldN_val, FWord.hdr, FWord.immv, FWord.immBits, FWord.immBv, Src.formVal, Src.bVal, Src.immOf, FWord.src]

theorem Sys2Proof.Laws.Exact.mulhu (h : Hdr) (d : Fin 32) (a : Fin 32) (y : Src) : Sys2Proof.Laws.Exact.Statement (.mulhu h d a y) := by
  intro hwf _ _
  have e : encode (.mulhu h d a y) = fEnc h y.immOf { opc := 0x00, fn := 10, form := y.formVal, d := d.val, a := a.val, b := y.bVal } := rfl
  rcases y with r | (b | b) <;>
  · rw [e, decode_fEnc (hf := by constructor <;> simp [Src.formVal, Src.bVal, Src.immOf, FWord.src] <;> omega)]
    refine (decodeF_ok rfl rfl ?_).trans ?_ <;>
      simp [Shape.accepts, Shape.reservedOk, FClass.resvOk, Shape.maskOk, FClass.chainable, litOk, FClass.regOk, FClass.size, FWord.withEnc, literal_litNext, Imm.isLit, Imm.immVal, fldN_val, FWord.hdr, FWord.immv, FWord.immBits, FWord.immBv, Src.formVal, Src.bVal, Src.immOf, FWord.src]

theorem Sys2Proof.Laws.Exact.div (h : Hdr) (d : Fin 32) (a : Fin 32) (y : Src) : Sys2Proof.Laws.Exact.Statement (.div h d a y) := by
  intro hwf _ _
  have e : encode (.div h d a y) = fEnc h y.immOf { opc := 0x00, fn := 11, form := y.formVal, d := d.val, a := a.val, b := y.bVal } := rfl
  rcases y with r | (b | b) <;>
  · rw [e, decode_fEnc (hf := by constructor <;> simp [Src.formVal, Src.bVal, Src.immOf, FWord.src] <;> omega)]
    refine (decodeF_ok rfl rfl ?_).trans ?_ <;>
      simp [Shape.accepts, Shape.reservedOk, FClass.resvOk, Shape.maskOk, FClass.chainable, litOk, FClass.regOk, FClass.size, FWord.withEnc, literal_litNext, Imm.isLit, Imm.immVal, fldN_val, FWord.hdr, FWord.immv, FWord.immBits, FWord.immBv, Src.formVal, Src.bVal, Src.immOf, FWord.src]

theorem Sys2Proof.Laws.Exact.divu (h : Hdr) (d : Fin 32) (a : Fin 32) (y : Src) : Sys2Proof.Laws.Exact.Statement (.divu h d a y) := by
  intro hwf _ _
  have e : encode (.divu h d a y) = fEnc h y.immOf { opc := 0x00, fn := 12, form := y.formVal, d := d.val, a := a.val, b := y.bVal } := rfl
  rcases y with r | (b | b) <;>
  · rw [e, decode_fEnc (hf := by constructor <;> simp [Src.formVal, Src.bVal, Src.immOf, FWord.src] <;> omega)]
    refine (decodeF_ok rfl rfl ?_).trans ?_ <;>
      simp [Shape.accepts, Shape.reservedOk, FClass.resvOk, Shape.maskOk, FClass.chainable, litOk, FClass.regOk, FClass.size, FWord.withEnc, literal_litNext, Imm.isLit, Imm.immVal, fldN_val, FWord.hdr, FWord.immv, FWord.immBits, FWord.immBv, Src.formVal, Src.bVal, Src.immOf, FWord.src]

theorem Sys2Proof.Laws.Exact.rem (h : Hdr) (d : Fin 32) (a : Fin 32) (y : Src) : Sys2Proof.Laws.Exact.Statement (.rem h d a y) := by
  intro hwf _ _
  have e : encode (.rem h d a y) = fEnc h y.immOf { opc := 0x00, fn := 13, form := y.formVal, d := d.val, a := a.val, b := y.bVal } := rfl
  rcases y with r | (b | b) <;>
  · rw [e, decode_fEnc (hf := by constructor <;> simp [Src.formVal, Src.bVal, Src.immOf, FWord.src] <;> omega)]
    refine (decodeF_ok rfl rfl ?_).trans ?_ <;>
      simp [Shape.accepts, Shape.reservedOk, FClass.resvOk, Shape.maskOk, FClass.chainable, litOk, FClass.regOk, FClass.size, FWord.withEnc, literal_litNext, Imm.isLit, Imm.immVal, fldN_val, FWord.hdr, FWord.immv, FWord.immBits, FWord.immBv, Src.formVal, Src.bVal, Src.immOf, FWord.src]

theorem Sys2Proof.Laws.Exact.remu (h : Hdr) (d : Fin 32) (a : Fin 32) (y : Src) : Sys2Proof.Laws.Exact.Statement (.remu h d a y) := by
  intro hwf _ _
  have e : encode (.remu h d a y) = fEnc h y.immOf { opc := 0x00, fn := 14, form := y.formVal, d := d.val, a := a.val, b := y.bVal } := rfl
  rcases y with r | (b | b) <;>
  · rw [e, decode_fEnc (hf := by constructor <;> simp [Src.formVal, Src.bVal, Src.immOf, FWord.src] <;> omega)]
    refine (decodeF_ok rfl rfl ?_).trans ?_ <;>
      simp [Shape.accepts, Shape.reservedOk, FClass.resvOk, Shape.maskOk, FClass.chainable, litOk, FClass.regOk, FClass.size, FWord.withEnc, literal_litNext, Imm.isLit, Imm.immVal, fldN_val, FWord.hdr, FWord.immv, FWord.immBits, FWord.immBv, Src.formVal, Src.bVal, Src.immOf, FWord.src]

theorem Sys2Proof.Laws.Exact.min (h : Hdr) (d : Fin 32) (a : Fin 32) (y : Src) : Sys2Proof.Laws.Exact.Statement (.min h d a y) := by
  intro hwf _ _
  have e : encode (.min h d a y) = fEnc h y.immOf { opc := 0x00, fn := 15, form := y.formVal, d := d.val, a := a.val, b := y.bVal } := rfl
  rcases y with r | (b | b) <;>
  · rw [e, decode_fEnc (hf := by constructor <;> simp [Src.formVal, Src.bVal, Src.immOf, FWord.src] <;> omega)]
    refine (decodeF_ok rfl rfl ?_).trans ?_ <;>
      simp [Shape.accepts, Shape.reservedOk, FClass.resvOk, Shape.maskOk, FClass.chainable, litOk, FClass.regOk, FClass.size, FWord.withEnc, literal_litNext, Imm.isLit, Imm.immVal, fldN_val, FWord.hdr, FWord.immv, FWord.immBits, FWord.immBv, Src.formVal, Src.bVal, Src.immOf, FWord.src]

theorem Sys2Proof.Laws.Exact.max (h : Hdr) (d : Fin 32) (a : Fin 32) (y : Src) : Sys2Proof.Laws.Exact.Statement (.max h d a y) := by
  intro hwf _ _
  have e : encode (.max h d a y) = fEnc h y.immOf { opc := 0x00, fn := 16, form := y.formVal, d := d.val, a := a.val, b := y.bVal } := rfl
  rcases y with r | (b | b) <;>
  · rw [e, decode_fEnc (hf := by constructor <;> simp [Src.formVal, Src.bVal, Src.immOf, FWord.src] <;> omega)]
    refine (decodeF_ok rfl rfl ?_).trans ?_ <;>
      simp [Shape.accepts, Shape.reservedOk, FClass.resvOk, Shape.maskOk, FClass.chainable, litOk, FClass.regOk, FClass.size, FWord.withEnc, literal_litNext, Imm.isLit, Imm.immVal, fldN_val, FWord.hdr, FWord.immv, FWord.immBits, FWord.immBv, Src.formVal, Src.bVal, Src.immOf, FWord.src]

theorem Sys2Proof.Laws.Exact.minu (h : Hdr) (d : Fin 32) (a : Fin 32) (y : Src) : Sys2Proof.Laws.Exact.Statement (.minu h d a y) := by
  intro hwf _ _
  have e : encode (.minu h d a y) = fEnc h y.immOf { opc := 0x00, fn := 17, form := y.formVal, d := d.val, a := a.val, b := y.bVal } := rfl
  rcases y with r | (b | b) <;>
  · rw [e, decode_fEnc (hf := by constructor <;> simp [Src.formVal, Src.bVal, Src.immOf, FWord.src] <;> omega)]
    refine (decodeF_ok rfl rfl ?_).trans ?_ <;>
      simp [Shape.accepts, Shape.reservedOk, FClass.resvOk, Shape.maskOk, FClass.chainable, litOk, FClass.regOk, FClass.size, FWord.withEnc, literal_litNext, Imm.isLit, Imm.immVal, fldN_val, FWord.hdr, FWord.immv, FWord.immBits, FWord.immBv, Src.formVal, Src.bVal, Src.immOf, FWord.src]

theorem Sys2Proof.Laws.Exact.maxu (h : Hdr) (d : Fin 32) (a : Fin 32) (y : Src) : Sys2Proof.Laws.Exact.Statement (.maxu h d a y) := by
  intro hwf _ _
  have e : encode (.maxu h d a y) = fEnc h y.immOf { opc := 0x00, fn := 18, form := y.formVal, d := d.val, a := a.val, b := y.bVal } := rfl
  rcases y with r | (b | b) <;>
  · rw [e, decode_fEnc (hf := by constructor <;> simp [Src.formVal, Src.bVal, Src.immOf, FWord.src] <;> omega)]
    refine (decodeF_ok rfl rfl ?_).trans ?_ <;>
      simp [Shape.accepts, Shape.reservedOk, FClass.resvOk, Shape.maskOk, FClass.chainable, litOk, FClass.regOk, FClass.size, FWord.withEnc, literal_litNext, Imm.isLit, Imm.immVal, fldN_val, FWord.hdr, FWord.immv, FWord.immBits, FWord.immBv, Src.formVal, Src.bVal, Src.immOf, FWord.src]

theorem Sys2Proof.Laws.Exact.clz (h : Hdr) (d : Fin 32) (a : Fin 32) : Sys2Proof.Laws.Exact.Statement (.clz h d a) := by
  intro hwf _ _
  have e : encode (.clz h d a) = fEnc h none { opc := 0x00, fn := 19, d := d.val, a := a.val } := rfl
  rw [e, decode_fEnc (hf := by constructor <;> simp <;> omega)]
  refine (decodeF_ok rfl rfl ?_).trans ?_ <;>
    simp [Shape.accepts, Shape.reservedOk, FClass.resvOk, Shape.maskOk, FClass.chainable, litOk, FClass.regOk, FClass.size, FWord.withEnc, literal_litNext, Imm.isLit, Imm.immVal, fldN_val, FWord.hdr, FWord.immv, FWord.immBits, FWord.immBv]

theorem Sys2Proof.Laws.Exact.ctz (h : Hdr) (d : Fin 32) (a : Fin 32) : Sys2Proof.Laws.Exact.Statement (.ctz h d a) := by
  intro hwf _ _
  have e : encode (.ctz h d a) = fEnc h none { opc := 0x00, fn := 20, d := d.val, a := a.val } := rfl
  rw [e, decode_fEnc (hf := by constructor <;> simp <;> omega)]
  refine (decodeF_ok rfl rfl ?_).trans ?_ <;>
    simp [Shape.accepts, Shape.reservedOk, FClass.resvOk, Shape.maskOk, FClass.chainable, litOk, FClass.regOk, FClass.size, FWord.withEnc, literal_litNext, Imm.isLit, Imm.immVal, fldN_val, FWord.hdr, FWord.immv, FWord.immBits, FWord.immBv]

theorem Sys2Proof.Laws.Exact.popc (h : Hdr) (d : Fin 32) (a : Fin 32) : Sys2Proof.Laws.Exact.Statement (.popc h d a) := by
  intro hwf _ _
  have e : encode (.popc h d a) = fEnc h none { opc := 0x00, fn := 21, d := d.val, a := a.val } := rfl
  rw [e, decode_fEnc (hf := by constructor <;> simp <;> omega)]
  refine (decodeF_ok rfl rfl ?_).trans ?_ <;>
    simp [Shape.accepts, Shape.reservedOk, FClass.resvOk, Shape.maskOk, FClass.chainable, litOk, FClass.regOk, FClass.size, FWord.withEnc, literal_litNext, Imm.isLit, Imm.immVal, fldN_val, FWord.hdr, FWord.immv, FWord.immBits, FWord.immBv]

theorem Sys2Proof.Laws.Exact.addsh (h : Hdr) (d : Fin 32) (a : Fin 32) (b : Fin 32) (sh : BitVec 3) : Sys2Proof.Laws.Exact.Statement (.addsh h d a b sh) := by
  intro hwf _ _
  have e : encode (.addsh h d a b sh) = fEnc h none { opc := 0x00, fn := 22, d := d.val, a := a.val, b := b.val, imm := sh.toNat } := rfl
  have hm : (sh.toNat) &&& 7 = sh.toNat := and_mask 3 (by omega)
  have v0 : ∀ w : FWord, w.imm = sh.toNat → w.immBv 0 3 = sh := fun w q => by
    rw [FWord.immBv, q]; apply BitVec.eq_of_toNat_eq; rw [BitVec.toNat_ofNat]; omega
  rw [e, decode_fEnc (hf := by constructor <;> simp <;> omega)]
  refine (decodeF_ok rfl rfl ?_).trans ?_ <;>
    simp [Shape.accepts, Shape.reservedOk, FClass.resvOk, Shape.maskOk, FClass.chainable, litOk, FClass.regOk, FClass.size, FWord.withEnc, fldN_val, FWord.hdr, hm, v0]

theorem Sys2Proof.Laws.Exact.rot (h : Hdr) (d : Fin 32) (a : Fin 32) (y : Src) : Sys2Proof.Laws.Exact.Statement (.rot h d a y) := by
  intro hwf _ _
  have e : encode (.rot h d a y) = fEnc h y.immOf { opc := 0x00, fn := 23, form := y.formVal, d := d.val, a := a.val, b := y.bVal } := rfl
  rcases y with r | (b | b) <;>
  · rw [e, decode_fEnc (hf := by constructor <;> simp [Src.formVal, Src.bVal, Src.immOf, FWord.src] <;> omega)]
    refine (decodeF_ok rfl rfl ?_).trans ?_ <;>
      simp [Shape.accepts, Shape.reservedOk, FClass.resvOk, Shape.maskOk, FClass.chainable, litOk, FClass.regOk, FClass.size, FWord.withEnc, literal_litNext, Imm.isLit, Imm.immVal, fldN_val, FWord.hdr, FWord.immv, FWord.immBits, FWord.immBv, Src.formVal, Src.bVal, Src.immOf, FWord.src]

theorem Sys2Proof.Laws.Exact.ceq (h : Hdr) (d : Fin 8) (a : Fin 32) (y : Src) : Sys2Proof.Laws.Exact.Statement (.ceq h d a y) := by
  intro hwf _ _
  have e : encode (.ceq h d a y) = fEnc h y.immOf { opc := 0x01, fn := 0, form := y.formVal, d := d.val, a := a.val, b := y.bVal } := rfl
  rcases y with r | (b | b) <;>
  · rw [e, decode_fEnc (hf := by constructor <;> simp [Src.formVal, Src.bVal, Src.immOf, FWord.src] <;> omega)]
    refine (decodeF_ok rfl rfl ?_).trans ?_ <;>
      simp [Shape.accepts, Shape.reservedOk, FClass.resvOk, Shape.maskOk, FClass.chainable, litOk, FClass.regOk, FClass.size, FWord.withEnc, literal_litNext, Imm.isLit, Imm.immVal, fldN_val, FWord.hdr, FWord.immv, FWord.immBits, FWord.immBv, Src.formVal, Src.bVal, Src.immOf, FWord.src]

theorem Sys2Proof.Laws.Exact.cne (h : Hdr) (d : Fin 8) (a : Fin 32) (y : Src) : Sys2Proof.Laws.Exact.Statement (.cne h d a y) := by
  intro hwf _ _
  have e : encode (.cne h d a y) = fEnc h y.immOf { opc := 0x01, fn := 1, form := y.formVal, d := d.val, a := a.val, b := y.bVal } := rfl
  rcases y with r | (b | b) <;>
  · rw [e, decode_fEnc (hf := by constructor <;> simp [Src.formVal, Src.bVal, Src.immOf, FWord.src] <;> omega)]
    refine (decodeF_ok rfl rfl ?_).trans ?_ <;>
      simp [Shape.accepts, Shape.reservedOk, FClass.resvOk, Shape.maskOk, FClass.chainable, litOk, FClass.regOk, FClass.size, FWord.withEnc, literal_litNext, Imm.isLit, Imm.immVal, fldN_val, FWord.hdr, FWord.immv, FWord.immBits, FWord.immBv, Src.formVal, Src.bVal, Src.immOf, FWord.src]

theorem Sys2Proof.Laws.Exact.clt (h : Hdr) (d : Fin 8) (a : Fin 32) (y : Src) : Sys2Proof.Laws.Exact.Statement (.clt h d a y) := by
  intro hwf _ _
  have e : encode (.clt h d a y) = fEnc h y.immOf { opc := 0x01, fn := 2, form := y.formVal, d := d.val, a := a.val, b := y.bVal } := rfl
  rcases y with r | (b | b) <;>
  · rw [e, decode_fEnc (hf := by constructor <;> simp [Src.formVal, Src.bVal, Src.immOf, FWord.src] <;> omega)]
    refine (decodeF_ok rfl rfl ?_).trans ?_ <;>
      simp [Shape.accepts, Shape.reservedOk, FClass.resvOk, Shape.maskOk, FClass.chainable, litOk, FClass.regOk, FClass.size, FWord.withEnc, literal_litNext, Imm.isLit, Imm.immVal, fldN_val, FWord.hdr, FWord.immv, FWord.immBits, FWord.immBv, Src.formVal, Src.bVal, Src.immOf, FWord.src]

theorem Sys2Proof.Laws.Exact.cltu (h : Hdr) (d : Fin 8) (a : Fin 32) (y : Src) : Sys2Proof.Laws.Exact.Statement (.cltu h d a y) := by
  intro hwf _ _
  have e : encode (.cltu h d a y) = fEnc h y.immOf { opc := 0x01, fn := 3, form := y.formVal, d := d.val, a := a.val, b := y.bVal } := rfl
  rcases y with r | (b | b) <;>
  · rw [e, decode_fEnc (hf := by constructor <;> simp [Src.formVal, Src.bVal, Src.immOf, FWord.src] <;> omega)]
    refine (decodeF_ok rfl rfl ?_).trans ?_ <;>
      simp [Shape.accepts, Shape.reservedOk, FClass.resvOk, Shape.maskOk, FClass.chainable, litOk, FClass.regOk, FClass.size, FWord.withEnc, literal_litNext, Imm.isLit, Imm.immVal, fldN_val, FWord.hdr, FWord.immv, FWord.immBits, FWord.immBv, Src.formVal, Src.bVal, Src.immOf, FWord.src]

theorem Sys2Proof.Laws.Exact.cge (h : Hdr) (d : Fin 8) (a : Fin 32) (y : Src) : Sys2Proof.Laws.Exact.Statement (.cge h d a y) := by
  intro hwf _ _
  have e : encode (.cge h d a y) = fEnc h y.immOf { opc := 0x01, fn := 4, form := y.formVal, d := d.val, a := a.val, b := y.bVal } := rfl
  rcases y with r | (b | b) <;>
  · rw [e, decode_fEnc (hf := by constructor <;> simp [Src.formVal, Src.bVal, Src.immOf, FWord.src] <;> omega)]
    refine (decodeF_ok rfl rfl ?_).trans ?_ <;>
      simp [Shape.accepts, Shape.reservedOk, FClass.resvOk, Shape.maskOk, FClass.chainable, litOk, FClass.regOk, FClass.size, FWord.withEnc, literal_litNext, Imm.isLit, Imm.immVal, fldN_val, FWord.hdr, FWord.immv, FWord.immBits, FWord.immBv, Src.formVal, Src.bVal, Src.immOf, FWord.src]

theorem Sys2Proof.Laws.Exact.cgeu (h : Hdr) (d : Fin 8) (a : Fin 32) (y : Src) : Sys2Proof.Laws.Exact.Statement (.cgeu h d a y) := by
  intro hwf _ _
  have e : encode (.cgeu h d a y) = fEnc h y.immOf { opc := 0x01, fn := 5, form := y.formVal, d := d.val, a := a.val, b := y.bVal } := rfl
  rcases y with r | (b | b) <;>
  · rw [e, decode_fEnc (hf := by constructor <;> simp [Src.formVal, Src.bVal, Src.immOf, FWord.src] <;> omega)]
    refine (decodeF_ok rfl rfl ?_).trans ?_ <;>
      simp [Shape.accepts, Shape.reservedOk, FClass.resvOk, Shape.maskOk, FClass.chainable, litOk, FClass.regOk, FClass.size, FWord.withEnc, literal_litNext, Imm.isLit, Imm.immVal, fldN_val, FWord.hdr, FWord.immv, FWord.immBits, FWord.immBv, Src.formVal, Src.bVal, Src.immOf, FWord.src]

theorem Sys2Proof.Laws.Exact.gand (h : Hdr) (d : Fin 8) (a : Fin 8) (b : Fin 8) : Sys2Proof.Laws.Exact.Statement (.gand h d a b) := by
  intro hwf _ _
  have e : encode (.gand h d a b) = fEnc h none { opc := 0x01, fn := 6, d := d.val, a := a.val, b := b.val } := rfl
  rw [e, decode_fEnc (hf := by constructor <;> simp <;> omega)]
  refine (decodeF_ok rfl rfl ?_).trans ?_ <;>
    simp [Shape.accepts, Shape.reservedOk, FClass.resvOk, Shape.maskOk, FClass.chainable, litOk, FClass.regOk, FClass.size, FWord.withEnc, literal_litNext, Imm.isLit, Imm.immVal, fldN_val, FWord.hdr, FWord.immv, FWord.immBits, FWord.immBv]

theorem Sys2Proof.Laws.Exact.gor (h : Hdr) (d : Fin 8) (a : Fin 8) (b : Fin 8) : Sys2Proof.Laws.Exact.Statement (.gor h d a b) := by
  intro hwf _ _
  have e : encode (.gor h d a b) = fEnc h none { opc := 0x01, fn := 7, d := d.val, a := a.val, b := b.val } := rfl
  rw [e, decode_fEnc (hf := by constructor <;> simp <;> omega)]
  refine (decodeF_ok rfl rfl ?_).trans ?_ <;>
    simp [Shape.accepts, Shape.reservedOk, FClass.resvOk, Shape.maskOk, FClass.chainable, litOk, FClass.regOk, FClass.size, FWord.withEnc, literal_litNext, Imm.isLit, Imm.immVal, fldN_val, FWord.hdr, FWord.immv, FWord.immBits, FWord.immBv]

theorem Sys2Proof.Laws.Exact.gxor (h : Hdr) (d : Fin 8) (a : Fin 8) (b : Fin 8) : Sys2Proof.Laws.Exact.Statement (.gxor h d a b) := by
  intro hwf _ _
  have e : encode (.gxor h d a b) = fEnc h none { opc := 0x01, fn := 8, d := d.val, a := a.val, b := b.val } := rfl
  rw [e, decode_fEnc (hf := by constructor <;> simp <;> omega)]
  refine (decodeF_ok rfl rfl ?_).trans ?_ <;>
    simp [Shape.accepts, Shape.reservedOk, FClass.resvOk, Shape.maskOk, FClass.chainable, litOk, FClass.regOk, FClass.size, FWord.withEnc, literal_litNext, Imm.isLit, Imm.immVal, fldN_val, FWord.hdr, FWord.immv, FWord.immBits, FWord.immBv]

theorem Sys2Proof.Laws.Exact.gnot (h : Hdr) (d : Fin 8) (a : Fin 8) : Sys2Proof.Laws.Exact.Statement (.gnot h d a) := by
  intro hwf _ _
  have e : encode (.gnot h d a) = fEnc h none { opc := 0x01, fn := 9, d := d.val, a := a.val } := rfl
  rw [e, decode_fEnc (hf := by constructor <;> simp <;> omega)]
  refine (decodeF_ok rfl rfl ?_).trans ?_ <;>
    simp [Shape.accepts, Shape.reservedOk, FClass.resvOk, Shape.maskOk, FClass.chainable, litOk, FClass.regOk, FClass.size, FWord.withEnc, literal_litNext, Imm.isLit, Imm.immVal, fldN_val, FWord.hdr, FWord.immv, FWord.immBits, FWord.immBv]

theorem Sys2Proof.Laws.Exact.li (h : Hdr) (d : Fin 32) (i : Imm) : Sys2Proof.Laws.Exact.Statement (.li h d i) := by
  intro hwf _ _
  have e : encode (.li h d i) = fEnc h (some i) { opc := 0x02, fn := 0, form := 2, d := d.val } := rfl
  rcases i with b | b <;>
  · rw [e, decode_fEnc (hf := by constructor <;> simp <;> omega)]
    refine (decodeF_ok rfl rfl ?_).trans ?_ <;>
      simp [Shape.accepts, Shape.reservedOk, FClass.resvOk, Shape.maskOk, FClass.chainable, litOk, FClass.regOk, FClass.size, FWord.withEnc, literal_litNext, Imm.isLit, Imm.immVal, fldN_val, FWord.hdr, FWord.immv, FWord.immBits, FWord.immBv]

theorem Sys2Proof.Laws.Exact.mv (h : Hdr) (d : Fin 32) (a : Fin 32) : Sys2Proof.Laws.Exact.Statement (.mv h d a) := by
  intro hwf _ _
  have e : encode (.mv h d a) = fEnc h none { opc := 0x02, fn := 1, d := d.val, a := a.val } := rfl
  rw [e, decode_fEnc (hf := by constructor <;> simp <;> omega)]
  refine (decodeF_ok rfl rfl ?_).trans ?_ <;>
    simp [Shape.accepts, Shape.reservedOk, FClass.resvOk, Shape.maskOk, FClass.chainable, litOk, FClass.regOk, FClass.size, FWord.withEnc, literal_litNext, Imm.isLit, Imm.immVal, fldN_val, FWord.hdr, FWord.immv, FWord.immBits, FWord.immBv]

theorem Sys2Proof.Laws.Exact.adr (h : Hdr) (d : Fin 32) (i : Imm) : Sys2Proof.Laws.Exact.Statement (.adr h d i) := by
  intro hwf _ _
  have e : encode (.adr h d i) = fEnc h (some i) { opc := 0x02, fn := 2, form := 2, d := d.val } := rfl
  rcases i with b | b <;>
  · rw [e, decode_fEnc (hf := by constructor <;> simp <;> omega)]
    refine (decodeF_ok rfl rfl ?_).trans ?_ <;>
      simp [Shape.accepts, Shape.reservedOk, FClass.resvOk, Shape.maskOk, FClass.chainable, litOk, FClass.regOk, FClass.size, FWord.withEnc, literal_litNext, Imm.isLit, Imm.immVal, fldN_val, FWord.hdr, FWord.immv, FWord.immBits, FWord.immBv]

theorem Sys2Proof.Laws.Exact.sel (h : Hdr) (d : Fin 32) (a : Fin 32) (b : Fin 32) (n : BitVec 3) : Sys2Proof.Laws.Exact.Statement (.sel h d a b n) := by
  intro hwf _ _
  have e : encode (.sel h d a b n) = fEnc h none { opc := 0x02, fn := 3, d := d.val, a := a.val, b := b.val, imm := n.toNat } := rfl
  have hm : (n.toNat) &&& 7 = n.toNat := and_mask 3 (by omega)
  have v0 : ∀ w : FWord, w.imm = n.toNat → w.immBv 0 3 = n := fun w q => by
    rw [FWord.immBv, q]; apply BitVec.eq_of_toNat_eq; rw [BitVec.toNat_ofNat]; omega
  rw [e, decode_fEnc (hf := by constructor <;> simp <;> omega)]
  refine (decodeF_ok rfl rfl ?_).trans ?_ <;>
    simp [Shape.accepts, Shape.reservedOk, FClass.resvOk, Shape.maskOk, FClass.chainable, litOk, FClass.regOk, FClass.size, FWord.withEnc, fldN_val, FWord.hdr, hm, v0]

theorem Sys2Proof.Laws.Exact.gget (h : Hdr) (d : Fin 32) : Sys2Proof.Laws.Exact.Statement (.gget h d) := by
  intro hwf _ _
  have e : encode (.gget h d) = fEnc h none { opc := 0x02, fn := 4, d := d.val } := rfl
  rw [e, decode_fEnc (hf := by constructor <;> simp <;> omega)]
  refine (decodeF_ok rfl rfl ?_).trans ?_ <;>
    simp [Shape.accepts, Shape.reservedOk, FClass.resvOk, Shape.maskOk, FClass.chainable, litOk, FClass.regOk, FClass.size, FWord.withEnc, literal_litNext, Imm.isLit, Imm.immVal, fldN_val, FWord.hdr, FWord.immv, FWord.immBits, FWord.immBv]

theorem Sys2Proof.Laws.Exact.gput (h : Hdr) (a : Fin 32) : Sys2Proof.Laws.Exact.Statement (.gput h a) := by
  intro hwf _ _
  have e : encode (.gput h a) = fEnc h none { opc := 0x02, fn := 5, a := a.val } := rfl
  rw [e, decode_fEnc (hf := by constructor <;> simp <;> omega)]
  refine (decodeF_ok rfl rfl ?_).trans ?_ <;>
    simp [Shape.accepts, Shape.reservedOk, FClass.resvOk, Shape.maskOk, FClass.chainable, litOk, FClass.regOk, FClass.size, FWord.withEnc, literal_litNext, Imm.isLit, Imm.immVal, fldN_val, FWord.hdr, FWord.immv, FWord.immBits, FWord.immBv]

theorem Sys2Proof.Laws.Exact.fadd (h : Hdr) (d : Fin 32) (a : Fin 32) (b : Fin 32) : Sys2Proof.Laws.Exact.Statement (.fadd h d a b) := by
  intro hwf _ _
  have e : encode (.fadd h d a b) = fEnc h none { opc := 0x03, fn := 0, d := d.val, a := a.val, b := b.val } := rfl
  rw [e, decode_fEnc (hf := by constructor <;> simp <;> omega)]
  refine (decodeF_ok rfl rfl ?_).trans ?_ <;>
    simp [Shape.accepts, Shape.reservedOk, FClass.resvOk, Shape.maskOk, FClass.chainable, litOk, FClass.regOk, FClass.size, FWord.withEnc, literal_litNext, Imm.isLit, Imm.immVal, fldN_val, FWord.hdr, FWord.immv, FWord.immBits, FWord.immBv]

theorem Sys2Proof.Laws.Exact.fsub (h : Hdr) (d : Fin 32) (a : Fin 32) (b : Fin 32) : Sys2Proof.Laws.Exact.Statement (.fsub h d a b) := by
  intro hwf _ _
  have e : encode (.fsub h d a b) = fEnc h none { opc := 0x03, fn := 1, d := d.val, a := a.val, b := b.val } := rfl
  rw [e, decode_fEnc (hf := by constructor <;> simp <;> omega)]
  refine (decodeF_ok rfl rfl ?_).trans ?_ <;>
    simp [Shape.accepts, Shape.reservedOk, FClass.resvOk, Shape.maskOk, FClass.chainable, litOk, FClass.regOk, FClass.size, FWord.withEnc, literal_litNext, Imm.isLit, Imm.immVal, fldN_val, FWord.hdr, FWord.immv, FWord.immBits, FWord.immBv]

theorem Sys2Proof.Laws.Exact.fmul (h : Hdr) (d : Fin 32) (a : Fin 32) (b : Fin 32) : Sys2Proof.Laws.Exact.Statement (.fmul h d a b) := by
  intro hwf _ _
  have e : encode (.fmul h d a b) = fEnc h none { opc := 0x03, fn := 2, d := d.val, a := a.val, b := b.val } := rfl
  rw [e, decode_fEnc (hf := by constructor <;> simp <;> omega)]
  refine (decodeF_ok rfl rfl ?_).trans ?_ <;>
    simp [Shape.accepts, Shape.reservedOk, FClass.resvOk, Shape.maskOk, FClass.chainable, litOk, FClass.regOk, FClass.size, FWord.withEnc, literal_litNext, Imm.isLit, Imm.immVal, fldN_val, FWord.hdr, FWord.immv, FWord.immBits, FWord.immBv]

theorem Sys2Proof.Laws.Exact.fdiv (h : Hdr) (d : Fin 32) (a : Fin 32) (b : Fin 32) : Sys2Proof.Laws.Exact.Statement (.fdiv h d a b) := by
  intro hwf _ _
  have e : encode (.fdiv h d a b) = fEnc h none { opc := 0x03, fn := 3, d := d.val, a := a.val, b := b.val } := rfl
  rw [e, decode_fEnc (hf := by constructor <;> simp <;> omega)]
  refine (decodeF_ok rfl rfl ?_).trans ?_ <;>
    simp [Shape.accepts, Shape.reservedOk, FClass.resvOk, Shape.maskOk, FClass.chainable, litOk, FClass.regOk, FClass.size, FWord.withEnc, literal_litNext, Imm.isLit, Imm.immVal, fldN_val, FWord.hdr, FWord.immv, FWord.immBits, FWord.immBv]

theorem Sys2Proof.Laws.Exact.fma (h : Hdr) (d : Fin 32) (a : Fin 32) (b : Fin 32) : Sys2Proof.Laws.Exact.Statement (.fma h d a b) := by
  intro hwf _ _
  have e : encode (.fma h d a b) = fEnc h none { opc := 0x03, fn := 5, d := d.val, a := a.val, b := b.val } := rfl
  rw [e, decode_fEnc (hf := by constructor <;> simp <;> omega)]
  refine (decodeF_ok rfl rfl ?_).trans ?_ <;>
    simp [Shape.accepts, Shape.reservedOk, FClass.resvOk, Shape.maskOk, FClass.chainable, litOk, FClass.regOk, FClass.size, FWord.withEnc, literal_litNext, Imm.isLit, Imm.immVal, fldN_val, FWord.hdr, FWord.immv, FWord.immBits, FWord.immBv]

theorem Sys2Proof.Laws.Exact.fmin (h : Hdr) (d : Fin 32) (a : Fin 32) (b : Fin 32) : Sys2Proof.Laws.Exact.Statement (.fmin h d a b) := by
  intro hwf _ _
  have e : encode (.fmin h d a b) = fEnc h none { opc := 0x03, fn := 6, d := d.val, a := a.val, b := b.val } := rfl
  rw [e, decode_fEnc (hf := by constructor <;> simp <;> omega)]
  refine (decodeF_ok rfl rfl ?_).trans ?_ <;>
    simp [Shape.accepts, Shape.reservedOk, FClass.resvOk, Shape.maskOk, FClass.chainable, litOk, FClass.regOk, FClass.size, FWord.withEnc, literal_litNext, Imm.isLit, Imm.immVal, fldN_val, FWord.hdr, FWord.immv, FWord.immBits, FWord.immBv]

theorem Sys2Proof.Laws.Exact.fmax (h : Hdr) (d : Fin 32) (a : Fin 32) (b : Fin 32) : Sys2Proof.Laws.Exact.Statement (.fmax h d a b) := by
  intro hwf _ _
  have e : encode (.fmax h d a b) = fEnc h none { opc := 0x03, fn := 7, d := d.val, a := a.val, b := b.val } := rfl
  rw [e, decode_fEnc (hf := by constructor <;> simp <;> omega)]
  refine (decodeF_ok rfl rfl ?_).trans ?_ <;>
    simp [Shape.accepts, Shape.reservedOk, FClass.resvOk, Shape.maskOk, FClass.chainable, litOk, FClass.regOk, FClass.size, FWord.withEnc, literal_litNext, Imm.isLit, Imm.immVal, fldN_val, FWord.hdr, FWord.immv, FWord.immBits, FWord.immBv]

theorem Sys2Proof.Laws.Exact.fsqrt (h : Hdr) (d : Fin 32) (a : Fin 32) : Sys2Proof.Laws.Exact.Statement (.fsqrt h d a) := by
  intro hwf _ _
  have e : encode (.fsqrt h d a) = fEnc h none { opc := 0x03, fn := 4, d := d.val, a := a.val } := rfl
  rw [e, decode_fEnc (hf := by constructor <;> simp <;> omega)]
  refine (decodeF_ok rfl rfl ?_).trans ?_ <;>
    simp [Shape.accepts, Shape.reservedOk, FClass.resvOk, Shape.maskOk, FClass.chainable, litOk, FClass.regOk, FClass.size, FWord.withEnc, literal_litNext, Imm.isLit, Imm.immVal, fldN_val, FWord.hdr, FWord.immv, FWord.immBits, FWord.immBv]

theorem Sys2Proof.Laws.Exact.fcvtw (h : Hdr) (d : Fin 32) (a : Fin 32) : Sys2Proof.Laws.Exact.Statement (.fcvtw h d a) := by
  intro hwf _ _
  have e : encode (.fcvtw h d a) = fEnc h none { opc := 0x03, fn := 8, d := d.val, a := a.val } := rfl
  rw [e, decode_fEnc (hf := by constructor <;> simp <;> omega)]
  refine (decodeF_ok rfl rfl ?_).trans ?_ <;>
    simp [Shape.accepts, Shape.reservedOk, FClass.resvOk, Shape.maskOk, FClass.chainable, litOk, FClass.regOk, FClass.size, FWord.withEnc, literal_litNext, Imm.isLit, Imm.immVal, fldN_val, FWord.hdr, FWord.immv, FWord.immBits, FWord.immBv]

theorem Sys2Proof.Laws.Exact.fcvtf (h : Hdr) (d : Fin 32) (a : Fin 32) : Sys2Proof.Laws.Exact.Statement (.fcvtf h d a) := by
  intro hwf _ _
  have e : encode (.fcvtf h d a) = fEnc h none { opc := 0x03, fn := 9, d := d.val, a := a.val } := rfl
  rw [e, decode_fEnc (hf := by constructor <;> simp <;> omega)]
  refine (decodeF_ok rfl rfl ?_).trans ?_ <;>
    simp [Shape.accepts, Shape.reservedOk, FClass.resvOk, Shape.maskOk, FClass.chainable, litOk, FClass.regOk, FClass.size, FWord.withEnc, literal_litNext, Imm.isLit, Imm.immVal, fldN_val, FWord.hdr, FWord.immv, FWord.immBits, FWord.immBv]

theorem Sys2Proof.Laws.Exact.fclt (h : Hdr) (d : Fin 8) (a : Fin 32) (b : Fin 32) : Sys2Proof.Laws.Exact.Statement (.fclt h d a b) := by
  intro hwf _ _
  have e : encode (.fclt h d a b) = fEnc h none { opc := 0x03, fn := 10, d := d.val, a := a.val, b := b.val } := rfl
  rw [e, decode_fEnc (hf := by constructor <;> simp <;> omega)]
  refine (decodeF_ok rfl rfl ?_).trans ?_ <;>
    simp [Shape.accepts, Shape.reservedOk, FClass.resvOk, Shape.maskOk, FClass.chainable, litOk, FClass.regOk, FClass.size, FWord.withEnc, literal_litNext, Imm.isLit, Imm.immVal, fldN_val, FWord.hdr, FWord.immv, FWord.immBits, FWord.immBv]

theorem Sys2Proof.Laws.Exact.fceq (h : Hdr) (d : Fin 8) (a : Fin 32) (b : Fin 32) : Sys2Proof.Laws.Exact.Statement (.fceq h d a b) := by
  intro hwf _ _
  have e : encode (.fceq h d a b) = fEnc h none { opc := 0x03, fn := 11, d := d.val, a := a.val, b := b.val } := rfl
  rw [e, decode_fEnc (hf := by constructor <;> simp <;> omega)]
  refine (decodeF_ok rfl rfl ?_).trans ?_ <;>
    simp [Shape.accepts, Shape.reservedOk, FClass.resvOk, Shape.maskOk, FClass.chainable, litOk, FClass.regOk, FClass.size, FWord.withEnc, literal_litNext, Imm.isLit, Imm.immVal, fldN_val, FWord.hdr, FWord.immv, FWord.immBits, FWord.immBv]

theorem Sys2Proof.Laws.Exact.fcle (h : Hdr) (d : Fin 8) (a : Fin 32) (b : Fin 32) : Sys2Proof.Laws.Exact.Statement (.fcle h d a b) := by
  intro hwf _ _
  have e : encode (.fcle h d a b) = fEnc h none { opc := 0x03, fn := 12, d := d.val, a := a.val, b := b.val } := rfl
  rw [e, decode_fEnc (hf := by constructor <;> simp <;> omega)]
  refine (decodeF_ok rfl rfl ?_).trans ?_ <;>
    simp [Shape.accepts, Shape.reservedOk, FClass.resvOk, Shape.maskOk, FClass.chainable, litOk, FClass.regOk, FClass.size, FWord.withEnc, literal_litNext, Imm.isLit, Imm.immVal, fldN_val, FWord.hdr, FWord.immv, FWord.immBits, FWord.immBv]

theorem Sys2Proof.Laws.Exact.lb (h : Hdr) (d : Fin 32) (a : Fin 32) (i : Imm) : Sys2Proof.Laws.Exact.Statement (.lb h d a i) := by
  intro hwf _ _
  have e : encode (.lb h d a i) = fEnc h (some i) { opc := 0x08, fn := 0, form := 2, d := d.val, a := a.val } := rfl
  rcases i with b | b <;>
  · rw [e, decode_fEnc (hf := by constructor <;> simp <;> omega)]
    refine (decodeF_ok rfl rfl ?_).trans ?_ <;>
      simp [Shape.accepts, Shape.reservedOk, FClass.resvOk, Shape.maskOk, FClass.chainable, litOk, FClass.regOk, FClass.size, FWord.withEnc, literal_litNext, Imm.isLit, Imm.immVal, fldN_val, FWord.hdr, FWord.immv, FWord.immBits, FWord.immBv]

theorem Sys2Proof.Laws.Exact.lbu (h : Hdr) (d : Fin 32) (a : Fin 32) (i : Imm) : Sys2Proof.Laws.Exact.Statement (.lbu h d a i) := by
  intro hwf _ _
  have e : encode (.lbu h d a i) = fEnc h (some i) { opc := 0x08, fn := 1, form := 2, d := d.val, a := a.val } := rfl
  rcases i with b | b <;>
  · rw [e, decode_fEnc (hf := by constructor <;> simp <;> omega)]
    refine (decodeF_ok rfl rfl ?_).trans ?_ <;>
      simp [Shape.accepts, Shape.reservedOk, FClass.resvOk, Shape.maskOk, FClass.chainable, litOk, FClass.regOk, FClass.size, FWord.withEnc, literal_litNext, Imm.isLit, Imm.immVal, fldN_val, FWord.hdr, FWord.immv, FWord.immBits, FWord.immBv]

theorem Sys2Proof.Laws.Exact.lh (h : Hdr) (d : Fin 32) (a : Fin 32) (i : Imm) : Sys2Proof.Laws.Exact.Statement (.lh h d a i) := by
  intro hwf _ _
  have e : encode (.lh h d a i) = fEnc h (some i) { opc := 0x08, fn := 2, form := 2, d := d.val, a := a.val } := rfl
  rcases i with b | b <;>
  · rw [e, decode_fEnc (hf := by constructor <;> simp <;> omega)]
    refine (decodeF_ok rfl rfl ?_).trans ?_ <;>
      simp [Shape.accepts, Shape.reservedOk, FClass.resvOk, Shape.maskOk, FClass.chainable, litOk, FClass.regOk, FClass.size, FWord.withEnc, literal_litNext, Imm.isLit, Imm.immVal, fldN_val, FWord.hdr, FWord.immv, FWord.immBits, FWord.immBv]

theorem Sys2Proof.Laws.Exact.lhu (h : Hdr) (d : Fin 32) (a : Fin 32) (i : Imm) : Sys2Proof.Laws.Exact.Statement (.lhu h d a i) := by
  intro hwf _ _
  have e : encode (.lhu h d a i) = fEnc h (some i) { opc := 0x08, fn := 3, form := 2, d := d.val, a := a.val } := rfl
  rcases i with b | b <;>
  · rw [e, decode_fEnc (hf := by constructor <;> simp <;> omega)]
    refine (decodeF_ok rfl rfl ?_).trans ?_ <;>
      simp [Shape.accepts, Shape.reservedOk, FClass.resvOk, Shape.maskOk, FClass.chainable, litOk, FClass.regOk, FClass.size, FWord.withEnc, literal_litNext, Imm.isLit, Imm.immVal, fldN_val, FWord.hdr, FWord.immv, FWord.immBits, FWord.immBv]

theorem Sys2Proof.Laws.Exact.lw (h : Hdr) (d : Fin 32) (a : Fin 32) (i : Imm) : Sys2Proof.Laws.Exact.Statement (.lw h d a i) := by
  intro hwf _ _
  have e : encode (.lw h d a i) = fEnc h (some i) { opc := 0x08, fn := 4, form := 2, d := d.val, a := a.val } := rfl
  rcases i with b | b <;>
  · rw [e, decode_fEnc (hf := by constructor <;> simp <;> omega)]
    refine (decodeF_ok rfl rfl ?_).trans ?_ <;>
      simp [Shape.accepts, Shape.reservedOk, FClass.resvOk, Shape.maskOk, FClass.chainable, litOk, FClass.regOk, FClass.size, FWord.withEnc, literal_litNext, Imm.isLit, Imm.immVal, fldN_val, FWord.hdr, FWord.immv, FWord.immBits, FWord.immBv]

theorem Sys2Proof.Laws.Exact.lwu (h : Hdr) (d : Fin 32) (a : Fin 32) (i : Imm) : Sys2Proof.Laws.Exact.Statement (.lwu h d a i) := by
  intro hwf _ _
  have e : encode (.lwu h d a i) = fEnc h (some i) { opc := 0x08, fn := 5, form := 2, d := d.val, a := a.val } := rfl
  rcases i with b | b <;>
  · rw [e, decode_fEnc (hf := by constructor <;> simp <;> omega)]
    refine (decodeF_ok rfl rfl ?_).trans ?_ <;>
      simp [Shape.accepts, Shape.reservedOk, FClass.resvOk, Shape.maskOk, FClass.chainable, litOk, FClass.regOk, FClass.size, FWord.withEnc, literal_litNext, Imm.isLit, Imm.immVal, fldN_val, FWord.hdr, FWord.immv, FWord.immBits, FWord.immBv]

theorem Sys2Proof.Laws.Exact.ld (h : Hdr) (d : Fin 32) (a : Fin 32) (i : Imm) : Sys2Proof.Laws.Exact.Statement (.ld h d a i) := by
  intro hwf _ _
  have e : encode (.ld h d a i) = fEnc h (some i) { opc := 0x08, fn := 6, form := 2, d := d.val, a := a.val } := rfl
  rcases i with b | b <;>
  · rw [e, decode_fEnc (hf := by constructor <;> simp <;> omega)]
    refine (decodeF_ok rfl rfl ?_).trans ?_ <;>
      simp [Shape.accepts, Shape.reservedOk, FClass.resvOk, Shape.maskOk, FClass.chainable, litOk, FClass.regOk, FClass.size, FWord.withEnc, literal_litNext, Imm.isLit, Imm.immVal, fldN_val, FWord.hdr, FWord.immv, FWord.immBits, FWord.immBv]

theorem Sys2Proof.Laws.Exact.ldacq (h : Hdr) (d : Fin 32) (a : Fin 32) (sc : Scope) : Sys2Proof.Laws.Exact.Statement (.ldacq h d a sc) := by
  intro hwf _ _
  have e : encode (.ldacq h d a sc) = fEnc h none { opc := 0x08, fn := 7, d := d.val, a := a.val, imm := sc.code } := rfl
  rcases sc with _ | _ | _ | _ | _ | _ <;>
  · rw [e, decode_fEnc (hf := by constructor <;> simp [Scope.code, FWord.scope, scopeOk, FWord.immBits, scopeOf] <;> omega)]
    refine (decodeF_ok rfl rfl ?_).trans ?_ <;>
      simp [Shape.accepts, Shape.reservedOk, FClass.resvOk, Shape.maskOk, FClass.chainable, litOk, FClass.regOk, FClass.size, FWord.withEnc, literal_litNext, Imm.isLit, Imm.immVal, fldN_val, FWord.hdr, FWord.immv, FWord.immBits, FWord.immBv, Scope.code, FWord.scope, scopeOk, FWord.immBits, scopeOf]

theorem Sys2Proof.Laws.Exact.sb (h : Hdr) (d : Fin 32) (a : Fin 32) (i : Imm) : Sys2Proof.Laws.Exact.Statement (.sb h d a i) := by
  intro hwf _ _
  have e : encode (.sb h d a i) = fEnc h (some i) { opc := 0x09, fn := 0, form := 2, d := d.val, a := a.val } := rfl
  rcases i with b | b <;>
  · rw [e, decode_fEnc (hf := by constructor <;> simp <;> omega)]
    refine (decodeF_ok rfl rfl ?_).trans ?_ <;>
      simp [Shape.accepts, Shape.reservedOk, FClass.resvOk, Shape.maskOk, FClass.chainable, litOk, FClass.regOk, FClass.size, FWord.withEnc, literal_litNext, Imm.isLit, Imm.immVal, fldN_val, FWord.hdr, FWord.immv, FWord.immBits, FWord.immBv]

theorem Sys2Proof.Laws.Exact.sh (h : Hdr) (d : Fin 32) (a : Fin 32) (i : Imm) : Sys2Proof.Laws.Exact.Statement (.sh h d a i) := by
  intro hwf _ _
  have e : encode (.sh h d a i) = fEnc h (some i) { opc := 0x09, fn := 1, form := 2, d := d.val, a := a.val } := rfl
  rcases i with b | b <;>
  · rw [e, decode_fEnc (hf := by constructor <;> simp <;> omega)]
    refine (decodeF_ok rfl rfl ?_).trans ?_ <;>
      simp [Shape.accepts, Shape.reservedOk, FClass.resvOk, Shape.maskOk, FClass.chainable, litOk, FClass.regOk, FClass.size, FWord.withEnc, literal_litNext, Imm.isLit, Imm.immVal, fldN_val, FWord.hdr, FWord.immv, FWord.immBits, FWord.immBv]

theorem Sys2Proof.Laws.Exact.sw (h : Hdr) (d : Fin 32) (a : Fin 32) (i : Imm) : Sys2Proof.Laws.Exact.Statement (.sw h d a i) := by
  intro hwf _ _
  have e : encode (.sw h d a i) = fEnc h (some i) { opc := 0x09, fn := 2, form := 2, d := d.val, a := a.val } := rfl
  rcases i with b | b <;>
  · rw [e, decode_fEnc (hf := by constructor <;> simp <;> omega)]
    refine (decodeF_ok rfl rfl ?_).trans ?_ <;>
      simp [Shape.accepts, Shape.reservedOk, FClass.resvOk, Shape.maskOk, FClass.chainable, litOk, FClass.regOk, FClass.size, FWord.withEnc, literal_litNext, Imm.isLit, Imm.immVal, fldN_val, FWord.hdr, FWord.immv, FWord.immBits, FWord.immBv]

theorem Sys2Proof.Laws.Exact.sd (h : Hdr) (d : Fin 32) (a : Fin 32) (i : Imm) : Sys2Proof.Laws.Exact.Statement (.sd h d a i) := by
  intro hwf _ _
  have e : encode (.sd h d a i) = fEnc h (some i) { opc := 0x09, fn := 3, form := 2, d := d.val, a := a.val } := rfl
  rcases i with b | b <;>
  · rw [e, decode_fEnc (hf := by constructor <;> simp <;> omega)]
    refine (decodeF_ok rfl rfl ?_).trans ?_ <;>
      simp [Shape.accepts, Shape.reservedOk, FClass.resvOk, Shape.maskOk, FClass.chainable, litOk, FClass.regOk, FClass.size, FWord.withEnc, literal_litNext, Imm.isLit, Imm.immVal, fldN_val, FWord.hdr, FWord.immv, FWord.immBits, FWord.immBv]

theorem Sys2Proof.Laws.Exact.strel (h : Hdr) (d : Fin 32) (a : Fin 32) (sc : Scope) : Sys2Proof.Laws.Exact.Statement (.strel h d a sc) := by
  intro hwf _ _
  have e : encode (.strel h d a sc) = fEnc h none { opc := 0x09, fn := 4, d := d.val, a := a.val, imm := sc.code } := rfl
  rcases sc with _ | _ | _ | _ | _ | _ <;>
  · rw [e, decode_fEnc (hf := by constructor <;> simp [Scope.code, FWord.scope, scopeOk, FWord.immBits, scopeOf] <;> omega)]
    refine (decodeF_ok rfl rfl ?_).trans ?_ <;>
      simp [Shape.accepts, Shape.reservedOk, FClass.resvOk, Shape.maskOk, FClass.chainable, litOk, FClass.regOk, FClass.size, FWord.withEnc, literal_litNext, Imm.isLit, Imm.immVal, fldN_val, FWord.hdr, FWord.immv, FWord.immBits, FWord.immBv, Scope.code, FWord.scope, scopeOk, FWord.immBits, scopeOf]

theorem Sys2Proof.Laws.Exact.amoadd (h : Hdr) (d : Fin 32) (a : Fin 32) (b : Fin 32) (o : AmoOpts) : Sys2Proof.Laws.Exact.Statement (.amoadd h d a b o) := by
  intro hwf _ _
  have e : encode (.amoadd h d a b o) = fEnc h none { opc := 0x0A, fn := 0, d := d.val, a := a.val, b := b.val, imm := o.bits } := rfl
  have ob := o.bits_lt
  have hm : o.bits &&& 127 = o.bits := and_mask 7 (by omega)
  have b0 := o.wide
  have b1 := o.scopeOk
  have b2 := o.amo
  rw [e, decode_fEnc (hf := by constructor <;> simp <;> omega)]
  refine (decodeF_ok rfl rfl ?_).trans ?_ <;>
    simp [Shape.accepts, Shape.reservedOk, FClass.resvOk, Shape.maskOk, FClass.chainable, litOk, FClass.regOk, FClass.size, FWord.withEnc, fldN_val, FWord.hdr, hm, b0, b1, b2]

theorem Sys2Proof.Laws.Exact.amoswap (h : Hdr) (d : Fin 32) (a : Fin 32) (b : Fin 32) (o : AmoOpts) : Sys2Proof.Laws.Exact.Statement (.amoswap h d a b o) := by
  intro hwf _ _
  have e : encode (.amoswap h d a b o) = fEnc h none { opc := 0x0A, fn := 1, d := d.val, a := a.val, b := b.val, imm := o.bits } := rfl
  have ob := o.bits_lt
  have hm : o.bits &&& 127 = o.bits := and_mask 7 (by omega)
  have b0 := o.wide
  have b1 := o.scopeOk
  have b2 := o.amo
  rw [e, decode_fEnc (hf := by constructor <;> simp <;> omega)]
  refine (decodeF_ok rfl rfl ?_).trans ?_ <;>
    simp [Shape.accepts, Shape.reservedOk, FClass.resvOk, Shape.maskOk, FClass.chainable, litOk, FClass.regOk, FClass.size, FWord.withEnc, fldN_val, FWord.hdr, hm, b0, b1, b2]

theorem Sys2Proof.Laws.Exact.amocas (h : Hdr) (d : Fin 32) (a : Fin 32) (b : Fin 32) (o : AmoOpts) : Sys2Proof.Laws.Exact.Statement (.amocas h d a b o) := by
  intro hwf _ _
  have e : encode (.amocas h d a b o) = fEnc h none { opc := 0x0A, fn := 2, d := d.val, a := a.val, b := b.val, imm := o.bits } := rfl
  have ob := o.bits_lt
  have hm : o.bits &&& 127 = o.bits := and_mask 7 (by omega)
  have b0 := o.wide
  have b1 := o.scopeOk
  have b2 := o.amo
  rw [e, decode_fEnc (hf := by constructor <;> simp <;> omega)]
  refine (decodeF_ok rfl rfl ?_).trans ?_ <;>
    simp [Shape.accepts, Shape.reservedOk, FClass.resvOk, Shape.maskOk, FClass.chainable, litOk, FClass.regOk, FClass.size, FWord.withEnc, fldN_val, FWord.hdr, hm, b0, b1, b2]

theorem Sys2Proof.Laws.Exact.amomin (h : Hdr) (d : Fin 32) (a : Fin 32) (b : Fin 32) (o : AmoOpts) : Sys2Proof.Laws.Exact.Statement (.amomin h d a b o) := by
  intro hwf _ _
  have e : encode (.amomin h d a b o) = fEnc h none { opc := 0x0A, fn := 3, d := d.val, a := a.val, b := b.val, imm := o.bits } := rfl
  have ob := o.bits_lt
  have hm : o.bits &&& 127 = o.bits := and_mask 7 (by omega)
  have b0 := o.wide
  have b1 := o.scopeOk
  have b2 := o.amo
  rw [e, decode_fEnc (hf := by constructor <;> simp <;> omega)]
  refine (decodeF_ok rfl rfl ?_).trans ?_ <;>
    simp [Shape.accepts, Shape.reservedOk, FClass.resvOk, Shape.maskOk, FClass.chainable, litOk, FClass.regOk, FClass.size, FWord.withEnc, fldN_val, FWord.hdr, hm, b0, b1, b2]

theorem Sys2Proof.Laws.Exact.amomax (h : Hdr) (d : Fin 32) (a : Fin 32) (b : Fin 32) (o : AmoOpts) : Sys2Proof.Laws.Exact.Statement (.amomax h d a b o) := by
  intro hwf _ _
  have e : encode (.amomax h d a b o) = fEnc h none { opc := 0x0A, fn := 4, d := d.val, a := a.val, b := b.val, imm := o.bits } := rfl
  have ob := o.bits_lt
  have hm : o.bits &&& 127 = o.bits := and_mask 7 (by omega)
  have b0 := o.wide
  have b1 := o.scopeOk
  have b2 := o.amo
  rw [e, decode_fEnc (hf := by constructor <;> simp <;> omega)]
  refine (decodeF_ok rfl rfl ?_).trans ?_ <;>
    simp [Shape.accepts, Shape.reservedOk, FClass.resvOk, Shape.maskOk, FClass.chainable, litOk, FClass.regOk, FClass.size, FWord.withEnc, fldN_val, FWord.hdr, hm, b0, b1, b2]

theorem Sys2Proof.Laws.Exact.amominu (h : Hdr) (d : Fin 32) (a : Fin 32) (b : Fin 32) (o : AmoOpts) : Sys2Proof.Laws.Exact.Statement (.amominu h d a b o) := by
  intro hwf _ _
  have e : encode (.amominu h d a b o) = fEnc h none { opc := 0x0A, fn := 5, d := d.val, a := a.val, b := b.val, imm := o.bits } := rfl
  have ob := o.bits_lt
  have hm : o.bits &&& 127 = o.bits := and_mask 7 (by omega)
  have b0 := o.wide
  have b1 := o.scopeOk
  have b2 := o.amo
  rw [e, decode_fEnc (hf := by constructor <;> simp <;> omega)]
  refine (decodeF_ok rfl rfl ?_).trans ?_ <;>
    simp [Shape.accepts, Shape.reservedOk, FClass.resvOk, Shape.maskOk, FClass.chainable, litOk, FClass.regOk, FClass.size, FWord.withEnc, fldN_val, FWord.hdr, hm, b0, b1, b2]

theorem Sys2Proof.Laws.Exact.amomaxu (h : Hdr) (d : Fin 32) (a : Fin 32) (b : Fin 32) (o : AmoOpts) : Sys2Proof.Laws.Exact.Statement (.amomaxu h d a b o) := by
  intro hwf _ _
  have e : encode (.amomaxu h d a b o) = fEnc h none { opc := 0x0A, fn := 6, d := d.val, a := a.val, b := b.val, imm := o.bits } := rfl
  have ob := o.bits_lt
  have hm : o.bits &&& 127 = o.bits := and_mask 7 (by omega)
  have b0 := o.wide
  have b1 := o.scopeOk
  have b2 := o.amo
  rw [e, decode_fEnc (hf := by constructor <;> simp <;> omega)]
  refine (decodeF_ok rfl rfl ?_).trans ?_ <;>
    simp [Shape.accepts, Shape.reservedOk, FClass.resvOk, Shape.maskOk, FClass.chainable, litOk, FClass.regOk, FClass.size, FWord.withEnc, fldN_val, FWord.hdr, hm, b0, b1, b2]

theorem Sys2Proof.Laws.Exact.amoand (h : Hdr) (d : Fin 32) (a : Fin 32) (b : Fin 32) (o : AmoOpts) : Sys2Proof.Laws.Exact.Statement (.amoand h d a b o) := by
  intro hwf _ _
  have e : encode (.amoand h d a b o) = fEnc h none { opc := 0x0A, fn := 7, d := d.val, a := a.val, b := b.val, imm := o.bits } := rfl
  have ob := o.bits_lt
  have hm : o.bits &&& 127 = o.bits := and_mask 7 (by omega)
  have b0 := o.wide
  have b1 := o.scopeOk
  have b2 := o.amo
  rw [e, decode_fEnc (hf := by constructor <;> simp <;> omega)]
  refine (decodeF_ok rfl rfl ?_).trans ?_ <;>
    simp [Shape.accepts, Shape.reservedOk, FClass.resvOk, Shape.maskOk, FClass.chainable, litOk, FClass.regOk, FClass.size, FWord.withEnc, fldN_val, FWord.hdr, hm, b0, b1, b2]

theorem Sys2Proof.Laws.Exact.amoor (h : Hdr) (d : Fin 32) (a : Fin 32) (b : Fin 32) (o : AmoOpts) : Sys2Proof.Laws.Exact.Statement (.amoor h d a b o) := by
  intro hwf _ _
  have e : encode (.amoor h d a b o) = fEnc h none { opc := 0x0A, fn := 8, d := d.val, a := a.val, b := b.val, imm := o.bits } := rfl
  have ob := o.bits_lt
  have hm : o.bits &&& 127 = o.bits := and_mask 7 (by omega)
  have b0 := o.wide
  have b1 := o.scopeOk
  have b2 := o.amo
  rw [e, decode_fEnc (hf := by constructor <;> simp <;> omega)]
  refine (decodeF_ok rfl rfl ?_).trans ?_ <;>
    simp [Shape.accepts, Shape.reservedOk, FClass.resvOk, Shape.maskOk, FClass.chainable, litOk, FClass.regOk, FClass.size, FWord.withEnc, fldN_val, FWord.hdr, hm, b0, b1, b2]

theorem Sys2Proof.Laws.Exact.amoxor (h : Hdr) (d : Fin 32) (a : Fin 32) (b : Fin 32) (o : AmoOpts) : Sys2Proof.Laws.Exact.Statement (.amoxor h d a b o) := by
  intro hwf _ _
  have e : encode (.amoxor h d a b o) = fEnc h none { opc := 0x0A, fn := 9, d := d.val, a := a.val, b := b.val, imm := o.bits } := rfl
  have ob := o.bits_lt
  have hm : o.bits &&& 127 = o.bits := and_mask 7 (by omega)
  have b0 := o.wide
  have b1 := o.scopeOk
  have b2 := o.amo
  rw [e, decode_fEnc (hf := by constructor <;> simp <;> omega)]
  refine (decodeF_ok rfl rfl ?_).trans ?_ <;>
    simp [Shape.accepts, Shape.reservedOk, FClass.resvOk, Shape.maskOk, FClass.chainable, litOk, FClass.regOk, FClass.size, FWord.withEnc, fldN_val, FWord.hdr, hm, b0, b1, b2]

theorem Sys2Proof.Laws.Exact.br (h : Hdr) (i : Imm) : Sys2Proof.Laws.Exact.Statement (.br h i) := by
  intro hwf _ _
  have e : encode (.br h i) = fEnc h (some i) { opc := 0x10, fn := 0, form := 2 } := rfl
  rcases i with b | b <;>
  · rw [e, decode_fEnc (hf := by constructor <;> simp <;> omega)]
    refine (decodeF_ok rfl rfl ?_).trans ?_ <;>
      simp [Shape.accepts, Shape.reservedOk, FClass.resvOk, Shape.maskOk, FClass.chainable, litOk, FClass.regOk, FClass.size, FWord.withEnc, literal_litNext, Imm.isLit, Imm.immVal, fldN_val, FWord.hdr, FWord.immv, FWord.immBits, FWord.immBv]

theorem Sys2Proof.Laws.Exact.jal (h : Hdr) (i : Imm) : Sys2Proof.Laws.Exact.Statement (.jal h i) := by
  intro hwf _ _
  have e : encode (.jal h i) = fEnc h (some i) { opc := 0x10, fn := 1, form := 2 } := rfl
  rcases i with b | b <;>
  · rw [e, decode_fEnc (hf := by constructor <;> simp <;> omega)]
    refine (decodeF_ok rfl rfl ?_).trans ?_ <;>
      simp [Shape.accepts, Shape.reservedOk, FClass.resvOk, Shape.maskOk, FClass.chainable, litOk, FClass.regOk, FClass.size, FWord.withEnc, literal_litNext, Imm.isLit, Imm.immVal, fldN_val, FWord.hdr, FWord.immv, FWord.immBits, FWord.immBv]

theorem Sys2Proof.Laws.Exact.jr (h : Hdr) (a : Fin 32) : Sys2Proof.Laws.Exact.Statement (.jr h a) := by
  intro hwf _ _
  have e : encode (.jr h a) = fEnc h none { opc := 0x10, fn := 2, a := a.val } := rfl
  rw [e, decode_fEnc (hf := by constructor <;> simp <;> omega)]
  refine (decodeF_ok rfl rfl ?_).trans ?_ <;>
    simp [Shape.accepts, Shape.reservedOk, FClass.resvOk, Shape.maskOk, FClass.chainable, litOk, FClass.regOk, FClass.size, FWord.withEnc, literal_litNext, Imm.isLit, Imm.immVal, fldN_val, FWord.hdr, FWord.immv, FWord.immBits, FWord.immBv]

theorem Sys2Proof.Laws.Exact.jalr (h : Hdr) (d : Fin 32) (a : Fin 32) : Sys2Proof.Laws.Exact.Statement (.jalr h d a) := by
  intro hwf _ _
  have e : encode (.jalr h d a) = fEnc h none { opc := 0x10, fn := 3, d := d.val, a := a.val } := rfl
  rw [e, decode_fEnc (hf := by constructor <;> simp <;> omega)]
  refine (decodeF_ok rfl rfl ?_).trans ?_ <;>
    simp [Shape.accepts, Shape.reservedOk, FClass.resvOk, Shape.maskOk, FClass.chainable, litOk, FClass.regOk, FClass.size, FWord.withEnc, literal_litNext, Imm.isLit, Imm.immVal, fldN_val, FWord.hdr, FWord.immv, FWord.immBits, FWord.immBv]

theorem Sys2Proof.Laws.Exact.bdec (h : Hdr) (d : Fin 32) (i : Imm) : Sys2Proof.Laws.Exact.Statement (.bdec h d i) := by
  intro hwf _ _
  have e : encode (.bdec h d i) = fEnc h (some i) { opc := 0x10, fn := 4, form := 2, d := d.val } := rfl
  rcases i with b | b <;>
  · rw [e, decode_fEnc (hf := by constructor <;> simp <;> omega)]
    refine (decodeF_ok rfl rfl ?_).trans ?_ <;>
      simp [Shape.accepts, Shape.reservedOk, FClass.resvOk, Shape.maskOk, FClass.chainable, litOk, FClass.regOk, FClass.size, FWord.withEnc, literal_litNext, Imm.isLit, Imm.immVal, fldN_val, FWord.hdr, FWord.immv, FWord.immBits, FWord.immBv]

theorem Sys2Proof.Laws.Exact.csrr (h : Hdr) (d : Fin 32) (n : BitVec 12) : Sys2Proof.Laws.Exact.Statement (.csrr h d n) := by
  intro hwf _ _
  have e : encode (.csrr h d n) = fEnc h none { opc := 0x18, fn := 0, d := d.val, imm := n.toNat } := rfl
  have hm : (n.toNat) &&& 4095 = n.toNat := and_mask 12 (by omega)
  have v0 : ∀ w : FWord, w.imm = n.toNat → w.immBv 0 12 = n := fun w q => by
    rw [FWord.immBv, q]; apply BitVec.eq_of_toNat_eq; rw [BitVec.toNat_ofNat]; omega
  rw [e, decode_fEnc (hf := by constructor <;> simp <;> omega)]
  refine (decodeF_ok rfl rfl ?_).trans ?_ <;>
    simp [Shape.accepts, Shape.reservedOk, FClass.resvOk, Shape.maskOk, FClass.chainable, litOk, FClass.regOk, FClass.size, FWord.withEnc, fldN_val, FWord.hdr, hm, v0]

theorem Sys2Proof.Laws.Exact.csrw (h : Hdr) (a : Fin 32) (n : BitVec 12) : Sys2Proof.Laws.Exact.Statement (.csrw h a n) := by
  intro hwf _ _
  have e : encode (.csrw h a n) = fEnc h none { opc := 0x18, fn := 1, a := a.val, imm := n.toNat } := rfl
  have hm : (n.toNat) &&& 4095 = n.toNat := and_mask 12 (by omega)
  have v0 : ∀ w : FWord, w.imm = n.toNat → w.immBv 0 12 = n := fun w q => by
    rw [FWord.immBv, q]; apply BitVec.eq_of_toNat_eq; rw [BitVec.toNat_ofNat]; omega
  rw [e, decode_fEnc (hf := by constructor <;> simp <;> omega)]
  refine (decodeF_ok rfl rfl ?_).trans ?_ <;>
    simp [Shape.accepts, Shape.reservedOk, FClass.resvOk, Shape.maskOk, FClass.chainable, litOk, FClass.regOk, FClass.size, FWord.withEnc, fldN_val, FWord.hdr, hm, v0]

theorem Sys2Proof.Laws.Exact.csrs (h : Hdr) (a : Fin 32) (n : BitVec 12) : Sys2Proof.Laws.Exact.Statement (.csrs h a n) := by
  intro hwf _ _
  have e : encode (.csrs h a n) = fEnc h none { opc := 0x18, fn := 2, a := a.val, imm := n.toNat } := rfl
  have hm : (n.toNat) &&& 4095 = n.toNat := and_mask 12 (by omega)
  have v0 : ∀ w : FWord, w.imm = n.toNat → w.immBv 0 12 = n := fun w q => by
    rw [FWord.immBv, q]; apply BitVec.eq_of_toNat_eq; rw [BitVec.toNat_ofNat]; omega
  rw [e, decode_fEnc (hf := by constructor <;> simp <;> omega)]
  refine (decodeF_ok rfl rfl ?_).trans ?_ <;>
    simp [Shape.accepts, Shape.reservedOk, FClass.resvOk, Shape.maskOk, FClass.chainable, litOk, FClass.regOk, FClass.size, FWord.withEnc, fldN_val, FWord.hdr, hm, v0]

theorem Sys2Proof.Laws.Exact.csrc (h : Hdr) (a : Fin 32) (n : BitVec 12) : Sys2Proof.Laws.Exact.Statement (.csrc h a n) := by
  intro hwf _ _
  have e : encode (.csrc h a n) = fEnc h none { opc := 0x18, fn := 3, a := a.val, imm := n.toNat } := rfl
  have hm : (n.toNat) &&& 4095 = n.toNat := and_mask 12 (by omega)
  have v0 : ∀ w : FWord, w.imm = n.toNat → w.immBv 0 12 = n := fun w q => by
    rw [FWord.immBv, q]; apply BitVec.eq_of_toNat_eq; rw [BitVec.toNat_ofNat]; omega
  rw [e, decode_fEnc (hf := by constructor <;> simp <;> omega)]
  refine (decodeF_ok rfl rfl ?_).trans ?_ <;>
    simp [Shape.accepts, Shape.reservedOk, FClass.resvOk, Shape.maskOk, FClass.chainable, litOk, FClass.regOk, FClass.size, FWord.withEnc, fldN_val, FWord.hdr, hm, v0]

theorem Sys2Proof.Laws.Exact.trap (h : Hdr) (code : BitVec 16) : Sys2Proof.Laws.Exact.Statement (.trap h code) := by
  intro hwf _ _
  have e : encode (.trap h code) = fEnc h none { opc := 0x18, fn := 4, imm := code.toNat } := rfl
  have hm : (code.toNat) &&& 65535 = code.toNat := and_mask 16 (by omega)
  have v0 : ∀ w : FWord, w.imm = code.toNat → w.immBv 0 16 = code := fun w q => by
    rw [FWord.immBv, q]; apply BitVec.eq_of_toNat_eq; rw [BitVec.toNat_ofNat]; omega
  rw [e, decode_fEnc (hf := by constructor <;> simp <;> omega)]
  refine (decodeF_ok rfl rfl ?_).trans ?_ <;>
    simp [Shape.accepts, Shape.reservedOk, FClass.resvOk, Shape.maskOk, FClass.chainable, litOk, FClass.regOk, FClass.size, FWord.withEnc, fldN_val, FWord.hdr, hm, v0]

theorem Sys2Proof.Laws.Exact.svc (h : Hdr) (code : BitVec 16) : Sys2Proof.Laws.Exact.Statement (.svc h code) := by
  intro hwf _ _
  have w : (!(decide (code.toNat ≤ 2) || (decide (16 ≤ code.toNat) && decide (code.toNat ≤ 21)))) = true := hwf
  exact (svc_word h code.toNat code.isLt).trans (congrArg Decoded.ok (svcInstr_other h code w))

theorem Sys2Proof.Laws.Exact.ebreak (h : Hdr) : Sys2Proof.Laws.Exact.Statement (.ebreak h) := by
  intro hwf _ _
  have e : encode (.ebreak h) = fEnc h none { opc := 0x18, fn := 6 } := rfl
  rw [e, decode_fEnc (hf := by constructor <;> simp <;> omega)]
  refine (decodeF_ok rfl rfl ?_).trans ?_ <;>
    simp [Shape.accepts, Shape.reservedOk, FClass.resvOk, Shape.maskOk, FClass.chainable, litOk, FClass.regOk, FClass.size, FWord.withEnc, literal_litNext, Imm.isLit, Imm.immVal, fldN_val, FWord.hdr, FWord.immv, FWord.immBits, FWord.immBv]

theorem Sys2Proof.Laws.Exact.uret (h : Hdr) : Sys2Proof.Laws.Exact.Statement (.uret h) := by
  intro hwf _ _
  have e : encode (.uret h) = fEnc h none { opc := 0x18, fn := 7 } := rfl
  rw [e, decode_fEnc (hf := by constructor <;> simp <;> omega)]
  refine (decodeF_ok rfl rfl ?_).trans ?_ <;>
    simp [Shape.accepts, Shape.reservedOk, FClass.resvOk, Shape.maskOk, FClass.chainable, litOk, FClass.regOk, FClass.size, FWord.withEnc, literal_litNext, Imm.isLit, Imm.immVal, fldN_val, FWord.hdr, FWord.immv, FWord.immBits, FWord.immBv]

theorem Sys2Proof.Laws.Exact.halt (h : Hdr) : Sys2Proof.Laws.Exact.Statement (.halt h) := by
  intro hwf _ _
  have e : encode (.halt h) = fEnc h none { opc := 0x18, fn := 10 } := rfl
  rw [e, decode_fEnc (hf := by constructor <;> simp <;> omega)]
  refine (decodeF_ok rfl rfl ?_).trans ?_ <;>
    simp [Shape.accepts, Shape.reservedOk, FClass.resvOk, Shape.maskOk, FClass.chainable, litOk, FClass.regOk, FClass.size, FWord.withEnc, literal_litNext, Imm.isLit, Imm.immVal, fldN_val, FWord.hdr, FWord.immv, FWord.immBits, FWord.immBv]

theorem Sys2Proof.Laws.Exact.yield (h : Hdr) : Sys2Proof.Laws.Exact.Statement (.yield h) := by
  intro hwf _ _
  have e : encode (.yield h) = fEnc h none { opc := 0x18, fn := 11 } := rfl
  rw [e, decode_fEnc (hf := by constructor <;> simp <;> omega)]
  refine (decodeF_ok rfl rfl ?_).trans ?_ <;>
    simp [Shape.accepts, Shape.reservedOk, FClass.resvOk, Shape.maskOk, FClass.chainable, litOk, FClass.regOk, FClass.size, FWord.withEnc, literal_litNext, Imm.isLit, Imm.immVal, fldN_val, FWord.hdr, FWord.immv, FWord.immBits, FWord.immBv]

theorem Sys2Proof.Laws.Exact.icsync (h : Hdr) : Sys2Proof.Laws.Exact.Statement (.icsync h) := by
  intro hwf _ _
  have e : encode (.icsync h) = fEnc h none { opc := 0x18, fn := 13 } := rfl
  rw [e, decode_fEnc (hf := by constructor <;> simp <;> omega)]
  refine (decodeF_ok rfl rfl ?_).trans ?_ <;>
    simp [Shape.accepts, Shape.reservedOk, FClass.resvOk, Shape.maskOk, FClass.chainable, litOk, FClass.regOk, FClass.size, FWord.withEnc, literal_litNext, Imm.isLit, Imm.immVal, fldN_val, FWord.hdr, FWord.immv, FWord.immBits, FWord.immBv]

theorem Sys2Proof.Laws.Exact.ujmp (h : Hdr) (a : Fin 32) : Sys2Proof.Laws.Exact.Statement (.ujmp h a) := by
  intro hwf _ _
  have e : encode (.ujmp h a) = fEnc h none { opc := 0x18, fn := 8, a := a.val } := rfl
  rw [e, decode_fEnc (hf := by constructor <;> simp <;> omega)]
  refine (decodeF_ok rfl rfl ?_).trans ?_ <;>
    simp [Shape.accepts, Shape.reservedOk, FClass.resvOk, Shape.maskOk, FClass.chainable, litOk, FClass.regOk, FClass.size, FWord.withEnc, literal_litNext, Imm.isLit, Imm.immVal, fldN_val, FWord.hdr, FWord.immv, FWord.immBits, FWord.immBv]

theorem Sys2Proof.Laws.Exact.wfe (h : Hdr) (d : Fin 32) (m : BitVec 5) : Sys2Proof.Laws.Exact.Statement (.wfe h d m) := by
  intro hwf _ _
  have e : encode (.wfe h d m) = fEnc h none { opc := 0x18, fn := 9, d := d.val, imm := m.toNat } := rfl
  have hm : (m.toNat) &&& 31 = m.toNat := and_mask 5 (by omega)
  have v0 : ∀ w : FWord, w.imm = m.toNat → w.immBv 0 5 = m := fun w q => by
    rw [FWord.immBv, q]; apply BitVec.eq_of_toNat_eq; rw [BitVec.toNat_ofNat]; omega
  rw [e, decode_fEnc (hf := by constructor <;> simp <;> omega)]
  refine (decodeF_ok rfl rfl ?_).trans ?_ <;>
    simp [Shape.accepts, Shape.reservedOk, FClass.resvOk, Shape.maskOk, FClass.chainable, litOk, FClass.regOk, FClass.size, FWord.withEnc, fldN_val, FWord.hdr, hm, v0]

theorem Sys2Proof.Laws.Exact.launch (h : Hdr) (a : Fin 32) (b : Fin 32) : Sys2Proof.Laws.Exact.Statement (.launch h a b) := by
  intro hwf _ _
  have e : encode (.launch h a b) = fEnc h none { opc := 0x18, fn := 12, a := a.val, b := b.val } := rfl
  rw [e, decode_fEnc (hf := by constructor <;> simp <;> omega)]
  refine (decodeF_ok rfl rfl ?_).trans ?_ <;>
    simp [Shape.accepts, Shape.reservedOk, FClass.resvOk, Shape.maskOk, FClass.chainable, litOk, FClass.regOk, FClass.size, FWord.withEnc, literal_litNext, Imm.isLit, Imm.immVal, fldN_val, FWord.hdr, FWord.immv, FWord.immBits, FWord.immBv]

theorem Sys2Proof.Laws.Exact.barCrew (h : Hdr) (id : BitVec 4) : Sys2Proof.Laws.Exact.Statement (.barCrew h id) := by
  intro hwf _ _
  have e : encode (.barCrew h id) = fEnc h none { opc := 0x19, fn := 0, imm := id.toNat } := rfl
  have hm : (id.toNat) &&& 31 = id.toNat := and_mask 5 (by omega)
  have b0 : ∀ w : FWord, w.imm = id.toNat → w.immBits 4 1 = 0 := fun w q => by
    rw [FWord.immBits, q]; omega
  have v0 : ∀ w : FWord, w.imm = id.toNat → w.immBv 0 4 = id := fun w q => by
    rw [FWord.immBv, q]; apply BitVec.eq_of_toNat_eq; rw [BitVec.toNat_ofNat]; omega
  rw [e, decode_fEnc (hf := by constructor <;> simp <;> omega)]
  refine (decodeF_ok rfl rfl ?_).trans ?_ <;>
    simp [Shape.accepts, Shape.reservedOk, FClass.resvOk, Shape.maskOk, FClass.chainable, litOk, FClass.regOk, FClass.size, FWord.withEnc, fldN_val, FWord.hdr, hm, b0, v0]

theorem Sys2Proof.Laws.Exact.barLaunch (h : Hdr) (id : BitVec 4) : Sys2Proof.Laws.Exact.Statement (.barLaunch h id) := by
  intro hwf _ _
  have e : encode (.barLaunch h id) = fEnc h none { opc := 0x19, fn := 0, imm := id.toNat + 16 } := rfl
  have hm : (id.toNat + 16) &&& 31 = id.toNat + 16 := and_mask 5 (by omega)
  have b0 : ∀ w : FWord, w.imm = id.toNat + 16 → w.immBits 4 1 = 1 := fun w q => by
    rw [FWord.immBits, q]; omega
  have v0 : ∀ w : FWord, w.imm = id.toNat + 16 → w.immBv 0 4 = id := fun w q => by
    rw [FWord.immBv, q]; apply BitVec.eq_of_toNat_eq; rw [BitVec.toNat_ofNat]; omega
  rw [e, decode_fEnc (hf := by constructor <;> simp <;> omega)]
  refine (decodeF_ok rfl rfl ?_).trans ?_ <;>
    simp [Shape.accepts, Shape.reservedOk, FClass.resvOk, Shape.maskOk, FClass.chainable, litOk, FClass.regOk, FClass.size, FWord.withEnc, fldN_val, FWord.hdr, hm, b0, v0]

theorem Sys2Proof.Laws.Exact.itpost (h : Hdr) (a : Fin 32) (c : BitVec 4) : Sys2Proof.Laws.Exact.Statement (.itpost h a c) := by
  intro hwf _ _
  have e : encode (.itpost h a c) = fEnc h none { opc := 0x19, fn := 1, a := a.val, imm := c.toNat } := rfl
  have hm : (c.toNat) &&& 15 = c.toNat := and_mask 4 (by omega)
  have v0 : ∀ w : FWord, w.imm = c.toNat → w.immBv 0 4 = c := fun w q => by
    rw [FWord.immBv, q]; apply BitVec.eq_of_toNat_eq; rw [BitVec.toNat_ofNat]; omega
  rw [e, decode_fEnc (hf := by constructor <;> simp <;> omega)]
  refine (decodeF_ok rfl rfl ?_).trans ?_ <;>
    simp [Shape.accepts, Shape.reservedOk, FClass.resvOk, Shape.maskOk, FClass.chainable, litOk, FClass.regOk, FClass.size, FWord.withEnc, fldN_val, FWord.hdr, hm, v0]

theorem Sys2Proof.Laws.Exact.itwait (h : Hdr) (a : Fin 32) (c : BitVec 4) : Sys2Proof.Laws.Exact.Statement (.itwait h a c) := by
  intro hwf _ _
  have e : encode (.itwait h a c) = fEnc h none { opc := 0x19, fn := 2, a := a.val, imm := c.toNat } := rfl
  have hm : (c.toNat) &&& 15 = c.toNat := and_mask 4 (by omega)
  have v0 : ∀ w : FWord, w.imm = c.toNat → w.immBv 0 4 = c := fun w q => by
    rw [FWord.immBv, q]; apply BitVec.eq_of_toNat_eq; rw [BitVec.toNat_ofNat]; omega
  rw [e, decode_fEnc (hf := by constructor <;> simp <;> omega)]
  refine (decodeF_ok rfl rfl ?_).trans ?_ <;>
    simp [Shape.accepts, Shape.reservedOk, FClass.resvOk, Shape.maskOk, FClass.chainable, litOk, FClass.regOk, FClass.size, FWord.withEnc, fldN_val, FWord.hdr, hm, v0]

theorem Sys2Proof.Laws.Exact.fenceSv (h : Hdr) (sc : Scope) : Sys2Proof.Laws.Exact.Statement (.fenceSv h sc) := by
  intro hwf _ _
  have e : encode (.fenceSv h sc) = fEnc h none { opc := 0x19, fn := 3, imm := sc.code } := rfl
  rcases sc with _ | _ | _ | _ | _ | _ <;>
  · rw [e, decode_fEnc (hf := by constructor <;> simp [Scope.code, FWord.scope, scopeOk, FWord.immBits, scopeOf] <;> omega)]
    refine (decodeF_ok rfl rfl ?_).trans ?_ <;>
      simp [Shape.accepts, Shape.reservedOk, FClass.resvOk, Shape.maskOk, FClass.chainable, litOk, FClass.regOk, FClass.size, FWord.withEnc, literal_litNext, Imm.isLit, Imm.immVal, fldN_val, FWord.hdr, FWord.immv, FWord.immBits, FWord.immBv, Scope.code, FWord.scope, scopeOk, FWord.immBits, scopeOf]

theorem Sys2Proof.Laws.Exact.fenceVs (h : Hdr) (sc : Scope) : Sys2Proof.Laws.Exact.Statement (.fenceVs h sc) := by
  intro hwf _ _
  have e : encode (.fenceVs h sc) = fEnc h none { opc := 0x19, fn := 3, imm := sc.code + 32 } := rfl
  rcases sc with _ | _ | _ | _ | _ | _ <;>
  · rw [e, decode_fEnc (hf := by constructor <;> simp [Scope.code, FWord.scope, scopeOk, FWord.immBits, scopeOf] <;> omega)]
    refine (decodeF_ok rfl rfl ?_).trans ?_ <;>
      simp [Shape.accepts, Shape.reservedOk, FClass.resvOk, Shape.maskOk, FClass.chainable, litOk, FClass.regOk, FClass.size, FWord.withEnc, literal_litNext, Imm.isLit, Imm.immVal, fldN_val, FWord.hdr, FWord.immv, FWord.immBits, FWord.immBv, Scope.code, FWord.scope, scopeOk, FWord.immBits, scopeOf]

theorem Sys2Proof.Laws.Exact.fenceVv (h : Hdr) (sc : Scope) : Sys2Proof.Laws.Exact.Statement (.fenceVv h sc) := by
  intro hwf _ _
  have e : encode (.fenceVv h sc) = fEnc h none { opc := 0x19, fn := 3, imm := sc.code + 64 } := rfl
  rcases sc with _ | _ | _ | _ | _ | _ <;>
  · rw [e, decode_fEnc (hf := by constructor <;> simp [Scope.code, FWord.scope, scopeOk, FWord.immBits, scopeOf] <;> omega)]
    refine (decodeF_ok rfl rfl ?_).trans ?_ <;>
      simp [Shape.accepts, Shape.reservedOk, FClass.resvOk, Shape.maskOk, FClass.chainable, litOk, FClass.regOk, FClass.size, FWord.withEnc, literal_litNext, Imm.isLit, Imm.immVal, fldN_val, FWord.hdr, FWord.immv, FWord.immBits, FWord.immBv, Scope.code, FWord.scope, scopeOk, FWord.immBits, scopeOf]

theorem Sys2Proof.Laws.Exact.fenceAll (h : Hdr) (sc : Scope) : Sys2Proof.Laws.Exact.Statement (.fenceAll h sc) := by
  intro hwf _ _
  have e : encode (.fenceAll h sc) = fEnc h none { opc := 0x19, fn := 3, imm := sc.code + 96 } := rfl
  rcases sc with _ | _ | _ | _ | _ | _ <;>
  · rw [e, decode_fEnc (hf := by constructor <;> simp [Scope.code, FWord.scope, scopeOk, FWord.immBits, scopeOf] <;> omega)]
    refine (decodeF_ok rfl rfl ?_).trans ?_ <;>
      simp [Shape.accepts, Shape.reservedOk, FClass.resvOk, Shape.maskOk, FClass.chainable, litOk, FClass.regOk, FClass.size, FWord.withEnc, literal_litNext, Imm.isLit, Imm.immVal, fldN_val, FWord.hdr, FWord.immv, FWord.immBits, FWord.immBv, Scope.code, FWord.scope, scopeOk, FWord.immBits, scopeOf]

theorem Sys2Proof.Laws.Exact.fencerec (h : Hdr) (a : Fin 32) (b : Fin 32) : Sys2Proof.Laws.Exact.Statement (.fencerec h a b) := by
  intro hwf _ _
  have e : encode (.fencerec h a b) = fEnc h none { opc := 0x19, fn := 4, a := a.val, b := b.val } := rfl
  rw [e, decode_fEnc (hf := by constructor <;> simp <;> omega)]
  refine (decodeF_ok rfl rfl ?_).trans ?_ <;>
    simp [Shape.accepts, Shape.reservedOk, FClass.resvOk, Shape.maskOk, FClass.chainable, litOk, FClass.regOk, FClass.size, FWord.withEnc, literal_litNext, Imm.isLit, Imm.immVal, fldN_val, FWord.hdr, FWord.immv, FWord.immBits, FWord.immBv]

theorem Sys2Proof.Laws.Exact.vadd (h : Hdr) (d : Fin 64) (a : CVec) (b : VSrc) (m : Fin 8) : Sys2Proof.Laws.Exact.Statement (.vadd h d a b m) := by
  intro hwf _ _
  have e : encode (.vadd h d a b m) = fEnc h b.immOf { opc := 0x20, fn := 0, form := b.formVal, d := d.val, a := a.r.val, ca := a.ch, b := b.bVal, cb := b.chVal, m := m.val } := rfl
  rcases b with v | r | (b | b) <;>
  · rw [e, decode_fEnc (hf := by constructor <;> simp [VSrc.formVal, VSrc.bVal, VSrc.immOf, VSrc.chVal, FWord.vsrc] <;> omega)]
    refine (decodeF_ok rfl rfl ?_).trans ?_ <;>
      simp [Shape.accepts, Shape.reservedOk, FClass.resvOk, Shape.maskOk, FClass.chainable, litOk, FClass.regOk, FClass.size, FWord.withEnc, literal_litNext, Imm.isLit, Imm.immVal, fldN_val, FWord.hdr, FWord.immv, FWord.immBits, FWord.immBv, VSrc.formVal, VSrc.bVal, VSrc.immOf, VSrc.chVal, FWord.vsrc]

theorem Sys2Proof.Laws.Exact.vsub (h : Hdr) (d : Fin 64) (a : CVec) (b : VSrc) (m : Fin 8) : Sys2Proof.Laws.Exact.Statement (.vsub h d a b m) := by
  intro hwf _ _
  have e : encode (.vsub h d a b m) = fEnc h b.immOf { opc := 0x20, fn := 1, form := b.formVal, d := d.val, a := a.r.val, ca := a.ch, b := b.bVal, cb := b.chVal, m := m.val } := rfl
  rcases b with v | r | (b | b) <;>
  · rw [e, decode_fEnc (hf := by constructor <;> simp [VSrc.formVal, VSrc.bVal, VSrc.immOf, VSrc.chVal, FWord.vsrc] <;> omega)]
    refine (decodeF_ok rfl rfl ?_).trans ?_ <;>
      simp [Shape.accepts, Shape.reservedOk, FClass.resvOk, Shape.maskOk, FClass.chainable, litOk, FClass.regOk, FClass.size, FWord.withEnc, literal_litNext, Imm.isLit, Imm.immVal, fldN_val, FWord.hdr, FWord.immv, FWord.immBits, FWord.immBv, VSrc.formVal, VSrc.bVal, VSrc.immOf, VSrc.chVal, FWord.vsrc]

theorem Sys2Proof.Laws.Exact.vrsub (h : Hdr) (d : Fin 64) (a : CVec) (b : VSrc) (m : Fin 8) : Sys2Proof.Laws.Exact.Statement (.vrsub h d a b m) := by
  intro hwf _ _
  have e : encode (.vrsub h d a b m) = fEnc h b.immOf { opc := 0x20, fn := 2, form := b.formVal, d := d.val, a := a.r.val, ca := a.ch, b := b.bVal, cb := b.chVal, m := m.val } := rfl
  rcases b with v | r | (b | b) <;>
  · rw [e, decode_fEnc (hf := by constructor <;> simp [VSrc.formVal, VSrc.bVal, VSrc.immOf, VSrc.chVal, FWord.vsrc] <;> omega)]
    refine (decodeF_ok rfl rfl ?_).trans ?_ <;>
      simp [Shape.accepts, Shape.reservedOk, FClass.resvOk, Shape.maskOk, FClass.chainable, litOk, FClass.regOk, FClass.size, FWord.withEnc, literal_litNext, Imm.isLit, Imm.immVal, fldN_val, FWord.hdr, FWord.immv, FWord.immBits, FWord.immBv, VSrc.formVal, VSrc.bVal, VSrc.immOf, VSrc.chVal, FWord.vsrc]

theorem Sys2Proof.Laws.Exact.vand (h : Hdr) (d : Fin 64) (a : CVec) (b : VSrc) (m : Fin 8) : Sys2Proof.Laws.Exact.Statement (.vand h d a b m) := by
  intro hwf _ _
  have e : encode (.vand h d a b m) = fEnc h b.immOf { opc := 0x20, fn := 3, form := b.formVal, d := d.val, a := a.r.val, ca := a.ch, b := b.bVal, cb := b.chVal, m := m.val } := rfl
  rcases b with v | r | (b | b) <;>
  · rw [e, decode_fEnc (hf := by constructor <;> simp [VSrc.formVal, VSrc.bVal, VSrc.immOf, VSrc.chVal, FWord.vsrc] <;> omega)]
    refine (decodeF_ok rfl rfl ?_).trans ?_ <;>
      simp [Shape.accepts, Shape.reservedOk, FClass.resvOk, Shape.maskOk, FClass.chainable, litOk, FClass.regOk, FClass.size, FWord.withEnc, literal_litNext, Imm.isLit, Imm.immVal, fldN_val, FWord.hdr, FWord.immv, FWord.immBits, FWord.immBv, VSrc.formVal, VSrc.bVal, VSrc.immOf, VSrc.chVal, FWord.vsrc]

theorem Sys2Proof.Laws.Exact.vor (h : Hdr) (d : Fin 64) (a : CVec) (b : VSrc) (m : Fin 8) : Sys2Proof.Laws.Exact.Statement (.vor h d a b m) := by
  intro hwf _ _
  have e : encode (.vor h d a b m) = fEnc h b.immOf { opc := 0x20, fn := 4, form := b.formVal, d := d.val, a := a.r.val, ca := a.ch, b := b.bVal, cb := b.chVal, m := m.val } := rfl
  rcases b with v | r | (b | b) <;>
  · rw [e, decode_fEnc (hf := by constructor <;> simp [VSrc.formVal, VSrc.bVal, VSrc.immOf, VSrc.chVal, FWord.vsrc] <;> omega)]
    refine (decodeF_ok rfl rfl ?_).trans ?_ <;>
      simp [Shape.accepts, Shape.reservedOk, FClass.resvOk, Shape.maskOk, FClass.chainable, litOk, FClass.regOk, FClass.size, FWord.withEnc, literal_litNext, Imm.isLit, Imm.immVal, fldN_val, FWord.hdr, FWord.immv, FWord.immBits, FWord.immBv, VSrc.formVal, VSrc.bVal, VSrc.immOf, VSrc.chVal, FWord.vsrc]

theorem Sys2Proof.Laws.Exact.vxor (h : Hdr) (d : Fin 64) (a : CVec) (b : VSrc) (m : Fin 8) : Sys2Proof.Laws.Exact.Statement (.vxor h d a b m) := by
  intro hwf _ _
  have e : encode (.vxor h d a b m) = fEnc h b.immOf { opc := 0x20, fn := 5, form := b.formVal, d := d.val, a := a.r.val, ca := a.ch, b := b.bVal, cb := b.chVal, m := m.val } := rfl
  rcases b with v | r | (b | b) <;>
  · rw [e, decode_fEnc (hf := by constructor <;> simp [VSrc.formVal, VSrc.bVal, VSrc.immOf, VSrc.chVal, FWord.vsrc] <;> omega)]
    refine (decodeF_ok rfl rfl ?_).trans ?_ <;>
      simp [Shape.accepts, Shape.reservedOk, FClass.resvOk, Shape.maskOk, FClass.chainable, litOk, FClass.regOk, FClass.size, FWord.withEnc, literal_litNext, Imm.isLit, Imm.immVal, fldN_val, FWord.hdr, FWord.immv, FWord.immBits, FWord.immBv, VSrc.formVal, VSrc.bVal, VSrc.immOf, VSrc.chVal, FWord.vsrc]

theorem Sys2Proof.Laws.Exact.vsll (h : Hdr) (d : Fin 64) (a : CVec) (b : VSrc) (m : Fin 8) : Sys2Proof.Laws.Exact.Statement (.vsll h d a b m) := by
  intro hwf _ _
  have e : encode (.vsll h d a b m) = fEnc h b.immOf { opc := 0x20, fn := 6, form := b.formVal, d := d.val, a := a.r.val, ca := a.ch, b := b.bVal, cb := b.chVal, m := m.val } := rfl
  rcases b with v | r | (b | b) <;>
  · rw [e, decode_fEnc (hf := by constructor <;> simp [VSrc.formVal, VSrc.bVal, VSrc.immOf, VSrc.chVal, FWord.vsrc] <;> omega)]
    refine (decodeF_ok rfl rfl ?_).trans ?_ <;>
      simp [Shape.accepts, Shape.reservedOk, FClass.resvOk, Shape.maskOk, FClass.chainable, litOk, FClass.regOk, FClass.size, FWord.withEnc, literal_litNext, Imm.isLit, Imm.immVal, fldN_val, FWord.hdr, FWord.immv, FWord.immBits, FWord.immBv, VSrc.formVal, VSrc.bVal, VSrc.immOf, VSrc.chVal, FWord.vsrc]

theorem Sys2Proof.Laws.Exact.vsrl (h : Hdr) (d : Fin 64) (a : CVec) (b : VSrc) (m : Fin 8) : Sys2Proof.Laws.Exact.Statement (.vsrl h d a b m) := by
  intro hwf _ _
  have e : encode (.vsrl h d a b m) = fEnc h b.immOf { opc := 0x20, fn := 7, form := b.formVal, d := d.val, a := a.r.val, ca := a.ch, b := b.bVal, cb := b.chVal, m := m.val } := rfl
  rcases b with v | r | (b | b) <;>
  · rw [e, decode_fEnc (hf := by constructor <;> simp [VSrc.formVal, VSrc.bVal, VSrc.immOf, VSrc.chVal, FWord.vsrc] <;> omega)]
    refine (decodeF_ok rfl rfl ?_).trans ?_ <;>
      simp [Shape.accepts, Shape.reservedOk, FClass.resvOk, Shape.maskOk, FClass.chainable, litOk, FClass.regOk, FClass.size, FWord.withEnc, literal_litNext, Imm.isLit, Imm.immVal, fldN_val, FWord.hdr, FWord.immv, FWord.immBits, FWord.immBv, VSrc.formVal, VSrc.bVal, VSrc.immOf, VSrc.chVal, FWord.vsrc]

theorem Sys2Proof.Laws.Exact.vsra (h : Hdr) (d : Fin 64) (a : CVec) (b : VSrc) (m : Fin 8) : Sys2Proof.Laws.Exact.Statement (.vsra h d a b m) := by
  intro hwf _ _
  have e : encode (.vsra h d a b m) = fEnc h b.immOf { opc := 0x20, fn := 8, form := b.formVal, d := d.val, a := a.r.val, ca := a.ch, b := b.bVal, cb := b.chVal, m := m.val } := rfl
  rcases b with v | r | (b | b) <;>
  · rw [e, decode_fEnc (hf := by constructor <;> simp [VSrc.formVal, VSrc.bVal, VSrc.immOf, VSrc.chVal, FWord.vsrc] <;> omega)]
    refine (decodeF_ok rfl rfl ?_).trans ?_ <;>
      simp [Shape.accepts, Shape.reservedOk, FClass.resvOk, Shape.maskOk, FClass.chainable, litOk, FClass.regOk, FClass.size, FWord.withEnc, literal_litNext, Imm.isLit, Imm.immVal, fldN_val, FWord.hdr, FWord.immv, FWord.immBits, FWord.immBv, VSrc.formVal, VSrc.bVal, VSrc.immOf, VSrc.chVal, FWord.vsrc]

theorem Sys2Proof.Laws.Exact.vmul (h : Hdr) (d : Fin 64) (a : CVec) (b : VSrc) (m : Fin 8) : Sys2Proof.Laws.Exact.Statement (.vmul h d a b m) := by
  intro hwf _ _
  have e : encode (.vmul h d a b m) = fEnc h b.immOf { opc := 0x20, fn := 9, form := b.formVal, d := d.val, a := a.r.val, ca := a.ch, b := b.bVal, cb := b.chVal, m := m.val } := rfl
  rcases b with v | r | (b | b) <;>
  · rw [e, decode_fEnc (hf := by constructor <;> simp [VSrc.formVal, VSrc.bVal, VSrc.immOf, VSrc.chVal, FWord.vsrc] <;> omega)]
    refine (decodeF_ok rfl rfl ?_).trans ?_ <;>
      simp [Shape.accepts, Shape.reservedOk, FClass.resvOk, Shape.maskOk, FClass.chainable, litOk, FClass.regOk, FClass.size, FWord.withEnc, literal_litNext, Imm.isLit, Imm.immVal, fldN_val, FWord.hdr, FWord.immv, FWord.immBits, FWord.immBv, VSrc.formVal, VSrc.bVal, VSrc.immOf, VSrc.chVal, FWord.vsrc]

theorem Sys2Proof.Laws.Exact.vmulh (h : Hdr) (d : Fin 64) (a : CVec) (b : VSrc) (m : Fin 8) : Sys2Proof.Laws.Exact.Statement (.vmulh h d a b m) := by
  intro hwf _ _
  have e : encode (.vmulh h d a b m) = fEnc h b.immOf { opc := 0x20, fn := 10, form := b.formVal, d := d.val, a := a.r.val, ca := a.ch, b := b.bVal, cb := b.chVal, m := m.val } := rfl
  rcases b with v | r | (b | b) <;>
  · rw [e, decode_fEnc (hf := by constructor <;> simp [VSrc.formVal, VSrc.bVal, VSrc.immOf, VSrc.chVal, FWord.vsrc] <;> omega)]
    refine (decodeF_ok rfl rfl ?_).trans ?_ <;>
      simp [Shape.accepts, Shape.reservedOk, FClass.resvOk, Shape.maskOk, FClass.chainable, litOk, FClass.regOk, FClass.size, FWord.withEnc, literal_litNext, Imm.isLit, Imm.immVal, fldN_val, FWord.hdr, FWord.immv, FWord.immBits, FWord.immBv, VSrc.formVal, VSrc.bVal, VSrc.immOf, VSrc.chVal, FWord.vsrc]

theorem Sys2Proof.Laws.Exact.vmulhu (h : Hdr) (d : Fin 64) (a : CVec) (b : VSrc) (m : Fin 8) : Sys2Proof.Laws.Exact.Statement (.vmulhu h d a b m) := by
  intro hwf _ _
  have e : encode (.vmulhu h d a b m) = fEnc h b.immOf { opc := 0x20, fn := 11, form := b.formVal, d := d.val, a := a.r.val, ca := a.ch, b := b.bVal, cb := b.chVal, m := m.val } := rfl
  rcases b with v | r | (b | b) <;>
  · rw [e, decode_fEnc (hf := by constructor <;> simp [VSrc.formVal, VSrc.bVal, VSrc.immOf, VSrc.chVal, FWord.vsrc] <;> omega)]
    refine (decodeF_ok rfl rfl ?_).trans ?_ <;>
      simp [Shape.accepts, Shape.reservedOk, FClass.resvOk, Shape.maskOk, FClass.chainable, litOk, FClass.regOk, FClass.size, FWord.withEnc, literal_litNext, Imm.isLit, Imm.immVal, fldN_val, FWord.hdr, FWord.immv, FWord.immBits, FWord.immBv, VSrc.formVal, VSrc.bVal, VSrc.immOf, VSrc.chVal, FWord.vsrc]

theorem Sys2Proof.Laws.Exact.vdiv (h : Hdr) (d : Fin 64) (a : CVec) (b : VSrc) (m : Fin 8) : Sys2Proof.Laws.Exact.Statement (.vdiv h d a b m) := by
  intro hwf _ _
  have e : encode (.vdiv h d a b m) = fEnc h b.immOf { opc := 0x20, fn := 12, form := b.formVal, d := d.val, a := a.r.val, ca := a.ch, b := b.bVal, cb := b.chVal, m := m.val } := rfl
  rcases b with v | r | (b | b) <;>
  · rw [e, decode_fEnc (hf := by constructor <;> simp [VSrc.formVal, VSrc.bVal, VSrc.immOf, VSrc.chVal, FWord.vsrc] <;> omega)]
    refine (decodeF_ok rfl rfl ?_).trans ?_ <;>
      simp [Shape.accepts, Shape.reservedOk, FClass.resvOk, Shape.maskOk, FClass.chainable, litOk, FClass.regOk, FClass.size, FWord.withEnc, literal_litNext, Imm.isLit, Imm.immVal, fldN_val, FWord.hdr, FWord.immv, FWord.immBits, FWord.immBv, VSrc.formVal, VSrc.bVal, VSrc.immOf, VSrc.chVal, FWord.vsrc]

theorem Sys2Proof.Laws.Exact.vdivu (h : Hdr) (d : Fin 64) (a : CVec) (b : VSrc) (m : Fin 8) : Sys2Proof.Laws.Exact.Statement (.vdivu h d a b m) := by
  intro hwf _ _
  have e : encode (.vdivu h d a b m) = fEnc h b.immOf { opc := 0x20, fn := 13, form := b.formVal, d := d.val, a := a.r.val, ca := a.ch, b := b.bVal, cb := b.chVal, m := m.val } := rfl
  rcases b with v | r | (b | b) <;>
  · rw [e, decode_fEnc (hf := by constructor <;> simp [VSrc.formVal, VSrc.bVal, VSrc.immOf, VSrc.chVal, FWord.vsrc] <;> omega)]
    refine (decodeF_ok rfl rfl ?_).trans ?_ <;>
      simp [Shape.accepts, Shape.reservedOk, FClass.resvOk, Shape.maskOk, FClass.chainable, litOk, FClass.regOk, FClass.size, FWord.withEnc, literal_litNext, Imm.isLit, Imm.immVal, fldN_val, FWord.hdr, FWord.immv, FWord.immBits, FWord.immBv, VSrc.formVal, VSrc.bVal, VSrc.immOf, VSrc.chVal, FWord.vsrc]

theorem Sys2Proof.Laws.Exact.vrem (h : Hdr) (d : Fin 64) (a : CVec) (b : VSrc) (m : Fin 8) : Sys2Proof.Laws.Exact.Statement (.vrem h d a b m) := by
  intro hwf _ _
  have e : encode (.vrem h d a b m) = fEnc h b.immOf { opc := 0x20, fn := 14, form := b.formVal, d := d.val, a := a.r.val, ca := a.ch, b := b.bVal, cb := b.chVal, m := m.val } := rfl
  rcases b with v | r | (b | b) <;>
  · rw [e, decode_fEnc (hf := by constructor <;> simp [VSrc.formVal, VSrc.bVal, VSrc.immOf, VSrc.chVal, FWord.vsrc] <;> omega)]
    refine (decodeF_ok rfl rfl ?_).trans ?_ <;>
      simp [Shape.accepts, Shape.reservedOk, FClass.resvOk, Shape.maskOk, FClass.chainable, litOk, FClass.regOk, FClass.size, FWord.withEnc, literal_litNext, Imm.isLit, Imm.immVal, fldN_val, FWord.hdr, FWord.immv, FWord.immBits, FWord.immBv, VSrc.formVal, VSrc.bVal, VSrc.immOf, VSrc.chVal, FWord.vsrc]

theorem Sys2Proof.Laws.Exact.vremu (h : Hdr) (d : Fin 64) (a : CVec) (b : VSrc) (m : Fin 8) : Sys2Proof.Laws.Exact.Statement (.vremu h d a b m) := by
  intro hwf _ _
  have e : encode (.vremu h d a b m) = fEnc h b.immOf { opc := 0x20, fn := 15, form := b.formVal, d := d.val, a := a.r.val, ca := a.ch, b := b.bVal, cb := b.chVal, m := m.val } := rfl
  rcases b with v | r | (b | b) <;>
  · rw [e, decode_fEnc (hf := by constructor <;> simp [VSrc.formVal, VSrc.bVal, VSrc.immOf, VSrc.chVal, FWord.vsrc] <;> omega)]
    refine (decodeF_ok rfl rfl ?_).trans ?_ <;>
      simp [Shape.accepts, Shape.reservedOk, FClass.resvOk, Shape.maskOk, FClass.chainable, litOk, FClass.regOk, FClass.size, FWord.withEnc, literal_litNext, Imm.isLit, Imm.immVal, fldN_val, FWord.hdr, FWord.immv, FWord.immBits, FWord.immBv, VSrc.formVal, VSrc.bVal, VSrc.immOf, VSrc.chVal, FWord.vsrc]

theorem Sys2Proof.Laws.Exact.vmin (h : Hdr) (d : Fin 64) (a : CVec) (b : VSrc) (m : Fin 8) : Sys2Proof.Laws.Exact.Statement (.vmin h d a b m) := by
  intro hwf _ _
  have e : encode (.vmin h d a b m) = fEnc h b.immOf { opc := 0x20, fn := 16, form := b.formVal, d := d.val, a := a.r.val, ca := a.ch, b := b.bVal, cb := b.chVal, m := m.val } := rfl
  rcases b with v | r | (b | b) <;>
  · rw [e, decode_fEnc (hf := by constructor <;> simp [VSrc.formVal, VSrc.bVal, VSrc.immOf, VSrc.chVal, FWord.vsrc] <;> omega)]
    refine (decodeF_ok rfl rfl ?_).trans ?_ <;>
      simp [Shape.accepts, Shape.reservedOk, FClass.resvOk, Shape.maskOk, FClass.chainable, litOk, FClass.regOk, FClass.size, FWord.withEnc, literal_litNext, Imm.isLit, Imm.immVal, fldN_val, FWord.hdr, FWord.immv, FWord.immBits, FWord.immBv, VSrc.formVal, VSrc.bVal, VSrc.immOf, VSrc.chVal, FWord.vsrc]

theorem Sys2Proof.Laws.Exact.vmax (h : Hdr) (d : Fin 64) (a : CVec) (b : VSrc) (m : Fin 8) : Sys2Proof.Laws.Exact.Statement (.vmax h d a b m) := by
  intro hwf _ _
  have e : encode (.vmax h d a b m) = fEnc h b.immOf { opc := 0x20, fn := 17, form := b.formVal, d := d.val, a := a.r.val, ca := a.ch, b := b.bVal, cb := b.chVal, m := m.val } := rfl
  rcases b with v | r | (b | b) <;>
  · rw [e, decode_fEnc (hf := by constructor <;> simp [VSrc.formVal, VSrc.bVal, VSrc.immOf, VSrc.chVal, FWord.vsrc] <;> omega)]
    refine (decodeF_ok rfl rfl ?_).trans ?_ <;>
      simp [Shape.accepts, Shape.reservedOk, FClass.resvOk, Shape.maskOk, FClass.chainable, litOk, FClass.regOk, FClass.size, FWord.withEnc, literal_litNext, Imm.isLit, Imm.immVal, fldN_val, FWord.hdr, FWord.immv, FWord.immBits, FWord.immBv, VSrc.formVal, VSrc.bVal, VSrc.immOf, VSrc.chVal, FWord.vsrc]

theorem Sys2Proof.Laws.Exact.vminu (h : Hdr) (d : Fin 64) (a : CVec) (b : VSrc) (m : Fin 8) : Sys2Proof.Laws.Exact.Statement (.vminu h d a b m) := by
  intro hwf _ _
  have e : encode (.vminu h d a b m) = fEnc h b.immOf { opc := 0x20, fn := 18, form := b.formVal, d := d.val, a := a.r.val, ca := a.ch, b := b.bVal, cb := b.chVal, m := m.val } := rfl
  rcases b with v | r | (b | b) <;>
  · rw [e, decode_fEnc (hf := by constructor <;> simp [VSrc.formVal, VSrc.bVal, VSrc.immOf, VSrc.chVal, FWord.vsrc] <;> omega)]
    refine (decodeF_ok rfl rfl ?_).trans ?_ <;>
      simp [Shape.accepts, Shape.reservedOk, FClass.resvOk, Shape.maskOk, FClass.chainable, litOk, FClass.regOk, FClass.size, FWord.withEnc, literal_litNext, Imm.isLit, Imm.immVal, fldN_val, FWord.hdr, FWord.immv, FWord.immBits, FWord.immBv, VSrc.formVal, VSrc.bVal, VSrc.immOf, VSrc.chVal, FWord.vsrc]

theorem Sys2Proof.Laws.Exact.vmaxu (h : Hdr) (d : Fin 64) (a : CVec) (b : VSrc) (m : Fin 8) : Sys2Proof.Laws.Exact.Statement (.vmaxu h d a b m) := by
  intro hwf _ _
  have e : encode (.vmaxu h d a b m) = fEnc h b.immOf { opc := 0x20, fn := 19, form := b.formVal, d := d.val, a := a.r.val, ca := a.ch, b := b.bVal, cb := b.chVal, m := m.val } := rfl
  rcases b with v | r | (b | b) <;>
  · rw [e, decode_fEnc (hf := by constructor <;> simp [VSrc.formVal, VSrc.bVal, VSrc.immOf, VSrc.chVal, FWord.vsrc] <;> omega)]
    refine (decodeF_ok rfl rfl ?_).trans ?_ <;>
      simp [Shape.accepts, Shape.reservedOk, FClass.resvOk, Shape.maskOk, FClass.chainable, litOk, FClass.regOk, FClass.size, FWord.withEnc, literal_litNext, Imm.isLit, Imm.immVal, fldN_val, FWord.hdr, FWord.immv, FWord.immBits, FWord.immBv, VSrc.formVal, VSrc.bVal, VSrc.immOf, VSrc.chVal, FWord.vsrc]

theorem Sys2Proof.Laws.Exact.vsadd (h : Hdr) (d : Fin 64) (a : CVec) (b : VSrc) (m : Fin 8) : Sys2Proof.Laws.Exact.Statement (.vsadd h d a b m) := by
  intro hwf _ _
  have e : encode (.vsadd h d a b m) = fEnc h b.immOf { opc := 0x20, fn := 20, form := b.formVal, d := d.val, a := a.r.val, ca := a.ch, b := b.bVal, cb := b.chVal, m := m.val } := rfl
  rcases b with v | r | (b | b) <;>
  · rw [e, decode_fEnc (hf := by constructor <;> simp [VSrc.formVal, VSrc.bVal, VSrc.immOf, VSrc.chVal, FWord.vsrc] <;> omega)]
    refine (decodeF_ok rfl rfl ?_).trans ?_ <;>
      simp [Shape.accepts, Shape.reservedOk, FClass.resvOk, Shape.maskOk, FClass.chainable, litOk, FClass.regOk, FClass.size, FWord.withEnc, literal_litNext, Imm.isLit, Imm.immVal, fldN_val, FWord.hdr, FWord.immv, FWord.immBits, FWord.immBv, VSrc.formVal, VSrc.bVal, VSrc.immOf, VSrc.chVal, FWord.vsrc]

theorem Sys2Proof.Laws.Exact.vsaddu (h : Hdr) (d : Fin 64) (a : CVec) (b : VSrc) (m : Fin 8) : Sys2Proof.Laws.Exact.Statement (.vsaddu h d a b m) := by
  intro hwf _ _
  have e : encode (.vsaddu h d a b m) = fEnc h b.immOf { opc := 0x20, fn := 21, form := b.formVal, d := d.val, a := a.r.val, ca := a.ch, b := b.bVal, cb := b.chVal, m := m.val } := rfl
  rcases b with v | r | (b | b) <;>
  · rw [e, decode_fEnc (hf := by constructor <;> simp [VSrc.formVal, VSrc.bVal, VSrc.immOf, VSrc.chVal, FWord.vsrc] <;> omega)]
    refine (decodeF_ok rfl rfl ?_).trans ?_ <;>
      simp [Shape.accepts, Shape.reservedOk, FClass.resvOk, Shape.maskOk, FClass.chainable, litOk, FClass.regOk, FClass.size, FWord.withEnc, literal_litNext, Imm.isLit, Imm.immVal, fldN_val, FWord.hdr, FWord.immv, FWord.immBits, FWord.immBv, VSrc.formVal, VSrc.bVal, VSrc.immOf, VSrc.chVal, FWord.vsrc]

theorem Sys2Proof.Laws.Exact.vssub (h : Hdr) (d : Fin 64) (a : CVec) (b : VSrc) (m : Fin 8) : Sys2Proof.Laws.Exact.Statement (.vssub h d a b m) := by
  intro hwf _ _
  have e : encode (.vssub h d a b m) = fEnc h b.immOf { opc := 0x20, fn := 22, form := b.formVal, d := d.val, a := a.r.val, ca := a.ch, b := b.bVal, cb := b.chVal, m := m.val } := rfl
  rcases b with v | r | (b | b) <;>
  · rw [e, decode_fEnc (hf := by constructor <;> simp [VSrc.formVal, VSrc.bVal, VSrc.immOf, VSrc.chVal, FWord.vsrc] <;> omega)]
    refine (decodeF_ok rfl rfl ?_).trans ?_ <;>
      simp [Shape.accepts, Shape.reservedOk, FClass.resvOk, Shape.maskOk, FClass.chainable, litOk, FClass.regOk, FClass.size, FWord.withEnc, literal_litNext, Imm.isLit, Imm.immVal, fldN_val, FWord.hdr, FWord.immv, FWord.immBits, FWord.immBv, VSrc.formVal, VSrc.bVal, VSrc.immOf, VSrc.chVal, FWord.vsrc]

theorem Sys2Proof.Laws.Exact.vssubu (h : Hdr) (d : Fin 64) (a : CVec) (b : VSrc) (m : Fin 8) : Sys2Proof.Laws.Exact.Statement (.vssubu h d a b m) := by
  intro hwf _ _
  have e : encode (.vssubu h d a b m) = fEnc h b.immOf { opc := 0x20, fn := 23, form := b.formVal, d := d.val, a := a.r.val, ca := a.ch, b := b.bVal, cb := b.chVal, m := m.val } := rfl
  rcases b with v | r | (b | b) <;>
  · rw [e, decode_fEnc (hf := by constructor <;> simp [VSrc.formVal, VSrc.bVal, VSrc.immOf, VSrc.chVal, FWord.vsrc] <;> omega)]
    refine (decodeF_ok rfl rfl ?_).trans ?_ <;>
      simp [Shape.accepts, Shape.reservedOk, FClass.resvOk, Shape.maskOk, FClass.chainable, litOk, FClass.regOk, FClass.size, FWord.withEnc, literal_litNext, Imm.isLit, Imm.immVal, fldN_val, FWord.hdr, FWord.immv, FWord.immBits, FWord.immBv, VSrc.formVal, VSrc.bVal, VSrc.immOf, VSrc.chVal, FWord.vsrc]

theorem Sys2Proof.Laws.Exact.vabs (h : Hdr) (d : Fin 64) (a : CVec) (m : Fin 8) : Sys2Proof.Laws.Exact.Statement (.vabs h d a m) := by
  intro hwf _ _
  have e : encode (.vabs h d a m) = fEnc h none { opc := 0x20, fn := 24, d := d.val, a := a.r.val, ca := a.ch, m := m.val } := rfl
  rw [e, decode_fEnc (hf := by constructor <;> simp <;> omega)]
  refine (decodeF_ok rfl rfl ?_).trans ?_ <;>
    simp [Shape.accepts, Shape.reservedOk, FClass.resvOk, Shape.maskOk, FClass.chainable, litOk, FClass.regOk, FClass.size, FWord.withEnc, literal_litNext, Imm.isLit, Imm.immVal, fldN_val, FWord.hdr, FWord.immv, FWord.immBits, FWord.immBv]

theorem Sys2Proof.Laws.Exact.vmv (h : Hdr) (d : Fin 64) (b : VmvSrc) (m : Fin 8) : Sys2Proof.Laws.Exact.Statement (.vmv h d b m) := by
  intro hwf _ _
  have e : encode (.vmv h d b m) = fEnc h b.immOf { opc := 0x20, fn := 25, form := b.formVal, d := d.val, a := b.aVal, ca := b.chVal, b := b.bVal, m := m.val } := rfl
  rcases b with v | r | (b | b) <;>
  · rw [e, decode_fEnc (hf := by constructor <;> simp [VmvSrc.formVal, VmvSrc.aVal, VmvSrc.bVal, VmvSrc.immOf, VmvSrc.chVal, FWord.vmvsrc] <;> omega)]
    refine (decodeF_ok rfl rfl ?_).trans ?_ <;>
      simp [Shape.accepts, Shape.reservedOk, FClass.resvOk, Shape.maskOk, FClass.chainable, litOk, FClass.regOk, FClass.size, FWord.withEnc, literal_litNext, Imm.isLit, Imm.immVal, fldN_val, FWord.hdr, FWord.immv, FWord.immBits, FWord.immBv, VmvSrc.formVal, VmvSrc.aVal, VmvSrc.bVal, VmvSrc.immOf, VmvSrc.chVal, FWord.vmvsrc]

theorem Sys2Proof.Laws.Exact.vmerge (h : Hdr) (d : Fin 64) (a : CVec) (b : VSrc) (m : Fin 8) : Sys2Proof.Laws.Exact.Statement (.vmerge h d a b m) := by
  intro hwf _ _
  have e : encode (.vmerge h d a b m) = fEnc h b.immOf { opc := 0x20, fn := 26, form := b.formVal, d := d.val, a := a.r.val, ca := a.ch, b := b.bVal, cb := b.chVal, m := m.val } := rfl
  have wm : (m != 0) = true := hwf
  have wm : ¬ m = 0 := by simpa using wm
  rcases b with v | r | (b | b) <;>
  · rw [e, decode_fEnc (hf := by constructor <;> simp [VSrc.formVal, VSrc.bVal, VSrc.immOf, VSrc.chVal, FWord.vsrc] <;> omega)]
    refine (decodeF_ok rfl rfl ?_).trans ?_ <;>
      simp [Shape.accepts, Shape.reservedOk, FClass.resvOk, Shape.maskOk, FClass.chainable, litOk, FClass.regOk, FClass.size, FWord.withEnc, fldN_val, FWord.hdr, FWord.immv, literal_litNext, Imm.isLit, Imm.immVal, VSrc.formVal, VSrc.bVal, VSrc.immOf, VSrc.chVal, FWord.vsrc, wm]

theorem Sys2Proof.Laws.Exact.vid (h : Hdr) (d : Fin 64) (m : Fin 8) : Sys2Proof.Laws.Exact.Statement (.vid h d m) := by
  intro hwf _ _
  have e : encode (.vid h d m) = fEnc h none { opc := 0x20, fn := 27, d := d.val, m := m.val } := rfl
  rw [e, decode_fEnc (hf := by constructor <;> simp <;> omega)]
  refine (decodeF_ok rfl rfl ?_).trans ?_ <;>
    simp [Shape.accepts, Shape.reservedOk, FClass.resvOk, Shape.maskOk, FClass.chainable, litOk, FClass.regOk, FClass.size, FWord.withEnc, literal_litNext, Imm.isLit, Imm.immVal, fldN_val, FWord.hdr, FWord.immv, FWord.immBits, FWord.immBv]

theorem Sys2Proof.Laws.Exact.vseq (h : Hdr) (d : Fin 8) (a : CVec) (b : VSrc) (m : Fin 8) : Sys2Proof.Laws.Exact.Statement (.vseq h d a b m) := by
  intro hwf _ _
  have e : encode (.vseq h d a b m) = fEnc h b.immOf { opc := 0x21, fn := 0, form := b.formVal, d := d.val, a := a.r.val, ca := a.ch, b := b.bVal, cb := b.chVal, m := m.val } := rfl
  rcases b with v | r | (b | b) <;>
  · rw [e, decode_fEnc (hf := by constructor <;> simp [VSrc.formVal, VSrc.bVal, VSrc.immOf, VSrc.chVal, FWord.vsrc] <;> omega)]
    refine (decodeF_ok rfl rfl ?_).trans ?_ <;>
      simp [Shape.accepts, Shape.reservedOk, FClass.resvOk, Shape.maskOk, FClass.chainable, litOk, FClass.regOk, FClass.size, FWord.withEnc, literal_litNext, Imm.isLit, Imm.immVal, fldN_val, FWord.hdr, FWord.immv, FWord.immBits, FWord.immBv, VSrc.formVal, VSrc.bVal, VSrc.immOf, VSrc.chVal, FWord.vsrc]

theorem Sys2Proof.Laws.Exact.vsne (h : Hdr) (d : Fin 8) (a : CVec) (b : VSrc) (m : Fin 8) : Sys2Proof.Laws.Exact.Statement (.vsne h d a b m) := by
  intro hwf _ _
  have e : encode (.vsne h d a b m) = fEnc h b.immOf { opc := 0x21, fn := 1, form := b.formVal, d := d.val, a := a.r.val, ca := a.ch, b := b.bVal, cb := b.chVal, m := m.val } := rfl
  rcases b with v | r | (b | b) <;>
  · rw [e, decode_fEnc (hf := by constructor <;> simp [VSrc.formVal, VSrc.bVal, VSrc.immOf, VSrc.chVal, FWord.vsrc] <;> omega)]
    refine (decodeF_ok rfl rfl ?_).trans ?_ <;>
      simp [Shape.accepts, Shape.reservedOk, FClass.resvOk, Shape.maskOk, FClass.chainable, litOk, FClass.regOk, FClass.size, FWord.withEnc, literal_litNext, Imm.isLit, Imm.immVal, fldN_val, FWord.hdr, FWord.immv, FWord.immBits, FWord.immBv, VSrc.formVal, VSrc.bVal, VSrc.immOf, VSrc.chVal, FWord.vsrc]

theorem Sys2Proof.Laws.Exact.vslt (h : Hdr) (d : Fin 8) (a : CVec) (b : VSrc) (m : Fin 8) : Sys2Proof.Laws.Exact.Statement (.vslt h d a b m) := by
  intro hwf _ _
  have e : encode (.vslt h d a b m) = fEnc h b.immOf { opc := 0x21, fn := 2, form := b.formVal, d := d.val, a := a.r.val, ca := a.ch, b := b.bVal, cb := b.chVal, m := m.val } := rfl
  rcases b with v | r | (b | b) <;>
  · rw [e, decode_fEnc (hf := by constructor <;> simp [VSrc.formVal, VSrc.bVal, VSrc.immOf, VSrc.chVal, FWord.vsrc] <;> omega)]
    refine (decodeF_ok rfl rfl ?_).trans ?_ <;>
      simp [Shape.accepts, Shape.reservedOk, FClass.resvOk, Shape.maskOk, FClass.chainable, litOk, FClass.regOk, FClass.size, FWord.withEnc, literal_litNext, Imm.isLit, Imm.immVal, fldN_val, FWord.hdr, FWord.immv, FWord.immBits, FWord.immBv, VSrc.formVal, VSrc.bVal, VSrc.immOf, VSrc.chVal, FWord.vsrc]

theorem Sys2Proof.Laws.Exact.vsltu (h : Hdr) (d : Fin 8) (a : CVec) (b : VSrc) (m : Fin 8) : Sys2Proof.Laws.Exact.Statement (.vsltu h d a b m) := by
  intro hwf _ _
  have e : encode (.vsltu h d a b m) = fEnc h b.immOf { opc := 0x21, fn := 3, form := b.formVal, d := d.val, a := a.r.val, ca := a.ch, b := b.bVal, cb := b.chVal, m := m.val } := rfl
  rcases b with v | r | (b | b) <;>
  · rw [e, decode_fEnc (hf := by constructor <;> simp [VSrc.formVal, VSrc.bVal, VSrc.immOf, VSrc.chVal, FWord.vsrc] <;> omega)]
    refine (decodeF_ok rfl rfl ?_).trans ?_ <;>
      simp [Shape.accepts, Shape.reservedOk, FClass.resvOk, Shape.maskOk, FClass.chainable, litOk, FClass.regOk, FClass.size, FWord.withEnc, literal_litNext, Imm.isLit, Imm.immVal, fldN_val, FWord.hdr, FWord.immv, FWord.immBits, FWord.immBv, VSrc.formVal, VSrc.bVal, VSrc.immOf, VSrc.chVal, FWord.vsrc]

theorem Sys2Proof.Laws.Exact.vsle (h : Hdr) (d : Fin 8) (a : CVec) (b : VSrc) (m : Fin 8) : Sys2Proof.Laws.Exact.Statement (.vsle h d a b m) := by
  intro hwf _ _
  have e : encode (.vsle h d a b m) = fEnc h b.immOf { opc := 0x21, fn := 4, form := b.formVal, d := d.val, a := a.r.val, ca := a.ch, b := b.bVal, cb := b.chVal, m := m.val } := rfl
  rcases b with v | r | (b | b) <;>
  · rw [e, decode_fEnc (hf := by constructor <;> simp [VSrc.formVal, VSrc.bVal, VSrc.immOf, VSrc.chVal, FWord.vsrc] <;> omega)]
    refine (decodeF_ok rfl rfl ?_).trans ?_ <;>
      simp [Shape.accepts, Shape.reservedOk, FClass.resvOk, Shape.maskOk, FClass.chainable, litOk, FClass.regOk, FClass.size, FWord.withEnc, literal_litNext, Imm.isLit, Imm.immVal, fldN_val, FWord.hdr, FWord.immv, FWord.immBits, FWord.immBv, VSrc.formVal, VSrc.bVal, VSrc.immOf, VSrc.chVal, FWord.vsrc]

theorem Sys2Proof.Laws.Exact.vsleu (h : Hdr) (d : Fin 8) (a : CVec) (b : VSrc) (m : Fin 8) : Sys2Proof.Laws.Exact.Statement (.vsleu h d a b m) := by
  intro hwf _ _
  have e : encode (.vsleu h d a b m) = fEnc h b.immOf { opc := 0x21, fn := 5, form := b.formVal, d := d.val, a := a.r.val, ca := a.ch, b := b.bVal, cb := b.chVal, m := m.val } := rfl
  rcases b with v | r | (b | b) <;>
  · rw [e, decode_fEnc (hf := by constructor <;> simp [VSrc.formVal, VSrc.bVal, VSrc.immOf, VSrc.chVal, FWord.vsrc] <;> omega)]
    refine (decodeF_ok rfl rfl ?_).trans ?_ <;>
      simp [Shape.accepts, Shape.reservedOk, FClass.resvOk, Shape.maskOk, FClass.chainable, litOk, FClass.regOk, FClass.size, FWord.withEnc, literal_litNext, Imm.isLit, Imm.immVal, fldN_val, FWord.hdr, FWord.immv, FWord.immBits, FWord.immBv, VSrc.formVal, VSrc.bVal, VSrc.immOf, VSrc.chVal, FWord.vsrc]

theorem Sys2Proof.Laws.Exact.vsgt (h : Hdr) (d : Fin 8) (a : CVec) (b : VSrc) (m : Fin 8) : Sys2Proof.Laws.Exact.Statement (.vsgt h d a b m) := by
  intro hwf _ _
  have e : encode (.vsgt h d a b m) = fEnc h b.immOf { opc := 0x21, fn := 6, form := b.formVal, d := d.val, a := a.r.val, ca := a.ch, b := b.bVal, cb := b.chVal, m := m.val } := rfl
  rcases b with v | r | (b | b) <;>
  · rw [e, decode_fEnc (hf := by constructor <;> simp [VSrc.formVal, VSrc.bVal, VSrc.immOf, VSrc.chVal, FWord.vsrc] <;> omega)]
    refine (decodeF_ok rfl rfl ?_).trans ?_ <;>
      simp [Shape.accepts, Shape.reservedOk, FClass.resvOk, Shape.maskOk, FClass.chainable, litOk, FClass.regOk, FClass.size, FWord.withEnc, literal_litNext, Imm.isLit, Imm.immVal, fldN_val, FWord.hdr, FWord.immv, FWord.immBits, FWord.immBv, VSrc.formVal, VSrc.bVal, VSrc.immOf, VSrc.chVal, FWord.vsrc]

theorem Sys2Proof.Laws.Exact.vsgtu (h : Hdr) (d : Fin 8) (a : CVec) (b : VSrc) (m : Fin 8) : Sys2Proof.Laws.Exact.Statement (.vsgtu h d a b m) := by
  intro hwf _ _
  have e : encode (.vsgtu h d a b m) = fEnc h b.immOf { opc := 0x21, fn := 7, form := b.formVal, d := d.val, a := a.r.val, ca := a.ch, b := b.bVal, cb := b.chVal, m := m.val } := rfl
  rcases b with v | r | (b | b) <;>
  · rw [e, decode_fEnc (hf := by constructor <;> simp [VSrc.formVal, VSrc.bVal, VSrc.immOf, VSrc.chVal, FWord.vsrc] <;> omega)]
    refine (decodeF_ok rfl rfl ?_).trans ?_ <;>
      simp [Shape.accepts, Shape.reservedOk, FClass.resvOk, Shape.maskOk, FClass.chainable, litOk, FClass.regOk, FClass.size, FWord.withEnc, literal_litNext, Imm.isLit, Imm.immVal, fldN_val, FWord.hdr, FWord.immv, FWord.immBits, FWord.immBv, VSrc.formVal, VSrc.bVal, VSrc.immOf, VSrc.chVal, FWord.vsrc]

theorem Sys2Proof.Laws.Exact.vfadd (h : Hdr) (d : Fin 64) (a : CVec) (b : VSrc) (m : Fin 8) : Sys2Proof.Laws.Exact.Statement (.vfadd h d a b m) := by
  intro hwf _ _
  have e : encode (.vfadd h d a b m) = fEnc h b.immOf { opc := 0x30, fn := 0, form := b.formVal, d := d.val, a := a.r.val, ca := a.ch, b := b.bVal, cb := b.chVal, m := m.val } := rfl
  rcases b with v | r | (b | b) <;>
  · rw [e, decode_fEnc (hf := by constructor <;> simp [VSrc.formVal, VSrc.bVal, VSrc.immOf, VSrc.chVal, FWord.vsrc] <;> omega)]
    refine (decodeF_ok rfl rfl ?_).trans ?_ <;>
      simp [Shape.accepts, Shape.reservedOk, FClass.resvOk, Shape.maskOk, FClass.chainable, litOk, FClass.regOk, FClass.size, FWord.withEnc, literal_litNext, Imm.isLit, Imm.immVal, fldN_val, FWord.hdr, FWord.immv, FWord.immBits, FWord.immBv, VSrc.formVal, VSrc.bVal, VSrc.immOf, VSrc.chVal, FWord.vsrc]

theorem Sys2Proof.Laws.Exact.vfsub (h : Hdr) (d : Fin 64) (a : CVec) (b : VSrc) (m : Fin 8) : Sys2Proof.Laws.Exact.Statement (.vfsub h d a b m) := by
  intro hwf _ _
  have e : encode (.vfsub h d a b m) = fEnc h b.immOf { opc := 0x30, fn := 1, form := b.formVal, d := d.val, a := a.r.val, ca := a.ch, b := b.bVal, cb := b.chVal, m := m.val } := rfl
  rcases b with v | r | (b | b) <;>
  · rw [e, decode_fEnc (hf := by constructor <;> simp [VSrc.formVal, VSrc.bVal, VSrc.immOf, VSrc.chVal, FWord.vsrc] <;> omega)]
    refine (decodeF_ok rfl rfl ?_).trans ?_ <;>
      simp [Shape.accepts, Shape.reservedOk, FClass.resvOk, Shape.maskOk, FClass.chainable, litOk, FClass.regOk, FClass.size, FWord.withEnc, literal_litNext, Imm.isLit, Imm.immVal, fldN_val, FWord.hdr, FWord.immv, FWord.immBits, FWord.immBv, VSrc.formVal, VSrc.bVal, VSrc.immOf, VSrc.chVal, FWord.vsrc]

theorem Sys2Proof.Laws.Exact.vfrsub (h : Hdr) (d : Fin 64) (a : CVec) (b : VSrc) (m : Fin 8) : Sys2Proof.Laws.Exact.Statement (.vfrsub h d a b m) := by
  intro hwf _ _
  have e : encode (.vfrsub h d a b m) = fEnc h b.immOf { opc := 0x30, fn := 2, form := b.formVal, d := d.val, a := a.r.val, ca := a.ch, b := b.bVal, cb := b.chVal, m := m.val } := rfl
  rcases b with v | r | (b | b) <;>
  · rw [e, decode_fEnc (hf := by constructor <;> simp [VSrc.formVal, VSrc.bVal, VSrc.immOf, VSrc.chVal, FWord.vsrc] <;> omega)]
    refine (decodeF_ok rfl rfl ?_).trans ?_ <;>
      simp [Shape.accepts, Shape.reservedOk, FClass.resvOk, Shape.maskOk, FClass.chainable, litOk, FClass.regOk, FClass.size, FWord.withEnc, literal_litNext, Imm.isLit, Imm.immVal, fldN_val, FWord.hdr, FWord.immv, FWord.immBits, FWord.immBv, VSrc.formVal, VSrc.bVal, VSrc.immOf, VSrc.chVal, FWord.vsrc]

theorem Sys2Proof.Laws.Exact.vfmul (h : Hdr) (d : Fin 64) (a : CVec) (b : VSrc) (m : Fin 8) : Sys2Proof.Laws.Exact.Statement (.vfmul h d a b m) := by
  intro hwf _ _
  have e : encode (.vfmul h d a b m) = fEnc h b.immOf { opc := 0x30, fn := 3, form := b.formVal, d := d.val, a := a.r.val, ca := a.ch, b := b.bVal, cb := b.chVal, m := m.val } := rfl
  rcases b with v | r | (b | b) <;>
  · rw [e, decode_fEnc (hf := by constructor <;> simp [VSrc.formVal, VSrc.bVal, VSrc.immOf, VSrc.chVal, FWord.vsrc] <;> omega)]
    refine (decodeF_ok rfl rfl ?_).trans ?_ <;>
      simp [Shape.accepts, Shape.reservedOk, FClass.resvOk, Shape.maskOk, FClass.chainable, litOk, FClass.regOk, FClass.size, FWord.withEnc, literal_litNext, Imm.isLit, Imm.immVal, fldN_val, FWord.hdr, FWord.immv, FWord.immBits, FWord.immBv, VSrc.formVal, VSrc.bVal, VSrc.immOf, VSrc.chVal, FWord.vsrc]

theorem Sys2Proof.Laws.Exact.vfdiv (h : Hdr) (d : Fin 64) (a : CVec) (b : VSrc) (m : Fin 8) : Sys2Proof.Laws.Exact.Statement (.vfdiv h d a b m) := by
  intro hwf _ _
  have e : encode (.vfdiv h d a b m) = fEnc h b.immOf { opc := 0x30, fn := 4, form := b.formVal, d := d.val, a := a.r.val, ca := a.ch, b := b.bVal, cb := b.chVal, m := m.val } := rfl
  rcases b with v | r | (b | b) <;>
  · rw [e, decode_fEnc (hf := by constructor <;> simp [VSrc.formVal, VSrc.bVal, VSrc.immOf, VSrc.chVal, FWord.vsrc] <;> omega)]
    refine (decodeF_ok rfl rfl ?_).trans ?_ <;>
      simp [Shape.accepts, Shape.reservedOk, FClass.resvOk, Shape.maskOk, FClass.chainable, litOk, FClass.regOk, FClass.size, FWord.withEnc, literal_litNext, Imm.isLit, Imm.immVal, fldN_val, FWord.hdr, FWord.immv, FWord.immBits, FWord.immBv, VSrc.formVal, VSrc.bVal, VSrc.immOf, VSrc.chVal, FWord.vsrc]

theorem Sys2Proof.Laws.Exact.vfrdiv (h : Hdr) (d : Fin 64) (a : CVec) (b : VSrc) (m : Fin 8) : Sys2Proof.Laws.Exact.Statement (.vfrdiv h d a b m) := by
  intro hwf _ _
  have e : encode (.vfrdiv h d a b m) = fEnc h b.immOf { opc := 0x30, fn := 5, form := b.formVal, d := d.val, a := a.r.val, ca := a.ch, b := b.bVal, cb := b.chVal, m := m.val } := rfl
  rcases b with v | r | (b | b) <;>
  · rw [e, decode_fEnc (hf := by constructor <;> simp [VSrc.formVal, VSrc.bVal, VSrc.immOf, VSrc.chVal, FWord.vsrc] <;> omega)]
    refine (decodeF_ok rfl rfl ?_).trans ?_ <;>
      simp [Shape.accepts, Shape.reservedOk, FClass.resvOk, Shape.maskOk, FClass.chainable, litOk, FClass.regOk, FClass.size, FWord.withEnc, literal_litNext, Imm.isLit, Imm.immVal, fldN_val, FWord.hdr, FWord.immv, FWord.immBits, FWord.immBv, VSrc.formVal, VSrc.bVal, VSrc.immOf, VSrc.chVal, FWord.vsrc]

theorem Sys2Proof.Laws.Exact.vfsqrt (h : Hdr) (d : Fin 64) (a : CVec) (m : Fin 8) : Sys2Proof.Laws.Exact.Statement (.vfsqrt h d a m) := by
  intro hwf _ _
  have e : encode (.vfsqrt h d a m) = fEnc h none { opc := 0x30, fn := 6, d := d.val, a := a.r.val, ca := a.ch, m := m.val } := rfl
  rw [e, decode_fEnc (hf := by constructor <;> simp <;> omega)]
  refine (decodeF_ok rfl rfl ?_).trans ?_ <;>
    simp [Shape.accepts, Shape.reservedOk, FClass.resvOk, Shape.maskOk, FClass.chainable, litOk, FClass.regOk, FClass.size, FWord.withEnc, literal_litNext, Imm.isLit, Imm.immVal, fldN_val, FWord.hdr, FWord.immv, FWord.immBits, FWord.immBv]

theorem Sys2Proof.Laws.Exact.vfrsqrt (h : Hdr) (d : Fin 64) (a : CVec) (m : Fin 8) : Sys2Proof.Laws.Exact.Statement (.vfrsqrt h d a m) := by
  intro hwf _ _
  have e : encode (.vfrsqrt h d a m) = fEnc h none { opc := 0x30, fn := 7, d := d.val, a := a.r.val, ca := a.ch, m := m.val } := rfl
  rw [e, decode_fEnc (hf := by constructor <;> simp <;> omega)]
  refine (decodeF_ok rfl rfl ?_).trans ?_ <;>
    simp [Shape.accepts, Shape.reservedOk, FClass.resvOk, Shape.maskOk, FClass.chainable, litOk, FClass.regOk, FClass.size, FWord.withEnc, literal_litNext, Imm.isLit, Imm.immVal, fldN_val, FWord.hdr, FWord.immv, FWord.immBits, FWord.immBv]

theorem Sys2Proof.Laws.Exact.vfrcpz (h : Hdr) (d : Fin 64) (a : CVec) (m : Fin 8) : Sys2Proof.Laws.Exact.Statement (.vfrcpz h d a m) := by
  intro hwf _ _
  have e : encode (.vfrcpz h d a m) = fEnc h none { opc := 0x30, fn := 8, d := d.val, a := a.r.val, ca := a.ch, m := m.val } := rfl
  rw [e, decode_fEnc (hf := by constructor <;> simp <;> omega)]
  refine (decodeF_ok rfl rfl ?_).trans ?_ <;>
    simp [Shape.accepts, Shape.reservedOk, FClass.resvOk, Shape.maskOk, FClass.chainable, litOk, FClass.regOk, FClass.size, FWord.withEnc, literal_litNext, Imm.isLit, Imm.immVal, fldN_val, FWord.hdr, FWord.immv, FWord.immBits, FWord.immBv]

theorem Sys2Proof.Laws.Exact.vfma (h : Hdr) (d : Fin 64) (a : CVec) (b : VSrc) (m : Fin 8) : Sys2Proof.Laws.Exact.Statement (.vfma h d a b m) := by
  intro hwf _ _
  have e : encode (.vfma h d a b m) = fEnc h b.immOf { opc := 0x30, fn := 9, form := b.formVal, d := d.val, a := a.r.val, ca := a.ch, b := b.bVal, cb := b.chVal, m := m.val } := rfl
  rcases b with v | r | (b | b) <;>
  · rw [e, decode_fEnc (hf := by constructor <;> simp [VSrc.formVal, VSrc.bVal, VSrc.immOf, VSrc.chVal, FWord.vsrc] <;> omega)]
    refine (decodeF_ok rfl rfl ?_).trans ?_ <;>
      simp [Shape.accepts, Shape.reservedOk, FClass.resvOk, Shape.maskOk, FClass.chainable, litOk, FClass.regOk, FClass.size, FWord.withEnc, literal_litNext, Imm.isLit, Imm.immVal, fldN_val, FWord.hdr, FWord.immv, FWord.immBits, FWord.immBv, VSrc.formVal, VSrc.bVal, VSrc.immOf, VSrc.chVal, FWord.vsrc]

theorem Sys2Proof.Laws.Exact.vfms (h : Hdr) (d : Fin 64) (a : CVec) (b : VSrc) (m : Fin 8) : Sys2Proof.Laws.Exact.Statement (.vfms h d a b m) := by
  intro hwf _ _
  have e : encode (.vfms h d a b m) = fEnc h b.immOf { opc := 0x30, fn := 10, form := b.formVal, d := d.val, a := a.r.val, ca := a.ch, b := b.bVal, cb := b.chVal, m := m.val } := rfl
  rcases b with v | r | (b | b) <;>
  · rw [e, decode_fEnc (hf := by constructor <;> simp [VSrc.formVal, VSrc.bVal, VSrc.immOf, VSrc.chVal, FWord.vsrc] <;> omega)]
    refine (decodeF_ok rfl rfl ?_).trans ?_ <;>
      simp [Shape.accepts, Shape.reservedOk, FClass.resvOk, Shape.maskOk, FClass.chainable, litOk, FClass.regOk, FClass.size, FWord.withEnc, literal_litNext, Imm.isLit, Imm.immVal, fldN_val, FWord.hdr, FWord.immv, FWord.immBits, FWord.immBv, VSrc.formVal, VSrc.bVal, VSrc.immOf, VSrc.chVal, FWord.vsrc]

theorem Sys2Proof.Laws.Exact.vfnma (h : Hdr) (d : Fin 64) (a : CVec) (b : VSrc) (m : Fin 8) : Sys2Proof.Laws.Exact.Statement (.vfnma h d a b m) := by
  intro hwf _ _
  have e : encode (.vfnma h d a b m) = fEnc h b.immOf { opc := 0x30, fn := 11, form := b.formVal, d := d.val, a := a.r.val, ca := a.ch, b := b.bVal, cb := b.chVal, m := m.val } := rfl
  rcases b with v | r | (b | b) <;>
  · rw [e, decode_fEnc (hf := by constructor <;> simp [VSrc.formVal, VSrc.bVal, VSrc.immOf, VSrc.chVal, FWord.vsrc] <;> omega)]
    refine (decodeF_ok rfl rfl ?_).trans ?_ <;>
      simp [Shape.accepts, Shape.reservedOk, FClass.resvOk, Shape.maskOk, FClass.chainable, litOk, FClass.regOk, FClass.size, FWord.withEnc, literal_litNext, Imm.isLit, Imm.immVal, fldN_val, FWord.hdr, FWord.immv, FWord.immBits, FWord.immBv, VSrc.formVal, VSrc.bVal, VSrc.immOf, VSrc.chVal, FWord.vsrc]

theorem Sys2Proof.Laws.Exact.vfnms (h : Hdr) (d : Fin 64) (a : CVec) (b : VSrc) (m : Fin 8) : Sys2Proof.Laws.Exact.Statement (.vfnms h d a b m) := by
  intro hwf _ _
  have e : encode (.vfnms h d a b m) = fEnc h b.immOf { opc := 0x30, fn := 12, form := b.formVal, d := d.val, a := a.r.val, ca := a.ch, b := b.bVal, cb := b.chVal, m := m.val } := rfl
  rcases b with v | r | (b | b) <;>
  · rw [e, decode_fEnc (hf := by constructor <;> simp [VSrc.formVal, VSrc.bVal, VSrc.immOf, VSrc.chVal, FWord.vsrc] <;> omega)]
    refine (decodeF_ok rfl rfl ?_).trans ?_ <;>
      simp [Shape.accepts, Shape.reservedOk, FClass.resvOk, Shape.maskOk, FClass.chainable, litOk, FClass.regOk, FClass.size, FWord.withEnc, literal_litNext, Imm.isLit, Imm.immVal, fldN_val, FWord.hdr, FWord.immv, FWord.immBits, FWord.immBv, VSrc.formVal, VSrc.bVal, VSrc.immOf, VSrc.chVal, FWord.vsrc]

theorem Sys2Proof.Laws.Exact.vfmin (h : Hdr) (d : Fin 64) (a : CVec) (b : VSrc) (m : Fin 8) : Sys2Proof.Laws.Exact.Statement (.vfmin h d a b m) := by
  intro hwf _ _
  have e : encode (.vfmin h d a b m) = fEnc h b.immOf { opc := 0x30, fn := 13, form := b.formVal, d := d.val, a := a.r.val, ca := a.ch, b := b.bVal, cb := b.chVal, m := m.val } := rfl
  rcases b with v | r | (b | b) <;>
  · rw [e, decode_fEnc (hf := by constructor <;> simp [VSrc.formVal, VSrc.bVal, VSrc.immOf, VSrc.chVal, FWord.vsrc] <;> omega)]
    refine (decodeF_ok rfl rfl ?_).trans ?_ <;>
      simp [Shape.accepts, Shape.reservedOk, FClass.resvOk, Shape.maskOk, FClass.chainable, litOk, FClass.regOk, FClass.size, FWord.withEnc, literal_litNext, Imm.isLit, Imm.immVal, fldN_val, FWord.hdr, FWord.immv, FWord.immBits, FWord.immBv, VSrc.formVal, VSrc.bVal, VSrc.immOf, VSrc.chVal, FWord.vsrc]

theorem Sys2Proof.Laws.Exact.vfmax (h : Hdr) (d : Fin 64) (a : CVec) (b : VSrc) (m : Fin 8) : Sys2Proof.Laws.Exact.Statement (.vfmax h d a b m) := by
  intro hwf _ _
  have e : encode (.vfmax h d a b m) = fEnc h b.immOf { opc := 0x30, fn := 14, form := b.formVal, d := d.val, a := a.r.val, ca := a.ch, b := b.bVal, cb := b.chVal, m := m.val } := rfl
  rcases b with v | r | (b | b) <;>
  · rw [e, decode_fEnc (hf := by constructor <;> simp [VSrc.formVal, VSrc.bVal, VSrc.immOf, VSrc.chVal, FWord.vsrc] <;> omega)]
    refine (decodeF_ok rfl rfl ?_).trans ?_ <;>
      simp [Shape.accepts, Shape.reservedOk, FClass.resvOk, Shape.maskOk, FClass.chainable, litOk, FClass.regOk, FClass.size, FWord.withEnc, literal_litNext, Imm.isLit, Imm.immVal, fldN_val, FWord.hdr, FWord.immv, FWord.immBits, FWord.immBv, VSrc.formVal, VSrc.bVal, VSrc.immOf, VSrc.chVal, FWord.vsrc]

theorem Sys2Proof.Laws.Exact.vfabs (h : Hdr) (d : Fin 64) (a : CVec) (m : Fin 8) : Sys2Proof.Laws.Exact.Statement (.vfabs h d a m) := by
  intro hwf _ _
  have e : encode (.vfabs h d a m) = fEnc h none { opc := 0x30, fn := 15, d := d.val, a := a.r.val, ca := a.ch, m := m.val } := rfl
  rw [e, decode_fEnc (hf := by constructor <;> simp <;> omega)]
  refine (decodeF_ok rfl rfl ?_).trans ?_ <;>
    simp [Shape.accepts, Shape.reservedOk, FClass.resvOk, Shape.maskOk, FClass.chainable, litOk, FClass.regOk, FClass.size, FWord.withEnc, literal_litNext, Imm.isLit, Imm.immVal, fldN_val, FWord.hdr, FWord.immv, FWord.immBits, FWord.immBv]

theorem Sys2Proof.Laws.Exact.vfneg (h : Hdr) (d : Fin 64) (a : CVec) (m : Fin 8) : Sys2Proof.Laws.Exact.Statement (.vfneg h d a m) := by
  intro hwf _ _
  have e : encode (.vfneg h d a m) = fEnc h none { opc := 0x30, fn := 16, d := d.val, a := a.r.val, ca := a.ch, m := m.val } := rfl
  rw [e, decode_fEnc (hf := by constructor <;> simp <;> omega)]
  refine (decodeF_ok rfl rfl ?_).trans ?_ <;>
    simp [Shape.accepts, Shape.reservedOk, FClass.resvOk, Shape.maskOk, FClass.chainable, litOk, FClass.regOk, FClass.size, FWord.withEnc, literal_litNext, Imm.isLit, Imm.immVal, fldN_val, FWord.hdr, FWord.immv, FWord.immBits, FWord.immBv]

theorem Sys2Proof.Laws.Exact.vfsgnj (h : Hdr) (d : Fin 64) (a : CVec) (b : VSrc) (m : Fin 8) : Sys2Proof.Laws.Exact.Statement (.vfsgnj h d a b m) := by
  intro hwf _ _
  have e : encode (.vfsgnj h d a b m) = fEnc h b.immOf { opc := 0x30, fn := 17, form := b.formVal, d := d.val, a := a.r.val, ca := a.ch, b := b.bVal, cb := b.chVal, m := m.val } := rfl
  rcases b with v | r | (b | b) <;>
  · rw [e, decode_fEnc (hf := by constructor <;> simp [VSrc.formVal, VSrc.bVal, VSrc.immOf, VSrc.chVal, FWord.vsrc] <;> omega)]
    refine (decodeF_ok rfl rfl ?_).trans ?_ <;>
      simp [Shape.accepts, Shape.reservedOk, FClass.resvOk, Shape.maskOk, FClass.chainable, litOk, FClass.regOk, FClass.size, FWord.withEnc, literal_litNext, Imm.isLit, Imm.immVal, fldN_val, FWord.hdr, FWord.immv, FWord.immBits, FWord.immBv, VSrc.formVal, VSrc.bVal, VSrc.immOf, VSrc.chVal, FWord.vsrc]

theorem Sys2Proof.Laws.Exact.vfexp2 (h : Hdr) (d : Fin 64) (a : CVec) (m : Fin 8) : Sys2Proof.Laws.Exact.Statement (.vfexp2 h d a m) := by
  intro hwf _ _
  have e : encode (.vfexp2 h d a m) = fEnc h none { opc := 0x30, fn := 18, d := d.val, a := a.r.val, ca := a.ch, m := m.val } := rfl
  rw [e, decode_fEnc (hf := by constructor <;> simp <;> omega)]
  refine (decodeF_ok rfl rfl ?_).trans ?_ <;>
    simp [Shape.accepts, Shape.reservedOk, FClass.resvOk, Shape.maskOk, FClass.chainable, litOk, FClass.regOk, FClass.size, FWord.withEnc, literal_litNext, Imm.isLit, Imm.immVal, fldN_val, FWord.hdr, FWord.immv, FWord.immBits, FWord.immBv]

theorem Sys2Proof.Laws.Exact.vflog2 (h : Hdr) (d : Fin 64) (a : CVec) (m : Fin 8) : Sys2Proof.Laws.Exact.Statement (.vflog2 h d a m) := by
  intro hwf _ _
  have e : encode (.vflog2 h d a m) = fEnc h none { opc := 0x30, fn := 19, d := d.val, a := a.r.val, ca := a.ch, m := m.val } := rfl
  rw [e, decode_fEnc (hf := by constructor <;> simp <;> omega)]
  refine (decodeF_ok rfl rfl ?_).trans ?_ <;>
    simp [Shape.accepts, Shape.reservedOk, FClass.resvOk, Shape.maskOk, FClass.chainable, litOk, FClass.regOk, FClass.size, FWord.withEnc, literal_litNext, Imm.isLit, Imm.immVal, fldN_val, FWord.hdr, FWord.immv, FWord.immBits, FWord.immBv]

theorem Sys2Proof.Laws.Exact.vfscale (h : Hdr) (d : Fin 64) (a : CVec) (b : VSrc) (m : Fin 8) : Sys2Proof.Laws.Exact.Statement (.vfscale h d a b m) := by
  intro hwf _ _
  have e : encode (.vfscale h d a b m) = fEnc h b.immOf { opc := 0x30, fn := 20, form := b.formVal, d := d.val, a := a.r.val, ca := a.ch, b := b.bVal, cb := b.chVal, m := m.val } := rfl
  rcases b with v | r | (b | b) <;>
  · rw [e, decode_fEnc (hf := by constructor <;> simp [VSrc.formVal, VSrc.bVal, VSrc.immOf, VSrc.chVal, FWord.vsrc] <;> omega)]
    refine (decodeF_ok rfl rfl ?_).trans ?_ <;>
      simp [Shape.accepts, Shape.reservedOk, FClass.resvOk, Shape.maskOk, FClass.chainable, litOk, FClass.regOk, FClass.size, FWord.withEnc, literal_litNext, Imm.isLit, Imm.immVal, fldN_val, FWord.hdr, FWord.immv, FWord.immBits, FWord.immBv, VSrc.formVal, VSrc.bVal, VSrc.immOf, VSrc.chVal, FWord.vsrc]

theorem Sys2Proof.Laws.Exact.vfclass (h : Hdr) (d : Fin 64) (a : CVec) (m : Fin 8) : Sys2Proof.Laws.Exact.Statement (.vfclass h d a m) := by
  intro hwf _ _
  have e : encode (.vfclass h d a m) = fEnc h none { opc := 0x30, fn := 21, d := d.val, a := a.r.val, ca := a.ch, m := m.val } := rfl
  rw [e, decode_fEnc (hf := by constructor <;> simp <;> omega)]
  refine (decodeF_ok rfl rfl ?_).trans ?_ <;>
    simp [Shape.accepts, Shape.reservedOk, FClass.resvOk, Shape.maskOk, FClass.chainable, litOk, FClass.regOk, FClass.size, FWord.withEnc, literal_litNext, Imm.isLit, Imm.immVal, fldN_val, FWord.hdr, FWord.immv, FWord.immBits, FWord.immBv]

theorem Sys2Proof.Laws.Exact.vfround (h : Hdr) (d : Fin 64) (a : CVec) (m : Fin 8) : Sys2Proof.Laws.Exact.Statement (.vfround h d a m) := by
  intro hwf _ _
  have e : encode (.vfround h d a m) = fEnc h none { opc := 0x30, fn := 22, d := d.val, a := a.r.val, ca := a.ch, m := m.val } := rfl
  rw [e, decode_fEnc (hf := by constructor <;> simp <;> omega)]
  refine (decodeF_ok rfl rfl ?_).trans ?_ <;>
    simp [Shape.accepts, Shape.reservedOk, FClass.resvOk, Shape.maskOk, FClass.chainable, litOk, FClass.regOk, FClass.size, FWord.withEnc, literal_litNext, Imm.isLit, Imm.immVal, fldN_val, FWord.hdr, FWord.immv, FWord.immBits, FWord.immBv]

theorem Sys2Proof.Laws.Exact.vfeq (h : Hdr) (d : Fin 8) (a : CVec) (b : VSrc) (m : Fin 8) : Sys2Proof.Laws.Exact.Statement (.vfeq h d a b m) := by
  intro hwf _ _
  have e : encode (.vfeq h d a b m) = fEnc h b.immOf { opc := 0x31, fn := 0, form := b.formVal, d := d.val, a := a.r.val, ca := a.ch, b := b.bVal, cb := b.chVal, m := m.val } := rfl
  rcases b with v | r | (b | b) <;>
  · rw [e, decode_fEnc (hf := by constructor <;> simp [VSrc.formVal, VSrc.bVal, VSrc.immOf, VSrc.chVal, FWord.vsrc] <;> omega)]
    refine (decodeF_ok rfl rfl ?_).trans ?_ <;>
      simp [Shape.accepts, Shape.reservedOk, FClass.resvOk, Shape.maskOk, FClass.chainable, litOk, FClass.regOk, FClass.size, FWord.withEnc, literal_litNext, Imm.isLit, Imm.immVal, fldN_val, FWord.hdr, FWord.immv, FWord.immBits, FWord.immBv, VSrc.formVal, VSrc.bVal, VSrc.immOf, VSrc.chVal, FWord.vsrc]

theorem Sys2Proof.Laws.Exact.vfne (h : Hdr) (d : Fin 8) (a : CVec) (b : VSrc) (m : Fin 8) : Sys2Proof.Laws.Exact.Statement (.vfne h d a b m) := by
  intro hwf _ _
  have e : encode (.vfne h d a b m) = fEnc h b.immOf { opc := 0x31, fn := 1, form := b.formVal, d := d.val, a := a.r.val, ca := a.ch, b := b.bVal, cb := b.chVal, m := m.val } := rfl
  rcases b with v | r | (b | b) <;>
  · rw [e, decode_fEnc (hf := by constructor <;> simp [VSrc.formVal, VSrc.bVal, VSrc.immOf, VSrc.chVal, FWord.vsrc] <;> omega)]
    refine (decodeF_ok rfl rfl ?_).trans ?_ <;>
      simp [Shape.accepts, Shape.reservedOk, FClass.resvOk, Shape.maskOk, FClass.chainable, litOk, FClass.regOk, FClass.size, FWord.withEnc, literal_litNext, Imm.isLit, Imm.immVal, fldN_val, FWord.hdr, FWord.immv, FWord.immBits, FWord.immBv, VSrc.formVal, VSrc.bVal, VSrc.immOf, VSrc.chVal, FWord.vsrc]

theorem Sys2Proof.Laws.Exact.vflt (h : Hdr) (d : Fin 8) (a : CVec) (b : VSrc) (m : Fin 8) : Sys2Proof.Laws.Exact.Statement (.vflt h d a b m) := by
  intro hwf _ _
  have e : encode (.vflt h d a b m) = fEnc h b.immOf { opc := 0x31, fn := 2, form := b.formVal, d := d.val, a := a.r.val, ca := a.ch, b := b.bVal, cb := b.chVal, m := m.val } := rfl
  rcases b with v | r | (b | b) <;>
  · rw [e, decode_fEnc (hf := by constructor <;> simp [VSrc.formVal, VSrc.bVal, VSrc.immOf, VSrc.chVal, FWord.vsrc] <;> omega)]
    refine (decodeF_ok rfl rfl ?_).trans ?_ <;>
      simp [Shape.accepts, Shape.reservedOk, FClass.resvOk, Shape.maskOk, FClass.chainable, litOk, FClass.regOk, FClass.size, FWord.withEnc, literal_litNext, Imm.isLit, Imm.immVal, fldN_val, FWord.hdr, FWord.immv, FWord.immBits, FWord.immBv, VSrc.formVal, VSrc.bVal, VSrc.immOf, VSrc.chVal, FWord.vsrc]

theorem Sys2Proof.Laws.Exact.vfle (h : Hdr) (d : Fin 8) (a : CVec) (b : VSrc) (m : Fin 8) : Sys2Proof.Laws.Exact.Statement (.vfle h d a b m) := by
  intro hwf _ _
  have e : encode (.vfle h d a b m) = fEnc h b.immOf { opc := 0x31, fn := 3, form := b.formVal, d := d.val, a := a.r.val, ca := a.ch, b := b.bVal, cb := b.chVal, m := m.val } := rfl
  rcases b with v | r | (b | b) <;>
  · rw [e, decode_fEnc (hf := by constructor <;> simp [VSrc.formVal, VSrc.bVal, VSrc.immOf, VSrc.chVal, FWord.vsrc] <;> omega)]
    refine (decodeF_ok rfl rfl ?_).trans ?_ <;>
      simp [Shape.accepts, Shape.reservedOk, FClass.resvOk, Shape.maskOk, FClass.chainable, litOk, FClass.regOk, FClass.size, FWord.withEnc, literal_litNext, Imm.isLit, Imm.immVal, fldN_val, FWord.hdr, FWord.immv, FWord.immBits, FWord.immBv, VSrc.formVal, VSrc.bVal, VSrc.immOf, VSrc.chVal, FWord.vsrc]

theorem Sys2Proof.Laws.Exact.vfgt (h : Hdr) (d : Fin 8) (a : CVec) (b : VSrc) (m : Fin 8) : Sys2Proof.Laws.Exact.Statement (.vfgt h d a b m) := by
  intro hwf _ _
  have e : encode (.vfgt h d a b m) = fEnc h b.immOf { opc := 0x31, fn := 4, form := b.formVal, d := d.val, a := a.r.val, ca := a.ch, b := b.bVal, cb := b.chVal, m := m.val } := rfl
  rcases b with v | r | (b | b) <;>
  · rw [e, decode_fEnc (hf := by constructor <;> simp [VSrc.formVal, VSrc.bVal, VSrc.immOf, VSrc.chVal, FWord.vsrc] <;> omega)]
    refine (decodeF_ok rfl rfl ?_).trans ?_ <;>
      simp [Shape.accepts, Shape.reservedOk, FClass.resvOk, Shape.maskOk, FClass.chainable, litOk, FClass.regOk, FClass.size, FWord.withEnc, literal_litNext, Imm.isLit, Imm.immVal, fldN_val, FWord.hdr, FWord.immv, FWord.immBits, FWord.immBv, VSrc.formVal, VSrc.bVal, VSrc.immOf, VSrc.chVal, FWord.vsrc]

theorem Sys2Proof.Laws.Exact.vfge (h : Hdr) (d : Fin 8) (a : CVec) (b : VSrc) (m : Fin 8) : Sys2Proof.Laws.Exact.Statement (.vfge h d a b m) := by
  intro hwf _ _
  have e : encode (.vfge h d a b m) = fEnc h b.immOf { opc := 0x31, fn := 5, form := b.formVal, d := d.val, a := a.r.val, ca := a.ch, b := b.bVal, cb := b.chVal, m := m.val } := rfl
  rcases b with v | r | (b | b) <;>
  · rw [e, decode_fEnc (hf := by constructor <;> simp [VSrc.formVal, VSrc.bVal, VSrc.immOf, VSrc.chVal, FWord.vsrc] <;> omega)]
    refine (decodeF_ok rfl rfl ?_).trans ?_ <;>
      simp [Shape.accepts, Shape.reservedOk, FClass.resvOk, Shape.maskOk, FClass.chainable, litOk, FClass.regOk, FClass.size, FWord.withEnc, literal_litNext, Imm.isLit, Imm.immVal, fldN_val, FWord.hdr, FWord.immv, FWord.immBits, FWord.immBv, VSrc.formVal, VSrc.bVal, VSrc.immOf, VSrc.chVal, FWord.vsrc]

theorem Sys2Proof.Laws.Exact.vfuno (h : Hdr) (d : Fin 8) (a : CVec) (b : VSrc) (m : Fin 8) : Sys2Proof.Laws.Exact.Statement (.vfuno h d a b m) := by
  intro hwf _ _
  have e : encode (.vfuno h d a b m) = fEnc h b.immOf { opc := 0x31, fn := 6, form := b.formVal, d := d.val, a := a.r.val, ca := a.ch, b := b.bVal, cb := b.chVal, m := m.val } := rfl
  rcases b with v | r | (b | b) <;>
  · rw [e, decode_fEnc (hf := by constructor <;> simp [VSrc.formVal, VSrc.bVal, VSrc.immOf, VSrc.chVal, FWord.vsrc] <;> omega)]
    refine (decodeF_ok rfl rfl ?_).trans ?_ <;>
      simp [Shape.accepts, Shape.reservedOk, FClass.resvOk, Shape.maskOk, FClass.chainable, litOk, FClass.regOk, FClass.size, FWord.withEnc, literal_litNext, Imm.isLit, Imm.immVal, fldN_val, FWord.hdr, FWord.immv, FWord.immBits, FWord.immBv, VSrc.formVal, VSrc.bVal, VSrc.immOf, VSrc.chVal, FWord.vsrc]

theorem Sys2Proof.Laws.Exact.kand (h : Hdr) (d : Fin 8) (a : CMask) (b : CMask) : Sys2Proof.Laws.Exact.Statement (.kand h d a b) := by
  intro hwf _ _
  have e : encode (.kand h d a b) = fEnc h none { opc := 0x38, fn := 0, d := d.val, a := a.r.val, ca := a.ch, b := b.r.val, cb := b.ch } := rfl
  rw [e, decode_fEnc (hf := by constructor <;> simp <;> omega)]
  refine (decodeF_ok rfl rfl ?_).trans ?_ <;>
    simp [Shape.accepts, Shape.reservedOk, FClass.resvOk, Shape.maskOk, FClass.chainable, litOk, FClass.regOk, FClass.size, FWord.withEnc, literal_litNext, Imm.isLit, Imm.immVal, fldN_val, FWord.hdr, FWord.immv, FWord.immBits, FWord.immBv]

theorem Sys2Proof.Laws.Exact.kor (h : Hdr) (d : Fin 8) (a : CMask) (b : CMask) : Sys2Proof.Laws.Exact.Statement (.kor h d a b) := by
  intro hwf _ _
  have e : encode (.kor h d a b) = fEnc h none { opc := 0x38, fn := 1, d := d.val, a := a.r.val, ca := a.ch, b := b.r.val, cb := b.ch } := rfl
  rw [e, decode_fEnc (hf := by constructor <;> simp <;> omega)]
  refine (decodeF_ok rfl rfl ?_).trans ?_ <;>
    simp [Shape.accepts, Shape.reservedOk, FClass.resvOk, Shape.maskOk, FClass.chainable, litOk, FClass.regOk, FClass.size, FWord.withEnc, literal_litNext, Imm.isLit, Imm.immVal, fldN_val, FWord.hdr, FWord.immv, FWord.immBits, FWord.immBv]

theorem Sys2Proof.Laws.Exact.kxor (h : Hdr) (d : Fin 8) (a : CMask) (b : CMask) : Sys2Proof.Laws.Exact.Statement (.kxor h d a b) := by
  intro hwf _ _
  have e : encode (.kxor h d a b) = fEnc h none { opc := 0x38, fn := 2, d := d.val, a := a.r.val, ca := a.ch, b := b.r.val, cb := b.ch } := rfl
  rw [e, decode_fEnc (hf := by constructor <;> simp <;> omega)]
  refine (decodeF_ok rfl rfl ?_).trans ?_ <;>
    simp [Shape.accepts, Shape.reservedOk, FClass.resvOk, Shape.maskOk, FClass.chainable, litOk, FClass.regOk, FClass.size, FWord.withEnc, literal_litNext, Imm.isLit, Imm.immVal, fldN_val, FWord.hdr, FWord.immv, FWord.immBits, FWord.immBv]

theorem Sys2Proof.Laws.Exact.kandn (h : Hdr) (d : Fin 8) (a : CMask) (b : CMask) : Sys2Proof.Laws.Exact.Statement (.kandn h d a b) := by
  intro hwf _ _
  have e : encode (.kandn h d a b) = fEnc h none { opc := 0x38, fn := 3, d := d.val, a := a.r.val, ca := a.ch, b := b.r.val, cb := b.ch } := rfl
  rw [e, decode_fEnc (hf := by constructor <;> simp <;> omega)]
  refine (decodeF_ok rfl rfl ?_).trans ?_ <;>
    simp [Shape.accepts, Shape.reservedOk, FClass.resvOk, Shape.maskOk, FClass.chainable, litOk, FClass.regOk, FClass.size, FWord.withEnc, literal_litNext, Imm.isLit, Imm.immVal, fldN_val, FWord.hdr, FWord.immv, FWord.immBits, FWord.immBv]

theorem Sys2Proof.Laws.Exact.knot (h : Hdr) (d : Fin 8) (a : CMask) : Sys2Proof.Laws.Exact.Statement (.knot h d a) := by
  intro hwf _ _
  have e : encode (.knot h d a) = fEnc h none { opc := 0x38, fn := 4, d := d.val, a := a.r.val, ca := a.ch } := rfl
  rw [e, decode_fEnc (hf := by constructor <;> simp <;> omega)]
  refine (decodeF_ok rfl rfl ?_).trans ?_ <;>
    simp [Shape.accepts, Shape.reservedOk, FClass.resvOk, Shape.maskOk, FClass.chainable, litOk, FClass.regOk, FClass.size, FWord.withEnc, literal_litNext, Imm.isLit, Imm.immVal, fldN_val, FWord.hdr, FWord.immv, FWord.immBits, FWord.immBv]

theorem Sys2Proof.Laws.Exact.kpop (h : Hdr) (d : Fin 32) (a : CMask) : Sys2Proof.Laws.Exact.Statement (.kpop h d a) := by
  intro hwf _ _
  have e : encode (.kpop h d a) = fEnc h none { opc := 0x38, fn := 5, d := d.val, a := a.r.val, ca := a.ch } := rfl
  rw [e, decode_fEnc (hf := by constructor <;> simp <;> omega)]
  refine (decodeF_ok rfl rfl ?_).trans ?_ <;>
    simp [Shape.accepts, Shape.reservedOk, FClass.resvOk, Shape.maskOk, FClass.chainable, litOk, FClass.regOk, FClass.size, FWord.withEnc, literal_litNext, Imm.isLit, Imm.immVal, fldN_val, FWord.hdr, FWord.immv, FWord.immBits, FWord.immBv]

theorem Sys2Proof.Laws.Exact.kfirst (h : Hdr) (d : Fin 32) (a : CMask) : Sys2Proof.Laws.Exact.Statement (.kfirst h d a) := by
  intro hwf _ _
  have e : encode (.kfirst h d a) = fEnc h none { opc := 0x38, fn := 6, d := d.val, a := a.r.val, ca := a.ch } := rfl
  rw [e, decode_fEnc (hf := by constructor <;> simp <;> omega)]
  refine (decodeF_ok rfl rfl ?_).trans ?_ <;>
    simp [Shape.accepts, Shape.reservedOk, FClass.resvOk, Shape.maskOk, FClass.chainable, litOk, FClass.regOk, FClass.size, FWord.withEnc, literal_litNext, Imm.isLit, Imm.immVal, fldN_val, FWord.hdr, FWord.immv, FWord.immBits, FWord.immBv]

theorem Sys2Proof.Laws.Exact.kset (h : Hdr) (d : Fin 8) (a : Fin 32) : Sys2Proof.Laws.Exact.Statement (.kset h d a) := by
  intro hwf _ _
  have e : encode (.kset h d a) = fEnc h none { opc := 0x38, fn := 7, d := d.val, a := a.val } := rfl
  rw [e, decode_fEnc (hf := by constructor <;> simp <;> omega)]
  refine (decodeF_ok rfl rfl ?_).trans ?_ <;>
    simp [Shape.accepts, Shape.reservedOk, FClass.resvOk, Shape.maskOk, FClass.chainable, litOk, FClass.regOk, FClass.size, FWord.withEnc, literal_litNext, Imm.isLit, Imm.immVal, fldN_val, FWord.hdr, FWord.immv, FWord.immBits, FWord.immBv]

theorem Sys2Proof.Laws.Exact.kmvToMask (h : Hdr) (d : Fin 8) (a : CVec) : Sys2Proof.Laws.Exact.Statement (.kmvToMask h d a) := by
  intro hwf _ _
  have e : encode (.kmvToMask h d a) = fEnc h none { opc := 0x38, fn := 8, d := d.val, a := a.r.val, ca := a.ch } := rfl
  have b0 : ∀ w : FWord, w.imm = 0 → w.immBits 0 1 = 0 := fun w q => by
    simp [FWord.immBits, q]
  rw [e, decode_fEnc (hf := by constructor <;> simp <;> omega)]
  refine (decodeF_ok rfl (r := ⟨0, .k, .v, .none, false⟩) (by simp [Shape.form?, FWord.withEnc, b0]) ?_).trans ?_ <;>
    simp [Shape.accepts, Shape.reservedOk, FClass.resvOk, Shape.maskOk, FClass.chainable, litOk, FClass.regOk, FClass.size, FWord.withEnc, fldN_val, FWord.hdr, b0]

theorem Sys2Proof.Laws.Exact.kmvToVector (h : Hdr) (d : Fin 64) (a : CMask) : Sys2Proof.Laws.Exact.Statement (.kmvToVector h d a) := by
  intro hwf _ _
  have e : encode (.kmvToVector h d a) = fEnc h none { opc := 0x38, fn := 8, d := d.val, a := a.r.val, ca := a.ch, imm := 1 } := rfl
  have b0 : ∀ w : FWord, w.imm = 1 → w.immBits 0 1 = 1 := fun w q => by
    simp [FWord.immBits, q]
  rw [e, decode_fEnc (hf := by constructor <;> simp <;> omega)]
  refine (decodeF_ok rfl (r := ⟨0, .v, .k, .none, false⟩) (by simp [Shape.form?, FWord.withEnc, b0]) ?_).trans ?_ <;>
    simp [Shape.accepts, Shape.reservedOk, FClass.resvOk, Shape.maskOk, FClass.chainable, litOk, FClass.regOk, FClass.size, FWord.withEnc, fldN_val, FWord.hdr, b0]

theorem Sys2Proof.Laws.Exact.kall (h : Hdr) (d : Fin 8) : Sys2Proof.Laws.Exact.Statement (.kall h d) := by
  intro hwf _ _
  have e : encode (.kall h d) = fEnc h none { opc := 0x38, fn := 9, d := d.val } := rfl
  rw [e, decode_fEnc (hf := by constructor <;> simp <;> omega)]
  refine (decodeF_ok rfl rfl ?_).trans ?_ <;>
    simp [Shape.accepts, Shape.reservedOk, FClass.resvOk, Shape.maskOk, FClass.chainable, litOk, FClass.regOk, FClass.size, FWord.withEnc, literal_litNext, Imm.isLit, Imm.immVal, fldN_val, FWord.hdr, FWord.immv, FWord.immBits, FWord.immBv]

theorem Sys2Proof.Laws.Exact.vslideup (h : Hdr) (d : Fin 64) (a : CVec) (n : PosSrc) (m : Fin 8) : Sys2Proof.Laws.Exact.Statement (.vslideup h d a n m) := by
  intro hwf _ _
  have e : encode (.vslideup h d a n m) = fEnc h n.immOf { opc := 0x39, fn := 0, form := n.formVal, d := d.val, a := a.r.val, ca := a.ch, b := n.bVal, m := m.val } := rfl
  have ap : ¬ d.val = a.r.val := apart_ne hwf
  rcases n with r | (b | b) <;>
  · rw [e, decode_fEnc (hf := by constructor <;> simp [PosSrc.formVal, PosSrc.bVal, PosSrc.immOf, FWord.pos] <;> omega)]
    refine (decodeF_ok rfl rfl ?_).trans ?_ <;>
      simp [Shape.accepts, Shape.reservedOk, FClass.resvOk, Shape.maskOk, FClass.chainable, litOk, FClass.regOk, FClass.size, FWord.withEnc, fldN_val, FWord.hdr, FWord.immv, literal_litNext, Imm.isLit, Imm.immVal, PosSrc.formVal, PosSrc.bVal, PosSrc.immOf, FWord.pos, ap]

theorem Sys2Proof.Laws.Exact.vslidedown (h : Hdr) (d : Fin 64) (a : CVec) (n : PosSrc) (m : Fin 8) : Sys2Proof.Laws.Exact.Statement (.vslidedown h d a n m) := by
  intro hwf _ _
  have e : encode (.vslidedown h d a n m) = fEnc h n.immOf { opc := 0x39, fn := 1, form := n.formVal, d := d.val, a := a.r.val, ca := a.ch, b := n.bVal, m := m.val } := rfl
  have ap : ¬ d.val = a.r.val := apart_ne hwf
  rcases n with r | (b | b) <;>
  · rw [e, decode_fEnc (hf := by constructor <;> simp [PosSrc.formVal, PosSrc.bVal, PosSrc.immOf, FWord.pos] <;> omega)]
    refine (decodeF_ok rfl rfl ?_).trans ?_ <;>
      simp [Shape.accepts, Shape.reservedOk, FClass.resvOk, Shape.maskOk, FClass.chainable, litOk, FClass.regOk, FClass.size, FWord.withEnc, fldN_val, FWord.hdr, FWord.immv, literal_litNext, Imm.isLit, Imm.immVal, PosSrc.formVal, PosSrc.bVal, PosSrc.immOf, FWord.pos, ap]

theorem Sys2Proof.Laws.Exact.vbcast (h : Hdr) (d : Fin 64) (a : CVec) (n : PosSrc) (m : Fin 8) : Sys2Proof.Laws.Exact.Statement (.vbcast h d a n m) := by
  intro hwf _ _
  have e : encode (.vbcast h d a n m) = fEnc h n.immOf { opc := 0x39, fn := 4, form := n.formVal, d := d.val, a := a.r.val, ca := a.ch, b := n.bVal, m := m.val } := rfl
  have ap : ¬ d.val = a.r.val := apart_ne hwf
  rcases n with r | (b | b) <;>
  · rw [e, decode_fEnc (hf := by constructor <;> simp [PosSrc.formVal, PosSrc.bVal, PosSrc.immOf, FWord.pos] <;> omega)]
    refine (decodeF_ok rfl rfl ?_).trans ?_ <;>
      simp [Shape.accepts, Shape.reservedOk, FClass.resvOk, Shape.maskOk, FClass.chainable, litOk, FClass.regOk, FClass.size, FWord.withEnc, fldN_val, FWord.hdr, FWord.immv, literal_litNext, Imm.isLit, Imm.immVal, PosSrc.formVal, PosSrc.bVal, PosSrc.immOf, FWord.pos, ap]

theorem Sys2Proof.Laws.Exact.vcompress (h : Hdr) (d : Fin 64) (a : CVec) (b : CMask) : Sys2Proof.Laws.Exact.Statement (.vcompress h d a b) := by
  intro hwf _ _
  have e : encode (.vcompress h d a b) = fEnc h none { opc := 0x39, fn := 2, d := d.val, a := a.r.val, ca := a.ch, b := b.r.val, cb := b.ch } := rfl
  have ap : ¬ d.val = a.r.val := apart_ne hwf
  rw [e, decode_fEnc (hf := by constructor <;> simp <;> omega)]
  refine (decodeF_ok rfl rfl ?_).trans ?_ <;>
    simp [Shape.accepts, Shape.reservedOk, FClass.resvOk, Shape.maskOk, FClass.chainable, litOk, FClass.regOk, FClass.size, FWord.withEnc, fldN_val, FWord.hdr, ap]

theorem Sys2Proof.Laws.Exact.vexpand (h : Hdr) (d : Fin 64) (a : CVec) (b : CMask) : Sys2Proof.Laws.Exact.Statement (.vexpand h d a b) := by
  intro hwf _ _
  have e : encode (.vexpand h d a b) = fEnc h none { opc := 0x39, fn := 3, d := d.val, a := a.r.val, ca := a.ch, b := b.r.val, cb := b.ch } := rfl
  have ap : ¬ d.val = a.r.val := apart_ne hwf
  rw [e, decode_fEnc (hf := by constructor <;> simp <;> omega)]
  refine (decodeF_ok rfl rfl ?_).trans ?_ <;>
    simp [Shape.accepts, Shape.reservedOk, FClass.resvOk, Shape.maskOk, FClass.chainable, litOk, FClass.regOk, FClass.size, FWord.withEnc, fldN_val, FWord.hdr, ap]

theorem Sys2Proof.Laws.Exact.vext (h : Hdr) (d : Fin 32) (a : CVec) (n : PosSrc) : Sys2Proof.Laws.Exact.Statement (.vext h d a n) := by
  intro hwf _ _
  have e : encode (.vext h d a n) = fEnc h n.immOf { opc := 0x39, fn := 5, form := n.formVal, d := d.val, a := a.r.val, ca := a.ch, b := n.bVal } := rfl
  rcases n with r | (b | b) <;>
  · rw [e, decode_fEnc (hf := by constructor <;> simp [PosSrc.formVal, PosSrc.bVal, PosSrc.immOf, FWord.pos] <;> omega)]
    refine (decodeF_ok rfl rfl ?_).trans ?_ <;>
      simp [Shape.accepts, Shape.reservedOk, FClass.resvOk, Shape.maskOk, FClass.chainable, litOk, FClass.regOk, FClass.size, FWord.withEnc, literal_litNext, Imm.isLit, Imm.immVal, fldN_val, FWord.hdr, FWord.immv, FWord.immBits, FWord.immBv, PosSrc.formVal, PosSrc.bVal, PosSrc.immOf, FWord.pos]

theorem Sys2Proof.Laws.Exact.vins (h : Hdr) (d : Fin 64) (a : Fin 32) (n : PosSrc) : Sys2Proof.Laws.Exact.Statement (.vins h d a n) := by
  intro hwf _ _
  have e : encode (.vins h d a n) = fEnc h n.immOf { opc := 0x39, fn := 6, form := n.formVal, d := d.val, a := a.val, b := n.bVal } := rfl
  rcases n with r | (b | b) <;>
  · rw [e, decode_fEnc (hf := by constructor <;> simp [PosSrc.formVal, PosSrc.bVal, PosSrc.immOf, FWord.pos] <;> omega)]
    refine (decodeF_ok rfl rfl ?_).trans ?_ <;>
      simp [Shape.accepts, Shape.reservedOk, FClass.resvOk, Shape.maskOk, FClass.chainable, litOk, FClass.regOk, FClass.size, FWord.withEnc, literal_litNext, Imm.isLit, Imm.immVal, fldN_val, FWord.hdr, FWord.immv, FWord.immBits, FWord.immBv, PosSrc.formVal, PosSrc.bVal, PosSrc.immOf, FWord.pos]

theorem Sys2Proof.Laws.Exact.vscanadd (h : Hdr) (d : Fin 64) (a : CVec) (m : Fin 8) : Sys2Proof.Laws.Exact.Statement (.vscanadd h d a m) := by
  intro hwf _ _
  have e : encode (.vscanadd h d a m) = fEnc h none { opc := 0x3A, fn := 0, d := d.val, a := a.r.val, ca := a.ch, m := m.val } := rfl
  have ap : ¬ d.val = a.r.val := apart_ne hwf
  rw [e, decode_fEnc (hf := by constructor <;> simp <;> omega)]
  refine (decodeF_ok rfl rfl ?_).trans ?_ <;>
    simp [Shape.accepts, Shape.reservedOk, FClass.resvOk, Shape.maskOk, FClass.chainable, litOk, FClass.regOk, FClass.size, FWord.withEnc, fldN_val, FWord.hdr, ap]

theorem Sys2Proof.Laws.Exact.vscanmax (h : Hdr) (d : Fin 64) (a : CVec) (m : Fin 8) : Sys2Proof.Laws.Exact.Statement (.vscanmax h d a m) := by
  intro hwf _ _
  have e : encode (.vscanmax h d a m) = fEnc h none { opc := 0x3A, fn := 1, d := d.val, a := a.r.val, ca := a.ch, m := m.val } := rfl
  have ap : ¬ d.val = a.r.val := apart_ne hwf
  rw [e, decode_fEnc (hf := by constructor <;> simp <;> omega)]
  refine (decodeF_ok rfl rfl ?_).trans ?_ <;>
    simp [Shape.accepts, Shape.reservedOk, FClass.resvOk, Shape.maskOk, FClass.chainable, litOk, FClass.regOk, FClass.size, FWord.withEnc, fldN_val, FWord.hdr, ap]

theorem Sys2Proof.Laws.Exact.vscanmin (h : Hdr) (d : Fin 64) (a : CVec) (m : Fin 8) : Sys2Proof.Laws.Exact.Statement (.vscanmin h d a m) := by
  intro hwf _ _
  have e : encode (.vscanmin h d a m) = fEnc h none { opc := 0x3A, fn := 2, d := d.val, a := a.r.val, ca := a.ch, m := m.val } := rfl
  have ap : ¬ d.val = a.r.val := apart_ne hwf
  rw [e, decode_fEnc (hf := by constructor <;> simp <;> omega)]
  refine (decodeF_ok rfl rfl ?_).trans ?_ <;>
    simp [Shape.accepts, Shape.reservedOk, FClass.resvOk, Shape.maskOk, FClass.chainable, litOk, FClass.regOk, FClass.size, FWord.withEnc, fldN_val, FWord.hdr, ap]

theorem Sys2Proof.Laws.Exact.vscanmul (h : Hdr) (d : Fin 64) (a : CVec) (m : Fin 8) : Sys2Proof.Laws.Exact.Statement (.vscanmul h d a m) := by
  intro hwf _ _
  have e : encode (.vscanmul h d a m) = fEnc h none { opc := 0x3A, fn := 3, d := d.val, a := a.r.val, ca := a.ch, m := m.val } := rfl
  have ap : ¬ d.val = a.r.val := apart_ne hwf
  rw [e, decode_fEnc (hf := by constructor <;> simp <;> omega)]
  refine (decodeF_ok rfl rfl ?_).trans ?_ <;>
    simp [Shape.accepts, Shape.reservedOk, FClass.resvOk, Shape.maskOk, FClass.chainable, litOk, FClass.regOk, FClass.size, FWord.withEnc, fldN_val, FWord.hdr, ap]

theorem Sys2Proof.Laws.Exact.vrecur (h : Hdr) (d : Fin 64) (a : CVec) (b : CVec) : Sys2Proof.Laws.Exact.Statement (.vrecur h d a b) := by
  intro hwf _ _
  have e : encode (.vrecur h d a b) = fEnc h none { opc := 0x3A, fn := 4, d := d.val, a := a.r.val, ca := a.ch, b := b.r.val, cb := b.ch } := rfl
  have w : (a.apart d && b.apart d) = true := hwf
  rw [Bool.and_eq_true] at w
  have ap : ¬ d.val = a.r.val := apart_ne w.1
  have bp : ¬ d.val = b.r.val := apart_ne w.2
  rw [e, decode_fEnc (hf := by constructor <;> simp <;> omega)]
  refine (decodeF_ok rfl rfl ?_).trans ?_ <;>
    simp [Shape.accepts, Shape.reservedOk, FClass.resvOk, Shape.maskOk, FClass.chainable, litOk, FClass.regOk, FClass.size, FWord.withEnc, fldN_val, FWord.hdr, ap, bp]

theorem Sys2Proof.Laws.Exact.vredsum (h : Hdr) (d : Fin 32) (a : CVec) (m : Fin 8) : Sys2Proof.Laws.Exact.Statement (.vredsum h d a m) := by
  intro hwf _ _
  have e : encode (.vredsum h d a m) = fEnc h none { opc := 0x3B, fn := 0, d := d.val, a := a.r.val, ca := a.ch, m := m.val } := rfl
  rw [e, decode_fEnc (hf := by constructor <;> simp <;> omega)]
  refine (decodeF_ok rfl rfl ?_).trans ?_ <;>
    simp [Shape.accepts, Shape.reservedOk, FClass.resvOk, Shape.maskOk, FClass.chainable, litOk, FClass.regOk, FClass.size, FWord.withEnc, literal_litNext, Imm.isLit, Imm.immVal, fldN_val, FWord.hdr, FWord.immv, FWord.immBits, FWord.immBv]

theorem Sys2Proof.Laws.Exact.vredmax (h : Hdr) (d : Fin 32) (a : CVec) (m : Fin 8) : Sys2Proof.Laws.Exact.Statement (.vredmax h d a m) := by
  intro hwf _ _
  have e : encode (.vredmax h d a m) = fEnc h none { opc := 0x3B, fn := 1, d := d.val, a := a.r.val, ca := a.ch, m := m.val } := rfl
  rw [e, decode_fEnc (hf := by constructor <;> simp <;> omega)]
  refine (decodeF_ok rfl rfl ?_).trans ?_ <;>
    simp [Shape.accepts, Shape.reservedOk, FClass.resvOk, Shape.maskOk, FClass.chainable, litOk, FClass.regOk, FClass.size, FWord.withEnc, literal_litNext, Imm.isLit, Imm.immVal, fldN_val, FWord.hdr, FWord.immv, FWord.immBits, FWord.immBv]

theorem Sys2Proof.Laws.Exact.vredmin (h : Hdr) (d : Fin 32) (a : CVec) (m : Fin 8) : Sys2Proof.Laws.Exact.Statement (.vredmin h d a m) := by
  intro hwf _ _
  have e : encode (.vredmin h d a m) = fEnc h none { opc := 0x3B, fn := 2, d := d.val, a := a.r.val, ca := a.ch, m := m.val } := rfl
  rw [e, decode_fEnc (hf := by constructor <;> simp <;> omega)]
  refine (decodeF_ok rfl rfl ?_).trans ?_ <;>
    simp [Shape.accepts, Shape.reservedOk, FClass.resvOk, Shape.maskOk, FClass.chainable, litOk, FClass.regOk, FClass.size, FWord.withEnc, literal_litNext, Imm.isLit, Imm.immVal, fldN_val, FWord.hdr, FWord.immv, FWord.immBits, FWord.immBv]

theorem Sys2Proof.Laws.Exact.vredand (h : Hdr) (d : Fin 32) (a : CVec) (m : Fin 8) : Sys2Proof.Laws.Exact.Statement (.vredand h d a m) := by
  intro hwf _ _
  have e : encode (.vredand h d a m) = fEnc h none { opc := 0x3B, fn := 3, d := d.val, a := a.r.val, ca := a.ch, m := m.val } := rfl
  rw [e, decode_fEnc (hf := by constructor <;> simp <;> omega)]
  refine (decodeF_ok rfl rfl ?_).trans ?_ <;>
    simp [Shape.accepts, Shape.reservedOk, FClass.resvOk, Shape.maskOk, FClass.chainable, litOk, FClass.regOk, FClass.size, FWord.withEnc, literal_litNext, Imm.isLit, Imm.immVal, fldN_val, FWord.hdr, FWord.immv, FWord.immBits, FWord.immBv]

theorem Sys2Proof.Laws.Exact.vredor (h : Hdr) (d : Fin 32) (a : CVec) (m : Fin 8) : Sys2Proof.Laws.Exact.Statement (.vredor h d a m) := by
  intro hwf _ _
  have e : encode (.vredor h d a m) = fEnc h none { opc := 0x3B, fn := 4, d := d.val, a := a.r.val, ca := a.ch, m := m.val } := rfl
  rw [e, decode_fEnc (hf := by constructor <;> simp <;> omega)]
  refine (decodeF_ok rfl rfl ?_).trans ?_ <;>
    simp [Shape.accepts, Shape.reservedOk, FClass.resvOk, Shape.maskOk, FClass.chainable, litOk, FClass.regOk, FClass.size, FWord.withEnc, literal_litNext, Imm.isLit, Imm.immVal, fldN_val, FWord.hdr, FWord.immv, FWord.immBits, FWord.immBv]

theorem Sys2Proof.Laws.Exact.vredxor (h : Hdr) (d : Fin 32) (a : CVec) (m : Fin 8) : Sys2Proof.Laws.Exact.Statement (.vredxor h d a m) := by
  intro hwf _ _
  have e : encode (.vredxor h d a m) = fEnc h none { opc := 0x3B, fn := 5, d := d.val, a := a.r.val, ca := a.ch, m := m.val } := rfl
  rw [e, decode_fEnc (hf := by constructor <;> simp <;> omega)]
  refine (decodeF_ok rfl rfl ?_).trans ?_ <;>
    simp [Shape.accepts, Shape.reservedOk, FClass.resvOk, Shape.maskOk, FClass.chainable, litOk, FClass.regOk, FClass.size, FWord.withEnc, literal_litNext, Imm.isLit, Imm.immVal, fldN_val, FWord.hdr, FWord.immv, FWord.immBits, FWord.immBv]

theorem Sys2Proof.Laws.Exact.vfredsum (h : Hdr) (d : Fin 32) (a : CVec) (m : Fin 8) : Sys2Proof.Laws.Exact.Statement (.vfredsum h d a m) := by
  intro hwf _ _
  have e : encode (.vfredsum h d a m) = fEnc h none { opc := 0x3B, fn := 6, d := d.val, a := a.r.val, ca := a.ch, m := m.val } := rfl
  rw [e, decode_fEnc (hf := by constructor <;> simp <;> omega)]
  refine (decodeF_ok rfl rfl ?_).trans ?_ <;>
    simp [Shape.accepts, Shape.reservedOk, FClass.resvOk, Shape.maskOk, FClass.chainable, litOk, FClass.regOk, FClass.size, FWord.withEnc, literal_litNext, Imm.isLit, Imm.immVal, fldN_val, FWord.hdr, FWord.immv, FWord.immBits, FWord.immBv]

theorem Sys2Proof.Laws.Exact.vfredosum (h : Hdr) (d : Fin 32) (a : CVec) (m : Fin 8) : Sys2Proof.Laws.Exact.Statement (.vfredosum h d a m) := by
  intro hwf _ _
  have e : encode (.vfredosum h d a m) = fEnc h none { opc := 0x3B, fn := 7, d := d.val, a := a.r.val, ca := a.ch, m := m.val } := rfl
  rw [e, decode_fEnc (hf := by constructor <;> simp <;> omega)]
  refine (decodeF_ok rfl rfl ?_).trans ?_ <;>
    simp [Shape.accepts, Shape.reservedOk, FClass.resvOk, Shape.maskOk, FClass.chainable, litOk, FClass.regOk, FClass.size, FWord.withEnc, literal_litNext, Imm.isLit, Imm.immVal, fldN_val, FWord.hdr, FWord.immv, FWord.immBits, FWord.immBv]

theorem Sys2Proof.Laws.Exact.vfredmax (h : Hdr) (d : Fin 32) (a : CVec) (m : Fin 8) : Sys2Proof.Laws.Exact.Statement (.vfredmax h d a m) := by
  intro hwf _ _
  have e : encode (.vfredmax h d a m) = fEnc h none { opc := 0x3B, fn := 8, d := d.val, a := a.r.val, ca := a.ch, m := m.val } := rfl
  rw [e, decode_fEnc (hf := by constructor <;> simp <;> omega)]
  refine (decodeF_ok rfl rfl ?_).trans ?_ <;>
    simp [Shape.accepts, Shape.reservedOk, FClass.resvOk, Shape.maskOk, FClass.chainable, litOk, FClass.regOk, FClass.size, FWord.withEnc, literal_litNext, Imm.isLit, Imm.immVal, fldN_val, FWord.hdr, FWord.immv, FWord.immBits, FWord.immBv]

theorem Sys2Proof.Laws.Exact.vfredmin (h : Hdr) (d : Fin 32) (a : CVec) (m : Fin 8) : Sys2Proof.Laws.Exact.Statement (.vfredmin h d a m) := by
  intro hwf _ _
  have e : encode (.vfredmin h d a m) = fEnc h none { opc := 0x3B, fn := 9, d := d.val, a := a.r.val, ca := a.ch, m := m.val } := rfl
  rw [e, decode_fEnc (hf := by constructor <;> simp <;> omega)]
  refine (decodeF_ok rfl rfl ?_).trans ?_ <;>
    simp [Shape.accepts, Shape.reservedOk, FClass.resvOk, Shape.maskOk, FClass.chainable, litOk, FClass.regOk, FClass.size, FWord.withEnc, literal_litNext, Imm.isLit, Imm.immVal, fldN_val, FWord.hdr, FWord.immv, FWord.immBits, FWord.immBv]

theorem Sys2Proof.Laws.Exact.vset (h : Hdr) (d : Fin 32) (a : Fin 32) (t : VType) : Sys2Proof.Laws.Exact.Statement (.vset h d a t) := by
  intro hwf _ _
  have e : encode (.vset h d a t) = fEnc h none { opc := 0x48, fn := 0, d := d.val, a := a.val, imm := t.group.val * 16 + t.fmt.code } := rfl
  have fl := t.fmt.code_lt
  have fn := t.fmt.code_ne
  have hm : ((t.group.val * 16 + t.fmt.code)) &&& 63 = (t.group.val * 16 + t.fmt.code) := and_mask 6 (by omega)
  have b0 : ∀ w : FWord, w.imm = (t.group.val * 16 + t.fmt.code) → w.immBits 0 4 = t.fmt.code := fun w q => by
    rw [FWord.immBits, q]; omega
  have b1 : ∀ w : FWord, w.imm = (t.group.val * 16 + t.fmt.code) → w.immBits 4 2 = t.group.val := fun w q => by
    rw [FWord.immBits, q]; omega
  rw [e, decode_fEnc (hf := by constructor <;> simp <;> omega)]
  refine (decodeF_ok rfl rfl ?_).trans ?_ <;>
    simp [Shape.accepts, Shape.reservedOk, FClass.resvOk, Shape.maskOk, FClass.chainable, litOk, FClass.regOk, FClass.size, FWord.withEnc, fldN_val, FWord.hdr, hm, b0, b1, VType.bits, FWord.fmt, fmtOf_code, fn]

theorem Sys2Proof.Laws.Exact.vsetrun (h : Hdr) (d : Fin 32) (a : Fin 32) (b : Fin 32) (lg : BitVec 5) : Sys2Proof.Laws.Exact.Statement (.vsetrun h d a b lg) := by
  intro hwf _ _
  have e : encode (.vsetrun h d a b lg) = fEnc h none { opc := 0x48, fn := 1, form := 1, d := d.val, a := a.val, b := b.val, imm := lg.toNat } := rfl
  have hm : (lg.toNat) &&& 31 = lg.toNat := and_mask 5 (by omega)
  have v0 : ∀ w : FWord, w.imm = lg.toNat → w.immBv 0 5 = lg := fun w q => by
    rw [FWord.immBv, q]; apply BitVec.eq_of_toNat_eq; rw [BitVec.toNat_ofNat]; omega
  rw [e, decode_fEnc (hf := by constructor <;> simp <;> omega)]
  refine (decodeF_ok rfl rfl ?_).trans ?_ <;>
    simp [Shape.accepts, Shape.reservedOk, FClass.resvOk, Shape.maskOk, FClass.chainable, litOk, FClass.regOk, FClass.size, FWord.withEnc, fldN_val, FWord.hdr, hm, v0]

theorem Sys2Proof.Laws.Exact.mcfg (h : Hdr) (a : Fin 32) : Sys2Proof.Laws.Exact.Statement (.mcfg h a) := by
  intro hwf _ _
  have e : encode (.mcfg h a) = fEnc h none { opc := 0x48, fn := 2, a := a.val } := rfl
  rw [e, decode_fEnc (hf := by constructor <;> simp <;> omega)]
  refine (decodeF_ok rfl rfl ?_).trans ?_ <;>
    simp [Shape.accepts, Shape.reservedOk, FClass.resvOk, Shape.maskOk, FClass.chainable, litOk, FClass.regOk, FClass.size, FWord.withEnc, literal_litNext, Imm.isLit, Imm.immVal, fldN_val, FWord.hdr, FWord.immv, FWord.immBits, FWord.immBv]

theorem Sys2Proof.Laws.Exact.qtld (h : Hdr) (d : Fin 4) (a : Fin 32) : Sys2Proof.Laws.Exact.Statement (.qtld h d a) := by
  intro hwf _ _
  have e : encode (.qtld h d a) = fEnc h none { opc := 0x48, fn := 3, d := d.val, a := a.val } := rfl
  rw [e, decode_fEnc (hf := by constructor <;> simp <;> omega)]
  refine (decodeF_ok rfl rfl ?_).trans ?_ <;>
    simp [Shape.accepts, Shape.reservedOk, FClass.resvOk, Shape.maskOk, FClass.chainable, litOk, FClass.regOk, FClass.size, FWord.withEnc, literal_litNext, Imm.isLit, Imm.immVal, fldN_val, FWord.hdr, FWord.immv, FWord.immBits, FWord.immBv]

theorem Sys2Proof.Laws.Exact.scmvToScale (h : Hdr) (d : Fin 8) (a : CVec) : Sys2Proof.Laws.Exact.Statement (.scmvToScale h d a) := by
  intro hwf _ _
  have e : encode (.scmvToScale h d a) = fEnc h none { opc := 0x48, fn := 4, d := d.val, a := a.r.val, ca := a.ch } := rfl
  have b0 : ∀ w : FWord, w.imm = 0 → w.immBits 0 1 = 0 := fun w q => by
    simp [FWord.immBits, q]
  rw [e, decode_fEnc (hf := by constructor <;> simp <;> omega)]
  refine (decodeF_ok rfl (r := ⟨0, .s, .v, .none, false⟩) (by simp [Shape.form?, FWord.withEnc, b0]) ?_).trans ?_ <;>
    simp [Shape.accepts, Shape.reservedOk, FClass.resvOk, Shape.maskOk, FClass.chainable, litOk, FClass.regOk, FClass.size, FWord.withEnc, fldN_val, FWord.hdr, b0]

theorem Sys2Proof.Laws.Exact.scmvFromScale (h : Hdr) (d : Fin 64) (a : Fin 8) : Sys2Proof.Laws.Exact.Statement (.scmvFromScale h d a) := by
  intro hwf _ _
  have e : encode (.scmvFromScale h d a) = fEnc h none { opc := 0x48, fn := 4, d := d.val, a := a.val, imm := 1 } := rfl
  have b0 : ∀ w : FWord, w.imm = 1 → w.immBits 0 1 = 1 := fun w q => by
    simp [FWord.immBits, q]
  rw [e, decode_fEnc (hf := by constructor <;> simp <;> omega)]
  refine (decodeF_ok rfl (r := ⟨0, .v, .s, .none, false⟩) (by simp [Shape.form?, FWord.withEnc, b0]) ?_).trans ?_ <;>
    simp [Shape.accepts, Shape.reservedOk, FClass.resvOk, Shape.maskOk, FClass.chainable, litOk, FClass.regOk, FClass.size, FWord.withEnc, fldN_val, FWord.hdr, b0]

theorem Sys2Proof.Laws.Exact.vcvth (h : Hdr) (d : Fin 64) (a : CVec) (m : Fin 8) (f : Fmt) (sat : Bool) : Sys2Proof.Laws.Exact.Statement (.vcvth h d a m f sat) := by
  intro hwf _ _
  have e : encode (.vcvth h d a m f sat) = fEnc h none { opc := 0x49, fn := 0, d := d.val, a := a.r.val, ca := a.ch, m := m.val, imm := f.code + sat.toNat * 16 } := rfl
  have fl := f.code_lt
  have fn := f.code_ne
  have sl := Bool.toNat_lt sat
  have hm : (f.code + sat.toNat * 16) &&& 31 = f.code + sat.toNat * 16 := and_mask 5 (by omega)
  have b0 : ∀ w : FWord, w.imm = f.code + sat.toNat * 16 → w.immBits 0 4 = f.code := fun w q => by
    rw [FWord.immBits, q]; omega
  have b1 : ∀ w : FWord, w.imm = f.code + sat.toNat * 16 → w.immBits 4 1 = sat.toNat := fun w q => by
    rw [FWord.immBits, q]; omega
  rw [e, decode_fEnc (hf := by constructor <;> simp <;> omega)]
  refine (decodeF_ok rfl rfl ?_).trans ?_ <;>
    simp [Shape.accepts, Shape.reservedOk, FClass.resvOk, Shape.maskOk, FClass.chainable, litOk, FClass.regOk, FClass.size, FWord.withEnc, fldN_val, FWord.hdr, hm, b0, b1, FWord.fmt, fmtOf_code, fn, toNat_beq_one]

theorem Sys2Proof.Laws.Exact.vcvtd (h : Hdr) (d : Fin 64) (a : CVec) (m : Fin 8) (f : Fmt) : Sys2Proof.Laws.Exact.Statement (.vcvtd h d a m f) := by
  intro hwf _ _
  have e : encode (.vcvtd h d a m f) = fEnc h none { opc := 0x49, fn := 1, d := d.val, a := a.r.val, ca := a.ch, m := m.val, imm := f.code } := rfl
  have fl := f.code_lt
  have fn := f.code_ne
  have ap : ¬ d.val = a.r.val := apart_ne hwf
  have hm : (f.code) &&& 15 = f.code := and_mask 4 (by omega)
  have b0 : ∀ w : FWord, w.imm = f.code → w.immBits 0 4 = f.code := fun w q => by
    rw [FWord.immBits, q]; omega
  rw [e, decode_fEnc (hf := by constructor <;> simp <;> omega)]
  refine (decodeF_ok rfl rfl ?_).trans ?_ <;>
    simp [Shape.accepts, Shape.reservedOk, FClass.resvOk, Shape.maskOk, FClass.chainable, litOk, FClass.regOk, FClass.size, FWord.withEnc, fldN_val, FWord.hdr, hm, b0, FWord.fmt, fmtOf_code, fn, ap]

theorem Sys2Proof.Laws.Exact.vcvtq (h : Hdr) (d : Fin 64) (a : CVec) (b : Fin 8) (m : Fin 8) (q4 : Bool) (qt : Fin 4) : Sys2Proof.Laws.Exact.Statement (.vcvtq h d a b m q4 qt) := by
  intro hwf _ _
  have w : ((q4 || qt == 0) && a.apart d) = true := hwf
  rw [Bool.and_eq_true] at w
  have ap : ¬ d.val = a.r.val := apart_ne w.2
  cases q4 with
  | false =>
    have qz : qt = 0 := by simpa using w.1
    subst qz
    have e : encode (.vcvtq h d a b m false 0) = fEnc h none { opc := 0x49, fn := 2, d := d.val, a := a.r.val, ca := a.ch, b := b.val, m := m.val, imm := 13 } := rfl
    have b0 : ∀ w : FWord, w.imm = 13 → w.immBits 0 4 = 13 := fun w q => by simp [FWord.immBits, q]
    have b1 : ∀ w : FWord, w.imm = 13 → w.immBits 4 2 = 0 := fun w q => by simp [FWord.immBits, q]
    rw [e, decode_fEnc (hf := by constructor <;> simp <;> omega)]
    refine (decodeF_ok rfl rfl ?_).trans ?_ <;> simp [Shape.accepts, Shape.reservedOk, FClass.resvOk, Shape.maskOk, FClass.chainable, litOk, FClass.regOk, FClass.size, FWord.withEnc, fldN_val, FWord.hdr, b0, b1, ap]
    rfl
  | true =>
    have e : encode (.vcvtq h d a b m true qt) = fEnc h none { opc := 0x49, fn := 2, d := d.val, a := a.r.val, ca := a.ch, b := b.val, m := m.val, imm := 14 + qt.val * 16 } := rfl
    have hm : (14 + qt.val * 16) &&& 63 = 14 + qt.val * 16 := and_mask 6 (by omega)
    have b0 : ∀ w : FWord, w.imm = 14 + qt.val * 16 → w.immBits 0 4 = 14 := fun w q => by
      rw [FWord.immBits, q]; omega
    have b1 : ∀ w : FWord, w.imm = 14 + qt.val * 16 → w.immBits 4 2 = qt.val := fun w q => by
      rw [FWord.immBits, q]; omega
    rw [e, decode_fEnc (hf := by constructor <;> simp <;> omega)]
    refine (decodeF_ok rfl rfl ?_).trans ?_ <;> simp [Shape.accepts, Shape.reservedOk, FClass.resvOk, Shape.maskOk, FClass.chainable, litOk, FClass.regOk, FClass.size, FWord.withEnc, fldN_val, FWord.hdr, hm, b0, b1, ap]

theorem Sys2Proof.Laws.Exact.vcvti (h : Hdr) (d : Fin 64) (a : CVec) (m : Fin 8) (dir : BitVec 2) : Sys2Proof.Laws.Exact.Statement (.vcvti h d a m dir) := by
  intro hwf _ _
  have e : encode (.vcvti h d a m dir) = fEnc h none { opc := 0x49, fn := 3, d := d.val, a := a.r.val, ca := a.ch, m := m.val, imm := dir.toNat } := rfl
  have hm : (dir.toNat) &&& 3 = dir.toNat := and_mask 2 (by omega)
  have v0 : ∀ w : FWord, w.imm = dir.toNat → w.immBv 0 2 = dir := fun w q => by
    rw [FWord.immBv, q]; apply BitVec.eq_of_toNat_eq; rw [BitVec.toNat_ofNat]; omega
  rw [e, decode_fEnc (hf := by constructor <;> simp <;> omega)]
  refine (decodeF_ok rfl rfl ?_).trans ?_ <;>
    simp [Shape.accepts, Shape.reservedOk, FClass.resvOk, Shape.maskOk, FClass.chainable, litOk, FClass.regOk, FClass.size, FWord.withEnc, fldN_val, FWord.hdr, hm, v0]

theorem Sys2Proof.Laws.Exact.vld (h : Hdr) (d : Fin 64) (a : Fin 32) (i : Imm) (s : Option (Fin 8)) (m : Fin 8) (fk : Fin 8) : Sys2Proof.Laws.Exact.Statement (.vld h d a i s m fk) := by
  intro hwf _ _
  have sl := scBits_lt s
  have e : encode (.vld h d a i s m fk) = fEnc h (some i) { opc := 0x50, fn := 0, form := 2, d := d.val, a := a.val, b := scBits s, m := m.val, fk := fk.val } := rfl
  rcases i with b | b <;>
  · rw [e, decode_fEnc (hf := by constructor <;> simp [scBitsOk_bits, scOf_bits] <;> omega)]
    refine (decodeF_ok rfl rfl ?_).trans ?_ <;>
      simp [Shape.accepts, Shape.reservedOk, FClass.resvOk, Shape.maskOk, FClass.chainable, litOk, FClass.regOk, FClass.size, FWord.withEnc, literal_litNext, Imm.isLit, Imm.immVal, fldN_val, FWord.hdr, FWord.immv, FWord.immBits, FWord.immBv, scBitsOk_bits, scOf_bits]

theorem Sys2Proof.Laws.Exact.vlds (h : Hdr) (d : Fin 64) (a : Fin 32) (b : Fin 32) (m : Fin 8) (fk : Fin 8) : Sys2Proof.Laws.Exact.Statement (.vlds h d a b m fk) := by
  intro hwf _ _
  have e : encode (.vlds h d a b m fk) = fEnc h none { opc := 0x50, fn := 1, form := 1, d := d.val, a := a.val, b := b.val, m := m.val, fk := fk.val } := rfl
  rw [e, decode_fEnc (hf := by constructor <;> simp <;> omega)]
  refine (decodeF_ok rfl rfl ?_).trans ?_ <;>
    simp [Shape.accepts, Shape.reservedOk, FClass.resvOk, Shape.maskOk, FClass.chainable, litOk, FClass.regOk, FClass.size, FWord.withEnc, literal_litNext, Imm.isLit, Imm.immVal, fldN_val, FWord.hdr, FWord.immv, FWord.immBits, FWord.immBv]

theorem Sys2Proof.Laws.Exact.vldrow (h : Hdr) (d : Fin 64) (a : Fin 32) (m : Fin 8) (fk : Fin 8) : Sys2Proof.Laws.Exact.Statement (.vldrow h d a m fk) := by
  intro hwf _ _
  have e : encode (.vldrow h d a m fk) = fEnc h none { opc := 0x50, fn := 2, d := d.val, a := a.val, m := m.val, fk := fk.val } := rfl
  rw [e, decode_fEnc (hf := by constructor <;> simp <;> omega)]
  refine (decodeF_ok rfl rfl ?_).trans ?_ <;>
    simp [Shape.accepts, Shape.reservedOk, FClass.resvOk, Shape.maskOk, FClass.chainable, litOk, FClass.regOk, FClass.size, FWord.withEnc, literal_litNext, Imm.isLit, Imm.immVal, fldN_val, FWord.hdr, FWord.immv, FWord.immBits, FWord.immBv]

theorem Sys2Proof.Laws.Exact.vldl (h : Hdr) (d : Fin 64) (a : Fin 32) (i : Imm) (m : Fin 8) : Sys2Proof.Laws.Exact.Statement (.vldl h d a i m) := by
  intro hwf _ _
  have e : encode (.vldl h d a i m) = fEnc h (some i) { opc := 0x50, fn := 3, form := 2, d := d.val, a := a.val, m := m.val } := rfl
  rcases i with b | b <;>
  · rw [e, decode_fEnc (hf := by constructor <;> simp <;> omega)]
    refine (decodeF_ok rfl rfl ?_).trans ?_ <;>
      simp [Shape.accepts, Shape.reservedOk, FClass.resvOk, Shape.maskOk, FClass.chainable, litOk, FClass.regOk, FClass.size, FWord.withEnc, literal_litNext, Imm.isLit, Imm.immVal, fldN_val, FWord.hdr, FWord.immv, FWord.immBits, FWord.immBv]

theorem Sys2Proof.Laws.Exact.vldfm (h : Hdr) (d : Fin 64) (a : Fin 32) (m : Fin 8) : Sys2Proof.Laws.Exact.Statement (.vldfm h d a m) := by
  intro hwf _ _
  have e : encode (.vldfm h d a m) = fEnc h none { opc := 0x50, fn := 4, d := d.val, a := a.val, m := m.val } := rfl
  rw [e, decode_fEnc (hf := by constructor <;> simp <;> omega)]
  refine (decodeF_ok rfl rfl ?_).trans ?_ <;>
    simp [Shape.accepts, Shape.reservedOk, FClass.resvOk, Shape.maskOk, FClass.chainable, litOk, FClass.regOk, FClass.size, FWord.withEnc, literal_litNext, Imm.isLit, Imm.immVal, fldN_val, FWord.hdr, FWord.immv, FWord.immBits, FWord.immBv]

theorem Sys2Proof.Laws.Exact.vst (h : Hdr) (d : Fin 64) (a : Fin 32) (i : Imm) (s : Option (Fin 8)) (m : Fin 8) : Sys2Proof.Laws.Exact.Statement (.vst h d a i s m) := by
  intro hwf _ _
  have sl := scBits_lt s
  have e : encode (.vst h d a i s m) = fEnc h (some i) { opc := 0x51, fn := 0, form := 2, d := d.val, a := a.val, b := scBits s, m := m.val } := rfl
  rcases i with b | b <;>
  · rw [e, decode_fEnc (hf := by constructor <;> simp [scBitsOk_bits, scOf_bits] <;> omega)]
    refine (decodeF_ok rfl rfl ?_).trans ?_ <;>
      simp [Shape.accepts, Shape.reservedOk, FClass.resvOk, Shape.maskOk, FClass.chainable, litOk, FClass.regOk, FClass.size, FWord.withEnc, literal_litNext, Imm.isLit, Imm.immVal, fldN_val, FWord.hdr, FWord.immv, FWord.immBits, FWord.immBv, scBitsOk_bits, scOf_bits]

theorem Sys2Proof.Laws.Exact.vsts (h : Hdr) (d : Fin 64) (a : Fin 32) (b : Fin 32) (m : Fin 8) : Sys2Proof.Laws.Exact.Statement (.vsts h d a b m) := by
  intro hwf _ _
  have e : encode (.vsts h d a b m) = fEnc h none { opc := 0x51, fn := 1, form := 1, d := d.val, a := a.val, b := b.val, m := m.val } := rfl
  rw [e, decode_fEnc (hf := by constructor <;> simp <;> omega)]
  refine (decodeF_ok rfl rfl ?_).trans ?_ <;>
    simp [Shape.accepts, Shape.reservedOk, FClass.resvOk, Shape.maskOk, FClass.chainable, litOk, FClass.regOk, FClass.size, FWord.withEnc, literal_litNext, Imm.isLit, Imm.immVal, fldN_val, FWord.hdr, FWord.immv, FWord.immBits, FWord.immBv]

theorem Sys2Proof.Laws.Exact.vstl (h : Hdr) (d : Fin 64) (a : Fin 32) (i : Imm) (m : Fin 8) : Sys2Proof.Laws.Exact.Statement (.vstl h d a i m) := by
  intro hwf _ _
  have e : encode (.vstl h d a i m) = fEnc h (some i) { opc := 0x51, fn := 2, form := 2, d := d.val, a := a.val, m := m.val } := rfl
  rcases i with b | b <;>
  · rw [e, decode_fEnc (hf := by constructor <;> simp <;> omega)]
    refine (decodeF_ok rfl rfl ?_).trans ?_ <;>
      simp [Shape.accepts, Shape.reservedOk, FClass.resvOk, Shape.maskOk, FClass.chainable, litOk, FClass.regOk, FClass.size, FWord.withEnc, literal_litNext, Imm.isLit, Imm.immVal, fldN_val, FWord.hdr, FWord.immv, FWord.immBits, FWord.immBv]

theorem Sys2Proof.Laws.Exact.cpy (h : Hdr) (d : Fin 32) (a : Fin 32) (b : Fin 32) (tag : Fin 64) : Sys2Proof.Laws.Exact.Statement (.cpy h d a b tag) := by
  intro hwf _ _
  have e : encode (.cpy h d a b tag) = fEnc h none { opc := 0x52, fn := 0, form := 1, d := d.val, a := a.val, b := b.val, imm := tag.val } := rfl
  have hm : (tag.val) &&& 63 = tag.val := and_mask 6 (by omega)
  have b0 : ∀ w : FWord, w.imm = tag.val → w.immBits 0 6 = tag.val := fun w q => by
    rw [FWord.immBits, q]; omega
  rw [e, decode_fEnc (hf := by constructor <;> simp <;> omega)]
  refine (decodeF_ok rfl rfl ?_).trans ?_ <;>
    simp [Shape.accepts, Shape.reservedOk, FClass.resvOk, Shape.maskOk, FClass.chainable, litOk, FClass.regOk, FClass.size, FWord.withEnc, fldN_val, FWord.hdr, hm, b0]

theorem Sys2Proof.Laws.Exact.cpy2 (h : Hdr) (d : Fin 32) (a : Fin 32) (b : Fin 32) (tag : Fin 64) : Sys2Proof.Laws.Exact.Statement (.cpy2 h d a b tag) := by
  intro hwf _ _
  have e : encode (.cpy2 h d a b tag) = fEnc h none { opc := 0x52, fn := 1, form := 1, d := d.val, a := a.val, b := b.val, imm := tag.val } := rfl
  have hm : (tag.val) &&& 63 = tag.val := and_mask 6 (by omega)
  have b0 : ∀ w : FWord, w.imm = tag.val → w.immBits 0 6 = tag.val := fun w q => by
    rw [FWord.immBits, q]; omega
  rw [e, decode_fEnc (hf := by constructor <;> simp <;> omega)]
  refine (decodeF_ok rfl rfl ?_).trans ?_ <;>
    simp [Shape.accepts, Shape.reservedOk, FClass.resvOk, Shape.maskOk, FClass.chainable, litOk, FClass.regOk, FClass.size, FWord.withEnc, fldN_val, FWord.hdr, hm, b0]

theorem Sys2Proof.Laws.Exact.cpres (h : Hdr) (tag : Fin 64) : Sys2Proof.Laws.Exact.Statement (.cpres h tag) := by
  intro hwf _ _
  have e : encode (.cpres h tag) = fEnc h none { opc := 0x52, fn := 2, imm := tag.val } := rfl
  have hm : (tag.val) &&& 63 = tag.val := and_mask 6 (by omega)
  have b0 : ∀ w : FWord, w.imm = tag.val → w.immBits 0 6 = tag.val := fun w q => by
    rw [FWord.immBits, q]; omega
  rw [e, decode_fEnc (hf := by constructor <;> simp <;> omega)]
  refine (decodeF_ok rfl rfl ?_).trans ?_ <;>
    simp [Shape.accepts, Shape.reservedOk, FClass.resvOk, Shape.maskOk, FClass.chainable, litOk, FClass.regOk, FClass.size, FWord.withEnc, fldN_val, FWord.hdr, hm, b0]

theorem Sys2Proof.Laws.Exact.pgreq (h : Hdr) (a : Fin 32) (tag : Fin 64) : Sys2Proof.Laws.Exact.Statement (.pgreq h a tag) := by
  intro hwf _ _
  have e : encode (.pgreq h a tag) = fEnc h none { opc := 0x52, fn := 3, a := a.val, imm := tag.val } := rfl
  have hm : (tag.val) &&& 63 = tag.val := and_mask 6 (by omega)
  have b0 : ∀ w : FWord, w.imm = tag.val → w.immBits 0 6 = tag.val := fun w q => by
    rw [FWord.immBits, q]; omega
  rw [e, decode_fEnc (hf := by constructor <;> simp <;> omega)]
  refine (decodeF_ok rfl rfl ?_).trans ?_ <;>
    simp [Shape.accepts, Shape.reservedOk, FClass.resvOk, Shape.maskOk, FClass.chainable, litOk, FClass.regOk, FClass.size, FWord.withEnc, fldN_val, FWord.hdr, hm, b0]

theorem Sys2Proof.Laws.Exact.twany (h : Hdr) (d : Fin 32) (a : Fin 32) : Sys2Proof.Laws.Exact.Statement (.twany h d a) := by
  intro hwf _ _
  have e : encode (.twany h d a) = fEnc h none { opc := 0x53, fn := 0, d := d.val, a := a.val } := rfl
  rw [e, decode_fEnc (hf := by constructor <;> simp <;> omega)]
  refine (decodeF_ok rfl rfl ?_).trans ?_ <;>
    simp [Shape.accepts, Shape.reservedOk, FClass.resvOk, Shape.maskOk, FClass.chainable, litOk, FClass.regOk, FClass.size, FWord.withEnc, literal_litNext, Imm.isLit, Imm.immVal, fldN_val, FWord.hdr, FWord.immv, FWord.immBits, FWord.immBv]

theorem Sys2Proof.Laws.Exact.twall (h : Hdr) (a : Fin 32) : Sys2Proof.Laws.Exact.Statement (.twall h a) := by
  intro hwf _ _
  have e : encode (.twall h a) = fEnc h none { opc := 0x53, fn := 1, a := a.val } := rfl
  rw [e, decode_fEnc (hf := by constructor <;> simp <;> omega)]
  refine (decodeF_ok rfl rfl ?_).trans ?_ <;>
    simp [Shape.accepts, Shape.reservedOk, FClass.resvOk, Shape.maskOk, FClass.chainable, litOk, FClass.regOk, FClass.size, FWord.withEnc, literal_litNext, Imm.isLit, Imm.immVal, fldN_val, FWord.hdr, FWord.immv, FWord.immBits, FWord.immBv]

theorem Sys2Proof.Laws.Exact.tffr (h : Hdr) (d : Fin 32) (a : Fin 32) : Sys2Proof.Laws.Exact.Statement (.tffr h d a) := by
  intro hwf _ _
  have e : encode (.tffr h d a) = fEnc h none { opc := 0x53, fn := 2, d := d.val, a := a.val } := rfl
  rw [e, decode_fEnc (hf := by constructor <;> simp <;> omega)]
  refine (decodeF_ok rfl rfl ?_).trans ?_ <;>
    simp [Shape.accepts, Shape.reservedOk, FClass.resvOk, Shape.maskOk, FClass.chainable, litOk, FClass.regOk, FClass.size, FWord.withEnc, literal_litNext, Imm.isLit, Imm.immVal, fldN_val, FWord.hdr, FWord.immv, FWord.immBits, FWord.immBv]

theorem Sys2Proof.Laws.Exact.tclr (h : Hdr) (a : Fin 32) : Sys2Proof.Laws.Exact.Statement (.tclr h a) := by
  intro hwf _ _
  have e : encode (.tclr h a) = fEnc h none { opc := 0x53, fn := 3, a := a.val } := rfl
  rw [e, decode_fEnc (hf := by constructor <;> simp <;> omega)]
  refine (decodeF_ok rfl rfl ?_).trans ?_ <;>
    simp [Shape.accepts, Shape.reservedOk, FClass.resvOk, Shape.maskOk, FClass.chainable, litOk, FClass.regOk, FClass.size, FWord.withEnc, literal_litNext, Imm.isLit, Imm.immVal, fldN_val, FWord.hdr, FWord.immv, FWord.immBits, FWord.immBv]

theorem Sys2Proof.Laws.Exact.stlook (h : Hdr) (d : Fin 32) (a : Fin 32) : Sys2Proof.Laws.Exact.Statement (.stlook h d a) := by
  intro hwf _ _
  have e : encode (.stlook h d a) = fEnc h none { opc := 0x54, fn := 0, d := d.val, a := a.val } := rfl
  rw [e, decode_fEnc (hf := by constructor <;> simp <;> omega)]
  refine (decodeF_ok rfl rfl ?_).trans ?_ <;>
    simp [Shape.accepts, Shape.reservedOk, FClass.resvOk, Shape.maskOk, FClass.chainable, litOk, FClass.regOk, FClass.size, FWord.withEnc, literal_litNext, Imm.isLit, Imm.immVal, fldN_val, FWord.hdr, FWord.immv, FWord.immBits, FWord.immBv]

theorem Sys2Proof.Laws.Exact.stset (h : Hdr) (a : Fin 32) (b : Fin 32) : Sys2Proof.Laws.Exact.Statement (.stset h a b) := by
  intro hwf _ _
  have e : encode (.stset h a b) = fEnc h none { opc := 0x54, fn := 1, form := 1, a := a.val, b := b.val } := rfl
  rw [e, decode_fEnc (hf := by constructor <;> simp <;> omega)]
  refine (decodeF_ok rfl rfl ?_).trans ?_ <;>
    simp [Shape.accepts, Shape.reservedOk, FClass.resvOk, Shape.maskOk, FClass.chainable, litOk, FClass.regOk, FClass.size, FWord.withEnc, literal_litNext, Imm.isLit, Imm.immVal, fldN_val, FWord.hdr, FWord.immv, FWord.immBits, FWord.immBv]

theorem Sys2Proof.Laws.Exact.stinv (h : Hdr) (a : Fin 32) : Sys2Proof.Laws.Exact.Statement (.stinv h a) := by
  intro hwf _ _
  have e : encode (.stinv h a) = fEnc h none { opc := 0x54, fn := 2, a := a.val } := rfl
  rw [e, decode_fEnc (hf := by constructor <;> simp <;> omega)]
  refine (decodeF_ok rfl rfl ?_).trans ?_ <;>
    simp [Shape.accepts, Shape.reservedOk, FClass.resvOk, Shape.maskOk, FClass.chainable, litOk, FClass.regOk, FClass.size, FWord.withEnc, literal_litNext, Imm.isLit, Imm.immVal, fldN_val, FWord.hdr, FWord.immv, FWord.immBits, FWord.immBv]

theorem Sys2Proof.Laws.Exact.vramo (h : Hdr) (a : Fin 32) (b : CVec) (m : Fin 8) (sc : Scope) (rl : Bool) : Sys2Proof.Laws.Exact.Statement (.vramo h a b m sc rl) := by
  intro hwf _ _
  have e : encode (.vramo h a b m sc rl) = fEnc h none { opc := 0x60, fn := 0, a := a.val, b := b.r.val, cb := b.ch, m := m.val, imm := sc.code + rl.toNat * 16 } := rfl
  rcases sc with _ | _ | _ | _ | _ | _ <;> rcases rl with _ | _ <;>
  · rw [e, decode_fEnc (hf := by constructor <;> simp [Scope.code, FWord.scope, scopeOk, FWord.immBits, scopeOf] <;> omega)]
    refine (decodeF_ok rfl rfl ?_).trans ?_ <;>
      simp [Shape.accepts, Shape.reservedOk, FClass.resvOk, Shape.maskOk, FClass.chainable, litOk, FClass.regOk, FClass.size, FWord.withEnc, literal_litNext, Imm.isLit, Imm.immVal, fldN_val, FWord.hdr, FWord.immv, FWord.immBits, FWord.immBv, Scope.code, FWord.scope, scopeOk, FWord.immBits, scopeOf]

theorem Sys2Proof.Laws.Exact.vrred (h : Hdr) (a : Fin 32) (b : CVec) (m : Fin 8) (s : Option (Fin 8)) : Sys2Proof.Laws.Exact.Statement (.vrred h a b m s) := by
  intro hwf _ _
  have e : encode (.vrred h a b m s) = fEnc h none { opc := 0x60, fn := 1, a := a.val, b := b.r.val, cb := b.ch, m := m.val, imm := scBits s } := rfl
  have sl := scBits_lt s
  have sm : scBits s % 16 = scBits s := Nat.mod_eq_of_lt sl
  have hm : (scBits s) &&& 15 = scBits s := and_mask 4 (by omega)
  rw [e, decode_fEnc (hf := by constructor <;> simp [scBitsOk_bits, scOf_bits] <;> omega)]
  refine (decodeF_ok rfl rfl ?_).trans ?_ <;>
    simp [Shape.accepts, Shape.reservedOk, FClass.resvOk, Shape.maskOk, FClass.chainable, litOk, FClass.regOk, FClass.size, FWord.withEnc, scBitsOk_bits, scOf_bits, fldN_val, FWord.immBits, FWord.hdr, hm, scBitsOk_bits, scOf_bits, sm]

theorem Sys2Proof.Laws.Exact.mqpush (h : Hdr) (a : Fin 32) (b : CVec) : Sys2Proof.Laws.Exact.Statement (.mqpush h a b) := by
  intro hwf _ _
  have e : encode (.mqpush h a b) = fEnc h none { opc := 0x60, fn := 2, a := a.val, b := b.r.val, cb := b.ch } := rfl
  rw [e, decode_fEnc (hf := by constructor <;> simp <;> omega)]
  refine (decodeF_ok rfl rfl ?_).trans ?_ <;>
    simp [Shape.accepts, Shape.reservedOk, FClass.resvOk, Shape.maskOk, FClass.chainable, litOk, FClass.regOk, FClass.size, FWord.withEnc, literal_litNext, Imm.isLit, Imm.immVal, fldN_val, FWord.hdr, FWord.immv, FWord.immBits, FWord.immBv]

theorem Sys2Proof.Laws.Exact.mqpop (h : Hdr) (d : Fin 64) : Sys2Proof.Laws.Exact.Statement (.mqpop h d) := by
  intro hwf _ _
  have e : encode (.mqpop h d) = fEnc h none { opc := 0x60, fn := 3, d := d.val } := rfl
  rw [e, decode_fEnc (hf := by constructor <;> simp <;> omega)]
  refine (decodeF_ok rfl rfl ?_).trans ?_ <;>
    simp [Shape.accepts, Shape.reservedOk, FClass.resvOk, Shape.maskOk, FClass.chainable, litOk, FClass.regOk, FClass.size, FWord.withEnc, literal_litNext, Imm.isLit, Imm.immVal, fldN_val, FWord.hdr, FWord.immv, FWord.immBits, FWord.immBv]

theorem Sys2Proof.Laws.Exact.mqcred (h : Hdr) (d : Fin 32) (a : Fin 32) : Sys2Proof.Laws.Exact.Statement (.mqcred h d a) := by
  intro hwf _ _
  have e : encode (.mqcred h d a) = fEnc h none { opc := 0x60, fn := 4, d := d.val, a := a.val } := rfl
  rw [e, decode_fEnc (hf := by constructor <;> simp <;> omega)]
  refine (decodeF_ok rfl rfl ?_).trans ?_ <;>
    simp [Shape.accepts, Shape.reservedOk, FClass.resvOk, Shape.maskOk, FClass.chainable, litOk, FClass.regOk, FClass.size, FWord.withEnc, literal_litNext, Imm.isLit, Imm.immVal, fldN_val, FWord.hdr, FWord.immv, FWord.immBits, FWord.immBv]

theorem Sys2Proof.Laws.Exact.gcsleep (h : Hdr) (d : Fin 8) (a : CVec) (b : CVec) (m : Fin 8) (sc : Scope) (aq : Bool) (allm : Bool) : Sys2Proof.Laws.Exact.Statement (.gcsleep h d a b m sc aq allm) := by
  intro hwf _ _
  have e : encode (.gcsleep h d a b m sc aq allm) = fEnc h none { opc := 0x60, fn := 5, d := d.val, a := a.r.val, ca := a.ch, b := b.r.val, cb := b.ch, m := m.val, imm := sc.code + aq.toNat * 8 + allm.toNat * 32 } := rfl
  rcases sc with _ | _ | _ | _ | _ | _ <;> rcases aq with _ | _ <;> rcases allm with _ | _ <;>
  · rw [e, decode_fEnc (hf := by constructor <;> simp [Scope.code, FWord.scope, scopeOk, FWord.immBits, scopeOf] <;> omega)]
    refine (decodeF_ok rfl rfl ?_).trans ?_ <;>
      simp [Shape.accepts, Shape.reservedOk, FClass.resvOk, Shape.maskOk, FClass.chainable, litOk, FClass.regOk, FClass.size, FWord.withEnc, literal_litNext, Imm.isLit, Imm.immVal, fldN_val, FWord.hdr, FWord.immv, FWord.immBits, FWord.immBv, Scope.code, FWord.scope, scopeOk, FWord.immBits, scopeOf]

theorem Sys2Proof.Laws.Exact.plan (h : Hdr) (d : Fin 16) (a : CVec) (b : Fin 32) (fk : Fin 8) : Sys2Proof.Laws.Exact.Statement (.plan h d a b fk) := by
  intro hwf _ _
  have e : encode (.plan h d a b fk) = fEnc h none { opc := 0x68, fn := 0, d := d.val, a := a.r.val, ca := a.ch, b := b.val, fk := fk.val } := rfl
  rw [e, decode_fEnc (hf := by constructor <;> simp <;> omega)]
  refine (decodeF_ok rfl rfl ?_).trans ?_ <;>
    simp [Shape.accepts, Shape.reservedOk, FClass.resvOk, Shape.maskOk, FClass.chainable, litOk, FClass.regOk, FClass.size, FWord.withEnc, literal_litNext, Imm.isLit, Imm.immVal, fldN_val, FWord.hdr, FWord.immv, FWord.immBits, FWord.immBv]

theorem Sys2Proof.Laws.Exact.planm (h : Hdr) (d : Fin 16) (a : Fin 32) (b : Fin 32) : Sys2Proof.Laws.Exact.Statement (.planm h d a b) := by
  intro hwf _ _
  have e : encode (.planm h d a b) = fEnc h none { opc := 0x68, fn := 1, d := d.val, a := a.val, b := b.val } := rfl
  rw [e, decode_fEnc (hf := by constructor <;> simp <;> omega)]
  refine (decodeF_ok rfl rfl ?_).trans ?_ <;>
    simp [Shape.accepts, Shape.reservedOk, FClass.resvOk, Shape.maskOk, FClass.chainable, litOk, FClass.regOk, FClass.size, FWord.withEnc, literal_litNext, Imm.isLit, Imm.immVal, fldN_val, FWord.hdr, FWord.immv, FWord.immBits, FWord.immBv]

theorem Sys2Proof.Laws.Exact.plgat (h : Hdr) (d : Fin 64) (a : Fin 32) (b : Fin 32) (m : Fin 8) (fk : Fin 8) (p : Fin 16) (chk : Bool) : Sys2Proof.Laws.Exact.Statement (.plgat h d a b m fk p chk) := by
  intro hwf _ _
  have e : encode (.plgat h d a b m fk p chk) = fEnc h none { opc := 0x68, fn := 2, d := d.val, a := a.val, b := b.val, m := m.val, fk := fk.val, imm := p.val + chk.toNat * 16 } := rfl
  have cl := Bool.toNat_lt chk
  have hm : (p.val + chk.toNat * 16) &&& 31 = p.val + chk.toNat * 16 := and_mask 5 (by omega)
  have b0 : ∀ w : FWord, w.imm = p.val + chk.toNat * 16 → w.immBits 0 4 = p.val := fun w q => by
    rw [FWord.immBits, q]; omega
  have b1 : ∀ w : FWord, w.imm = p.val + chk.toNat * 16 → w.immBits 4 1 = chk.toNat := fun w q => by
    rw [FWord.immBits, q]; omega
  rw [e, decode_fEnc (hf := by constructor <;> simp <;> omega)]
  refine (decodeF_ok rfl rfl ?_).trans ?_ <;>
    simp [Shape.accepts, Shape.reservedOk, FClass.resvOk, Shape.maskOk, FClass.chainable, litOk, FClass.regOk, FClass.size, FWord.withEnc, fldN_val, FWord.hdr, hm, b0, b1, toNat_beq_one]

theorem Sys2Proof.Laws.Exact.plcpy (h : Hdr) (d : Fin 32) (a : Fin 32) (b : Fin 32) (m : Fin 8) (fk : Fin 8) (p : Fin 16) (chk : Bool) (tag : Fin 64) : Sys2Proof.Laws.Exact.Statement (.plcpy h d a b m fk p chk tag) := by
  intro hwf _ _
  have e : encode (.plcpy h d a b m fk p chk tag) = fEnc h none { opc := 0x68, fn := 3, d := d.val, a := a.val, b := b.val, m := m.val, fk := fk.val, imm := p.val + chk.toNat * 16 + tag.val * 32 } := rfl
  have cl := Bool.toNat_lt chk
  have hm : (p.val + chk.toNat * 16 + tag.val * 32) &&& 2047 = p.val + chk.toNat * 16 + tag.val * 32 := and_mask 11 (by omega)
  have b0 : ∀ w : FWord, w.imm = p.val + chk.toNat * 16 + tag.val * 32 → w.immBits 0 4 = p.val := fun w q => by
    rw [FWord.immBits, q]; omega
  have b1 : ∀ w : FWord, w.imm = p.val + chk.toNat * 16 + tag.val * 32 → w.immBits 4 1 = chk.toNat := fun w q => by
    rw [FWord.immBits, q]; omega
  have b2 : ∀ w : FWord, w.imm = p.val + chk.toNat * 16 + tag.val * 32 → w.immBits 5 6 = tag.val := fun w q => by
    rw [FWord.immBits, q]; omega
  rw [e, decode_fEnc (hf := by constructor <;> simp <;> omega)]
  refine (decodeF_ok rfl rfl ?_).trans ?_ <;>
    simp [Shape.accepts, Shape.reservedOk, FClass.resvOk, Shape.maskOk, FClass.chainable, litOk, FClass.regOk, FClass.size, FWord.withEnc, fldN_val, FWord.hdr, hm, b0, b1, b2, toNat_beq_one]

theorem Sys2Proof.Laws.Exact.plgatv (h : Hdr) (d : Fin 64) (a : CVec) (m : Fin 8) (p : Fin 16) : Sys2Proof.Laws.Exact.Statement (.plgatv h d a m p) := by
  intro hwf _ _
  have e : encode (.plgatv h d a m p) = fEnc h none { opc := 0x68, fn := 4, d := d.val, a := a.r.val, ca := a.ch, m := m.val, imm := p.val } := rfl
  have ap : ¬ d.val = a.r.val := apart_ne hwf
  have hm : (p.val) &&& 15 = p.val := and_mask 4 (by omega)
  have b0 : ∀ w : FWord, w.imm = p.val → w.immBits 0 4 = p.val := fun w q => by
    rw [FWord.immBits, q]; omega
  rw [e, decode_fEnc (hf := by constructor <;> simp <;> omega)]
  refine (decodeF_ok rfl rfl ?_).trans ?_ <;>
    simp [Shape.accepts, Shape.reservedOk, FClass.resvOk, Shape.maskOk, FClass.chainable, litOk, FClass.regOk, FClass.size, FWord.withEnc, fldN_val, FWord.hdr, hm, b0, ap]

theorem Sys2Proof.Laws.Exact.plscatAdd (h : Hdr) (d : Fin 32) (a : Fin 32) (b : CVec) (m : Fin 8) (p : Fin 16) (chk : Bool) : Sys2Proof.Laws.Exact.Statement (.plscatAdd h d a b m p chk) := by
  intro hwf _ _
  have e : encode (.plscatAdd h d a b m p chk) = fEnc h none { opc := 0x68, fn := 5, d := d.val, a := a.val, b := b.r.val, cb := b.ch, m := m.val, imm := p.val + chk.toNat * 16 } := rfl
  have cl := Bool.toNat_lt chk
  have hm : (p.val + chk.toNat * 16) &&& 255 = p.val + chk.toNat * 16 := and_mask 8 (by omega)
  have b0 : ∀ w : FWord, w.imm = p.val + chk.toNat * 16 → w.immBits 0 4 = p.val := fun w q => by
    rw [FWord.immBits, q]; omega
  have b1 : ∀ w : FWord, w.imm = p.val + chk.toNat * 16 → w.immBits 4 1 = chk.toNat := fun w q => by
    rw [FWord.immBits, q]; omega
  have b2 : ∀ w : FWord, w.imm = p.val + chk.toNat * 16 → w.immBits 5 3 = 0 := fun w q => by
    rw [FWord.immBits, q]; omega
  rw [e, decode_fEnc (hf := by constructor <;> simp <;> omega)]
  refine (decodeF_ok rfl rfl ?_).trans ?_ <;>
    simp [Shape.accepts, Shape.reservedOk, FClass.resvOk, Shape.maskOk, FClass.chainable, litOk, FClass.regOk, FClass.size, FWord.withEnc, fldN_val, FWord.hdr, hm, b0, b1, b2, toNat_beq_one]

theorem Sys2Proof.Laws.Exact.plscatMin (h : Hdr) (d : Fin 32) (a : Fin 32) (b : CVec) (m : Fin 8) (p : Fin 16) (chk : Bool) : Sys2Proof.Laws.Exact.Statement (.plscatMin h d a b m p chk) := by
  intro hwf _ _
  have e : encode (.plscatMin h d a b m p chk) = fEnc h none { opc := 0x68, fn := 5, d := d.val, a := a.val, b := b.r.val, cb := b.ch, m := m.val, imm := p.val + chk.toNat * 16 + 32 } := rfl
  have cl := Bool.toNat_lt chk
  have hm : (p.val + chk.toNat * 16 + 32) &&& 255 = p.val + chk.toNat * 16 + 32 := and_mask 8 (by omega)
  have b0 : ∀ w : FWord, w.imm = p.val + chk.toNat * 16 + 32 → w.immBits 0 4 = p.val := fun w q => by
    rw [FWord.immBits, q]; omega
  have b1 : ∀ w : FWord, w.imm = p.val + chk.toNat * 16 + 32 → w.immBits 4 1 = chk.toNat := fun w q => by
    rw [FWord.immBits, q]; omega
  have b2 : ∀ w : FWord, w.imm = p.val + chk.toNat * 16 + 32 → w.immBits 5 3 = 1 := fun w q => by
    rw [FWord.immBits, q]; omega
  rw [e, decode_fEnc (hf := by constructor <;> simp <;> omega)]
  refine (decodeF_ok rfl rfl ?_).trans ?_ <;>
    simp [Shape.accepts, Shape.reservedOk, FClass.resvOk, Shape.maskOk, FClass.chainable, litOk, FClass.regOk, FClass.size, FWord.withEnc, fldN_val, FWord.hdr, hm, b0, b1, b2, toNat_beq_one]

theorem Sys2Proof.Laws.Exact.plscatMax (h : Hdr) (d : Fin 32) (a : Fin 32) (b : CVec) (m : Fin 8) (p : Fin 16) (chk : Bool) : Sys2Proof.Laws.Exact.Statement (.plscatMax h d a b m p chk) := by
  intro hwf _ _
  have e : encode (.plscatMax h d a b m p chk) = fEnc h none { opc := 0x68, fn := 5, d := d.val, a := a.val, b := b.r.val, cb := b.ch, m := m.val, imm := p.val + chk.toNat * 16 + 64 } := rfl
  have cl := Bool.toNat_lt chk
  have hm : (p.val + chk.toNat * 16 + 64) &&& 255 = p.val + chk.toNat * 16 + 64 := and_mask 8 (by omega)
  have b0 : ∀ w : FWord, w.imm = p.val + chk.toNat * 16 + 64 → w.immBits 0 4 = p.val := fun w q => by
    rw [FWord.immBits, q]; omega
  have b1 : ∀ w : FWord, w.imm = p.val + chk.toNat * 16 + 64 → w.immBits 4 1 = chk.toNat := fun w q => by
    rw [FWord.immBits, q]; omega
  have b2 : ∀ w : FWord, w.imm = p.val + chk.toNat * 16 + 64 → w.immBits 5 3 = 2 := fun w q => by
    rw [FWord.immBits, q]; omega
  rw [e, decode_fEnc (hf := by constructor <;> simp <;> omega)]
  refine (decodeF_ok rfl rfl ?_).trans ?_ <;>
    simp [Shape.accepts, Shape.reservedOk, FClass.resvOk, Shape.maskOk, FClass.chainable, litOk, FClass.regOk, FClass.size, FWord.withEnc, fldN_val, FWord.hdr, hm, b0, b1, b2, toNat_beq_one]

theorem Sys2Proof.Laws.Exact.plscatFirst (h : Hdr) (d : Fin 32) (a : Fin 32) (b : CVec) (m : Fin 8) (p : Fin 16) (chk : Bool) : Sys2Proof.Laws.Exact.Statement (.plscatFirst h d a b m p chk) := by
  intro hwf _ _
  have e : encode (.plscatFirst h d a b m p chk) = fEnc h none { opc := 0x68, fn := 5, d := d.val, a := a.val, b := b.r.val, cb := b.ch, m := m.val, imm := p.val + chk.toNat * 16 + 96 } := rfl
  have cl := Bool.toNat_lt chk
  have hm : (p.val + chk.toNat * 16 + 96) &&& 255 = p.val + chk.toNat * 16 + 96 := and_mask 8 (by omega)
  have b0 : ∀ w : FWord, w.imm = p.val + chk.toNat * 16 + 96 → w.immBits 0 4 = p.val := fun w q => by
    rw [FWord.immBits, q]; omega
  have b1 : ∀ w : FWord, w.imm = p.val + chk.toNat * 16 + 96 → w.immBits 4 1 = chk.toNat := fun w q => by
    rw [FWord.immBits, q]; omega
  have b2 : ∀ w : FWord, w.imm = p.val + chk.toNat * 16 + 96 → w.immBits 5 3 = 3 := fun w q => by
    rw [FWord.immBits, q]; omega
  rw [e, decode_fEnc (hf := by constructor <;> simp <;> omega)]
  refine (decodeF_ok rfl rfl ?_).trans ?_ <;>
    simp [Shape.accepts, Shape.reservedOk, FClass.resvOk, Shape.maskOk, FClass.chainable, litOk, FClass.regOk, FClass.size, FWord.withEnc, fldN_val, FWord.hdr, hm, b0, b1, b2, toNat_beq_one]

theorem Sys2Proof.Laws.Exact.plscatLast (h : Hdr) (d : Fin 32) (a : Fin 32) (b : CVec) (m : Fin 8) (p : Fin 16) (chk : Bool) : Sys2Proof.Laws.Exact.Statement (.plscatLast h d a b m p chk) := by
  intro hwf _ _
  have e : encode (.plscatLast h d a b m p chk) = fEnc h none { opc := 0x68, fn := 5, d := d.val, a := a.val, b := b.r.val, cb := b.ch, m := m.val, imm := p.val + chk.toNat * 16 + 128 } := rfl
  have cl := Bool.toNat_lt chk
  have hm : (p.val + chk.toNat * 16 + 128) &&& 255 = p.val + chk.toNat * 16 + 128 := and_mask 8 (by omega)
  have b0 : ∀ w : FWord, w.imm = p.val + chk.toNat * 16 + 128 → w.immBits 0 4 = p.val := fun w q => by
    rw [FWord.immBits, q]; omega
  have b1 : ∀ w : FWord, w.imm = p.val + chk.toNat * 16 + 128 → w.immBits 4 1 = chk.toNat := fun w q => by
    rw [FWord.immBits, q]; omega
  have b2 : ∀ w : FWord, w.imm = p.val + chk.toNat * 16 + 128 → w.immBits 5 3 = 4 := fun w q => by
    rw [FWord.immBits, q]; omega
  rw [e, decode_fEnc (hf := by constructor <;> simp <;> omega)]
  refine (decodeF_ok rfl rfl ?_).trans ?_ <;>
    simp [Shape.accepts, Shape.reservedOk, FClass.resvOk, Shape.maskOk, FClass.chainable, litOk, FClass.regOk, FClass.size, FWord.withEnc, fldN_val, FWord.hdr, hm, b0, b1, b2, toNat_beq_one]

theorem Sys2Proof.Laws.Exact.plscatAmoadd (h : Hdr) (d : Fin 32) (a : Fin 32) (b : CVec) (m : Fin 8) (p : Fin 16) (chk : Bool) : Sys2Proof.Laws.Exact.Statement (.plscatAmoadd h d a b m p chk) := by
  intro hwf _ _
  have e : encode (.plscatAmoadd h d a b m p chk) = fEnc h none { opc := 0x68, fn := 5, d := d.val, a := a.val, b := b.r.val, cb := b.ch, m := m.val, imm := p.val + chk.toNat * 16 + 160 } := rfl
  have cl := Bool.toNat_lt chk
  have hm : (p.val + chk.toNat * 16 + 160) &&& 255 = p.val + chk.toNat * 16 + 160 := and_mask 8 (by omega)
  have b0 : ∀ w : FWord, w.imm = p.val + chk.toNat * 16 + 160 → w.immBits 0 4 = p.val := fun w q => by
    rw [FWord.immBits, q]; omega
  have b1 : ∀ w : FWord, w.imm = p.val + chk.toNat * 16 + 160 → w.immBits 4 1 = chk.toNat := fun w q => by
    rw [FWord.immBits, q]; omega
  have b2 : ∀ w : FWord, w.imm = p.val + chk.toNat * 16 + 160 → w.immBits 5 3 = 5 := fun w q => by
    rw [FWord.immBits, q]; omega
  rw [e, decode_fEnc (hf := by constructor <;> simp <;> omega)]
  refine (decodeF_ok rfl rfl ?_).trans ?_ <;>
    simp [Shape.accepts, Shape.reservedOk, FClass.resvOk, Shape.maskOk, FClass.chainable, litOk, FClass.regOk, FClass.size, FWord.withEnc, fldN_val, FWord.hdr, hm, b0, b1, b2, toNat_beq_one]

theorem Sys2Proof.Laws.Exact.plredAdd (h : Hdr) (d : Fin 64) (a : CVec) (m : Fin 8) (p : Fin 16) : Sys2Proof.Laws.Exact.Statement (.plredAdd h d a m p) := by
  intro hwf _ _
  have e : encode (.plredAdd h d a m p) = fEnc h none { opc := 0x68, fn := 6, d := d.val, a := a.r.val, ca := a.ch, m := m.val, imm := p.val } := rfl
  have ap : ¬ d.val = a.r.val := apart_ne hwf
  have hm : p.val &&& 111 = p.val := plred_mask p 0 (by omega)
  have b0 : ∀ w : FWord, w.imm = p.val → w.immBits 0 4 = p.val := fun w q => by
    rw [FWord.immBits, q]; omega
  have b1 : ∀ w : FWord, w.imm = p.val → w.immBits 5 2 = 0 := fun w q => by
    rw [FWord.immBits, q]; omega
  rw [e, decode_fEnc (hf := by constructor <;> simp <;> omega)]
  refine (decodeF_ok rfl rfl ?_).trans ?_ <;>
    simp [Shape.accepts, Shape.reservedOk, FClass.resvOk, Shape.maskOk, FClass.chainable, litOk, FClass.regOk, FClass.size, FWord.withEnc, fldN_val, FWord.hdr, b0, b1, ap, hm]

theorem Sys2Proof.Laws.Exact.plredMin (h : Hdr) (d : Fin 64) (a : CVec) (m : Fin 8) (p : Fin 16) : Sys2Proof.Laws.Exact.Statement (.plredMin h d a m p) := by
  intro hwf _ _
  have e : encode (.plredMin h d a m p) = fEnc h none { opc := 0x68, fn := 6, d := d.val, a := a.r.val, ca := a.ch, m := m.val, imm := p.val + 32 } := rfl
  have ap : ¬ d.val = a.r.val := apart_ne hwf
  have hm : p.val + 32 &&& 111 = p.val + 32 := plred_mask p 1 (by omega)
  have b0 : ∀ w : FWord, w.imm = p.val + 32 → w.immBits 0 4 = p.val := fun w q => by
    rw [FWord.immBits, q]; omega
  have b1 : ∀ w : FWord, w.imm = p.val + 32 → w.immBits 5 2 = 1 := fun w q => by
    rw [FWord.immBits, q]; omega
  rw [e, decode_fEnc (hf := by constructor <;> simp <;> omega)]
  refine (decodeF_ok rfl rfl ?_).trans ?_ <;>
    simp [Shape.accepts, Shape.reservedOk, FClass.resvOk, Shape.maskOk, FClass.chainable, litOk, FClass.regOk, FClass.size, FWord.withEnc, fldN_val, FWord.hdr, b0, b1, ap, hm]

theorem Sys2Proof.Laws.Exact.plredMax (h : Hdr) (d : Fin 64) (a : CVec) (m : Fin 8) (p : Fin 16) : Sys2Proof.Laws.Exact.Statement (.plredMax h d a m p) := by
  intro hwf _ _
  have e : encode (.plredMax h d a m p) = fEnc h none { opc := 0x68, fn := 6, d := d.val, a := a.r.val, ca := a.ch, m := m.val, imm := p.val + 64 } := rfl
  have ap : ¬ d.val = a.r.val := apart_ne hwf
  have hm : p.val + 64 &&& 111 = p.val + 64 := plred_mask p 2 (by omega)
  have b0 : ∀ w : FWord, w.imm = p.val + 64 → w.immBits 0 4 = p.val := fun w q => by
    rw [FWord.immBits, q]; omega
  have b1 : ∀ w : FWord, w.imm = p.val + 64 → w.immBits 5 2 = 2 := fun w q => by
    rw [FWord.immBits, q]; omega
  rw [e, decode_fEnc (hf := by constructor <;> simp <;> omega)]
  refine (decodeF_ok rfl rfl ?_).trans ?_ <;>
    simp [Shape.accepts, Shape.reservedOk, FClass.resvOk, Shape.maskOk, FClass.chainable, litOk, FClass.regOk, FClass.size, FWord.withEnc, fldN_val, FWord.hdr, b0, b1, ap, hm]

theorem Sys2Proof.Laws.Exact.plbcast (h : Hdr) (d : Fin 64) (a : CVec) (p : Fin 16) : Sys2Proof.Laws.Exact.Statement (.plbcast h d a p) := by
  intro _ _ _
  have e : encode (.plbcast h d a p) = fEnc h none { opc := 0x68, fn := 7, d := d.val, a := a.r.val, ca := a.ch, imm := p.val } := rfl
  have hm : (p.val) &&& 15 = p.val := and_mask 4 (by omega)
  have b0 : ∀ w : FWord, w.imm = p.val → w.immBits 0 4 = p.val := fun w q => by
    rw [FWord.immBits, q]; omega
  rw [e, decode_fEnc (hf := by constructor <;> simp <;> omega)]
  refine (decodeF_ok rfl rfl ?_).trans ?_ <;>
    simp [Shape.accepts, Shape.reservedOk, FClass.resvOk, Shape.maskOk, FClass.chainable, litOk, FClass.regOk, FClass.size, FWord.withEnc, fldN_val, FWord.hdr, hm, b0]

theorem Sys2Proof.Laws.Exact.plcomp (h : Hdr) (d : Fin 16) (a : Fin 16) (b : Fin 16) : Sys2Proof.Laws.Exact.Statement (.plcomp h d a b) := by
  intro hwf _ _
  have e : encode (.plcomp h d a b) = fEnc h none { opc := 0x68, fn := 8, d := d.val, a := a.val, b := b.val } := rfl
  rw [e, decode_fEnc (hf := by constructor <;> simp <;> omega)]
  refine (decodeF_ok rfl rfl ?_).trans ?_ <;>
    simp [Shape.accepts, Shape.reservedOk, FClass.resvOk, Shape.maskOk, FClass.chainable, litOk, FClass.regOk, FClass.size, FWord.withEnc, literal_litNext, Imm.isLit, Imm.immVal, fldN_val, FWord.hdr, FWord.immv, FWord.immBits, FWord.immBv]

theorem Sys2Proof.Laws.Exact.plinfo (h : Hdr) (d : Fin 32) (a : Fin 16) (sel : BitVec 8) : Sys2Proof.Laws.Exact.Statement (.plinfo h d a sel) := by
  intro hwf _ _
  have e : encode (.plinfo h d a sel) = fEnc h none { opc := 0x68, fn := 9, d := d.val, a := a.val, imm := sel.toNat } := rfl
  have w : plinfoSelOk sel.toNat = true := hwf
  have hm : (sel.toNat) &&& 255 = sel.toNat := and_mask 8 (by omega)
  have b0 : ∀ w : FWord, w.imm = sel.toNat → w.immBits 0 8 = sel.toNat := fun w q => by
    rw [FWord.immBits, q]; omega
  have v0 : ∀ w : FWord, w.imm = sel.toNat → w.immBv 0 8 = sel := fun w q => by
    rw [FWord.immBv, q]; apply BitVec.eq_of_toNat_eq; rw [BitVec.toNat_ofNat]; omega
  rw [e, decode_fEnc (hf := by constructor <;> simp <;> omega)]
  refine (decodeF_ok rfl rfl ?_).trans ?_ <;>
    simp [Shape.accepts, Shape.reservedOk, FClass.resvOk, Shape.maskOk, FClass.chainable, litOk, FClass.regOk, FClass.size, FWord.withEnc, fldN_val, FWord.hdr, hm, b0, v0, w]

theorem Sys2Proof.Laws.Exact.plchk (h : Hdr) (d : Fin 32) (a : Fin 16) : Sys2Proof.Laws.Exact.Statement (.plchk h d a) := by
  intro hwf _ _
  have e : encode (.plchk h d a) = fEnc h none { opc := 0x68, fn := 10, d := d.val, a := a.val } := rfl
  rw [e, decode_fEnc (hf := by constructor <;> simp <;> omega)]
  refine (decodeF_ok rfl rfl ?_).trans ?_ <;>
    simp [Shape.accepts, Shape.reservedOk, FClass.resvOk, Shape.maskOk, FClass.chainable, litOk, FClass.regOk, FClass.size, FWord.withEnc, literal_litNext, Imm.isLit, Imm.immVal, fldN_val, FWord.hdr, FWord.immv, FWord.immBits, FWord.immBv]

theorem Sys2Proof.Laws.Exact.plsave (h : Hdr) (a : Fin 32) (b : Fin 16) : Sys2Proof.Laws.Exact.Statement (.plsave h a b) := by
  intro hwf _ _
  have e : encode (.plsave h a b) = fEnc h none { opc := 0x68, fn := 11, a := a.val, b := b.val } := rfl
  rw [e, decode_fEnc (hf := by constructor <;> simp <;> omega)]
  refine (decodeF_ok rfl rfl ?_).trans ?_ <;>
    simp [Shape.accepts, Shape.reservedOk, FClass.resvOk, Shape.maskOk, FClass.chainable, litOk, FClass.regOk, FClass.size, FWord.withEnc, literal_litNext, Imm.isLit, Imm.immVal, fldN_val, FWord.hdr, FWord.immv, FWord.immBits, FWord.immBv]

theorem Sys2Proof.Laws.Exact.plload (h : Hdr) (d : Fin 16) (a : Fin 32) : Sys2Proof.Laws.Exact.Statement (.plload h d a) := by
  intro hwf _ _
  have e : encode (.plload h d a) = fEnc h none { opc := 0x68, fn := 12, d := d.val, a := a.val } := rfl
  rw [e, decode_fEnc (hf := by constructor <;> simp <;> omega)]
  refine (decodeF_ok rfl rfl ?_).trans ?_ <;>
    simp [Shape.accepts, Shape.reservedOk, FClass.resvOk, Shape.maskOk, FClass.chainable, litOk, FClass.regOk, FClass.size, FWord.withEnc, literal_litNext, Imm.isLit, Imm.immVal, fldN_val, FWord.hdr, FWord.immv, FWord.immBits, FWord.immBv]

theorem Sys2Proof.Laws.Exact.plfree (h : Hdr) (d : Fin 16) : Sys2Proof.Laws.Exact.Statement (.plfree h d) := by
  intro hwf _ _
  have e : encode (.plfree h d) = fEnc h none { opc := 0x68, fn := 13, d := d.val } := rfl
  rw [e, decode_fEnc (hf := by constructor <;> simp <;> omega)]
  refine (decodeF_ok rfl rfl ?_).trans ?_ <;>
    simp [Shape.accepts, Shape.reservedOk, FClass.resvOk, Shape.maskOk, FClass.chainable, litOk, FClass.regOk, FClass.size, FWord.withEnc, literal_litNext, Imm.isLit, Imm.immVal, fldN_val, FWord.hdr, FWord.immv, FWord.immBits, FWord.immBv]

theorem Sys2Proof.Laws.Exact.opa (h : Hdr) (d : Fin 4) (a : CVec) (b : OpaB) (m : Fin 8) (fa : Fmt) (fb : Fmt) (qt : Fin 4) : Sys2Proof.Laws.Exact.Statement (.opa h d a b m fa fb qt) := by
  intro hwf _ _
  have e : encode (.opa h d a b m fa fb qt) = fEnc h none { opc := 0x70, fn := 0, form := b.formVal, d := d.val, a := a.r.val, ca := a.ch, b := b.bVal, cb := b.chVal, m := m.val, imm := fa.code + fb.code * 16 + qt.val * 256 } := rfl
  have la := fa.code_lt
  have lb := fb.code_lt
  have w : (opaFmt true fa && opaFmt true fb && (qt == 0 || fa == .q4 || fb == .q4)) = true := hwf
  have w := opa_ok w
  have hm : (fa.code + fb.code * 16 + qt.val * 256) &&& 1023 = fa.code + fb.code * 16 + qt.val * 256 := and_mask 10 (by omega)
  have b0 : ∀ w : FWord, w.imm = fa.code + fb.code * 16 + qt.val * 256 → w.immBits 0 4 = fa.code := fun w q => by
    rw [FWord.immBits, q]; omega
  have b1 : ∀ w : FWord, w.imm = fa.code + fb.code * 16 + qt.val * 256 → w.immBits 4 4 = fb.code := fun w q => by
    rw [FWord.immBits, q]; omega
  have b2 : ∀ w : FWord, w.imm = fa.code + fb.code * 16 + qt.val * 256 → w.immBits 8 2 = qt.val := fun w q => by
    rw [FWord.immBits, q]; omega
  rcases b with v | r <;>
  · rw [e, decode_fEnc (hf := by constructor <;> simp [OpaB.formVal, OpaB.bVal, OpaB.chVal, FWord.opaB] <;> omega)]
    refine (decodeF_ok rfl rfl ?_).trans ?_ <;>
      simp [Shape.accepts, Shape.reservedOk, FClass.resvOk, Shape.maskOk, FClass.chainable, litOk, FClass.regOk, FClass.size, FWord.withEnc, fldN_val, FWord.hdr, FWord.immv, literal_litNext, Imm.isLit, Imm.immVal, hm, b0, b1, b2, OpaB.formVal, OpaB.bVal, OpaB.chVal, FWord.opaB, FWord.fmt, fmtOf_code, opaQtOk, w.1, w.2.1, w.2.2]

theorem Sys2Proof.Laws.Exact.opa2 (h : Hdr) (d : Fin 4) (a : CVec) (b : OpaB) (m : Fin 8) (fa : Fmt) (fb : Fmt) (qt : Fin 4) : Sys2Proof.Laws.Exact.Statement (.opa2 h d a b m fa fb qt) := by
  intro hwf _ _
  have e : encode (.opa2 h d a b m fa fb qt) = fEnc h none { opc := 0x70, fn := 1, form := b.formVal, d := d.val, a := a.r.val, ca := a.ch, b := b.bVal, cb := b.chVal, m := m.val, imm := fa.code + fb.code * 16 + qt.val * 256 } := rfl
  have la := fa.code_lt
  have lb := fb.code_lt
  have w : (opaFmt false fa && opaFmt false fb && (qt == 0 || fa == .q4 || fb == .q4)) = true := hwf
  have w := opa_ok w
  have hm : (fa.code + fb.code * 16 + qt.val * 256) &&& 1023 = fa.code + fb.code * 16 + qt.val * 256 := and_mask 10 (by omega)
  have b0 : ∀ w : FWord, w.imm = fa.code + fb.code * 16 + qt.val * 256 → w.immBits 0 4 = fa.code := fun w q => by
    rw [FWord.immBits, q]; omega
  have b1 : ∀ w : FWord, w.imm = fa.code + fb.code * 16 + qt.val * 256 → w.immBits 4 4 = fb.code := fun w q => by
    rw [FWord.immBits, q]; omega
  have b2 : ∀ w : FWord, w.imm = fa.code + fb.code * 16 + qt.val * 256 → w.immBits 8 2 = qt.val := fun w q => by
    rw [FWord.immBits, q]; omega
  rcases b with v | r <;>
  · rw [e, decode_fEnc (hf := by constructor <;> simp [OpaB.formVal, OpaB.bVal, OpaB.chVal, FWord.opaB] <;> omega)]
    refine (decodeF_ok rfl rfl ?_).trans ?_ <;>
      simp [Shape.accepts, Shape.reservedOk, FClass.resvOk, Shape.maskOk, FClass.chainable, litOk, FClass.regOk, FClass.size, FWord.withEnc, fldN_val, FWord.hdr, FWord.immv, literal_litNext, Imm.isLit, Imm.immVal, hm, b0, b1, b2, OpaB.formVal, OpaB.bVal, OpaB.chVal, FWord.opaB, FWord.fmt, fmtOf_code, opaQtOk, w.1, w.2.1, w.2.2]

theorem Sys2Proof.Laws.Exact.opamx (h : Hdr) (d : Fin 4) (a : CVec) (b : CVec) (m : Fin 8) (fa : Fmt) (fb : Fmt) (sa : Fin 8) (sb : Fin 8) : Sys2Proof.Laws.Exact.Statement (.opamx h d a b m fa fb sa sb) := by
  intro hwf _ _
  have e : encode (.opamx h d a b m fa fb sa sb) = fEnc h none { opc := 0x70, fn := 2, d := d.val, a := a.r.val, ca := a.ch, b := b.r.val, cb := b.ch, m := m.val, imm := fa.code + fb.code * 16 + sa.val * 256 + sb.val * 2048 } := rfl
  have la := fa.code_lt
  have lb := fb.code_lt
  have w : (mxFmt fa && mxFmt fb) = true := hwf
  have w := mx_ok w
  have hm : (fa.code + fb.code * 16 + sa.val * 256 + sb.val * 2048) &&& 16383 = fa.code + fb.code * 16 + sa.val * 256 + sb.val * 2048 := and_mask 14 (by omega)
  have b0 : ∀ w : FWord, w.imm = fa.code + fb.code * 16 + sa.val * 256 + sb.val * 2048 → w.immBits 0 4 = fa.code := fun w q => by
    rw [FWord.immBits, q]; omega
  have b1 : ∀ w : FWord, w.imm = fa.code + fb.code * 16 + sa.val * 256 + sb.val * 2048 → w.immBits 4 4 = fb.code := fun w q => by
    rw [FWord.immBits, q]; omega
  have b2 : ∀ w : FWord, w.imm = fa.code + fb.code * 16 + sa.val * 256 + sb.val * 2048 → w.immBits 8 3 = sa.val := fun w q => by
    rw [FWord.immBits, q]; omega
  have b3 : ∀ w : FWord, w.imm = fa.code + fb.code * 16 + sa.val * 256 + sb.val * 2048 → w.immBits 11 3 = sb.val := fun w q => by
    rw [FWord.immBits, q]; omega
  rw [e, decode_fEnc (hf := by constructor <;> simp <;> omega)]
  refine (decodeF_ok rfl rfl ?_).trans ?_ <;>
    simp [Shape.accepts, Shape.reservedOk, FClass.resvOk, Shape.maskOk, FClass.chainable, litOk, FClass.regOk, FClass.size, FWord.withEnc, fldN_val, FWord.hdr, hm, b0, b1, b2, b3, FWord.fmt, fmtOf_code, w.1, w.2]

theorem Sys2Proof.Laws.Exact.tzero (h : Hdr) (d : Fin 4) (int : Bool) : Sys2Proof.Laws.Exact.Statement (.tzero h d int) := by
  intro hwf _ _
  have e : encode (.tzero h d int) = fEnc h none { opc := 0x70, fn := 3, d := d.val, imm := int.toNat } := rfl
  have cl := Bool.toNat_lt int
  have hm : (int.toNat) &&& 1 = int.toNat := and_mask 1 (by omega)
  have b0 : ∀ w : FWord, w.imm = int.toNat → w.immBits 0 1 = int.toNat := fun w q => by
    rw [FWord.immBits, q]; omega
  rw [e, decode_fEnc (hf := by constructor <;> simp <;> omega)]
  refine (decodeF_ok rfl rfl ?_).trans ?_ <;>
    simp [Shape.accepts, Shape.reservedOk, FClass.resvOk, Shape.maskOk, FClass.chainable, litOk, FClass.regOk, FClass.size, FWord.withEnc, fldN_val, FWord.hdr, hm, b0, toNat_beq_one]

theorem Sys2Proof.Laws.Exact.tld (h : Hdr) (d : Fin 4) (a : CVec) (b : Fin 32) (m : Fin 8) : Sys2Proof.Laws.Exact.Statement (.tld h d a b m) := by
  intro hwf _ _
  have e : encode (.tld h d a b m) = fEnc h none { opc := 0x70, fn := 4, form := 1, d := d.val, a := a.r.val, ca := a.ch, b := b.val, m := m.val } := rfl
  rw [e, decode_fEnc (hf := by constructor <;> simp <;> omega)]
  refine (decodeF_ok rfl rfl ?_).trans ?_ <;>
    simp [Shape.accepts, Shape.reservedOk, FClass.resvOk, Shape.maskOk, FClass.chainable, litOk, FClass.regOk, FClass.size, FWord.withEnc, literal_litNext, Imm.isLit, Imm.immVal, fldN_val, FWord.hdr, FWord.immv, FWord.immBits, FWord.immBv]

theorem Sys2Proof.Laws.Exact.tst (h : Hdr) (d : Fin 64) (a : Fin 4) (b : Fin 32) (m : Fin 8) (tr : Bool) : Sys2Proof.Laws.Exact.Statement (.tst h d a b m tr) := by
  intro hwf _ _
  have e : encode (.tst h d a b m tr) = fEnc h none { opc := 0x70, fn := 5, form := 1, d := d.val, a := a.val, b := b.val, m := m.val, imm := tr.toNat } := rfl
  have cl := Bool.toNat_lt tr
  have hm : (tr.toNat) &&& 1 = tr.toNat := and_mask 1 (by omega)
  have b0 : ∀ w : FWord, w.imm = tr.toNat → w.immBits 0 1 = tr.toNat := fun w q => by
    rw [FWord.immBits, q]; omega
  rw [e, decode_fEnc (hf := by constructor <;> simp <;> omega)]
  refine (decodeF_ok rfl rfl ?_).trans ?_ <;>
    simp [Shape.accepts, Shape.reservedOk, FClass.resvOk, Shape.maskOk, FClass.chainable, litOk, FClass.regOk, FClass.size, FWord.withEnc, fldN_val, FWord.hdr, hm, b0, toNat_beq_one]

theorem Sys2Proof.Laws.Exact.clcfg (h : Hdr) (a : Fin 32) (b : Fin 32) : Sys2Proof.Laws.Exact.Statement (.clcfg h a b) := by
  intro hwf _ _
  have e : encode (.clcfg h a b) = fEnc h none { opc := 0x78, fn := 0, form := 1, a := a.val, b := b.val } := rfl
  rw [e, decode_fEnc (hf := by constructor <;> simp <;> omega)]
  refine (decodeF_ok rfl rfl ?_).trans ?_ <;>
    simp [Shape.accepts, Shape.reservedOk, FClass.resvOk, Shape.maskOk, FClass.chainable, litOk, FClass.regOk, FClass.size, FWord.withEnc, literal_litNext, Imm.isLit, Imm.immVal, fldN_val, FWord.hdr, FWord.immv, FWord.immBits, FWord.immBv]

theorem Sys2Proof.Laws.Exact.clins (h : Hdr) (d : Fin 64) (a : CVec) (b : CVec) (m : Fin 8) (fk : Fin 8) : Sys2Proof.Laws.Exact.Statement (.clins h d a b m fk) := by
  intro hwf _ _
  have e : encode (.clins h d a b m fk) = fEnc h none { opc := 0x78, fn := 1, d := d.val, a := a.r.val, ca := a.ch, b := b.r.val, cb := b.ch, m := m.val, fk := fk.val } := rfl
  rw [e, decode_fEnc (hf := by constructor <;> simp <;> omega)]
  refine (decodeF_ok rfl rfl ?_).trans ?_ <;>
    simp [Shape.accepts, Shape.reservedOk, FClass.resvOk, Shape.maskOk, FClass.chainable, litOk, FClass.regOk, FClass.size, FWord.withEnc, literal_litNext, Imm.isLit, Imm.immVal, fldN_val, FWord.hdr, FWord.immv, FWord.immBits, FWord.immBv]

theorem Sys2Proof.Laws.Exact.clmrg (h : Hdr) (d : Fin 32) : Sys2Proof.Laws.Exact.Statement (.clmrg h d) := by
  intro hwf _ _
  have e : encode (.clmrg h d) = fEnc h none { opc := 0x78, fn := 2, d := d.val } := rfl
  rw [e, decode_fEnc (hf := by constructor <;> simp <;> omega)]
  refine (decodeF_ok rfl rfl ?_).trans ?_ <;>
    simp [Shape.accepts, Shape.reservedOk, FClass.resvOk, Shape.maskOk, FClass.chainable, litOk, FClass.regOk, FClass.size, FWord.withEnc, literal_litNext, Imm.isLit, Imm.immVal, fldN_val, FWord.hdr, FWord.immv, FWord.immBits, FWord.immBv]

theorem Sys2Proof.Laws.Exact.clrd (h : Hdr) (d : Fin 64) (a : Fin 32) (fld : BitVec 2) : Sys2Proof.Laws.Exact.Statement (.clrd h d a fld) := by
  intro hwf _ _
  have e : encode (.clrd h d a fld) = fEnc h none { opc := 0x78, fn := 3, d := d.val, a := a.val, imm := fld.toNat } := rfl
  have hm : (fld.toNat) &&& 3 = fld.toNat := and_mask 2 (by omega)
  have v0 : ∀ w : FWord, w.imm = fld.toNat → w.immBv 0 2 = fld := fun w q => by
    rw [FWord.immBv, q]; apply BitVec.eq_of_toNat_eq; rw [BitVec.toNat_ofNat]; omega
  rw [e, decode_fEnc (hf := by constructor <;> simp <;> omega)]
  refine (decodeF_ok rfl rfl ?_).trans ?_ <;>
    simp [Shape.accepts, Shape.reservedOk, FClass.resvOk, Shape.maskOk, FClass.chainable, litOk, FClass.regOk, FClass.size, FWord.withEnc, fldN_val, FWord.hdr, hm, v0]

theorem Sys2Proof.Laws.Exact.clclr (h : Hdr) : Sys2Proof.Laws.Exact.Statement (.clclr h) := by
  intro hwf _ _
  have e : encode (.clclr h) = fEnc h none { opc := 0x78, fn := 4 } := rfl
  rw [e, decode_fEnc (hf := by constructor <;> simp <;> omega)]
  refine (decodeF_ok rfl rfl ?_).trans ?_ <;>
    simp [Shape.accepts, Shape.reservedOk, FClass.resvOk, Shape.maskOk, FClass.chainable, litOk, FClass.regOk, FClass.size, FWord.withEnc, literal_litNext, Imm.isLit, Imm.immVal, fldN_val, FWord.hdr, FWord.immv, FWord.immBits, FWord.immBv]

theorem Sys2Proof.Laws.Exact.clstat (h : Hdr) (d : Fin 32) (sel : BitVec 4) : Sys2Proof.Laws.Exact.Statement (.clstat h d sel) := by
  intro hwf _ _
  have e : encode (.clstat h d sel) = fEnc h none { opc := 0x78, fn := 5, d := d.val, imm := sel.toNat } := rfl
  have w : decide (sel.toNat ≤ 7) = true := hwf
  have w : sel.toNat ≤ 7 := of_decide_eq_true w
  have hm : (sel.toNat) &&& 15 = sel.toNat := and_mask 4 (by omega)
  have b0 : ∀ w : FWord, w.imm = sel.toNat → w.immBits 0 4 = sel.toNat := fun w q => by
    rw [FWord.immBits, q]; omega
  have v0 : ∀ w : FWord, w.imm = sel.toNat → w.immBv 0 4 = sel := fun w q => by
    rw [FWord.immBv, q]; apply BitVec.eq_of_toNat_eq; rw [BitVec.toNat_ofNat]; omega
  rw [e, decode_fEnc (hf := by constructor <;> simp <;> omega)]
  refine (decodeF_ok rfl rfl ?_).trans ?_ <;>
    simp [Shape.accepts, Shape.reservedOk, FClass.resvOk, Shape.maskOk, FClass.chainable, litOk, FClass.regOk, FClass.size, FWord.withEnc, fldN_val, FWord.hdr, hm, b0, v0, w]

theorem Sys2Proof.Laws.Exact.pairWord (a : Slot) (b : Slot) : Sys2Proof.Laws.Exact.Statement (.pairWord a b) := by
  intro hwf _ _
  exact pair_word a b hwf

theorem Sys2Proof.Laws.Exact.pnop : Sys2Proof.Laws.Exact.Statement .pnop := by
  exact fun _ _ _ => rfl

theorem Sys2Proof.Laws.Exact.brg (g : Fin 8) (off : BitVec 19) : Sys2Proof.Laws.Exact.Statement (.brg g off) := by
  exact fun _ _ _ => brg_word g off

theorem Sys2Proof.Laws.Exact.rep (p : RepPrefix) (f : BitVec 64) (lit : Option (BitVec 62)) : Sys2Proof.Laws.Exact.Statement (.rep p f lit) := by
  exact fun hwf _ hr => rep_word p f lit hwf hr

theorem Sys2Proof.Laws.Exact.instructionFetch : Sys2Proof.Laws.Exact.Statement .instructionFetch := by
  exact fun _ h _ => absurd rfl h

theorem Sys2Proof.Laws.Exact.trapDelivery (t : Trap) : Sys2Proof.Laws.Exact.Statement (.trapDelivery t) := by
  exact fun _ h _ => absurd rfl h

theorem Sys2Proof.Laws.Exact.storeAtTarget (loc : HartLoc) : Sys2Proof.Laws.Exact.Statement (.storeAtTarget loc) := by
  exact fun _ h _ => absurd rfl h

theorem Sys2Proof.Laws.Exact.writeUnitPerform (u : WriteUnit) : Sys2Proof.Laws.Exact.Statement (.writeUnitPerform u) := by
  exact fun _ h _ => absurd rfl h

theorem Sys2Proof.Laws.Exact.mergingAddArrival (c : MergeAdd) : Sys2Proof.Laws.Exact.Statement (.mergingAddArrival c) := by
  exact fun _ h _ => absurd rfl h

theorem Sys2Proof.Laws.Exact.writeQueueApply (n : Nat) : Sys2Proof.Laws.Exact.Statement (.writeQueueApply n) := by
  exact fun _ h _ => absurd rfl h

theorem Sys2Proof.Laws.Exact.copyChunk (loc : HartLoc) (tag : Fin 64) : Sys2Proof.Laws.Exact.Statement (.copyChunk loc tag) := by
  exact fun _ h _ => absurd rfl h

theorem Sys2Proof.Laws.Exact.copyComplete (loc : HartLoc) (tag : Fin 64) : Sys2Proof.Laws.Exact.Statement (.copyComplete loc tag) := by
  exact fun _ h _ => absurd rfl h

theorem Sys2Proof.Laws.Exact.messageDelivery (dst : HartLoc) (msg : Message) : Sys2Proof.Laws.Exact.Statement (.messageDelivery dst msg) := by
  exact fun _ h _ => absurd rfl h

theorem Sys2Proof.Laws.Exact.creditGrant (dst : HartLoc) : Sys2Proof.Laws.Exact.Statement (.creditGrant dst) := by
  exact fun _ h _ => absurd rfl h

theorem Sys2Proof.Laws.Exact.gcsleepReevaluation (loc : HartLoc) : Sys2Proof.Laws.Exact.Statement (.gcsleepReevaluation loc) := by
  exact fun _ h _ => absurd rfl h

theorem Sys2Proof.Laws.Exact.recordCheck (fn : Nat) (q : Fin 16) : Sys2Proof.Laws.Exact.Statement (.recordCheck fn q) := by
  exact fun _ h _ => absurd rfl h

theorem Sys2Proof.Laws.Exact.dependenceRead (fn : Nat) (q : Fin 16) : Sys2Proof.Laws.Exact.Statement (.dependenceRead fn q) := by
  exact fun _ h _ => absurd rfl h

theorem Sys2Proof.Laws.Exact.crewPlacement (fn : Nat) : Sys2Proof.Laws.Exact.Statement (.crewPlacement fn) := by
  exact fun _ h _ => absurd rfl h

theorem Sys2Proof.Laws.Exact.preemption (launch : Nat) (crew : Nat) : Sys2Proof.Laws.Exact.Statement (.preemption launch crew) := by
  exact fun _ h _ => absurd rfl h

theorem Sys2Proof.Laws.Exact.resumption (launch : Nat) (crew : Nat) : Sys2Proof.Laws.Exact.Statement (.resumption launch crew) := by
  exact fun _ h _ => absurd rfl h

theorem Sys2Proof.Laws.Exact.budgetExpiry (launch : Nat) (crew : Nat) : Sys2Proof.Laws.Exact.Statement (.budgetExpiry launch crew) := by
  exact fun _ h _ => absurd rfl h

theorem Sys2Proof.Laws.Exact.gleanSweep (stack : Fin 12) : Sys2Proof.Laws.Exact.Statement (.gleanSweep stack) := by
  exact fun _ h _ => absurd rfl h

theorem Sys2Proof.Laws.Exact.conversionCommit (frame : Nat) : Sys2Proof.Laws.Exact.Statement (.conversionCommit frame) := by
  exact fun _ h _ => absurd rfl h

theorem Sys2Proof.Laws.Exact.version (h : Hdr) : Sys2Proof.Laws.Exact.Statement (.version h) := by
  exact fun _ _ _ => (svc_word h 0 (by omega)).trans (by simp [svcInstr, FWord.hdr, fldN_val])

theorem Sys2Proof.Laws.Exact.svcPartition (h : Hdr) : Sys2Proof.Laws.Exact.Statement (.svcPartition h) := by
  exact fun _ _ _ => (svc_word h 1 (by omega)).trans (by simp [svcInstr, FWord.hdr, fldN_val])

theorem Sys2Proof.Laws.Exact.frames (h : Hdr) : Sys2Proof.Laws.Exact.Statement (.frames h) := by
  exact fun _ _ _ => (svc_word h 2 (by omega)).trans (by simp [svcInstr, FWord.hdr, fldN_val])

theorem Sys2Proof.Laws.Exact.mapPages (v : Via) : Sys2Proof.Laws.Exact.Statement (.mapPages v) := by
  intro _ hne _
  rcases v with h | fn
  · exact (svc_word h 16 (by omega)).trans (by simp [svcInstr, FWord.hdr, fldN_val])
  · exact absurd rfl hne

theorem Sys2Proof.Laws.Exact.unmapPages (v : Via) : Sys2Proof.Laws.Exact.Statement (.unmapPages v) := by
  intro _ hne _
  rcases v with h | fn
  · exact (svc_word h 17 (by omega)).trans (by simp [svcInstr, FWord.hdr, fldN_val])
  · exact absurd rfl hne

theorem Sys2Proof.Laws.Exact.protectPages (v : Via) : Sys2Proof.Laws.Exact.Statement (.protectPages v) := by
  intro _ hne _
  rcases v with h | fn
  · exact (svc_word h 18 (by omega)).trans (by simp [svcInstr, FWord.hdr, fldN_val])
  · exact absurd rfl hne

theorem Sys2Proof.Laws.Exact.offerPages (v : Via) : Sys2Proof.Laws.Exact.Statement (.offerPages v) := by
  intro _ hne _
  rcases v with h | fn
  · exact (svc_word h 19 (by omega)).trans (by simp [svcInstr, FWord.hdr, fldN_val])
  · exact absurd rfl hne

theorem Sys2Proof.Laws.Exact.acceptPages (v : Via) : Sys2Proof.Laws.Exact.Statement (.acceptPages v) := by
  intro _ hne _
  rcases v with h | fn
  · exact (svc_word h 20 (by omega)).trans (by simp [svcInstr, FWord.hdr, fldN_val])
  · exact absurd rfl hne

theorem Sys2Proof.Laws.Exact.thawPages (v : Via) : Sys2Proof.Laws.Exact.Statement (.thawPages v) := by
  intro _ hne _
  rcases v with h | fn
  · exact (svc_word h 21 (by omega)).trans (by simp [svcInstr, FWord.hdr, fldN_val])
  · exact absurd rfl hne

theorem Sys2Proof.Laws.Exact.exportPages (fn : Nat) : Sys2Proof.Laws.Exact.Statement (.exportPages fn) := by
  exact fun _ h _ => absurd rfl h

theorem Sys2Proof.Laws.Exact.importPages (fn : Nat) : Sys2Proof.Laws.Exact.Statement (.importPages fn) := by
  exact fun _ h _ => absurd rfl h

theorem Sys2Proof.Laws.Exact.attest (fn : Nat) : Sys2Proof.Laws.Exact.Statement (.attest fn) := by
  exact fun _ h _ => absurd rfl h

theorem Sys2Proof.Laws.Exact.partition (fn : Nat) : Sys2Proof.Laws.Exact.Statement (.partition fn) := by
  exact fun _ h _ => absurd rfl h

theorem Sys2Proof.Laws.Exact.quota (fn : Nat) : Sys2Proof.Laws.Exact.Statement (.quota fn) := by
  exact fun _ h _ => absurd rfl h

theorem Sys2Proof.Laws.Exact.weight (fn : Nat) : Sys2Proof.Laws.Exact.Statement (.weight fn) := by
  exact fun _ h _ => absurd rfl h

theorem Sys2Proof.Laws.Exact.setglean (fn : Nat) : Sys2Proof.Laws.Exact.Statement (.setglean fn) := by
  exact fun _ h _ => absurd rfl h

theorem Sys2Proof.Laws.Exact.setbudget (fn : Nat) : Sys2Proof.Laws.Exact.Statement (.setbudget fn) := by
  exact fun _ h _ => absurd rfl h

theorem Sys2Proof.Laws.Exact.peerset (fn : Nat) : Sys2Proof.Laws.Exact.Statement (.peerset fn) := by
  exact fun _ h _ => absurd rfl h

theorem Sys2Proof.Laws.Exact.migrate (fn : Nat) : Sys2Proof.Laws.Exact.Statement (.migrate fn) := by
  exact fun _ h _ => absurd rfl h

theorem Sys2Proof.Laws.Exact.migrationQuiesce (fn : Nat) : Sys2Proof.Laws.Exact.Statement (.migrationQuiesce fn) := by
  exact fun _ h _ => absurd rfl h

theorem Sys2Proof.Laws.Exact.dbgattach (fn : Nat) : Sys2Proof.Laws.Exact.Statement (.dbgattach fn) := by
  exact fun _ h _ => absurd rfl h

theorem Sys2Proof.Laws.Exact.dbgdetach (fn : Nat) : Sys2Proof.Laws.Exact.Statement (.dbgdetach fn) := by
  exact fun _ h _ => absurd rfl h

theorem Sys2Proof.Laws.Exact.dbgstop (fn : Nat) : Sys2Proof.Laws.Exact.Statement (.dbgstop fn) := by
  exact fun _ h _ => absurd rfl h

theorem Sys2Proof.Laws.Exact.dbgresume (fn : Nat) : Sys2Proof.Laws.Exact.Statement (.dbgresume fn) := by
  exact fun _ h _ => absurd rfl h

theorem Sys2Proof.Laws.Exact.dbgretire (fn : Nat) : Sys2Proof.Laws.Exact.Statement (.dbgretire fn) := by
  exact fun _ h _ => absurd rfl h

theorem Sys2Proof.Laws.Exact.dbgread (fn : Nat) : Sys2Proof.Laws.Exact.Statement (.dbgread fn) := by
  exact fun _ h _ => absurd rfl h

theorem Sys2Proof.Laws.Exact.hostRead (fn : Nat) (off : BitVec 36) (len : Nat) : Sys2Proof.Laws.Exact.Statement (.hostRead fn off len) := by
  exact fun _ h _ => absurd rfl h

theorem Sys2Proof.Laws.Exact.hostWrite (fn : Nat) (off : BitVec 36) (bytes : List Byte) : Sys2Proof.Laws.Exact.Statement (.hostWrite fn off bytes) := by
  exact fun _ h _ => absurd rfl h

theorem Sys2Proof.Laws.Exact.peerAccess (target : BitVec 8) (fn : Nat) (req : PeerReq) : Sys2Proof.Laws.Exact.Statement (.peerAccess target fn req) := by
  exact fun _ h _ => absurd rfl h

theorem Sys2Proof.Laws.Exact.qtailDoorbell (fn : Nat) (q : Fin 16) (t : BitVec 32) : Sys2Proof.Laws.Exact.Statement (.qtailDoorbell fn q t) := by
  exact fun _ h _ => absurd rfl h

theorem Sys2Proof.Laws.Exact.queueEnable (fn : Nat) (q : Fin 16) : Sys2Proof.Laws.Exact.Statement (.queueEnable fn q) := by
  exact fun _ h _ => absurd rfl h

theorem Sys2Proof.Laws.Exact.queueDisable (fn : Nat) (q : Fin 16) : Sys2Proof.Laws.Exact.Statement (.queueDisable fn q) := by
  exact fun _ h _ => absurd rfl h

theorem Sys2Proof.Laws.Exact.restart (fn : Nat) (q : Fin 16) : Sys2Proof.Laws.Exact.Statement (.restart fn q) := by
  exact fun _ h _ => absurd rfl h

theorem Sys2Proof.Laws.Exact.skip (fn : Nat) (q : Fin 16) : Sys2Proof.Laws.Exact.Statement (.skip fn q) := by
  exact fun _ h _ => absurd rfl h

theorem Sys2Proof.Laws.Exact.prtailWrite (fn : Nat) (v : BitVec 32) : Sys2Proof.Laws.Exact.Statement (.prtailWrite fn v) := by
  exact fun _ h _ => absurd rfl h

theorem Sys2Proof.Laws.Exact.prrefuse (fn : Nat) (va : Word) : Sys2Proof.Laws.Exact.Statement (.prrefuse fn va) := by
  exact fun _ h _ => absurd rfl h

theorem Sys2Proof.Laws.Exact.evtailWrite (fn : Nat) (v : BitVec 32) : Sys2Proof.Laws.Exact.Statement (.evtailWrite fn v) := by
  exact fun _ h _ => absurd rfl h

theorem Sys2Proof.Laws.Exact.registerWrite (fn : Nat) (off : BitVec 16) (v : Word) : Sys2Proof.Laws.Exact.Statement (.registerWrite fn off v) := by
  exact fun _ h _ => absurd rfl h

theorem Sys2Proof.Laws.Exact.linkDown (target : BitVec 8) : Sys2Proof.Laws.Exact.Statement (.linkDown target) := by
  exact fun _ h _ => absurd rfl h

theorem Sys2Proof.Laws.Exact.linkUp (target : BitVec 8) : Sys2Proof.Laws.Exact.Statement (.linkUp target) := by
  exact fun _ h _ => absurd rfl h

theorem Sys2Proof.Laws.Exact.hostLinkTraining (gen : Nat) (width : Nat) : Sys2Proof.Laws.Exact.Statement (.hostLinkTraining gen width) := by
  exact fun _ h _ => absurd rfl h

theorem Sys2Proof.Laws.Exact.boot (img : BootImages) : Sys2Proof.Laws.Exact.Statement (.boot img) := by
  exact fun _ h _ => absurd rfl h

theorem Sys2Proof.Laws.Exact.deviceReset : Sys2Proof.Laws.Exact.Statement .deviceReset := by
  exact fun _ h _ => absurd rfl h

theorem Sys2Proof.Laws.Exact.hbmUncorrectableError (stack : Fin 12) (frame : Nat) : Sys2Proof.Laws.Exact.Statement (.hbmUncorrectableError stack frame) := by
  exact fun _ h _ => absurd rfl h

theorem Sys2Proof.Laws.Exact.coreUncorrectableError (core : BitVec 10) : Sys2Proof.Laws.Exact.Statement (.coreUncorrectableError core) := by
  exact fun _ h _ => absurd rfl h

theorem Sys2Proof.Laws.Exact.furrowFailure (furrow : BitVec 7) : Sys2Proof.Laws.Exact.Statement (.furrowFailure furrow) := by
  exact fun _ h _ => absurd rfl h

theorem Sys2Proof.Laws.Exact.pseudoChannelFailure (stack : Fin 12) (channel : Fin 384) : Sys2Proof.Laws.Exact.Statement (.pseudoChannelFailure stack channel) := by
  exact fun _ h _ => absurd rfl h

theorem Sys2Proof.Laws.Exact.monitorLimit (dom : ClockDomain) : Sys2Proof.Laws.Exact.Statement (.monitorLimit dom) := by
  exact fun _ h _ => absurd rfl h

theorem Sys2Proof.Laws.Exact.functionCreation (fn : Nat) (ctx : BitVec 16) : Sys2Proof.Laws.Exact.Statement (.functionCreation fn ctx) := by
  exact fun _ h _ => absurd rfl h

theorem Sys2Proof.Laws.Exact.unassignedEncoding (sub : Subcode) : Sys2Proof.Laws.Exact.Statement (.unassignedEncoding sub) := by
  exact fun _ h _ => absurd rfl h
end

