-- ==== Sys2Proof/Laws/Vector.lean ====
section
/-! SUPPORT. Elements of vector registers and bits of masks: what reading one after writing one gives, and what a loop over the elements
of a group leaves. -/

namespace Sys2Proof.Machine

/-! ## Fields of a word -/

theorem natField_lt (b lo w : Nat) : natField b lo w < 2 ^ w := Nat.mod_lt _ (Nat.two_pow_pos w)

/-- A number is its part above a field, the field and its part below. -/
theorem natField_split (b lo w : Nat) : b = b / 2 ^ (lo + w) * 2 ^ (lo + w) + natField b lo w * 2 ^ lo + b % 2 ^ lo := by
  have h1 := Nat.div_add_mod b (2 ^ lo)
  have h2 := Nat.div_add_mod (b / 2 ^ lo) (2 ^ w)
  have h3 : b / 2 ^ lo / 2 ^ w = b / 2 ^ (lo + w) := by rw [Nat.div_div_eq_div_mul, Nat.pow_add]
  rw [h3] at h2
  unfold natField
  have e : b / 2 ^ lo * 2 ^ lo = b / 2 ^ (lo + w) * 2 ^ (lo + w) + b / 2 ^ lo % 2 ^ w * 2 ^ lo := by
    calc b / 2 ^ lo * 2 ^ lo = (2 ^ w * (b / 2 ^ (lo + w)) + b / 2 ^ lo % 2 ^ w) * 2 ^ lo := by rw [h2]
      _ = _ := by rw [Nat.add_mul, Nat.pow_add]; congr 1; rw [Nat.mul_comm (2 ^ w), Nat.mul_assoc, Nat.mul_comm (2 ^ w)]
  rw [← e, Nat.mul_comm, h1]

/-- The field of a number given by its three parts. -/
theorem natField_parts (hi x low lo w : Nat) (hx : x < 2 ^ w) (hl : low < 2 ^ lo) :
    natField (hi * 2 ^ (lo + w) + x * 2 ^ lo + low) lo w = x := by
  have e : hi * 2 ^ (lo + w) + x * 2 ^ lo + low = low + 2 ^ lo * (hi * 2 ^ w + x) := by
    rw [Nat.pow_add, Nat.mul_add, Nat.add_comm, Nat.mul_comm x, Nat.mul_left_comm]
  unfold natField
  rw [e, Nat.add_mul_div_left _ _ (Nat.two_pow_pos lo), Nat.div_eq_of_lt hl, Nat.zero_add, Nat.add_comm,
    Nat.add_mul_mod_self_right, Nat.mod_eq_of_lt hx]

/-- What `setField` makes, as a number. -/
theorem setField_toNat {n : Nat} (b : BitVec n) (lo w x : Nat) (h : lo + w ≤ n) :
    (setField b lo w x).toNat = b.toNat / 2 ^ (lo + w) * 2 ^ (lo + w) + x % 2 ^ w * 2 ^ lo + b.toNat % 2 ^ lo := by
  have s := natField_split b.toNat lo w
  have m : b.toNat / 2 ^ (lo + w) * 2 ^ (lo + w) + x % 2 ^ w * 2 ^ lo + b.toNat % 2 ^ lo < 2 ^ n := by
    have q : b.toNat / 2 ^ (lo + w) < 2 ^ (n - (lo + w)) := by
      rw [Nat.div_lt_iff_lt_mul (Nat.two_pow_pos _), ← Nat.pow_add, Nat.sub_add_cancel h]; exact b.isLt
    have r : x % 2 ^ w * 2 ^ lo + b.toNat % 2 ^ lo < 2 ^ (lo + w) := by
      have a := Nat.mod_lt x (Nat.two_pow_pos w)
      have c := Nat.mod_lt b.toNat (Nat.two_pow_pos lo)
      calc x % 2 ^ w * 2 ^ lo + b.toNat % 2 ^ lo < x % 2 ^ w * 2 ^ lo + 2 ^ lo := by omega
        _ = (x % 2 ^ w + 1) * 2 ^ lo := by rw [Nat.add_mul, Nat.one_mul]
        _ ≤ 2 ^ w * 2 ^ lo := Nat.mul_le_mul_right _ a
        _ = 2 ^ (lo + w) := by rw [Nat.pow_add, Nat.mul_comm]
    calc _ < b.toNat / 2 ^ (lo + w) * 2 ^ (lo + w) + 2 ^ (lo + w) := by omega
      _ = (b.toNat / 2 ^ (lo + w) + 1) * 2 ^ (lo + w) := by rw [Nat.add_mul, Nat.one_mul]
      _ ≤ 2 ^ (n - (lo + w)) * 2 ^ (lo + w) := Nat.mul_le_mul_right _ q
      _ = 2 ^ n := by rw [← Nat.pow_add, Nat.sub_add_cancel h]
  unfold setField
  rw [BitVec.toNat_ofNat]
  rw [Nat.mod_eq_of_lt] <;> omega

theorem natField_setField_same {n : Nat} (b : BitVec n) (lo w x : Nat) (h : lo + w ≤ n) :
    natField (setField b lo w x).toNat lo w = x % 2 ^ w := by
  rw [setField_toNat b lo w x h]
  exact natField_parts _ _ _ _ _ (Nat.mod_lt _ (Nat.two_pow_pos w)) (Nat.mod_lt _ (Nat.two_pow_pos lo))

theorem natField_testBit (b lo w i : Nat) : (natField b lo w).testBit i = (decide (i < w) && b.testBit (lo + i)) := by
  unfold natField
  rw [Nat.testBit_mod_two_pow, Nat.testBit_div_two_pow, Nat.add_comm]

theorem setField_testBit {n : Nat} (b : BitVec n) (lo w x i : Nat) (h : lo + w ≤ n) (d : i < lo ∨ lo + w ≤ i) :
    (setField b lo w x).toNat.testBit i = b.toNat.testBit i := by
  have t := setField_toNat b lo w x h
  rcases d with d | d
  · have e : (setField b lo w x).toNat % 2 ^ lo = b.toNat % 2 ^ lo := by
      rw [t, Nat.pow_add, ← Nat.mul_assoc, Nat.mul_right_comm, ← Nat.add_mul, Nat.add_comm, Nat.add_mul_mod_self_right, Nat.mod_mod]
    have := congrArg (·.testBit i) e
    simpa [Nat.testBit_mod_two_pow, d] using this
  · have e : (setField b lo w x).toNat / 2 ^ (lo + w) = b.toNat / 2 ^ (lo + w) := by
      have a := Nat.mod_lt x (Nat.two_pow_pos w)
      have c := Nat.mod_lt b.toNat (Nat.two_pow_pos lo)
      have r : x % 2 ^ w * 2 ^ lo + b.toNat % 2 ^ lo < 2 ^ (lo + w) := by
        calc x % 2 ^ w * 2 ^ lo + b.toNat % 2 ^ lo < x % 2 ^ w * 2 ^ lo + 2 ^ lo := by omega
          _ = (x % 2 ^ w + 1) * 2 ^ lo := by rw [Nat.add_mul, Nat.one_mul]
          _ ≤ 2 ^ w * 2 ^ lo := Nat.mul_le_mul_right _ a
          _ = 2 ^ (lo + w) := by rw [Nat.pow_add, Nat.mul_comm]
      rw [t, Nat.add_assoc, Nat.add_comm, Nat.add_mul_div_right _ _ (Nat.two_pow_pos _), Nat.div_eq_of_lt r, Nat.zero_add]
    have := congrArg (·.testBit (i - (lo + w))) e
    simp only [Nat.testBit_div_two_pow] at this
    rwa [Nat.sub_add_cancel d] at this

theorem natField_setField_other {n : Nat} (b : BitVec n) (lo w x lo' w' : Nat) (h : lo + w ≤ n)
    (d : lo' + w' ≤ lo ∨ lo + w ≤ lo') : natField (setField b lo w x).toNat lo' w' = natField b.toNat lo' w' := by
  apply Nat.eq_of_testBit_eq
  intro i
  rw [natField_testBit, natField_testBit]
  by_cases c : i < w'
  · rw [setField_testBit b lo w x (lo' + i) h (by omega)]
  · simp [c]

/-! ## Elements -/

theorem width_dvd (f : Fmt) : f.width ∣ 8192 := by cases f <;> decide
theorem width_pos (f : Fmt) : 0 < f.width := by cases f <;> decide

/-- The elements of a register fill the bits of its grant. -/
theorem perReg_mul {g w : Nat} (dv : w ∣ 8192) (pw : 0 < w) : perReg g w * w = g * 8192 := by
  obtain ⟨q, hq⟩ := dv
  unfold perReg
  rw [hq, Nat.mul_left_comm, Nat.mul_div_cancel_left _ pw, Nat.mul_comm]

theorem perReg_pos {g w : Nat} (dv : w ∣ 8192) (pw : 0 < w) (g1 : 1 ≤ g) : 0 < perReg g w := by
  apply Nat.pos_of_ne_zero
  intro e
  have := perReg_mul (g := g) dv pw
  rw [e] at this
  omega

theorem vlmaxOf_eq {g size w : Nat} (dv : w ∣ 8192) (pw : 0 < w) : vlmaxOf g size w = perReg g w * size := by
  obtain ⟨q, hq⟩ := dv
  unfold vlmaxOf perReg
  rw [hq, Nat.mul_left_comm, Nat.mul_assoc, Nat.mul_div_cancel_left _ pw, Nat.mul_div_cancel_left _ pw]

/-- An element lies within the bits of the grant. -/
theorem elt_fits {g w i : Nat} (dv : w ∣ 8192) (pw : 0 < w) (g1 : 1 ≤ g) : i % perReg g w * w + w ≤ g * 8192 := by
  have a := Nat.mod_lt i (perReg_pos dv pw g1)
  rw [← perReg_mul (g := g) dv pw]
  calc i % perReg g w * w + w = (i % perReg g w + 1) * w := by rw [Nat.add_mul, Nat.one_mul]
    _ ≤ perReg g w * w := Nat.mul_le_mul_right _ a

/-- Every register but the one that holds the element stays as it is. -/
theorem setElt_reg_other (s : State) (v : Fin 64) (w i x : Nat) (r : Fin 64)
    (h : vnum (v.val + i / perReg s.hart.place.grant w) ≠ r) : (s.setElt v w i x).hart.regs.v[r] = s.hart.regs.v[r] := by
  have h' : (vnum (v.val + i / perReg s.hart.place.grant w)).val ≠ r.val := fun e => h (Fin.ext e)
  simp only [State.setElt, State.modRegs, Fin.getElem_fin]
  exact Vector.getElem_set_ne _ _ h'

theorem setElt_reg_same (s : State) (v : Fin 64) (w i x : Nat) :
    (s.setElt v w i x).hart.regs.v[vnum (v.val + i / perReg s.hart.place.grant w)] =
      setField s.hart.regs.v[vnum (v.val + i / perReg s.hart.place.grant w)] (i % perReg s.hart.place.grant w * w) w x := by
  simp only [State.setElt, State.modRegs, Fin.getElem_fin]
  exact Vector.getElem_set_self _

/-- An element depends on the grant and on the register that holds it. -/
theorem elt_congr {s t : State} (v : Fin 64) (w i : Nat) (g : t.hart.place.grant = s.hart.place.grant)
    (h : t.hart.regs.v[vnum (v.val + i / perReg s.hart.place.grant w)] =
      s.hart.regs.v[vnum (v.val + i / perReg s.hart.place.grant w)]) : t.elt v w i = s.elt v w i := by
  have e : ∀ n, n = s.hart.place.grant →
      natField (t.hart.regs.v[vnum (v.val + i / perReg n w)]).toNat (i % perReg n w * w) w = s.elt v w i := by
    intro n hn
    subst hn
    exact congrArg (fun b => natField (BitVec.toNat b) _ _) h
  exact e _ g

/-- An element read after it was written. -/
theorem elt_setElt_same (s : State) (v : Fin 64) (w i x : Nat) (dv : w ∣ 8192) (pw : 0 < w) (g1 : 1 ≤ s.hart.place.grant)
    (g2 : s.hart.place.grant ≤ 12) : (s.setElt v w i x).elt v w i = x % 2 ^ w := by
  have f := elt_fits (i := i) dv pw g1
  show natField ((s.setElt v w i x).hart.regs.v[vnum (v.val + i / perReg s.hart.place.grant w)]).toNat
    (i % perReg s.hart.place.grant w * w) w = _
  rw [setElt_reg_same]
  exact natField_setField_same _ _ _ _ (by omega)

/-- An element of another register, or at other bits, read after a write. -/
theorem elt_setElt_other (s : State) (v v' : Fin 64) (w w' i j x : Nat) (dv : w ∣ 8192) (pw : 0 < w)
    (g1 : 1 ≤ s.hart.place.grant) (g2 : s.hart.place.grant ≤ 12)
    (h : vnum (v.val + i / perReg s.hart.place.grant w) ≠ vnum (v'.val + j / perReg s.hart.place.grant w') ∨
      j % perReg s.hart.place.grant w' * w' + w' ≤ i % perReg s.hart.place.grant w * w ∨
      i % perReg s.hart.place.grant w * w + w ≤ j % perReg s.hart.place.grant w' * w') :
    (s.setElt v w i x).elt v' w' j = s.elt v' w' j := by
  have f := elt_fits (i := i) dv pw g1
  show natField ((s.setElt v w i x).hart.regs.v[vnum (v'.val + j / perReg s.hart.place.grant w')]).toNat
    (j % perReg s.hart.place.grant w' * w') w' = natField _ _ _
  by_cases e : vnum (v.val + i / perReg s.hart.place.grant w) = vnum (v'.val + j / perReg s.hart.place.grant w')
  · have key : ∀ r, vnum (v.val + i / perReg s.hart.place.grant w) = r → ∀ lo,
        lo + w' ≤ i % perReg s.hart.place.grant w * w ∨ i % perReg s.hart.place.grant w * w + w ≤ lo →
        natField (s.setElt v w i x).hart.regs.v[r].toNat lo w' = natField s.hart.regs.v[r].toNat lo w' := by
      intro r hr lo apart
      subst hr
      rw [setElt_reg_same]
      exact natField_setField_other _ _ _ _ _ _ (by omega) apart
    exact key _ e _ (h.resolve_left (fun n => n e))
  · rw [setElt_reg_other _ _ _ _ _ _ e]

/-- The register of element `i` of an aligned group is one of the group's. -/
theorem group_reg {g w size i : Nat} {d : Fin 64} (dv : w ∣ 8192) (pw : 0 < w) (fit : d.val + size ≤ 64)
    (h : i < vlmaxOf g size w) :
    (vnum (d.val + i / perReg g w)).val = d.val + i / perReg g w ∧ i / perReg g w < size := by
  rw [vlmaxOf_eq dv pw] at h
  have q : i / perReg g w < size := Nat.div_lt_of_lt_mul h
  refine ⟨?_, q⟩
  show (d.val + i / perReg g w) % 64 = _
  exact Nat.mod_eq_of_lt (by omega)

/-- Two elements of one group share no bit. -/
theorem elts_apart {g w size i j : Nat} {d : Fin 64} (dv : w ∣ 8192) (pw : 0 < w) (fit : d.val + size ≤ 64)
    (hi : i < vlmaxOf g size w) (hj : j < vlmaxOf g size w) (ne : i ≠ j) :
    vnum (d.val + i / perReg g w) ≠ vnum (d.val + j / perReg g w) ∨
      j % perReg g w * w + w ≤ i % perReg g w * w ∨ i % perReg g w * w + w ≤ j % perReg g w * w := by
  by_cases e : i / perReg g w = j / perReg g w
  · right
    have a := Nat.div_add_mod i (perReg g w)
    have b := Nat.div_add_mod j (perReg g w)
    have m : i % perReg g w ≠ j % perReg g w := by
      intro c; apply ne; rw [← a, ← b, e, c]
    rcases Nat.lt_or_gt_of_ne m with l | l
    · right
      calc i % perReg g w * w + w = (i % perReg g w + 1) * w := by rw [Nat.add_mul, Nat.one_mul]
        _ ≤ _ := Nat.mul_le_mul_right _ l
    · left
      calc j % perReg g w * w + w = (j % perReg g w + 1) * w := by rw [Nat.add_mul, Nat.one_mul]
        _ ≤ _ := Nat.mul_le_mul_right _ l
  · left
    intro c
    have c' := congrArg Fin.val c
    rw [(group_reg dv pw fit hi).1, (group_reg dv pw fit hj).1] at c'
    omega

/-! ## Writing the elements of a group -/

/-- Nothing written yet. -/
theorem WroteElts.none (u : State) (d : Fin 64) (size w : Nat) (p : Nat → Bool) (f : Nat → Nat) (h : ∀ i, p i = false) :
    WroteElts u d size w p f u :=
  ⟨fun i _ => by simp [h i], fun _ _ => rfl, fun _ _ _ => rfl, rfl⟩

/-- One more element. -/
theorem WroteElts.step {u t : State} {d : Fin 64} {size w : Nat} {p : Nat → Bool} {f : Nat → Nat} (h : WroteElts u d size w p f t)
    (dv : w ∣ 8192) (pw : 0 < w) (g1 : 1 ≤ u.hart.place.grant) (g2 : u.hart.place.grant ≤ 12) (fit : d.val + size ≤ 64)
    {i : Nat} (hi : i < vlmaxOf u.hart.place.grant size w) {x : Nat} {q : Nat → Bool}
    (hq : ∀ j, q j = if j = i then true else p j) (hx : f i % 2 ^ w = x % 2 ^ w) :
    WroteElts u d size w q f (t.setElt d w i x) := by
  have gt : t.hart.place.grant = u.hart.place.grant := by rw [h.rest]; rfl
  have reg := group_reg (d := d) dv pw fit hi
  refine ⟨fun j hj => ?_, fun r hr => ?_, fun r j hj => ?_, ?_⟩
  · rw [hq j]
    by_cases e : j = i
    · subst e
      rw [if_pos rfl, elt_setElt_same t d w j x dv pw (by omega) (by omega), if_pos rfl, hx]
    · rw [if_neg e, elt_setElt_other t d d w w i j x dv pw (by omega) (by omega), h.elts j hj]
      rw [gt]
      exact elts_apart dv pw fit hi hj (fun c => e c.symm)
  · rw [setElt_reg_other, h.outside r hr]
    rw [gt]
    intro c
    have c' := congrArg Fin.val c
    rw [reg.1] at c'
    have k := reg.2
    generalize i / perReg u.hart.place.grant w = m at c' k
    omega
  · by_cases e : vnum (d.val + i / perReg t.hart.place.grant w) = r
    · subst e
      rw [setElt_reg_same]
      have f := elt_fits (i := i) dv pw (show 1 ≤ t.hart.place.grant by omega)
      have b := setField_testBit t.hart.regs.v[vnum (d.val + i / perReg t.hart.place.grant w)]
        (i % perReg t.hart.place.grant w * w) w x j (by omega) (.inr (by rw [gt] at f ⊢; omega))
      rw [BitVec.testBit_toNat, BitVec.testBit_toNat] at b
      rw [b]
      exact h.above _ j hj
    · rw [setElt_reg_other _ _ _ _ _ _ e]
      exact h.above r j hj
  · have r := h.rest
    rw [r]
    rfl

/-- Skipping an element. -/
theorem WroteElts.skip {u t : State} {d : Fin 64} {size w : Nat} {p q : Nat → Bool} {f : Nat → Nat} (h : WroteElts u d size w p f t)
    (hq : ∀ j, q j = p j) : WroteElts u d size w q f t := by
  have : q = p := funext hq
  rw [this]; exact h

/-- An element of a group of the same width that is the destination itself or shares no register with it reads, where it has not been
written, as before. -/
theorem WroteElts.read {u t : State} {d : Fin 64} {size w : Nat} {p : Nat → Bool} {f : Nat → Nat} (h : WroteElts u d size w p f t)
    (dv : w ∣ 8192) (pw : 0 < w) {a : Fin 64} (fa : a.val + size ≤ 64)
    (apart : a = d ∨ a.val + size ≤ d.val ∨ d.val + size ≤ a.val) {i : Nat} (hi : i < vlmaxOf u.hart.place.grant size w)
    (hp : a = d → p i = false) : t.elt a w i = u.elt a w i := by
  have gt : t.hart.place.grant = u.hart.place.grant := by rw [h.rest]; rfl
  rcases apart with e | e
  · rw [e, h.elts i hi, hp e]; rfl
  · have reg := group_reg (d := a) dv pw fa hi
    have o := h.outside (vnum (a.val + i / perReg u.hart.place.grant w)) (by
      have k := reg.2
      have q := reg.1
      generalize i / perReg u.hart.place.grant w = m at q k ⊢
      omega)
    exact elt_congr a _ i gt o

/-- A group of another width that shares no register with the destination reads as before. -/
theorem WroteElts.readApart {u t : State} {d : Fin 64} {size w : Nat} {p : Nat → Bool} {f : Nat → Nat} (h : WroteElts u d size w p f t)
    {a : Fin 64} {size' w' : Nat} (dv : w' ∣ 8192) (pw : 0 < w') (fa : a.val + size' ≤ 64)
    (apart : a.val + size' ≤ d.val ∨ d.val + size ≤ a.val) {i : Nat} (hi : i < vlmaxOf u.hart.place.grant size' w') :
    t.elt a w' i = u.elt a w' i := by
  have gt : t.hart.place.grant = u.hart.place.grant := by rw [h.rest]; rfl
  have reg := group_reg (d := a) dv pw fa hi
  have o := h.outside (vnum (a.val + i / perReg u.hart.place.grant w')) (by
    have k := reg.2
    have q := reg.1
    generalize i / perReg u.hart.place.grant w' = m at q k ⊢
    omega)
  exact elt_congr a _ i gt o

/-- Aligned groups of one size are the same or share no register (R177, R228). -/
theorem aligned_apart {n : Nat} (a d : Fin 64) (ha : aligned (2 ^ n) a = true) (hd : aligned (2 ^ n) d = true) :
    a = d ∨ a.val + 2 ^ n ≤ d.val ∨ d.val + 2 ^ n ≤ a.val := by
  unfold aligned at ha hd
  simp only [beq_iff_eq] at ha hd
  obtain ⟨x, hx⟩ := Nat.dvd_of_mod_eq_zero ha
  obtain ⟨y, hy⟩ := Nat.dvd_of_mod_eq_zero hd
  rcases Nat.lt_trichotomy x y with l | l | l
  · right; left
    rw [hx, hy]
    calc 2 ^ n * x + 2 ^ n = 2 ^ n * (x + 1) := by rw [Nat.mul_add, Nat.mul_one]
      _ ≤ _ := Nat.mul_le_mul_left _ l
  · left
    apply Fin.ext
    rw [hx, hy, l]
  · right; right
    rw [hx, hy]
    calc 2 ^ n * y + 2 ^ n = 2 ^ n * (y + 1) := by rw [Nat.mul_add, Nat.mul_one]
      _ ≤ _ := Nat.mul_le_mul_left _ l

/-- An aligned group ends within the registers. -/
theorem aligned_fits (t : VType) (a : Fin 64) (h : aligned t.size a = true) : a.val + t.size ≤ 64 := by
  unfold aligned at h
  unfold VType.size at h ⊢
  simp only [beq_iff_eq] at h
  have := a.isLt
  rcases t with ⟨f, g⟩
  match g, h with
  | 0, _ => show a.val + 1 ≤ 64; omega
  | 1, h => have h' : a.val % 2 = 0 := h; show a.val + 2 ≤ 64; omega
  | 2, h => have h' : a.val % 4 = 0 := h; show a.val + 4 ≤ 64; omega
  | 3, h => have h' : a.val % 8 = 0 := h; show a.val + 8 ≤ 64; omega

/-! ## Loops over elements -/

/-- A loop that keeps `P` on the states after `n` elements. -/
theorem range_loop {α : Type} (P : Nat → α → Prop) (f : α → Nat → α) (n : Nat) (a : α) (h0 : P 0 a)
    (hs : ∀ i b, i < n → P i b → P (i + 1) (f b i)) : P n ((List.range n).foldl f a) := by
  induction n with
  | zero => exact h0
  | succ n ih =>
    rw [List.range_succ, List.foldl_append]
    exact hs n _ (Nat.lt_succ_self n) (ih (fun i b hi => hs i b (Nat.lt_succ_of_lt hi)))

/-- A loop over the elements from the start index to vl that gives every chosen element the value `f i`. -/
theorem wrote_overElts {u : State} {d : Fin 64} {size w : Nat} {q : Nat → Bool} {f : Nat → Nat} {step : State → Nat → State}
    (dv : w ∣ 8192) (pw : 0 < w) (g1 : 1 ≤ u.hart.place.grant) (g2 : u.hart.place.grant ≤ 12) (fit : d.val + size ≤ 64)
    (room : u.vl ≤ vlmaxOf u.hart.place.grant size w)
    (hs : ∀ i t, i < u.vl → WroteElts u d size w (fun j => j < i && (u.cur.start ≤ j && q j)) f t →
      if q i then ∃ x, step t i = t.setElt d w i x ∧ f i % 2 ^ w = x % 2 ^ w else step t i = t) :
    WroteElts u d size w (fun j => j < u.vl && (u.cur.start ≤ j && q j)) f (u.overElts step) := by
  unfold State.overElts
  refine range_loop (fun n t => WroteElts u d size w (fun j => j < n && (u.cur.start ≤ j && q j)) f t) _ u.vl u
    (WroteElts.none _ _ _ _ _ _ (fun i => by simp)) ?_
  intro i t hi P
  by_cases c : i < u.cur.start
  · rw [if_pos c]
    refine P.skip (fun j => ?_)
    by_cases e : j = i
    · subst e; simp; omega
    · have : j < i + 1 ↔ j < i := by omega
      simp [this]
  · rw [if_neg c]
    have s := hs i t hi P
    by_cases hq : q i = true
    · rw [if_pos hq] at s
      obtain ⟨x, e, hx⟩ := s
      rw [e]
      refine P.step dv pw g1 g2 fit (by omega) (fun j => ?_) hx
      by_cases e : j = i
      · subst e; simp [hq]; omega
      · have : j < i + 1 ↔ j < i := by omega
        simp [this, e]
    · rw [if_neg hq] at s
      rw [s]
      refine P.skip (fun j => ?_)
      by_cases e : j = i
      · subst e; simp [hq]
      · have : j < i + 1 ↔ j < i := by omega
        simp [this]

/-! ## Bits of masks -/

theorem vlmaxOf_bits {g : Nat} (t : VType) (g2 : g ≤ 12) : vlmaxOf g t.size t.fmt.width ≤ 196608 := by
  have w4 : 4 ≤ t.fmt.width := by cases t.fmt <;> decide
  have s8 : t.size ≤ 8 := by
    rcases t with ⟨f, n⟩
    match n with
    | 0 => exact (by decide : (1 : Nat) ≤ 8)
    | 1 => exact (by decide : (2 : Nat) ≤ 8)
    | 2 => exact (by decide : (4 : Nat) ≤ 8)
    | 3 => exact (by decide : (8 : Nat) ≤ 8)
  have a : g * 8192 * t.size ≤ 12 * 8192 * 8 := Nat.mul_le_mul (Nat.mul_le_mul_right _ g2) s8
  calc vlmaxOf g t.size t.fmt.width ≤ 12 * 8192 * 8 / 4 := Nat.div_le_div a w4 (by decide)
    _ = 196608 := by decide

theorem vecOk_bits {u : State} (h : u.vecOk) : u.vl ≤ 196608 := Nat.le_trans h.2.2 (vlmaxOf_bits _ h.2.1)

theorem kbit_setKbit (s : State) (k : Fin 8) (i j : Nat) (x : Bool) (hi : i < 196608) :
    (s.setKbit k i x).kbit k j = if j = i then x else s.kbit k j := by
  have e : (s.setKbit k i x).hart.regs.k[k] = setBit s.hart.regs.k[k] i x := by
    simp only [State.setKbit, State.modRegs, Fin.getElem_fin]
    exact Vector.getElem_set_self _
  show (s.setKbit k i x).hart.regs.k[k].getLsbD j = if j = i then x else s.hart.regs.k[k].getLsbD j
  rw [e]
  unfold setBit
  rw [← BitVec.testBit_toNat, ← BitVec.testBit_toNat]
  by_cases c : j = i
  · subst c
    rw [if_pos rfl]
    have f := natField_setField_same s.hart.regs.k[k] j 1 x.toNat (by omega)
    have b := natField_testBit (setField s.hart.regs.k[k] j 1 x.toNat).toNat j 1 0
    rw [f] at b
    simp only [Nat.add_zero, Nat.zero_lt_one, decide_true, Bool.true_and] at b
    rw [← b]
    cases x <;> rfl
  · rw [if_neg c]
    exact setField_testBit _ _ _ _ _ (by omega) (by omega)

theorem kbit_setKbit_other (s : State) (k l : Fin 8) (i j : Nat) (x : Bool) (h : l ≠ k) :
    (s.setKbit k i x).kbit l j = s.kbit l j := by
  have e : (s.setKbit k i x).hart.regs.k[l] = s.hart.regs.k[l] := by
    simp only [State.setKbit, State.modRegs, Fin.getElem_fin]
    exact Vector.getElem_set_ne _ _ (fun c => h (Fin.ext c.symm))
  exact congrArg (fun b => BitVec.getLsbD b j) e

theorem WroteBits.none (u : State) (k : Fin 8) (p : Nat → Bool) (f : Nat → Bool) (h : ∀ i, p i = false) : WroteBits u k p f u := by
  refine ⟨fun i _ => by simp [h i], ?_⟩
  have : u.hart.regs.k.set k u.hart.regs.k[k] = u.hart.regs.k := Vector.set_getElem_self _
  simp only [State.modRegs, this]

theorem WroteBits.step {u t : State} {k : Fin 8} {p q : Nat → Bool} {f : Nat → Bool} (h : WroteBits u k p f t) {i : Nat}
    (hi : i < 196608) (hq : ∀ j, q j = if j = i then true else p j) : WroteBits u k q f (t.setKbit k i (f i)) := by
  refine ⟨fun j hj => ?_, ?_⟩
  · rw [kbit_setKbit t k i j (f i) hi, hq j]
    by_cases e : j = i
    · subst e; simp
    · rw [if_neg e, if_neg e, h.bits j hj]
  · have r := h.rest
    have e : (t.setKbit k i (f i)).hart.regs.k = u.hart.regs.k.set k (t.setKbit k i (f i)).hart.regs.k[k] := by
      apply Vector.ext
      intro j hj
      by_cases c : k.val = j
      · subst c
        rw [Vector.getElem_set_self]
        rfl
      · rw [Vector.getElem_set_ne _ _ c]
        have a : (t.setKbit k i (f i)).hart.regs.k[j] = t.hart.regs.k[j] := by
          simp only [State.setKbit, State.modRegs, Fin.getElem_fin]
          exact Vector.getElem_set_ne _ _ c
        rw [a, r]
        exact Vector.getElem_set_ne k.isLt hj c
    have b : t.setKbit k i (f i) = t.modRegs (fun g => { g with k := (t.setKbit k i (f i)).hart.regs.k }) := rfl
    rw [b]
    show t.modRegs _ = u.modRegs (fun g => { g with k := g.k.set k (t.setKbit k i (f i)).hart.regs.k[k] })
    simp only [State.modRegs]
    rw [← e]
    rw [r]
    rfl

theorem WroteBits.skip {u t : State} {k : Fin 8} {p q : Nat → Bool} {f : Nat → Bool} (h : WroteBits u k p f t)
    (hq : ∀ j, q j = p j) : WroteBits u k q f t := by
  have : q = p := funext hq
  rw [this]; exact h

/-- A bit that has not been written reads as before, in the mask that is written or in another one. -/
theorem WroteBits.read {u t : State} {k : Fin 8} {p : Nat → Bool} {f : Nat → Bool} (h : WroteBits u k p f t) (l : Fin 8) {i : Nat}
    (hi : i < 196608) (hp : l = k → p i = false) : t.kbit l i = u.kbit l i := by
  by_cases e : l = k
  · subst e
    rw [h.bits i hi, hp rfl]; rfl
  · have r := h.rest
    have a : t.hart.regs.k[l] = u.hart.regs.k[l] := by
      rw [r]
      exact Vector.getElem_set_ne k.isLt l.isLt (fun c => e (Fin.ext c.symm))
    exact congrArg (fun b => BitVec.getLsbD b i) a

theorem wroteBits_overElts {u : State} {k : Fin 8} {q : Nat → Bool} {f : Nat → Bool} {step : State → Nat → State}
    (room : u.vl ≤ 196608)
    (hs : ∀ i t, i < u.vl → WroteBits u k (fun j => j < i && (u.cur.start ≤ j && q j)) f t →
      step t i = if q i then t.setKbit k i (f i) else t) :
    WroteBits u k (fun j => j < u.vl && (u.cur.start ≤ j && q j)) f (u.overElts step) := by
  unfold State.overElts
  refine range_loop (fun n t => WroteBits u k (fun j => j < n && (u.cur.start ≤ j && q j)) f t) _ u.vl u
    (WroteBits.none _ _ _ _ (fun i => by simp)) ?_
  intro i t hi P
  by_cases c : i < u.cur.start
  · rw [if_pos c]
    refine P.skip (fun j => ?_)
    by_cases e : j = i
    · subst e; simp; omega
    · have : j < i + 1 ↔ j < i := by omega
      simp [this]
  · rw [if_neg c, hs i t hi P]
    by_cases hq : q i = true
    · rw [if_pos hq]
      refine P.step (by omega) (fun j => ?_)
      by_cases e : j = i
      · subst e; simp [hq]; omega
      · have : j < i + 1 ↔ j < i := by omega
        simp [this, e]
    · rw [if_neg hq]
      refine P.skip (fun j => ?_)
      by_cases e : j = i
      · subst e; simp [hq]
      · have : j < i + 1 ↔ j < i := by omega
        simp [this]

/-! ## Element groups (R86) -/

theorem joinFlags_append (f : Nat → Flags) (xs ys : List Nat) : joinFlags f (xs ++ ys) = joinFlags f xs ||| joinFlags f ys := by
  have g : ∀ (ys : List Nat) (z : Flags), ys.foldl (fun x i => x ||| f i) z = z ||| ys.foldl (fun x i => x ||| f i) 0 := by
    intro ys
    induction ys with
    | nil => intro z; simp
    | cons y ys ih =>
      intro z
      simp only [List.foldl_cons]
      rw [ih, ih (0 ||| f y), show (0 ||| f y : Flags) = f y from BitVec.zero_or, BitVec.or_assoc]
  unfold joinFlags
  rw [List.foldl_append, g]

theorem joinFlags_one (f : Nat → Flags) (i : Nat) : joinFlags f [i] = f i := by simp [joinFlags]

theorem accrue_accrue (s : State) (x y : Flags) : (s.accrue x).accrue y = s.accrue (x ||| y) := by
  simp only [State.accrue, State.modCsr, BitVec.setWidth_or, BitVec.or_assoc]

theorem enabled_accrue (s : State) (x y : Flags) : (s.accrue x).enabled y = s.enabled y := by
  unfold State.enabled State.accrue State.modCsr
  have e : ((s.hart.csr.fflags ||| x.setWidth 13).extractLsb' 8 5) = s.hart.csr.fflags.extractLsb' 8 5 := by
    apply BitVec.eq_of_getLsbD_eq
    intro i hi
    simp only [BitVec.getLsbD_extractLsb', BitVec.getLsbD_or, BitVec.getLsbD_setWidth]
    have : x.getLsbD (8 + i) = false := BitVec.getLsbD_of_ge x (8 + i) (by omega)
    simp [this]
  rw [e]

/-- The positions of element group `k`. -/
theorem groups_cover (per n k : Nat) : List.range (k * per) ++ (List.range n).map (k * per + ·) = List.range (k * per + n) := by
  rw [List.range_add]

/-- The elements of one group, one after the other. `W x n t` says that `t` is the state once the elements below `n` have had their effect and
the flags `x` have been accumulated. -/
theorem groupStep_loop {vl start : Nat} {f : State → Nat → State × Flags} {fl : Nat → Flags} {W : Nat → State → Prop}
    (z : ∀ i, ¬(start ≤ i ∧ i < vl) → fl i = 0)
    (hs : ∀ i t, i < vl → W i t → ∃ t', W (i + 1) t' ∧ if start ≤ i then f t i = (t', fl i) else t' = t)
    (base m : Nat) (s : State) (h0 : W (min base vl) s) :
    ∃ t, groupStep f s (((List.range m).map (base + ·)).filter (fun i => start ≤ i && i < vl)) =
      (t, joinFlags fl ((List.range m).map (base + ·))) ∧ W (min (base + m) vl) t := by
  induction m with
  | zero => exact ⟨s, rfl, h0⟩
  | succ m ih =>
    obtain ⟨t, e, w⟩ := ih
    have sp : (List.range (m + 1)).map (base + ·) = (List.range m).map (base + ·) ++ [base + m] := by
      rw [List.range_succ, List.map_append]; rfl
    rw [sp, List.filter_append, joinFlags_append, joinFlags_one]
    unfold groupStep at e ⊢
    rw [List.foldl_append, e]
    by_cases c : base + m < vl
    · have m1 : min (base + m) vl = base + m := by omega
      rw [m1] at w
      obtain ⟨t', w', q⟩ := hs (base + m) t c w
      have m2 : min (base + (m + 1)) vl = base + m + 1 := by omega
      rw [m2]
      by_cases d : start ≤ base + m
      · rw [if_pos d] at q
        refine ⟨t', ?_, w'⟩
        have : [base + m].filter (fun i => start ≤ i && i < vl) = [base + m] := by simp [c, d]
        rw [this]
        simp only [List.foldl_cons, List.foldl_nil, q]
      · rw [if_neg d] at q
        refine ⟨t, ?_, q ▸ w'⟩
        have : [base + m].filter (fun i => start ≤ i && i < vl) = [] := by simp [d]
        rw [this, z (base + m) (fun h => d h.1)]
        simp
    · have m2 : min (base + (m + 1)) vl = min (base + m) vl := by omega
      rw [m2]
      refine ⟨t, ?_, w⟩
      have : [base + m].filter (fun i => start ≤ i && i < vl) = [] := by simp [c]
      rw [this, z (base + m) (fun h => c h.2)]
      simp

theorem groupsFrom_succ (per vl start : Nat) (f : State → Nat → State × Flags) (n g : Nat) (s : State) :
    groupsFrom per vl start f (n + 1) g s =
      (let r := groupStep f s (((List.range per).map (g * per + ·)).filter (fun i => start ≤ i && i < vl))
       if s.enabled r.2 then .trap (arithTrap r.2 (g * per)) s
       else groupsFrom per vl start f n (g + 1) (r.1.accrue r.2)) := rfl

/-- An element-wise instruction that sets flags: where no group of elements below `stop` raises an enabled flag it reaches the group at
`stop`, and it stops there with ARITH if that group raises one; where none does, it is done. -/
theorem byGroups_loop {u : State} {w : Nat} {f : State → Nat → State × Flags} {fl : Nat → Flags} {W : Flags → Nat → State → Prop}
    (pp : 0 < perGroup w) (z : ∀ i, ¬(u.cur.start ≤ i ∧ i < u.turnEnd u.vl) → fl i = 0)
    (hs : ∀ x i t, i < u.turnEnd u.vl → W x i t → ∃ t', W x (i + 1) t' ∧ if u.cur.start ≤ i then f t i = (t', fl i) else t' = t)
    (ha : ∀ x y n t, W x n t → W (x ||| y) n (t.accrue y))
    (he : ∀ x n t y, W x n t → t.enabled y = u.enabled y) (h0 : W 0 0 u) :
    let group := fun k => (List.range (perGroup w)).map (k * perGroup w + ·)
    ((∀ k, u.enabled (joinFlags fl (group k)) = false) →
      ∃ t, byGroups u w f = .done t ∧ W (joinFlags fl (List.range (u.turnEnd u.vl))) (u.turnEnd u.vl) t) ∧
    (∀ k, k * perGroup w < u.turnEnd u.vl → (∀ j, j < k → u.enabled (joinFlags fl (group j)) = false) →
      u.enabled (joinFlags fl (group k)) = true →
      ∃ t, byGroups u w f = .trap (arithTrap (joinFlags fl (group k)) (k * perGroup w)) t ∧
        W (joinFlags fl (List.range (k * perGroup w))) (k * perGroup w) t) := by
  intro group
  -- one group
  have one : ∀ g t, W (joinFlags fl (List.range (g * perGroup w))) (min (g * perGroup w) (u.turnEnd u.vl)) t →
      ∃ t', groupStep f t ((group g).filter (fun i => u.cur.start ≤ i && i < u.turnEnd u.vl)) = (t', joinFlags fl (group g)) ∧
        W (joinFlags fl (List.range ((g + 1) * perGroup w))) (min ((g + 1) * perGroup w) (u.turnEnd u.vl))
          (t'.accrue (joinFlags fl (group g))) := by
    intro g t wt
    obtain ⟨t', e, w'⟩ := groupStep_loop (f := f) (fl := fl) (W := W (joinFlags fl (List.range (g * perGroup w)))) z
      (fun i t hi wi => hs _ i t hi wi) (g * perGroup w) (perGroup w) t wt
    refine ⟨t', e, ?_⟩
    have r : List.range ((g + 1) * perGroup w) = List.range (g * perGroup w) ++ group g := by
      rw [groups_cover, Nat.add_mul, Nat.one_mul]
    have q : (g + 1) * perGroup w = g * perGroup w + perGroup w := by rw [Nat.add_mul, Nat.one_mul]
    rw [r, joinFlags_append, q]
    exact ha _ _ _ _ w'
  have calm : ∀ n g t, W (joinFlags fl (List.range (g * perGroup w))) (min (g * perGroup w) (u.turnEnd u.vl)) t →
      (∀ j, g ≤ j → j < g + n → u.enabled (joinFlags fl (group j)) = false) → ∀ more, ∃ t',
        groupsFrom (perGroup w) (u.turnEnd u.vl) u.cur.start f (n + more) g t = groupsFrom (perGroup w) (u.turnEnd u.vl) u.cur.start f more (g + n) t' ∧
        W (joinFlags fl (List.range ((g + n) * perGroup w))) (min ((g + n) * perGroup w) (u.turnEnd u.vl)) t' := by
    intro n
    induction n with
    | zero => intro g t wt _ more; exact ⟨t, by rw [Nat.zero_add]; rfl, wt⟩
    | succ n ih =>
      intro g t wt q more
      obtain ⟨t', e, w'⟩ := one g t wt
      obtain ⟨t2, e2, w2⟩ := ih (g + 1) _ w' (fun j a b => q j (by omega) (by omega)) more
      have g1 : g + 1 + n = g + (n + 1) := by omega
      rw [g1] at e2 w2
      refine ⟨t2, ?_, w2⟩
      rw [← e2]
      have n1 : n + 1 + more = (n + more) + 1 := by omega
      rw [n1, groupsFrom_succ]
      have en : t.enabled (joinFlags fl (group g)) = false := (he _ _ _ _ wt).trans (q g (Nat.le_refl _) (by omega))
      have e' : groupStep f t (List.filter (fun i => decide (u.cur.start ≤ i) && decide (i < u.turnEnd u.vl))
          (List.map (fun x => g * perGroup w + x) (List.range (perGroup w)))) = (t', joinFlags fl (group g)) := e
      simp only [e', en, Bool.false_eq_true, if_false]
  have start0 : W (joinFlags fl (List.range (0 * perGroup w))) (min (0 * perGroup w) (u.turnEnd u.vl)) u := by
    simp only [Nat.zero_mul, Nat.zero_min]
    exact h0
  constructor
  · intro q
    obtain ⟨t, e, wt⟩ := calm ((u.turnEnd u.vl + perGroup w - 1) / perGroup w) 0 u start0 (fun j _ _ => q j) 0
    refine ⟨t, by unfold byGroups; dsimp only; rw [Nat.add_zero] at e; rw [e]; rfl, ?_⟩
    rw [Nat.zero_add] at wt
    have cov : u.turnEnd u.vl ≤ (u.turnEnd u.vl + perGroup w - 1) / perGroup w * perGroup w := by
      have a := Nat.div_add_mod (u.turnEnd u.vl + perGroup w - 1) (perGroup w)
      have b := Nat.mod_lt (u.turnEnd u.vl + perGroup w - 1) pp
      rw [Nat.mul_comm] at a
      omega
    rw [Nat.min_eq_right cov] at wt
    have jf : joinFlags fl (List.range ((u.turnEnd u.vl + perGroup w - 1) / perGroup w * perGroup w)) = joinFlags fl (List.range (u.turnEnd u.vl)) := by
      have sp : List.range ((u.turnEnd u.vl + perGroup w - 1) / perGroup w * perGroup w) =
          List.range (u.turnEnd u.vl) ++ (List.range ((u.turnEnd u.vl + perGroup w - 1) / perGroup w * perGroup w - u.turnEnd u.vl)).map (u.turnEnd u.vl + ·) := by
        rw [← List.range_add]; congr 1; omega
      rw [sp, joinFlags_append]
      have zero : ∀ n, joinFlags fl ((List.range n).map (u.turnEnd u.vl + ·)) = 0 := by
        intro n
        induction n with
        | zero => rfl
        | succ n ih =>
          rw [List.range_succ, List.map_append, joinFlags_append, ih]
          show 0 ||| joinFlags fl [u.turnEnd u.vl + n] = 0
          rw [joinFlags_one, z _ (by omega)]
          rfl
      rw [zero]
      exact BitVec.or_zero
    rw [jf] at wt
    exact wt
  · intro k hk q en
    have more : ∃ r, (u.turnEnd u.vl + perGroup w - 1) / perGroup w = k + (r + 1) := by
      have : k < (u.turnEnd u.vl + perGroup w - 1) / perGroup w := by
        rw [Nat.lt_div_iff_mul_lt pp]
        omega
      exact ⟨(u.turnEnd u.vl + perGroup w - 1) / perGroup w - k - 1, by omega⟩
    obtain ⟨r, hr⟩ := more
    obtain ⟨t, e, wt⟩ := calm k 0 u start0 (fun j _ b => q j (by omega)) (r + 1)
    rw [Nat.zero_add] at e wt
    obtain ⟨t', e', _⟩ := one k t wt
    rw [Nat.min_eq_left (Nat.le_of_lt hk)] at wt
    refine ⟨t, ?_, wt⟩
    unfold byGroups
    dsimp only
    rw [hr, e, groupsFrom_succ]
    have en' : t.enabled (joinFlags fl (group k)) = true := (he _ _ _ _ wt).trans en
    have e2 : groupStep f t (List.filter (fun i => decide (u.cur.start ≤ i) && decide (i < u.turnEnd u.vl))
        (List.map (fun x => k * perGroup w + x) (List.range (perGroup w)))) = (t', joinFlags fl (group k)) := e'
    simp only [e2, en', if_true]

/-! ## Lists of results -/

theorem indexed_append {α : Type} (l : List α) (x : α) : indexed (l ++ [x]) = indexed l ++ [(l.length, x)] := by
  unfold indexed
  rw [List.length_append, List.length_singleton, List.range_succ, List.zip_append (by simp)]
  rfl

/-- A loop over a list with its positions is a loop over the positions. -/
theorem indexed_foldl {α β : Type} (f : β → Nat → α → β) (z : α) (l : List α) (b : β) :
    (indexed l).foldl (fun t (x : Nat × α) => f t x.1 x.2) b = (List.range l.length).foldl (fun t i => f t i (l.getD i z)) b := by
  rw [← List.reverse_reverse l]
  induction l.reverse with
  | nil => rfl
  | cons x r ih =>
    rw [List.reverse_cons, indexed_append, List.foldl_append, ih, List.length_append, List.length_singleton, List.range_succ,
      List.foldl_append]
    simp only [List.foldl_cons, List.foldl_nil]
    have e : (List.range r.reverse.length).foldl (fun t i => f t i (r.reverse.getD i z)) b =
        (List.range r.reverse.length).foldl (fun t i => f t i ((r.reverse ++ [x]).getD i z)) b := by
      have g : ∀ n, n ≤ r.reverse.length → (List.range n).foldl (fun t i => f t i (r.reverse.getD i z)) b =
          (List.range n).foldl (fun t i => f t i ((r.reverse ++ [x]).getD i z)) b := by
        intro n
        induction n with
        | zero => intro _; rfl
        | succ n ih2 =>
          intro h
          rw [List.range_succ, List.foldl_append, List.foldl_append, ih2 (by omega)]
          simp only [List.foldl_cons, List.foldl_nil]
          rw [List.getD_eq_getElem?_getD, List.getD_eq_getElem?_getD, List.getElem?_append_left (by omega)]
      exact g _ (Nat.le_refl _)
    rw [e]
    congr 1
    rw [List.getD_eq_getElem?_getD, List.getElem?_append_right (Nat.le_refl _), Nat.sub_self]
    rfl

/-- Results written to the first elements of a group. -/
theorem wrote_indexed {u : State} {d : Fin 64} {size w : Nat} {vs : List Nat} (dv : w ∣ 8192) (pw : 0 < w)
    (g1 : 1 ≤ u.hart.place.grant) (g2 : u.hart.place.grant ≤ 12) (fit : d.val + size ≤ 64)
    (room : vs.length ≤ vlmaxOf u.hart.place.grant size w) :
    WroteElts u d size w (fun j => decide (j < vs.length)) (fun j => vs.getD j 0)
      ((indexed vs).foldl (fun t (x : Nat × Nat) => t.setElt d w x.1 x.2) u) := by
  have e := indexed_foldl (fun (t : State) i v => t.setElt d w i v) 0 vs u
  rw [e]
  refine range_loop (fun n t => WroteElts u d size w (fun j => decide (j < n)) (fun j => vs.getD j 0) t) _ vs.length u
    (WroteElts.none _ _ _ _ _ _ (fun i => by simp)) ?_
  intro i t hi P
  refine P.step dv pw g1 g2 fit (by omega) (fun j => ?_) rfl
  by_cases e : j = i
  · subst e; simp
  · have : j < i + 1 ↔ j < i := by omega
    simp [this, e]

end Sys2Proof.Machine
end

