-- ==== Sys2Proof/Tests/Slice0.lean ====
section
/-! SUPPORT. Tests: words of the spec decode to what they stand for, ill-formed terms are refused, the spec's worked examples come out, and
states that meet the hypotheses of the statements. Expected results are the spec's own, or worked by hand from its rules. -/

open Sys2Proof Sys2Proof.Machine

/-! ## Small states -/

namespace Sys2Proof.Tests

set_option Elab.async false

/-- A guard that is on: g0. -/
def h0 : Hdr := ⟨0, false⟩
/-- A guard that is off: not g0. -/
def hOff : Hdr := ⟨0, true⟩

/-- A hart of a launch of one crew on furrow 0 of function 0, at the pc 0 of an executable page, with a window of 64 KiB. -/
def w0 : State := State.reset.withFetchWord 0 0

/-- `w0` with x registers set. -/
def wx (l : List (Fin 32 × Word)) (s : State := w0) : State := l.foldl (fun s p => s.setX p.1 p.2) s
/-- With `n` elements of a format. -/
def wv (f : Fmt) (n : Nat) (s : State := w0) : State := s.modCsr (fun c => { c with vtype := ⟨f, 0⟩, vl := n })
/-- With a handler at 0x100. -/
def wh (s : State := w0) : State := s.modCsr (fun c => { c with utvec := 0x100 })
/-- With a message queue at window offset 0 of four entries that holds a message of 8 bytes. -/
def wm (s : State := w0) : State :=
  (s.modCsr (fun c => { c with mqcfg := 0x400000000 })).modCtl (fun c => { c with mq := { c.mq with msgs := [(8, 0)] } })
/-- With an entry for the page at `va` of the context: `ent` is its word. -/
def wp (va ent : Word) (s : State := w0) : State := s.putEntry s.ctx va ent
/-- V, P, R and W of a page of format `fmt` on frame `fr`, owned by function 0. -/
def rw (fmt fr : Nat) : Word := BitVec.ofNat 64 (2 ^ 63 + 2 ^ 62 + 2 ^ 61 + 2 ^ 60 + fmt * 2 ^ 50 + fr)
/-- The local address of a window offset. -/
def loc (o : Nat) : Word := BitVec.ofNat 64 (0xFE00 * 2 ^ 48 + o)

/-- The next state of an outcome; the state before, where it has none. -/
def okState (o : Out) : State := match o with
  | .next s => s
  | _ => w0

theorem starts {rs : List (Fin 32)} {s : State} {h : Hdr} (g : guardOn h s = true) (n : rs.contains 30 = false) :
    Starts h rs s s := by
  refine ⟨g, ?_⟩
  unfold popped
  rw [n]
  split <;> rfl

theorem is_ok {α β : Type} {x : Except α β} (h : x.isOk = true) : ∃ r, x = .ok r := by
  cases x with
  | ok r => exact ⟨r, rfl⟩
  | error _ => cases h

theorem is_error {α β : Type} {x : Except α β} (h : x.isOk = false) : ∃ r, x = .error r := by
  cases x with
  | ok _ => cases h
  | error r => exact ⟨r, rfl⟩

theorem is_some {α : Type} {x : Option α} (h : x.isSome = true) : ∃ r, x = some r := Option.isSome_iff_exists.1 h

/-! ## Witnesses: each shows states and operands that meet the hypotheses of an obligation, clause by clause -/

/-- A vector state: registers as given, no mask held, a legal grant. -/
theorem vec_ok (f : Fmt) (n : Nat) (h : n ≤ vlmaxOf 1 1 f.width) : (wv f n).vecOk := by
  have g : w0.hart.place.grant = 1 := by decide +kernel
  refine ⟨show 1 ≤ w0.hart.place.grant by omega, show w0.hart.place.grant ≤ 12 by omega, ?_⟩
  show n ≤ vlmaxOf w0.hart.place.grant 1 f.width
  rw [g]; exact h

theorem wit_ScalarArithmetic : Starts h0 [1, 2] w0 w0 ∧ (∃ u, Starts h0 [30, 2] wm u) ∧
    (∃ w, encode (.addsh h0 31 30 2 0) = [w]) ∧ 8 ≤ (8 : Word).toNat ∧ (65535 : Word).toNat < 65536 :=
  ⟨starts (by decide +kernel) rfl, ⟨_, by decide +kernel, by rfl⟩, ⟨_, rfl⟩, by decide +kernel⟩

theorem wit_ScalarCompares : Starts h0 [31] w0 w0 ∧ Starts h0 [] w0 w0 ∧
    ∃ w r, encode (.cgeu h0 7 0 (.imm (.lit 5))) = w :: r ∧ 1 ≤ 7 ∧ 7 ≤ 7 :=
  ⟨starts (by decide +kernel) rfl, starts (by decide +kernel) rfl, _, _, rfl, by decide +kernel⟩

theorem wit_ScalarMoves : Starts h0 [1, 2] w0 w0 ∧ Starts h0 [1] w0 w0 ∧ Starts h0 [] w0 w0 :=
  ⟨starts (by decide +kernel) rfl, starts (by decide +kernel) rfl, starts (by decide +kernel) rfl⟩

/-- 1.0 / 0.0 raises DZ, which traps where its enable is set and not at reset. -/
theorem wit_ScalarFloat : Starts h0 [1, 2, 3] w0 w0 ∧ w0.enabled (fDiv specF32 0 (.fin false 1 0) (.fin false 0 0)).2 = false ∧
    (w0.modCsr (fun c => { c with fflags := 0x1F00 })).enabled (fDiv specF32 0 (.fin false 1 0) (.fin false 0 0)).2 = true ∧
    (FVal.nan true).isNan = true :=
  ⟨starts (by decide +kernel) rfl, by decide +kernel, by decide +kernel, rfl⟩

/-- A load at the last doubleword of the window, at main memory, one byte beyond the window, and misaligned. -/
theorem wit_ScalarLoads : ∃ s : State, Starts h0 [1] s s ∧ s.x 1 = loc 0xFFF8 ∧ s.interlocked [(s.x 1, 8)] = false ∧
    (∃ r, s.scalarRead (s.x 1) 8 = .ok r) :=
  ⟨wx [(1, loc 0xFFF8)], starts (by decide +kernel) rfl, by decide +kernel, by decide +kernel, is_ok (by decide +kernel)⟩

theorem wit_ScalarLoads_reads : classOf (loc 0xFFF8) = .loc ∧ offsetOf (loc 0xFFF8) < w0.myWindow ∧ (loc 0xFFF8).toNat % 8 = 0 ∧
    (loc 0xFFFC).toNat % 8 ≠ 0 ∧ w0.myWindow ≤ offsetOf (loc 0x10000) ∧ classOf (loc 0x10000) = .loc ∧
    classOf (BitVec.ofNat 64 (0xFE01 * 2 ^ 48)) = .frw 0 ∧
    offsetOf (BitVec.ofNat 64 (0xFE01 * 2 ^ 48)) < w0.windowSize (furrowOf w0.loc * 8) w0.hart.place.launch ∧
    classOf (BitVec.ofNat 64 (2 ^ 63)) = .none ∧ (classOf 0x10007).isVirt = true ∧ (0x10007 : Word).toNat % 8 ≠ 0 := by
  decide +kernel

theorem wit_ScalarLoads_memory : ∃ p, (wp 0x10000 (rw 0 1)).translate (wp 0x10000 (rw 0 1)).ctx 0x1FFF8 Need.load (fun _ => false) = .ok p ∧
    (classOf 0x1FFF8).isVirt = true ∧ (wp 0x10000 (rw 0 1)).viewFault p false = none ∧
    w0.translate w0.ctx 0x1FFF8 Need.load (fun _ => false) = .error .protect :=
  ⟨_, rfl, by decide +kernel, by decide +kernel, rfl⟩

/-- Entries that are denied, of format 12, misaligned, absent and right. -/
theorem wit_Translation : entV (0 : Word) = false ∧ 12 ≤ entFMT (rw 12 0) ∧ entFMT (rw 11 0) < 12 ∧ entV (rw 12 0) = true ∧
    entR (rw 12 0) = true ∧ entP (rw 0 0) = true ∧ entP (rw 0 0 ^^^ BitVec.twoPow 64 62) = false ∧
    (wp 0x10000 (rw 12 0)).entryAt w0.ctx 0x10000 = rw 12 0 ∧ w0.linkLost 0x10000 (rw 12 0) = false := by decide +kernel

theorem wit_ScalarStores : ∃ s : State, Starts h0 [1, 2] s s ∧ s.x 1 = loc 0xFFF8 ∧ s.interlocked [(s.x 1, 8)] = false ∧
    s.scalarIssueFault (s.x 1) 8 true = none :=
  ⟨wx [(1, loc 0xFFF8)], starts (by decide +kernel) rfl, by decide +kernel⟩

/-- A hart with a store on its way. -/
def ws (a : Word) (s : State := w0) : State := s.modCtl (fun c => { c with stores := [⟨a, 8, 5, 0, none⟩] })

theorem wit_ScalarStores_arrive : (ws (loc 0)).hart.resident = true ∧ (ws (loc 0)).hart.ctl.stores = [⟨loc 0, 8, 5, 0, none⟩] ∧
    classOf (loc 0) = .loc ∧ (classOf 0x10008).isVirt = true ∧
    (∃ p, (wp 0x10000 (rw 0 1)).translate w0.ctx 0x10008 Need.store (fun _ => false) = .ok p ∧
      (wp 0x10000 (rw 0 1)).viewFault p true = none ∧ entFMT p.e ≠ 11) ∧
    w0.storePerform ⟨0x20008, 8, 5, 0, none⟩ = .error .protect :=
  ⟨by decide +kernel, rfl, by decide +kernel, by decide +kernel, ⟨_, rfl, by decide +kernel⟩, rfl⟩

theorem wit_StorageWrites : w0.canonical ∧ (w0.window 0 w0.hart.place.launch).isSome = true ∧ (0 : Nat) + [1, 2].length ≤ 2 ^ 17 :=
  ⟨⟨by decide +kernel, by decide +kernel, by decide +kernel, by unfold Hart.canonical; decide +kernel,
    by unfold Hart.canonical; decide +kernel⟩, by decide +kernel⟩

theorem wit_Atomics : ∃ s : State, Starts h0 [1, 2, 3] s s ∧ s.x 1 = loc 0xFFF8 ∧ s.interlocked [(s.x 1, 8)] = false ∧
    (∃ r, s.amoAt (s.x 1) 8 (fun z => some (z + 1)) = .ok r) ∧
    (∃ r, s.amoAt (s.x 1) 8 (fun z => if z = ((s.x 3).setWidth 64).toNat then some 7 else none) = .ok r) ∧
    s.scalarIssueFault (s.x 1) 8 true = none :=
  ⟨wx [(1, loc 0xFFF8)], starts (by decide +kernel) rfl, by decide +kernel, by decide +kernel, is_ok (by decide +kernel),
    is_ok (by decide +kernel), by decide +kernel⟩

theorem wit_Atomics_memory : ∃ p, (wp 0x10000 (rw 5 1)).translate w0.ctx 0x1FFF8 Need.amo (fun _ => false) = .ok p ∧
    ((wp 0x10000 (rw 5 1)).pmeta p.frame).state ≠ 3 ∧ entFMT p.e < 6 ∧ classOf (BitVec.ofNat 64 (0xFE01 * 2 ^ 48)) = .frw 0 :=
  ⟨_, rfl, by decide +kernel⟩

theorem wit_Branches : Starts h0 [] w0 w0 ∧ Starts h0 [1] (wx [(1, 1)]) (wx [(1, 1)]) ∧ (wx [(1, 1)]).x 1 = 1 ∧ w0.x 1 ≠ 1 ∧
    (w0.x 1).toNat % 8 = 0 ∧ ((wx [(1, 1)]).x 1).toNat % 8 ≠ 0 ∧ w0.hart.ctl.inHandler = false ∧
    (w0.modCtl (fun c => { c with inHandler := true })).hart.ctl.inHandler = true :=
  ⟨starts (by decide +kernel) rfl, starts (by decide +kernel) rfl, by decide +kernel, by decide +kernel, by decide +kernel,
    by decide +kernel, rfl, rfl⟩

theorem wit_ControlRegisters : Starts h0 [1] w0 w0 ∧ w0.csrRead 0x060 = some 0 ∧ w0.csrRead 0x061 = none ∧
    (∃ v, w0.csrWrite 0x021 8 = some v) ∧ w0.csrWrite 0x021 7 = none ∧ w0.csrWrite 0x000 0 = none ∧ (∃ v, w0.csrWrite 0x003 0x1F1F = some v) :=
  ⟨starts (by decide +kernel) rfl, by decide +kernel, by decide +kernel, is_some (by decide +kernel), by decide +kernel,
    by decide +kernel, is_some (by decide +kernel)⟩

theorem wit_TrapEntry : Cause.trap.user = true ∧ wh.hart.csr.utvec ≠ 0 ∧ wh.hart.ctl.inHandler = false ∧ wh.hart.resident = true ∧
    Cause.illegal.user = false := by decide +kernel

theorem wit_TrapInstruction : guardOn h0 wh = true ∧ wh.hart.csr.utvec ≠ 0 ∧ wh.hart.ctl.inHandler = false ∧
    wh.hart.ctl.next.toNat % 8 = 0 ∧ guardOn h0 w0 = true ∧ w0.hart.csr.utvec = 0 := by decide +kernel

/-- A hart in its handler, after a trap at the pc 0 with the store record `st`. -/
def wr (isTrap : Bool) (st : Option PendingStore) (cause : Cause) (uepc info : Word) (s : State := w0) : State :=
  (s.modCsr (fun c => { c with ucause := cause.code, uepc := uepc, uinfo := info })).modCtl (fun c => { c with
    inHandler := true, trapRec := some ⟨0, isTrap, st, none, some s.cur, ⟨8, none, 0⟩, []⟩ })

theorem wit_ReturnFromHandler : guardOn h0 w0 = true ∧ w0.hart.ctl.trapRec = none ∧
    (wr false none .arith 0 0).hart.ctl.trapRec = some ⟨0, false, none, none, some w0.cur, ⟨8, none, 0⟩, []⟩ ∧
    (wr false none .arith 0 0).hart.ctl.inHandler = true ∧ guardOn h0 (wr false none .arith 0 0) = true ∧
    (wr false none .arith 4 0).hart.csr.uepc.toNat % 8 ≠ 0 ∧ (wr false none .arith 8 0).hart.csr.uepc ≠ 0 ∧
    (wr true none .trap 0 0).hart.csr.uepc = 0 ∧ Cause.arith.code ≠ Cause.absent.code ∧
    (wr false (some ⟨0, 8, 5, 0, none⟩) .misalign 0 0).hart.csr.ucause ≠ Cause.absentSt.code ∧
    (let s := wr false none .absent 0 0x10000 (wp 0x10000 (rw 0 1))
     entV (s.entryAt s.ctx s.hart.csr.uinfo) = true ∧ entP (s.entryAt s.ctx s.hart.csr.uinfo) = true ∧ s.hart.ctl.pin = none) := by
  decide +kernel

/-- A hart with a copy of `k` in flight under tag 0. -/
def wc (k : CopyKind) (s : State := w0) : State :=
  s.modCtl (fun c => { c with tags := c.tags.set 0 ⟨.busy, some ⟨k, loc 0, loc 64, 32, 32, 0, 0, 0, [], 0, 0, [], 0, true⟩, 0, 0, 0⟩ })

theorem wit_SystemInstructions : guardOn h0 w0 = true ∧ w0.hart.copying = false ∧ (wc .cpy).hart.copying = true ∧ w0.myFn.dbg = false ∧
    (w0.modFn 0 (fun f => { f with dbg := true })).myFn.dbg = true ∧ w0.hart.ctl.pend &&& 0b11111 ≠ 0 ∧ w0.hart.ctl.pend &&& 1 = 0 := by
  decide +kernel

/-- Queue 0 of function 0 open to LAUNCH with two slots, `n` of them in use. -/
def wq (n : BitVec 32) (s : State := w0) : State :=
  s.modQueue 0 0 (fun x => { x with en := true, devfed := true, size := 2, base := 0x10000, tail := n })

theorem wit_LaunchAndHalt : w0.hart.live = true ∧ (∀ t : Fin 64, (w0.tag t).st ≠ .busy) ∧ ((wc .cpy).tag 0).st = .busy ∧
    w0.candidates w0.hart.place.fn = [] ∧ (classOf (w0.x 1)).isVirt = true ∧ (w0.x 1).toNat % 64 = 0 ∧ (w0.x 2).toNat ≥ 16 ∧
    (w0.x 1).toNat < 16 ∧ w0.myFn.queues[0].en = false ∧
    (wq 2).myFn.queues[0].size.toNat ≤ ((wq 2).myFn.queues[0].tail - (wq 2).myFn.queues[0].head).toNat ∧
    ((wq 1).myFn.queues[0].tail - (wq 1).myFn.queues[0].head).toNat < (wq 1).myFn.queues[0].size.toNat ∧
    w0.interlocked [(w0.x 1, 64)] = false := by decide +kernel

theorem wit_LaunchAndHalt_record : ∃ r, ((wp 0 (rw 0 1)).settleHart w0.hart.dest).recordRead 0 = .ok r := is_ok (by decide +kernel)

/-- A hart that has arrived at barrier 3 of its crew. -/
def wb (rel : Bool) (s : State := w0) : State := s.modCtl (fun c => { c with arrived := some (false, 3), released := rel })

theorem wit_BarriersAndFences : guardOn h0 w0 = true ∧ w0.hart.ctl.arrived = none ∧ w0.hart.copying = false ∧ (wc .cpy).hart.copying = true ∧
    (wb true).hart.ctl.arrived.isSome = true ∧ (wb true).hart.ctl.released = true ∧ (wb false).hart.ctl.released = false ∧
    w0.cosident = false ∧ (∃ h ∈ (wb false).harts, h.place.launch = w0.hart.place.launch ∧ h.place.crew.toNat = 0) ∧
    (∀ h ∈ (wb false).harts, h.ctl.arrived = some (false, 3) ∧ h.ctl.released = false) ∧
    (∃ h ∈ w0.harts, h.place.launch = w0.hart.place.launch ∧ ¬(h.ctl.arrived = some (false, 3))) ∧
    (((w0.settleHart w0.hart.dest).modCtl (fun c => { c with arrived := some (false, 3), released := false })).tryBarrier false
      w0.hart.place.launch w0.hart.place.crew.toNat 3).hart.ctl.released = true := by decide +kernel

theorem wit_BarriersAndFences_channels : Starts h0 [1, 2] w0 w0 ∧ w0.ringHeld (furrowOf w0.loc) w0.hart.place.launch = true ∧
    (w0.ringCount (furrowOf w0.loc) w0.hart.place.launch 0).toNat < ((w0.x 2).setWidth 32).toNat ∧
    ((w0.x 1).setWidth 32).toNat ≤ (w0.ringCount (furrowOf w0.loc) w0.hart.place.launch 15).toNat :=
  ⟨starts (by decide +kernel) rfl, by decide +kernel⟩

theorem wit_BarriersAndFences_record : (classOf 0).isVirt = true ∧
    ∃ v, (((wp 0 (rw 0 1)).settleHart w0.hart.dest).noteStore (0, 8)).storePerform ⟨0, 8, 5, 0, none⟩ = .ok v :=
  ⟨by decide +kernel, is_ok (by decide +kernel)⟩

/-- The hypotheses that vector statements share: started, a legal grant, no mask held, groups aligned, an integer format. -/
theorem wit_VectorInteger : Starts h0 (vsrcRegs (.x 5)) (wv .i64 128) (wv .i64 128) ∧ (wv .i64 128).vecOk ∧
    (wv .i64 128).maskHeld 7 = false ∧ [0, 8, 63].all (aligned (wv .i64 128).vt.size) = true ∧ (wv .i64 128).vt.fmt.isInt = true :=
  ⟨starts (by decide +kernel) rfl, vec_ok .i64 128 (by decide), by decide +kernel, by decide +kernel, rfl⟩

/-- A group of two at an odd register is not aligned, and f32 is no integer format. -/
theorem wit_VectorCompares : Starts h0 (vsrcRegs (.imm (.short 1))) (wv .f32 4) (wv .f32 4) ∧ (wv .f32 4).vecOk ∧ (wv .f32 4).maskHeld 1 = false ∧
    (wv .f32 4).maskHeld 7 = false ∧ (wv .f32 4).vt.fmt.isVfp = true ∧ (wv .f32 4).vt.fmt.isInt = false ∧
    ([1].all (aligned ((wv .f32 4).modCsr (fun c => { c with vtype := ⟨.i32, 1⟩ })).vt.size) = false) ∧
    ([2].all (aligned ((wv .f32 4).modCsr (fun c => { c with vtype := ⟨.i32, 1⟩ })).vt.size) = true) :=
  ⟨starts (by decide +kernel) rfl, vec_ok .f32 4 (by decide), by decide +kernel, by decide +kernel, rfl, rfl, by decide +kernel⟩

/-- Masks 1 and 2 of which bit 0 of mask 1 is set below vl, and an empty one. -/
def wk (s : State := wv .i8 4) : State := s.modRegs (fun r => { r with k := r.k.set 1 1 })

theorem wit_Masks : wk.vecOk ∧ ([1, 2, 3] : List (Fin 8)).all (fun k => !wk.maskHeld k) = true ∧ Starts h0 [] wk wk ∧ Starts h0 [5] wk wk ∧
    aligned wk.vt.size 63 = true ∧ wk.vt.fmt.isInt = true ∧ (∀ j, j < wk.vl → wk.kbit 2 j = false) ∧ 0 < wk.vl ∧ wk.kbit 1 0 = true :=
  ⟨by unfold State.vecOk; decide +kernel, by decide +kernel, starts (by decide +kernel) rfl, starts (by decide +kernel) rfl, by decide +kernel⟩

theorem wit_VectorFloat : (wv .bf16 8).vecOk ∧ (wv .bf16 8).maskHeld 1 = false ∧ (wv .bf16 8).vt.fmt.isVfp = true ∧
    Starts h0 (vsrcRegs (.vec ⟨3, true⟩)) (wv .bf16 8) (wv .bf16 8) ∧ [1, 2, 3].all (aligned (wv .bf16 8).vt.size) = true :=
  ⟨vec_ok .bf16 8 (by decide), by decide +kernel, rfl, starts (by decide +kernel) rfl, by decide⟩

theorem wit_Permutations : (wv .q4 5).vecOk ∧ Starts h0 (posRegs (.x 4)) (wv .q4 5) (wv .q4 5) ∧ Starts h0 [6, 4] (wv .q4 5) (wv .q4 5) ∧
    (wv .q4 5).maskHeld 1 = false ∧ [1, 2].all (aligned (wv .q4 5).vt.size) = true ∧ (1 : Nat) + (wv .q4 5).vt.size ≤ 2 :=
  ⟨vec_ok .q4 5 (by decide), starts (by decide +kernel) rfl, starts (by decide +kernel) rfl, by decide +kernel⟩

theorem wit_Scans : Starts h0 [] (wv .n16 3) (wv .n16 3) ∧ (wv .n16 3).vecOk ∧ (wv .n16 3).maskHeld 1 = false ∧
    scanFmt (wv .n16 3).vt.fmt = true ∧ [1, 2, 3].all (aligned (wv .n16 3).vt.size) = true ∧ (1 : Nat) + (wv .n16 3).vt.size ≤ 2 :=
  ⟨starts (by decide +kernel) rfl, vec_ok .n16 3 (by decide), by decide +kernel, rfl, by decide +kernel⟩

theorem wit_Reductions : Starts h0 [] (wv .f16 1) (wv .f16 1) ∧ (wv .f16 1).maskHeld 1 = false ∧ aligned (wv .f16 1).vt.size 63 = true ∧
    (wv .f16 1).vt.fmt.isVfp = true ∧ (wv .n8 0).vt.fmt.isInt = true ∧ [1, 2, 3].length % 2 = 1 ∧ 2 ≤ [1, 2].length :=
  ⟨starts (by decide +kernel) rfl, by decide +kernel, by decide, rfl, rfl, rfl, by decide⟩

/-- mcfg values at the limits of MR, and a codebook's block in the window. -/
theorem wit_VectorConfig : Starts h0 [1, 2] (wv .f32 40) (wv .f32 40) ∧ (wv .f32 40).vecOk ∧ aligned (wv .f32 40).vt.size 1 = true ∧
    ((0x140 : Word).extractLsb' 0 7).toNat = 64 ∧ (0x140 : Word).extractLsb' 8 16 ≠ 0 ∧ ((0x141 : Word).extractLsb' 0 7).toNat = 65 ∧
    w0.blockStarts (loc 0xFFE0) = true ∧ (loc 0xFFE0).toNat % 32 = 0 ∧ w0.interlocked [(loc 0xFFE0, 32)] = false :=
  ⟨starts (by decide +kernel) rfl, vec_ok .f32 40 (by decide), by decide +kernel⟩

theorem wit_VectorConfig_blocks : (∃ r, w0.blockRead (loc 0xFFE0) 4 = .ok r) ∧ ∃ e, w0.blockRead 0x20000 4 = .error e :=
  ⟨is_ok (by decide +kernel), is_error (by decide +kernel)⟩

theorem wit_Conversions : Starts h0 [] (wv .f32 8) (wv .f32 8) ∧ (wv .f32 8).vecOk ∧ (wv .f32 8).maskHeld 1 = false ∧
    aligned (wv .f32 8).vt.size 1 = true ∧ aligned (VType.size ⟨.bf16, halfGroup (wv .f32 8).vt.group⟩) 2 = true ∧
    narrows .f32 .bf16 = true ∧ narrows .f32 .i8 = false ∧ narrows .f8e4 .f32 = false ∧ (wv .bf16 8).vt.group ≠ 3 ∧ narrows .f32 .bf16 = true ∧
    (vcvtiDst .f32 0).isSome = true ∧ vcvtiDst .f4 0 = none :=
  ⟨starts (by decide +kernel) rfl, vec_ok .f32 8 (by decide), by decide +kernel, by decide, by decide, rfl, rfl, rfl, by decide, rfl,
    by decide +kernel⟩

theorem wit_Conversions_blocks : (wv .f32 33).vt.fmt = .f32 ∧ (wv .f32 33).vecOk ∧ (0 : Fin 64).val < (1 : Fin 64).val ∧ ((wv .f32 33).vl + 31) / 32 = 2 ∧
    (wv .f32 33).enabled 0 = false :=
  ⟨rfl, vec_ok .f32 33 (by decide), by decide, rfl, by decide +kernel⟩

/-- A vector state whose page at 0x10000 is readable and writable with the format `fmt`. -/
def wl (fmt : Nat) (f : Fmt) (n : Nat) (a : Word) : State := wx [(1, a)] (wp 0x10000 (rw fmt 1) (wv f n))

theorem wit_VectorLoads : Starts h0 [1, 2] (wl 0 .i32 1 0x1FFFC) (wl 0 .i32 1 0x1FFFC) ∧ (wl 0 .i32 1 0x1FFFC).vecOk ∧
    ([1, 2] : List (Fin 8)).any (wl 0 .i32 1 0x1FFFC).maskHeld = false ∧ aligned (wl 0 .i32 1 0x1FFFC).vt.size 63 = true ∧
    (wl 0 .i32 1 0x1FFFC).interlocked (accessSpan 0x1FFFC 1 32 1) = false ∧
    (∃ r, (wl 0 .i32 1 0x1FFFC).fetchElt 0x1FFFC 0x1FFFC 0 32 .i32 false none false = .ok r) ∧
    (∃ c, (wl 0 .i32 2 0x1FFFC).fetchElt 0x20000 0x1FFFC 0 32 .i32 false none false = .error c) :=
  ⟨starts (by decide +kernel) rfl, by unfold State.vecOk; decide +kernel, by decide +kernel, by decide, by decide +kernel, is_ok (by decide +kernel),
    is_error (by decide +kernel)⟩

theorem wit_VectorLoads_strides : (wl 0 .f4 1 0x10000).stepBits 0x10000 4 = 4 ∧ (2 : Word).toNat % 2 = 0 ∧ (3 : Word).toNat % 2 = 1 := by
  decide +kernel

theorem wit_WindowLoads : Starts h0 [1] (wv .i16 2) (wv .i16 2) ∧ (wv .i16 2).interlocked (accessSpan (loc 0xFFFC) 1 16 2) = false ∧
    (wv .i16 2).padFault false false (loc 0xFFFE) 16 = none ∧ (wv .i16 2).padFault false false (loc 0x10000) 16 = some .protect ∧
    (wv .i16 2).padFault true false (BitVec.ofNat 64 (0xFE01 * 2 ^ 48)) 16 = none ∧
    (wv .i16 2).padFault false false (loc 0xFFFD) 16 = some .misalign ∧ padCore w0.loc (loc 0) = some 0 :=
  ⟨starts (by decide +kernel) rfl, by decide +kernel⟩

theorem wit_ElementFetch : (classOf (loc 0)).isVirt = false ∧ (classOf 0x10000).isVirt = true ∧
    (∃ p, (wl 1 .i8 1 0x10000).translate w0.ctx 0x10000 Need.load (fun _ => false) = .ok p ∧
      ((wl 1 .i8 1 0x10000).pmeta p.frame).state ≠ 3 ∧ (wl 1 .i8 1 0x10000).layout p ≠ .raw) ∧
    (∃ p, (wl 0 .i8 1 0x10000).translate w0.ctx 0x10000 Need.load (fun _ => false) = .ok p ∧
      (wl 0 .i8 1 0x10000).layout p = .raw ∧ sameStep p.e 8 8 = true ∧ rowFor .raw .i8 false = some .bytes) ∧
    w0.translate w0.ctx 0x10000 Need.load (fun _ => false) = .error .protect :=
  ⟨by decide, by decide, ⟨_, rfl, by decide +kernel⟩, ⟨_, rfl, by decide +kernel⟩, rfl⟩

theorem wit_RowAndScaledLoads : (∃ r, (wl 4 .f8e4 1 0x10000).fetchElt 0x10000 0x10000 0 8 .f8e4 true (some .value) false = .ok r) ∧
    Starts h0 [1] (wl 4 .f8e4 1 0x10000) (wl 4 .f8e4 1 0x10000) ∧ (wl 4 .f8e4 1 0x10000).interlocked (accessSpan 0x10000 1 8 1) = false ∧
    (wl 4 .f8e4 1 0x10000).todo 0 ≠ [] ∧ (wl 4 .f8e4 0 0x10000).todo 0 = [] ∧ (classOf 0x10000).isVirt = true :=
  ⟨is_ok (by decide +kernel), starts (by decide +kernel) rfl, by decide +kernel⟩

/-- A row-coherent page of 64-byte rows. -/
def wrow (n : Nat) : State := wx [(1, 0x10000)] (wp 0x10000 (rw 0 1 ||| BitVec.twoPow 64 57) (wv .i64 n))

theorem wit_RowAndScaledLoads_rows : ∃ p, (wrow 8).translate w0.ctx 0x10000 Need.load (fun _ => false) = .ok p ∧ entRC p.e = true ∧
    ((wrow 8).pmeta p.frame).state ≠ 3 ∧ (wrow 8).rowPending p (entRow p.e) = [] ∧ ¬((wrow 8).vl * 64 > 8 * entRow p.e) ∧
    (wrow 9).vl * 64 > 8 * entRow p.e :=
  ⟨_, rfl, by decide +kernel⟩

theorem wit_VectorStores : Starts h0 [1, 2] (wl 0 .i32 1 0x1FFFC) (wl 0 .i32 1 0x1FFFC) ∧ (wl 0 .i32 1 0x1FFFC).maskHeld 1 = false ∧
    (wl 0 .i32 1 0x1FFFC).interlocked (accessSpan 0x1FFFC 1 32 1) = false ∧
    (∃ r, (wl 0 .i32 1 0x1FFFC).storeElt (wl 0 .i32 1 0x1FFFC) 3 0x1FFFC 0x1FFFC 0 1 32 none 0 none 0 = .ok r) ∧
    (∃ c, (wl 0 .i32 2 0x1FFFC).storeElt (wl 0 .i32 2 0x1FFFC) 3 0x20000 0x1FFFC 0 1 32 none 0 none 1 = .error c) ∧
    (wv .i16 2).padFault false true (loc 0xFFFE) 16 = none ∧ (wv .i16 2).padFault false true (loc 0x10000) 16 = some .protect ∧
    8 ≤ (wv .i16 2).vt.fmt.width :=
  ⟨starts (by decide +kernel) rfl, by decide +kernel, by decide +kernel, is_ok (by decide +kernel), is_error (by decide +kernel), by decide +kernel⟩

theorem wit_VectorStores_pages : (∃ p, (wl 0 .i8 1 0x10000).translate w0.ctx 0x10000 Need.store (fun _ => false) = .ok p ∧
      (wl 0 .i8 1 0x10000).layout p = .raw ∧ blockFmt (entFMT p.e) = false) ∧
    (∃ p, (wl 4 .f32 1 0x10000).translate w0.ctx 0x10000 Need.store (fun _ => false) = .ok p ∧ ((wl 4 .f32 1 0x10000).pmeta p.frame).state ≠ 3) :=
  ⟨⟨_, rfl, by decide +kernel⟩, _, rfl, by decide +kernel⟩

/-- A hart with tag 0 in a state. -/
def wt (st : TagSt) (s : State := w0) : State := s.modCtl (fun c => { c with tags := c.tags.set 0 ⟨st, some ⟨.cpy, loc 0, loc 64, 32, 32, 0, 0, 0, [], 0, 0, [], 0, true⟩, 0, Cause.absent.code, loc 0⟩ })
/-- Operands of a copy from window offset 64 to 0, with `n` in x2, and the block of CPY2 at offset 0x100: two rows of 16 bytes. -/
def wy (n : Word) : State :=
  wx [(1, loc 64), (2, n), (3, loc 0)] (w0.myWrite 0x100 (leBytes 8 2 ++ leBytes 8 16 ++ leBytes 8 32 ++ leBytes 8 16))

theorem wit_Copies : Starts h0 [1, 2, 3] (wy 32) (wy 32) ∧ ((wt .busy).tag 0).st = .busy ∧ ((wy 32).tag 0).st ≠ .busy ∧
    ((wy 0).x 2).toNat = 0 ∧ 2 ^ 32 < ((wy 0x100000001).x 2).toNat ∧ ((wy 0x100000000).x 2).toNat ≤ 2 ^ 32 ∧
    classOf (loc 64) = classOf (loc 64 + BitVec.ofNat 64 31) ∧ classOf (loc 0) = .loc ∧
    spansMeet w0.loc 1 (loc 64, 32) (loc 0, 32) = false ∧ spansMeet w0.loc 1 (loc 64, 32) (loc 95, 32) = true ∧
    classOf (0x8000000000000000 : Word) = .none ∧ (wy 32).interlocked [(loc 64, 32), (loc 0, 32)] = false ∧
    (wc .cpy (wy 32)).interlocked [(loc 64, 32), (loc 0, 32)] = true ∧ ((wt .fault).tag 0).st = .fault ∧
    ((wt .fault).tag 0).op.isSome = true ∧ (wt .fault).interlocked [(loc 64, 32), (loc 0, 32)] = false :=
  ⟨starts (by decide +kernel) rfl, by decide +kernel⟩

theorem wit_Copies_rows : ∃ r, (wy (loc 0x100)).blockRead (loc 0x100) 4 = .ok r ∧ leNat (r.1.take 8) = 2 ∧ leNat ((r.1.drop 8).take 8) = 16 ∧
    (wy (loc 0x100)).interlocked [((wy (loc 0x100)).x 2, 32)] = false ∧ (wy (loc 0x100)).blockStarts ((wy (loc 0x100)).x 2) = true ∧
    rowSpan (loc 64) 2 16 32 = (loc 64, 48) ∧ rowSpan (loc 0) 2 16 16 = (loc 0, 32) :=
  ⟨_, rfl, by decide +kernel⟩

theorem wit_Copies_chunks : (wc .cpy).hart.resident = true ∧ ((wc .cpy).tag 0).prog < 32 ∧ offsetOf (loc 64) % 65536 + 32 ≤ 65536 ∧
    offsetOf (loc 64) + 32 ≤ (wc .cpy).myWindow ∧ (wc .cpy).liveRecord (wc .cpy).core (wc .cpy).hart.place.launch 0 32 = false ∧
    32 ≤ (((wc .cpy).modCtl (fun c => { c with tags := c.tags.set 0 { c.tags[(0 : Fin 64)] with prog := 32 } })).tag 0).prog := by decide +kernel

/-- PGREQ without V, with V alone, and with V and P; waits over a set of one tag, whatever its state. -/
theorem wit_TagsAndRequests : Starts h0 [1] (wx [(1, 0x10000)]) (wx [(1, 0x10000)]) ∧ (classOf 0x10000).isVirt = true ∧
    (classOf (loc 0)).isVirt = false ∧ entV (w0.entryAt w0.ctx 0x10000) = false ∧
    entV ((wp 0x10000 (rw 0 1)).entryAt w0.ctx 0x10000) = true ∧ entP ((wp 0x10000 (rw 0 1)).entryAt w0.ctx 0x10000) = true ∧
    entP ((wp 0x10000 (rw 0 1 &&& ~~~(BitVec.twoPow 64 62))).entryAt w0.ctx 0x10000) = false ∧
    entV ((wp 0x10000 (rw 0 1 &&& ~~~(BitVec.twoPow 64 62))).entryAt w0.ctx 0x10000) = true ∧ w0.myFn.pr.reqs.length < 1024 ∧
    (∀ t : Fin 64, ¬((1 : Word).getLsbD t.val = true ∧ (w0.tag t).st = .busy)) ∧
    ((1 : Word).getLsbD 0 = true ∧ ((wt .done).tag 0).st = .done ∧ ((wt .fault).tag 0).st = .fault ∧ ((wt .busy).tag 0).st = .busy) :=
  ⟨starts (by decide +kernel) rfl, by decide +kernel⟩

/-- A hart with a share of two sets of lines of 256 bytes, of which set 1 holds line 3 in way 2. -/
def wg (s : State := w0) : State :=
  (s.modCsr (fun c => { c with ttcfg := BitVec.ofNat 64 (2 ^ 32 + 2 ^ 44) })).modCtl (fun c => { c with
    share := some [⟨Vector.replicate 4 none, [0, 1, 2, 3]⟩, ⟨(Vector.replicate 4 none).set 2 (some 3), [2, 0, 1, 3]⟩] })

theorem wit_TagsAndRequests_share : ttEn wg.hart.csr = true ∧ w0.hart.ctl.share = none ∧ lineNo wg.hart.csr 0x3FF = 3 ∧
    3 % 2 ^ ttSetLg wg.hart.csr = 1 ∧ (8 : Nat) ≤ 4 * 2 ∧ 7 / 4 = 1 ∧
    ((Vector.replicate 4 none).set 2 (some 3) : Vector (Option Nat) 4)[(2 : Fin 4)] = some 3 := by decide +kernel

/-- R52: STLOOK answers slot 4 * 1 + 2 for the line that is held, and the victim, way 0 of set 1, in bits 63:48 for another one of that set. -/
theorem test_stlook : ((okState (execStlook h0 3 1 (wx [(1, 0x3FF)] wg))).x 3 = 6) ∧
    ((okState (execStlook h0 3 1 (wx [(1, 0x500)] wg))).x 3 = 0x0004FFFFFFFFFFFF) := by decide +kernel

/-- One element of a merging add of an integer of 64 bits. -/
def ma : MergeAdd := ⟨1, 0, 0, 0, .int 64, 5, some w0.hart.dest, false⟩
/-- A write queue whose one entry holds the sum 7 at the line of `ma`. -/
def we : WqEntry := ⟨1, 0, 0, [⟨0, 0, .int 64, 7⟩], [w0.hart.dest], [none]⟩
def wwq (s : State := w0) : State := s.modMs (fun m => { m with wq := [we] })

theorem canon_w0 : w0.canonical :=
  ⟨by decide +kernel, by decide +kernel, by decide +kernel, by unfold Hart.canonical; decide +kernel, by unfold Hart.canonical; decide +kernel⟩

theorem wit_MergingAdds : Starts h0 [1] (wrow 8) (wrow 8) ∧ (wrow 8).maskHeld 0 = false ∧
    (wl 0 .f32 4 0x10000).interlocked (accessSpan 0x10000 1 32 4) = false ∧ (wl 0 .f32 4 0x10000).todo 0 ≠ [] ∧
    (wl 0 .f32 0 0x10000).todo 0 = [] ∧ (wl 0 .f32 4 0x10000).hart.copying = false ∧ 8 * 64 < 9 * 64 ∧ (8 : Nat) * 64 ≤ 8 * 64 ∧
    (0x10004 : Word).toNat % 64 ≠ 0 :=
  ⟨starts (by decide +kernel) rfl, by decide +kernel⟩

theorem wit_MergingAdds_reduce : ∃ c, (wl 0 .i32 1 0x10000).reduceElt 0 0x10000 0 32 none 0 = .ok c := is_ok (by decide +kernel)

theorem wit_MergingAdds_queue : w0.ms.wq.find? (fun q => q.frame == ma.frame && q.line == ma.off / 64) = none ∧
    wwq.ms.wq.find? (fun q => q.frame == ma.frame && q.line == ma.off / 64) = some we ∧ wwq.ms.wq.Nodup ∧ wwq.ms.wq[0]? = some we ∧
    (wwq.pmeta 1).state ≠ 3 ∧ (64 : Nat) % 8 = 0 ∧ 0 + 64 / 8 ≤ 65536 ∧ 65504 % 32 + 32 ≤ 32 ∧ 65504 + 32 ≤ w0.windowSize 0 w0.hart.place.launch := by
  decide +kernel

/-- R63: a contribution to an element that has a pending sum is added to it. -/
theorem test_merge : ((okState (exec (.mergingAddArrival ma) wwq)).ms.wq.map (fun e => e.slots.map WqSlot.acc)) = [[12]] := by decide +kernel

/-- A credit of core 0 towards hart 0 of the launch, and a message on its way there. -/
def wn (s : State := wm) : State := s.modCores (fun c => { c with
  credits := [⟨0, s.hart.dest, 1⟩], net := [(s.hart.dest, ⟨0, [1, 2, 3]⟩)] })

theorem wit_Messages : Starts h0 [1] (wv .i8 4 wn) (wv .i8 4 wn) ∧ (wn.hart.dest = ⟨w0.hart.place.launch, w0.hart.place.crew, ((0 : Word)).setWidth 12⟩) ∧
    wn.creditOf 0 wn.hart.dest = some 1 ∧ wn.ringGuarded 0 = false ∧ w0.creditOf 0 w0.hart.dest = none ∧
    (w0.makeCredit 0 w0.hart.dest).isSome = true ∧ 4096 ≤ (0x1000 : Word).toNat ∧ (0xFFF : Word).toNat < 4096 ∧
    (∀ g ∈ w0.harts, g.dest.loc ≠ 1) ∧ ((2048 : Nat) * 1 + 7) / 8 ≤ 256 ∧ 256 < (2049 * 1 + 7) / 8 :=
  ⟨starts (by decide +kernel) rfl, by decide +kernel⟩

theorem wit_Messages_pop : w0.hart.csr.mqEntries = 0 ∧ wm.hart.csr.mqEntries = 4 ∧ wm.hart.ctl.mq.msgs = [(8, 0)] ∧
    (wm.modCtl (fun c => { c with mq := MsgQ.empty })).hart.ctl.mq.msgs = [] ∧ wn.hart.live = true ∧
    wn.cores.net.find? (fun m => m.1.loc == wn.hart.place.loc && m.2 == ⟨0, [1, 2, 3]⟩) = some (wn.hart.dest, ⟨0, [1, 2, 3]⟩) ∧
    wn.cores.net.find? (fun m => m.1 == wn.hart.dest && m.2.sender == 0) = some (wn.hart.dest, ⟨0, [1, 2, 3]⟩) ∧
    wn.hart.freeEntries = 3 ∧ (wm.modCtl (fun c => { c with mq := { c.mq with held := [9] } })).hart.ctl.mq.held = [9] := by decide +kernel

/-- A vector of addresses 0x10000 and 0x10008, and of expected words 0 and 1. -/
def wz : State := (wp 0x10000 (rw 0 1) (wv .i64 2)).modRegs (fun r => { r with
  v := (r.v.set 0 (BitVec.ofNat _ (0x10000 + 0x10008 * 2 ^ 64))).set 1 (BitVec.ofNat _ (2 ^ 64)) })

theorem wit_SleepOnMemory : Starts h0 [] wz wz ∧ wz.maskHeld 0 = false ∧ wz.maskHeld 1 = false ∧ wz.vl ≤ 64 ∧ 64 < (wv .i64 65).vl ∧
    wz.interlocked [(0x10000, 8), (0x10008, 8)] = false ∧ (List.range wz.vl).filter (wz.active 0) = [0, 1] ∧
    (wv .i64 0).vl = 0 ∧ (sleepWalk 0 1 [0, 1] wz []).1 = [0] ∧ (sleepWalk 0 1 [0, 1] wz []).2.2 = none ∧
    (sleepWalk 1 1 [0, 1] wz []).2.2 ≠ none ∧ wz.ms.wq = [] ∧ (wz.setSleep (some ⟨h0, 0, ⟨0, false⟩, ⟨1, false⟩, 0, .dev, true, false⟩)).hart.resident = true :=
  ⟨starts (by decide +kernel) rfl, by decide +kernel, by decide +kernel, by decide +kernel, by decide, by decide +kernel, by decide +kernel,
    rfl, by decide +kernel⟩

theorem wit_SleepOnMemory_again : (wz.modCtl (fun c => { c with phase := .waiting, sleep := some ⟨h0, 0, ⟨0, false⟩, ⟨1, false⟩, 0, .dev, true, false⟩ })).hart.resident = true ∧
    guardOn h0 wz = true := by decide +kernel

/-- Indices 3, 1, 3, 9 in v0, an arena of 4 KiB at 0x1000, and the block of a build with BOUND 8, BASE 0 and GRAN `g` at 0x200. -/
def wpb (g : Nat) : State :=
  let s := (wv .i32 4).modRegs (fun r => { r with v := r.v.set 0 (BitVec.ofNat _ (3 + 2 ^ 32 + 3 * 2 ^ 64 + 9 * 2 ^ 96)) })
  let s := s.modCsr (fun c => { c with plarena := BitVec.ofNat 64 (0x1000 + 0x1000 * 2 ^ 32) })
  wx [(1, loc 0x200), (2, 0x10000), (3, 0)] (s.myWrite 0x200 (leBytes 8 8 ++ leBytes 8 0 ++ leBytes 8 0x10000 ++ leBytes 8 g))
/-- The plan of these indices under pl5. -/
def wpl : State := okState (execPlan h0 5 ⟨0, false⟩ 1 0 (wpb 4))
/-- The record of pl5, at 0x1000. -/
def recOf (s : State) : PlanRec := s.planAt ⟨0x1000, 136, none⟩

theorem wit_PlanLifecycle : Starts h0 [1] (wpb 4) (wpb 4) ∧ (wpb 4).interlocked [(loc 0x200, 32)] = false ∧ (wpb 4).blockStarts (loc 0x200) = true ∧
    (∃ r, (wpb 4).blockRead (loc 0x200) 4 = .ok r ∧ leNat ((r.1.drop 24).take 4) = 2 ^ 2) ∧
    (∃ r, (wpb 3).blockRead (loc 0x200) 4 = .ok r ∧ ∀ e, e < 12 → leNat ((r.1.drop 24).take 4) ≠ 2 ^ e) ∧
    (wpb 4).arenaPlace 0x1000 = some 0x1000 ∧ (wpb 4).arenaPlace 0x1001 = none ∧ (wpb 4).hart.regs.pl[(5 : Fin 16)] = none :=
  ⟨starts (by decide +kernel) rfl, by decide +kernel, by decide +kernel, ⟨_, rfl, by decide +kernel⟩, ⟨_, rfl, by decide +kernel⟩,
    by decide +kernel⟩

theorem wit_PlanLifecycle_list : (∃ r, readIndices 2 0x1FFF8 (wl 0 .i32 2 0x1FFF8) = .ok r) ∧ (0x1FFFA : Word).toNat % 4 ≠ 0 ∧
    (wl 0 .i32 2 0x1FFF8).interlocked [(0x1FFF8, 8)] = false := ⟨is_ok (by decide +kernel), by decide +kernel⟩

/-- The handle instructions on pl5: it is held, current and saved to a page. -/
theorem wit_PlanLifecycle_handles : wpl.hart.regs.pl[(5 : Fin 16)] = some ⟨0x1000, 136, none⟩ ∧ (recOf wpl).stale = false ∧
    wpl.changed (recOf wpl) = false ∧ wpl.hart.regs.pl[(4 : Fin 16)] = none ∧ (recOf wpl).n < (recOf wpl).key.bound ∧
    (planInfo (recOf wpl) 0x1000 136 0).isSome = true ∧ planInfo (recOf wpl) 0x1000 136 255 = none ∧
    wpl.interlocked [(loc 0x800, 136)] = false ∧ wpl.blockStarts (loc 0x800) = true ∧
    imageOk (wpl.myRead 0x1000 136) = true ∧ headerOk ((wpl.myRead 0x1000 136).take 64) = true ∧
    headerOk (List.replicate 64 0) = false := by decide +kernel

theorem wit_PlanLifecycle_save : ∃ v, saveImage false 18 (loc 0x800) (wpl.myRead 0x1000 136) wpl = .ok v := is_ok (by decide +kernel)

theorem wit_PlanImage : [3, 1, 3, 9].length ≤ 24576 ∧ granOk 4 = true ∧ (0x10000 : Word).toNat % 4 = 0 ∧ granOk 1 = true ∧ granOk 2048 = true ∧
    granOk 4096 = false := by decide

/-- R276: the plan of the indices 3, 1, 3, 9 under BOUND 8, made from the rule's own words. -/
theorem test_plan : let p := recOf wpl
    p.dist = [1, 3] ∧ p.slot = [1, 0, 1, 0xFFFF] ∧ p.order = [1, 0, 2] ∧ p.gstart = [0, 1, 3] ∧ p.flags % 4 = 3 := by decide +kernel

/-- A plan of the list at 0x10000, two zeros, under pl6, with BOUND 4 and watched; and the same after its page was written. -/
def wpm : State :=
  let s := wp 0x10000 (rw 0 1) (wpl.modCsr (fun c => { c with vl := 2 }))
  okState (execPlanm h0 6 2 1 (s.myWrite 0x200 (leBytes 8 4)))
def wpx : State := wpm.setMeta 1 { wpm.pmeta 1 with wgen := 9 }
def recOfM (s : State) : PlanRec := (s.hart.regs.pl[(6 : Fin 16)].map s.planAt).getD (recOf s)

theorem wit_PlanLifecycle_watched : (wpm.hart.regs.pl[(6 : Fin 16)]).isSome = true ∧ wpm.changed (recOfM wpm) = false ∧
    wpx.changed (recOfM wpx) = true ∧ (recOfM wpm).stale = false ∧ (recOfM wpm).key.bound ≤ (recOf wpm).n ∧
    (wpm.window wpm.core wpm.hart.place.launch).isSome = true ∧
    ((wpm.setPl 7 none).arenaPlace ((recOf wpm).key.build wpm.ctx (composed (recOf wpm) (recOfM wpm))).size).isSome = true ∧
    wpm.hart.regs.pl.toList.countP (fun p => (p.bind PlanRef.watch).isSome) = 1 := by decide +kernel

/-- A state in which pl5 has become stale: bit 5 of FLAGS is set in its record. -/
def wps : State := wpl.myWrite 0x1003 ((wpl.myRead 0x1003 1).map (· ||| 32))

theorem wit_PlanApplies : Starts h0 [] wpl wpl ∧ wpl.vecOk ∧ wpl.maskHeld 0 = false ∧ aligned wpl.vt.size 1 = true ∧ groupsMeet 1 wpl.vt.size 2 wpl.vt.size = false ∧
    (recOf wpl).stale = false ∧ (recOf wps).stale = true ∧ 8 * 4 % 32 = 0 ∧ (recOf wpl).key.bound * 1 ≤ wpl.vlmax wpl.vt ∧
    wpl.vl = (recOf wpl).n * 1 ∧ (recOf wpl).d * 1 ≤ wpl.vlmax wpl.vt :=
  ⟨starts (by decide +kernel) rfl, by unfold State.vecOk; decide +kernel, by decide +kernel⟩

/-- The memory applies: a base that GRAN divides and one that it does not, positions within the plan and beyond. -/
theorem wit_PlanApplies_memory : (planGeo wpl (recOf wpl) 0x10000 0).map (fun g => (g.covers (recOf wpl) 4, g.covers (recOf wpl) 5)) = some (true, false) ∧
    planGeo wpl (recOf wpl) 0x10002 0 = none ∧ wpl.interlocked (planSpan (recOf wpl) 0x10000) = false ∧ (wpl.tag 3).st ≠ .busy ∧
    (0 : Nat) + wpl.vl ≤ (recOf wpl).n ∧ (recOf wpl).n < 1 + wpl.vl ∧
    granuleSpan 4 ((plcpyPosns wpl (recOf wpl) ⟨0x10000, 0, 32, 1⟩ 0).filter Prod.fst) = some (0x10004, 12) ∧
    spanWhole (0x10004, 12) = true ∧ spanWhole (loc 0, 16) = true ∧ spansMeet wpl.loc 1 (0x10004, 12) (loc 0, 16) = false ∧
    wpl.interlocked [(loc 0, 16), (0x10004, 12)] = false := by decide +kernel

/-- The scatter and the gather meet a page that is not mapped at their first active element, and complete over one that is. -/
theorem wit_PlanApplies_walk : (scatWalk wpl (recOf wpl) ⟨0x10000, 0, 32, 1⟩ .first (wpl.todo 0)).2.isSome = true ∧
    (scatWalk (wp 0x10000 (rw 0 1) wpl) (recOf wpl) ⟨0x10000, 0, 32, 1⟩ .first (wpl.todo 0)).2 = none ∧
    (wpl.fetchElt 0x1000C 0x1000C 0 32 .i32 false none false).isOk = false ∧
    ((wp 0x10000 (rw 0 1) wpl).fetchElt 0x1000C 0x1000C 0 32 .i32 false none false).isOk = true := by decide +kernel

/-- R287: PLGATV of the elements of v0 itself through the plan of 3, 1, 3, 9: elements 3, 1 and 3, and zero for the rejected position. -/
theorem test_plgatv : let s := okState (execPlgatv h0 2 ⟨0, false⟩ 0 5 wpl)
    (List.range 4).map (s.elt 2 32) = [9, 1, 9, 0] := by decide +kernel

theorem wit_TileZero : Starts h0 [] w0 w0 ∧ (0 : Fin 4).val < w0.hart.place.tiles :=
  ⟨starts (by decide +kernel) rfl, by decide +kernel⟩

/-- A hart with tile 0 in integer mode, MR 2, one k-step, and the elements of v0: 2, 3, 0, ... -/
def wa (f : Fmt) (int : Bool) (n : Nat) : State :=
  let s := (wv f n).modCsr (fun c => { c with mcfg := 0x0000000000000102 })
  s.modRegs (fun r => { r with acc := r.acc.set 0 ⟨int, []⟩, v := r.v.set 0 (BitVec.ofNat _ 0x0302) })

theorem wit_TilesAndProducts : (w0.modHart (fun g => { g with place := { g.place with tiles := 0 } })).hart.place.tiles ≤ 0 ∧
    Starts h0 [1] (wa .i32 true 2) (wa .i32 true 2) ∧ (wa .i32 true 2).maskHeld 0 = false ∧ (wa .i32 true 2).vt.fmt.isInt = true ∧
    (wa .f32 false 2).vt.fmt.isFloat = true ∧ ¬((wa .f32 true 2).vt.fmt.isInt = true) ∧ (63 : Word).toNat < 64 ∧ 64 ≤ (64 : Word).toNat ∧
    128 < (wv .i8 129).vl ∧ (wv .i8 128).vl ≤ 128 ∧ Sparse.wf (0 : Cell56) (wa .i32 true 2).hart.regs.acc[(0 : Fin 4)].cells = true ∧
    (wa .i32 true 2).vecOk :=
  ⟨by decide +kernel, starts (by decide +kernel) rfl, by decide +kernel, by decide +kernel, by decide +kernel, by decide +kernel, by decide,
    by decide, by decide, by decide, by decide +kernel, by unfold State.vecOk; decide +kernel⟩

theorem wit_TilesAndProducts_products : (wa .i8 true 2).mr ≤ 64 ∧ (wa .i8 true 2).hart.csr.mcfg ≠ 0 ∧ (wa .i8 true 2).kSteps = 1 ∧
    (wa .i8 true 2).mr = 2 ∧ 2 * 1 * 8 ≤ w0.hart.place.grant * 8192 * (wa .i8 true 2).vt.size ∧ padCore w0.loc (loc 0x100) = some 0 ∧
    0x100 + 2 ≤ w0.windowSize 0 w0.hart.place.launch ∧ (wa .i8 true 2).interlocked [(loc 0x100, 2)] = false ∧
    (32 : Nat) % 32 = 0 ∧ 32 * 32 * 8 ≤ w0.hart.place.grant * 8192 * 1 := by decide +kernel

/-- R300, R302: OPA of the column (2, 3) with the row (2, 3) in integer mode. -/
theorem test_opa : let t := (okState (execOpa h0 0 ⟨0, false⟩ (.vec ⟨0, false⟩) 0 .i8 .i8 0 (wa .i8 true 2))).hart.regs.acc[(0 : Fin 4)]
    (t.cell 0 0, t.cell 0 1, t.cell 1 0, t.cell 1 1, t.cell 2 0) = (4, 6, 6, 9, 0) := by decide +kernel

/-- A configuration word of a bank: MODE 0, METRIC 0, f32 keys, DIM 2, CAP 2, POLICY `p`. -/
def cw (p : Nat) : Nat := 0x2 * 2 ^ 8 + 2 * 2 ^ 16 + p * 2 ^ 28 + Fmt.f32.code * 2 ^ 4
/-- A hart with a region of 1 KiB at 0x4000 and a spill ring of two entries at 0x5000, its vector 1.0, 2.0. -/
def wu (p : Nat) : State :=
  let s := (wv .f32 2).modRegs (fun r => { r with v := r.v.set 0 (BitVec.ofNat _ (0x3F800000 + 0x40000000 * 2 ^ 32)) })
  let s := s.modCsr (fun c => { c with clbase := BitVec.ofNat 64 (0x4000 + 0x400 * 2 ^ 32) })
  wx [(1, BitVec.ofNat 64 (cw p)), (2, 0x40800000)] (s.myWrite 0x4024 (leBytes 4 0x5000 ++ leBytes 4 2))
/-- Its bank configured, and with one item inserted. -/
def wbk (p : Nat) : State := okState (execClcfg h0 1 2 (wu p))
def wbi (p : Nat) : State := okState (execClins h0 1 ⟨0, false⟩ ⟨0, false⟩ 0 0 (wbk p))

theorem wit_Clustering : Starts h0 [1, 2] (wu 2) (wu 2) ∧ bankCfg (cw 2 + 2 ^ 31) = none ∧ (bankCfg (cw 2)).map BankCfg.shapeOk = some true ∧
    (bankCfg (cw 2)).map ((wu 2).bankRoom · 64) = some true ∧ (bankCfg (cw 2)).map BankCfg.entrySize = some 64 ∧
    (bankCfg (cw 2)).map (fun c => (wu 2).interlocked ((wu 2).bankSpans c 64)) = some false ∧
    (wu 2).liveRecord (wu 2).core (wu 2).hart.place.launch 0x4000 192 = false ∧ (wu 2).bank = none ∧
    ((wbk 2).bank.map (fun c => (c.1.cap, c.1.mode, c.2))) = some (2, 0, 64) ∧ (bankCfg 0).map BankCfg.shapeOk = some false :=
  ⟨starts (by decide +kernel) rfl, by decide +kernel⟩

/-- The vector 1.0, 2.0 as an item. -/
def itm : Item := ⟨0, [0x3F800000, 0x40000000], [.fin false 1 0, .fin false 2 0], [0x3F800000, 0x40000000]⟩
def bc (p : Nat) : BankCfg := ⟨0, 0, .f32, 2, 2, p, false⟩
/-- A bank with both entries live, far from the item. -/
def wbf (p : Nat) : State := wbk p |>.myWrite 0x4044 [1] |>.myWrite 0x4084 [1]

/-- An item that matches, one that finds a free entry, and one that finds neither; the pair that CLMRG would merge. -/
theorem wit_Clustering_item : itm.vals.length = 2 ∧ itm.codes.length ≤ 2 ∧ (bc 2).entrySize ≤ 64 ∧
    (⟨wbi 2, []⟩ : BankIO).matching (bc 2) 64 itm = some 0 ∧
    (⟨wbk 2, []⟩ : BankIO).matching (bc 2) 64 itm = none ∧ (⟨wbk 2, []⟩ : BankIO).free (bc 2) 64 itm = some 0 ∧
    (⟨wbf 2, []⟩ : BankIO).matching (bc 2) 64 itm = none ∧ (⟨wbf 2, []⟩ : BankIO).free (bc 2) 64 itm = none ∧
    (⟨wbf 2, []⟩ : BankIO).victim (bc 2) 64 itm = some 0 ∧ (⟨wbf 2, []⟩ : BankIO).field 0x28 = 2 ∧ 0x4000 + 64 + 2 * 64 ≤ 0x5000 ∧
    (⟨wbf 2, []⟩ : BankIO).field 0x24 = 0x5000 ∧ ((⟨wbf 0, []⟩ : BankIO).merge (bc 0) 64).map Prod.fst = some (0, 1) ∧
    (((⟨wbf 0, []⟩ : BankIO).merge (bc 0) 64).map (fun r => (wbf 0).bankGuard r.2.w)) = some none ∧
    ((⟨wbk 0, []⟩ : BankIO).merge (bc 0) 64).isNone = true ∧ (wbk 2).vl % 2 = 0 ∧ (wv .f32 1).vl % 2 ≠ 0 := by decide +kernel

theorem wit_Clustering_walk : (match bankWalk (wbk 2) (bc 2) 64 1 0 0 0 [0] (wbk 2) with
      | .done _ => true
      | _ => false) = true ∧
    (match bankWalk (wbf 0) (bc 0) 64 1 0 0 0 [0] (wbf 0) with
      | .trap .. => true
      | _ => false) = true ∧
    (clrdList (wbi 2) (bc 2) 64 0 0).isSome = true ∧ (clrdList (wbi 2) (bc 2) 64 0 0).map (fun r => r.2.length) = some 2 := by
  decide +kernel

/-- R317: an item that opens an entry of an empty bank has COUNT 1, and its sum is its vector. -/
theorem test_clins : let s := wbi 2
    (leNat (s.myRead 0x4040 4), leNat (s.myRead 0x4050 4), leNat (s.myRead 0x4054 4), leNat (s.myRead 0x4014 4)) =
      (1, 0x3F800000, 0x40000000, 1) := by decide +kernel

theorem wit_GuardedOff : guardOn hOff w0 = false ∧ (Instr.tzero hOff 3 true).header = some hOff ∧ (3 : Fin 4).val < w0.hart.place.tiles := by
  decide +kernel

theorem wit_PairWords : (wv .i32 4).vecOk ∧ aligned (wv .i32 4).vt.size (slotVec 6) = true ∧
    ((slotSrcs (.salu .add 6 (.reg 7)) ++ slotSrcs (.bdec 8 0)).all (aligned (wv .i32 4).vt.size) = true ∧
      (slotDests (.salu .add 6 (.reg 7)) ++ slotDests (.bdec 8 0)).all (aligned (wv .i32 4).vt.size) = true ∧
      slotFmt (.salu .add 6 (.reg 7)) (wv .i32 4).vt.fmt = true ∧ slotFmt (.bdec 8 0) (wv .i32 4).vt.fmt = true) ∧
    popped (slotRegs (.salu .add 6 (.reg 7)) ++ slotRegs (.bdec 8 0)) (wv .i32 4) = some (wv .i32 4) ∧ (wx [(8, 1)]).x 8 = 1 ∧ w0.x 8 ≠ 1 ∧
    slotFmt (.vfp .vfadd 1 2) (wv .i32 4).vt.fmt = false ∧ w0.g 1 = false ∧ w0.g 0 = true ∧ (w0.hart.ctl.pc + 8 * (3 : Word)).toNat % 8 = 0 ∧
    ((w0.modCtl (fun c => { c with pc := 4 })).hart.ctl.pc + 8 * (3 : Word)).toNat % 8 ≠ 0 :=
  ⟨vec_ok .i32 4 (by decide), by decide +kernel, by decide +kernel, rfl, by decide +kernel⟩

/-- A repeat of ADD x31, x31, x31 whose D is stepped by 1, at iteration 1 of 4. -/
def wre (j : Word) : State := (w0.modCsr (fun c => { c with rpc := j })).modCtl (fun c => { c with
  rep := some ⟨4, ⟨.imm 4, 1, 0, 0⟩, 0x00007DF7C0000000, none⟩ })

theorem wit_Repeats : w0.hart.csr.rpc.toNat ≤ 0 ∧ w0.hart.csr.rpc.toNat < 65535 ∧ popped [1] w0 = some w0 ∧ (wre 1).sleeping = false ∧
    (0 : Nat) < (wre 1).hart.csr.rpc.toNat ∧ (wre 1).hart.csr.rpc.toNat < 4 := ⟨by decide +kernel, by decide +kernel, rfl, by decide +kernel⟩

theorem wit_Repeats_range : ∃ k, repRangeField w0.hart.place.tiles 1 (FWord.ofWord 0x00007DF7C0000000) ⟨.imm 4, 1, 0, 0⟩ 1 = some k :=
  is_some (by decide +kernel)

/-- A record of one crew of one hart with 64 KiB of registers at the pc 0, with the fields of word 3 and the words 4 and 5. -/
def rec0 (w3 w4 w5 : Word) : Vector Word 8 := #v[0, 0, 0x0000010100000001, w3, w4, w5, 1, 0]
def w3ok : Word := 0x0000000000400040
/-- Function 0 with furrow 1 as well, and queue 0 open with that record at its head. -/
def wqr (w : Vector Word 8) : State :=
  (w0.modFn 0 (fun f => { f with part := 3 })).modQueue 0 0 (fun x => { x with en := true, size := 2, base := 0x10000, tail := 1, replay := [(0, w)] })

theorem wit_Scheduling : (w0.fn? 0).isSome = true ∧ (wqr (rec0 w3ok 1 0)).myFn.queues[0].hasRecord = true ∧ w0.myFn.queues[0].hasRecord = false ∧
    recordOk (rec0 w3ok 1 0) = true ∧ (wqr (rec0 w3ok 1 0)).headWords (wqr (rec0 w3ok 1 0)).myFn (wqr (rec0 w3ok 1 0)).myFn.queues[0] = some (rec0 w3ok 1 0) ∧
    (wq 1).headWords (wq 1).myFn (wq 1).myFn.queues[0] = none ∧
    (wqr (rec0 w3ok 1 0)).fitsEmpty (newLaunch (wqr (rec0 w3ok 1 0)).sched.nextId 0 0 0 (rec0 w3ok 1 0)) = true ∧
    (w0.modFn 0 (fun f => { f with part := 0 })).fitsEmpty (newLaunch 5 0 0 0 (rec0 w3ok 1 0)) = false ∧
    recordOk (rec0 w3ok 0 0) = true ∧ (w0.modFn 0 (fun f => { f with budget := 0 })).myFn.budget = 0 ∧ recordOk (rec0 0x0000000000400041 1 0) = false ∧
    w0.depRead w0.myFn 0x10000 = none ∧ (wp 0x10000 (rw 0 1)).depRead w0.myFn 0x10000 = some 0 ∧ (0 : Word).toNat < (rec0 w3ok 1 0x10000)[6].toNat := by
  decide +kernel

/-- The same queue after its record was read and is ready. -/
def wrd : State := (wqr (rec0 w3ok 1 0)).modQueue 0 0 (fun x => { x with headRec := some (rec0 w3ok 1 0), ready := true })

/-- A placement that succeeds, and a function without candidates; the budget of the crew of `w0` is passed by one and met. -/
theorem wit_Scheduling_crews : ((wrd.candidates 0).findSome? wrd.serve).isSome = true ∧ (w0.candidates 0).findSome? w0.serve = none ∧
    w0.sched.launches.length = 1 ∧ (w0.lowestRank w0.hart.place.launch 0).isSome = true ∧ (w0.crew? w0.hart.place.launch 0).isSome = true ∧
    (w0.crew? w0.hart.place.launch 1) = none ∧ w0.ringHeld 1 9 = false ∧ (∃ g ∈ w0.crewHarts w0.hart.place.launch 0, g.resident = true) ∧
    w0.launchStopped w0.hart.place.launch = false ∧ (w0.crew? w0.hart.place.launch 0).map (fun c => (c.pre, c.budget)) = some (false, 0) := by
  decide +kernel

/-- A ready record of PRIO 1 that needs all eight cores of furrow 0, the only one, on which the crew of `w0` runs. -/
def wpre : State :=
  let w : Vector Word 8 := #v[0, 0, 0x0001010800000001, 0x0000000003000300, 1, 0, 0, 0]
  w0.modQueue 0 0 (fun x => { x with en := true, size := 2, base := 0x10000, tail := 1, replay := [(0, w)], headRec := some w, ready := true })
/-- `w0` after its crew was pre-empted, without that record. -/
def wpr : State := (okState (execPreemption w0.hart.place.launch 0 wpre)).modQueue 0 0 (fun x => { x with en := false, replay := [], headRec := none })

theorem wit_Scheduling_preempt : (wpre.preemptFor 0).map (fun r => r.2.map CrewRec.crew) = some [0] ∧
    (wpr.crew? w0.hart.place.launch 0).map (fun c => (c.pre, wpr.resumable c)) = some (true, some 1) ∧ 1 ≤ w0.hart.place.grant ∧
    w0.hart.place.grant ≤ 12 ∧ w0.hart.csr.vl ≤ vlmaxOf 12 1 32 ∧ aligned 1 63 = true := by decide +kernel

/-- A block of MAP, of page 0x20000 to frame 2 with V, P, R and W. -/
def blk (op : Word) : Vector Word 8 := #v[op, 0x20000, 1, 0xF000000000000000, 2, 0, 0, 0]
/-- Function 0's mailbox busy with a block. -/
def wmb (w : Vector Word 8) (s : State := w0) : State := s.modFn 0 (fun f => { f with mbox := w, busy := true })

/-- The row (`mapPages`, 0x10) of the statement's table. -/
theorem wit_MemoryServices : guardOn h0 w0 = true ∧ w0.hart.copying = false ∧ (wc .cpy).hart.copying = true ∧
    w0.areaOk w0.ctx true true (loc 0xFFC0) 64 = true ∧ w0.areaOk w0.ctx true true (loc 0xFFC8) 64 = false ∧
    (wmb (blk 0x10)).myFn.busy = true ∧ (wmb (blk 0x10)).myFn.mbox[0].toNat % 2 ^ 32 = 0x10 ∧ w0.fn? 5 = none ∧
    (reqOf (blk 0x10)).op = 0x10 ∧ (reqOf (blk 0x10)).rsv = 0 ∧ (reqOf (blk 0x10)).check = 0 ∧ (reqOf (blk 0x12)).frame ≠ 0 ∧
    w0.reqPinned w0.myFn (reqOf (blk 0x10)) = false ∧ 65535 < 65536 := by decide +kernel

theorem wit_MemoryServices_pin : let s := (wp 0x20000 (rw 0 2)).setMeta 2 { PageMeta.reset with pin := true }
    s.reqPinned s.myFn { reqOf (blk 0x11) with frame := 0 } = true := by decide +kernel

/-- MAP of a page in the range, beyond it and beyond the stack; frames taken, and a pool without chunks. -/
theorem wit_MemoryServices_map : classOf (0x20000 : Word) = .virt ∧ entSZ (reqOf (blk 0x10)).attr = false ∧ entV (reqOf (blk 0x10)).attr = true ∧
    (let s := w0.modFn 0 (fun f => { f with fcount := f.fcount.set (Fin.ofNat 12 (homeStack w0.ctx 0x20000)) 4,
                                             fbase := f.fbase.set (Fin.ofNat 12 (homeStack w0.ctx 0x20000)) 0 })
     let st := homeStack s.ctx 0x20000
     s.myFn.fbase[Fin.ofNat 12 st] ≤ 2 ∧ 2 + 1 ≤ s.myFn.fbase[Fin.ofNat 12 st] + s.myFn.fcount[Fin.ofNat 12 st] ∧
       ¬(4 + 1 ≤ s.myFn.fbase[Fin.ofNat 12 st] + s.myFn.fcount[Fin.ofNat 12 st]) ∧ s.pageTaken s.ctx 0x20000 false = false ∧
       s.pageTaken s.ctx 0 false = true ∧ chunksOf 0 ≤ s.ms.pool[Fin.ofNat 12 st] ∧ s.frameGone (st * 2 ^ 20 + 2) = false ∧ s.myFn.num < 128 ∧
       (s.fn s.myFn.num).pr.reqs = [] ∧ ∀ x ∈ s.ms.entries, entV x.e = true) := by decide +kernel

/-- UNMAP, PROTECT and OFFER: of an unmapped page, a page of the other size, of another owner, of an own one, and of a shared one. -/
theorem wit_MemoryServices_pages : let va : Word := 0x20000
    let s := wp va (rw 0 2)
    let sh := (s.modFn 0 (fun f => { f with num := 0 })).putEntry 77 0x20000 (rw 0 2)
    let attr : Word := 0xF000000000000000
    entV (w0.entryAt w0.ctx va) = false ∧ entV (s.entryAt s.ctx va) = true ∧ entSZ (s.entryAt s.ctx va) = entSZ attr ∧
      entSZ (s.entryAt s.ctx va) ≠ entSZ (attr ||| BitVec.twoPow 64 58) ∧
      entOWN (s.entryAt s.ctx va) = s.myFn.num ∧ entOWN (rw 0 2 ||| BitVec.twoPow 64 37) ≠ s.myFn.num ∧
      entOk (protectEntry (s.entryAt s.ctx va) attr) = true ∧ entP (protectEntry (s.entryAt s.ctx va) attr) = true ∧
      entP (protectEntry (s.entryAt s.ctx va) 0x8000000000000000) = false ∧ s.acceptors 0 2 = [] ∧ sh.ms.entries.length = s.ms.entries.length + 1 := by
  decide +kernel

/-- Frame 1 at a state of its page record. -/
def wst (st chunks : Nat) (s : State := w0) : State := s.setMeta 1 { PageMeta.reset with state := BitVec.ofNat 8 st, chunks := chunks }

theorem wit_Gleaner : w0.canonical ∧ (w0.pmeta 1).state ≠ 1 ∧ ((wst 1 16).pmeta 1).state = 1 ∧ ((wst 2 9).pmeta 1).state = 2 ∧
    (∀ e ∈ (wst 1 16).ms.wq, e.frame ≠ 1) ∧ (∃ e ∈ (wst 1 16 wwq).ms.wq, e.frame = 1) ∧ 16 ≤ (wst 2 9).ms.pool[frameStack 1] ∧
    ((wst 2 9).modMs (fun m => { m with pool := m.pool.set 0 15 })).ms.pool[frameStack 1] < 16 ∧ (frameStack 1).val = 0 :=
  ⟨canon_w0, by decide +kernel⟩

/-- A block of an assignment to function 0 itself. -/
def blka (op va count attr : Word) : Vector Word 8 := #v[op, va, count, attr, 0, 0, 0, 0]

theorem wit_Assignments : (wmb (blka 0x42 0 255 0)).myFn.busy = true ∧ (reqOf (blka 0x42 0 255 0)).count = 255 ∧ (reqOf (blka 0x42 0 256 0)).count = 256 ∧
    (reqOf (blka 0x42 0 255 0)).va = 0 ∧ (reqOf (blka 0x42 0 255 0)).attr = 0 ∧ (reqOf (blka 0x42 0 255 0)).frame = 0 ∧
    (reqOf (blka 0x42 0 255 0)).rsv = 0 ∧ (w0.fn? (reqOf (blka 0x42 0 255 0)).peer).isSome = true ∧
    (blka 0x42 0 255 0)[0].toNat % 2 ^ 32 = 0x42 := by decide +kernel

/-- PARTITION from a readable area and an unmapped one, to furrows that are idle and one that is not; QUOTA up, down and over a mapped page. -/
theorem wit_Assignments_ranges : (wordsAt (0x10000 : Word) 16).all ((wp 0x10000 (rw 0 1)).fwWordOk w0.ctx false false) = true ∧
    (wordsAt (0x10000 : Word) 16).all (w0.fwWordOk w0.ctx false false) = false ∧ (w0.assignFurrows 0 0).isNone = true ∧
    (w0.assignFurrows 0 3).isSome = true ∧ (w0.quota w0.myFn 0 (w0.myFn.fcount[(0 : Fin 12)] + 1)).1 = 0 ∧ (reqOf (blka 0x41 0 1 11)).attr.toNat < 12 ∧
    (let s := wp 0x10000 (rw 0 1) (w0.modFn 0 (fun f => { f with fcount := f.fcount.set 0 2, fbase := f.fbase.set 0 0 }))
     s.mapsIn 0 1 2 = true ∧ (s.quota s.myFn 0 1).1 = 5 ∧ (s.quota s.myFn 0 0).1 ≠ 0) := by decide +kernel

/-- A hart stopped in debug, of a function that is attached. -/
def wdb : State := (w0.modFn 0 (fun f => { f with dbg := true })).modCtl (fun c => { c with phase := .debug 1 })

theorem wit_MailboxOperations : (reqOf (blka 0x16 0x10000 1 0)).checkExport = 0 ∧ (reqOf (blka 0x16 0x10001 1 0)).checkExport ≠ 0 ∧
    (reqOf (blka 0x16 0x10000 1 0)).attr = 0 ∧ (reqOf (blka 0x16 0x10000 1 0)).frame < 2 ^ 28 ∧ (wmb (blka 0x16 0x10000 1 0)).myFn.busy = true ∧
    entV (w0.entryAt (w0.fn 0).ctx 0x10000) = false ∧ entP (rw 0 1) = true ∧ entP (rw 0 1 &&& ~~~(BitVec.twoPow 64 62)) = false ∧
    (wp 0x10000 (rw 0 1)).rawArea w0.ctx true 0x10000 = true ∧ (wp 0x10000 (rw 1 1)).rawArea w0.ctx true 0x10000 = false ∧
    (reqOf #v[0x46, 0, 1, 0, 0x10000000, 0, 0, 0]).frame / 2 ^ 28 ≠ 0 ∧ (reqOf #v[0x46, 0, 1, 0, 0x10000000, 0, 0, 0]).frame % 2 ^ 28 = 0 ∧
    w0.myFn.migrating = false ∧ w0.myFn.quiesced = false ∧ (w0.changedPages w0.myFn).length = 1 ∧
    (w0.sched.launches.map Launch.checkpoint) = [false] := by decide +kernel

theorem wit_MailboxOperations_debug : w0.dbgHart 0 (w0.loc.setWidth 64) = some w0.hart ∧ w0.dbgHart 0 9 = none ∧ wdb.hart.stopCause = some 1 ∧
    w0.hart.stopCause = none ∧ wdb.dbgHart 0 (w0.loc.setWidth 64) = some wdb.hart ∧ wdb.myFn.dbg = true ∧ w0.myFn.dbg = false ∧
    (∀ t : Fin 64, wdb.hart.ctl.tags[t].st ≠ .busy) ∧ wdb.hartAt wdb.hart.dest = some wdb.hart ∧ wdb.drainCopies wdb.loc = wdb := by decide +kernel

/-- The fates of a request: performed, poisoned, and every abort. -/
theorem wit_HostInterface : (w0.fn? 0).isSome = true ∧ (4096 - 8) % 4096 + 8 ≤ 4096 ∧ classOf (0x10000 : Word) = .virt ∧
    (wp 0x10000 (rw 0 1)).fate w0.myFn false false 0x10000 8 = .perform ∧ (wst 3 0 (wp 0x10000 (rw 0 1))).fate w0.myFn false false 0x10000 8 = .poisoned ∧
    (wst 3 0 (wp 0x10000 (rw 0 1))).fate w0.myFn false true 0x10000 8 = .abort .integrity ∧
    (wst 2 9 (wp 0x10000 (rw 11 1))).fate w0.myFn false true 0x10000 32 = .abort .frozen ∧
    (wp 0x10000 (rw 11 1)).fate w0.myFn false true 0x10000 8 = .abort .partialBlock ∧ (wp 0x10000 (rw 11 1)).fate w0.myFn false true 0x10000 32 = .perform ∧
    (wp 0x10000 (rw 6 1)).fate w0.myFn false false 0x10000 8 = .abort .format ∧ w0.fate w0.myFn false false 0x10000 8 = .abort .protect ∧
    (wp 0x10000 (rw 0 1 &&& ~~~(BitVec.twoPow 64 62))).fate w0.myFn true true 0x10000 8 = .abort .absent ∧ (65528 : Nat) + 8 ≤ 65536 ∧
    (7 : BitVec 8) ∉ w0.dev.linksDown := by decide +kernel

theorem wit_HostInterface_queues : w0.myFn.queues[0].en = false ∧ (wq 1).myFn.queues[0].en = true ∧ (wq 1).myFn.queues[0].devfed = true ∧
    (let x := ((wq 1).modQueue 0 0 (fun x => { x with devfed := false })).myFn.queues[0]
     x.devfed = false ∧ (2 - x.head).toNat ≤ x.size.toNat ∧ (x.tail - x.head).toNat ≤ (2 - x.head).toNat ∧ ¬((3 - x.head).toNat ≤ x.size.toNat) ∧
       x.stopped = false) ∧ (0x10000 : Word).toNat = 2 ^ 16 ∧ (2 : Word).toNat = 2 ^ 1 ∧ mailboxOp 0x10 = true ∧ mailboxOp 0x0F = false ∧
    (0x00EFFFFFFFE00000 : Word).toNat % 2 ^ 21 = 0 ∧ (5 : Word).getLsbD 2 = true ∧ (5 : Word).getLsbD 0 = true ∧ (1 : Word).getLsbD 2 = false ∧
    (0x0FFF : BitVec 16).toNat < 0x1000 ∧ 0x3120 ≤ (0x3120 : BitVec 16).toNat := by decide +kernel

theorem wit_DeviceEvents : w0.hart.resident = true ∧ w0.cached 0x100 = none ∧ (0 : Nat) < 2 ^ 20 ∧ State.reset.dev.booted = false ∧
    (∃ r, w0.fetch = .ok r) ∧ (∃ e, (w0.modCtl (fun c => { c with pc := 0x10000 })).fetch = .error e) ∧
    (classOf (0 : Word)).isVirt = true ∧ entX (w0.entryAt w0.ctx 0) = true ∧ entFMT (w0.entryAt w0.ctx 0) = 0 ∧ w0.linkLost 0 (w0.entryAt w0.ctx 0) = false ∧
    entX (rw 0 1) = false ∧ w0.fns.length = 1 ∧ w0.myFn.num = 0 ∧ (∀ g ∈ w0.fns, g.num ≠ 64 ∧ g.ctx ≠ 999) ∧
    w0.ownerEntry 3 = none ∧ (w0.ownerEntry 0).isSome = true ∧ (w0.furrowOwner 0).isSome = true ∧ w0.furrowOwner 127 = none ∧
    (127 : BitVec 7) ∉ w0.dev.fencedFurrows ∧ (11, 383) ∉ w0.dev.fencedPcs :=
  ⟨by decide +kernel, by decide +kernel, by decide, by decide +kernel, is_ok (by decide +kernel), is_error (by decide +kernel), by decide +kernel⟩

theorem wit_DeviceEvents_spares : w0.dev.spareFurrow[(7 : Fin 8)] = true ∧
    (w0.modDev (fun d => { d with spareFurrow := d.spareFurrow.set 7 false, sparePc := d.sparePc.set 11 0, linksDown := [7] })).dev.spareFurrow[(7 : Fin 8)] = false ∧
    w0.dev.sparePc[(11 : Fin 12)] ≠ 0 ∧ (w0.modDev (fun d => { d with recovery := true })).dev.recovery = true ∧
    (w0.modDev (fun d => { d with linksDown := [7] })).dev.linksDown = [7] := by decide +kernel

theorem wit_RoundTrip : wellFormed (.amocas h0 9 12 8 ⟨false, false, true, .dev⟩) = true ∧
    (encode (.amocas h0 9 12 8 ⟨false, false, true, .dev⟩)).length = 1 := by decide +kernel

/-- The repeat of a word that decodes. -/
theorem wit_RoundTrip_rep : fits (.rep ⟨.imm 4, 1, 0, 0⟩ 0x00007DF7C0000000 none) :=
  ⟨_, _, _, by rfl, by rfl, by rfl, by rfl⟩

theorem wit_StepRunsDecoded : w0.agenda = [] ∧ w0.pick = some w0.hart ∧ w0.hart.ctl.stores = [] ∧ w0.sleeping = false ∧ w0.hart.ctl.rep = none ∧
    (wre 0).hart.ctl.rep ≠ none ∧ (ws (loc 0)).hart.ctl.stores ≠ [] ∧ ((w0.setSleep (some ⟨h0, 0, ⟨0, false⟩, ⟨1, false⟩, 0, .dev, true, false⟩)).modCtl (fun c => { c with phase := .waiting })).sleeping = true ∧
    w0.fetch.isOk = true ∧ encode (Instr.gleanSweep 0) = [] := by decide +kernel

/-- From reset with a word placed, the very next step runs it: `add x0, x0, x0` passes on to the pc 8, and R195's pair word counts x8 down. -/
theorem test_step_placed : (okState (step (State.reset.withFetchWord 0 0))).hart.ctl.pc = 8 ∧
    (okState (step (State.reset.withFetchWord 64 0x4130E0001A880000))).x 8 = BitVec.allOnes 64 := by decide +kernel

theorem wit_Turns : w0.pick = some w0.hart ∧ State.reset.pick = none ∧ State.reset.agenda = [] ∧ w0.stillWaits w0 = false ∧
    w0.stillWaits (w0.modCtl (fun c => { c with phase := .waiting })) = true := by decide +kernel

theorem wit_CanonicalKept : w0.canonical ∧ (match step w0 with
      | .next _ => true
      | _ => false) = true ∧ State.reset.canonical :=
  ⟨canon_w0, by decide +kernel, ⟨by decide +kernel, by decide +kernel, by decide +kernel, by unfold Hart.canonical; decide +kernel, by unfold Hart.canonical; decide +kernel⟩⟩

/-! ## Witnesses of further clauses -/

/-- A vector instruction `i` at `pc` in the window, captured from `s`, that stands at unit `n`. -/
def sq (s : State) (pc : Word) (i : Instr) (n : Nat) : SeqEntry := ⟨⟨pc, none, { s.cur with start := n, joins := n != 0 }, none⟩, i, 0, false⟩
/-- With entries in the window of the hart, and the lanes' next turns. -/
def ww (es : List SeqEntry) (pace : List (Nat × Nat)) (s : State) : State :=
  { s.modCtl (fun c => { c with window := es }) with pace := pace }

/-- The block of R324's chained fault: a load at 0 whose element 16 is absent, VFADD at 8 and VST at 16 behind it, the hart at 32. -/
def wfl : State :=
  let s := wp 0x20000 (rw 0 2 &&& ~~~(BitVec.twoPow 64 62)) (wp 0x10000 (rw 0 1) (wh (wv .f32 64)))
  let s := (wx [(10, 0x1FFC0), (11, 0x10000)] s).modCtl (fun c => { c with pc := 32 })
  ww [sq s 0 (.vld h0 0 10 (.short 0) none 0 0) 16, sq s 8 (.vfadd h0 2 ⟨0, true⟩ (.imm (.short 0x3F80)) 0) 16,
    sq s 16 (.vst h0 2 11 (.short 0) none 0) 8] [(0, 1)] s

/-- R324, R326: the example's list, VFADD at A+8 from 16 and VST at A+16 from 8, and CONT A+32. -/
theorem test_chained_fault : let c := (wfl.lanesOf 0).hart
    (c.csr.uepc, c.csr.ucause, c.csr.ustart, c.csr.uinfo) = (0, Cause.absent.code, 16, 0x20000) ∧ c.ctl.window = [] ∧
      c.ctl.trapRec.map (fun r => (r.list.map (fun f => (f.pc, f.cap.start)), r.cont.pc)) = some ([(8, 16), (16, 8)], 32) := by decide +kernel

/-- R156: a turn of the lanes takes the next element group of the entry, eight elements of 32 bits. -/
def wla : State := let s := (wv .i32 20).modRegs (fun r => { r with v := (r.v.set 0 (BitVec.allOnes _)).set 1 0 })
  ww [sq s 0 (.vadd h0 1 ⟨0, false⟩ (.imm (.short 6)) 0) 8] [(0, 1)] s
theorem test_lane_turn : let t := wla.lanesOf 0
    (t.elt 1 32 7, t.elt 1 32 8, t.elt 1 32 15, t.elt 1 32 16) = (0, 5, 5, 0) ∧ t.hart.ctl.window.map (fun e => e.fl.cap.start) = [16] ∧
      t.hart.csr.inst = wla.hart.csr.inst := by decide +kernel

/-- Instructions that drain, hold and pass; room and none; an entry performed to its end, and one that traps behind an older one. -/
theorem wit_Turns_window : seqClass (.fenceAll h0 .dev) = .drains ∧ seqClass (.vadd h0 1 ⟨0, false⟩ (.imm (.short 6)) 0) = .holds ∧
    wla.hart.ctl.window ≠ [] ∧ wla.hasRoom 1 = true ∧ w0.pace = [] ∧ w0.taken w0.core = 0 ∧ wla.guardOf (.vadd h0 1 ⟨0, false⟩ (.imm (.short 6)) 0) = true ∧
    (ww (List.replicate 8 (sq w0 0 (.vadd h0 1 ⟨0, false⟩ (.imm (.short 6)) 0) 0)) [] w0).hasRoom 1 = false ∧
    ((fwordOf (.vadd h0 1 ⟨0, false⟩ (.imm (.short 6)) 0)).any FWord.sequenced) = true ∧
    (match exec (.vadd h0 1 ⟨0, false⟩ (.imm (.short 6)) 0) wla with
      | .next t => !trapped wla t && t.hart.ctl.phase == .running && t.hart.dest == wla.hart.dest && !t.waiting
      | _ => false) = true ∧
    (match exec (.trap h0 1) wfl with
      | .next t => trapped wfl t && t.hart.dest == wfl.hart.dest
      | _ => false) = true ∧
    ({ sq w0 0 .pnop 0 with fault := true } ∈ (ww [{ sq w0 0 .pnop 0 with fault := true }] [] w0).hart.ctl.window) := by decide +kernel

/-- A fence finds a message of the hart on its way, a store, or a vector instruction in flight. -/
theorem wit_BarriersAndFences_pending : wn.vPending = true ∧ wla.vPending = true ∧ w0.vPending = false ∧ (ws (loc 0)).unperformed = true ∧
    w0.unperformed = false ∧ (ws (loc 0)).hart.ctl.stores ≠ [] := by decide +kernel

/-- A trap record with a list, of a vector instruction and of a scalar one, and of a store. -/
def wrl (i : Nat) : State := (wr false none .misalign 0 0).modCtl (fun c => { c with
  trapRec := some ⟨0, false, none, some ⟨.mk 4 ⟨.imm 4, 1, 0, 0⟩ 0x00007DF7C0000000 none, i⟩, some w0.cur, ⟨0, some ⟨4, ⟨.imm 4, 1, 0, 0⟩, 0x00007DF7C0000000, none⟩, 2⟩,
    [⟨8, none, w0.cur, none⟩]⟩ })
theorem wit_ReturnFromHandler_list : (match (wrl 1).hart.ctl.trapRec with
    | some r => (r.left 1).again && !(r.left 4).again && (r.left 2).again && (r.left 1).iter == r.iter && r.list.length == 1 && r.iter.isSome
    | none => false) = true ∧ (wr false (some ⟨0, 8, 5, 0, none⟩) .misalign 0 0).hart.ctl.trapRec.map (fun r => (r.left 0).iter) = some none ∧
    w0.flightWord 0 none = w0.flightWord 0 none ∧ w0.hart.ctl.pin = none := by decide +kernel

/-- R326, R327: CONT of an instruction that trapped before it issued, and a record that captures nothing. -/
theorem wit_ReturnFromHandler_unissued : ((wr false none .protect 0 0).modCtl (fun c => { c with
    trapRec := some ⟨0, false, none, none, none, ⟨8, none, 0⟩, []⟩ })).hart.ctl.trapRec = some ⟨0, false, none, none, none, ⟨8, none, 0⟩, []⟩ := rfl

/-- R103: a register block of 16 elements of a RAW page and 16 of an E4M3 block page takes the row that encodes decoded values. -/
def wmix : State := wp 0x20000 (rw 6 2) (wl 0 .f8e4 32 0x1FFF0)
theorem wit_ElementFetch_rows : wmix.blockRow 0x1FFF0 1 8 0 false 0 = some .recode ∧ (wl 0 .f8e4 32 0x10000).blockRow 0x10000 1 8 0 false 0 = some .bytes ∧
    w0.blockRow 0x10000 1 8 0 false 0 = none ∧ wmix.rowAt 0x20000 8 .f8e4 false = some .stored ∧ wmix.rowAt 0x1FFF0 8 .f8e4 false = some .bytes := by
  decide +kernel

/-- A row with a VRAMO pending, of the hart and of another one; more elements than the row holds. -/
def wrp (l : HartLoc) : State := (wrow 8).modMs (fun m => { m with wq := [⟨1, 0, 64, [⟨0, 0, .raw .f32, 7⟩], [⟨w0.hart.place.launch, 0, l⟩], [some ⟨w0.hart.place.launch, 0, l⟩]⟩] })
theorem wit_RowAndScaledLoads_pending : ((wrp w0.loc).rowPending (pageOf w0.ctx 0x10000 (rw 0 1)) 64).length = 1 ∧
    (wrp 9).ms.wq.all (fun q => !q.rowAdds.contains (some w0.hart.dest)) = true ∧ (wrow 9).rowTooShort 0x10000 64 = true ∧
    (wrow 8).rowTooShort 0x10000 64 = false := by decide +kernel

/-- R104, R105: 32 active elements with one scale byte and the page's format, and 31 of them. -/
theorem wit_VectorStores_blocks : ((List.range 32).map (fun i => (i, i))).length = 32 ∧ (wl 6 .f8e4 32 0x10000).layout (pageOf w0.ctx 0x10000 (rw 6 1)) ≠ .raw ∧
    ((wl 6 .f8e4 32 0x10000).layout (pageOf w0.ctx 0x10000 (rw 6 1))).isBlock = true ∧
    ((wl 6 .f8e4 32 0x10000).layout (pageOf w0.ctx 0x10000 (rw 6 1))).fmt = some .f8e4 ∧
    (wl 6 .f8e4 32 0x10000).scByte 1 0 = (wl 6 .f8e4 32 0x10000).scByte 1 ((0 + 31) / 32) ∧
    ((wl 11 .f8e4 32 0x10000).layout (pageOf w0.ctx 0x10000 (rw 11 1))).isBlock = false ∧ (wl 6 .f8e4 32 0x10000).cur.joins = false := by decide +kernel

/-- VRAMO of more elements than its row holds; with RL and a message on its way. -/
theorem wit_MergingAdds_short : (wv .f32 17 (wrow 8)).rowTooShort 0x10000 32 = true ∧ (wv .f32 16 (wrow 8)).rowTooShort 0x10000 32 = false ∧
    wn.unperformed = true ∧ (w0.pmeta 1).state ≤ 1 ∧ wwq.ms.wq.filter (fun q => q == we) = [we] ∧ ((wst 2 9 wwq).pmeta we.frame).state = 2 := by decide +kernel

/-- A push that waits for a credit, one whose destination has retired meanwhile, and the same hart's core and another one. -/
theorem wit_Messages_waiting : (wn.modCtl (fun c => { c with pushTo := some (0, 0) })).hart.ctl.pushTo = some (w0.hart.place.crew, w0.hart.place.rank) ∧
    (wn.modCtl (fun c => { c with pushTo := some (1, 0) })).hart.ctl.pushTo ≠ some (w0.hart.place.crew, w0.hart.place.rank) ∧
    wn.harts.find? (fun g => g.dest == wn.hart.dest) = some wn.hart ∧ w0.makeCredit 0 w0.hart.dest ≠ none ∧ coreOf w0.hart.dest.loc = w0.core ∧
    coreOf (⟨0, 0, 5⟩ : Dest).loc ≠ w0.core ∧ w0.loc ∉ w0.hart.ctl.mq.held ∧ wm.interlocked [(loc 0, 8)] = false ∧
    ((wm.modCtl (fun c => { c with tags := c.tags.set 0 ⟨.busy, some ⟨.cpy, loc 0, loc 64, 32, 32, 0, 0, 0, [], 0, 0, [], 0, true⟩, 0, 0, 0⟩ })).interlocked
      [(loc 0, 8)] = true) := by decide +kernel

/-- The record of a plan while a copy holds its bytes, and while none does; a build whose place a copy holds. -/
theorem wit_PlanLifecycle_held : wpl.interlocked [(locAddr 0x1000, 136)] = false ∧
    (wpl.modCtl (fun c => { c with tags := c.tags.set 0 ⟨.busy, some ⟨.cpy, loc 0x1000, loc 64, 32, 32, 0, 0, 0, [], 0, 0, [], 0, true⟩, 0, 0, 0⟩ })).interlocked
      [(locAddr 0x1000, 136)] = true ∧ (∀ d ∈ (recOf wpl).slot, d = rejected ∨ d < (recOf wpl).d) ∧ (∀ b ∈ (recOf wpm).dist, b < (recOf wpl).n) ∧
    Fmt.f32.spec = some specF32 ∧ Fmt.i32.isInt = true := by decide +kernel

/-- A repeat whose iteration is begun, has failed fields, and has ended; nothing older on the way. -/
theorem wit_Repeats_iterations : (wre 1).hart.ctl.aside = none ∧ (wre 1).hart.ctl.reissue = [] ∧ (wre 1).olderWork = false ∧ (4 : Nat) ≤ (wre 4).hart.csr.rpc.toNat ∧
    (wre 0).hart.csr.rpc.toNat = 0 ∧ (∃ sh row, shapeOf (FWord.ofWord 0x00007DF7C0000000) = .ok sh ∧ sh.form? (FWord.ofWord 0x00007DF7C0000000) = some row) :=
  ⟨by decide +kernel, by decide +kernel, by decide +kernel, by decide +kernel, by decide +kernel, _, _, rfl, rfl⟩

/-- A crew of which a hart is live and resident, its grant the least; a furrow with room for the record's crew. -/
theorem wit_Scheduling_grants : w0.fwRuns = true ∧ (∃ h ∈ w0.harts, h.inGroup false w0.hart.place.launch 0 = true) ∧
    (∀ h ∈ w0.harts, h.inGroup false w0.hart.place.launch 0 = true → h.place.grant = 1 ∧ h.resident = true) ∧
    ((w0.onCore 0).map (fun h => h.place.grant)).sum ≤ 12 ∧
    (wrd.fitCrew (newLaunch wrd.sched.nextId 0 0 0 (rec0 w3ok 1 0))).isSome = true ∧ (w0.hart.ctl.aside = none) ∧
    ((w0.standAside ⟨0, none, w0.cur, none⟩ w0.contHere [] []).hart.ctl.aside = some (⟨0, none, w0.cur, none⟩, w0.contHere)) := by decide +kernel

/-- A service that waits under a progress pin keeps its block; firmware that runs. -/
theorem wit_MemoryServices_kept : w0.fwRuns = true ∧ w0.hart.ctl.svc = none ∧
    (w0.modCtl (fun c => { c with svc := some ⟨h0, 0x11, 0x40000, blk 0x11, 0⟩ })).hart.ctl.svc = some ⟨h0, 0x11, 0x40000, blk 0x11, 0⟩ ∧ w0.unperformed = false := by decide +kernel

/-- An offer of frame 2 to function 0 itself under context 9, an acceptor; and none. -/
def wof : State := (wp 0x20000 (rw 0 2)).modFn 0 (fun f => { f with offers := [⟨frameOf w0.ctx 0x20000 (rw 0 2) 0, false, 7, 0⟩] })
def racc : Req := reqOf #v[0x14, 0x20000, 1, 0x8000000000000000 ||| 0x3000000000000000, BitVec.ofNat 64 (frameOf w0.ctx 0x20000 (rw 0 2) 0 % 2 ^ 20), 0, 0, 0]
theorem wit_MemoryServices_shared : w0.myFn.offers = [] ∧ wof.myFn.offers.length = 1 ∧
    wof.myFn.offers.all (fun o => o.named false (racc.pageFrame 0) && o.sz == entSZ racc.attr && o.peer == wof.myFn.num &&
      (o.frame / 2 ^ 20 == homeStack wof.ctx (racc.pageVa 0))) = true ∧
    ((wof.mappers (frameOf w0.ctx 0x20000 (rw 0 2) 0)).find? (fun t => t.ctx == wof.ctx && t.frame0 == frameOf w0.ctx 0x20000 (rw 0 2) 0)).isSome = true ∧
    entFMT ((wp 0x20000 (rw 11 2)).entryAt w0.ctx 0x20000) = 11 ∧ entW ((wp 0x20000 (rw 11 2)).entryAt w0.ctx 0x20000) = true ∧
    (thawAll [2] (wp 0x20000 (rw 11 2))).1 = true ∧ (w0.thawFrame 1).isSome = true := by decide +kernel

/-- A frame that R113 allows to convert, on a mapped page of the HDR format. -/
def wgl : State := ((wp 0x10000 (rw 11 1 ||| BitVec.twoPow 64 56)).modFn 0 (fun f => { f with gleanage := 3 })).setMeta (frameOf w0.ctx 0x10000 (rw 11 1) 0)
  { PageMeta.reset with fmtnow := 4, age := 5 }
theorem wit_Gleaner_frame : wgl.gleans (frameOf w0.ctx 0x10000 (rw 11 1) 0) = true ∧ w0.gleans 1 = false ∧
    (frameOf w0.ctx 0x10000 (rw 11 1) 0) ∈ wgl.mappedFrames (homeStack w0.ctx 0x10000) := by decide +kernel

/-- Firmware that runs; a bitmap that moves a furrow with a hart, and one that does not. -/
theorem wit_Assignments_moves : w0.fwRuns = true ∧ w0.fwSpanOk w0.ctx false 0x10000 16 = false ∧ (wp 0x10000 (rw 0 1)).fwSpanOk w0.ctx false 0x10000 16 = true ∧
    ((w0.assignFurrows 0 3).map (fun s => (s.fn 0).part)) = some 3 ∧ (reqOf (blka 0x40 0x10000 0 0)).count = 0 ∧ (reqOf (blka 0x45 0x10000 0 0)).attr = 0 ∧
    (reqOf (blka 0x43 0 255 0)).count ≤ 255 := by decide +kernel

/-- A peer's atomic and merging add on a RAW page and on a block page; a request over two frames of a page of 2 MiB of which the first refuses. -/
theorem wit_HostInterface_peers : (0x10000 : Word).toNat % 8 = 0 ∧ (wp 0x10000 (rw 0 1)).fate w0.myFn true false 0x10000 8 = .perform ∧
    (wp 0x10000 (rw 0 1)).fate w0.myFn true true 0x10000 8 = .perform ∧ entFMT (rw 0 1) = 0 ∧ entFMT (rw 1 1) ≠ 0 ∧
    w0.fate w0.myFn true true 0x10000 1 = .abort .protect ∧ (w0.myFn.departed = false) ∧
    (w0.modFn 0 (fun f => { f with quiesced := true })).myFn.departed = true ∧ (framePieces 64 0x10000 8).length = 1 ∧
    8 ≤ w0.toPageEnd w0.myFn 0x10000 := by decide +kernel

/-- R370: a peer's atomic add performs and answers the old value; its merging add joins an entry of no hart. -/
theorem test_peer : let s := (wp 0x10000 (rw 0 1)).rawWrite 1 0 [7]
    (okState (exec (.peerAccess 5 0 (.atomic 0x10000 true .add 5 0)) s)).rawNat 1 0 4 = 12 ∧
      (okState (exec (.peerAccess 5 0 (.atomic 0x10000 true .add 5 0)) s)).myFn.cpl = .data [7, 0, 0, 0] ∧
      (okState (exec (.peerAccess 5 0 (.merge (.int 32) [(0x10000, 0, 5)] false)) s)).ms.wq.map WqEntry.who = [[]] := by decide +kernel

theorem wit_HostInterface_enable : (wq 1).myFn.queues[0].mayEnable = true ∧ w0.myFn.queues[0].mayEnable = false ∧ w0.myFn.queues[0].en = false := by decide +kernel

/-- A device that has not booted, in recovery, and with a furrow mapped; a frame of the class of a channel that fails. -/
theorem wit_DeviceEvents_boot : State.reset.dev.booted = false ∧ State.reset.fwRuns = false ∧ w0.fwRuns = true ∧ State.reset.dev.furrowMap[(0 : Fin 128)] = none ∧
    w0.dev.furrowMap[(0 : Fin 128)] ≠ none ∧ w0.hart.ctl.window = [] ∧ w0.dev.fencedPcs = [] ∧ 383 / 32 = 11 ∧ 11 % 12 = 11 := by decide +kernel

/-- R25, R379: the frames of channel 383 of stack 1 are those that leave 11 modulo 12, by their number within the stack. -/
theorem test_channel_frames : let t := okState (exec (.pseudoChannelFailure 1 383) (w0.modDev (fun d => { d with sparePc := d.sparePc.set 1 0 })))
    t.frameGone (2 ^ 20 + 11) = true ∧ t.frameGone (2 ^ 20 + 7) = false ∧ t.frameGone 11 = false := by decide +kernel

theorem wit_VectorFloat_rounding : specF4 ∈ [specF32, specBf16, specF16, specE4, specE5, specF4, specA56] ∧ (5 : Nat) ≠ 0 ∧ (FVal.nan true).isNan = true := by
  decide

theorem wit_StepRunsDecoded_fresh : w0.hart.ctl.reissue = [] ∧ w0.hart.ctl.aside = none ∧ w0.hart.ctl.window = [] ∧ w0.pace = [] ∧ w0.taken w0.core = 0 ∧
    (ws (loc 0) (wre 1)).storeMayWait = false ∧ (ws (loc 0)).storeMayWait = true ∧ w0.olderWork = false ∧ trapped w0 w0 = false ∧ wla.hart.ctl.window ≠ [] ∧ isRep (.rep ⟨.imm 4, 1, 0, 0⟩ 0 none) = true := by
  decide +kernel

/-! ## The spec's worked examples -/

/-- R14's address 0x0D76: hart 2 of core 5 of furrow 11 of field 6. -/
theorem test_packed_address : furrowOf (0xD76 : HartLoc) = 16 * 6 + 11 ∧ coreOf (0xD76 : HartLoc) = 8 * (16 * 6 + 11) + 5 := by decide

/-- R23: homes of regions in contexts 3 and 4. -/
theorem test_home_stack : homeStack 3 0x0000001000000000 = 3 ∧ homeStack 3 0x0000001000200000 = 2 ∧ homeStack 4 0x0000001000000000 = 0 := by
  decide

/-- R52: steps 5 to 7 of the table, on set 0 with the lines 2, 4, 6 and 8. -/
theorem test_tag_table :
    let s := (w0.modCsr (fun c => { c with ttcfg := 0x0000100100010000 })).modCtl (fun c => { c with
      share := some [⟨#v[some 2, some 4, some 6, some 8], [3, 2, 1, 0]⟩, ⟨Vector.replicate 4 none, [0, 1, 2, 3]⟩] })
    let t := okState (execStlook h0 3 1 (wx [(1, 0x200)] s))
    t.x 3 = 0 ∧ t.hart.ctl.share.map (fun l => l.map TagSet.order) = some [[0, 3, 2, 1], [0, 1, 2, 3]] ∧
      (okState (execStlook h0 3 1 (wx [(1, 0xA00)] t))).x 3 = 0x0001FFFFFFFFFFFF := by decide +kernel

/-- R64: three contributions of 2^-9 to a BF16 element 1.0: in one entry, two in one entry, and each alone. -/
theorem test_reduction_groupings :
    let a : MergeAdd := ⟨1, 0, 0, 0, .raw .bf16, 0x3B000000, some w0.hart.dest, false⟩
    let s := w0.rawWrite 1 0 [0x80, 0x3F]
    let add := fun (s : State) => s.mergeArrive a
    let apply := fun (s : State) => okState (execWriteQueueApply 0 s)
    (apply (add (add (add s)))).rawNat 1 0 2 = 0x3F81 ∧ (apply (add (apply (add (add s))))).rawNat 1 0 2 = 0x3F80 ∧
      (apply (add s)).rawNat 1 0 2 = 0x3F80 := by decide +kernel

/-- R92: the block 3.0, -0.1, 100.0 and 29 zeros, in E4M3 and in E2M1. -/
theorem test_block :
    let xs := [0x40400000, 0xBDCCCCCD, 0x42C80000].map specF32.decode ++ List.replicate 29 (.fin false 0 0)
    mxEncode .f8e4 xs = (0x7D, [0x54, 0xAD, 0x7C] ++ List.replicate 29 0) ∧ mxEncode .f4 xs = (0x83, [0, 8, 7] ++ List.replicate 29 0) := by
  decide +kernel

/-- R84, R92: VCVTQ of that block to f4 sets UF and NX. -/
theorem test_vcvtq :
    let s := (wv .f32 32).modRegs (fun r => { r with v := r.v.set 0 (BitVec.ofNat _ (0x40400000 + 0xBDCCCCCD * 2 ^ 32 + 0x42C80000 * 2 ^ 64)) })
    let t := okState (execVcvtq h0 8 ⟨0, false⟩ 1 0 false 0 s)
    t.scByte 1 0 = 0x83 ∧ (List.range 3).map (t.elt 8 4) = [0, 8, 7] ∧ t.hart.csr.fflags = 3 := by decide +kernel

/-- R96: 2^24, 1, 1, 1 by pairs and in order. -/
theorem test_reductions :
    let s := (wv .f32 4).modRegs (fun r => { r with v := r.v.set 0 (BitVec.ofNat _ (0x4B800000 + 0x3F800000 * (2 ^ 32 + 2 ^ 64 + 2 ^ 96))) })
    (okState (execVfredsum h0 1 ⟨0, false⟩ 0 s)).x 1 = 0x4B800001 ∧ (okState (execVfredosum h0 1 ⟨0, false⟩ 0 s)).x 1 = 0x4B800000 := by
  decide +kernel

/-- R109: the two headers of the example, with the values 0x3 and 0xA. -/
theorem test_sparse_block :
    let vals := [3, 10] ++ List.replicate 30 0
    ((smxDecode 0x57D80 vals).map Prod.snd).all id = true ∧ (smxDecode 0x50180 vals).take 4 = [(3, false), (0, false), (10, false), (0, false)] := by
  decide +kernel

/-- R146: the record of six crews of twelve harts passes its checks. -/
theorem test_record : let w : Vector Word 8 := #v[0, 0, 0x0105030C00000006, 0x0100000101000080, 1, 0, 0, 0]
    let l := newLaunch 0 0 0 0 w
    recordOk w = true ∧ (l.crewCount, l.hartCount, l.prio, l.grantMin, l.tileCount, l.windowBytes) = (6, 12, 5, 2, 1, 0x40000) := by
  decide +kernel

/-- R232: the table of VSETRUN. -/
theorem test_vsetrun : ([(40, 0), (24, 16), (8, 32), (40, 10), (3, 10)].map (fun (x : Word × Word) =>
    ((okState (execVsetrun h0 12 11 13 4 (wx [(11, x.1), (13, x.2)] (wv .f32 0)))).x 12).toNat)) = [16, 16, 8, 6, 3] := by decide +kernel

/-- R242: VCOMPRESS of 10 to 15 under 0b100110. -/
theorem test_vcompress :
    let s := (wv .i32 6).modRegs (fun r => { r with
      k := r.k.set 1 0b100110
      v := r.v.set 0 (BitVec.ofNat _ ((List.range 6).map (fun i => (10 + i) * 2 ^ (32 * i))).sum) })
    (List.range 3).map ((okState (execVcompress h0 8 ⟨0, false⟩ ⟨1, false⟩ s)).elt 8 32) = [11, 12, 15] := by decide +kernel

/-- R243: the scan of 1 to 6 with a head at element 3 and the carry 10. -/
theorem test_vscanadd :
    let s := ((wv .i32 6).modCsr (fun c => { c with xcar := 10 })).modRegs (fun r => { r with
      k := r.k.set 2 0b001000
      v := r.v.set 0 (BitVec.ofNat _ ((List.range 6).map (fun i => (1 + i) * 2 ^ (32 * i))).sum) })
    let t := okState (execVscanadd h0 8 ⟨0, false⟩ 2 s)
    (List.range 6).map (t.elt 8 32) = [11, 13, 16, 4, 9, 15] ∧ t.hart.csr.xcar = 15 := by decide +kernel

/-- R244: VRECUR with a = 2, 2, 2 and b = 1, 1, 1. -/
theorem test_vrecur :
    let s := (wv .i32 3).modRegs (fun r => { r with
      v := (r.v.set 0 (BitVec.ofNat _ (2 + 2 * 2 ^ 32 + 2 * 2 ^ 64))).set 1 (BitVec.ofNat _ (1 + 2 ^ 32 + 2 ^ 64)) })
    let t := okState (execVrecur h0 8 ⟨0, false⟩ ⟨1, false⟩ s)
    (List.range 3).map (t.elt 8 32) = [1, 3, 7] ∧ t.hart.csr.xcar = 7 := by decide +kernel

/-- R281, fragment 4: the record of the indices 3, 1, 3, 6 in context 3. -/
theorem test_plan_record :
    let k : PlanKey := ⟨6, 0, false, 0x0000001000000000, 4⟩
    let p := k.build 3 (k.classify [3, 1, 3, 6])
    p.flags = 3 ∧ p.dist = [1, 3] ∧ p.slot = [1, 0, 1, 0xFFFF] ∧ p.order = [1, 0, 2] ∧ p.gstart = [0, 1, 3] ∧ p.runs = [⟨0, 2, 3⟩] ∧ p.size = 0x88 := by
  decide +kernel

/-! ## Ill-formed terms, each refused by the check that it breaks -/

/-- R212: a service code of another mnemonic. -/
theorem test_bad_svc : [0, 2, 16, 21].all (fun c => !wellFormed (.svc h0 c)) = true ∧ wellFormed (.svc h0 3) = true ∧
    wellFormed (.svc h0 22) = true := by decide

/-- R177: VMERGE without a mask. -/
theorem test_bad_vmerge : wellFormed (.vmerge h0 1 ⟨2, false⟩ (.x 3) 0) = false ∧ wellFormed (.vmerge h0 1 ⟨2, false⟩ (.x 3) 7) = true := by decide

/-- R228: a source that is the destination. -/
theorem test_bad_overlap : [Instr.vslideup h0 1 ⟨1, false⟩ (.x 1) 0, .vslidedown h0 1 ⟨1, false⟩ (.x 1) 0, .vbcast h0 1 ⟨1, true⟩ (.x 1) 0,
    .vcompress h0 1 ⟨1, false⟩ ⟨1, false⟩, .vexpand h0 1 ⟨1, false⟩ ⟨1, false⟩, .vscanadd h0 1 ⟨1, false⟩ 0, .vscanmax h0 1 ⟨1, false⟩ 0,
    .vscanmin h0 1 ⟨1, false⟩ 0, .vscanmul h0 1 ⟨1, false⟩ 0, .vrecur h0 1 ⟨1, false⟩ ⟨2, false⟩, .vrecur h0 1 ⟨2, false⟩ ⟨1, false⟩,
    .vcvtd h0 1 ⟨1, false⟩ 0 .f32, .vcvtq h0 1 ⟨1, false⟩ 0 0 false 0, .plgatv h0 1 ⟨1, false⟩ 0 0, .plredAdd h0 1 ⟨1, false⟩ 0 0,
    .plredMin h0 1 ⟨1, false⟩ 0 0, .plredMax h0 1 ⟨1, false⟩ 0 0].all (fun i => !wellFormed i) = true := by decide

/-- R247: VCVTQ to f4 that names a codebook. -/
theorem test_bad_vcvtq : wellFormed (.vcvtq h0 1 ⟨2, false⟩ 0 0 false 3) = false ∧ wellFormed (.vcvtq h0 1 ⟨2, false⟩ 0 0 true 3) = true := by decide

/-- R292, R320: selectors that are not assigned. -/
theorem test_bad_selectors : [11, 15, 28, 255].all (fun n => !wellFormed (.plinfo h0 1 0 n)) = true ∧
    [8, 15].all (fun n => !wellFormed (.clstat h0 1 n)) = true ∧ wellFormed (.plinfo h0 1 0 27) = true ∧ wellFormed (.clstat h0 1 7) = true := by
  decide

/-- R301, R304, R305: formats that an outer product does not take, and a codebook without q4. -/
theorem test_bad_products : wellFormed (.opa h0 0 ⟨1, false⟩ (.vec ⟨2, false⟩) 0 .i16 .i8 0) = false ∧
    wellFormed (.opa h0 0 ⟨1, false⟩ (.vec ⟨2, false⟩) 0 .f32 .f32 1) = false ∧ wellFormed (.opa2 h0 0 ⟨1, false⟩ (.pad 2) 0 .bf16 .f32 0) = false ∧
    wellFormed (.opamx h0 0 ⟨1, false⟩ ⟨2, false⟩ 0 .f8e4 .bf16 0 0) = false ∧ wellFormed (.opa h0 0 ⟨1, false⟩ (.pad 2) 0 .q4 .f32 3) = true := by
  decide

/-- R183: a branch in slot A, one destination for both slots, and two vector destinations with the same remainder modulo 4. -/
theorem test_bad_pairs : pairOk (.br 0) .pnop = false ∧ pairOk (.mv 1 (.reg 2)) (.bdec 1 0) = false ∧
    pairOk (.vmv 1 (.reg 2)) (.vmv 5 (.reg 2)) = false ∧ pairOk (.vmv 1 (.reg 2)) (.vmv 6 (.reg 2)) = true ∧ pairOk (.mv 1 (.reg 2)) (.br 0) = true ∧
    wellFormed (.pairWord (.br 0) .pnop) = false ∧ wellFormed (.pairWord .pnop .pnop) = false := by decide

/-- R185: a repeat of a word that is no F-word, of a literal form without its literal, and of a control transfer. -/
theorem test_bad_repeats : wellFormed (.rep ⟨.imm 4, 0, 0, 0⟩ 0x4000000000000000 none) = false ∧
    wellFormed (.rep ⟨.imm 4, 0, 0, 0⟩ 0x0004000000000000 none) = false ∧ wellFormed (.rep ⟨.imm 4, 0, 0, 0⟩ 0x0800000000000000 none) = false ∧
    wellFormed (.rep ⟨.imm 4, 0, 0, 0⟩ 0 none) = true := by decide

/-! ## One step each, with results worked by hand from the rules -/

/-- x[2] after an instruction on two operands. -/
def r2 (f : Hdr → Fin 32 → Fin 32 → Src → State → Out) (p q : Word) : Word := (okState (f h0 2 3 (.reg 4) (wx [(3, p), (4, q)]))).x 2

/-- R198: a wrap, the high half of (-1) * (-1), division of the least number by -1 and by 0, a negative remainder, and shift amounts modulo 64. -/
theorem test_salu : r2 execAdd (BitVec.allOnes 64) 2 = 1 ∧ r2 execMulh (BitVec.allOnes 64) (BitVec.allOnes 64) = 0 ∧
    r2 execDiv (BitVec.twoPow 64 63) (BitVec.allOnes 64) = BitVec.twoPow 64 63 ∧ r2 execDiv 7 0 = BitVec.allOnes 64 ∧
    r2 execRem (BitVec.ofInt 64 (-7)) 3 = BitVec.ofInt 64 (-1) ∧ r2 execSra (BitVec.twoPow 64 63) 65 = BitVec.ofNat 64 (3 * 2 ^ 62) := by
  decide +kernel

/-- R10: x0 reads zero whatever is written. -/
theorem test_x0 : (okState (execLi h0 0 (.short 7) w0)).x 0 = 0 ∧ (okState (execLi h0 1 (.short 0xFFFF) w0)).x 1 = BitVec.allOnes 64 := by
  decide +kernel

/-- R199: -1 < 1 as signed numbers, and not as unsigned ones. -/
theorem test_compares : let s := wx [(3, BitVec.allOnes 64), (4, 1)]
    (okState (execClt h0 2 3 (.reg 4) s)).g 2 = true ∧ (okState (execCltu h0 2 3 (.reg 4) s)).g 2 = false := by decide +kernel

/-- R201: 1.5 + 2.25 = 3.75; 1.0 / 3.0 is inexact; the conversion of 3.75 under RNE is 4. -/
theorem test_sfp : let s := wx [(3, 0x3FC00000), (4, 0x40100000), (5, 0x40400000), (6, 0x3F800000), (7, 0x40700000)]
    (okState (execFadd h0 2 3 4 s)).x 2 = 0x40700000 ∧ (okState (execFdiv h0 2 6 5 s)).x 2 = 0x3EAAAAAB ∧
      (okState (execFdiv h0 2 6 5 s)).hart.csr.fflags = 1 ∧ (okState (execFcvtw h0 2 7 s)).x 2 = 4 := by decide +kernel

/-- R202, R203: a store leaves its bytes at its target, little-endian, and loads extend what they read. -/
theorem test_memory : let s := okState (execStoreAtTarget w0.loc (okState (execSd h0 2 3 (.short 0) (wx [(2, 0x1122334455667788), (3, loc 16)]))))
    s.myRead 16 2 = [0x88, 0x77] ∧ (okState (execLb h0 4 3 (.short 0) s)).x 4 = 0xFFFFFFFFFFFFFF88 ∧
      (okState (execLbu h0 4 3 (.short 7) s)).x 4 = 0x11 ∧ (okState (execLwu h0 4 3 (.short 4) s)).x 4 = 0x11223344 := by decide +kernel

/-- R205: AMOADD answers the old word and leaves the sum. -/
theorem test_amoadd : let s := okState (execAmoadd h0 4 3 2 ⟨false, false, true, .dev⟩ (wx [(2, 5), (3, loc 8)] (w0.myWrite 8 [7])))
    s.x 4 = 7 ∧ s.myRead 8 1 = [12] := by decide +kernel

/-- R206: offsets in words of 8 bytes, the link, and BDEC at its last count. -/
theorem test_branches : (okState (execBr h0 (.short 0xFFFF) (w0.modCtl (fun c => { c with pc := 16 })))).hart.ctl.pc = 8 ∧
    (okState (execJr h0 3 (wx [(3, 0x40)]))).hart.ctl.pc = 0x40 ∧ (okState (execBdec h0 3 (.short 4) (wx [(3, 2)]))).hart.ctl.pc = 32 ∧
    (okState (execBdec h0 3 (.short 4) (wx [(3, 1)]))).x 3 = 0 := by decide +kernel

/-- R208, R209: a trap goes to the handler with its cause and its address, and the return goes on behind it. -/
theorem test_trap : let s := okState (execTrap h0 9 (wh.modCtl (fun c => { c with pc := 0x20, next := 0x28 })))
    s.hart.ctl.pc = 0x100 ∧ s.hart.csr.uepc = 0x28 ∧ s.hart.csr.ucause = Cause.trap.code ∧ s.hart.csr.uinfo = 9 ∧
      (okState (execUret h0 s)).hart.ctl.pc = 0x28 ∧ (okState (execUret h0 s)).hart.ctl.inHandler = false := by decide +kernel

/-- R213: CSRW, CSRS and CSRC of xcar answer nothing and write the value, its union and its difference. -/
theorem test_csr : let s := okState (execCsrw h0 3 0x060 (wx [(3, 6), (4, 9)]))
    s.csrRead 0x060 = some 6 ∧ (okState (execCsrs h0 4 0x060 s)).csrRead 0x060 = some 15 ∧
      (okState (execCsrc h0 3 0x060 (okState (execCsrs h0 4 0x060 s)))).csrRead 0x060 = some 9 := by decide +kernel

/-- R236: VADD wraps in its format, and leaves inactive elements and elements from vl on. -/
theorem test_vadd : let s := (wv .i8 3).modRegs (fun r => { r with
      k := r.k.set 1 0b101
      v := (r.v.set 0 0x01020304).set 1 0x090909FF })
    (List.range 4).map ((okState (execVadd h0 1 ⟨0, false⟩ (.vec ⟨1, false⟩) 1 s)).elt 1 8) = [3, 9, 11, 9] := by decide +kernel

/-- R238: VFMUL of bf16: 1.5 * 2.0 = 3.0. -/
theorem test_vfmul : let s := (wv .bf16 1).modRegs (fun r => { r with v := (r.v.set 0 0x3FC0).set 1 0x4000 })
    (okState (execVfmul h0 2 ⟨0, false⟩ (.vec ⟨1, false⟩) 0 s)).elt 2 16 0 = 0x4040 := by decide +kernel

/-- R254, R256: VST and VLD through a page. -/
theorem test_vector_memory : let s := (wl 0 .i16 2 0x10010).modRegs (fun r => { r with v := r.v.set 3 0x22221111 })
    let t := okState (execVst h0 3 1 (.short 0) none 0 s)
    t.rawNat 1 0x10 4 = 0x22221111 ∧ (okState (execVld h0 4 1 (.short 0) none 0 0 t)).elt 4 16 1 = 0x2222 := by decide +kernel

/-- R299, R306: TZERO sets the mode. -/
theorem test_tzero : (okState (execTzero h0 2 true w0)).hart.regs.acc[(2 : Fin 4)].int = true := by decide +kernel

/-! ## Witnesses of the clauses added later -/

/-- The records of an entry: one of a load, two of a pair word of two vector slots, with no slot of its own. -/
noncomputable def vpair : Instr := .pairWord (.vint .vadd 1 (.imm 3)) (.vint .vadd 2 (.reg 1))
theorem wit_TrapEntry_flights : (∀ e ∈ wla.hart.ctl.window, e.flights = [e.fl] ∧ e.fl.slot = none ∧ e.fl.iter = none) ∧ wla.hart.ctl.rep = none ∧
    ((sq w0 0 vpair 0).flights.map Flight.slot) = [some false, some true] ∧ (w0.fn? 0).isSome = true := by decide +kernel

/-- A present and an absent page for a pin; an element of a load other than the faulting one; a store that is to be issued again after ABSENT_ST. -/
def wpin : State := wr false (some ⟨0x10000, 8, 5, 0, none⟩) .absentSt 0 0x10000 (wp 0x20000 (rw 0 2 &&& ~~~(BitVec.twoPow 64 62)) (wp 0x10000 (rw 0 1)))
theorem wit_ReturnFromHandler_pin : entP (wpin.entryAt wpin.ctx 0x10000) = true ∧ entV (wpin.entryAt wpin.ctx 0x20000) = true ∧
    entP (wpin.entryAt wpin.ctx 0x20000) = false ∧ wpin.hart.live = true ∧ wpin.hart.csr.uepc = 0 ∧ wpin.hart.csr.ustart = 0 ∧
    (match wpin.hart.ctl.trapRec with
      | some r => (r.left 0).again && (r.left 0).iter == r.iter && r.store.isSome && decide (wpin.resumeAddr r = 0x10000)
      | none => false) = true ∧
    (wpin.takePin wpin.hart (wpin.resumeAddr ⟨0, false, none, none, none, ⟨8, none, 0⟩, []⟩)).hart.ctl.pin = some 1 ∧
    (wx [(1, 0x10000)] (wv .i32 8)).eltVa ({ opc := 0x50, a := 1 }, none) { (wx [(1, 0x10000)] (wv .i32 8)).cur with start := 3 } 5 = some 0x10014 := by
  decide +kernel

/-- YIELD where a record waits that needs the crew released, and a crew that has not progressed; LAUNCH at bad addresses. -/
theorem wit_LaunchAndHalt_yield : (match (wpre.candidates 0, wpre.crew? w0.hart.place.launch 0) with
      | (l :: _, some c) => decide (wpre.crewPrio c ≤ l.prio) && (wpre.victims l (some c)).isSome && wpre.crewRested c
      | _ => false) = true ∧ (w0.crew? 7 0).isNone = true ∧ w0.candidates 0 = [] ∧
    (classOf (loc 0)).isVirt = false ∧ (0x10008 : Word).toNat % 64 ≠ 0 ∧ (classOf 0x10008).isVirt = true ∧
    (match (w0.settleHart w0.hart.dest).recordRead 0x30000 with
      | .ok _ => false
      | .error c => c == .protect) = true := by decide +kernel

/-- Codes of f32: NaNs of both kinds, infinities, zeros, 1.5; exact powers and roots. -/
theorem wit_VectorFloat_values : (specF32.decode 0x7FC00001).isNan = true ∧ (specF32.decode 0x7F800001).isSnan = true ∧
    (specF32.decode 0xFF800000) = .inf true ∧ (FRel.eval .lt (specF32.decode 0xBF800000) (specF32.decode 0x3F800000)).1 = true ∧
    (specF32.decode 0x80000000).isZero = true ∧ (specF32.decode 0x3FC00000).isZero = false := by decide +kernel
theorem wit_VectorFloat_exact : ∃ m e, specF32.decode 0x40400000 = .fin false m e ∧ m ≠ 0 := ⟨_, _, rfl, by decide⟩

/-- R87: minimum takes -0, maximum +0, and one NaN gives the other operand. -/
theorem test_minmax : fMinMax specF32 false 0 0x80000000 = (0x80000000, 0) ∧ fMinMax specF32 true 0x80000000 0 = (0, 0) ∧
    fMinMax specF32 false 0x7F800001 0x3F800000 = (0x3F800000, flagNV) ∧ fMinMax specF32 true 0x7FC00000 0x7FC00001 = (0x7FC00000, 0) := by decide +kernel
/-- R89, R239: the root of 9 is 3; 2.5 rounds to 2; -3 to an unsigned integer of 8 bits saturates to 0. -/
theorem test_float_values : fSqrt specF32 0 (.fin false 9 0) = (0x40400000, 0) ∧ fRound specF32 0 0x40200000 = (0x40000000, flagNX) ∧
    (FVal.fin true 3 0).toIntFmt 0 false 8 = (0, flagNV) ∧ fScale specF32 0 (.fin false 3 0) (-1) = (0x3FC00000, 0) := by decide +kernel

/-- R92: a block of 448 and zeros has X = 8 - 8 = 0 and the code 0x7E; one with an infinity has scale 0xFF. -/
theorem test_block_scale : mxEncode .f8e4 (.fin false 448 0 :: List.replicate 31 (.fin false 0 0)) = (127, 0x7E :: List.replicate 31 0) ∧
    mxEncode .f4 (.inf false :: List.replicate 31 (.fin false 0 0)) = (255, List.replicate 32 0) ∧
    (quantBlock none [.fin false 6 0, .fin true 3 0]).1 = 127 ∧ (quantBlock (some (Vector.replicate 16 0x7FC0)) [.fin false 6 0]).2.1 = [0] := by decide +kernel
theorem wit_Conversions_scales : (FVal.inf false).isFinite = false ∧ ([.fin false 6 0, .fin true 3 0].all FVal.isFinite) = true ∧
    (specBf16.decode 0x7FC0).isNan = true ∧ (specBf16.decode 0x7F80).isFinite = false ∧ (specBf16.decode 0x3F80).isFinite = true := by decide +kernel

/-- Sparse blocks of KIND 0, 1 and 2, and malformed ones, in the frame 1. -/
def wsb (h : Nat) : State := w0.rawWrite 1 0 (leBytes 8 h ++ [0x21, 0x43, 0x65])
theorem wit_ElementFetch_sparse : (wsb 0x7F).eltBad .smx4 1 3 = false ∧ (wsb 0x500017F).eltBad .smx4 1 3 = false ∧ (wsb 0x40027F).eltBad .smx4 1 0 = true ∧
    (wsb 0x37F).eltBad .smx4 1 0 = true ∧ (wsb 0x47F).eltBad .smx4 1 0 = true := by decide +kernel
/-- R109: the code of element 3 of KIND 0 is the fourth value, of KIND 1 with the mask 0b1001 at bits 27:24 the next value at elements 8 and 11. -/
theorem test_sparse_codes : (wsb 0x7F).eltCode .smx4 1 3 = 4 ∧ (wsb 0x900017F).eltCode .smx4 1 8 = 1 ∧ (wsb 0x900017F).eltCode .smx4 1 11 = 2 ∧
    (wsb 0x900017F).eltCode .smx4 1 9 = 0 ∧ (wsb 0x7F).blockScale .smx4 1 0 = 0x7F := by decide +kernel
/-- R110: a block with few non-zero codes is stored with KIND 2 and reads back. -/
theorem test_sparse_store : let t := w0.putBlock .smx4 1 0 0x80 (List.replicate 30 0 ++ [5, 8])
    t.eltCode .smx4 1 30 = 5 ∧ t.eltCode .smx4 1 31 = 0 ∧ t.rawNat 1 0 8 / 2 ^ 8 % 4 = 2 ∧ t.blockScale .smx4 1 0 = 0x80 := by decide +kernel
theorem wit_VectorStores_put : w0.canonical ∧ (List.replicate 30 0 ++ [5, 8]).length = 32 := ⟨canon_w0, rfl⟩

/-- A row access with no active element: idle, off its row, and on it; off an RC page. -/
theorem wit_RowAndScaledLoads_idle : (wrow 0).vl = 0 ∧ (wrow 8).cur.start = 0 ∧ (classOf 0x10000).isVirt = true ∧ entV ((wrow 8).entryAt w0.ctx 0x10000) = true ∧
    rowMisaligned 0x10008 64 ((wrow 8).entryAt w0.ctx 0x10000) = true ∧ rowMisaligned 0x10000 64 ((wrow 8).entryAt w0.ctx 0x10000) = false ∧
    entRC ((wrow 8).entryAt w0.ctx 0x10000) = true ∧ entRC (rw 0 1) = false ∧ ((List.range (wrow 8).vl).filter ((wrow 8).active 3)) = [] ∧
    (wrp w0.loc).ms.wq.any (fun q => q.meets 1 0 64 && q.who.contains w0.hart.dest) = true ∧ (wst 3 0 (wrow 8)).pmeta 1 ≠ (wrow 8).pmeta 1 := by decide +kernel
theorem wit_RowAndScaledLoads_absent : (match (wp 0x10000 ((rw 0 1 ||| BitVec.twoPow 64 57) &&& ~~~(BitVec.twoPow 64 62)) (wv .i64 8)).translate w0.ctx 0x10000 Need.load
      (rowMisaligned 0x10000 64) with
    | .ok _ => false
    | .error c => c == .absent) = true := by decide +kernel

/-- A copy that has read its group, and one that has not; the bytes at offset 64 are 1, 2, 3. -/
def wcp (got : List (Word × List Byte)) : State := (w0.myWrite 64 [1, 2, 3]).modCtl (fun c => { c with
  tags := c.tags.set 0 ⟨.busy, some ⟨.cpy, loc 0, loc 64, 3, 3, 0, 0, 0, [], 0, 0, got, 0, true⟩, 0, 0, 0⟩ })
theorem wit_Copies_groups : ((wcp []).hart.resident = true) ∧ ((loc 64 &&& ~~~31#64) = loc 64) ∧ offsetOf (loc 64) + 32 ≤ w0.myWindow ∧
    w0.liveRecord w0.core w0.hart.place.launch (offsetOf (loc 0)) 3 = false ∧ classOf (loc 64) = .loc := by decide +kernel
/-- R121, R259: the group is read first and the bytes stand until they are written in another step. -/
theorem test_copy_steps : let s := okState (execCopyChunk w0.loc 0 (wcp []))
    let t := okState (execCopyChunk w0.loc 0 s)
    (s.tag 0).prog = 0 ∧ s.myRead 0 3 = [0, 0, 0] ∧ (t.tag 0).prog = 3 ∧ t.myRead 0 3 = [1, 2, 3] := by decide +kernel

/-- The hart that a message to a place names: the resident one. -/
theorem wit_Messages_named : (wn.harts.filter (fun q => q.place.launch == w0.hart.place.launch && q.place.loc == 0)).find? Hart.resident = some wn.hart ∧
    (wn.harts.filter (fun q => q.place.launch == w0.hart.place.launch && q.place.loc == 9)) = [] := by decide +kernel

/-- The place of a plan of two positions with a list, two source frames and WATCHED. -/
theorem wit_PlanImage_sources : ([3, 1] : List Nat).length ≤ 24576 ∧ 0x10000 < 2 ^ 56 ∧ ([5, 6] : List (BitVec 32)).length ≤ 5 ∧
    (∀ x ∈ ([3, 1] : List Nat), x < 2 ^ 32) := by decide

/-- A stale plan tested as it issues, and not again once it has passed; the spans of PLCPY that are whole, and one that is none. -/
theorem wit_PlanApplies_tests : wps.cur.start = 0 ∧ wps.cur.tested = false ∧ wps.hart.ctl.scat = none ∧
    ((wps.modCtl (fun c => { c with resume := some { wps.cur with tested := true } })).cur.tested = true) ∧
    ((wpl.modCtl (fun c => { c with scat := some [] })).hart.ctl.scat.isSome = true) ∧ spanWhole (0xFFFFFFFFFFFFFFF0, 32) = false := by decide +kernel

/-- R353: PLSCAT reads its targets in one turn and writes what it combines with them in another, so a write between the two is lost. -/
theorem test_scatter_two_turns :
    let s := ((wp 0x10000 (rw 0 1) wpl).modRegs (fun r => { r with v := r.v.set 1 (BitVec.ofNat _ (10 + 20 * 2 ^ 32 + 30 * 2 ^ 64)) })).rawWrite 1 12 [7]
    let t := okState (execPlscatAdd h0 3 2 ⟨1, false⟩ 0 5 false s)
    let u := okState (execPlscatAdd h0 3 2 ⟨1, false⟩ 0 5 false (t.rawWrite 1 12 [9]))
    t.hart.ctl.phase = .waiting ∧ t.rawRead 1 12 1 = [7] ∧ u.rawRead 1 12 1 = [47] ∧ u.rawRead 1 4 1 = [20] := by decide +kernel

/-- R298, R309, R322: PLGAT, TLD and CLINS stand between their units. -/
theorem wit_Turns_groups : (sq (wv .i32 64) 0 (.plgat h0 1 2 3 5 0 0 false) 0).group = some 8 ∧ (sq (wv .i8 64) 0 (.tld h0 0 ⟨1, false⟩ 3 0) 0).group = some 32 := by decide +kernel


/-! ## Witnesses: the matrix unit, the clustering bank, the firmware, the debugger and the sequencer -/

/-- A panel of which an earlier turn has read the first group, and a product with a panel whose rows overlap (BSTR 0). -/
theorem wit_TilesAndProducts_panel : (w0.modCtl (fun c => { c with resume := some { w0.cur with panel := [(0x100, [7])] } })).cur.panel = [(0x100, [7])] ∧
    (wa .i8 true 2).bstr = 0 ∧ (wa .i8 true 2).kSteps = 1 ∧ (wa .i8 true 2).loc = w0.loc := by decide +kernel
/-- R303: the group that an earlier turn has read serves a later one, whatever the window holds by then. -/
theorem test_panel_kept : let s := (wx [(1, loc 0x100)] ((wa .i8 true 2).myWrite 0x100 [1, 1])).modCtl (fun c => { c with
      resume := some { (wx [(1, loc 0x100)] (wa .i8 true 2)).cur with panel := [(0x100, [2, 3] ++ List.replicate 30 0)] } })
    let t := (okState (execOpa h0 0 ⟨0, false⟩ (.pad 1) 0 .i8 .i8 0 s)).hart.regs.acc[(0 : Fin 4)]
    (t.cell 0 0, t.cell 0 1) = (4, 6) := by decide +kernel
/-- R233: an instruction that is issued again has the mcfg that it was issued with. -/
theorem test_mcfg_kept : let s := (wa .i8 true 2).modCtl (fun c => { c with resume := some (wa .i8 true 2).cur })
    (s.modCsr (fun c => { c with mcfg := 0x0000000000000304 })).mr = 2 := by decide +kernel

/-- A bank of one live entry, of two and of none; keys in their probe slots; a victim. -/
def bcx : BankCfg := ⟨1, 0, .i32, 1, 8, 0, false⟩
theorem wit_Clustering_choices : (bc 2).mode ≠ 1 ∧ bcx.mode = 1 ∧ ([] : List Nat).length = ([] : List Nat).length ∧ (bc 2).metric ≠ 3 ∧
    (⟨wbi 2, []⟩ : BankIO).isLive (entryOff (wbi 2) 64 0) = true ∧ (⟨wbk 2, []⟩ : BankIO).isLive (entryOff (wbk 2) 64 0) = false ∧
    (specF32.decode (bankDistance (bc 2) itm.codes [0x3F800000, 0x40000000])).isNan = false ∧ (bc 0).entrySize ≤ 64 ∧ (bc 0).track = false ∧
    ((wbf 0).window (wbf 0).core (wbf 0).hart.place.launch).isSome = true ∧ (wbf 0).hart.csr.bankBase + 64 + 2 * 64 ≤ (wbf 0).myWindow ∧
    ((wu 2).vl % 2 = 0) ∧ ((wc .cpy (wu 2)).interlocked [(loc 0, 64)] = true) := by decide +kernel
/-- R316: the squared distance of (1, 2) from (0, 0) is 5, the sum of magnitudes 3, the negative product with (1, 1) -3, and codes 5 and 6 differ in
two bits. -/
theorem test_distances : bankDistance (bc 2) [0x3F800000, 0x40000000] [0, 0] = 0x40A00000 ∧
    bankDistance { bc 2 with metric := 1 } [0x3F800000, 0x40000000] [0, 0] = 0x40400000 ∧
    bankDistance { bc 2 with metric := 2 } [0x3F800000, 0x40000000] [0x3F800000, 0x3F800000] = 0xC0400000 ∧
    bankDistance { bc 2 with metric := 3, kfmt := .i8 } [5] [6] = 0x40000000 := by decide +kernel
/-- R317, R319: an infinite sum is recentred to 448 in f8e4, and an exact-key item copies a NaN as it is. -/
theorem test_recentre_inf : (specE4.round false 0 (.inf false)).1 = 0x7E ∧ (specE4.round false 0 (.inf true)).1 = 0xFE := by decide +kernel
theorem test_exact_key_copies : let s := (wv .i32 1).modRegs (fun r => { r with v := r.v.set 8 (BitVec.ofNat _ 0x7FC00123) })
    (s.bankItemAt bcx 0 8 0).sums = [0x7FC00123] := by decide +kernel

/-- Requests of a mailbox, of a hart and of a hart that is gone; an earlier one that is held back and meets the page, and one that does not. -/
def wrq : State := ((wmb (blk 0x10)).modFn 0 (fun f => { f with arrived := 3, left := [⟨h0, 0x11, 0x40000, blk 0x11, 1⟩] })).modCtl (fun c => { c with
  svc := some ⟨h0, 0x12, 0x40000, blka 0x12 0x50000 1 0xF000000000000000, 2⟩ })
theorem wit_MemoryServices_order : wrq.fwReqs.map FwReq.seq = [3, 2, 1] ∧ wrq.fwTurn ⟨3, 0, 0x10, blk 0x10⟩ = false ∧
    wrq.fwTurn ⟨1, 0, 0x11, blk 0x11⟩ = true ∧ wrq.reqsMeet ⟨1, 0, 0x11, blk 0x11⟩ ⟨3, 0, 0x10, blk 0x10⟩ = true ∧
    wrq.reqsMeet ⟨2, 0, 0x12, blka 0x12 0x50000 1 0⟩ ⟨3, 0, 0x10, blk 0x10⟩ = false ∧ wrq.fwHeld ⟨1, 0, 0x11, blk 0x11⟩ = false ∧
    w0.fwTurn ⟨0, 0, 0x10, blk 0x10⟩ = true ∧ (w0.memService (w0.fn 0) 0x11 (blk 0x11)).isSome = true ∧
    (let s := (wp 0x20000 (rw 0 2)).setMeta 2 { PageMeta.reset with pin := true }
     (s.memService (s.fn 0) 0x11 (blka 0x11 0x20000 1 0)).isNone = true ∧ s.fwHeld ⟨1, 0, 0x11, blka 0x11 0x20000 1 0⟩ = true) := by decide +kernel
/-- R36: a request waits for an earlier one on its page, and both are handled in the order they arrived in. -/
theorem test_request_order : (match execMapPages (.mbox 0) wrq with
    | .refused _ => true
    | _ => false) = true := by decide +kernel

/-- The image of a stopped hart with an iteration to be issued again; one that keeps the address of its pin. -/
def wdr : State := wdb.modCtl (fun c => { c with reissue := [⟨8, none, w0.cur, none⟩, ⟨16, some (.mk 4 ⟨.imm 4, 1, 0, 0⟩ 0x00007DF7C0000000 none, 2), w0.cur, none⟩] })
theorem wit_MailboxOperations_image : (wdr.hart.ctl.reissue.map (fun f => f.iter.isSome)) = [false, true] ∧ (∀ x ∈ wdb.hart.ctl.reissue, x.iter = none) ∧
    wdb.hart.resident = true ∧ wdb.hart.ctl.pinAt = none ∧ (wdb.modCtl (fun c => { c with pinAt := some 0x10000 })).hart.ctl.pinAt = some 0x10000 := by decide +kernel
/-- R188: the image of a stopped hart shows the iteration that has not completed. -/
theorem test_image_rpc : ((wdr.dbgImage wdr.hart 1)[38]?) = some 2 := by decide +kernel

/-- A peer's merging add to a page of blocks combines into its whole block, of which a store of one byte would be a part. -/
theorem wit_HostInterface_merge : (wp 0x10000 (rw 11 1)).fate w0.myFn true true ((0x10005 : Word) &&& ~~~31#64) 32 = .perform ∧
    (wp 0x10000 (rw 11 1)).fate w0.myFn true true 0x10005 1 = .abort .partialBlock ∧
    w0.fate w0.myFn true true ((0x10005 : Word) &&& ~~~31#64) 32 = .abort .protect := by decide +kernel

/-- A free pace; a pair word and what its slots take; a hart whose record of slot B is issued again; a start index for an instruction that had not
issued; a guarded-off barrier. -/
theorem wit_Turns_issue : (w0.hart.ctl.aside = none) ∧ (slotsOf vpair).isSome = true ∧ wla.hasRoom 2 = true ∧
    (ww (List.replicate 7 (sq w0 0 (.vadd h0 1 ⟨0, false⟩ (.imm (.short 6)) 0) 0)) [] w0).hasRoom 2 = false ∧
    (w0.standAside ⟨0, none, w0.cur, some true⟩ w0.contHere [] []).hart.ctl.aside = some (⟨0, none, w0.cur, some true⟩, w0.contHere) ∧
    w0.guardOf (.fenceAll hOff .dev) = false ∧ w0.hart.ctl.begin = 0 ∧ countsUnits (.add h0 1 2 (.reg 3)) = false ∧
    ((w0.modCtl (fun c => { c with begin := 3 })).hart.ctl.begin ≠ 0) ∧ (wla.hart.ctl.window.all (fun e => !e.alone)) = true ∧
    (sq w0 0 (.plgat h0 1 2 3 5 0 0 false) 0).alone = true := by decide +kernel
/-- R189: a guarded-off fence waits for nothing that is in flight. -/
theorem test_guarded_fence : (okState (wla.issueWord (.fenceAll hOff .dev))).hart.ctl.phase = .running := by decide +kernel

/-! ## Decoding -/

/-- R195: `vfadd v0, v0~, #1.0`. -/
theorem test_decode_vfadd_r195 : decode 4 [0x1802000020003F80] = .ok (.vfadd ⟨0, false⟩ 0 ⟨0, true⟩ (.imm (.short 0x3F80)) 0) := by decide +kernel

/-- R195: `!g2? vadd v8, v4~, x7, k1`. -/
theorem test_decode_vadd_r195 : decode 4 [0x10292041E2000000] = .ok (.vadd ⟨2, true⟩ 8 ⟨4, true⟩ (.x 7) 1) := by decide +kernel

/-- R169: `li x10, #0xFE00_0000_0000_4000`. -/
theorem test_decode_li_literal : decode 4 [0x0106280000000000, 0xFE00000000004000] = .ok (.li ⟨0, false⟩ 10 (.lit 0x3E00000000004000)) := by decide +kernel

/-- chapter 10: `g3? br loop`, 7 words back. -/
theorem test_decode_br : decode 4 [0x083200000000FFF9] = .ok (.br ⟨3, false⟩ (.short 0xFFF9)) := by decide +kernel

/-- chapter 10: `fence.vs.frw`. -/
theorem test_decode_fence : decode 4 [0x0C80000000030022] = .ok (.fenceVs ⟨0, false⟩ .frw) := by decide +kernel

/-- chapter 10: `amocas.aq.dev x9, x8, [x12]`. -/
theorem test_decode_amocas : decode 4 [0x050024C20002000C] = .ok (.amocas ⟨0, false⟩ 9 12 8 ⟨false, false, true, .dev⟩) := by decide +kernel

/-- chapter 11: `vset x12, x11, f32, g1`. -/
theorem test_decode_vset : decode 4 [0x240030B000000008] = .ok (.vset ⟨0, false⟩ 12 11 ⟨.f32, 0⟩) := by decide +kernel

/-- chapter 11: `vsetrun x12, x11, x13, #4`. -/
theorem test_decode_vsetrun : decode 4 [0x240130B340010004] = .ok (.vsetrun ⟨0, false⟩ 12 11 13 4) := by decide +kernel

/-- chapter 12: `cpy [x10], [x11], x12, #5`. -/
theorem test_decode_cpy : decode 4 [0x290128B300000005] = .ok (.cpy ⟨0, false⟩ 10 11 12 5) := by decide +kernel

/-- chapter 12: `twall x13`. -/
theorem test_decode_twall : decode 4 [0x298000D000010000] = .ok (.twall ⟨0, false⟩ 13) := by decide +kernel

/-- chapter 12: `vst v4, [x21], sc=sc3`. -/
theorem test_decode_vst_scale : decode 4 [0x28821152C0000000] = .ok (.vst ⟨0, false⟩ 4 21 (.short 0) (some 3) 0) := by decide +kernel

/-- chapter 13: `plan pl0, v2, [x20], fk=k1`. -/
theorem test_decode_plan : decode 4 [0x3400002500400000] = .ok (.plan ⟨0, false⟩ 0 ⟨2, false⟩ 20 1) := by decide +kernel

/-- chapter 13: `plgat v4, pl0, [x21], x0`. -/
theorem test_decode_plgat : decode 4 [0x3400115000020000] = .ok (.plgat ⟨0, false⟩ 4 21 0 0 0 0 false) := by decide +kernel

/-- chapter 14: `tzero acc0, #fp`. -/
theorem test_decode_tzero : decode 4 [0x3800000000030000] = .ok (.tzero ⟨0, false⟩ 0 false) := by decide +kernel

/-- chapter 14: `opa acc0, v0, v1, #f32, #f32`. -/
theorem test_decode_opa : decode 4 [0x3800000040000088] = .ok (.opa ⟨0, false⟩ 0 ⟨0, false⟩ (.vec ⟨1, false⟩) 0 .f32 .f32 0) := by decide +kernel

/-- chapter 14: `tst v7, acc0, x0, #t`. -/
theorem test_decode_tst : decode 4 [0x38011C0000050001] = .ok (.tst ⟨0, false⟩ 7 0 0 0 true) := by decide +kernel

/-- chapter 14: `clcfg x11, x12`. -/
theorem test_decode_clcfg : decode 4 [0x3C0100B300000000] = .ok (.clcfg ⟨0, false⟩ 11 12) := by decide +kernel

/-- chapter 14: `clins v2, v0, v0`. -/
theorem test_decode_clins : decode 4 [0x3C00080000010000] = .ok (.clins ⟨0, false⟩ 2 ⟨0, false⟩ ⟨0, false⟩ 0 0) := by decide +kernel

/-- chapter 15: `uret`. -/
theorem test_decode_uret : decode 4 [0x0C00000000070000] = .ok (.uret ⟨0, false⟩) := by decide +kernel

/-- chapter 15: `ujmp x20`. -/
theorem test_decode_ujmp : decode 4 [0x0C00014000080000] = .ok (.ujmp ⟨0, false⟩ 20) := by decide +kernel

/-- chapter 16: `!g0? add x0, x0, x0`. -/
theorem test_decode_pad : decode 4 [0x0008000000000000] = .ok (.add ⟨0, true⟩ 0 0 (.reg 0)) := by decide +kernel

/-- chapter 16: `amoadd x13, x12, [x11]`. -/
theorem test_decode_amoadd : decode 4 [0x050034B300000004] = .ok (.amoadd ⟨0, false⟩ 13 11 12 ⟨false, false, false, .dev⟩) := by decide +kernel

/-- chapter 16: `halt`. -/
theorem test_decode_halt : decode 4 [0x0C000000000A0000] = .ok (.halt ⟨0, false⟩) := by decide +kernel

/-- chapter 17: `plinfo x15, pl0, #1`. -/
theorem test_decode_plinfo : decode 4 [0x34003C0000090001] = .ok (.plinfo ⟨0, false⟩ 15 0 1) := by decide +kernel

/-- chapter 17: `plred.add v6, pl0, v5`. -/
theorem test_decode_plred : decode 4 [0x3400185000060000] = .ok (.plredAdd ⟨0, false⟩ 6 ⟨5, false⟩ 0 0) := by decide +kernel

/-- chapter 17: `plbcast v7, pl0, v6`. -/
theorem test_decode_plbcast : decode 4 [0x34001C6000070000] = .ok (.plbcast ⟨0, false⟩ 7 ⟨6, false⟩ 0) := by decide +kernel

/-- chapter 17: `plscat.last [x18], pl0, v5, x0`. -/
theorem test_decode_plscat_last : decode 4 [0x3400012140050080] = .ok (.plscatLast ⟨0, false⟩ 0 18 ⟨5, false⟩ 0 0 false) := by decide +kernel

/-- chapter 18: `gcsleep.aq.dev k1, v0, v1, #all`. -/
theorem test_decode_gcsleep : decode 4 [0x300004004005002C] = .ok (.gcsleep ⟨0, false⟩ 1 ⟨0, false⟩ ⟨1, false⟩ 0 .dev true true) := by decide +kernel

/-- chapter 18: `!g1? sd x14, [x12]`. -/
theorem test_decode_sd : decode 4 [0x049A38C000030000] = .ok (.sd ⟨1, true⟩ 14 12 (.short 0)) := by decide +kernel

/-- chapter 18: `g1? strel.dev x14, [x12]`. -/
theorem test_decode_strel : decode 4 [0x049038C000040004] = .ok (.strel ⟨1, false⟩ 14 12 .dev) := by decide +kernel

/-- chapter 18: `g2? fence.all.dev`. -/
theorem test_decode_fence_all : decode 4 [0x0CA0000000030064] = .ok (.fenceAll ⟨2, false⟩ .dev) := by decide +kernel

/-- chapter 18: `g1? ldacq.dev x2, [x13]`. -/
theorem test_decode_ldacq : decode 4 [0x041008D000070004] = .ok (.ldacq ⟨1, false⟩ 2 13 .dev) := by decide +kernel

/-- chapter 19: `lw x13, [x3+rate]`. -/
theorem test_decode_lw : decode 4 [0x0402343000040030] = .ok (.lw ⟨0, false⟩ 13 3 (.short 48)) := by decide +kernel

/-- chapter 19: `vld v1, [x11]`. -/
theorem test_decode_vld : decode 4 [0x280204B000000000] = .ok (.vld ⟨0, false⟩ 1 11 (.short 0) none 0 0) := by decide +kernel

/-- chapter 19: `vfnms v3, v7~, x13`. -/
theorem test_decode_vfnms : decode 4 [0x18010C73600C0000] = .ok (.vfnms ⟨0, false⟩ 3 ⟨7, true⟩ (.x 13) 0) := by decide +kernel

/-- chapter 19: `vcvth v8, v3, #bf16`. -/
theorem test_decode_vcvth : decode 4 [0x2480203000000009] = .ok (.vcvth ⟨0, false⟩ 8 ⟨3, false⟩ 0 .bf16 false) := by decide +kernel

/-- chapter 20: `planm pl0, [x10], [x11]`. -/
theorem test_decode_planm : decode 4 [0x340000A2C0010000] = .ok (.planm ⟨0, false⟩ 0 10 11) := by decide +kernel

/-- chapter 20: `plcpy [x24], pl0, [x11], x0, #3, k1`. -/
theorem test_decode_plcpy : decode 4 [0x340060B002030060] = .ok (.plcpy ⟨0, false⟩ 24 11 0 1 0 0 false 3) := by decide +kernel

/-- chapter 20: `g4? pgreq [x5], #2`. -/
theorem test_decode_pgreq : decode 4 [0x2940005000030002] = .ok (.pgreq ⟨4, false⟩ 5 2) := by decide +kernel

/-- chapter 20: `opa acc0, v1, [x5], #bf16, #f8e4`. -/
theorem test_decode_opa_pad : decode 4 [0x38010011400000B9] = .ok (.opa ⟨0, false⟩ 0 ⟨1, false⟩ (.pad 5) 0 .bf16 .f8e4 0) := by decide +kernel

/-- chapter 2: slot A `add x6, x7`, slot B `bdec x8` to itself. -/
theorem test_decode_pair : decode 4 [0x4130E0001A880000] = .ok (.pairWord (.salu .add 6 (.reg 7)) (.bdec 8 0)) := by decide +kernel

/-- R187: `rep #3, d+2, a+2, b+0` before `vfmul v0, v0, v8`. -/
theorem test_decode_rep : decode 4 [0x8000069000000000, 0x1800000200030000] = .ok (.rep ⟨.imm 3, 2, 2, 0⟩ 0x1800000200030000 none) := by decide +kernel

/-- R196: SALU 22, S in IMM16[2:0]. -/
theorem test_decode_addsh : decode 4 [0x00000C4140160007] = .ok (.addsh ⟨0, false⟩ 3 4 5 7) := by decide +kernel

/-- R196: SCMP 2. -/
theorem test_decode_clt : decode 4 [0x00821DF000028000] = .ok (.clt ⟨0, false⟩ 7 31 (.imm (.short 0x8000))) := by decide +kernel

/-- R196: SMOV 3, N in IMM16[2:0]. -/
theorem test_decode_sel : decode 4 [0x01000420C0030005] = .ok (.sel ⟨0, false⟩ 1 2 3 5) := by decide +kernel

/-- R196: SFP 12. -/
theorem test_decode_fcle : decode 4 [0x018009E7C00C0000] = .ok (.fcle ⟨0, false⟩ 2 30 31) := by decide +kernel

/-- R196: SYS 1, the CSR number in IMM16. -/
theorem test_decode_csrw : decode 4 [0x0C00009000010044] = .ok (.csrw ⟨0, false⟩ 9 0x044) := by decide +kernel

/-- R196: SYNC 0, R221: ID in IMM16[3:0], scope in IMM16[4]. -/
theorem test_decode_bar : decode 4 [0x0C80000000000013] = .ok (.barLaunch ⟨0, false⟩ 3) := by decide +kernel

/-- R196: BR 3. -/
theorem test_decode_jalr : decode 4 [0x0800042000030000] = .ok (.jalr ⟨0, false⟩ 1 2) := by decide +kernel

/-- R226: VICMP 7. -/
theorem test_decode_vsgtu : decode 4 [0x10801FEFFE070000] = .ok (.vsgtu ⟨0, false⟩ 7 ⟨62, true⟩ (.vec ⟨63, true⟩) 7) := by decide +kernel

/-- R226: VFCMP 6. -/
theorem test_decode_vfuno : decode 4 [0x18810C8264060000] = .ok (.vfuno ⟨0, false⟩ 3 ⟨8, true⟩ (.x 9) 2) := by decide +kernel

/-- R226: VMASK 3. -/
theorem test_decode_kandn : decode 4 [0x1C000420F0030000] = .ok (.kandn ⟨0, false⟩ 1 ⟨2, true⟩ ⟨3, true⟩) := by decide +kernel

/-- R226: VMASK 8 with DIR 1. -/
theorem test_decode_kmv : decode 4 [0x1C00244000080001] = .ok (.kmvToVector ⟨0, false⟩ 9 ⟨4, false⟩) := by decide +kernel

/-- R226: VPERM 6. -/
theorem test_decode_vins : decode 4 [0x1C82244000060003] = .ok (.vins ⟨0, false⟩ 9 4 (.imm (.short 3))) := by decide +kernel

/-- R226: VSCAN 4. -/
theorem test_decode_vrecur : decode 4 [0x1D000420D0040000] = .ok (.vrecur ⟨0, false⟩ 1 ⟨2, false⟩ ⟨3, true⟩) := by decide +kernel

/-- R226: VRED 7. -/
theorem test_decode_vfredosum : decode 4 [0x1D80042006070000] = .ok (.vfredosum ⟨0, false⟩ 1 ⟨2, false⟩ 3) := by decide +kernel

/-- R250: STAG 1. -/
theorem test_decode_stset : decode 4 [0x2A010020C0010000] = .ok (.stset ⟨0, false⟩ 2 3) := by decide +kernel

/-- R192 check 4: OPC 0x7F. -/
theorem test_decode_bad_major : decode 4 [0x3F80000000000000] = .bad .unassignedMajor := by decide +kernel

/-- R192 check 5: SALU 24. -/
theorem test_decode_bad_fn : decode 4 [0x0000000000180000] = .bad .unassignedFn := by decide +kernel

/-- R195: FORM 11 gives subcode 0x03 before the chain is looked at. -/
theorem test_decode_bad_form : decode 4 [0x102B2041F2000000] = .bad .form := by decide +kernel

/-- R250: `cpy` with IMM16 0x0040. -/
theorem test_decode_bad_reserved : decode 4 [0x290128B300000040] = .bad .reserved := by decide +kernel

/-- R169: LIT before a word that is no L-word. -/
theorem test_decode_bad_lit : decode 4 [0x0106280000000000, 0x0000000000000000] = .bad .lit := by decide +kernel

/-- R169: an L-word begins no instruction. -/
theorem test_decode_bad_lword : decode 4 [0xFE00000000004000] = .bad .lword := by decide +kernel

/-- R177: an x register above x31. -/
theorem test_decode_bad_register : decode 4 [0x0000801080000000] = .bad .register := by decide +kernel

/-- R195: CB on an x register gives subcode 0x08. -/
theorem test_decode_bad_chain : decode 4 [0x10292041F2000000] = .bad .chain := by decide +kernel

/-- R175: `kand` takes no mask. -/
theorem test_decode_bad_mask : decode 4 [0x1C000420C2000000] = .bad .mask := by decide +kernel

/-- R228: `vmerge` without a mask. -/
theorem test_decode_bad_operand_vmerge : decode 4 [0x10000420C01A0000] = .bad .operand := by decide +kernel

/-- R182: POP 63 is none. -/
theorem test_decode_bad_pair : decode 4 [0x400000007E000000] = .bad .pair := by decide +kernel

/-- R185: a repeat of a branch. -/
theorem test_decode_bad_prefix : decode 4 [0x8000069000000000, 0x0802000000000000] = .bad .repPrefix := by decide +kernel

/-- R304: `opa2` with f32. -/
theorem test_decode_bad_operand : decode 4 [0x3800000040010088] = .bad .operand := by decide +kernel

end Sys2Proof.Tests
end

/-! # Scalar arithmetic, compares and moves (spec/10: R198 to R200) -/

namespace Sys2Proof

/-! ## Words with one field changed -/

/-- A number added below bit 16 of a word with IMM16 clear is the word's IMM16. -/
theorem FWord.ofNat_add_imm {f : FWord} (hf : f.imm = 0) (n : Word) :
    BitVec.ofNat 64 f.toNat + n = BitVec.ofNat 64 ({ f with imm := n.toNat } : FWord).toNat := by
  have sum : f.toNat + n.toNat = ({ f with imm := n.toNat } : FWord).toNat := by
    simp only [FWord.toNat, hf]
    omega
  rw [← sum, BitVec.ofNat_add, BitVec.ofNat_toNat, BitVec.setWidth_eq]

/-- `2 ^ 45` is the fourth bit of the D field: adding it `n` times adds `8 * n` to D. -/
theorem FWord.ofNat_add_d (f : FWord) (n : Nat) :
    BitVec.ofNat 64 f.toNat + BitVec.ofNat 64 (n * 2 ^ 45) = BitVec.ofNat 64 ({ f with d := f.d + 8 * n } : FWord).toNat := by
  have sum : f.toNat + n * 2 ^ 45 = ({ f with d := f.d + 8 * n } : FWord).toNat := by
    simp only [FWord.toNat]
    omega
  rw [← BitVec.ofNat_add, sum]

theorem fEnc_add_imm {h : Hdr} {f : FWord} {w : Word} (e : fEnc h none f = [w]) (hf : f.imm = 0) (n : Word) :
    [w + n] = fEnc h none { f with imm := n.toNat } := by
  simp only [fEnc] at e ⊢
  rw [← List.head_eq_of_cons_eq e, FWord.ofNat_add_imm (f := { f with g := h.g.val, gn := h.gn }) hf]

theorem fEnc_add_d {h : Hdr} {i : Option Imm} {f : FWord} {w : Word} {r : List Word} (e : fEnc h i f = w :: r) (n : Nat) :
    (w + BitVec.ofNat 64 (n * 2 ^ 45)) :: r = fEnc h i { f with d := f.d + 8 * n } := by
  cases i <;> simp only [fEnc] at e ⊢ <;>
    rw [← List.head_eq_of_cons_eq e, ← List.tail_eq_of_cons_eq e, FWord.ofNat_add_d]

/-! ## Words that the checks refuse (R192) -/

/-- Check 7 comes first of those that the form's row makes. -/
theorem decodeF_bad_reserved {tiles : Nat} {f : FWord} {next : Option Word} {sh : Shape} {r : FormRow}
    (hs : shapeOf f = .ok sh) (hr : sh.form? f = some r) (bad : sh.reservedOk f r = false) :
    decodeF tiles f next = .bad .reserved := by
  simp [decodeF, hs, decodeShape, hr, bad]

/-- Check 9 comes after the reserved fields and the literal. -/
theorem decodeF_bad_register {tiles : Nat} {f : FWord} {next : Option Word} {sh : Shape} {r : FormRow}
    (hs : shapeOf f = .ok sh) (hr : sh.form? f = some r) (resv : sh.reservedOk f r = true) (lit : litOk f r next = true)
    (bad : r.d.regOk tiles f.d = false) : decodeF tiles f next = .bad .register := by
  simp [decodeF, hs, decodeShape, hr, resv, lit, bad]

/-- ADDSH uses bits 2:0 of IMM16 alone (R198). -/
theorem decode_addsh_reserved (h : Hdr) (d a b : Fin 32) {w n : Word} (e : encode (.addsh h d a b 0) = [w])
    (lo : 8 ≤ n.toNat) (hi : n.toNat < 65536) : decode 4 [w + n] = .bad .reserved := by
  have masked : n.toNat &&& 7 ≠ n.toNat := by
    rw [show 7 = 2 ^ 3 - 1 from rfl, Nat.and_two_pow_sub_one_eq_mod]
    omega
  rw [fEnc_add_imm (f := { opc := 0x00, fn := 22, d := d.val, a := a.val, b := b.val }) e rfl n,
    decode_fEnc (hf := by constructor <;> simp <;> omega)]
  exact decodeF_bad_reserved rfl rfl (by simp [Shape.reservedOk, FWord.withEnc, masked])

@[simp] theorem FWord.withEnc_opc (f : FWord) (h : Hdr) (i : Option Imm) : (f.withEnc h i).opc = f.opc := by
  cases i <;> rfl

@[simp] theorem FWord.withEnc_fn (f : FWord) (h : Hdr) (i : Option Imm) : (f.withEnc h i).fn = f.fn := by
  cases i <;> rfl

/-- The fields of a scalar compare (R199). -/
def scmpFields (fn d : Nat) (a : Fin 32) (y : Src) : FWord :=
  { opc := 0x01, fn := fn, form := y.formVal, d := d, a := a.val, b := y.bVal }

/-- The forms of a scalar compare: a register or an immediate as the second operand, and a guard in D (R199). -/
def scmpForms : List FormRow := [⟨0, .g, .x, .x, false⟩, ⟨2, .g, .x, .none, true⟩]

theorem encode_scmp (h : Hdr) (d : Fin 8) (a : Fin 32) (y : Src) :
    ∀ i ∈ [Instr.ceq h d a y, .cne h d a y, .clt h d a y, .cltu h d a y, .cge h d a y, .cgeu h d a y],
      ∃ fn, fn < 6 ∧ encode i = fEnc h y.immOf (scmpFields fn d.val a y) := by
  simp only [List.forall_mem_cons]
  exact ⟨⟨0, by decide, rfl⟩, ⟨1, by decide, rfl⟩, ⟨2, by decide, rfl⟩, ⟨3, by decide, rfl⟩, ⟨4, by decide, rfl⟩,
    ⟨5, by decide, rfl⟩, fun _ m => absurd m List.not_mem_nil⟩

/-- The six compares have one shape, whose D field is a guard. -/
theorem shapeOf_scmp {f : FWord} (ho : f.opc = 0x01) (hf : f.fn < 6) :
    ∃ sh, shapeOf f = .ok sh ∧ sh.forms f = scmpForms ∧ sh.immMask = 0 ∧ sh.sci = false := by
  have row : ∀ n : Fin 6, ∃ sh, shapesSCMP[n.val]? = some sh ∧
      sh.forms f = scmpForms ∧ sh.immMask = 0 ∧ sh.sci = false := by
    intro n
    match n with
    | 0 | 1 | 2 | 3 | 4 | 5 => exact ⟨_, rfl, rfl, rfl, rfl⟩
  obtain ⟨sh, hsh, facts⟩ := row ⟨f.fn, hf⟩
  refine ⟨sh, ?_, facts⟩
  have major : lookup 0x01 majors = some shapesSCMP := rfl
  simp only [shapeOf, ho, major, hsh]

/-- Every check before check 9 passes, whatever the second operand; check 9 refuses D. -/
theorem decode_scmp_register {fn d : Nat} (hfn : fn < 6) (lo : 8 ≤ d) (hi : d < 64) (h : Hdr) (a : Fin 32) (y : Src) :
    decode 4 (fEnc h y.immOf (scmpFields fn d a y)) = .bad .register := by
  have range : (scmpFields fn d a y).InRange := by
    cases y <;> constructor <;> simp [scmpFields, Src.formVal, Src.bVal] <;> omega
  have above : ¬ d < 8 := Nat.not_lt.mpr lo
  obtain ⟨sh, hs, forms, mask, sci⟩ := shapeOf_scmp (f := (scmpFields fn d a y).withEnc h y.immOf)
    (FWord.withEnc_opc ..) (by rw [FWord.withEnc_fn]; exact hfn)
  rw [decode_fEnc (hf := range)]
  rcases y with r | (b | b)
  all_goals
    refine decodeF_bad_register hs (by rw [Shape.form?, forms]; rfl) ?_ ?_ ?_ <;>
    simp [Shape.reservedOk, FClass.resvOk, FClass.regOk, FClass.size, litOk, mask, sci, scmpFields, FWord.withEnc,
      literal_litNext, Imm.isLit, Imm.immVal, Src.formVal, Src.bVal, Src.immOf, above]

end Sys2Proof

namespace Sys2Proof.Machine

/-! ## How a scalar instruction completes

One rule for each of the model's shared operations: `f` is the function that `exec` gives the instruction, and `value` says what `f` gives of
the operands. -/

section
variable {i : Instr} {h : Hdr} {d a : Fin 32} {y : Src} {s u : State} {v : Word}

theorem completes_salu (f : Word → Word → Word) (st : Starts h (a :: srcRegs y) s u) (e : exec i s = salu h d a y s f)
    (value : f (u.x a) (u.src y) = v) : Completes i s (u.setX d v) :=
  completes_issue st e (by rw [value])

theorem completes_salu1 (f : Word → Word) (st : Starts h [a] s u) (e : exec i s = salu1 h d a s f) (value : f (u.x a) = v) :
    Completes i s (u.setX d v) :=
  completes_issue st e (by rw [value])

theorem completes_scmp {g : Fin 8} {b : Bool} (f : Word → Word → Bool) (st : Starts h (a :: srcRegs y) s u)
    (e : exec i s = scmp h g a y s f) (value : f (u.x a) (u.src y) = b) : Completes i s (u.setG g b) :=
  completes_issue st e (by rw [value])

end

/-! ## The values of R198 -/

theorem mul_eq_ofInt {w : Nat} (a b : BitVec w) : a * b = BitVec.ofInt w (a.toInt * b.toInt) := by
  rw [BitVec.ofInt_mul, BitVec.ofInt_toInt, BitVec.ofInt_toInt]

theorem udivR_eq {w : Nat} (a b : BitVec w) :
    udivR a b = if b = 0 then BitVec.allOnes w else BitVec.ofNat w (a.toNat / b.toNat) := by
  rw [udivR, BitVec.udiv_def]

theorem uremR_eq {w : Nat} (a b : BitVec w) : uremR a b = if b = 0 then a else BitVec.ofNat w (a.toNat % b.toNat) := by
  rw [uremR, BitVec.umod_def]

theorem sminR_eq {w : Nat} (a b : BitVec w) : sminR a b = BitVec.ofInt w (min a.toInt b.toInt) := by
  have least : min a.toInt b.toInt = if b.toInt < a.toInt then b.toInt else a.toInt := by split <;> omega
  rw [least, apply_ite (BitVec.ofInt w), BitVec.ofInt_toInt, BitVec.ofInt_toInt]
  simp only [sminR, BitVec.slt_iff_toInt_lt]

theorem smaxR_eq {w : Nat} (a b : BitVec w) : smaxR a b = BitVec.ofInt w (max a.toInt b.toInt) := by
  have greatest : max a.toInt b.toInt = if a.toInt < b.toInt then b.toInt else a.toInt := by split <;> omega
  rw [greatest, apply_ite (BitVec.ofInt w), BitVec.ofInt_toInt, BitVec.ofInt_toInt]
  simp only [smaxR, BitVec.slt_iff_toInt_lt]

theorem uminR_eq {w : Nat} (a b : BitVec w) : uminR a b = BitVec.ofNat w (min a.toNat b.toNat) := by
  have least : min a.toNat b.toNat = if b.toNat < a.toNat then b.toNat else a.toNat := by split <;> omega
  rw [least, apply_ite (BitVec.ofNat w), BitVec.ofNat_toNat, BitVec.ofNat_toNat]
  simp only [uminR, BitVec.ult_iff_lt, BitVec.lt_def, BitVec.setWidth_eq]

theorem umaxR_eq {w : Nat} (a b : BitVec w) : umaxR a b = BitVec.ofNat w (max a.toNat b.toNat) := by
  have greatest : max a.toNat b.toNat = if a.toNat < b.toNat then b.toNat else a.toNat := by split <;> omega
  rw [greatest, apply_ite (BitVec.ofNat w), BitVec.ofNat_toNat, BitVec.ofNat_toNat]
  simp only [umaxR, BitVec.ult_iff_lt, BitVec.lt_def, BitVec.setWidth_eq]

theorem shiftLeft_eq_mul_ofNat {w : Nat} (x : BitVec w) (n : Nat) : x <<< n = x * BitVec.ofNat w (2 ^ n) := by
  rw [BitVec.shiftLeft_eq_mul_twoPow]
  congr 1
  exact BitVec.eq_of_toNat_eq (by rw [BitVec.toNat_twoPow, BitVec.toNat_ofNat])

/-! ## The relations of R199 -/

theorem beq_eq_decide_eq {w : Nat} (a b : BitVec w) : (a == b) = decide (a = b) := rfl

theorem bne_eq_decide_ne {w : Nat} (a b : BitVec w) : (a != b) = decide (a ≠ b) := by
  rw [bne, beq_eq_decide_eq, decide_not]

theorem not_slt_eq_decide {w : Nat} (a b : BitVec w) : (!a.slt b) = decide (b.toInt ≤ a.toInt) := by
  rw [BitVec.slt_eq_decide, ← decide_not, decide_eq_decide, Int.not_lt]

theorem not_ult_eq_decide {w : Nat} (a b : BitVec w) : (!a.ult b) = decide (b.toNat ≤ a.toNat) := by
  rw [BitVec.ult_eq_decide, ← decide_not, decide_eq_decide, Nat.not_lt]

/-! ## Counting bits -/

theorem lt_two_pow_bitLen (n : Nat) : n < 2 ^ bitLen n := by
  unfold bitLen
  split
  · next zero => simp [zero]
  · exact Nat.lt_log2_self

theorem bitLen_le {n k : Nat} (lt : n < 2 ^ k) : bitLen n ≤ k := by
  unfold bitLen
  split
  · exact Nat.zero_le k
  · next pos => exact (Nat.log2_lt pos).mpr lt

theorem testBit_bitLen {n : Nat} (pos : 0 < bitLen n) : n.testBit (bitLen n - 1) = true := by
  unfold bitLen at pos ⊢
  split at pos
  · cases pos
  · next nz => rw [if_neg nz, Nat.add_sub_cancel, Nat.testBit_log2 nz]

/-- CLZ: that many bits from the top are zero, and the next one, if any, is set. -/
theorem clzR_spec (p : Word) : ∃ n, n ≤ 64 ∧ clzR p = BitVec.ofNat 64 n ∧
    (∀ i, i < n → p.getLsbD (63 - i) = false) ∧ (n < 64 → p.getLsbD (63 - n) = true) := by
  have fits : bitLen p.toNat ≤ 64 := bitLen_le p.isLt
  refine ⟨64 - bitLen p.toNat, Nat.sub_le _ _, rfl, fun i hi => ?_, fun hn => ?_⟩
  · refine Nat.testBit_lt_two_pow (Nat.lt_of_lt_of_le (lt_two_pow_bitLen _) ?_)
    exact Nat.pow_le_pow_right (by decide) (by omega)
  · rw [show 63 - (64 - bitLen p.toNat) = bitLen p.toNat - 1 by omega]
    exact testBit_bitLen (by omega)

/-- The search from bit `i` passes over clear bits and stops at a set one, or after `n` bits. -/
theorem lowestBit_spec (x : Nat) : ∀ n i : Nat, i ≤ lowestBit x n i ∧ lowestBit x n i ≤ i + n ∧
    (∀ j, i ≤ j → j < lowestBit x n i → x.testBit j = false) ∧
    (lowestBit x n i < i + n → x.testBit (lowestBit x n i) = true) := by
  intro n
  induction n with
  | zero => intro i; exact ⟨Nat.le_refl i, Nat.le_refl i, by simp only [lowestBit]; omega, by simp [lowestBit]⟩
  | succ n ih =>
    intro i
    rw [lowestBit]
    split
    · next set => exact ⟨Nat.le_refl i, by omega, by omega, fun _ => set⟩
    · next clear =>
      obtain ⟨lo, hi, below, found⟩ := ih (i + 1)
      refine ⟨by omega, by omega, fun j hij hj => ?_, fun lt => found (by omega)⟩
      rcases Nat.eq_or_lt_of_le hij with rfl | past
      · simpa using clear
      · exact below j past hj

/-- CTZ: that many low bits are zero, and the next one, if any, is set. -/
theorem ctzR_spec (p : Word) : ∃ n, n ≤ 64 ∧ ctzR p = BitVec.ofNat 64 n ∧
    (∀ i, i < n → p.getLsbD i = false) ∧ (n < 64 → p.getLsbD n = true) := by
  obtain ⟨-, hi, below, found⟩ := lowestBit_spec p.toNat 64 0
  exact ⟨_, by omega, rfl, fun i lt => below i (Nat.zero_le i) lt, fun lt => found (by omega)⟩

/-! ## All guards at once (R200) -/

/-- The word that GGET builds has the bit of each guard that reads true. -/
theorem getLsbD_foldl_guards (g : Fin 8 → Bool) (j : Nat) (l : List (Fin 8)) (w : Word) :
    (l.foldl (fun w i => if g i then w ||| BitVec.twoPow 64 i.val else w) w).getLsbD j =
      (w.getLsbD j || l.any (fun i => g i && i.val == j)) := by
  induction l generalizing w with
  | nil => simp
  | cons i l ih =>
    have lt : i.val < 64 := by omega
    have same : (i.val == j) = decide (i.val = j) := rfl
    rw [List.foldl_cons, ih, List.any_cons]
    by_cases on : g i = true
    · rw [if_pos on, on, BitVec.getLsbD_or, BitVec.getLsbD_twoPow, decide_eq_true lt, same, Bool.true_and,
        Bool.or_assoc]
    · rw [if_neg on, eq_false_of_ne_true on, Bool.false_and, Bool.false_or]

theorem State.getLsbD_guards (s : State) (j : Nat) :
    s.guards.getLsbD j = (List.finRange 8).any (fun i => s.g i && i.val == j) := by
  rw [State.guards, getLsbD_foldl_guards]
  simp

theorem State.getLsbD_guards_of_lt (s : State) (i : Fin 8) : s.guards.getLsbD i.val = s.g i := by
  rw [State.getLsbD_guards, Bool.eq_iff_iff]
  simp [← Fin.ext_iff]

theorem State.getLsbD_guards_of_le (s : State) {j : Nat} (le : 8 ≤ j) : s.guards.getLsbD j = false := by
  rw [State.getLsbD_guards, List.any_eq_false]
  intro i _
  have ne : i.val ≠ j := by omega
  simp [ne]

theorem State.g_foldl_setG (f : Fin 8 → Bool) (q : Fin 8) (l : List (Fin 8)) (s : State) :
    (l.foldl (fun s i => s.setG i (f i)) s).g q = if q ∈ l ∧ q ≠ 0 then f q else s.g q := by
  induction l generalizing s with
  | nil => simp
  | cons i l ih =>
    rw [List.foldl_cons, ih, State.g_setG]
    by_cases here : q = i
    · subst here
      by_cases zero : q = 0 <;> simp [zero]
    · simp [here]

theorem State.setG_eq_modRegs (s : State) (i : Fin 8) (b : Bool) :
    ∃ gs, s.setG i b = s.modRegs (fun r => { r with g := gs }) := by
  unfold State.setG
  split
  · exact ⟨s.hart.regs.g, rfl⟩
  · exact ⟨_, rfl⟩

theorem State.foldl_setG_eq_modRegs (f : Fin 8 → Bool) (l : List (Fin 8)) (s : State) :
    ∃ gs, l.foldl (fun s i => s.setG i (f i)) s = s.modRegs (fun r => { r with g := gs }) := by
  induction l generalizing s with
  | nil => exact ⟨s.hart.regs.g, rfl⟩
  | cons i l ih =>
    obtain ⟨gs, first⟩ := s.setG_eq_modRegs i (f i)
    obtain ⟨gs', rest⟩ := ih (s.setG i (f i))
    exact ⟨gs', by rw [List.foldl_cons, rest, first]; rfl⟩

theorem State.g_setGuards (s : State) (w : Word) (i : Fin 8) :
    (s.setGuards w).g i = if i = 0 then true else w.getLsbD i.val := by
  rw [State.setGuards, State.g_foldl_setG]
  by_cases zero : i = 0
  · subst zero; rfl
  · simp [zero]

theorem State.setGuards_frame (s : State) (w : Word) :
    s.setGuards w = s.modRegs (fun r => { r with g := (s.setGuards w).hart.regs.g }) := by
  obtain ⟨gs, e⟩ := s.foldl_setG_eq_modRegs (fun i => w.getLsbD i.val) (List.finRange 8)
  rw [State.setGuards, e]
  rfl

/-! ## The statements -/

/-- Settles O1: each instruction is `salu` of one function, whose value is R198's by the lemmas above. -/
theorem scalarArithmetic : Obligations.ScalarArithmetic := by
  refine ⟨fun h d a y s u st => ?_, fun h d a s u st => ⟨?_, ?_, ?_⟩, fun h d a b sh s u st => ?_,
    fun h d a b w n e lo hi => decode_addsh_reserved h d a b e lo hi⟩
  · exact ⟨completes_salu (· + ·) st rfl rfl, completes_salu (· - ·) st rfl rfl, completes_salu (· &&& ·) st rfl rfl,
      completes_salu (· ||| ·) st rfl rfl, completes_salu (· ^^^ ·) st rfl rfl,
      completes_salu (fun p q => p <<< shamt q) st rfl rfl, completes_salu (fun p q => p >>> shamt q) st rfl rfl,
      completes_salu (fun p q => p.sshiftRight (shamt q)) st rfl rfl,
      completes_salu (fun p q => p.rotateRight (shamt q)) st rfl rfl,
      completes_salu (· * ·) st rfl (mul_eq_ofInt _ _), completes_salu mulhR st rfl rfl, completes_salu mulhuR st rfl rfl,
      completes_salu sdivR st rfl rfl, completes_salu udivR st rfl (udivR_eq _ _),
      completes_salu sremR st rfl rfl, completes_salu uremR st rfl (uremR_eq _ _),
      completes_salu sminR st rfl (sminR_eq _ _), completes_salu smaxR st rfl (smaxR_eq _ _),
      completes_salu uminR st rfl (uminR_eq _ _), completes_salu umaxR st rfl (umaxR_eq _ _)⟩
  · obtain ⟨n, le, value, clear, set⟩ := clzR_spec (u.x a)
    exact ⟨n, le, completes_salu1 clzR st rfl value, clear, set⟩
  · obtain ⟨n, le, value, clear, set⟩ := ctzR_spec (u.x a)
    exact ⟨n, le, completes_salu1 ctzR st rfl value, clear, set⟩
  · exact completes_salu1 popcR st rfl rfl
  · rw [← shiftLeft_eq_mul_ofNat]
    exact completes_issue st rfl rfl

/-- Settles O2: the relations are the model's by the lemmas on `slt` and `ult`, and a D field above 7 fails check 9 whatever the compare and
its operands. -/
theorem scalarCompares : Obligations.ScalarCompares := by
  intro h d e f a y s
  refine ⟨fun u st => ?_, fun u st => ?_, rfl, fun i mem w r n words lo hi => ?_⟩
  · exact ⟨completes_scmp (· == ·) st rfl (beq_eq_decide_eq _ _), completes_scmp (· != ·) st rfl (bne_eq_decide_ne _ _),
      completes_scmp BitVec.slt st rfl BitVec.slt_eq_decide, completes_scmp BitVec.ult st rfl BitVec.ult_eq_decide,
      completes_scmp (fun p q => !p.slt q) st rfl (not_slt_eq_decide _ _),
      completes_scmp (fun p q => !p.ult q) st rfl (not_ult_eq_decide _ _)⟩
  · exact ⟨completes_issue st rfl rfl, completes_issue st rfl rfl, completes_issue st rfl rfl, completes_issue st rfl rfl⟩
  · obtain ⟨fn, hfn, fields⟩ := encode_scmp h d a y i mem
    rw [fEnc_add_d (fields.symm.trans words) n]
    exact decode_scmp_register (d := d.val + 8 * n) hfn (by omega) (by omega) h a y

/-- Settles O3: the guards' word and the write of all guards are folds over the eight numbers, taken bit by bit above. -/
theorem scalarMoves : Obligations.ScalarMoves := by
  refine ⟨fun h d a b n im s => ⟨fun u st => ?_, fun u st => ?_, fun u st => ⟨?_, ?_⟩⟩,
    fun h d a s => ⟨fun u st => ?_, fun u st => ?_⟩⟩
  · exact completes_issue st rfl rfl
  · exact completes_issue st rfl rfl
  · exact completes_issue st rfl rfl
  · exact completes_issue st rfl rfl
  · exact ⟨u.guards, completes_issue st rfl rfl, u.getLsbD_guards_of_lt, fun _ => u.getLsbD_guards_of_le⟩
  · exact ⟨u.setGuards (u.x a), completes_issue st rfl rfl, u.g_setGuards _, u.setGuards_frame _⟩

end Sys2Proof.Machine

/-! # Masks, permutations and reductions (spec/11: R241, R242, R245) -/

namespace Sys2Proof.Machine

/-! ## The mask instructions (R241)

Where an instruction writes bits of a mask it reads, each element reads a bit that no earlier one has written. -/

/-- A write of mask bits leaves every element of a vector register. -/
theorem WroteBits.elt {u t : State} {k : Fin 8} {p f : Nat → Bool} (wrote : WroteBits u k p f t) (v : Fin 64) (w i : Nat) :
    t.elt v w i = u.elt v w i := by
  rw [wrote.rest]
  rfl

/-- A write of elements leaves every mask bit. -/
theorem WroteElts.kbit {u t : State} {d : Fin 64} {size w : Nat} {p : Nat → Bool} {f : Nat → Nat}
    (wrote : WroteElts u d size w p f t) (k : Fin 8) (i : Nat) : t.kbit k i = u.kbit k i := by
  rw [wrote.rest]
  rfl

/-- A mask instruction whose loop gives bit `j` of `d` a value read from the masks and elements at `j`: these are still as they were. -/
theorem completes_maskLoop {i : Instr} {h : Hdr} {rs : List (Fin 32)} {d : Fin 8} {s u : State} {body : State → Res}
    {g : State → Nat → Bool} {f : Nat → Bool} (ok : u.vecOk) (st : Starts h rs s u) (e : exec i s = issue h rs s body)
    (b : body u = .done (u.overElts fun t j => t.setKbit d j (g t j)))
    (value : ∀ t j, (∀ k, t.kbit k j = u.kbit k j) → (∀ v w, t.elt v w j = u.elt v w j) → g t j = f j) :
    ∃ t, Completes i s t ∧ WroteBits u d (fun j => decide (j < u.vl) && decide (u.cur.start ≤ j)) f t := by
  have room := vecOk_bits ok
  refine ⟨_, completes_issue st e b, (wroteBits_overElts (q := fun _ => true) room fun j t lt wrote => ?_).skip (by simp)⟩
  have unwritten : g t j = f j :=
    value t j (fun k => wrote.read k (by omega) (by simp)) (fun v w => wrote.elt v w j)
  rw [unwritten, if_pos rfl]

/-- A mask instruction of two sources: `f` is the function that `exec` gives it. -/
theorem completes_kop {i : Instr} {h : Hdr} {d : Fin 8} {a b : CMask} {s u : State} (f : Bool → Bool → Bool)
    (ok : u.vecOk) (st : Starts h [] s u) (free : [d, a.r, b.r].any u.maskHeld = false) (e : exec i s = kop h d a b s f) :
    ∃ t, Completes i s t ∧ WroteBits u d (fun j => decide (j < u.vl) && decide (u.cur.start ≤ j))
      (fun j => f (u.kbit a.r j) (u.kbit b.r j)) t :=
  completes_maskLoop ok st e (whenMasks_free free _) (fun t j masks _ => by rw [masks, masks])

/-- KMV to a vector writes each bit as an element. -/
theorem completes_kmvToVector {h : Hdr} {v : Fin 64} {a : CMask} {s u : State} (ok : u.vecOk) (st : Starts h [] s u)
    (free : u.maskHeld a.r = false) (al : aligned u.vt.size v = true) (int : u.vt.fmt.isInt = true) :
    ∃ t, Completes (.kmvToVector h v a) s t ∧ WroteElts u v u.vt.size u.vt.fmt.width
      (fun j => decide (j < u.vl) && decide (u.cur.start ≤ j)) (fun j => (u.kbit a.r j).toNat) t := by
  obtain ⟨least, most, room⟩ := ok
  refine ⟨_, completes_issue st rfl ((whenMasks_free (by simp [free]) _).trans (vcheck_ok (by simp [al]) int _)), ?_⟩
  refine (wrote_overElts (q := fun _ => true) (width_dvd _) (width_pos _) least most (aligned_fits _ _ al) room
    fun j t _ wrote => ?_).skip (by simp)
  rw [if_pos rfl]
  exact ⟨_, rfl, by rw [wrote.kbit]⟩

section
variable {h : Hdr} {e : Fin 32} {a : CMask} {s u : State} (st : Starts h [] s u) (free : u.maskHeld a.r = false)
include st free

theorem completes_kpop :
    Completes (.kpop h e a) s (u.setX e (BitVec.ofNat 64 ((List.range u.vl).countP (u.kbit a.r)))) := by
  have masks : [a.r].any u.maskHeld = false := by simp [free]
  exact completes_issue st rfl (whenMasks_free masks _)

/-- KFIRST writes the first set bit's position, or all ones. -/
theorem completes_kfirst : Completes (.kfirst h e a) s
    (u.setX e (((List.range u.vl).find? (u.kbit a.r)).elim (BitVec.allOnes 64) (BitVec.ofNat 64))) := by
  have masks : [a.r].any u.maskHeld = false := by simp [free]
  refine completes_issue st rfl ((whenMasks_free masks _).trans ?_)
  cases (List.range u.vl).find? (u.kbit a.r) <;> rfl

theorem completes_kfirst_none (clear : ∀ j, j < u.vl → u.kbit a.r j = false) :
    Completes (.kfirst h e a) s (u.setX e (BitVec.ofInt 64 (-1))) := by
  have search : (List.range u.vl).find? (u.kbit a.r) = none := by simpa using clear
  have result := completes_kfirst (e := e) st free
  rw [search] at result
  exact result

theorem completes_kfirst_some {n : Nat} (lt : n < u.vl) (set : u.kbit a.r n = true)
    (below : ∀ j, j < n → u.kbit a.r j = false) : Completes (.kfirst h e a) s (u.setX e (BitVec.ofNat 64 n)) := by
  have search : (List.range u.vl).find? (u.kbit a.r) = some n :=
    List.find?_range_eq_some.mpr ⟨set, List.mem_range.mpr lt, fun j hj => by rw [below j hj]; rfl⟩
  have result := completes_kfirst (e := e) st free
  rw [search] at result
  exact result

end

/-- Settles O21: each instruction that writes a mask is a loop over the bits below vl, and the others read all of those bits at once. -/
theorem masks : Obligations.Masks := by
  intro h d a b e c v s u ok all
  obtain ⟨fd, fa, fb⟩ : u.maskHeld d = false ∧ u.maskHeld a.r = false ∧ u.maskHeld b.r = false := by simpa using all
  have free : [d, a.r, b.r].any u.maskHeld = false := by simp [fd, fa, fb]
  have freeNot : [d, a.r, a.r].any u.maskHeld = false := by simp [fd, fa]
  have free1 : [d].any u.maskHeld = false := by simp [fd]
  refine ⟨fun st => ⟨?and, ?or, ?xor, ?andn, ?not, ?all, fun al => ?toMask, ?toVector, ⟨_, ?pop, rfl⟩, ?none, ?some⟩,
    fun st => ?set⟩
  case and => exact completes_kop (· && ·) ok st free rfl
  case or => exact completes_kop (· || ·) ok st free rfl
  case xor => exact completes_kop (· != ·) ok st free rfl
  case andn => exact completes_kop (fun x y => x && !y) ok st free rfl
  case not => exact completes_kop (b := a) (fun x _ => !x) ok st freeNot rfl
  case all => exact completes_maskLoop ok st rfl (whenMasks_free free1 _) (fun _ _ _ _ => rfl)
  case toMask =>
    refine completes_maskLoop ok st rfl ((whenMasks_free free1 _).trans (vcheck_ok (by simp [al]) rfl _)) ?_
    intro t j _ elts
    rw [elts, bne, decide_not]
    rfl
  case toVector => exact fun al int => completes_kmvToVector ok st fa al int
  case pop => exact completes_kpop st fa
  case none => exact completes_kfirst_none st fa
  case some => exact fun n => completes_kfirst_some st fa
  case set => exact completes_maskLoop ok st rfl (whenMasks_free free1 _) (fun _ _ _ _ => rfl)

/-! ## Values of elements -/

/-- An element's value, as the word of its width has it. -/
theorem intOf_eq_bitVec (signed : Bool) {w : Nat} (pos : 0 < w) (b : Nat) :
    intOf signed w b = if signed then (BitVec.ofNat w b).toInt else ((BitVec.ofNat w b).toNat : Int) := by
  have half : 2 ^ w = 2 * 2 ^ (w - 1) := by rw [← Nat.pow_succ', Nat.succ_eq_add_one, Nat.sub_add_cancel pos]
  cases signed
  · simp [intOf]
  · simp only [intOf, BitVec.toInt_eq_toNat_cond, BitVec.toNat_ofNat, Bool.true_and, decide_eq_true_eq, if_true]
    by_cases high : 2 ^ (w - 1) ≤ b % 2 ^ w
    · rw [if_pos high, if_neg (by omega)]
      rfl
    · rw [if_neg high, if_pos (by omega)]

theorem xOfElt_eq_bitVec (f : Fmt) (b : Nat) :
    xOfElt f b = if f.isSigned then (BitVec.ofNat f.width b).signExtend 64 else (BitVec.ofNat f.width b).setWidth 64 := by
  rw [xOfElt, intOf_eq_bitVec _ (width_pos f)]
  cases f.isSigned
  · rw [if_neg Bool.false_ne_true, if_neg Bool.false_ne_true, BitVec.ofInt_natCast, BitVec.ofNat_toNat]
  · rfl

/-- The value that a format gives an element, as the word of its width has it. -/
def eltValue (f : Fmt) (c : Nat) : Int :=
  if f.isSigned then (BitVec.ofNat f.width c).toInt else ((BitVec.ofNat f.width c).toNat : Int)

theorem intOf_eq_eltValue (f : Fmt) (c : Nat) : intOf f.isSigned f.width c = eltValue f c :=
  intOf_eq_bitVec _ (width_pos f) c

/-- Codes of a format's width have distinct values. -/
theorem eltValue_inj {f : Fmt} {x y : Nat} (hx : x < 2 ^ f.width) (hy : y < 2 ^ f.width) (e : eltValue f x = eltValue f y) :
    x = y := by
  have words : BitVec.ofNat f.width x = BitVec.ofNat f.width y := by
    cases signed : f.isSigned <;> simp only [eltValue, signed, if_true, Bool.false_eq_true, if_false] at e
    · exact BitVec.eq_of_toNat_eq (Int.ofNat_inj.mp e)
    · exact BitVec.eq_of_toInt_eq e
  have codes := congrArg BitVec.toNat words
  rwa [BitVec.toNat_ofNat, BitVec.toNat_ofNat, Nat.mod_eq_of_lt hx, Nat.mod_eq_of_lt hy] at codes

theorem wrap_lt (w : Nat) (x : Int) : wrap w x < 2 ^ w := by
  have pos : 0 < 2 ^ w := Nat.two_pow_pos w
  have lt := Int.emod_lt_of_pos x (Int.ofNat_lt.mpr pos)
  have nonneg := Int.emod_nonneg x (Int.ofNat_ne_zero.mpr (Nat.ne_of_gt pos))
  unfold wrap
  omega

/-- A value in a format's range survives the encoding. -/
theorem eltValue_wrap {f : Fmt} {x : Int} (lo : intMin f.isSigned f.width ≤ x) (hi : x ≤ intMax f.isSigned f.width) :
    eltValue f (wrap f.width x) = x := by
  have word : BitVec.ofNat f.width (wrap f.width x) = BitVec.ofInt f.width x := by
    apply BitVec.eq_of_toNat_eq
    rw [BitVec.toNat_ofNat, Nat.mod_eq_of_lt (wrap_lt _ _), BitVec.toNat_ofInt, wrap]
  rw [eltValue, word]
  cases signed : f.isSigned <;> simp only [signed, intMin, intMax, if_true, Bool.false_eq_true, if_false] at lo hi ⊢
  · rw [BitVec.toNat_ofInt, Int.emod_eq_of_lt lo (by omega), Int.toNat_of_nonneg lo]
  · push_cast at lo hi
    exact BitVec.toInt_ofInt_eq_self (width_pos f) lo (by omega)

theorem eltValue_bounds (f : Fmt) (c : Nat) :
    intMin f.isSigned f.width ≤ eltValue f c ∧ eltValue f c ≤ intMax f.isSigned f.width := by
  rw [eltValue]
  cases f.isSigned <;> simp only [intMin, intMax, if_true, Bool.false_eq_true, if_false]
  · have lt := (BitVec.ofNat f.width c).isLt
    omega
  · have lo := BitVec.le_toInt (BitVec.ofNat f.width c)
    have hi := BitVec.toInt_lt (x := BitVec.ofNat f.width c)
    push_cast
    omega

theorem intMin_le_intMax (f : Fmt) : intMin f.isSigned f.width ≤ intMax f.isSigned f.width :=
  Int.le_trans (eltValue_bounds f 0).1 (eltValue_bounds f 0).2

theorem eltValue_leastOf_le (f : Fmt) (c : Nat) : eltValue f (leastOf f) ≤ eltValue f c := by
  rw [leastOf, eltValue_wrap (Int.le_refl _) (intMin_le_intMax f)]
  exact (eltValue_bounds f c).1

theorem le_eltValue_greatestOf (f : Fmt) (c : Nat) : eltValue f c ≤ eltValue f (greatestOf f) := by
  rw [greatestOf, eltValue_wrap (intMin_le_intMax f) (Int.le_refl _)]
  exact (eltValue_bounds f c).2

/-! ## Permutations (R228, R242) -/

theorem groupsMeet_eq_false_iff {a b : Fin 64} {n m : Nat} :
    groupsMeet a n b m = false ↔ a.val + n ≤ b.val ∨ b.val + m ≤ a.val := by
  rw [groupsMeet, Bool.and_eq_false_iff, decide_eq_false_iff_not, decide_eq_false_iff_not]
  omega

section
variable {i : Instr} {h : Hdr} {rs : List (Fin 32)} {ms : List (Fin 8)} {d : Fin 64} {a : CVec} {s u v : State}
  {k : State → Nat → Res} (st : Starts h rs s u) (free : ms.any u.maskHeld = false)
  (al : [d, a.r].all (aligned u.vt.size) = true)
include st free al

/-- A permutation between groups that share no register completes with its effect. -/
theorem completes_vperm (apart : d.val + u.vt.size ≤ a.r.val ∨ a.r.val + u.vt.size ≤ d.val)
    (e : exec i s = vperm h rs ms d a s k) (b : k u u.vt.fmt.width = .done v) : Completes i s v := by
  have disjoint := groupsMeet_eq_false_iff.mpr apart
  refine completes_issue st e ((whenMasks_free free _).trans ((vcheck_ok al rfl _).trans ?_))
  rw [needs_true (by rw [disjoint]; rfl), b]

/-- A permutation between groups that share a register raises ILLEGAL with subcode OPERAND, whatever it would do. -/
theorem traps_vperm (meet : ¬(d.val + u.vt.size ≤ a.r.val ∨ a.r.val + u.vt.size ≤ d.val))
    (e : exec i s = vperm h rs ms d a s k) : Traps i s u (illegal .operand) := by
  have shared : groupsMeet d u.vt.size a.r u.vt.size = true := by
    rwa [← groupsMeet_eq_false_iff, Bool.not_eq_false] at meet
  refine traps_issue st e ((whenMasks_free free _).trans ((vcheck_ok al rfl _).trans ?_))
  rw [needs, shared]
  rfl

end

/-- The positions below the next bound are those below the last one, and the last one. -/
theorem decide_lt_succ (j n : Nat) : decide (j < n + 1) = (decide (j < n) || decide (j = n)) := by
  rw [← Bool.decide_or, decide_eq_decide]
  omega

section
variable {d a : Fin 64} {u : State} (ok : u.vecOk)
include ok

/-- A loop that gives each chosen element of a group a value read from a group that shares no register with it: the source still reads as
before the loop. -/
theorem wrote_fromApart {q : Nat → Bool} {f : Nat → Nat} {g : State → Nat → Nat} (al : [d, a].all (aligned u.vt.size) = true)
    (apart : d.val + u.vt.size ≤ a.val ∨ a.val + u.vt.size ≤ d.val) (below : ∀ j, q j = true → j < u.vl)
    (value : ∀ t j, j < u.vl → (∀ n, n < u.vl → t.elt a u.vt.fmt.width n = u.elt a u.vt.fmt.width n) → g t j = f j) :
    WroteElts u d u.vt.size u.vt.fmt.width (fun j => decide (u.cur.start ≤ j) && q j) f
      (u.overElts fun t j => if q j then t.setElt d u.vt.fmt.width j (g t j) else t) := by
  obtain ⟨least, most, room⟩ := ok
  obtain ⟨ald, ala⟩ : aligned u.vt.size d = true ∧ aligned u.vt.size a = true := by simpa using al
  refine (wrote_overElts (q := q) (width_dvd _) (width_pos _) least most (aligned_fits _ _ ald) room
    fun j t lt wrote => ?_).skip fun j => ?_
  · have source : ∀ n, n < u.vl → t.elt a u.vt.fmt.width n = u.elt a u.vt.fmt.width n := fun n hn =>
      wrote.readApart (width_dvd _) (width_pos _) (aligned_fits _ _ ala) apart.symm (Nat.lt_of_lt_of_le hn room)
    by_cases chosen : q j = true
    · rw [if_pos chosen, if_pos chosen]
      exact ⟨_, rfl, by rw [value t j lt source]⟩
    · rw [if_neg chosen, if_neg chosen]
  · cases chosen : q j
    · simp
    · simp [below j chosen]

/-- One more element below vl. -/
theorem WroteElts.next {p : Nat → Bool} {f : Nat → Nat} {t : State} (wrote : WroteElts u d u.vt.size u.vt.fmt.width p f t)
    (al : aligned u.vt.size d = true) {j : Nat} (lt : j < u.vl) :
    WroteElts u d u.vt.size u.vt.fmt.width (fun n => p n || decide (n = j)) f (t.setElt d u.vt.fmt.width j (f j)) := by
  obtain ⟨least, most, room⟩ := ok
  refine wrote.step (width_dvd _) (width_pos _) least most (aligned_fits _ _ al) (by omega) (fun n => ?_) rfl
  by_cases here : n = j
  · simp [here]
  · simp [here]

/-- The chosen elements packed into the first places of a group. -/
theorem wrote_compress {l : List Nat} {x : Nat → Nat} (al : aligned u.vt.size d = true) (short : l.length ≤ u.vl) :
    WroteElts u d u.vt.size u.vt.fmt.width (fun j => decide (j < l.length)) (fun j => x (l.getD j 0))
      ((indexed l).foldl (fun t (p : Nat × Nat) => t.setElt d u.vt.fmt.width p.1 (x p.2)) u) := by
  rw [indexed_foldl (fun (t : State) j n => t.setElt d u.vt.fmt.width j (x n)) 0 l u]
  refine range_loop (fun n t => WroteElts u d u.vt.size u.vt.fmt.width (fun j => decide (j < n)) (fun j => x (l.getD j 0)) t)
    _ l.length u (WroteElts.none _ _ _ _ _ _ (by simp)) fun j t lt wrote => ?_
  exact (wrote.next ok al (by omega)).skip fun n => decide_lt_succ n j

/-- The first elements of a group spread over the chosen places below `n`: each place takes the element whose number is the count of the
chosen places below it. -/
theorem wrote_expand {q : Nat → Bool} {x : Nat → Nat} (al : aligned u.vt.size d = true) (n : Nat) (le : n ≤ u.vl) :
    WroteElts u d u.vt.size u.vt.fmt.width (fun j => decide (j < n) && q j) (fun j => x ((List.range j).countP q))
      ((indexed ((List.range n).filter q)).foldl (fun t (p : Nat × Nat) => t.setElt d u.vt.fmt.width p.2 (x p.1)) u) := by
  induction n with
  | zero => exact WroteElts.none _ _ _ _ _ _ (by simp)
  | succ n ih =>
    have wrote := ih (by omega)
    rw [List.range_succ, List.filter_append]
    cases chosen : q n
    · rw [List.filter_cons_of_neg (by simp [chosen]), List.filter_nil, List.append_nil]
      refine wrote.skip fun j => ?_
      rw [decide_lt_succ]
      by_cases here : j = n
      · simp [here, chosen]
      · simp [here]
    · rw [List.filter_cons_of_pos chosen, List.filter_nil, indexed_append, List.foldl_append, ← List.countP_eq_length_filter]
      refine (wrote.next ok al (by omega)).skip fun j => ?_
      rw [decide_lt_succ]
      by_cases here : j = n
      · simp [here, chosen]
      · simp [here]

/-- One element written if its position is below vl. -/
theorem wrote_one {k x : Nat} (al : aligned u.vt.size d = true) :
    WroteElts u d u.vt.size u.vt.fmt.width (fun j => decide (j = k) && decide (j < u.vl)) (fun _ => x)
      (if k < u.vl then u.setElt d u.vt.fmt.width k x else u) := by
  have nothing := WroteElts.none u d u.vt.size u.vt.fmt.width (fun _ => false) (fun _ => x) fun _ => rfl
  by_cases lt : k < u.vl
  · rw [if_pos lt]
    refine (nothing.next ok al lt).skip fun j => ?_
    by_cases here : j = k
    · simp [here, lt]
    · simp [here]
  · rw [if_neg lt]
    refine nothing.skip fun j => ?_
    by_cases here : j = k
    · simp [here, lt]
    · simp [here]

end

theorem lt_vl_of_active {u : State} {m : Fin 8} {j : Nat} (act : u.active m j = true) : j < u.vl :=
  of_decide_eq_true (Bool.and_eq_true_iff.mp act).1

/-- Settles O23: the three instructions with a position and VCOMPRESS and VEXPAND are permutations of the shared form, which traps before
its effect where the groups share a register; VEXT and VINS reach one element. -/
theorem permutations : Obligations.Permutations := by
  intro h d a b n m e c s u ok freeM freeB
  have maskM : [m].any u.maskHeld = false := by simp [freeM]
  have maskB : [b.r].any u.maskHeld = false := by simp [freeB]
  -- The arms of `exec`, so that the unifier stops at `vperm`.
  have up : exec (.vslideup h d a n m) s = execVslideup h d a n m s := rfl
  have down : exec (.vslidedown h d a n m) s = execVslidedown h d a n m s := rfl
  have bcast : exec (.vbcast h d a n m) s = execVbcast h d a n m s := rfl
  have compress : exec (.vcompress h d a b) s = execVcompress h d a b s := rfl
  have expand : exec (.vexpand h d a b) s = execVexpand h d a b s := rfl
  refine ⟨fun al apart => ⟨fun st => ⟨?up, ?down, ?bcast⟩, fun st => ⟨?compress, ?expand⟩⟩,
    fun al meet => ⟨fun st => ?slides, fun st => ?packs⟩, fun st al => ?ext, fun st al => ?ins⟩
  case up =>
    refine ⟨_, completes_vperm st maskM al apart up rfl,
      wrote_fromApart ok al apart (fun j q => ?_) fun t j lt source => ?_⟩
    · exact lt_vl_of_active (Bool.and_eq_true_iff.mp q).1
    · exact source _ (by omega)
  case down =>
    refine ⟨_, completes_vperm st maskM al apart down rfl,
      wrote_fromApart ok al apart (fun _ => lt_vl_of_active) fun t j lt source => ?_⟩
    exact ite_congr rfl (source _) fun _ => rfl
  case bcast =>
    refine ⟨_, completes_vperm st maskM al apart bcast rfl,
      wrote_fromApart ok al apart (fun _ => lt_vl_of_active) fun t j lt source => ?_⟩
    exact ite_congr rfl (source _) fun _ => rfl
  case compress =>
    have ald : aligned u.vt.size d = true := List.all_eq_true.mp al d List.mem_cons_self
    have short : (u.chosen b.r).length ≤ u.vl := by
      simpa [State.chosen] using List.length_filter_le (u.kbit b.r) (List.range u.vl)
    exact ⟨_, completes_vperm st maskB al apart compress rfl, wrote_compress ok ald short⟩
  case expand =>
    have ald : aligned u.vt.size d = true := List.all_eq_true.mp al d List.mem_cons_self
    exact ⟨_, completes_vperm st maskB al apart expand rfl, wrote_expand ok ald u.vl (Nat.le_refl _)⟩
  case slides =>
    simp only [List.forall_mem_cons]
    exact ⟨traps_vperm st maskM al meet up, traps_vperm st maskM al meet down, traps_vperm st maskM al meet bcast, by simp⟩
  case packs =>
    simp only [List.forall_mem_cons]
    exact ⟨traps_vperm st maskB al meet compress, traps_vperm st maskB al meet expand, by simp⟩
  case ext =>
    rw [← xOfElt_eq_bitVec]
    exact completes_issue st rfl (vcheck_ok (by simp [al]) rfl _)
  case ins =>
    exact ⟨_, completes_issue st rfl (vcheck_ok (by simp [al]) rfl _), wrote_one ok al⟩

/-! ## Reductions of integers (R245) -/

/-- An integer reduction of the active elements: `empty` and `f` are what `exec` gives it. -/
theorem completes_vredInt {i : Instr} {h : Hdr} {d : Fin 32} {a : CVec} {m : Fin 8} {s u : State} (empty : Fmt → Nat)
    (f : Fmt → Nat → Nat → Nat) {n : Nat} (st : Starts h [] s u) (free : u.maskHeld m = false)
    (al : aligned u.vt.size a.r = true) (int : u.vt.fmt.isInt = true) (e : exec i s = vredInt h d a m s empty f)
    (value : (u.activeElts m a.r).foldl (f u.vt.fmt) (empty u.vt.fmt) = n) :
    Completes i s (u.setX d (if u.vt.fmt.isSigned then (BitVec.ofNat u.vt.fmt.width n).signExtend 64
      else (BitVec.ofNat u.vt.fmt.width n).setWidth 64)) := by
  have masks : [m].any u.maskHeld = false := by simp [free]
  rw [← xOfElt_eq_bitVec, ← value]
  exact completes_issue st e ((whenMasks_free masks _).trans (vcheck_ok (by simp [al]) int _))

/-- A sum reduced at each step is the sum reduced once. -/
theorem foldl_add_mod (m z : Nat) (xs : List Nat) : xs.foldl (fun x y => (x + y) % m) (z % m) = (z + xs.sum) % m := by
  induction xs generalizing z with
  | nil => rfl
  | cons y xs ih => rw [List.foldl_cons, Nat.mod_add_mod, ih, List.sum_cons, Nat.add_assoc]

/-- `pick` chooses the one of two elements with the greater key. -/
def PicksGreater (key : Nat → Int) (pick : Nat → Nat → Nat) : Prop :=
  ∀ x y, key y ≤ key x ∧ pick x y = x ∨ key x ≤ key y ∧ pick x y = y

section
variable {key : Nat → Int} {pick : Nat → Nat → Nat} (p : PicksGreater key pick)
include p

theorem PicksGreater.foldl_mem (xs : List Nat) (z : Nat) : xs.foldl pick z = z ∨ xs.foldl pick z ∈ xs := by
  induction xs generalizing z with
  | nil => exact .inl rfl
  | cons y xs ih =>
    rw [List.foldl_cons, List.mem_cons]
    rcases p z y with ⟨-, stays⟩ | ⟨-, moves⟩
    · rw [stays]
      exact (ih z).imp_right .inr
    · rw [moves]
      exact .inr (ih y)

theorem PicksGreater.le_foldl (xs : List Nat) (z : Nat) :
    key z ≤ key (xs.foldl pick z) ∧ ∀ y ∈ xs, key y ≤ key (xs.foldl pick z) := by
  induction xs generalizing z with
  | nil => exact ⟨Int.le_refl _, by simp⟩
  | cons y xs ih =>
    obtain ⟨start, rest⟩ := ih (pick z y)
    rw [List.foldl_cons, List.forall_mem_cons]
    have both : key z ≤ key (pick z y) ∧ key y ≤ key (pick z y) := by
      rcases p z y with ⟨le, stays⟩ | ⟨le, moves⟩
      · exact ⟨Int.le_of_eq (congrArg key stays.symm), by rwa [stays]⟩
      · exact ⟨by rwa [moves], Int.le_of_eq (congrArg key moves.symm)⟩
    exact ⟨Int.le_trans both.1 start, Int.le_trans both.2 start, rest⟩

/-- The choice among a list, from a value with the least key that no other element has: the greatest of the list, or, of an empty list, that
value. -/
theorem PicksGreater.foldl_greatest {xs : List Nat} {z : Nat} (least : ∀ y, key z ≤ key y)
    (only : ∀ y ∈ xs, key y = key z → y = z) :
    (∀ y ∈ xs, key y ≤ key (xs.foldl pick z)) ∧
      (xs.foldl pick z ∈ xs ∨ xs = [] ∧ ∀ y, key (xs.foldl pick z) ≤ key y) := by
  obtain ⟨-, above⟩ := p.le_foldl xs z
  refine ⟨above, ?_⟩
  rcases p.foldl_mem xs z with start | found
  · rw [start] at above ⊢
    cases xs with
    | nil => exact .inr ⟨rfl, least⟩
    | cons y xs =>
      have here : y ∈ y :: xs := List.mem_cons_self
      have same : y = z := only y here (Int.le_antisymm (above y here) (least y))
      exact .inl (same ▸ here)
  · exact .inl found

end

theorem spec_eq_none_of_isInt {f : Fmt} (int : f.isInt = true) : f.spec = none := by
  revert int
  cases f <;> simp [Fmt.isInt, Fmt.spec]

theorem scanPick_eq {f : Fmt} (int : f.isInt = true) (most : Bool) (rm : BitVec 2) (x y : Nat) :
    (scanPick most f rm x y).1 = if decide (eltValue f x < eltValue f y) = most then y else x := by
  simp only [scanPick, spec_eq_none_of_isInt int, intOf_eq_eltValue, beq_iff_eq]

theorem picksGreater_max {f : Fmt} (int : f.isInt = true) :
    PicksGreater (eltValue f) (fun x y => (scanPick true f 0 x y).1) := by
  intro x y
  simp only [scanPick_eq int, decide_eq_true_eq]
  by_cases less : eltValue f x < eltValue f y
  · exact .inr ⟨Int.le_of_lt less, if_pos less⟩
  · exact .inl ⟨Int.not_lt.mp less, if_neg less⟩

theorem picksGreater_min {f : Fmt} (int : f.isInt = true) :
    PicksGreater (fun c => -eltValue f c) (fun x y => (scanPick false f 0 x y).1) := by
  intro x y
  simp only [scanPick_eq int, decide_eq_false_iff_not, Int.neg_le_neg_iff]
  by_cases less : eltValue f x < eltValue f y
  · exact .inl ⟨Int.le_of_lt less, if_neg (not_not_intro less)⟩
  · exact .inr ⟨Int.not_lt.mp less, if_pos less⟩

theorem lt_of_mem_activeElts {u : State} {m : Fin 8} {a : Fin 64} {y : Nat} (mem : y ∈ u.activeElts m a) : y < 2 ^ u.vt.fmt.width := by
  obtain ⟨j, -, rfl⟩ := List.mem_map.mp mem
  exact natField_lt _ _ _

/-! ## Reductions of floating-point numbers (R96, R245) -/

theorem nvOf_self (v : FVal) : nvOf v v = if v.isSnan then flagNV else 0 := by
  rw [nvOf, Bool.or_self, flagIf]

/-- The result of a floating-point reduction of a list: nothing and a single value are special. -/
def reduceFp (p : FmtSpec) (empty : Nat) (many : Nat × Flags) (xs : List Nat) : Nat × Flags :=
  match xs with
  | [] => (empty, 0)
  | [y] => if (p.decode y).isNan then (p.nanBits, if (p.decode y).isSnan then flagNV else 0) else (y, 0)
  | _ => many

theorem vredFp_eq (h : Hdr) (d : Fin 32) (a : CVec) (m : Fin 8) (s : State) (empty : FmtSpec → Nat)
    (f : FmtSpec → BitVec 2 → List Nat → Nat × Flags) :
    vredFp h d a m s empty f = issue h [] s (fun t => whenMasks t [m] <| vcheck t Fmt.isVfp [a.r] <|
      let xs := t.activeElts m a.r
      let r := reduceFp t.vspec (empty t.vspec) (f t.vspec t.frm xs) xs
      oneGroup t r.2 (fun t => .done (t.setX d (BitVec.ofNat 64 r.1)))) := by
  refine congrArg (issue h [] s) (funext fun t => ?_)
  rcases t.activeElts m a.r with _ | ⟨y, _ | ⟨z, l⟩⟩
  · rfl
  · simp only [nvOf_self, reduceFp]
  · rfl

/-- A floating-point reduction of the active elements counts as one group (R86): `empty` and `f` are what `exec` gives it. -/
theorem ends_vredFp {i : Instr} {h : Hdr} {d : Fin 32} {a : CVec} {m : Fin 8} {s u : State} (empty : FmtSpec → Nat)
    (f : FmtSpec → BitVec 2 → List Nat → Nat × Flags) (st : Starts h [] s u) (free : u.maskHeld m = false)
    (al : aligned u.vt.size a.r = true) (fp : u.vt.fmt.isVfp = true) (e : exec i s = vredFp h d a m s empty f) :
    let xs := u.activeElts m a.r
    let r := reduceFp u.vspec (empty u.vspec) (f u.vspec u.frm xs) xs
    (u.enabled r.2 = false → Completes i s ((u.accrue r.2).setX d (BitVec.ofNat 64 r.1))) ∧
      (u.enabled r.2 = true → Traps i s u (arithTrap r.2 0)) := by
  have masks : [m].any u.maskHeld = false := by simp [free]
  have groups : [a.r].all (aligned u.vt.size) = true := by simp [al]
  rw [vredFp_eq] at e
  exact ⟨fun calm => completes_issue st e ((whenMasks_free masks _).trans ((vcheck_ok groups fp _).trans (oneGroup_calm calm _))),
    fun trap => traps_issue st e ((whenMasks_free masks _).trans ((vcheck_ok groups fp _).trans (oneGroup_trap trap _)))⟩

/-! ## The pairwise tree (R96) -/

theorem joinFlags_map (f : Nat → Flags) (g : Nat → Nat) (l : List Nat) : joinFlags f (l.map g) = joinFlags (fun j => f (g j)) l :=
  List.foldl_map

theorem joinFlags_range_succ (f : Nat → Flags) (n : Nat) :
    joinFlags f (List.range (n + 1)) = f 0 ||| joinFlags (fun j => f (j + 1)) (List.range n) := by
  rw [List.range_succ_eq_map, ← List.singleton_append, joinFlags_append, joinFlags_one, joinFlags_map]

theorem half_add_two (n : Nat) : (n + 1 + 1) / 2 = n / 2 + 1 := Nat.add_div_right n Nat.two_pos

section
variable (add : Nat → Nat → Nat × Flags)

theorem pairLevel_cons (x y : Nat) (r : List Nat) : pairLevel add (x :: y :: r) =
    ((add x y).1 :: (pairLevel add r).1, (add x y).2 ||| (pairLevel add r).2) := rfl

theorem pairLevel_length : ∀ l : List Nat, (pairLevel add l).1.length = (l.length + 1) / 2
  | [] => rfl
  | [_] => by simp [pairLevel]
  | x :: y :: r => by
    rw [pairLevel_cons, List.length_cons, pairLevel_length r, List.length_cons, List.length_cons]
    omega

/-- Each pair of neighbours is added. -/
theorem pairLevel_getD_pair : ∀ (l : List Nat) (j : Nat), 2 * j + 1 < l.length →
    (pairLevel add l).1.getD j 0 = (add (l.getD (2 * j) 0) (l.getD (2 * j + 1) 0)).1
  | [], _, lt => absurd lt (Nat.not_lt_zero _)
  | [_], _, lt => absurd lt (by simp)
  | _ :: _ :: _, 0, _ => rfl
  | x :: y :: r, j + 1, lt => by
    rw [pairLevel_cons]
    exact pairLevel_getD_pair r j (by simp only [List.length_cons] at lt; omega)

/-- An odd last value passes up. -/
theorem pairLevel_getD_last : ∀ l : List Nat, l.length % 2 = 1 →
    (pairLevel add l).1.getD (l.length / 2) 0 = l.getD (l.length - 1) 0
  | [], odd => by simp at odd
  | [_], _ => by simp [pairLevel]
  | x :: y :: r, odd => by
    simp only [List.length_cons] at odd ⊢
    have rest : r.length % 2 = 1 := by omega
    rw [pairLevel_cons, half_add_two, show r.length + 1 + 1 - 1 = r.length - 1 + 1 + 1 by omega]
    exact pairLevel_getD_last r rest

theorem pairLevel_flags : ∀ l : List Nat, (pairLevel add l).2 =
    joinFlags (fun j => (add (l.getD (2 * j) 0) (l.getD (2 * j + 1) 0)).2) (List.range (l.length / 2))
  | [] => rfl
  | [_] => by simp [pairLevel, joinFlags]
  | x :: y :: r => by
    rw [pairLevel_cons, pairLevel_flags r, List.length_cons, List.length_cons, half_add_two,
      joinFlags_range_succ]
    rfl

theorem pairTree_singleton (n x : Nat) (f : Flags) : pairTree add n [x] f = (x, f) := by
  cases n <;> rfl

theorem pairTree_succ {n : Nat} {l : List Nat} {f : Flags} (two : 2 ≤ l.length) :
    pairTree add (n + 1) l f = pairTree add n (pairLevel add l).1 (f ||| (pairLevel add l).2) := by
  rw [pairTree, if_neg (by omega)]

end

/-- Settles O25: an integer reduction is one fold; the folds of VREDMAX and VREDMIN keep an extreme element, by the key that each compares.
A floating-point reduction ends as one group. R96's tree is described level by level. -/
theorem reductions : Obligations.Reductions := by
  refine ⟨fun h d a m s u st free al => ⟨fun int => ⟨?sum, ?and, ?or, ?xor, ?max, ?min⟩,
    fun fp => ⟨?fsum, ?fosum, ?fmax, ?fmin⟩⟩,
    fun add l x f n => ⟨pairLevel_length add l, pairLevel_getD_pair add l, pairLevel_getD_last add l, pairLevel_flags add l,
      pairTree_singleton add n x f, pairTree_succ add⟩⟩
  case sum =>
    refine completes_vredInt (fun _ => 0) (fun f x y => (x + y) % 2 ^ f.width) st free al int rfl ?_
    simpa [State.activeElts] using foldl_add_mod (2 ^ u.vt.fmt.width) 0 (u.activeElts m a.r)
  case and => exact completes_vredInt (fun f => 2 ^ f.width - 1) (fun _ x y => x &&& y) st free al int rfl rfl
  case or => exact completes_vredInt (fun _ => 0) (fun _ x y => x ||| y) st free al int rfl rfl
  case xor => exact completes_vredInt (fun _ => 0) (fun _ x y => x ^^^ y) st free al int rfl rfl
  case max =>
    obtain ⟨above, found⟩ := (picksGreater_max int).foldl_greatest (xs := u.activeElts m a.r) (eltValue_leastOf_le u.vt.fmt)
      fun y mem => eltValue_inj (lt_of_mem_activeElts mem) (wrap_lt _ _)
    exact ⟨_, completes_vredInt leastOf (fun f x y => (scanPick true f 0 x y).1) st free al int rfl rfl, above, found⟩
  case min =>
    obtain ⟨below, found⟩ := (picksGreater_min int).foldl_greatest (xs := u.activeElts m a.r)
      (fun y => Int.neg_le_neg (le_eltValue_greatestOf u.vt.fmt y))
      fun y mem same => eltValue_inj (lt_of_mem_activeElts mem) (wrap_lt _ _) (Int.neg_inj.mp same)
    exact ⟨_, completes_vredInt greatestOf (fun f x y => (scanPick false f 0 x y).1) st free al int rfl rfl,
      fun y mem => Int.neg_le_neg_iff.mp (below y mem),
      found.imp_right fun ⟨empty, most⟩ => ⟨empty, fun y => Int.neg_le_neg_iff.mp (most y)⟩⟩
  case fsum =>
    exact ends_vredFp (fun _ => 0) (fun p rm l => pairTree (fun x y => fAdd p rm (p.decode x) (p.decode y)) l.length l 0) st free al fp rfl
  case fosum =>
    exact ends_vredFp (fun _ => 0)
      (fun p rm l => inOrder (fun x y => fAdd p rm (p.decode x) (p.decode y)) l.tail (l.headD 0) 0) st free al fp rfl
  case fmax =>
    exact ends_vredFp (fun p => p.infBits true) (fun p _ l => inOrder (fMinMax p true) l.tail (l.headD 0) 0) st free al fp rfl
  case fmin =>
    exact ends_vredFp (fun p => p.infBits false) (fun p _ l => inOrder (fMinMax p false) l.tail (l.headD 0) 0) st free al fp rfl

end Sys2Proof.Machine

/-! # Tiles (spec/14: R306) -/

namespace Sys2Proof.Machine

/-- A tile below TILES passes the check of R44. -/
theorem tissue_eq_issue {h : Hdr} {n : Fin 4} {rs : List (Fin 32)} {s : State} {body : State → Res}
    (lt : n.val < s.hart.place.tiles) : tissue h n rs s body = issue h rs s body :=
  if_neg (Nat.not_le.mpr lt)

/-- A tile instruction on a tile below TILES completes with the effect of its body. -/
theorem completes_tissue {i : Instr} {h : Hdr} {n : Fin 4} {rs : List (Fin 32)} {s u v : State} {body : State → Res}
    (lt : n.val < s.hart.place.tiles) (st : Starts h rs s u) (e : exec i s = tissue h n rs s body) (b : body u = .done v) :
    Completes i s v :=
  completes_issue st (e.trans (tissue_eq_issue lt)) b

/-- A tile without listed cells holds zero everywhere, in either mode. -/
@[simp] theorem Tile.cell_nil (int : Bool) (i j : Nat) : (Tile.mk int []).cell i j = 0 := rfl

/-- Settles O41: the body of TZERO is one write of the tile without listed cells, in the mode that the instruction names; nothing in it
reads vl, mcfg or a mask. -/
theorem tileZero : Obligations.TileZero := by
  intro h d int s u lt st
  exact ⟨⟨int, []⟩, completes_tissue lt st rfl rfl, rfl, Tile.cell_nil int⟩

end Sys2Proof.Machine
